-- ==== Sys2Proof/Word.lean ====
section
/-! DEFINITION. The word types of the Dyide-7 and their plainest arithmetic (spec/00 R2, R3; spec/03 R63). -/

namespace Sys2Proof

/-- A byte of memory. -/
abbrev Byte := BitVec 8
/-- A register word (R6). -/
abbrev Word := BitVec 32
/-- A 64-bit value held in an even-aligned pair (R63) or an instruction word (R42). -/
abbrev DWord := BitVec 64
/-- A virtual address or program counter, 56 bits (R6, R228). -/
abbrev VAddr := BitVec 56
/-- A lane mask of one group (R148). -/
abbrev Mask := BitVec 32

/-- The 64-bit value of a pair: `lo` holds bits 31:0, `hi` bits 63:32 (R63). -/
def pairOf (lo hi : Word) : DWord := hi ++ lo
/-- Bits 31:0 of a 64-bit value. -/
def lo32 (x : DWord) : Word := x.setWidth 32
/-- Bits 63:32 of a 64-bit value. -/
def hi32 (x : DWord) : Word := (x >>> 32).setWidth 32

/-- Lane `l` is in mask `m`. -/
def inMask (m : Mask) (l : Nat) : Bool := m.getLsbD l
/-- The lanes of a mask in rising order. -/
def lanesOf (m : Mask) : List Nat := (List.range 32).filter (inMask m)
/-- The mask of a list of lanes. -/
def maskOf (ls : List Nat) : Mask := ls.foldl (fun m l => m ||| (1#32 <<< l)) 0#32

/-- Rounding down to a multiple. -/
def alignDown (n k : Nat) : Nat := n / k * k
/-- Rounding up to a multiple. -/
def alignUp (n k : Nat) : Nat := (n + k - 1) / k * k
/-- Ceiling division. -/
def ceilDiv (n k : Nat) : Nat := (n + k - 1) / k

end Sys2Proof
end

