-- ==== Sys2Proof/Syntax.lean ====
section
/-! DEFINITION. The instructions and events of spec/opcode_table.json, one constructor per row. Rows 1 to 164 are words of the clause classes (spec/02); rows 165 to 257 are steps of the scheduler, the engines, the command processor, the host and the firmware. -/

namespace Sys2Proof

/-- A 9-bit operand field (R50). -/
abbrev Opnd := BitVec 9
/-- A predicate number, p0 to p7. -/
abbrev PNum := BitVec 3

/-- The guard p[GP] XOR GN (R42). -/
structure Guard where
  neg : Bool
  p : PNum
  deriving DecidableEq, Repr

/-- Clause classes (R35). -/
inductive Cls | S | V | M | C | X
  deriving DecidableEq, Repr

/-- Clause roles (R35). -/
inductive Role | computer | storer | loader | inherit
  deriving DecidableEq, Repr

/-- Fields of a format A word but its modifiers (R43). `et` is bits 13:11. -/
structure WA where
  g : Guard
  d : Opnd
  a : Opnd
  b : Opnd
  c : Opnd
  ret : BitVec 2
  et : BitVec 3
  deriving DecidableEq, Repr

/-- Fields of a format I word (R44). -/
structure WI where
  g : Guard
  d : Opnd
  a : Opnd
  eta : Bool
  imm : Word
  deriving DecidableEq, Repr

/-- Access widths of format M (R46). -/
inductive Width | w1 | w2 | w4 | w8 | w16
  deriving DecidableEq, Repr
/-- Scopes of format M (R46). -/
inductive Scope | thread | group | block | cluster | die | device | system
  deriving DecidableEq, Repr
/-- Order codes of format M (R45). -/
inductive Order | plain | acquire | release | acqRel
  deriving DecidableEq, Repr

/-- Fields of a format M word that a mnemonic does not fix (R45). A plain access carries scope `thread`, since SCOPE is then ignored (R46). -/
structure WM where
  g : Guard
  data : Opnd
  base : Opnd
  scope : Scope
  ord : Order
  wid : Width
  ofs : BitVec 20
  deriving DecidableEq, Repr

/-- Fields of a format E word (R48). -/
structure WE where
  g : Guard
  a : Opnd
  b : Opnd
  c : Opnd
  wait : BitVec 16
  set : BitVec 4
  sen : Bool
  deriving DecidableEq, Repr

/-- Fields of a C-class format E word, which sets no slot (R48). -/
structure WC where
  g : Guard
  a : Opnd
  b : Opnd
  c : Opnd
  wait : BitVec 16
  deriving DecidableEq, Repr

/-- IEEE rounding modes (R66). -/
inductive Rnd | rn | rz | rd | ru
  deriving DecidableEq, Repr
/-- Comparison codes of the compare layout (R54). -/
inductive Cmp | eq | ne | lt | le | gt | ge
  deriving DecidableEq, Repr
/-- IEEE formats (R65). -/
inductive FFmt | f32 | f16 | bf16
  deriving DecidableEq, Repr
/-- Tapered formats (R70). -/
inductive NFmt | t8 | t6
  deriving DecidableEq, Repr
/-- Formats of CVT (R112). -/
inductive CFmt | s32 | u32 | f (k : FFmt) | n (k : NFmt)
  deriving DecidableEq, Repr
/-- Operations of PSETP (R103). -/
inductive POp | and | or | xor | andn
  deriving DecidableEq, Repr
/-- SHFL modes (R183). -/
inductive ShMode | idx | up | down | xor
  deriving DecidableEq, Repr
/-- SHFL segments (R183). -/
inductive Seg | w32 | w16 | w8 | w4 | w2
  deriving DecidableEq, Repr
/-- VOTE operations (R184). -/
inductive VoteOp | all | any | uni
  deriving DecidableEq, Repr
/-- REDUX and SCAN operations (R186). -/
inductive RedOp | add | min | max | and | or | xor
  deriving DecidableEq, Repr
/-- ATOM operations (R57). -/
inductive AtomOp | add | minS | minU | maxS | maxU | and | or | xor | exch
  deriving DecidableEq, Repr
/-- The shared and the scratchpad space, the two an atomic accepts (R241). -/
inductive ASpace | shared | scratch
  deriving DecidableEq, Repr
/-- Coordinate sources of the copies (R298). -/
inductive CSrc | creg | cmem
  deriving DecidableEq, Repr
/-- The three forms of DSREAD (R370). -/
inductive DsSel | cur | frame | pend
  deriving DecidableEq, Repr

/-- The carry layout (R54). -/
structure CarryMod where
  pd : PNum
  ps : PNum
  neg : Bool
  deriving DecidableEq, Repr
/-- The plogic layout (R54). -/
structure PLogic where
  pd : PNum
  pa : PNum
  pb : PNum
  op : POp
  deriving DecidableEq, Repr
/-- The shuffle layout (R54). -/
structure ShMod where
  pd : PNum
  mode : ShMode
  seg : Seg
  deriving DecidableEq, Repr

/-- Engine kinds of a timeline selector (R263). -/
inductive Eng | copy (n : Nat) | matrix | attention | page | coll | handle
  deriving DecidableEq, Repr

/-- A thread unit that issues: a group of a block, or the block's front-end thread. Blocks are named by the number the model gave them at creation. -/
inductive UnitRef | group (blk g : Nat) | front (blk : Nat)
  deriving DecidableEq, Repr

/-- What a sense and decode of a flash page gave (R312): the environment's choice; or a line of a decoded page that is written into the shelf (R283). -/
inductive Decoded | good (cbits : Nat) | failed | landed (line : Nat)
  deriving DecidableEq, Repr

/-- What an engine does next: the next step of operation or block `n`, or its piece `k` (R281). -/
inductive EngStep
  | next (n : Nat)
  | piece (n k : Nat)
  deriving DecidableEq, Repr
/-- Whose step it is. -/
def EngStep.of : EngStep → Nat
  | .next n | .piece n _ => n
/-- The piece that it names. -/
def EngStep.piece? : EngStep → Option Nat
  | .next _ => none
  | .piece _ k => some k
/-- The TLB that a walk fills: that of a core, or the walk-ahead TLB of its copy front (R235, R303). -/
inductive TlbRef
  | lanes (core : Nat)
  | ahead (core : Nat)
  deriving DecidableEq, Repr
def TlbRef.core : TlbRef → Nat
  | .lanes c | .ahead c => c
/-- A result that an instruction would write (R442): a register or a predicate of the lane, an entry of a ring or of the accumulator store by its key, one of the block's decision tray or of a stage channel, or stored bytes by their key. -/
inductive ErrRes
  | reg (r : Nat)
  | pred
  | entry (key : Nat)
  | tray (i : Nat)
  | chan (n i : Nat)
  | stored (key : Nat)
  deriving DecidableEq, Repr
/-- Where a soft error lands (R443): registers are a group's, or the front-end thread's s0 to s63. -/
inductive ErrPlace
  | reg (u : UnitRef) (lane r : Nat)
  | fullBit (u : UnitRef) (lane r : Nat)
  | granule (key : Nat)
  | presence (blk line : Nat)
  | accEntry (core row col : Nat)
  | threadCtl (blk g lane : Nat)
  | frontCtl (blk : Nat)
  | engineCmd (blk : Nat) (e : Eng) (no : Nat)
  | tlb (t : TlbRef) (n : Nat)
  | packet (slot : Nat)
  | latch (core : Nat)
  | result (u : UnitRef) (lane : Nat) (r : ErrRes)
  deriving DecidableEq, Repr

/-- BAR0 registers with no behaviour of their own (R491), by name: the spec gives the groups' places and not every field's. -/
inductive HostReg
  | ctxWord (ctx ofs : Nat)
  | partMask (p : Nat)
  | faultCtl (p : Nat)
  | linkTimeout (p : Nat)
  | bar4Base
  | scrubRate (core level : Nat)
  | ctxCounter (ctx idx : Nat)
  | pkgCounter (idx : Nat)
  | invalidateWord (i : Nat)
  | ovrClear
  | queueEntry (ctx q ofs : Nat)
  deriving DecidableEq, Repr
/-- What the host reads in BAR0 (R491), by name: the registers above; a core's logs and counters; the debug interface; BUSY; the mailboxes. -/
inductive HostWord
  | of (r : HostReg)
  /-- The error log of a level: instance, entry, and which half of its 16 bytes (R445). -/
  | errLog (level inst k : Nat) (hi : Bool)
  /-- Counters 0x00 and 0x08 to 0x0A of a core (R440). -/
  | coreCounter (core idx : Nat)
  | breakpoint (ctx i : Nat)
  | invalidateBusy
  /-- The words that the host wrote last: a partition's fault answer, a group halt, a debug resume (R419, R436). -/
  | faultAnswer (part : Nat)
  | groupHalt
  | debugResume
  /-- A flash write's source, first page, count and kind of source as the host wrote them, and DONE (R497). -/
  | flashBox (i : Nat)
  | flashDone
  /-- The attestation report, 8 bytes at a time (R495). -/
  | report (i : Nat)
  | lifeCycle
  /-- The stage at which boot failed (R493). -/
  | bootStage
  deriving DecidableEq, Repr

/-- The memories a scrubber serves (R444). -/
inductive Level | vrf | shared | slice | acc | cabinet | hbm
  deriving DecidableEq, Repr

/-- One constructor per row of spec/opcode_table.json. -/
inductive Instr
  -- integer arithmetic (R91-R95)
  | iadd (w : WA) | isub (w : WA) | iaddc (w : WA) (m : CarryMod) | isubb (w : WA) (m : CarryMod)
  | imul (w : WA) | imulh (w : WA) (sgn : Bool) | imad (w : WA) | imadw (w : WA) (sgn : Bool)
  | idiv (w : WA) (sgn : Bool) | irem (w : WA) (sgn : Bool) | iabs (w : WA) | ineg (w : WA)
  | imin (w : WA) (sgn : Bool) | imax (w : WA) (sgn : Bool) | iclamp (w : WA) (sgn : Bool)
  | lea (w : WA) (sh : BitVec 5) | iadd64 (w : WA) | imad64 (w : WA) (sgn : Bool)
  -- compare, select, move (R101-R106)
  | isetp (w : WA) (pd : PNum) (op : Cmp) (sgn : Bool) | psetp (w : WA) (m : PLogic)
  | sel (w : WA) (ps : PNum) (neg : Bool) | mov (w : WA) | movi (w : WI) | movp (w : WA) (toPred : Bool)
  -- logic, shifts, bit fields (R96-R100)
  | and (w : WA) | or (w : WA) | xor (w : WA) | andn (w : WA) | not (w : WA) | bmix (w : WA) (t : BitVec 8)
  | shl (w : WA) | shr (w : WA) | sar (w : WA) | rotl (w : WA) | shf (w : WA) (right : Bool)
  | popc (w : WA) | clz (w : WA) | ctz (w : WA) | brev (w : WA)
  | bfx (w : WA) (sgn : Bool) | bfi (w : WA) | bswz (w : WA)
  -- immediate forms (R93)
  | iaddImm (w : WI) | imulImm (w : WI) | andImm (w : WI) | orImm (w : WI) | xorImm (w : WI)
  | shlImm (w : WI) | shrImm (w : WI) | sarImm (w : WI)
  -- floating point (R107-R111)
  | fadd (w : WA) (r : Option Rnd) | fmul (w : WA) (r : Option Rnd) | ffma (w : WA) (r : Option Rnd)
  | fmin (w : WA) | fmax (w : WA) | frnd (w : WA) (r : Option Rnd) | fclass (w : WA)
  | fsetp (w : WA) (pd : PNum) (op : Cmp) (fmt : FFmt)
  | hadd2 (w : WA) (bf : Bool) (r : Option Rnd) | hmul2 (w : WA) (bf : Bool) (r : Option Rnd)
  | hfma2 (w : WA) (bf : Bool) (r : Option Rnd)
  | frcp (w : WA) (r : Option Rnd) | frsq (w : WA) | fsqrt (w : WA) (r : Option Rnd)
  | fexp2 (w : WA) | flog2 (w : WA) | ftanh (w : WA)
  -- conversion (R112-R115)
  | cvt (w : WA) (dst src : CFmt) (r : Option Rnd)
  | ncvt (w : WA) (dst : NFmt) (src : FFmt) (r : Option Rnd)
  | ndec (w : WA) (dst : FFmt) (src : NFmt) (r : Option Rnd)
  -- control transfer (R116-R123)
  | bra (g : Guard) (ofs : Word) | brx (w : WA) | ret (w : WA)
  | call (g : Guard) (link : Opnd) (ofs : Word) | callx (w : WA) | meet (g : Guard) (ofs : Word)
  | exit (g : Guard) | yield (g : Guard) | nop (g : Guard)
  | hint (n : BitVec 4) (payload : BitVec 56)
  | sread (w : WA) (sticky : Bool) | swrite (w : WA) (sticky : Bool)
  -- group instructions (R183-R192)
  | shfl (w : WA) (m : ShMod) | vote (w : WA) (pd : PNum) (op : VoteOp) (ps : PNum) (neg : Bool)
  | ballot (w : WA) (ps : PNum) (neg : Bool) | elect (w : WA) (pd : PNum) | actmask (w : WA)
  | matchLanes (w : WA) (wide : Bool) | redux (w : WA) (op : RedOp) (sgn : Bool)
  | scan (w : WA) (op : RedOp) (excl sgn : Bool) | nscale (w : WA) (t6 : Bool)
  | bar (w : WI) | cbar (w : WI)
  -- queues, tray, token, selection (R193-R199)
  | qtry (w : WA) (pd : PNum) | qcfg (w : WI) | qlen (w : WA) | ptok (w : WI) | trayw (w : WA) | ssel (w : WI)
  -- stage channels, range tasks, grid results (R200-R210)
  | chsend (w : WA) (up : Bool) | chrecv (w : WA) (up : Bool)
  | rtlaunch (w : WA) | rtclaim (w : WA) (pd : PNum) | gsig (w : WA) | gwait (w : WA)
  -- memory (R240-R262)
  | lds (w : WM) (sx : Bool) | ldp (w : WM) (sx : Bool) | ldk (w : WM) (sx : Bool)
  | sts (w : WM) | stp (w : WM) | stk (w : WM)
  | atom (w : WM) (sp : ASpace) (op : AtomOp) | acas (w : WM) (sp : ASpace)
  | presw (w : WM) (set : Bool) | presq (w : WM) | fence (w : WM)
  | bbinit (w : WM) | bbexp (w : WM) | bbarv (w : WM) | bbwait (w : WM)
  | tlread (w : WC) | tlwait (w : WC)
  -- copies and weight streams (R296-R318)
  | trec (w : WC) | cpy (w : WC) (src : CSrc) | cpys (w : WC) (src : CSrc) | cpyg (w : WC) (src : CSrc)
  | cpyc (w : WC) (src : CSrc) | wstreamStart (w : WC) | wstreamRel (w : WC) | wstreamStop (w : WC)
  -- matrix (R338-R344)
  | mwld (w : WE) | mloop (w : WE) | mrowsc (w : WE) | mdrain (w : WE) | mzero (w : WE) | mstat (w : WE) (clr : Bool)
  -- attention and survivors (R352-R364)
  | aseq (w : WE) | atile (w : WE) | amask (w : WE) | svmap (w : WE) | svset (w : WE) | svclr (w : WE)
  -- duplex streams (R370-R373)
  | dsread (w : WE) (sel : DsSel) | dscommit (w : WE) | dstruncFrame (w : WE) | dstruncPos (w : WE)
  | dsckptSave (w : WE) | dsckptRel (w : WE)
  -- handles, collectives, signals (R469-R481)
  | hnew (w : WC) | hcopy (w : WC) | hdrop (w : WC) | hbind (w : WC) | hderef (w : WC) | hwt (w : WC)
  | collAr (w : WC) | collAg (w : WC) | collRs (w : WC) | xsigSet (w : WC) | xsigAdd (w : WC)
  -- X class (R432-R440)
  | trap (w : WI) | svc (w : WI) | bkpt (w : WI) | statrd (w : WA) (ix : BitVec 8) | statclr (w : WA) (ix : BitVec 8)
  -- scheduler and memory steps
  /-- Scheduler `sched` (0-3, 4 the front-end processor) of core `core` selects (R166, R152). -/
  | schedulerSelect (core sched : Nat)
  | fairnessTimerExpiry (blk g : Nat)
  | ageingPromotion (blk g : Nat)
  | clauseBreak (u : UnitRef)
  | meetingRelease (blk g : Nat) (addr : VAddr)
  /-- The returned value with access number `id` fills its register (R25). -/
  | registerFill (id : Nat)
  | sqDeparture (u : UnitRef)
  /-- The head of OC(core, slice) is performed; `slice` counts 192 per package (R272). -/
  | ocDelivery (core slice : Nat)
  /-- A walk ends and is cached in the core TLB, or in the walk-ahead TLB of the copy front (R235, R303). -/
  | tlbWalkComplete (tlb : TlbRef) (ctx : Nat) (va : VAddr)
  | blockAdmission (grid : Nat)
  | blockEnd (blk : Nat)
  | idleRequest (grid core : Nat)
  | gwaitBenchDelayExpiry (blk : Nat)
  | blockReturn (blk : Nat)
  | gwaitLimitExpiry (u : UnitRef)
  | holdLimitExpiry (u : UnitRef)
  | groupReturn (blk g : Nat)
  -- engine steps
  /-- The next tile of a copy is translated, or a line of a translated tile is moved (R303). -/
  | copyTile (blk ctx : Nat) (st : EngStep)
  | copyLineLanding (blk ctx no line : Nat)
  | engineOperationComplete (blk : Nat) (e : Eng) (no : Nat)
  | matrixOperationBegin (core : Nat) (drain : Bool)
  | matrixKstep (core : Nat)
  | mdrainLineLanding (blk no line : Nat)
  /-- The head operation of a block's attention context goes on, or lands one of its shared lines (R281, R359). -/
  | attentionGatherBlock (st : EngStep)
  | shelfReservation (grid : Nat)
  /-- The sense with number `sense` ends; the environment gives the decode's outcome (R312). -/
  | pageSenseDone (sense : Nat) (res : Decoded)
  | pageBackingFetchDone (sense : Nat)
  | wstreamLayerStart (blk : Nat)
  | dropMessageArrival (core home : Nat)
  | bindMessageArrival (core home : Nat)
  | finaliserStart
  /-- Participant `no` of block `blk` joins; ranks on other packages supply their source bytes with their poison (R479, R480); or a piece of its destination is written (R281). -/
  | collectiveJoin (blk : Nat) (st : EngStep) (remote : List (Nat × List Byte × List Bool))
  -- stream unit
  | frameWindowWrite (ctx : Nat) (ofs : Nat) (bytes : List Byte)
  | frameArrival
  | q17Push (blk : Nat)
  -- command processor
  | queueNotify (ctx q : Nat) (idx : Nat)
  | queueSlotAssign
  | packetFetch (slot : Nat)
  | tagRefetch (slot : Nat)
  | nopPacket (slot : Nat) | launch (slot : Nat) | launchPages (slot : Nat) | range (slot : Nat)
  | resume (slot : Nat) | save (slot : Nat) | ib (slot : Nat) | pred (slot : Nat) | loop (slot : Nat)
  | wait (slot : Nat) | waitPoll (slot : Nat) | waitPark (slot : Nat) | parkedWaitPoll (ctx q : Nat) | waitStall (ctx q : Nat)
  | signal (slot : Nat) | fetchFence (slot : Nat) | complete (slot : Nat) | packetRetire (ctx q : Nat)
  | completionQueueWrite (ctx cq : Nat) | cqTimerExpiry (ctx cq : Nat)
  -- host doorbells and faults
  | cqread (ctx cq idx : Nat) | fqread (ctx idx : Nat) | faultRecordPost (ctx : Nat)
  | svcreply (ctx idx : Nat) | faultAnswerResume (ctx idx : Nat) | faultAnswerAbandon (ctx idx : Nat)
  | haltSequence (part : Nat) | stopRecordWrite (part : Nat) | contextHalted (part : Nat)
  | breakpointTrigger (u : UnitRef) | debugGroupHalt (blk g : Nat) | debugResume (u : UnitRef)
  | breakpointSet (ctx : Nat) (addrs : List VAddr)
  | translationInvalidate (ctx : Nat) (base : VAddr) (pages : Nat) | invalidateComplete
  | flashWriteRequest (host : Bool) (src : Nat) (page count : Nat) | flashWriteDone
  | attestationRequest (nonce : List Byte) | lifecycleRequest (tgt : Nat)
  | queueRestart (ctx q idx : Nat) | contextDestroy (ctx : Nat) | registerWrite (r : HostReg) (v : DWord)
  -- housekeeping and environment
  | heartbeatSend (core : Nat) | heartbeatWindowExpiry (core : Nat) | watchdogReport
  | watchdogExpiry
  /-- Reset and boot; `good` says for each of the three images whether its signature verifies (R493). -/
  | resetBoot (good : List Bool)
  | clockThrottleStep (core : Nat) | scrubTick (level : Level) (inst : Nat)
  | linkFlitReplay (link : Nat) | linkRouteLost (pkg : Nat) | linkTimeout (pkg : Nat)
  | softError (p : ErrPlace) (correctable : Bool)
  | bar4Write (ofs : Nat) (bytes : List Byte)
  deriving DecidableEq, Repr

end Sys2Proof
end

