-- ==== Sys2Proof/WellFormed.lean ====
section
/-! DEFINITION. Which instruction terms the encodings and the machine's limits allow (spec/02 R46, R54-R57; limits of R1, R147, R399 for the events). -/

namespace Sys2Proof

/-- Cores of a package (R1). -/
def nCores : Nat := 192

/-- A plain access carries scope `thread`, since SCOPE is ignored (R46). -/
def WM.scopeOk (w : WM) : Bool := w.ord != .plain || w.scope == .thread
/-- The ORD codes of loads and PRESQ (R241). -/
def WM.ordLoad (w : WM) : Bool := w.scopeOk && (w.ord == .plain || w.ord == .acquire)
/-- The ORD codes of stores and PRESW (R241). -/
def WM.ordStore (w : WM) : Bool := w.scopeOk && (w.ord == .plain || w.ord == .release)
/-- The ORD code of the byte-barrier instructions, and their width (R241, R261). -/
def WM.ordBB (w : WM) : Bool := w.scopeOk && w.ord == .plain && w.wid == .w8
/-- Widths of ATOM and ACAS (R57). -/
def WM.atomWidth (w : WM) : Bool := w.scopeOk && (w.wid == .w4 || w.wid == .w8)
/-- Sign extension exists at widths 1 and 2 only (R57). -/
def WM.sxOk (w : WM) (sx : Bool) : Bool := !sx || w.wid == .w1 || w.wid == .w2

/-- Status items of R440. -/
def statusItems : List Nat := [0, 1, 2, 3, 4, 5, 6, 7, 8, 9, 10, 11, 12, 13]
/-- Status items that STATCLR may clear (R440). -/
def clearableItems : List Nat := [1, 2, 3, 4, 5, 6, 7, 11, 12, 13]

/-- A context number, 0 to 4,095 (R376, R488). -/
def ctxOk (c : Nat) : Bool := c < 4096
/-- A core number, 48d + c (R173). -/
def coreOk (c : Nat) : Bool := c < nCores
/-- A hardware queue slot (R376). -/
def slotOk (n : Nat) : Bool := n < 128
/-- A copy context (R291). -/
def Eng.ok : Eng → Bool
  | .copy n => n < 4
  | _ => true

/-- The checks an instruction term must pass. -/
def wellFormed : Instr → Bool
  | .cvt _ d s _ => d != s
  | .lds w sx | .ldp w sx | .ldk w sx => w.ordLoad && w.sxOk sx
  | .sts w | .stp w | .stk w => w.ordStore
  | .atom w _ _ | .acas w _ => w.atomWidth
  | .presw w _ => w.ordStore
  | .presq w => w.ordLoad
  | .fence w => w.ord != .plain
  | .bbinit w | .bbexp w | .bbarv w | .bbwait w => w.ordBB
  | .statrd _ ix => statusItems.contains ix.toNat
  | .statclr _ ix => clearableItems.contains ix.toNat
  | .schedulerSelect c s => coreOk c && s ≤ 4
  | .fairnessTimerExpiry _ g | .ageingPromotion _ g | .meetingRelease _ g _ | .groupReturn _ g
  | .debugGroupHalt _ g => g < 32
  | .ocDelivery c s => coreOk c && s < 32 * nCores
  | .tlbWalkComplete t x _ => coreOk t.core && ctxOk x
  | .idleRequest _ c => coreOk c
  | .copyTile _ c _ | .copyLineLanding _ c _ _ => c < 4
  | .engineOperationComplete _ e _ => e.ok
  | .matrixOperationBegin c _ | .matrixKstep c => coreOk c
  | .dropMessageArrival c h | .bindMessageArrival c h => c < nCores + 128 && h < 128
  | .frameWindowWrite x o bs => ctxOk x && bs != [] && 0x9000 ≤ o && o + bs.length ≤ 0x9020
  | .queueNotify x q _ => ctxOk x && q < 4096
  | .packetFetch s | .tagRefetch s | .nopPacket s | .launch s | .launchPages s | .range s | .resume s | .save s
  | .ib s | .pred s | .loop s | .wait s | .waitPoll s | .waitPark s | .signal s | .fetchFence s | .complete s => slotOk s
  | .parkedWaitPoll x q | .waitStall x q | .packetRetire x q => ctxOk x && q < 4096
  | .completionQueueWrite x q | .cqTimerExpiry x q => ctxOk x && q < 256
  | .cqread x q _ => ctxOk x && q < 256
  | .fqread x _ | .faultRecordPost x | .svcreply x _ | .faultAnswerResume x _ | .faultAnswerAbandon x _ => ctxOk x
  | .haltSequence p | .stopRecordWrite p | .contextHalted p => p < 8
  | .breakpointSet x as => ctxOk x && as.length ≤ 4
  | .translationInvalidate x b n => ctxOk x && b.toNat % 65536 == 0 && n < 2 ^ 32
  | .attestationRequest nonce => nonce.length == 64
  | .lifecycleRequest t => t < 4
  | .queueRestart x q _ => ctxOk x && q < 4096
  | .contextDestroy x => ctxOk x
  | .heartbeatSend c | .heartbeatWindowExpiry c | .clockThrottleStep c => coreOk c
  | .scrubTick l c => match l with | .slice => c < 4 | .hbm => c < 8 | _ => coreOk c
  | .resetBoot good => good.length == 3
  | .linkFlitReplay l => l < 24
  | .linkRouteLost p | .linkTimeout p => p < 32
  | .bar4Write o bs => o + bs.length ≤ 64 * 2 ^ 30
  | _ => true

end Sys2Proof
end

