-- ==== Sys2Proof/Decode.lean ====
section
/-! DEFINITION. From the 64-bit words of a clause to instructions and back (spec/02 R35, R42-R61). -/

namespace Sys2Proof

/-- Why a word is no instruction (R62): its opcode is not assigned in the class (step 2), or one of its codes is reserved (step 4, after the guard test of step 3). -/
inductive DecodeError
  | unassigned
  | reserved (g : Guard)
  | short
  deriving DecidableEq, Repr

/-- A clause header (R35). -/
structure Header where
  cls : Option Cls
  count : Nat
  role : Role
  wait : BitVec 16
  yield : Bool
  waf : Bool
  deriving DecidableEq, Repr

/-- Classes 5 to 7 are no class (R35). -/
def clsOf (b : BitVec 3) : Option Cls :=
  match b.toNat with
  | 0 => some .S | 1 => some .V | 2 => some .M | 3 => some .C | 4 => some .X | _ => none
/-- ROLE codes (R35). -/
def roleOf (b : BitVec 2) : Role :=
  match b.toNat with
  | 0 => .computer | 1 => .storer | 2 => .loader | _ => .inherit

/-- The header's fields; COUNT holds the number of words minus 1 (R35). -/
def headerOf (w : DWord) : Header :=
  ⟨clsOf (w.extractLsb' 61 3), (w.extractLsb' 57 4).toNat + 1, roleOf (w.extractLsb' 55 2), w.extractLsb' 39 16, w.getLsbD 38, w.getLsbD 37⟩

/-- The guard fields (R42). -/
def guardOf (w : DWord) : Guard := ⟨w.getLsbD 55, w.extractLsb' 52 3⟩
/-- Format A (R43). -/
def waOf (w : DWord) : WA :=
  ⟨guardOf w, w.extractLsb' 43 9, w.extractLsb' 34 9, w.extractLsb' 25 9, w.extractLsb' 16 9, w.extractLsb' 14 2, w.extractLsb' 11 3⟩
/-- Format I (R44). -/
def wiOf (w : DWord) : WI := ⟨guardOf w, w.extractLsb' 43 9, w.extractLsb' 34 9, w.getLsbD 33, w.extractLsb' 0 32⟩
/-- Format E (R48). -/
def weOf (w : DWord) : WE :=
  ⟨guardOf w, w.extractLsb' 43 9, w.extractLsb' 34 9, w.extractLsb' 25 9, w.extractLsb' 9 16, w.extractLsb' 5 4, w.getLsbD 4⟩
/-- Format E in the C class, whose bits 8:4 are ignored (R48). -/
def wcOf (w : DWord) : WC := ⟨guardOf w, w.extractLsb' 43 9, w.extractLsb' 34 9, w.extractLsb' 25 9, w.extractLsb' 9 16⟩
/-- SUB and OFS of format B (R47). -/
def subB (w : DWord) : BitVec 16 := w.extractLsb' 32 16
/-- OFS of format B (R47). -/
def ofsB (w : DWord) : Word := w.extractLsb' 0 32
/-- SPC of format M (R45). -/
def spcM (w : DWord) : BitVec 2 := w.extractLsb' 24 2
/-- SUB of format M (R45). -/
def subM (w : DWord) : BitVec 4 := w.extractLsb' 20 4

/-- WID codes (R46). -/
def widthOf (b : BitVec 3) : Option Width :=
  match b.toNat with
  | 0 => some .w1 | 1 => some .w2 | 2 => some .w4 | 3 => some .w8 | 4 => some .w16 | _ => none
/-- SCOPE codes (R46). -/
def scopeOf (b : BitVec 3) : Option Scope :=
  match b.toNat with
  | 0 => some .thread | 1 => some .group | 2 => some .block | 3 => some .cluster | 4 => some .die
  | 5 => some .device | 6 => some .system | _ => none
/-- ORD codes (R45). -/
def orderOf (b : BitVec 2) : Order :=
  match b.toNat with
  | 0 => .plain | 1 => .acquire | 2 => .release | _ => .acqRel
/-- Format M; WID 5-7 is illegal, and SCOPE 7 when ORD is not 0 (R45, R46). -/
def wmOf (w : DWord) : Option WM :=
  (widthOf (w.extractLsb' 26 3)).bind fun wid =>
    let o := orderOf (w.extractLsb' 29 2)
    (if o = .plain then some .thread else scopeOf (w.extractLsb' 31 3)).map fun sc =>
      ⟨guardOf w, w.extractLsb' 43 9, w.extractLsb' 34 9, sc, o, wid, w.extractLsb' 0 20⟩

/-- Round codes (R54). -/
def rndOf (b : BitVec 3) : Option (Option Rnd) :=
  match b.toNat with
  | 0 => some none | 1 => some (some .rn) | 2 => some (some .rz) | 3 => some (some .rd) | 4 => some (some .ru) | _ => none
/-- Comparison codes (R54). -/
def cmpOf (b : BitVec 3) : Option Cmp :=
  match b.toNat with
  | 0 => some .eq | 1 => some .ne | 2 => some .lt | 3 => some .le | 4 => some .gt | 5 => some .ge | _ => none
/-- FSETP formats (R54). -/
def fFmtOf (b : BitVec 2) : Option FFmt :=
  match b.toNat with
  | 0 => some .f32 | 1 => some .f16 | 2 => some .bf16 | _ => none
/-- Format codes of the convert layout (R54). -/
def cFmtOf (b : BitVec 3) : Option CFmt :=
  match b.toNat with
  | 0 => some .s32 | 1 => some .u32 | 2 => some (.f .f32) | 3 => some (.f .f16) | 4 => some (.f .bf16)
  | 5 => some (.n .t8) | 6 => some (.n .t6) | _ => none
/-- The IEEE formats among them (R114, R115). -/
def iFmtOf (b : BitVec 3) : Option FFmt :=
  match b.toNat with
  | 2 => some .f32 | 3 => some .f16 | 4 => some .bf16 | _ => none
/-- The narrow formats among them (R114, R115). -/
def nFmtOf (b : BitVec 3) : Option NFmt :=
  match b.toNat with
  | 5 => some .t8 | 6 => some .t6 | _ => none
/-- PSETP operations (R54). -/
def pOpOf (b : BitVec 2) : POp :=
  match b.toNat with
  | 0 => .and | 1 => .or | 2 => .xor | _ => .andn
/-- SHFL modes (R54). -/
def shModeOf (b : BitVec 3) : Option ShMode :=
  match b.toNat with
  | 0 => some .idx | 1 => some .up | 2 => some .down | 3 => some .xor | _ => none
/-- SHFL segments (R54). -/
def segOf (b : BitVec 3) : Option Seg :=
  match b.toNat with
  | 0 => some .w32 | 1 => some .w16 | 2 => some .w8 | 3 => some .w4 | 4 => some .w2 | _ => none
/-- VOTE operations (R54). -/
def voteOf (b : BitVec 3) : Option VoteOp :=
  match b.toNat with
  | 0 => some .all | 1 => some .any | 2 => some .uni | _ => none
/-- REDUX and SCAN operations (R54). -/
def redOf (b : BitVec 3) : Option RedOp :=
  match b.toNat with
  | 0 => some .add | 1 => some .min | 2 => some .max | 3 => some .and | 4 => some .or | 5 => some .xor | _ => none
/-- ATOM sub-operations (R57). -/
def atomOpOf (b : BitVec 4) : Option AtomOp :=
  match b.toNat with
  | 0 => some .add | 1 => some .minS | 2 => some .minU | 3 => some .maxS | 4 => some .maxU | 5 => some .and
  | 6 => some .or | 7 => some .xor | 8 => some .exch | _ => none

/-- Loads: SUB 0 or 1, ORD 0 or 1 (R57, R241). -/
def loadOf (w : DWord) : Option (WM × Bool) :=
  (wmOf w).bind fun m =>
    match (subM w).toNat with
    | 0 => if m.ordLoad then some (m, false) else none
    | 1 => if m.ordLoad && m.sxOk true then some (m, true) else none
    | _ => none
/-- Stores: SUB 0, ORD 0 or 2 (R57, R241). -/
def storeOf (w : DWord) : Option WM :=
  (wmOf w).bind fun m => if subM w = 0#4 && m.ordStore then some m else none
/-- The space of an atomic (R241). -/
def aSpaceOf (b : BitVec 2) : Option ASpace :=
  match b.toNat with
  | 0 => some .shared | 1 => some .scratch | _ => none
/-- ATOM (R57, R241, R250). -/
def atomOf (w : DWord) : Option Instr :=
  (wmOf w).bind fun m => (aSpaceOf (spcM w)).bind fun sp => (atomOpOf (subM w)).bind fun op =>
    if m.atomWidth then some (.atom m sp op) else none
/-- ACAS (R57, R241, R252). -/
def acasOf (w : DWord) : Option Instr :=
  (wmOf w).bind fun m => (aSpaceOf (spcM w)).bind fun sp =>
    if subM w = 0#4 && m.atomWidth then some (.acas m sp) else none
/-- PRESW (R256). -/
def preswOf (w : DWord) : Option Instr :=
  (wmOf w).bind fun m =>
    if spcM w = 0#2 && m.ordStore then
      match (subM w).toNat with
      | 0 => some (.presw m false) | 1 => some (.presw m true) | _ => none
    else none
/-- PRESQ (R257). -/
def presqOf (w : DWord) : Option Instr :=
  (wmOf w).bind fun m => if spcM w = 0#2 && subM w = 0#4 && m.ordLoad then some (.presq m) else none
/-- FENCE: ORD 1 to 3, SPC 0; SUB is ignored (R241, R255). -/
def fenceOf (w : DWord) : Option Instr :=
  (wmOf w).bind fun m => if spcM w = 0#2 && m.ord != .plain then some (.fence m) else none
/-- Byte-barrier words: WID 3, SUB 0, ORD 0, SPC 0 (R241, R261). -/
def bbOf (w : DWord) : Option WM :=
  (wmOf w).bind fun m => if spcM w = 0#2 && subM w = 0#4 && m.ordBB then some m else none

/-- A word of the table that stands in both classes: none is a reserved code (R62 step 4). -/
def both (_ : Cls) (w : DWord) (r : Option Instr) : Except DecodeError Instr :=
  match r with
  | some i => .ok i
  | none => .error (.reserved (guardOf w))
/-- A word marked "no" in column S (R56). -/
def onlyV (cl : Cls) (w : DWord) (r : Option Instr) : Except DecodeError Instr :=
  if cl = .V then both cl w r else .error .unassigned
/-- A word marked "S only" (R56). -/
def onlyS (cl : Cls) (w : DWord) (r : Option Instr) : Except DecodeError Instr :=
  if cl = .S then both cl w r else .error .unassigned

/-- The V-class and S-class opcode map (R56). -/
def decodeVS (cl : Cls) (w : DWord) : Except DecodeError Instr :=
  let a := waOf w
  let i := wiOf w
  let md (lo n : Nat) : BitVec n := w.extractLsb' lo n
  let mb (k : Nat) : Bool := w.getLsbD k
  match (w.extractLsb' 56 8).toNat with
  | 0x00 => both cl w (some (.iadd a))
  | 0x01 => both cl w (some (.isub a))
  | 0x02 => both cl w (some (.iaddc a ⟨md 8 3, md 5 3, mb 4⟩))
  | 0x03 => both cl w (some (.isubb a ⟨md 8 3, md 5 3, mb 4⟩))
  | 0x04 => both cl w (some (.imul a))
  | 0x05 => both cl w (some (.imulh a (mb 0)))
  | 0x06 => both cl w (some (.imad a))
  | 0x07 => onlyV cl w (some (.imadw a (mb 0)))
  | 0x08 => onlyV cl w (some (.idiv a (mb 0)))
  | 0x09 => onlyV cl w (some (.irem a (mb 0)))
  | 0x0A => both cl w (some (.iabs a))
  | 0x0B => both cl w (some (.ineg a))
  | 0x0C => both cl w (some (.imin a (mb 0)))
  | 0x0D => both cl w (some (.imax a (mb 0)))
  | 0x0E => onlyV cl w (some (.iclamp a (mb 0)))
  | 0x0F => both cl w (some (.lea a (md 0 5)))
  | 0x10 => both cl w (some (.iadd64 a))
  | 0x11 => both cl w (some (.imad64 a (mb 0)))
  | 0x12 => both cl w ((cmpOf (md 5 3)).map fun k => .isetp a (md 8 3) k (mb 0))
  | 0x13 => both cl w (some (.psetp a ⟨md 8 3, md 5 3, md 2 3, pOpOf (md 0 2)⟩))
  | 0x14 => both cl w (some (.sel a (md 8 3) (mb 7)))
  | 0x15 => both cl w (some (.mov a))
  | 0x17 => both cl w (some (.movp a (mb 0)))
  | 0x18 => both cl w (some (.and a))
  | 0x19 => both cl w (some (.or a))
  | 0x1A => both cl w (some (.xor a))
  | 0x1B => both cl w (some (.andn a))
  | 0x1C => both cl w (some (.not a))
  | 0x1D => onlyV cl w (some (.bmix a (md 0 8)))
  | 0x1E => both cl w (some (.shl a))
  | 0x1F => both cl w (some (.shr a))
  | 0x20 => both cl w (some (.sar a))
  | 0x21 => onlyV cl w (some (.rotl a))
  | 0x22 => onlyV cl w (some (.shf a (mb 0)))
  | 0x23 => both cl w (some (.popc a))
  | 0x24 => both cl w (some (.clz a))
  | 0x25 => both cl w (some (.ctz a))
  | 0x26 => onlyV cl w (some (.brev a))
  | 0x27 => both cl w (some (.bfx a (mb 0)))
  | 0x28 => both cl w (some (.bfi a))
  | 0x29 => onlyV cl w (some (.bswz a))
  | 0x40 => onlyV cl w ((rndOf (md 0 3)).map fun r => .fadd a r)
  | 0x41 => onlyV cl w ((rndOf (md 0 3)).map fun r => .fmul a r)
  | 0x42 => onlyV cl w ((rndOf (md 0 3)).map fun r => .ffma a r)
  | 0x43 => onlyV cl w (some (.fmin a))
  | 0x44 => onlyV cl w (some (.fmax a))
  | 0x45 => onlyV cl w ((rndOf (md 0 3)).map fun r => .frnd a r)
  | 0x46 => onlyV cl w (some (.fclass a))
  | 0x47 => onlyV cl w ((cmpOf (md 5 3)).bind fun k => (fFmtOf (md 1 2)).map fun f => .fsetp a (md 8 3) k f)
  | 0x48 => onlyV cl w ((rndOf (md 0 3)).map fun r => .hadd2 a (mb 3) r)
  | 0x49 => onlyV cl w ((rndOf (md 0 3)).map fun r => .hmul2 a (mb 3) r)
  | 0x4A => onlyV cl w ((rndOf (md 0 3)).map fun r => .hfma2 a (mb 3) r)
  | 0x50 => onlyV cl w ((rndOf (md 0 3)).map fun r => .frcp a r)
  | 0x51 => onlyV cl w (some (.frsq a))
  | 0x52 => onlyV cl w ((rndOf (md 0 3)).map fun r => .fsqrt a r)
  | 0x53 => onlyV cl w (some (.fexp2 a))
  | 0x54 => onlyV cl w (some (.flog2 a))
  | 0x55 => onlyV cl w (some (.ftanh a))
  | 0x70 => onlyV cl w ((rndOf (md 0 3)).bind fun r => (cFmtOf (md 8 3)).bind fun d => (cFmtOf (md 5 3)).bind fun s => if d = s then none else some (.cvt a d s r))
  | 0x71 => onlyV cl w ((rndOf (md 0 3)).bind fun r => (nFmtOf (md 8 3)).bind fun d => (iFmtOf (md 5 3)).map fun s => .ncvt a d s r)
  | 0x72 => onlyV cl w ((rndOf (md 0 3)).bind fun r => (iFmtOf (md 8 3)).bind fun d => (nFmtOf (md 5 3)).map fun s => .ndec a d s r)
  | 0x81 => both cl w (some (.brx a))
  | 0x83 => both cl w (some (.callx a))
  | 0x84 => both cl w (some (.ret a))
  | 0x89 => both cl w (some (.sread a (mb 0)))
  | 0x8A => both cl w (some (.swrite a (mb 0)))
  | 0xA0 => onlyV cl w ((shModeOf (md 5 3)).bind fun k => (segOf (md 0 3)).map fun g => .shfl a ⟨md 8 3, k, g⟩)
  | 0xA1 => onlyV cl w ((voteOf (md 5 3)).map fun k => .vote a (md 8 3) k (md 2 3) (mb 1))
  | 0xA2 => onlyV cl w (some (.ballot a (md 2 3) (mb 1)))
  | 0xA3 => onlyV cl w (some (.elect a (md 8 3)))
  | 0xA4 => onlyV cl w (some (.actmask a))
  | 0xA5 => onlyV cl w (some (.matchLanes a (mb 0)))
  | 0xA6 => onlyV cl w ((redOf (md 5 3)).map fun k => .redux a k (mb 0))
  | 0xA7 => onlyV cl w ((redOf (md 5 3)).map fun k => .scan a k (mb 1) (mb 0))
  | 0xA8 => onlyV cl w (some (.nscale a (mb 0)))
  | 0xAB => both cl w (some (.qtry a (md 8 3)))
  | 0xAD => both cl w (some (.qlen a))
  | 0xAF => onlyS cl w (some (.trayw a))
  | 0xB1 => both cl w (some (.chsend a (mb 0)))
  | 0xB2 => both cl w (some (.chrecv a (mb 0)))
  | 0xB3 => both cl w (some (.rtlaunch a))
  | 0xB4 => both cl w (some (.rtclaim a (md 8 3)))
  | 0xB5 => both cl w (some (.gsig a))
  | 0xB6 => both cl w (some (.gwait a))
  | 0x16 => both cl w (some (.movi i))
  | 0x30 => both cl w (some (.iaddImm i))
  | 0x31 => both cl w (some (.imulImm i))
  | 0x32 => both cl w (some (.andImm i))
  | 0x33 => both cl w (some (.orImm i))
  | 0x34 => both cl w (some (.xorImm i))
  | 0x35 => both cl w (some (.shlImm i))
  | 0x36 => both cl w (some (.shrImm i))
  | 0x37 => both cl w (some (.sarImm i))
  | 0xA9 => onlyV cl w (some (.bar i))
  | 0xAA => onlyV cl w (some (.cbar i))
  | 0xAC => both cl w (some (.qcfg i))
  | 0xAE => both cl w (some (.ptok i))
  | 0xB0 => onlyS cl w (some (.ssel i))
  | 0x80 => both cl w (if subB w = 0#16 then some (.bra (guardOf w) (ofsB w)) else none)
  | 0x82 => both cl w (some (.call (guardOf w) ((subB w).setWidth 9) (ofsB w)))
  | 0x85 => onlyV cl w (if subB w = 0#16 then some (.meet (guardOf w) (ofsB w)) else none)
  | 0x86 => both cl w (some (.exit (guardOf w)))
  | 0x87 => both cl w (some (.yield (guardOf w)))
  | 0x88 => both cl w (some (.nop (guardOf w)))
  | 0xC0 => match (spcM w).toNat with
    | 0 => both cl w ((loadOf w).map fun (m, x) => .lds m x)
    | 1 => both cl w ((loadOf w).map fun (m, x) => .ldp m x)
    | 2 => onlyV cl w ((loadOf w).map fun (m, x) => .ldk m x)
    | _ => both cl w none
  | 0xC1 => match (spcM w).toNat with
    | 0 => both cl w ((storeOf w).map fun m => .sts m)
    | 1 => both cl w ((storeOf w).map fun m => .stp m)
    | 2 => onlyV cl w ((storeOf w).map fun m => .stk m)
    | _ => both cl w none
  | 0xC2 => both cl w (atomOf w)
  | 0xC3 => both cl w (acasOf w)
  | 0xC4 => both cl w (preswOf w)
  | 0xC5 => both cl w (presqOf w)
  | 0xE0 => both cl w (fenceOf w)
  | 0xE1 => both cl w ((bbOf w).map fun m => .bbinit m)
  | 0xE2 => both cl w ((bbOf w).map fun m => .bbexp m)
  | 0xE3 => both cl w ((bbOf w).map fun m => .bbarv m)
  | 0xE4 => both cl w ((bbOf w).map fun m => .bbwait m)
  | _ => .error .unassigned

/-- The SUB of a format E word picks one form; any other code is reserved (R48, R55). -/
def subs (w : DWord) (forms : List Instr) : Except DecodeError Instr :=
  both .M w forms[(w.extractLsb' 0 4).toNat]?

/-- The M-class opcode map (R58). -/
def decodeM (w : DWord) : Except DecodeError Instr :=
  let e := weOf w
  let subs := subs w
  let sub0 (i : Instr) := subs [i]
  match (w.extractLsb' 56 8).toNat with
  | 0x00 => sub0 (.mwld e)
  | 0x01 => sub0 (.mloop e)
  | 0x02 => sub0 (.mrowsc e)
  | 0x03 => sub0 (.mdrain e)
  | 0x04 => sub0 (.mzero e)
  | 0x20 => sub0 (.aseq e)
  | 0x21 => sub0 (.atile e)
  | 0x22 => sub0 (.amask e)
  | 0x23 => sub0 (.svmap e)
  | 0x24 => sub0 (.svset e)
  | 0x25 => sub0 (.svclr e)
  | 0x41 => sub0 (.dscommit e)
  | 0x05 => subs [.mstat e false, .mstat e true]
  | 0x40 => subs [.dsread e .cur, .dsread e .frame, .dsread e .pend]
  | 0x42 => subs [.dstruncFrame e, .dstruncPos e]
  | 0x43 => subs [.dsckptSave e, .dsckptRel e]
  | _ => .error .unassigned

/-- The C-class opcode map (R59). -/
def decodeC (w : DWord) : Except DecodeError Instr :=
  let e := wcOf w
  let subs := subs w
  let sub0 (i : Instr) := subs [i]
  match (w.extractLsb' 56 8).toNat with
  | 0x00 => sub0 (.trec e)
  | 0x30 => sub0 (.hnew e)
  | 0x31 => sub0 (.hcopy e)
  | 0x32 => sub0 (.hdrop e)
  | 0x33 => sub0 (.hbind e)
  | 0x34 => sub0 (.hderef e)
  | 0x35 => sub0 (.hwt e)
  | 0x50 => sub0 (.tlread e)
  | 0x51 => sub0 (.tlwait e)
  | 0x01 => subs [.cpy e .creg, .cpy e .cmem]
  | 0x02 => subs [.cpys e .creg, .cpys e .cmem]
  | 0x03 => subs [.cpyg e .creg, .cpyg e .cmem]
  | 0x04 => subs [.cpyc e .creg, .cpyc e .cmem]
  | 0x20 => subs [.wstreamStart e, .wstreamRel e, .wstreamStop e]
  | 0x40 => subs [.collAr e, .collAg e, .collRs e]
  | 0x41 => subs [.xsigSet e, .xsigAdd e]
  | _ => .error .unassigned

/-- The X-class opcode map (R60); an index outside R440 is a reserved code. -/
def decodeX (w : DWord) : Except DecodeError Instr :=
  let a := waOf w
  let i := wiOf w
  let ix : BitVec 8 := w.extractLsb' 0 8
  match (w.extractLsb' 56 8).toNat with
  | 0x00 => .ok (.trap i)
  | 0x01 => .ok (.svc i)
  | 0x02 => .ok (.bkpt i)
  | 0x03 => if statusItems.contains ix.toNat then .ok (.statrd a ix) else .error (.reserved (guardOf w))
  | 0x04 => if clearableItems.contains ix.toNat then .ok (.statclr a ix) else .error (.reserved (guardOf w))
  | _ => .error .unassigned

/-- The instruction of a word in a clause class: opcodes 0xF0-0xFF are hints in every class (R17, R61). -/
def decode (cl : Cls) (w : DWord) : Except DecodeError Instr :=
  if w.extractLsb' 60 4 = 0xF#4 then .ok (.hint (w.extractLsb' 56 4) (w.extractLsb' 0 56))
  else match cl with
    | .V | .S => decodeVS cl w
    | .M => decodeM w
    | .C => decodeC w
    | .X => decodeX w

/-- A little-endian word of 8 bytes (spec/02: words are little-endian). -/
def wordOfBytes : List Byte → Option DWord
  | [a, b, c, d, e, f, g, h] => some (h ++ g ++ f ++ e ++ d ++ c ++ b ++ a)
  | _ => none
/-- The 8 bytes of a word, lowest address first. -/
def bytesOfWord (w : DWord) : List Byte := (List.range 8).map fun k => w.extractLsb' (8 * k) 8

/-- Decoding is total on bytes: fewer or more than 8 are refused as `short`. -/
def decodeBytes (cl : Cls) (bs : List Byte) : Except DecodeError Instr :=
  match wordOfBytes bs with
  | some w => decode cl w
  | none => .error .short

/-- What the host's table word stands for: up to 64 bits a V-class word; above 64 bits a clause header (low word) and the word it heads. -/
def decodeTableWord (nbits w : Nat) : Option Instr :=
  if nbits ≤ 64 then (decodeBytes .V (bytesOfWord (BitVec.ofNat 64 w))).toOption
  else match (headerOf (BitVec.ofNat 64 w)).cls with
    | some cl => (decodeBytes cl (bytesOfWord (BitVec.ofNat 64 (w / 2 ^ 64)))).toOption
    | none => none

/-! ### The encoder -/

/-- A bit at place `k` of MOD. -/
def bbit (k : Nat) (b : Bool) : BitVec 11 := if b then 1#11 <<< k else 0#11
/-- A 3-bit code at place `k` of MOD. -/
def at11 {n : Nat} (k : Nat) (x : BitVec n) : BitVec 11 := x.setWidth 11 <<< k
def cmpCode : Cmp → BitVec 3
  | .eq => 0 | .ne => 1 | .lt => 2 | .le => 3 | .gt => 4 | .ge => 5
def fFmtCode : FFmt → BitVec 2
  | .f32 => 0 | .f16 => 1 | .bf16 => 2
def rndCode : Option Rnd → BitVec 3
  | none => 0 | some .rn => 1 | some .rz => 2 | some .rd => 3 | some .ru => 4
def cFmtCode : CFmt → BitVec 3
  | .s32 => 0 | .u32 => 1 | .f .f32 => 2 | .f .f16 => 3 | .f .bf16 => 4 | .n .t8 => 5 | .n .t6 => 6
def pOpCode : POp → BitVec 2
  | .and => 0 | .or => 1 | .xor => 2 | .andn => 3
def shModeCode : ShMode → BitVec 3
  | .idx => 0 | .up => 1 | .down => 2 | .xor => 3
def segCode : Seg → BitVec 3
  | .w32 => 0 | .w16 => 1 | .w8 => 2 | .w4 => 3 | .w2 => 4
def voteCode : VoteOp → BitVec 3
  | .all => 0 | .any => 1 | .uni => 2
def redCode : RedOp → BitVec 3
  | .add => 0 | .min => 1 | .max => 2 | .and => 3 | .or => 4 | .xor => 5
def atomCode : AtomOp → BitVec 4
  | .add => 0 | .minS => 1 | .minU => 2 | .maxS => 3 | .maxU => 4 | .and => 5 | .or => 6 | .xor => 7 | .exch => 8
def aSpaceCode : ASpace → BitVec 2
  | .shared => 0 | .scratch => 1
def widthCode : Width → BitVec 3
  | .w1 => 0 | .w2 => 1 | .w4 => 2 | .w8 => 3 | .w16 => 4
def scopeCode : Scope → BitVec 3
  | .thread => 0 | .group => 1 | .block => 2 | .cluster => 3 | .die => 4 | .device => 5 | .system => 6
def orderCode : Order → BitVec 2
  | .plain => 0 | .acquire => 1 | .release => 2 | .acqRel => 3
def encCarry (m : CarryMod) : BitVec 11 := at11 8 m.pd ||| at11 5 m.ps ||| bbit 4 m.neg
def encPLogic (m : PLogic) : BitVec 11 := at11 8 m.pd ||| at11 5 m.pa ||| at11 2 m.pb ||| at11 0 (pOpCode m.op)

/-- The guard field bits 55:52 (R42). -/
def encG (g : Guard) : BitVec 4 := BitVec.ofBool g.neg ++ g.p
/-- Format A (R43). -/
def encA (opc : BitVec 8) (w : WA) (md : BitVec 11) : DWord :=
  opc ++ encG w.g ++ w.d ++ w.a ++ w.b ++ w.c ++ w.ret ++ w.et ++ md
/-- Format I (R44). -/
def encI (opc : BitVec 8) (w : WI) : DWord := opc ++ encG w.g ++ w.d ++ w.a ++ BitVec.ofBool w.eta ++ 0#1 ++ w.imm
/-- Format M (R45). -/
def encM (opc : BitVec 8) (w : WM) (spc : BitVec 2) (sub : BitVec 4) : DWord :=
  opc ++ encG w.g ++ w.data ++ w.base ++ scopeCode w.scope ++ orderCode w.ord ++ widthCode w.wid ++ spc ++ sub ++ w.ofs
/-- Format B (R47). -/
def encB (opc : BitVec 8) (g : Guard) (sub : BitVec 16) (ofs : Word) : DWord := opc ++ encG g ++ 0#4 ++ sub ++ ofs
/-- Format E (R48). -/
def encE (opc : BitVec 8) (w : WE) (sub : BitVec 4) : DWord :=
  opc ++ encG w.g ++ w.a ++ w.b ++ w.c ++ w.wait ++ w.set ++ BitVec.ofBool w.sen ++ sub
/-- Format E in the C class (R48). -/
def encC (opc : BitVec 8) (w : WC) (sub : BitVec 4) : DWord :=
  opc ++ encG w.g ++ w.a ++ w.b ++ w.c ++ w.wait ++ 0#5 ++ sub

/-- The class and word of a program instruction; an event has no word. Words of both classes are given in class V (R89), a hint too. -/
def encode : Instr → Option (Cls × DWord)
  | .iadd w => some (.V, encA 0x00 w (0#11))
  | .isub w => some (.V, encA 0x01 w (0#11))
  | .iaddc w m => some (.V, encA 0x02 w (encCarry m))
  | .isubb w m => some (.V, encA 0x03 w (encCarry m))
  | .imul w => some (.V, encA 0x04 w (0#11))
  | .imulh w s => some (.V, encA 0x05 w (bbit 0 s))
  | .imad w => some (.V, encA 0x06 w (0#11))
  | .imadw w s => some (.V, encA 0x07 w (bbit 0 s))
  | .idiv w s => some (.V, encA 0x08 w (bbit 0 s))
  | .irem w s => some (.V, encA 0x09 w (bbit 0 s))
  | .iabs w => some (.V, encA 0x0A w (0#11))
  | .ineg w => some (.V, encA 0x0B w (0#11))
  | .imin w s => some (.V, encA 0x0C w (bbit 0 s))
  | .imax w s => some (.V, encA 0x0D w (bbit 0 s))
  | .iclamp w s => some (.V, encA 0x0E w (bbit 0 s))
  | .lea w x => some (.V, encA 0x0F w (x.setWidth 11))
  | .iadd64 w => some (.V, encA 0x10 w (0#11))
  | .imad64 w s => some (.V, encA 0x11 w (bbit 0 s))
  | .isetp w p k s => some (.V, encA 0x12 w (at11 8 p ||| at11 5 (cmpCode k) ||| bbit 0 s))
  | .psetp w m => some (.V, encA 0x13 w (encPLogic m))
  | .sel w p s => some (.V, encA 0x14 w (at11 8 p ||| bbit 7 s))
  | .mov w => some (.V, encA 0x15 w (0#11))
  | .movp w s => some (.V, encA 0x17 w (bbit 0 s))
  | .and w => some (.V, encA 0x18 w (0#11))
  | .or w => some (.V, encA 0x19 w (0#11))
  | .xor w => some (.V, encA 0x1A w (0#11))
  | .andn w => some (.V, encA 0x1B w (0#11))
  | .not w => some (.V, encA 0x1C w (0#11))
  | .bmix w t => some (.V, encA 0x1D w (t.setWidth 11))
  | .shl w => some (.V, encA 0x1E w (0#11))
  | .shr w => some (.V, encA 0x1F w (0#11))
  | .sar w => some (.V, encA 0x20 w (0#11))
  | .rotl w => some (.V, encA 0x21 w (0#11))
  | .shf w s => some (.V, encA 0x22 w (bbit 0 s))
  | .popc w => some (.V, encA 0x23 w (0#11))
  | .clz w => some (.V, encA 0x24 w (0#11))
  | .ctz w => some (.V, encA 0x25 w (0#11))
  | .brev w => some (.V, encA 0x26 w (0#11))
  | .bfx w s => some (.V, encA 0x27 w (bbit 0 s))
  | .bfi w => some (.V, encA 0x28 w (0#11))
  | .bswz w => some (.V, encA 0x29 w (0#11))
  | .fadd w r => some (.V, encA 0x40 w (rndCode r |>.setWidth 11))
  | .fmul w r => some (.V, encA 0x41 w (rndCode r |>.setWidth 11))
  | .ffma w r => some (.V, encA 0x42 w (rndCode r |>.setWidth 11))
  | .fmin w => some (.V, encA 0x43 w (0#11))
  | .fmax w => some (.V, encA 0x44 w (0#11))
  | .frnd w r => some (.V, encA 0x45 w (rndCode r |>.setWidth 11))
  | .fclass w => some (.V, encA 0x46 w (0#11))
  | .fsetp w p k f => some (.V, encA 0x47 w (at11 8 p ||| at11 5 (cmpCode k) ||| at11 1 (fFmtCode f)))
  | .hadd2 w s r => some (.V, encA 0x48 w (bbit 3 s ||| (rndCode r).setWidth 11))
  | .hmul2 w s r => some (.V, encA 0x49 w (bbit 3 s ||| (rndCode r).setWidth 11))
  | .hfma2 w s r => some (.V, encA 0x4A w (bbit 3 s ||| (rndCode r).setWidth 11))
  | .frcp w r => some (.V, encA 0x50 w (rndCode r |>.setWidth 11))
  | .frsq w => some (.V, encA 0x51 w (0#11))
  | .fsqrt w r => some (.V, encA 0x52 w (rndCode r |>.setWidth 11))
  | .fexp2 w => some (.V, encA 0x53 w (0#11))
  | .flog2 w => some (.V, encA 0x54 w (0#11))
  | .ftanh w => some (.V, encA 0x55 w (0#11))
  | .cvt w d s r => some (.V, encA 0x70 w (at11 8 (cFmtCode d) ||| at11 5 (cFmtCode s) ||| (rndCode r).setWidth 11))
  | .ncvt w d s r => some (.V, encA 0x71 w (at11 8 (cFmtCode (.n d)) ||| at11 5 (cFmtCode (.f s)) ||| (rndCode r).setWidth 11))
  | .ndec w d s r => some (.V, encA 0x72 w (at11 8 (cFmtCode (.f d)) ||| at11 5 (cFmtCode (.n s)) ||| (rndCode r).setWidth 11))
  | .brx w => some (.V, encA 0x81 w (0#11))
  | .callx w => some (.V, encA 0x83 w (0#11))
  | .ret w => some (.V, encA 0x84 w (0#11))
  | .sread w s => some (.V, encA 0x89 w (bbit 0 s))
  | .swrite w s => some (.V, encA 0x8A w (bbit 0 s))
  | .shfl w m => some (.V, encA 0xA0 w (at11 8 m.pd ||| at11 5 (shModeCode m.mode) ||| (segCode m.seg).setWidth 11))
  | .vote w p k q s => some (.V, encA 0xA1 w (at11 8 p ||| at11 5 (voteCode k) ||| at11 2 q ||| bbit 1 s))
  | .ballot w p s => some (.V, encA 0xA2 w (at11 2 p ||| bbit 1 s))
  | .elect w p => some (.V, encA 0xA3 w (at11 8 p))
  | .actmask w => some (.V, encA 0xA4 w (0#11))
  | .matchLanes w s => some (.V, encA 0xA5 w (bbit 0 s))
  | .redux w k s => some (.V, encA 0xA6 w (at11 5 (redCode k) ||| bbit 0 s))
  | .scan w k e s => some (.V, encA 0xA7 w (at11 5 (redCode k) ||| bbit 1 e ||| bbit 0 s))
  | .nscale w s => some (.V, encA 0xA8 w (bbit 0 s))
  | .qtry w p => some (.V, encA 0xAB w (at11 8 p))
  | .qlen w => some (.V, encA 0xAD w (0#11))
  | .trayw w => some (.S, encA 0xAF w (0#11))
  | .chsend w s => some (.V, encA 0xB1 w (bbit 0 s))
  | .chrecv w s => some (.V, encA 0xB2 w (bbit 0 s))
  | .rtlaunch w => some (.V, encA 0xB3 w (0#11))
  | .rtclaim w p => some (.V, encA 0xB4 w (at11 8 p))
  | .gsig w => some (.V, encA 0xB5 w (0#11))
  | .gwait w => some (.V, encA 0xB6 w (0#11))
  | .movi w => some (.V, encI 0x16 w)
  | .iaddImm w => some (.V, encI 0x30 w)
  | .imulImm w => some (.V, encI 0x31 w)
  | .andImm w => some (.V, encI 0x32 w)
  | .orImm w => some (.V, encI 0x33 w)
  | .xorImm w => some (.V, encI 0x34 w)
  | .shlImm w => some (.V, encI 0x35 w)
  | .shrImm w => some (.V, encI 0x36 w)
  | .sarImm w => some (.V, encI 0x37 w)
  | .bar w => some (.V, encI 0xA9 w)
  | .cbar w => some (.V, encI 0xAA w)
  | .qcfg w => some (.V, encI 0xAC w)
  | .ptok w => some (.V, encI 0xAE w)
  | .ssel w => some (.S, encI 0xB0 w)
  | .bra g o => some (.V, encB 0x80 g 0#16 o)
  | .call g l o => some (.V, encB 0x82 g (l.setWidth 16) o)
  | .meet g o => some (.V, encB 0x85 g 0#16 o)
  | .exit g => some (.V, encB 0x86 g 0#16 0#32)
  | .yield g => some (.V, encB 0x87 g 0#16 0#32)
  | .nop g => some (.V, encB 0x88 g 0#16 0#32)
  | .lds w x => some (.V, encM 0xC0 w 0 (if x then 1 else 0))
  | .ldp w x => some (.V, encM 0xC0 w 1 (if x then 1 else 0))
  | .ldk w x => some (.V, encM 0xC0 w 2 (if x then 1 else 0))
  | .sts w => some (.V, encM 0xC1 w 0 0)
  | .stp w => some (.V, encM 0xC1 w 1 0)
  | .stk w => some (.V, encM 0xC1 w 2 0)
  | .presq w => some (.V, encM 0xC5 w 0 0)
  | .fence w => some (.V, encM 0xE0 w 0 0)
  | .bbinit w => some (.V, encM 0xE1 w 0 0)
  | .bbexp w => some (.V, encM 0xE2 w 0 0)
  | .bbarv w => some (.V, encM 0xE3 w 0 0)
  | .bbwait w => some (.V, encM 0xE4 w 0 0)
  | .atom w sp op => some (.V, encM 0xC2 w (aSpaceCode sp) (atomCode op))
  | .acas w sp => some (.V, encM 0xC3 w (aSpaceCode sp) 0)
  | .presw w s => some (.V, encM 0xC4 w 0 (if s then 1 else 0))
  | .mwld w => some (.M, encE 0x00 w 0)
  | .mloop w => some (.M, encE 0x01 w 0)
  | .mrowsc w => some (.M, encE 0x02 w 0)
  | .mdrain w => some (.M, encE 0x03 w 0)
  | .mzero w => some (.M, encE 0x04 w 0)
  | .aseq w => some (.M, encE 0x20 w 0)
  | .atile w => some (.M, encE 0x21 w 0)
  | .amask w => some (.M, encE 0x22 w 0)
  | .svmap w => some (.M, encE 0x23 w 0)
  | .svset w => some (.M, encE 0x24 w 0)
  | .svclr w => some (.M, encE 0x25 w 0)
  | .dscommit w => some (.M, encE 0x41 w 0)
  | .mstat w c => some (.M, encE 0x05 w (if c then 1 else 0))
  | .dsread w k => some (.M, encE 0x40 w (match k with | .cur => 0 | .frame => 1 | .pend => 2))
  | .dstruncFrame w => some (.M, encE 0x42 w 0)
  | .dstruncPos w => some (.M, encE 0x42 w 1)
  | .dsckptSave w => some (.M, encE 0x43 w 0)
  | .dsckptRel w => some (.M, encE 0x43 w 1)
  | .trec w => some (.C, encC 0x00 w 0)
  | .hnew w => some (.C, encC 0x30 w 0)
  | .hcopy w => some (.C, encC 0x31 w 0)
  | .hdrop w => some (.C, encC 0x32 w 0)
  | .hbind w => some (.C, encC 0x33 w 0)
  | .hderef w => some (.C, encC 0x34 w 0)
  | .hwt w => some (.C, encC 0x35 w 0)
  | .tlread w => some (.C, encC 0x50 w 0)
  | .tlwait w => some (.C, encC 0x51 w 0)
  | .cpy w k => some (.C, encC 0x01 w (match k with | .creg => 0 | .cmem => 1))
  | .cpys w k => some (.C, encC 0x02 w (match k with | .creg => 0 | .cmem => 1))
  | .cpyg w k => some (.C, encC 0x03 w (match k with | .creg => 0 | .cmem => 1))
  | .cpyc w k => some (.C, encC 0x04 w (match k with | .creg => 0 | .cmem => 1))
  | .wstreamStart w => some (.C, encC 0x20 w 0)
  | .wstreamRel w => some (.C, encC 0x20 w 1)
  | .wstreamStop w => some (.C, encC 0x20 w 2)
  | .collAr w => some (.C, encC 0x40 w 0)
  | .collAg w => some (.C, encC 0x40 w 1)
  | .collRs w => some (.C, encC 0x40 w 2)
  | .xsigSet w => some (.C, encC 0x41 w 0)
  | .xsigAdd w => some (.C, encC 0x41 w 1)
  | .trap w => some (.X, encI 0x00 w)
  | .svc w => some (.X, encI 0x01 w)
  | .bkpt w => some (.X, encI 0x02 w)
  | .statrd w x => some (.X, encA 0x03 w (x.setWidth 11))
  | .statclr w x => some (.X, encA 0x04 w (x.setWidth 11))
  | .hint n p => some (.V, (0xF#4 ++ n) ++ p)
  | _ => none

end Sys2Proof
end

