-- ==== Sys2Proof/Config.lean ====
section
/-! DEFINITION. What the spec leaves to the device: free values, with no body, of which no proof knows anything but their type. -/

namespace Sys2Proof.Config

/-- The device's FRSQ of a word, taken only where R85 leaves a choice inside its bound (log 5). -/
opaque frsqRaw : Word → Word
/-- The device's FEXP2 (R85, log 5). -/
opaque fexp2Raw : Word → Word
/-- The device's FLOG2 (R85, log 5). -/
opaque flog2Raw : Word → Word
/-- The device's FTANH (R85, log 5). -/
opaque ftanhRaw : Word → Word
/-- The order in which a collective combines the ranks' values, by collective identifier, use and element (R480, log 6). -/
opaque collOrder : Nat → Nat → Nat → List Nat
/-- A byte the spec calls unspecified (R461, R479, log 7). -/
opaque freeByte : Nat → Byte
/-- The link of this package by which a package is reached, whose counter takes what is dropped for it (R461, R492, log 56). -/
opaque linkOf : Nat → Nat
/-- Measurement `n` (0 root ROM, 1 management core, 2 command-processor cores, 3 page-engine cores), 64 bytes (R495, log 9). -/
opaque measureByte : Nat → Nat → Byte
/-- Whether the management core's image verifies when the watchdog has it booted again, by the counter of free values (R494, log 65). -/
opaque imageGood : Nat → Bool
/-- The package identity's 32 bytes (R495, log 9). -/
opaque identityByte : Nat → Byte
/-- Byte `k` of the signature over the bytes of a report (R495, log 9). -/
opaque signByte : List Byte → Nat → Byte

end Sys2Proof.Config
end

