-- ==== Sys2Proof/Machine/State.lean ====
section
/-! DEFINITION. The state of a Dyide-7 package as plain data, and the state after reset. -/

namespace Sys2Proof.Machine

/-! ## Threads and units -/

/-- A 32-bit word with its poison bit (R26, R29). -/
structure PWord where
  v : Word
  p : Bool
  deriving DecidableEq, Repr

/-- A register's full/empty bit (R22); `inFlight` is a register that a fixed-latency access of the local slice has not written yet (R219, R225): it holds readers and never traps. -/
inductive Avail | full | empty | inFlight
  deriving DecidableEq, Repr

/-- A register with its full/empty and poison bits (R6, R33). -/
structure Reg where
  v : Word
  p : Bool
  av : Avail
  deriving DecidableEq, Repr

/-- Thread states, in the order of the thread record's STATE codes (R424). -/
inductive TStat | run | meet | uniform | exited | dead | retired
  deriving DecidableEq, Repr

/-- The clause a thread stands inside (R16, R162): header address and the header's fields. A thread at a clause start has none. -/
structure ClauseCtx where
  hdr : VAddr
  cls : Cls
  count : Nat
  role : Role
  yield : Bool
  deriving DecidableEq, Repr

/-- A thread's state (R6, R33), with the bookkeeping of the abstract machine (R266). -/
structure Thread where
  /-- v0 to v(n-1) of a lane, s0 to s63 of a front-end thread. -/
  regs : List Reg
  preds : BitVec 7
  /-- Address of the next word: a header at a clause start. -/
  pc : VAddr
  cl : Option ClauseCtx
  /-- Meeting register; NONE is all ones. -/
  mr : VAddr
  /-- Meeting stack, top first. -/
  mstk : List VAddr
  mode : Word
  sticky : Word
  /-- Pending arithmetic bits 6:0 (R15). -/
  pend : BitVec 7
  /-- The %tlo/%thi latch (R10). -/
  tlat : DWord
  stat : TStat
  /-- Service replies, oldest first (R433). -/
  q16 : List PWord
  /-- UNP(t): numbers of accesses issued and not performed (R266). -/
  unp : List Nat
  /-- Accesses a FENCE.rel was issued behind (R277). -/
  relf : List Nat
  /-- Acquire accesses whose completion later memory accesses await (R275). -/
  acqw : List Nat
  /-- Strongly ordered accesses that later memory accesses await (R273). -/
  sow : List Nat
  /-- Acquire-release atomics of the scratchpad that hold the thread until they are performed (R275). -/
  arw : List Nat
  /-- Cycle of the thread's last issue (R157). -/
  lastIssue : Nat
  deriving DecidableEq, Repr

/-- Where returned words go: nowhere, to `n` registers from `r`, or to reserved places of a ring or of q0-q16 (R501). -/
inductive Dst
  | none
  | regs (r n : Nat) (sx : Nat)
  | port (q : Nat) (places : List Nat) (sx : Nat)
  deriving DecidableEq, Repr

/-- What an OC entry does at its slice (R269, R272). `sx` in the destination is 1 or 2 for a sign-extended width. -/
inductive OcOp
  | load (key n : Nat)
  | store (key : Nat) (bytes : List Byte)
  | atom (key w : Nat) (op : AtomOp) (x : Nat)
  | cas (key w : Nat) (exp new : Nat)
  deriving DecidableEq, Repr

/-- An access in a channel OC(c, s) (R266). -/
structure OcEnt where
  id : Nat
  core : Nat
  slice : Nat
  u : UnitRef
  lane : Nat
  dst : Dst
  op : OcOp
  /-- A strongly ordered access waits for that of the lane before it in its split (R234, R273): its number. -/
  after : Option Nat
  deriving DecidableEq, Repr

/-- Accesses of a thread that an engine command waits for before it leaves the thread (R278). -/
structure CmdPre where
  u : UnitRef
  lane : Nat
  ids : List Nat
  deriving DecidableEq, Repr
/-- A handle message (R466, R474). `op` is the handle operation that it completes (R470). -/
inductive HMsgKind
  | drop (gen : BitVec 8) (e : Nat)
  | bind (gen : BitVec 8) (frec : DWord)
  deriving DecidableEq, Repr
structure HMsg where
  core : Nat
  /-- 4 times the package number plus the die. -/
  home : Nat
  ctx : Nat
  idx : Nat
  kind : HMsgKind
  op : Option (Nat × Nat)
  deriving DecidableEq, Repr
/-- A bind in the command path of its threads (R277, R278, R474): its place in the program order of its unit, the unit and the lanes that issued it, and the accesses before a release fence for which it waits to leave them. -/
structure PathMsg where
  id : Nat
  u : UnitRef
  lanes : List Nat
  pre : List CmdPre
  m : HMsg
  deriving DecidableEq, Repr

/-- What a store-queue entry does when it leaves (R269, R271, R284, R481). -/
inductive SqOp
  | store (key : Nat) (bytes : List Byte)
  /-- A store of the lane to its spill window, in pieces of at most 4 bytes (R222). -/
  | spill (ps : List (Nat × List Byte))
  | presw (blk line : Nat) (set : Bool)
  | chan (e : OcEnt)
  | msg (m : HMsg)
  /-- XSIG's write at a memory key, or at a scratchpad key. -/
  | xsig (key : Nat) (add : Bool) (v : DWord)
  deriving DecidableEq, Repr

/-- An entry of SQ(g). It is eligible when the thread's UNP holds none of `pre` (R275-R277, R284). -/
structure SqEnt where
  id : Nat
  lane : Nat
  pre : List Nat
  /-- A release entry: it holds every entry behind it until it has left (R276). -/
  op : SqOp
  deriving DecidableEq, Repr

/-- Why a group is on its way to the bench (R422): a recoverable page fault of a lane, or a debug stop with its code, lanes and detail, the address it resumes at, and whether its breakpoint is to be passed once. -/
inductive Leave
  | page (va : VAddr) (lane : Nat)
  | stop (code : Nat) (mask : Mask) (info : Nat) (pc : VAddr) (skip : Bool)
  deriving DecidableEq, Repr
/-- What keeps a unit from being ready besides its threads (R165). -/
inductive UStat
  | ready
  /-- Held at barrier `id` (R189). -/
  | bar (id : Nat)
  /-- Held at cluster barrier `id` (R190). -/
  | cbar (id : Nat)
  /-- Benched for a cause with its frame's address (R422). -/
  | benched (cause : Nat) (frame : VAddr)
  /-- About to be benched: its fills still land and its store queue empties (R422). `wait` is what its frame says of a barrier it stands at. -/
  | leaving (wait : Nat) (why : Leave)
  /-- Held because the bench area has no place for its frame, or its access faulted (R237, R403): the cause. -/
  | held (cause : Nat)
  /-- Stopped by a halting fault of its own (R415). -/
  | stopped
  deriving DecidableEq, Repr

/-- A split whose next instruction, or whose clause header, has not issued (R210, R421): its lanes, the core's cycle in which the hold began, whether its wait-limit record is posted, and the target block where it is held at a GWAIT. -/
structure SplitWait where
  lanes : Mask
  since : Nat
  wlim : Bool
  gwait : Option Nat
  deriving DecidableEq, Repr

/-- A group with its 32 lanes, or a front-end thread as a unit of one lane (R147, R151). -/
structure Grp where
  threads : List Thread
  /-- Scheduler 0-3; 4 for a front-end thread (R152). -/
  sched : Nat
  /-- Group slot 0-23, or front-end context 0-15. -/
  slot : Nat
  stat : UStat
  /-- Lanes of the running split; empty at a clause boundary (R157). -/
  runs : Mask
  /-- Role of the last clause (R36). -/
  lastRole : Role
  /-- Its last clause ended with YIELD, and no selection has followed (R166). -/
  yielded : Bool
  /-- Consecutive cycles in which the running split's next instruction has not issued, since the split was selected (R162). -/
  hold : Nat
  /-- The splits that are held (R421). -/
  waits : List SplitWait
  /-- Fairness timer (R158). -/
  fair : Nat
  fairExp : Bool
  /-- Cycles ready and not selected (R168). -/
  age : Nat
  /-- Order of promotion (R168). -/
  promoted : Option Nat
  /-- Order of admission (R166). -/
  admitted : Nat
  sq : List SqEnt
  /-- Lanes whose split may pass its breakpoint once (R423, R437). -/
  skipBp : Mask
  /-- A debug halt is asked for (R436). -/
  dbgHalt : Bool
  /-- Lanes of the split whose access is to be executed again (R427). -/
  pendRe : Mask
  faddr : DWord
  /-- What an evicted group still waits for: 2 a service reply, 4 a debug resume, 0 nothing (R430). -/
  owed : Nat
  deriving DecidableEq, Repr

/-! ## Engines of a block -/

/-- A tensor record's dimension (R292). -/
structure Dim where
  ext : Nat
  str : Nat
  box : Nat
  deriving DecidableEq, Repr
/-- A tensor record (R292). -/
structure TRec where
  base : Nat
  rank : Nat
  esz : Nat
  fill : Word
  dims : List Dim
  /-- The 128 bytes as read, for the block frame (R426). -/
  raw : List Byte
  deriving DecidableEq, Repr
/-- A record slot (R296). -/
inductive RSlot
  | none
  | rcd (r : TRec)
  /-- Marked as holding a poisoned record, with its bytes as read. -/
  | poisoned (r : TRec)
  deriving DecidableEq, Repr

/-- The state of an answered fault at an operation (R304, R419, R505): none, posted, or told to abandon. -/
inductive OpFault | none | posted (code : Nat) (va : Nat) | abandon
  deriving DecidableEq, Repr

/-- A leaf (R231) as a walk or the TLB gives it. -/
structure Leaf where
  pa : Nat
  w : Bool
  nx : Bool
  tier : Nat
  ord : Bool
  pkg : Nat
  deriving DecidableEq, Repr
/-- One run of bytes within a page: its key, its length, its leaf. -/
structure Run where
  key : Nat
  len : Nat
  leaf : Leaf
  deriving DecidableEq, Repr

/-- The four copies (R299). -/
inductive CpyKind | cpy | cpys | cpyg | cpyc
  deriving DecidableEq, Repr

/-- A line or run of box bytes in hand: its index, its bytes, and which bytes are poisoned (R301, R306). -/
structure Landing where
  line : Nat
  bytes : List Byte
  psn : List Bool
  deriving DecidableEq, Repr

/-- A line's worth of the box bytes of a translated tile, not yet moved (R302, R303): its line in box order, and the runs of its elements in the source and the destination record, none where one is out of bounds. -/
structure CopyPiece where
  line : Nat
  src : List (Option (List Run))
  dst : List (Option (List Run))
  deriving DecidableEq, Repr
/-- A flash page sensed for a copy: its bytes with their poison, none where it failed to decode (R306, R315). -/
structure SensedPage where
  page : Nat
  bytes : Option (List Byte × List Bool)
  deriving DecidableEq, Repr

/-- An accepted copy (R291, R298-R306). -/
structure CopyOp where
  no : Nat
  /-- The four command words (R297). -/
  cmd : List Word
  pre : List CmdPre
  kind : CpyKind
  /-- The records of the slots named; of a slot marked as holding a poisoned record, the record as read where it is legal (R296). -/
  src : Option TRec
  dst : Option TRec
  srec : Nat
  drec : Nat
  sc : List Int
  dc : List Int
  ofs : Nat
  bb : Option Nat
  /-- Box bytes. -/
  nb : Nat
  /-- Tiles translated (R303), and what of them is still to move. -/
  walked : Nat
  todo : List CopyPiece
  /-- Lines read and not yet written (R281, R301). -/
  hand : List Landing
  /-- Lines landed (CPY). -/
  landed : Nat
  /-- Flash pages sensed for this copy (R315). -/
  pages : List SensedPage
  /-- Poisoned source granules counted (R306). -/
  seen : List Nat
  fault : OpFault
  /-- The command carries an uncorrectable error (R443). -/
  bad : Bool
  deriving DecidableEq, Repr

/-- A copy context or any other engine context's counter: TL(e) and the last number given (R263, R291). -/
structure Tl where
  ctr : Nat
  given : Nat
  deriving DecidableEq, Repr
structure CopyCtx where
  tl : Tl
  ops : List CopyOp
  deriving DecidableEq, Repr

/-- A weight descriptor as latched (R338). -/
structure WDesc where
  wofs : Nat
  wstep : Nat
  wcmp : Nat
  wfmt : Nat
  deriving DecidableEq, Repr

/-- Matrix operations with their operands taken at acceptance (R338-R343, R364). -/
inductive MKind
  | mwld (d : WDesc)
  | mloop (row m s : Nat) (z : Bool) (aofs astride scb afmt kofs : Nat) (d : WDesc)
  | mrowsc (row m fofs : Nat)
  | mdrain (row m : Nat) (z : Bool) (dofs dstride scb : Nat) (t : Int) (dfmt k0 : Nat)
  | mzero (row m : Nat)
  | amask (row m mofs : Nat)
  deriving DecidableEq, Repr
/-- Bytes for a shared offset, with their poison. -/
structure Frag where
  ofs : Nat
  bytes : List Byte
  psn : List Bool
  deriving DecidableEq, Repr
structure MOp where
  no : Nat
  /-- Place in the core's acceptance order (R322, R323). -/
  acc : Nat
  pre : List CmdPre
  /-- Dependency slot it set (R37). -/
  slot : Option Nat
  kind : MKind
  begun : Bool
  /-- K-steps done. -/
  step : Nat
  /-- Shared lines read for the K-step or the operation in hand, each in one step (R281, R334). -/
  got : List Landing
  /-- Drained bytes not yet landed, in pieces that lie within a line. -/
  hand : List Frag
  /-- Every access is performed (R333). -/
  done : Bool
  bad : Bool
  deriving DecidableEq, Repr
/-- A pass descriptor's fields and its table as ASEQ read them (R351, R352), with the next tile's index. -/
structure Pass where
  clt : List Nat
  kvt : Nat
  nseq : Nat
  maxb : Nat
  decode : Bool
  causal : Bool
  kvfmt : Nat
  hd : Nat
  qt : Nat
  orow : Nat
  /-- Query rows of the pass (R351). -/
  nrows : Nat
  srow : Nat
  cab : Nat
  tdofs : Nat
  mkofs : Nat
  stofs : Nat
  next : Nat
  deriving DecidableEq, Repr
/-- An instruction that has issued and holds its group until an engine context has done what came before it (R344, R347): its unit, the number last given and the pass at its issue, and the slot it set (R37, R356). -/
structure EngWait where
  u : UnitRef
  after : Nat
  slot : Option Nat
  pass : Option Pass
  deriving DecidableEq, Repr
/-- The matrix context (R320, R330, R332). -/
structure MCtx where
  tl : Tl
  ops : List MOp
  /-- MSTATs that hold. -/
  waits : List EngWait
  wd : Option WDesc
  status : Word
  deriving DecidableEq, Repr

/-- A planned key tile (R357, R358). -/
structure TilePlan where
  seq : Nat
  len : Nat
  qrow0 : Nat
  qrows : Nat
  qpos0 : Int
  blk0 : Nat
  nblk : Nat
  firstk : Bool
  lastk : Bool
  deriving DecidableEq, Repr
/-- A KV block in hand (R359): the survivor word, the bytes of K and of V slots with their poison, and the handle copy to drop. -/
structure KvHand where
  surv : DWord
  kbytes : List Byte
  kpsn : List Bool
  vbytes : List Byte
  vpsn : List Bool
  handle : Option (DWord × DWord)
  deriving DecidableEq, Repr
/-- An access that a gather still has to make of a block: of K or V, where its bytes go among those of the slots, and its run (R281, R359). -/
structure KvRead where
  isV : Bool
  ofs : Nat
  run : Run
  deriving DecidableEq, Repr
/-- The block that a gather is in (R281, R359): its handle copied, then its survivor word read, then its slots one by one. -/
inductive KvBusy
  /-- The handle copy and the block's address. -/
  | handle (w : DWord × DWord) (a : Nat)
  /-- The block as far as it is read, and the accesses left. -/
  | slots (h : KvHand) (left : List KvRead)
  deriving DecidableEq, Repr
inductive AKind
  | aseq
  | atile (k : Nat) (pl : TilePlan) (hand : List KvHand) (busy : Option KvBusy)
  deriving DecidableEq, Repr
structure AOp where
  no : Nat
  acc : Nat
  pre : List CmdPre
  slot : Option Nat
  kind : AKind
  /-- The pass state at acceptance. -/
  pass : Pass
  /-- Its last effects have begun: shared bytes still to land, in pieces that lie within a line, and the piece that lands last (R281, R352, R359). -/
  ended : Bool
  hand : List Frag
  last : Option Frag
  fault : OpFault
  bad : Bool
  deriving DecidableEq, Repr
/-- A slot on its way (R281, R356): the accesses that read it and those that write it at its new place, as far as they are left, and its bytes of K and V with their poison. -/
structure SlotBusy where
  reads : List KvRead
  writes : List KvRead
  k : List Byte × List Bool
  v : List Byte × List Bool
  deriving DecidableEq, Repr
/-- An SVSET or SVCLR whose slots are moving (R349, R505): what it took when it issued, the block's address, the survivor word with its poison, the position and a slot's bytes, the next slot to move, and what of it has been moved. -/
structure SlotMove where
  u : UnitRef
  base : Nat
  surv : DWord
  psn : Bool
  pos : Nat
  size : Nat
  next : Nat
  busy : Option SlotBusy
  fault : OpFault
  deriving DecidableEq, Repr
structure ACtx where
  tl : Tl
  ops : List AOp
  /-- Survivor and stream instructions that hold, in the order of their issue. -/
  waits : List EngWait
  pass : Option Pass
  move : Option SlotMove
  deriving DecidableEq, Repr

/-- A layer on its way into its window (R318): its operation number, its first byte, its window and its backing copy, its pages, the next of them, and whether it is all there. -/
structure Layer where
  no : Nat
  layer : Nat
  src : Nat
  dst : Nat
  back : Nat
  pages : Nat
  page : Nat
  /-- Its first page has been asked for (R317). -/
  begun : Bool
  fault : OpFault
  done : Bool
  /-- The descriptor carries an uncorrectable error (R443). -/
  bad : Bool
  deriving DecidableEq, Repr
/-- An active weight stream (R316-R318): the layer to start next, the layers arrived and not freed in order of arrival, and those freed. -/
structure WStream where
  src : Nat
  ring : Nat
  lbytes : Nat
  nlayer : Nat
  nwin : Nat
  backw : Nat
  first : Nat
  n0 : Nat
  next : Nat
  arrived : List Nat
  freed : List Nat
  deriving DecidableEq, Repr
/-- The page context (KIND 3). `pend` holds the numbers not yet complete, `fly` the layers started. -/
structure PCtx where
  tl : Tl
  pend : List Nat
  fly : List Layer
  stream : Option WStream
  deriving DecidableEq, Repr

/-- An access of a collective within a 128-byte line: its runs, and the bytes read or to write with their poison (R281). -/
structure CollAcc where
  rs : List Run
  got : Option (List Byte × List Bool)
  deriving DecidableEq, Repr
/-- A collective descriptor (R477) and the participant's progress (R479). -/
structure CollOp where
  no : Nat
  pre : List CmdPre
  kind : Nat
  src : Nat
  dst : Nat
  ranks : List Nat
  count : Nat
  rank : Nat
  fmt : Nat
  op : Nat
  cid : Nat
  use : Nat
  /-- Tiles of the source, then of the destination, that are translated and whose accesses are performed (R303, R478). -/
  tile : Nat
  /-- Accesses of the tile at hand, with what a source's gave (R281). -/
  work : List CollAcc
  /-- Source bytes read so far, with their poison, until the participant joins. -/
  data : List Byte × List Bool
  /-- Poisoned source granules counted (R306). -/
  seen : List Nat
  joined : Bool
  /-- Once every rank has joined or is lost: the destination's bytes of the tiles to come. -/
  out : Option (List Byte × List Bool)
  fault : OpFault
  bad : Bool
  deriving DecidableEq, Repr
structure CollCtx where
  tl : Tl
  ops : List CollOp
  deriving DecidableEq, Repr
/-- The handle context (R470): the numbers of drops and binds not complete, and whether each has been handled at home. -/
structure HCtx where
  tl : Tl
  ops : List (Nat × Bool)
  deriving DecidableEq, Repr

/-! ## Blocks -/

/-- A block queue q1-q15 as QCFG set it (R193, R501): ring offset, depth, absolute head and tail, and the places reserved and not written. -/
structure Ring where
  ofs : Nat
  depth : Nat
  head : Nat
  tail : Nat
  unwritten : List Nat
  deriving DecidableEq, Repr

/-- A barrier in use (R189): its n and the groups that have arrived. -/
structure Bar where
  n : Nat
  arrived : List Nat
  deriving DecidableEq, Repr

/-- A whole-block bench (R210, R426): its units are stopping and its engine operations end, or it is out with its frame; with the awaited block and the unit that waits. -/
inductive BBench
  | none
  | stopping (target : Nat) (unit : UnitRef)
  | out (frame : VAddr) (target : Nat) (unit : UnitRef)
  deriving DecidableEq, Repr

/-- A resident or benched block (R147, R151, R173). -/
structure Block where
  uid : Nat
  grid : Nat
  ctx : Nat
  core : Nat
  idx : Nat
  cluster : Nat
  stage : Nat
  page : Word
  pstat : Word
  /-- Threads of the block (R148). -/
  tpb : Nat
  /-- The variant's REGS, SPILL and SHARED, and the energy weight (R142, R172). -/
  nregs : Nat
  spill : Nat
  shared : Nat
  weight : Nat
  shelf : Bool
  groups : List Grp
  fe : Grp
  /-- Broadcast copies of s0-s7 (R11). -/
  bcast : List PWord
  tray : List PWord
  rings : List (Nat × Ring)
  q17 : List Word
  /-- Frames written whose entry is not yet in q17 (R285). -/
  q17Pend : List Word
  bars : List (Nat × Bar)
  /-- Holder of the priority token (R167). -/
  token : Option Nat
  /-- Busy dependency slots (R37), each with the number of setters (0 or 1). -/
  slots : BitVec 16
  /-- Lines whose presence bit is clear (R220). -/
  absent : List Nat
  recs : List RSlot
  copies : List CopyCtx
  matrix : MCtx
  attn : ACtx
  pagec : PCtx
  coll : CollCtx
  handle : HCtx
  bench : BBench
  deriving DecidableEq, Repr

/-! ## Grids -/

/-- A variant record (R142), with its entries as addresses. -/
structure Variant where
  bound : Nat
  gentry : Nat
  fentry : Nat
  nregs : Nat
  spill : Nat
  shared : Nat
  deriving DecidableEq, Repr
/-- A kernel descriptor (R141). -/
structure KDesc where
  energy : Nat
  stages : Nat
  gbase : VAddr
  glen : Nat
  gmap : VAddr
  fbase : VAddr
  flen : Nat
  fmap : VAddr
  mode : Word
  vars : List Variant
  deriving DecidableEq, Repr

inductive GKind | index | page | range
  deriving DecidableEq, Repr
/-- The state of a block's entry in the grid result table (R208, R209, R386). -/
inductive Res
  | pending
  | signalled (w : PWord)
  | skipped
  | ended
  deriving DecidableEq, Repr
/-- A range-task record (R203-R207). -/
structure RangeRec where
  idx : Nat
  lo : Nat
  hi : Nat
  grain : Nat
  /-- The record has a block: it waits for admission, or is running; else it awaits an idle request (R207). -/
  owned : Bool
  waiting : Bool
  deriving DecidableEq, Repr
/-- Resources of a block: groups, register units of each, bytes of shared memory, energy units (R170-R172). -/
structure Need where
  ng : Nat
  units : Nat
  bytes : Nat
  energy : Nat
  deriving DecidableEq, Repr
/-- A page of a page grid from its shelf reservation to its block's creation (R310-R314): the block's unit number, core, variant and resources with their places, and %pstat once the page has been delivered. -/
structure PgShelf where
  idx : Nat
  uid : Nat
  core : Nat
  var : Nat
  need : Need
  places : List (Nat × Nat)
  fe : Nat
  pstat : Option Nat
  deriving DecidableEq, Repr
/-- A launch (R147, R150, R382). -/
structure Grid where
  id : Nat
  ctx : Nat
  kind : GKind
  /-- Started by a finaliser (R468). -/
  fin : Bool
  kd : KDesc
  /-- The variant chosen for blocks still to be admitted (R175, R199). -/
  var : Nat
  /-- The launch packet's 128 bytes (R428). -/
  pkt : List Byte
  faultPolicy : Bool
  shelves : Nat
  clusters : Nat
  bpc : Nat
  tpb : Nat
  nblocks : Nat
  grt : Nat
  stream : Nat
  args : List Word
  plist : Nat
  /-- Die of each cluster (LAUNCH), or the one die mask. -/
  pmap : List Nat
  /-- Next cluster and stage to come (R173). -/
  nextClu : Nat
  nextStage : Nat
  results : List (Nat × Res)
  recs : List RangeRec
  /-- Blocks created so far (range and page grids). -/
  created : Nat
  /-- Next page in list order, promoted pages, and pages being worked on. -/
  nextPage : Nat
  promo : List Nat
  pages : List PgShelf
  /-- Pages delivered or skipped. -/
  pagesDone : List Nat
  /-- Stopped by an uncorrectable page under FAULT (R314). -/
  pgStop : Bool
  /-- The live packet of a queue: queue and packet number. -/
  owner : Option (Nat × Nat)
  deriving DecidableEq, Repr

/-- A stage channel (R200): grid, spatial block, the lower stage, and the direction. -/
structure Chan where
  grid : Nat
  spatial : Nat
  stage : Nat
  up : Bool
  q : List PWord
  deriving DecidableEq, Repr
/-- A cluster barrier in use (R190). -/
structure CBar where
  grid : Nat
  cluster : Nat
  id : Nat
  n : Nat
  /-- Groups that have executed CBAR in this use: block, group, and the n of its CBAR. -/
  arrived : List (Nat × Nat × Nat)
  deriving DecidableEq, Repr

/-! ## Page engine jobs -/

/-- For whom a flash page is read: a page grid, a copy, or a weight stream's layer (R310, R315, R318). -/
inductive JobTgt
  | grid (g i : Nat)
  | copy (blk ctx no : Nat)
  | stream (blk no page : Nat)
  deriving DecidableEq, Repr
/-- Where the ladder of R312 stands; `landing`: the page goes to its shelf or its window, line by line (R281, R283, R318). -/
inductive Phase | sense | recon | backing | landing
  deriving DecidableEq, Repr
/-- A page on the ladder: retries of the page itself, and the stripe members still to decode with their retries. -/
structure PageJob where
  no : Nat
  tgt : JobTgt
  ppage : Nat
  phase : Phase
  retry : Nat
  cbits : Nat
  left : List (Nat × Nat)
  failed : Bool
  back : Nat
  /-- Lines of the page not yet written, and a grid page's %pstat (R309, R313, R318). -/
  hand : List Landing
  pstat : Nat
  deriving DecidableEq, Repr

/-! ## Contexts and the command processor -/

/-- The context record (R398, R399, R462). -/
structure CtxRec where
  root : DWord
  part : Word
  fq : DWord
  cqt : DWord
  wlim : DWord
  srd : Word
  htab : DWord
  nobj : Word
  dom : BitVec 16
  qtab : DWord
  fqn : Word
  ncq : BitVec 16
  fqvec : BitVec 16
  svcr : DWord
  svcn : Word
  stopn : Word
  stopa : DWord
  bencha : DWord
  benchsz : DWord
  deriving DecidableEq, Repr

/-- A stop or fault record before it is written (R417). -/
structure FRec where
  unit : Nat
  cause : Nat
  flags : Nat
  ctxs : Nat
  wher : Nat
  block : Word
  ctxn : Word
  pc : DWord
  faddr : DWord
  mask : Word
  info : Word
  prog : DWord
  frame : DWord
  deriving DecidableEq, Repr

/-- The unit, the engine context or the core that raises a halt (R415): an engine's block, its unit number and its context; the page engine for a grid. -/
inductive Who
  | unit (u : UnitRef)
  | eng (blk unit ctxs : Nat)
  | page (grid : Nat)
  | core (c : Nat)
  deriving DecidableEq, Repr
/-- A record of a unit at fault: its context, its place in the order of stopping, and who it is (R402, R415). -/
structure Raised where
  ctx : Nat
  place : Nat
  who : Who
  rcd : FRec
  deriving DecidableEq, Repr

/-- Whom an answer to a class B or A record concerns (R419). -/
inductive Answer
  | none
  | grp (blk g : Nat)
  | front (blk : Nat)
  | eop (blk : Nat) (e : Eng) (no : Nat)
  | move (blk : Nat)
  deriving DecidableEq, Repr

/-- A finaliser task waiting to start (R467, R468): the record's bytes as read at death, home die and object index. -/
structure FinTask where
  die : Nat
  idx : Nat
  bytes : List Byte
  deriving DecidableEq, Repr

/-- A service request in the ring (R431, R432). -/
structure SvcReq where
  slot : Nat
  blk : Nat
  g : Nat
  mask : Mask
  deriving DecidableEq, Repr

/-- How far a pre-emption of a context has gone (R428, R430): its units are stopping, or its image is written at the address given. -/
inductive Saved | no | stopping | saved (image : Nat)
  deriving DecidableEq, Repr

/-- A SAVE: the context and queue it was made in, the image's address and limit (R387). -/
structure Preempt where
  via : Nat
  q : Nat
  /-- The SAVE's entry index. -/
  idx : Nat
  image : Nat
  limit : Nat
  deriving DecidableEq, Repr
/-- A context: its record and what the device keeps for it. -/
structure Ctx where
  no : Nat
  rcd : CtxRec
  /-- Counters 0x01-0x07, 0x0B, 0x0C of R440, and stale drops (0x100) and over-drops (0x101) of R492. -/
  ctrs : List (Nat × DWord)
  /-- Fault records posted and the host's read index (R418). -/
  fqw : Nat
  fqr : Nat
  pendF : List (FRec × Answer)
  answers : List (Nat × Answer)
  svcSeq : Nat
  svcW : Nat
  svcs : List SvcReq
  bps : List VAddr
  /-- Bench-area frames in use: offset and bytes (R403). -/
  frames : List (Nat × Nat)
  halted : Option Nat
  saved : Saved
  /-- A pre-emption that a retirement overtook: it takes effect at the context's next packet (R405). -/
  preempt : Option Preempt
  /-- The context whose table translates the image's address: the one whose queue held the SAVE or RESUME (R387). -/
  via : Nat
  /-- The ageing code and the bench delay of the context's last LAUNCH packet (R168, R210). -/
  agec : Nat
  bdly : Nat
  fins : List FinTask
  /-- Uses of each collective identifier by each die (R479): identifier, die, count. -/
  collUse : List (Nat × Nat × Nat)
  /-- The frame window's 32 bytes and frames taken and not yet arrived (R406, R490). -/
  window : List Byte
  framesIn : List (List Byte)
  deriving DecidableEq, Repr

/-- A fetched entry (R379). -/
structure Fet where
  idx : Nat
  bytes : List Byte
  deriving DecidableEq, Repr
/-- A ring or an indirect buffer in execution (R388). -/
structure Buf where
  base : Nat
  ring : Bool
  nent : Nat
  next : Nat
  fet : List Fet
  /-- A LOOP in this buffer: repetitions left and the entry after the LOOP (R390). -/
  loop : Option (Nat × Nat)
  /-- A PRED whose compare failed: its entry, and the entries still to pass over (R389). -/
  skip : Option (Nat × Nat)
  deriving DecidableEq, Repr
/-- What a live packet waits for (R381). -/
inductive PkWait
  | done
  | grid (g : Nat)
  /-- Its completion-queue entry. -/
  | cq
  /-- A FETCH_FENCE: the discarded entries to be fetched again, each with the depth of its buffer in the stack (R394). -/
  | fence (left : List (Nat × Nat))
  /-- The end of the buffer, or of the loop in it, at a depth of the stack. -/
  | ib (depth : Nat)
  | loop (depth : Nat)
  deriving DecidableEq, Repr
/-- A dispatched packet that has not retired. -/
structure Live where
  no : Nat
  idx : Nat
  ents : Nat
  w : PkWait
  deriving DecidableEq, Repr
/-- A WAIT in progress (R391, R392): cycles since it started, the stall posted, and the queue parked. -/
structure WaitSt where
  cycles : Nat
  stall : Bool
  parked : Bool
  held : Bool
  deriving DecidableEq, Repr
/-- A software queue the command processor has read (R376, R400). -/
structure SwQ where
  ctx : Nat
  q : Nat
  cq : Nat
  nq : Nat
  widx : Nat
  ridx : Nat
  slot : Option Nat
  /-- Innermost buffer first; the ring is last. -/
  bufs : List Buf
  live : List Live
  wait : Option WaitSt
  /-- Reads of the awaited entry whose tag did not match, and whether TAG_STALL was posted (R377). -/
  miss : Nat
  tagStall : Bool
  halted : Bool
  /-- The host has cleared EN since the table entry was read (R400). -/
  stale : Bool
  /-- Packet numbers given. -/
  given : Nat
  deriving DecidableEq, Repr

/-- Who writes a completion-queue entry, and holds until it is written (R397, R407): a queue, the stream unit, the starter of finalisers, the management core. -/
inductive CqWriter | queue | stream | fin | mgmt
  deriving DecidableEq, Repr
/-- A completion-queue entry waiting to be written (R396): it completes a live packet of a queue, if named. -/
structure CqEnt where
  writer : CqWriter
  ctx : Nat
  cq : Nat
  info : DWord
  queue : Nat
  status : Nat
  kind : Nat
  detail : Word
  live : Option (Nat × Nat)
  /-- The hold on an unusable table entry (R401): 0 none, 1 counted, 2 counted and CQREAD written since. -/
  counted : Nat
  deriving DecidableEq, Repr
/-- A completion queue's counters (R397). -/
structure CqSt where
  ctx : Nat
  n : Nat
  wr : Nat
  rd : Nat
  cnt : Nat
  deriving DecidableEq, Repr

/-! ## Cores, partitions, package -/

/-- A cached leaf translation (R235), for one 64 KiB page. -/
structure TlbEnt where
  ctx : Nat
  vpage : Nat
  frame : Nat
  w : Bool
  nx : Bool
  tier : Nat
  ord : Bool
  pkg : Nat
  deriving DecidableEq, Repr
/-- An error log entry (R445). -/
structure ErrEnt where
  stamp : DWord
  gran : Word
  kind : Nat
  syn : Nat
  rep : Nat
  deriving DecidableEq, Repr
/-- A scrubber with its log (R444, R445). -/
structure Scrub where
  rate : Nat
  pos : Nat
  passes : DWord
  log : List ErrEnt
  ovf : DWord
  deriving DecidableEq, Repr
/-- A tile latch (R327): the block whose tile it is, the tile's place and format, and its bytes with poison. -/
structure Latch where
  blk : Nat
  wofs : Nat
  wfmt : Nat
  wcmp : Nat
  bytes : List Byte
  psn : List Bool
  deriving DecidableEq, Repr
/-- A core (R1, R10, R166, R322, R440, R441). -/
structure Core where
  cycle : DWord
  /-- The core TLB, and the walk-ahead TLB of the copy front (R235, R303). -/
  tlb : List TlbEnt
  ahead : List TlbEnt
  /-- The unit inside a clause on each scheduler 0-3 and on the front-end processor 4 (R166). -/
  cur : List (Option UnitRef)
  /-- Front-end context that issued last (R152). -/
  lastFe : Nat
  /-- Acceptance order of the matrix pipes and the last number given (R322). -/
  accs : Nat
  /-- The two tile latches, the one loaded last first. -/
  latches : List Latch
  breaks : Word
  corrected : Word
  uncorr : Word
  replays : Word
  vrf : Scrub
  shm : Scrub
  accS : Scrub
  cabS : Scrub
  beat : Bool
  missed : Nat
  /-- A watchdog reset excuses the heartbeat window (R499). -/
  excuse : Bool
  /-- Core clock in units of 100 MHz (R498). -/
  clock : Nat
  deriving DecidableEq, Repr

/-- A halt of a partition (R415): the contexts and codes at fault, the faulting units' records, and the records still to be written once the units have stopped. -/
structure Halt where
  faults : List (Nat × Nat)
  recs : List Raised
  /-- Groups that were inside a clause when the line rose, in the order in which they have stopped since (R402). -/
  late : List UnitRef
  stopped : Bool
  todo : List (Nat × Nat × FRec)
  /-- A fault has been raised since the records were listed: they are listed again. -/
  again : Bool
  /-- CONTEXT_HALTED is posted to the queues of the faulting contexts. -/
  told : Bool
  deriving DecidableEq, Repr
/-- A partition (R459, R421, R461). -/
structure Part where
  mask : BitVec 8
  fcw : Word
  linkTo : Word
  /-- The fault-answer word as last written (R419, R491). -/
  answer : DWord
  halt : Option Halt
  /-- Page-engine counters: retries, reconstructions, backing fetches, uncorrectable pages (R455). -/
  pgc : List DWord
  deriving DecidableEq, Repr

/-- A participant that has joined (R479). -/
structure CollPart where
  /-- 4 times the package plus the die. -/
  die : Nat
  rank : Nat
  params : List Nat
  src : List Byte
  psn : List Bool
  deriving DecidableEq, Repr
/-- The k-th use of an identifier: what each die that used it so brings, kept until the context is destroyed, since a die whose rank list differs may still come. -/
structure Coll where
  ctx : Nat
  cid : Nat
  use : Nat
  parts : List CollPart
  deriving DecidableEq, Repr

/-- A flash write in progress (R497). -/
structure FlashW where
  fromHost : Bool
  src : Nat
  page : Nat
  count : Nat
  deriving DecidableEq, Repr

/-- A context of a domain that runs on another package (R462): its domain and package, the ROOT, HTAB and NOBJ of its record, and its counters of stale drops and over-drops (R466, R492). -/
structure Peer where
  dom : Nat
  pkg : Nat
  root : Nat
  htab : Nat
  nobj : Nat
  stales : DWord
  overs : DWord
  deriving DecidableEq, Repr
/-- A returned value on its way to its register (R272). -/
structure Fill where
  id : Nat
  u : UnitRef
  lane : Nat
  dst : Dst
  words : List PWord
  deriving DecidableEq, Repr

/-- Who acts next (DESIGN CHOICE, log 1): an event of the table, or an issue attempt of a unit. -/
inductive Turn
  | event (i : Instr)
  | issue (u : UnitRef)
  deriving DecidableEq, Repr

/-- The machine: one package. -/
structure State where
  /-- The order in which agents move (log 1). -/
  agenda : List Turn
  /-- The unit whose instruction executes. -/
  cur : Option UnitRef
  /-- The core the model lets go on when the agenda is empty (log 1). -/
  curCore : Nat
  /-- Memory: canonical list of (key, byte) over every region (log 2). -/
  mem : List Host.Cell
  /-- 8-byte granules that carry an uncorrectable error, by key / 8, rising (R500). -/
  granErr : List Nat
  /-- Poisoned 4-byte words of rings and of the accumulator store, by key / 4, rising (R29, R331). -/
  wordPsn : List Nat
  /-- 4-byte words that an engine wrote as carrying an uncorrectable error, by key / 4, rising (R306). -/
  wordErr : List Nat
  blocks : List Block
  grids : List Grid
  chans : List Chan
  cbars : List CBar
  /-- OC channels, in order of entry (R266). -/
  oc : List OcEnt
  /-- HC channels, in order of entry (R266). -/
  hc : List HMsg
  /-- Binds that have not left their threads, in order of issue (R278). -/
  hpath : List PathMsg
  fills : List Fill
  jobs : List PageJob
  colls : List Coll
  cores : List Core
  parts : List Part
  ctxs : List Ctx
  queues : List SwQ
  /-- Queues waiting for a hardware slot, in notify order (R376). -/
  slotWait : List (Nat × Nat)
  /-- The hardware slot that was served last (R376). -/
  turn : Nat
  cqPend : List CqEnt
  cqs : List CqSt
  /-- Benched groups ready to return, in order (R425). -/
  returns : List (Nat × Nat)
  /-- Last values written to the queue-notify pages, by context and offset (R489). -/
  notifyPg : List (Nat × Nat × DWord)
  /-- MSI-X vectors raised, newest first (R397, R399). -/
  msix : List Nat
  hostErr : DWord
  /-- Own package number, packages that firmware numbered, those with no route, those whose link timeout has passed (R460, R461). -/
  pkg : Nat
  numbered : List Nat
  lost : List Nat
  timedOut : List Nat
  linkReplays : List (Nat × DWord)
  linkDrops : List (Nat × DWord)
  bar4Base : DWord
  /-- Contexts of a domain on other packages (R462). -/
  domPeers : List Peer
  /-- The translation-invalidate register's four words, the request in progress, and OVR (R492). -/
  invReg : List DWord
  invBusy : Option (Nat × VAddr × Nat)
  invOvr : Bool
  /-- The flash-write mailbox: its words as last written, the write in progress, and DONE (R491, R497). -/
  flashBox : List DWord
  flashW : Option FlashW
  flashDone : Bool
  /-- The debug group's halt and resume words as last written (R436, R491). -/
  dbgHaltW : DWord
  dbgResumeW : DWord
  /-- Root core (R493-R496): whether it has booted since reset, processors released (1 management core, 2 command-processor cores too, 3 page-engine cores too), the image that failed, the life-cycle state, a request held until contexts are destroyed, the report. -/
  booted : Bool
  released : Nat
  bootFail : Option Nat
  lifeCycle : Nat
  lifeReq : Option Nat
  /-- Measurements recorded at boot: root ROM, management core, command-processor cores, page-engine cores (R493, R495). -/
  measures : List (List Byte)
  attReport : List Byte
  wdReported : Bool
  wdMissed : Nat
  /-- Scrubbers of the dies' scratchpads and of the HBM stacks (R444). -/
  dieS : List Scrub
  hbmS : List Scrub
  /-- Throttling steps logged (R498): core and clock. -/
  throttleLog : List (Nat × Nat)
  /-- Counters of the model: access numbers, unit numbers, admissions, and the free-value counter. -/
  nextId : Nat
  nextUid : Nat
  nextAdm : Nat
  tick : Nat
  deriving DecidableEq, Repr

/-- Reasons a step can stop the machine. -/
inductive Fault
  /-- Raised by nobody: the spec lets the machine go on from every fault, so no step answers with it (Obligations.EveryStepGoesOnAndKeepsMemory). It is safe: it would stop the machine where the hardware goes on. -/
  | lostUnit
  deriving DecidableEq, Repr

/-- Reasons a step has no meaning. -/
inductive Refusal
  /-- Raised by an arm of exec whose instruction has no meaning yet. It is safe: the machine stops. -/
  | notModelled (mnemonic : String)
  deriving DecidableEq, Repr

/-- A scrubber at its default rate (R444). -/
def Scrub.init (rate : Nat) : Scrub := ⟨rate, 0, 0, [], 0⟩
/-- A core after reset. -/
def Core.init : Core :=
  { cycle := 0, tlb := [], ahead := [], cur := [none, none, none, none, none], lastFe := 15, accs := 0, latches := [],
    breaks := 0, corrected := 0, uncorr := 0, replays := 0,
    vrf := .init 16, shm := .init 16, accS := .init 64, cabS := .init 16,
    beat := false, missed := 0, excuse := false, clock := 21 }
/-- A partition after reset: no half-die; GWLIM 28, HLIM 28, HBEN 1 (R421). -/
def Part.init : Part := { mask := 0, fcw := 0x001C1C04#32, linkTo := 0, answer := 0, halt := none, pgc := [0, 0, 0, 0] }
/-- A context record after reset: every field 0 (R398, R399, R462). -/
def CtxRec.init : CtxRec := ⟨0, 0, 0, 0, 0, 0, 0, 0, 0, 0, 0, 0, 0, 0, 0, 0, 0, 0, 0⟩
/-- A context before the host wrote its record. -/
def Ctx.init (n : Nat) : Ctx :=
  { no := n, rcd := .init, ctrs := [], fqw := 0, fqr := 0, pendF := [], answers := [], svcSeq := 0, svcW := 0, svcs := [],
    bps := [], frames := [], halted := none, saved := .no, preempt := none, via := n, agec := 2, bdly := 1024, fins := [], collUse := [], window := List.replicate 32 0#8, framesIn := [] }

/-- The package right after reset: every SRAM and HBM stack wiped, nothing resident (R493, R496). -/
def State.reset : State :=
  { agenda := [], cur := none, curCore := 0, mem := [], granErr := [], wordPsn := [], wordErr := [], blocks := [], grids := [], chans := [], cbars := [],
    oc := [], hc := [], hpath := [], fills := [], jobs := [], colls := [], cores := List.replicate nCores .init, parts := List.replicate 8 .init,
    ctxs := [], queues := [], slotWait := [], turn := 127, cqPend := [], cqs := [], returns := [], notifyPg := [], msix := [], hostErr := 0,
    pkg := 0, numbered := [0], lost := [], timedOut := [], linkReplays := [], linkDrops := [], bar4Base := 0, domPeers := [],
    invReg := [0, 0, 0, 0], invBusy := none, invOvr := false, flashBox := [0, 0, 0, 0], flashW := none, flashDone := false, dbgHaltW := 0, dbgResumeW := 0, booted := false, released := 0, bootFail := none, lifeCycle := 0, lifeReq := none,
    measures := List.replicate 4 (List.replicate 64 0#8), attReport := [], wdReported := false, wdMissed := 0,
    dieS := List.replicate 4 (.init 16), hbmS := List.replicate 8 (.init 0), throttleLog := [],
    nextId := 0, nextUid := 0, nextAdm := 0, tick := 0 }

end Sys2Proof.Machine
end

