-- ==== Sys2Proof/Machine/Ops.lean ====
section
/-! DEFINITION. The named operations over memory, translation, units and fault records that every meaning shares. -/

namespace Sys2Proof

/-- The block of a unit. -/
def UnitRef.blk : UnitRef → Nat
  | .group b _ => b
  | .front b => b
/-- A front-end unit. -/
def UnitRef.isFront : UnitRef → Bool
  | .front _ => true
  | .group .. => false
/-- How a unit stands in the debug group's words: the block, the group in bits 39:32, bit 63 set for a front-end thread (the words' layout is the model's, log 36). -/
def UnitRef.word : UnitRef → BitVec 64
  | .group b g => BitVec.ofNat 64 (b % 2 ^ 32 + 2 ^ 32 * (g % 256))
  | .front b => BitVec.ofNat 64 (b % 2 ^ 32 + 2 ^ 63)
/-- The group's index; 0 for a front-end thread. -/
def UnitRef.grpNo : UnitRef → Nat
  | .group _ g => g
  | .front _ => 0

end Sys2Proof

namespace Sys2Proof.Machine

/-! ## Memory -/

/-- What an unlisted byte reads as (log 2). -/
def unlisted : Byte := 0

/-- The byte at a key. -/
def memGet : List Host.Cell → Nat → Byte
  | [], _ => unlisted
  | (a, b) :: r, k => if k < a then unlisted else if k = a then b else memGet r k

/-- Writes the byte at a key and keeps the canonical form. -/
def memSet : List Host.Cell → Nat → Byte → List Host.Cell
  | [], k, v => if v = unlisted then [] else [(k, v)]
  | (a, b) :: r, k, v =>
    if k < a then (if v = unlisted then (a, b) :: r else (k, v) :: (a, b) :: r)
    else if k = a then (if v = unlisted then r else (k, v) :: r)
    else (a, b) :: memSet r k v

/-- Keys rise strictly from `lo` on and no entry equals what an unlisted key reads as. -/
def memWfFrom : Nat → List Host.Cell → Bool
  | _, [] => true
  | lo, (a, b) :: r => lo ≤ a && b != unlisted && memWfFrom (a + 1) r
/-- The canonical form of memory. -/
def memWf (m : List Host.Cell) : Bool := memWfFrom 0 m

/-- `n` bytes from a key on. -/
def memRead (m : List Host.Cell) (k : Nat) : Nat → List Byte
  | 0 => []
  | n + 1 => memGet m k :: memRead m (k + 1) n
/-- Writes bytes from a key on. -/
def memWrite (m : List Host.Cell) (k : Nat) : List Byte → List Host.Cell
  | [] => m
  | b :: bs => memWrite (memSet m k b) (k + 1) bs

/-- Little-endian value of bytes (R64). -/
def leNat : List Byte → Nat
  | [] => 0
  | b :: bs => b.toNat + 256 * leNat bs
/-- `n` little-endian bytes of a value (R64). -/
def leBytes : Nat → Nat → List Byte
  | 0, _ => []
  | n + 1, x => BitVec.ofNat 8 x :: leBytes n (x / 256)

/-- Inserts into a rising list without repeats. -/
def insRise (k : Nat) : List Nat → List Nat
  | [] => [k]
  | a :: r => if k < a then k :: a :: r else if k = a then a :: r else a :: insRise k r

/-- A region's place in the key space (log 2). -/
def region (code a : Nat) : Nat := code * 2 ^ 64 + a
/-- Bytes of a package's HBM (R1). -/
def hbmBytes : Nat := 384 * 2 ^ 30
/-- HBM of a package. DESIGN CHOICE, log 58: an address at or above its 384 GiB is taken modulo them. -/
def kHbm (pkg a : Nat) : Nat := region (8 * pkg) (a % hbmBytes)
/-- The pieces, key and length, of `n` bytes of HBM from an address on. DESIGN CHOICE, log 58: a run past the end of the 384 GiB goes on at their start. -/
def hbmPieces (pkg a n : Nat) : List (Nat × Nat) :=
  let here := min n (hbmBytes - a % hbmBytes)
  [(kHbm pkg a, here), (kHbm pkg 0, n - here)]
/-- The scratchpad of a package (R224). -/
def kScr (pkg a : Nat) : Nat := region (8 * pkg + 1) a
/-- Host memory. -/
def kHost (a : Nat) : Nat := region 2 a
/-- Flash (R307). -/
def kFlash (a : Nat) : Nat := region 3 a
/-- A block's shared space (R215). -/
def kShared (blk o : Nat) : Nat := region (8 * blk + 4) o
/-- A group's spill window (R222). -/
def kSpill (blk g o : Nat) : Nat := region (8 * (32 * blk + g) + 5) o
/-- A core's cabinet (R324). -/
def kCab (core o : Nat) : Nat := region (8 * core + 6) o
/-- Entry ACC[r][n] of a core's accumulator store (R331). -/
def kAcc (core r n : Nat) : Nat := region (8 * core + 7) (4 * (128 * r + n))
/-- The lane window byte `o` of lane `l` (R222). -/
def spillByte (o l : Nat) : Nat := 128 * (o / 4) + 4 * l + o % 4

/-- Reads bytes at a key. -/
def State.rd (s : State) (k n : Nat) : List Byte := memRead s.mem k n
/-- Some 8-byte granule or 4-byte word under bytes k to k+n-1 carries an uncorrectable error (R219, R243, R306). -/
def State.psnAt (s : State) (k n : Nat) : Bool :=
  let word (w : Nat) : Bool := decide (4 * w < k + n ∧ k < 4 * w + 4)
  s.granErr.any (fun g => decide (8 * g < k + n ∧ k < 8 * g + 8)) || s.wordPsn.any word || s.wordErr.any word
/-- Writes bytes: a granule that the write covers whole loses its error and the errors of its words, and a ring entry or accumulator word its poison (R29, R500). -/
def State.wr (s : State) (k : Nat) (bs : List Byte) : State :=
  let e := k + bs.length
  { s with
    mem := memWrite s.mem k bs
    granErr := s.granErr.filter fun g => !(decide (k ≤ 8 * g ∧ 8 * g + 8 ≤ e))
    wordPsn := s.wordPsn.filter fun w => !(decide (k ≤ 4 * w ∧ 4 * w + 4 ≤ e))
    wordErr := s.wordErr.filter fun w => !(decide (k ≤ 8 * (w / 2) ∧ 8 * (w / 2) + 8 ≤ e)) }
/-- The pieces of one write cover bytes k to k+n-1. -/
def coversAll (ps : List (Nat × List Byte)) (k n : Nat) : Bool :=
  (List.range n).all fun i => ps.any fun p => decide (p.1 ≤ k + i ∧ k + i < p.1 + p.2.length)
/-- One write of several pieces: it covers a granule where its pieces together do (R500). -/
def State.wrMany (s : State) (ps : List (Nat × List Byte)) : State :=
  { s with
    mem := ps.foldl (fun m p => memWrite m p.1 p.2) s.mem
    granErr := s.granErr.filter fun g => !coversAll ps (8 * g) 8
    wordPsn := s.wordPsn.filter fun w => !coversAll ps (4 * w) 4
    wordErr := s.wordErr.filter fun w => !coversAll ps (8 * (w / 2)) 8 }
/-- Marks the granules under bytes k to k+n-1 as carrying an uncorrectable error. -/
def State.markGran (s : State) (k n : Nat) : State :=
  if n = 0 then s else
    { s with granErr := (List.range ((k + n - 1) / 8 - k / 8 + 1)).foldl (fun l i => insRise (k / 8 + i) l) s.granErr }
/-- Marks one 4-byte word as poisoned. -/
def State.markWord (s : State) (k : Nat) : State := { s with wordPsn := insRise (k / 4) s.wordPsn }
/-- Marks the words under poisoned bytes from k on as carrying an uncorrectable error (R306). -/
def State.markErr (s : State) (k : Nat) (ps : List Bool) : State :=
  { s with wordErr := (ps.zipIdx.filter (·.1)).foldl (fun l x => insRise ((k + x.2) / 4) l) s.wordErr }
/-- Writes bytes of which some are poisoned: each word a poisoned byte reaches carries the error afterwards, and no word beside it does (R306). -/
def State.wrPsn (s : State) (k : Nat) (bs : List Byte) (ps : List Bool) : State := (s.wr k bs).markErr k ps
/-- One write of several pieces with their poison. -/
def State.wrPsnMany (s : State) (ps : List (Nat × List Byte × List Bool)) : State :=
  ps.foldl (fun s p => s.markErr p.1 p.2.2) (s.wrMany (ps.map fun p => (p.1, p.2.1)))
/-- Which of the bytes are poisoned. -/
def State.rdPsn (s : State) (k n : Nat) : List Bool := (List.range n).map fun i => s.psnAt (k + i) 1
/-- A 4-byte word with its poison. -/
def State.rdWord (s : State) (k : Nat) : PWord := ⟨BitVec.ofNat 32 (leNat (s.rd k 4)), s.psnAt k 4⟩
/-- Drops a region from memory. -/
def State.dropRegion (s : State) (code : Nat) : State :=
  let inR (k : Nat) : Bool := k / 2 ^ 64 == code
  { s with
    mem := s.mem.filter fun c => !inR c.1
    granErr := s.granErr.filter fun g => !inR (8 * g)
    wordPsn := s.wordPsn.filter fun w => !inR (4 * w)
    wordErr := s.wordErr.filter fun w => !inR (4 * w) }
/-- Takes a region's bytes out of memory, or puts bytes into it, and leaves what is known of its errors: a block's shared memory while it is on the bench (R29, R500). -/
def State.takeRegion (s : State) (code : Nat) : State := { s with mem := s.mem.filter fun c => c.1 / 2 ^ 64 != code }
def State.putBytes (s : State) (k : Nat) (bs : List Byte) : State := { s with mem := memWrite s.mem k bs }

/-! ## Units, blocks, contexts -/

/-- NONE of the meeting register (R6). -/
def mrNone : VAddr := BitVec.allOnes 56

def State.blk? (s : State) (uid : Nat) : Option Block := s.blocks.find? fun b => b.uid == uid
def State.modBlk (s : State) (uid : Nat) (f : Block → Block) : State :=
  { s with blocks := s.blocks.map fun b => if b.uid = uid then f b else b }
/-- A unit of a block. -/
def Block.grp? (b : Block) : UnitRef → Option Grp
  | .group _ g => b.groups[g]?
  | .front _ => some b.fe
def Block.modGrp (b : Block) (u : UnitRef) (f : Grp → Grp) : Block :=
  match u with
  | .group _ g => { b with groups := b.groups.modify g f }
  | .front _ => { b with fe := f b.fe }
def State.grp? (s : State) (u : UnitRef) : Option Grp := (s.blk? u.blk).bind (·.grp? u)
def State.modGrp (s : State) (u : UnitRef) (f : Grp → Grp) : State := s.modBlk u.blk (·.modGrp u f)
def Grp.modThread (g : Grp) (l : Nat) (f : Thread → Thread) : Grp := { g with threads := g.threads.modify l f }
def State.modThread (s : State) (u : UnitRef) (l : Nat) (f : Thread → Thread) : State := s.modGrp u (·.modThread l f)
/-- The units of a block: front-end thread first, then groups in rising index. -/
def Block.units (b : Block) : List UnitRef := .front b.uid :: (List.range b.groups.length).map (.group b.uid)

def Thread.live (t : Thread) : Bool := t.stat == .run || t.stat == .meet || t.stat == .uniform
/-- LANES_LIVE (R148). -/
def Grp.live (g : Grp) : List Nat := (g.threads.zipIdx.filter fun x => x.1.live).map (·.2)
/-- Every thread has exited, was retired or never lived. -/
def Grp.gone (g : Grp) : Bool := g.threads.all fun t => !t.live

def State.ctx? (s : State) (n : Nat) : Option Ctx := s.ctxs.find? fun c => c.no == n
/-- A context's record and data; one the host has not written has every field 0. -/
def State.ctxD (s : State) (n : Nat) : Ctx := (s.ctx? n).getD (.init n)
def State.modCtx (s : State) (n : Nat) (f : Ctx → Ctx) : State :=
  if (s.ctx? n).isSome then { s with ctxs := s.ctxs.map fun c => if c.no = n then f c else c }
  else { s with ctxs := s.ctxs ++ [f (.init n)] }
def State.grid? (s : State) (id : Nat) : Option Grid := s.grids.find? fun g => g.id == id
def State.modGrid (s : State) (id : Nat) (f : Grid → Grid) : State :=
  { s with grids := s.grids.map fun g => if g.id = id then f g else g }
def State.coreD (s : State) (c : Nat) : Core := s.cores[c]?.getD .init
def State.modCore (s : State) (c : Nat) (f : Core → Core) : State := { s with cores := s.cores.modify c f }
def State.partD (s : State) (p : Nat) : Part := s.parts[p]?.getD .init
def State.modPart (s : State) (p : Nat) (f : Part → Part) : State := { s with parts := s.parts.modify p f }
/-- A context's partition (R398). -/
def Ctx.part (c : Ctx) : Nat := c.rcd.part.toNat % 8

/-- A value in a list of numbered values. -/
def assocGet {α : Type} (l : List (Nat × α)) (k : Nat) (d : α) : α := ((l.find? fun x => x.1 == k).map (·.2)).getD d
def assocSet {α : Type} (l : List (Nat × α)) (k : Nat) (v : α) : List (Nat × α) := (k, v) :: l.filter fun x => x.1 != k
/-- Raises a context counter (R440). -/
def State.bump (s : State) (ctx ix n : Nat) : State :=
  s.modCtx ctx fun c => { c with ctrs := assocSet c.ctrs ix (assocGet c.ctrs ix 0 + BitVec.ofNat 64 n) }
/-- Raises the host-access error counter (R489). -/
def State.hostError (s : State) : State := { s with hostErr := s.hostErr + 1 }
/-- Accesses or messages for a package with no route left are dropped, and counted at the link that led there (R461, R492, log 56). -/
def State.dropLink (s : State) (pkg n : Nat) : State :=
  { s with linkDrops := assocSet s.linkDrops (Config.linkOf pkg) (assocGet s.linkDrops (Config.linkOf pkg) 0 + BitVec.ofNat 64 n) }
/-- Raises a core's uncorrectable-error count (R440). -/
def State.uncorrAt (s : State) (core : Nat) : State := s.modCore core fun c => { c with uncorr := c.uncorr + 1 }

/-- The cycle counter of a core (R10). -/
def State.cycleOf (s : State) (core : Nat) : DWord := (s.coreD core).cycle
/-- The next access number. -/
def State.fresh (s : State) : Nat × State := (s.nextId, { s with nextId := s.nextId + 1 })

/-- Replaces the first element that a test picks. -/
def updFirst {α : Type} (p : α → Bool) (f : α → α) : List α → List α
  | [] => []
  | x :: r => if p x then f x :: r else x :: updFirst p f r

/-! ## Translation (R229-R236) -/

/-- An 8-byte read of a package's HBM. -/
def State.read8 (s : State) (pkg a : Nat) : DWord := BitVec.ofNat 64 (leNat (s.rd (kHbm pkg a) 8))
/-- MASK of R232: bits 47:16 of an entry. -/
def entFrame (e : DWord) : Nat := (e.toNat / 2 ^ 16 % 2 ^ 32) * 2 ^ 16
/-- The fields of a leaf entry with its physical address (R231). -/
def leafOf (e : DWord) (pa : Nat) : Leaf :=
  ⟨pa, e.getLsbD 62, e.getLsbD 61, (e.extractLsb' 57 3).toNat, e.getLsbD 56, (e.extractLsb' 51 5).toNat⟩
/-- WALK (R232) of a table that lies in a package's HBM. -/
def State.walk (s : State) (pkg root : Nat) (va : VAddr) : Option Leaf :=
  let v := va.toNat
  let e2 := s.read8 pkg (root + 8 * (v / 2 ^ 42))
  if !e2.getLsbD 63 || e2.getLsbD 60 then none else
  let e1 := s.read8 pkg (entFrame e2 + 8 * (v / 2 ^ 29 % 2 ^ 13))
  if !e1.getLsbD 63 then none else
  if e1.getLsbD 60 then some (leafOf e1 (entFrame e1 / 2 ^ 29 * 2 ^ 29 + v % 2 ^ 29)) else
  let e0 := s.read8 pkg (entFrame e1 + 8 * (v / 2 ^ 16 % 2 ^ 13))
  if !e0.getLsbD 63 then none else some (leafOf e0 (entFrame e0 + v % 2 ^ 16))

/-- The walk of a context. -/
def State.walkCtx (s : State) (ctx : Nat) (va : VAddr) : Option Leaf := s.walk s.pkg (s.ctxD ctx).rcd.root.toNat va
/-- A translation through a TLB: its entry where it holds the page, else a walk. -/
def State.xlateBy (s : State) (tlb : List TlbEnt) (ctx : Nat) (va : VAddr) : Option Leaf :=
  match tlb.find? fun e => e.ctx == ctx && e.vpage == va.toNat / 2 ^ 16 with
  | some e => some ⟨e.frame + va.toNat % 2 ^ 16, e.w, e.nx, e.tier, e.ord, e.pkg⟩
  | none => s.walkCtx ctx va
/-- A lane access or an instruction fetch: the core TLB (R235). -/
def State.xlate (s : State) (core ctx : Nat) (va : VAddr) : Option Leaf := s.xlateBy (s.coreD core).tlb ctx va
/-- An engine's access: the walk-ahead TLB of the core's copy front (R303). -/
def State.xlateEng (s : State) (core ctx : Nat) (va : VAddr) : Option Leaf := s.xlateBy (s.coreD core).ahead ctx va

/-- Where a leaf's byte lies. -/
def State.leafKey (s : State) (l : Leaf) : Nat :=
  match l.tier with
  | 0 => kHbm s.pkg l.pa
  | 1 => kHost l.pa
  | 2 => kFlash (l.pa % 2 ^ 43)
  | 3 => kScr s.pkg l.pa
  | 4 => kHbm l.pkg l.pa
  | _ => kScr l.pkg l.pa
/-- Bytes of a package's scratchpad (R1). -/
def scrBytes : Nat := 384 * 2 ^ 20
/-- The package a leaf reaches over the links, if any. -/
def State.leafPkg (s : State) (l : Leaf) : Nat := if l.tier = 4 ∨ l.tier = 5 then l.pkg else s.pkg
/-- A scratchpad leaf's slice, counted 192 per package (R224). -/
def State.leafSlice (s : State) (l : Leaf) : Nat := nCores * s.leafPkg l + l.pa / 2 ^ 21
/-- An engine access is legal (R303). -/
def State.engLegal (s : State) (l : Leaf) (write : Bool) : Bool :=
  decide (l.tier ≤ 5) && (!(l.tier == 4 || l.tier == 5) || s.numbered.contains l.pkg) &&
    (!write || (l.w && l.tier != 2)) && (!(l.tier == 3 || l.tier == 5) || decide (l.pa < scrBytes))

/-- How an engine translation fails, with the failing address (R304). -/
inductive XErr
  | invalid (va : Nat)
  | illegal (va : Nat)
  deriving DecidableEq, Repr

/-- Translates bytes va to va+n-1 page by page for an engine (R281, R303); addresses are taken modulo 2^56. -/
def State.engRuns (s : State) (core ctx : Nat) (write : Bool) : Nat → Nat → Nat → Except XErr (List Run)
  | 0, _, _ => .ok []
  | fuel + 1, va, n =>
    if n = 0 then .ok [] else
    let v := va % 2 ^ 56
    let here := min n (65536 - v % 65536)
    match s.xlateEng core ctx (BitVec.ofNat 56 v) with
    | none => .error (.invalid v)
    | some l =>
      if s.engLegal l write then
        match s.engRuns core ctx write fuel (v + here) (n - here) with
        | .ok r => .ok (⟨s.leafKey l, here, l⟩ :: r)
        | .error e => .error e
      else .error (.illegal v)
/-- Translates a range. -/
def State.engRange (s : State) (core ctx va n : Nat) (write : Bool) : Except XErr (List Run) :=
  s.engRuns core ctx write (n / 65536 + 2) va n
/-- The bytes of translated runs. -/
def State.rdRuns (s : State) (rs : List Run) : List Byte := rs.flatMap fun r => s.rd r.key r.len
def State.psnRuns (s : State) (rs : List Run) : List Bool := rs.flatMap fun r => s.rdPsn r.key r.len
/-- Writes bytes over translated runs. -/
def State.wrRuns (s : State) (rs : List Run) (bs : List Byte) : State :=
  (rs.foldl (fun x r => (x.1.wr r.key (x.2.take r.len), x.2.drop r.len)) (s, bs)).1
def State.wrRunsPsn (s : State) (rs : List Run) (bs : List Byte) (ps : List Bool) : State :=
  (rs.foldl (fun x r => (x.1.wrPsn r.key (x.2.1.take r.len) (x.2.2.take r.len), x.2.1.drop r.len, x.2.2.drop r.len)) (s, bs, ps)).1
/-- The device's own reads of a context's structures (rings, tables, records): none where a page does not translate, or is in none of the tiers given. -/
def State.devRead (s : State) (ctx va n : Nat) (tiers : List Nat) : Option (List Byte) :=
  match s.engRange nCores ctx va n false with
  | .ok rs => if rs.all (fun r => tiers.contains r.leaf.tier) then some (s.rdRuns rs) else none
  | .error _ => none
/-- Some byte of the structure carries an uncorrectable error. -/
def State.devPsn (s : State) (ctx va n : Nat) : Bool :=
  match s.engRange nCores ctx va n false with
  | .ok rs => (s.psnRuns rs).any id
  | .error _ => false
/-- The device's own writes of a context's structures; nothing is written where a page does not translate, or where one is flash, which only FLASH_WRITE programs (R1, R307, log 30). -/
def State.devWrite (s : State) (ctx va : Nat) (bs : List Byte) : State :=
  match s.engRange nCores ctx va bs.length false with
  | .ok rs => if rs.any (fun r => r.leaf.tier == 2) then s else s.wrRuns rs bs
  | .error _ => s

/-! ## Stops of one attempt -/

/-- Why an instruction or an event does not take effect. -/
inductive Stop
  /-- The unit holds at the instruction (R22, R23, R37, R221). -/
  | hold
  /-- The unit holds at a GWAIT for a block (R210). -/
  | gwait (target : Nat)
  /-- The unit holds at an instruction of the attention context, or of the matrix context, that has issued and has set its slot (R37, R344, R347). -/
  | queued (attn : Bool) (slot : Option Nat)
  /-- An event whose conditions do not hold, or a unit that has nothing to run. -/
  | idle
  /-- A precise halting fault of the unit: code, fault address, lowest failing lane, detail above bit 7 (R20, R414). -/
  | fault (code : Nat) (faddr : DWord) (lane info : Nat)
  /-- A recoverable page fault of a lane (R237). -/
  | page (va : VAddr) (lane : Nat)
  deriving DecidableEq, Repr

/-- An attempt: all its effects, or a stop and none of them. -/
abbrev Act := StateT State (Except Stop)

def holdA {α : Type} : Act α := throw .hold
def idleA {α : Type} : Act α := throw .idle
def faultA {α : Type} (code : Nat) (faddr : Nat := 0) (lane : Nat := 0) (info : Nat := 0) : Act α :=
  throw (.fault code (BitVec.ofNat 64 faddr) lane info)
def needA (b : Bool) (e : Stop) : Act Unit := if b then pure () else throw e
def someA {α : Type} (x : Option α) (e : Stop) : Act α := match x with | some a => pure a | none => throw e
def modA (f : State → State) : Act Unit := modify f

/-- An event: its effects, or the state as it was where its conditions do not hold (log 1). -/
def runEvent (a : Act Unit) (s : State) : Host.Outcome State Fault Refusal :=
  match a s with
  | .ok (_, t) => .next t
  | .error _ => .next s

/-! ## Fault codes (R414) -/

def fcIllClause : Nat := 0x01
def fcIllInstr : Nat := 0x02
def fcIllOpnd : Nat := 0x03
def fcTarget : Nat := 0x04
def fcFetch : Nat := 0x05
def fcEmpty : Nat := 0x06
def fcMeet : Nat := 0x07
def fcDiverge : Nat := 0x08
def fcMisalign : Nat := 0x09
def fcRange : Nat := 0x0A
def fcTier : Nat := 0x0B
def fcProt : Nat := 0x0C
def fcPage : Nat := 0x0D
def fcQcfg : Nat := 0x0E
def fcTask : Nat := 0x0F
def fcGwait : Nat := 0x10
def fcBarrier : Nat := 0x11
def fcSelect : Nat := 0x12
def fcTrec : Nat := 0x13
def fcCopyPage : Nat := 0x14
def fcCopyProt : Nat := 0x15
def fcStream : Nat := 0x16
def fcMatrix : Nat := 0x17
def fcFormat : Nat := 0x18
def fcAttn : Nat := 0x19
def fcDuplex : Nat := 0x1A
def fcHandle : Nat := 0x1B
def fcStale : Nat := 0x1C
def fcUncor : Nat := 0x1D
def fcArith : Nat := 0x1E
def fcTrap : Nat := 0x1F
def fcWait : Nat := 0x20
def fcBeat : Nat := 0x21
def fcBreak : Nat := 0x22
def fcDebug : Nat := 0x23

/-! ## Fault records -/

/-- WHERE of a record (R417). -/
def whereBits (core sched slot : Nat) : Nat := core / 48 + 4 * (core % 48) + 256 * (sched % 4) + 1024 * (slot % 32)
/-- CTXN of a record (R417). -/
def ctxnBits (ctx : Nat) (u : UnitRef) : Nat :=
  match u with
  | .group _ g => ctx % 4096 + 65536 * g
  | .front _ => ctx % 4096 + 2 ^ 21

/-- Where a unit resumes: the running split's address, else the lowest program counter of a live thread (R417). -/
def Grp.pcOf (g : Grp) : VAddr :=
  match (lanesOf g.runs).head?.bind (g.threads[·]?) with
  | some t => t.pc
  | none => (g.threads.filter (·.live)).foldl (fun m t => if t.pc.toNat < m.toNat then t.pc else m) mrNone

/-- A unit's record (R417). -/
def mkRec (b : Block) (u : UnitRef) (g : Grp) (cause flags : Nat) (pc faddr : DWord) (mask : Mask) (info : Nat) : FRec :=
  { unit := if u.isFront then 1 else 0, cause := cause, flags := flags, ctxs := 0, wher := whereBits b.core g.sched g.slot,
    block := BitVec.ofNat 32 b.idx, ctxn := BitVec.ofNat 32 (ctxnBits b.ctx u), pc := pc, faddr := faddr, mask := mask,
    info := BitVec.ofNat 32 info, prog := 0, frame := 0 }
/-- An engine's record: its operation number and place in PROG (R417). -/
def mkEngRec (b : Block) (unit cause ctxs no place : Nat) (faddr : Nat) (info : Nat) : FRec :=
  { unit := unit, cause := cause, flags := 1, ctxs := ctxs, wher := whereBits b.core 0 0, block := BitVec.ofNat 32 b.idx,
    ctxn := BitVec.ofNat 32 (b.ctx % 4096 + 2 ^ 21), pc := 0, faddr := BitVec.ofNat 64 faddr, mask := 0,
    info := BitVec.ofNat 32 info, prog := BitVec.ofNat 64 (65536 * no + place % 65536), frame := 0 }

/-- The 64 bytes of a record with its last word (R417, R418). -/
def FRec.bytes (r : FRec) (phase : Bool) : List Byte :=
  leBytes 1 r.unit ++ leBytes 1 r.cause ++ leBytes 1 r.flags ++ leBytes 1 r.ctxs ++ leBytes 4 r.wher ++ leBytes 4 r.block.toNat ++
  leBytes 4 r.ctxn.toNat ++ leBytes 8 r.pc.toNat ++ leBytes 8 r.faddr.toNat ++ leBytes 4 r.mask.toNat ++ leBytes 4 r.info.toNat ++
  leBytes 8 r.prog.toNat ++ leBytes 8 r.frame.toNat ++ leBytes 8 (if phase then 1 else 0)

/-- The fault queue has room for one more record (R418). -/
def Ctx.fqRoom (c : Ctx) : Bool := c.fqw + c.pendF.length - c.fqr < c.rcd.fqn.toNat
/-- A record waits to be posted to the context's fault queue (R418). -/
def State.post (s : State) (ctx : Nat) (r : FRec) (a : Answer) : State :=
  s.modCtx ctx fun c => { c with pendF := c.pendF ++ [(r, a)] }

/-- A group leaves its clause while its partition's halt line is up: it stops there (R402, R415). -/
def State.noteStop (s : State) (ctx : Nat) (u : UnitRef) : State :=
  if u.isFront then s else
    s.modPart (s.ctxD ctx).part fun p => { p with halt := p.halt.map fun h => { h with late := if h.late.contains u then h.late else h.late ++ [u] } }
/-- The clause that a unit's running split stands in. -/
def Grp.clauseNow (g : Grp) : Option ClauseCtx := (lanesOf g.runs).head?.bind fun l => (g.threads[l]?).bind (·.cl)
/-- Ends the running clause of a unit: its scheduler is free again and the clause's role is that of the last (R36, R166). -/
def State.endRun (s : State) (u : UnitRef) : State :=
  match s.blk? u.blk with
  | none => s
  | some b =>
    let s := if ((s.grp? u).elim 0 (·.runs)) = 0 then s else s.noteStop b.ctx u
    let s := s.modGrp u fun g => { g with runs := 0, hold := 0, lastRole := (g.clauseNow.map (·.role)).getD g.lastRole }
    s.modCore b.core fun c => { c with cur := c.cur.map fun o => if o = some u then none else o }

/-- A hold of the split goes on: it counts from the cycle in which it began (R210, R421). -/
def Grp.noteWait (g : Grp) (lanes : Mask) (cyc : Nat) (gw : Option Nat) : Grp :=
  if lanes = 0 then g
  else if g.waits.any (fun w => w.lanes &&& lanes != 0) then
    { g with waits := g.waits.map fun w => if w.lanes &&& lanes = 0 then w else { w with lanes := w.lanes ||| lanes, gwait := gw.orElse fun _ => w.gwait } }
  else { g with waits := g.waits ++ [⟨lanes, cyc, false, gw⟩] }
/-- A hold of the split is over: it issued, or its clause began. -/
def Grp.dropWait (g : Grp) (lanes : Mask) : Grp := { g with waits := g.waits.filter fun w => w.lanes &&& lanes == 0 }
/-- Notes the hold of some lanes of a unit at the cycle of its core. -/
def State.noteWait (s : State) (u : UnitRef) (lanes : Mask) (gw : Option Nat) : State :=
  s.modGrp u (·.noteWait lanes (((s.blk? u.blk).elim 0 fun b => (s.cycleOf b.core).toNat)) gw)

/-- Taking a halting fault (R20, R415): the partition's halt line rises with the record of the one at fault, and a unit that holds its slot stops where it is. -/
def State.raiseHalt (s : State) (ctx code : Nat) (u : Option UnitRef) (who : Who) (r : FRec) : State :=
  let p := (s.ctxD ctx).part
  let add (h : Option Halt) : Halt :=
    match h with
    | none => ⟨[(ctx, code)], [⟨ctx, 0, who, r⟩], [], false, [], false, false⟩
    | some h => { h with faults := h.faults ++ [(ctx, code)], recs := h.recs ++ [⟨ctx, h.late.length, who, r⟩], again := h.stopped }
  let s := match u with
    | some u => (s.endRun u).modGrp u fun g => { g with stat := .stopped }
    | none => s
  s.modPart p fun x => { x with halt := some (add x.halt) }

/-- The units of a partition may not begin anything while its halt line is up (R415). -/
def State.halting (s : State) (ctx : Nat) : Bool := (s.partD (s.ctxD ctx).part).halt.isSome
/-- A context that is halted or frozen issues nothing (R416, R428). -/
def State.ctxStopped (s : State) (ctx : Nat) : Bool :=
  let c := s.ctxD ctx
  c.halted.isSome || c.saved != .no
/-- A unit inside a clause issues no more: its context is halted or saved, or stops under SAVE and the unit is a front-end thread (R415, R416, R428). -/
def State.issueStopped (s : State) (ctx : Nat) (front : Bool) : Bool :=
  let c := s.ctxD ctx
  c.halted.isSome || (match c.saved with | .no => false | .stopping => front | .saved _ => true)

/-- The management core runs (R493). -/
def State.mgmtUp (s : State) : Bool := decide (1 ≤ s.released)
/-- The page-engine cores run (R493). -/
def State.pgUp (s : State) : Bool := decide (3 ≤ s.released)
/-- BAR0's registers, the debug group among them, are exposed: the firmware has come up (R493). -/
def State.hostOk (s : State) : Bool := s.mgmtUp && s.bootFail.isNone

/-- Accesses of a thread that have not left UNP, or whose returned value has not filled its register. -/
def State.outstanding (s : State) (t : Thread) (id : Nat) : Bool := t.unp.contains id || s.fills.any fun f => f.id == id

/-- Drops counter references in a list of numbers not above a bound: the counter that a set of incomplete operations allows (R281). -/
def tlRaise (tl : Tl) (open_ : List Nat) : Tl :=
  { tl with ctr := max tl.ctr (open_.foldl (fun m n => min m (n - 1)) tl.given) }

/-- Clears a dependency slot (R37). -/
def Block.clearSlot (b : Block) (sl : Option Nat) : Block :=
  match sl with
  | some k => { b with slots := b.slots &&& ~~~(1#16 <<< k) }
  | none => b

/-- A shared byte range lies wholly within the declared area (R215). -/
def Block.inDecl (b : Block) (o n : Nat) : Bool := decide (o + n ≤ b.shared)
/-- A shared byte range lies wholly within the shelf. -/
def Block.inShelf (b : Block) (o n : Nat) : Bool := b.shelf && decide (0x80000 ≤ o ∧ o + n ≤ 0x84000)
/-- Every line of a shared byte range is present (R221). -/
def Block.present (b : Block) (o n : Nat) : Bool :=
  n = 0 || b.absent.all fun l => !(decide (o / 128 ≤ l ∧ l ≤ (o + n - 1) / 128))
/-- Clears the presence bits of a byte range (R301, R334). -/
def Block.clearLines (b : Block) (o n : Nat) : Block :=
  if n = 0 then b else
    { b with absent := (List.range ((o + n - 1) / 128 - o / 128 + 1)).foldl (fun l i => insRise (o / 128 + i) l) b.absent }
/-- Sets a line's presence bit. -/
def Block.setLine (b : Block) (l : Nat) : Block := { b with absent := b.absent.filter (· != l) }

end Sys2Proof.Machine
end

