-- ==== Sys2Proof/Machine/Flags.lean ====
section
/-! DEFINITION. The sticky bits, the IEEE formats, exact values and the one rounding of every floating-point result (spec/01 R13-R15, spec/03 R65-R69). -/

namespace Sys2Proof.Machine

/-- Sticky bits an instruction sets, in the layout of R14. -/
abbrev Flg := BitVec 8
def fNV : Flg := 0x01
def fDZ : Flg := 0x02
def fOF : Flg := 0x04
def fUF : Flg := 0x08
def fNX : Flg := 0x10
def fIDZ : Flg := 0x20
def fSAT : Flg := 0x40
def fPSN : Flg := 0x80
/-- Flags under a condition. -/
def flagIf (b : Bool) (f : Flg) : Flg := if b then f else 0

/-- FE of the mode word (R12). -/
def modeFE (m : Word) : BitVec 7 := m.extractLsb' 8 7
/-- RM of the mode word (R12, R13). -/
def modeRM (m : Word) : Rnd :=
  match (m.extractLsb' 0 2).toNat with
  | 0 => .rn | 1 => .rz | 2 => .rd | _ => .ru
/-- The bits of the mode word that SWRITE writes (R12). -/
def modeMask : Word := 0x00007F03
/-- The bits of the sticky status word (R14). -/
def stickyMask : Word := 0x000000FF
/-- The rounding of an instruction: its modifier, else RM (R13). -/
def roundOf (r : Option Rnd) (mode : Word) : Rnd := r.getD (modeRM mode)

/-- Setting sticky bits: they stay set, and each that FE enables makes an arithmetic fault pending (R14, R15). -/
def Thread.setFlags (t : Thread) (f : Flg) : Thread :=
  { t with sticky := t.sticky ||| f.setWidth 32, pend := t.pend ||| (f.setWidth 7 &&& modeFE t.mode) }

/-! ## Formats and exact values -/

/-- An IEEE format (R65): precision with the hidden bit, exponent bits, width. -/
structure Fmt where
  p : Nat
  eb : Nat
  deriving DecidableEq, Repr
def Fmt.of : FFmt → Fmt
  | .f32 => ⟨24, 8⟩
  | .f16 => ⟨11, 5⟩
  | .bf16 => ⟨8, 8⟩
def Fmt.bias (f : Fmt) : Nat := 2 ^ (f.eb - 1) - 1
/-- Exponent of the last place of the subnormals. -/
def Fmt.qmin (f : Fmt) : Int := 1 - (f.bias : Int) - (f.p - 1 : Nat)
def Fmt.emin (f : Fmt) : Int := 1 - (f.bias : Int)
def Fmt.width (f : Fmt) : Nat := f.p + f.eb
def Fmt.signBit (f : Fmt) : Nat := 2 ^ (f.width - 1)
def Fmt.infCode (f : Fmt) : Nat := (2 ^ f.eb - 1) * 2 ^ (f.p - 1)
/-- Canonical NaN (R65). -/
def Fmt.nan (f : Fmt) : Nat := f.infCode + 2 ^ (f.p - 2)
def Fmt.maxFin (f : Fmt) : Nat := f.infCode - 1
def Fmt.withSign (f : Fmt) (neg : Bool) (c : Nat) : Nat := if neg then c + f.signBit else c

/-- A decoded value: a NaN, an infinity, or the exact number ±m × 2^e. -/
inductive FVal
  | nan (signalling : Bool)
  | inf (neg : Bool)
  | fin (neg : Bool) (m : Nat) (e : Int)
  deriving DecidableEq, Repr

/-- Decoding a code of a format (R65). -/
def Fmt.decode (f : Fmt) (c : Nat) : FVal :=
  let neg := decide (c / f.signBit % 2 = 1)
  let ex := c / 2 ^ (f.p - 1) % 2 ^ f.eb
  let fr := c % 2 ^ (f.p - 1)
  if ex = 2 ^ f.eb - 1 then (if fr = 0 then .inf neg else .nan (decide (fr < 2 ^ (f.p - 2))))
  else if ex = 0 then .fin neg fr f.qmin
  else .fin neg (fr + 2 ^ (f.p - 1)) (f.qmin + (ex - 1 : Nat))

def FVal.isNan : FVal → Bool
  | .nan _ => true
  | _ => false
def FVal.isSnan : FVal → Bool
  | .nan b => b
  | _ => false
def FVal.isInf : FVal → Bool
  | .inf _ => true
  | _ => false
def FVal.isZero : FVal → Bool
  | .fin _ m _ => m == 0
  | _ => false
def FVal.neg : FVal → Bool
  | .nan _ => false
  | .inf n => n
  | .fin n _ _ => n

/-- Whether a magnitude between `lo` and `lo + 1` places goes up: the remainder against the half is given as twice the remainder and the divisor, with a sticky rest. -/
def roundsUp (r : Rnd) (neg odd : Bool) (rem2 div : Nat) (sticky : Bool) : Bool :=
  let inexact := rem2 != 0 || sticky
  match r with
  | .rn => decide (rem2 > div) || (rem2 == div && (sticky || odd))
  | .rz => false
  | .rd => neg && inexact
  | .ru => !neg && inexact

/-- Rounds num × 2^e (plus less than one unit of the last bit where `sticky`) to places of 2^q: the significand and whether it differs. -/
def roundPlaces (r : Rnd) (neg : Bool) (num : Nat) (e q : Int) (sticky : Bool) : Nat × Bool :=
  if q ≤ e then (num * 2 ^ (e - q).toNat, sticky)
  else
    let d := 2 ^ (q - e).toNat
    let sig := num / d
    let rem := num % d
    (if roundsUp r neg (sig % 2 == 1) (2 * rem) d sticky then sig + 1 else sig, rem != 0 || sticky)

/-- Rounding an exact magnitude once into a format (R66, R67): the code and the sticky bits. Tininess is detected after rounding. -/
def Fmt.round (f : Fmt) (r : Rnd) (neg : Bool) (num : Nat) (e : Int) (sticky : Bool := false) : Nat × Flg :=
  if num = 0 ∧ !sticky then (f.withSign neg 0, 0) else
  let E := e + Nat.log2 num
  let q := max (E - (f.p - 1 : Nat)) f.qmin
  let (sig, nx) := roundPlaces r neg num e q sticky
  let code := (q - f.qmin).toNat * 2 ^ (f.p - 1) + sig
  if code ≥ f.infCode then
    let toMax := match r with
      | .rn => false
      | .rz => true
      | .rd => !neg
      | .ru => neg
    (f.withSign neg (if toMax then f.maxFin else f.infCode), fOF ||| fNX)
  else
    let free := roundPlaces r neg num e (E - (f.p - 1 : Nat)) sticky
    let tiny := decide (E < f.emin) && !(decide (E = f.emin - 1) && free.1 == 2 ^ f.p)
    (f.withSign neg code, flagIf nx (fNX ||| flagIf tiny fUF))

/-- An exact signed number m × 2^e. -/
structure Dy where
  m : Int
  e : Int
  deriving DecidableEq, Repr
def Dy.add (a b : Dy) : Dy :=
  let e := min a.e b.e
  ⟨a.m * 2 ^ (a.e - e).toNat + b.m * 2 ^ (b.e - e).toNat, e⟩
def Dy.mul (a b : Dy) : Dy := ⟨a.m * b.m, a.e + b.e⟩
def Dy.ofFin (neg : Bool) (m : Nat) (e : Int) : Dy := ⟨if neg then -(m : Int) else m, e⟩
/-- a ≤ b. -/
def Dy.le (a b : Dy) : Bool :=
  let e := min a.e b.e
  decide (a.m * 2 ^ (a.e - e).toNat ≤ b.m * 2 ^ (b.e - e).toNat)
def Dy.lt (a b : Dy) : Bool := !b.le a
/-- Rounds an exact sum; a zero takes the sign given. -/
def Fmt.roundDy (f : Fmt) (r : Rnd) (x : Dy) (zeroNeg : Bool) : Nat × Flg :=
  if x.m = 0 then (f.withSign zeroNeg 0, 0) else f.round r (decide (x.m < 0)) x.m.natAbs x.e

/-- NaN operands: the canonical NaN, with NV for a signalling one (R67). -/
def Fmt.nanOf (f : Fmt) (xs : List FVal) : Nat × Flg := (f.nan, flagIf (xs.any (·.isSnan)) fNV)
/-- An invalid operation. -/
def Fmt.invalid (f : Fmt) : Nat × Flg := (f.nan, fNV)

/-- Exact x + y rounded once; the sign of an exact zero follows R67. -/
def Fmt.addV (f : Fmt) (r : Rnd) (a b : FVal) : Nat × Flg :=
  match a, b with
  | .nan _, _ | _, .nan _ => f.nanOf [a, b]
  | .inf x, .inf y => if x = y then (f.withSign x f.infCode, 0) else f.invalid
  | .inf x, _ => (f.withSign x f.infCode, 0)
  | _, .inf y => (f.withSign y f.infCode, 0)
  | .fin n m e, .fin n' m' e' =>
    f.roundDy r ((Dy.ofFin n m e).add (Dy.ofFin n' m' e')) (if m = 0 ∧ m' = 0 ∧ n = n' then n else decide (r = .rd))
/-- Exact x × y rounded once. -/
def Fmt.mulV (f : Fmt) (r : Rnd) (a b : FVal) : Nat × Flg :=
  match a, b with
  | .nan _, _ | _, .nan _ => f.nanOf [a, b]
  | .inf x, y => if y.isZero then f.invalid else (f.withSign (x != y.neg) f.infCode, 0)
  | y, .inf x => if y.isZero then f.invalid else (f.withSign (x != y.neg) f.infCode, 0)
  | .fin n m e, .fin n' m' e' => f.round r (n != n') (m * m') (e + e')
/-- Exact x × y + z rounded once (R69); 0 × ∞ is invalid even when z is a NaN (R67). -/
def Fmt.fmaV (f : Fmt) (r : Rnd) (a b c : FVal) : Nat × Flg :=
  if (a.isInf && b.isZero) || (a.isZero && b.isInf) then f.invalid else
  match a, b, c with
  | .fin n m e, .fin n' m' e', .fin k mc ec =>
    let pneg := n != n'
    f.roundDy r ((Dy.ofFin pneg (m * m') (e + e')).add (Dy.ofFin k mc ec))
      (if m * m' = 0 ∧ mc = 0 ∧ pneg = k then k else decide (r = .rd))
  | _, _, _ =>
    if a.isNan || b.isNan || c.isNan then f.nanOf [a, b, c] else
    let pneg := a.neg != b.neg
    if a.isInf || b.isInf then
      match c with
      | .inf k => if k = pneg then (f.withSign pneg f.infCode, 0) else f.invalid
      | _ => (f.withSign pneg f.infCode, 0)
    else (f.withSign c.neg f.infCode, 0)

/-- Numeric order of two values that are no NaN, with −0 below +0 where `zeros` (R68, R102). -/
def FVal.cmp (zeros : Bool) (a b : FVal) : Ordering :=
  match a, b with
  | .inf n, .inf n' => if n = n' then .eq else if n then .lt else .gt
  | .inf n, _ => if n then .lt else .gt
  | _, .inf n => if n then .gt else .lt
  | .fin n m e, .fin n' m' e' =>
    if m = 0 ∧ m' = 0 then (if zeros ∧ n ≠ n' then (if n then .lt else .gt) else .eq)
    else
      let x := Dy.ofFin n m e
      let y := Dy.ofFin n' m' e'
      if x.lt y then .lt else if y.lt x then .gt else .eq
  | _, _ => .eq

/-- FMIN and FMAX of two codes (R68). -/
def Fmt.minmax (f : Fmt) (max : Bool) (x y : Nat) : Nat × Flg :=
  let a := f.decode x
  let b := f.decode y
  let fl := flagIf (a.isSnan || b.isSnan) fNV
  if a.isNan && b.isNan then (f.nan, fl)
  else if a.isNan then (y, fl)
  else if b.isNan then (x, fl)
  else
    let o := a.cmp true b
    (if max then (if o = .lt then y else x) else (if o = .gt then y else x), fl)

/-- A comparison code on a predicate of order (R101, R102). -/
def cmpHolds (c : Cmp) (o : Ordering) : Bool :=
  match c with
  | .eq => o == .eq
  | .ne => o != .eq
  | .lt => o == .lt
  | .le => o != .gt
  | .gt => o == .gt
  | .ge => o != .lt
/-- FSETP of two codes (R102). -/
def Fmt.compare (f : Fmt) (c : Cmp) (x y : Nat) : Bool × Flg :=
  let a := f.decode x
  let b := f.decode y
  if a.isNan || b.isNan then
    (c == .ne, if c == .eq || c == .ne then flagIf (a.isSnan || b.isSnan) fNV else fNV)
  else (cmpHolds c (a.cmp false b), 0)

/-- Rounds an exact number to an integer (R80, R108): the magnitude and whether it differs. -/
def roundInt (r : Rnd) (neg : Bool) (m : Nat) (e : Int) : Nat × Bool := roundPlaces r neg m e 0 false

/-- FRND (R108). -/
def Fmt.rint (f : Fmt) (r : Rnd) (x : Nat) : Nat × Flg :=
  match f.decode x with
  | .nan s => (f.nan, flagIf s fNV)
  | .inf _ => (x, 0)
  | .fin n m e =>
    if m = 0 then (x, 0) else
    let (k, nx) := roundInt r n m e
    ((f.round .rn n k 0).1, flagIf nx fNX)

/-- FCLASS (R109). -/
def fclassOf (x : Nat) : Nat :=
  let f := Fmt.of .f32
  match f.decode x with
  | .inf true => 1
  | .inf false => 128
  | .nan true => 256
  | .nan false => 512
  | .fin true m e => if m = 0 then 8 else if e = f.qmin ∧ m < 2 ^ 23 then 4 else 2
  | .fin false m e => if m = 0 then 16 else if e = f.qmin ∧ m < 2 ^ 23 then 32 else 64

/-- Integer square root by bits: the largest r with r² ≤ n among r built from `k` bits. -/
def isqrtBits : Nat → Nat → Nat → Nat
  | 0, _, r => r
  | k + 1, n, r => isqrtBits k n (if (r + 2 ^ k) * (r + 2 ^ k) ≤ n then r + 2 ^ k else r)
def isqrt (n : Nat) : Nat := isqrtBits (Nat.log2 n / 2 + 1) n 0

/-- FRCP (R85): 1 / x rounded correctly. -/
def Fmt.rcp (f : Fmt) (r : Rnd) (x : Nat) : Nat × Flg :=
  match f.decode x with
  | .nan s => (f.nan, flagIf s fNV)
  | .inf n => (f.withSign n 0, 0)
  | .fin n m e =>
    if m = 0 then (f.withSign n f.infCode, fDZ) else
    let k := 2 ^ 64
    f.round r n (k / m) (-e - 64) (k % m != 0)
/-- FSQRT (R85). -/
def Fmt.sqrt (f : Fmt) (r : Rnd) (x : Nat) : Nat × Flg :=
  match f.decode x with
  | .nan s => (f.nan, flagIf s fNV)
  | .inf false => (x, 0)
  | .inf true => f.invalid
  | .fin n m e =>
    if m = 0 then (x, 0) else if n then f.invalid else
    let (m, e) := if e % 2 = 0 then (m * 2 ^ 60, e - 60) else (m * 2 ^ 61, e - 61)
    let q := isqrt m
    f.round r false q (e / 2) (q * q != m)

/-! ## The tapered formats (R70-R78) -/

/-- Bits and largest magnitude code of a narrow format. -/
def nfW : NFmt → Nat
  | .t8 => 7
  | .t6 => 5
/-- Length of the run of bits equal to `b` from bit k−1 downward. -/
def runLen (m : Nat) (b : Bool) : Nat → Nat
  | 0 => 0
  | k + 1 => if m.testBit k = b then 1 + runLen m b k else 0
/-- DECODE_TAPER of a magnitude code (R71): the exact magnitude as m × 2^e. -/
def taperMag (w m : Nat) : Nat × Int :=
  if m = 0 then (0, 0) else
  let b := m.testBit (w - 1)
  let k := runLen m b w
  let regime : Int := if b then (k : Int) - 1 else -(k : Int)
  let rest := w - k - 1
  if rest = 0 then (1, 2 * regime) else
  let e : Int := if m.testBit (rest - 1) then 1 else 0
  let nf := rest - 1
  (2 ^ nf + m % 2 ^ nf, 2 * regime + e - nf)
/-- DECODE_T8 and DECODE_T6 (R71, R72). -/
def nfDecode (n : NFmt) (c : Nat) : Dy :=
  let (m, e) := taperMag (nfW n) (c % 2 ^ nfW n)
  Dy.ofFin (c / 2 ^ nfW n % 2 == 1 && m != 0) m e
/-- The largest code, from `k` codes down, whose value is at most num × 2^e. -/
def nfFloor (n : NFmt) (x : Dy) : Nat → Nat
  | 0 => 0
  | k + 1 => let (m, e) := taperMag (nfW n) (k + 1); if Dy.le ⟨m, e⟩ x then k + 1 else nfFloor n x k
/-- NARROW of an exact number (R77, R78). -/
def nfNarrow (n : NFmt) (neg : Bool) (num : Nat) (e : Int) : Nat × Flg :=
  if num = 0 then (0, 0) else
  let x : Dy := ⟨num, e⟩
  let top := 2 ^ nfW n - 1
  let val (c : Nat) : Dy := let (m, e) := taperMag (nfW n) c; ⟨m, e⟩
  let sg (c : Nat) : Nat := if neg && c != 0 then c + 2 ^ nfW n else c
  if (val top).lt x then (sg top, fSAT ||| fNX) else
  let c := nfFloor n x top
  if x.le (val c) then (sg c, 0) else
  let mid2 := (val c).add (val (c + 1))
  let x2 : Dy := ⟨2 * num, e⟩
  let c' := if x2.lt mid2 then c else if mid2.lt x2 then c + 1 else (if c % 2 = 0 then c else c + 1)
  (sg c', fNX ||| flagIf (c' == 0) fUF)
/-- NARROW of a decoded value times 2^sh (R78, R114). -/
def nfNarrowV (n : NFmt) (v : FVal) (sh : Int) : Nat × Flg :=
  match v with
  | .nan _ => (0, fNV)
  | .inf neg => (if neg then 2 ^ (nfW n + 1) - 1 else 2 ^ nfW n - 1, fSAT)
  | .fin neg m e => nfNarrow n neg m (e + sh)

/-! ## Conversion (R79, R80, R112-R115) -/

/-- Saturating an integer into s32 or u32 (R80, R113): the word and whether it clamped. -/
def clampInt (sgn : Bool) (x : Int) : Word × Bool :=
  let lo : Int := if sgn then -(2 ^ 31) else 0
  let hi : Int := if sgn then 2 ^ 31 - 1 else 2 ^ 32 - 1
  if x < lo then (BitVec.ofInt 32 lo, true) else if x > hi then (BitVec.ofInt 32 hi, true) else (BitVec.ofInt 32 x, false)
/-- A value into s32 or u32 (R80). -/
def toInt (r : Rnd) (sgn : Bool) (v : FVal) : Word × Flg :=
  match v with
  | .nan _ => (0, fNV)
  | .inf neg => ((clampInt sgn (if neg then -(2 ^ 40) else 2 ^ 40)).1, fSAT)
  | .fin neg m e =>
    let (k, nx) := roundInt r neg m e
    let (w, c) := clampInt sgn (if neg then -(k : Int) else k)
    (w, if c then fSAT ||| fNX else flagIf nx fNX)
/-- A value into an IEEE format, rounded once (R79). DESIGN CHOICE, log 79: a signalling NaN sets NV, also where R76 calls the conversion exact. -/
def Fmt.ofV (f : Fmt) (r : Rnd) (v : FVal) : Nat × Flg :=
  match v with
  | .nan s => (f.nan, flagIf s fNV)
  | .inf n => (f.withSign n f.infCode, 0)
  | .fin n m e => f.round r n m e
/-- A narrow code as a value; it is never a NaN or an infinity (R70). -/
def nfVal (n : NFmt) (c : Nat) : FVal := let d := nfDecode n c; .fin (decide (d.m < 0)) d.m.natAbs d.e
/-- The value a register holds in a format (R112). -/
def srcVal (f : CFmt) (x : Word) : FVal :=
  match f with
  | .s32 => .fin (decide (x.toInt < 0)) x.toInt.natAbs 0
  | .u32 => .fin false x.toNat 0
  | .f k => (Fmt.of k).decode (x.toNat % 2 ^ (Fmt.of k).width)
  | .n k => nfVal k (x.toNat % 2 ^ (nfW k + 1))
/-- CVT (R113). -/
def cvtOf (dst src : CFmt) (r : Rnd) (x : Word) : Word × Flg :=
  let v := srcVal src x
  match dst with
  | .s32 => toInt r true v
  | .u32 => toInt r false v
  | .f k => let (c, fl) := (Fmt.of k).ofV r v; (BitVec.ofNat 32 c, fl)
  | .n k => let (c, fl) := nfNarrowV k v 0; (BitVec.ofNat 32 c, fl)

/-- Element `i` of packed or whole registers of an IEEE format (R114). -/
def elemOf (k : FFmt) (ws : List Word) (i : Nat) : Nat :=
  match k with
  | .f32 => (ws[i]?.getD 0).toNat
  | _ => (ws[i / 2]?.getD 0).toNat / 2 ^ (16 * (i % 2)) % 2 ^ 16
/-- NCVT (R114). -/
def ncvtOf (dst : NFmt) (src : FFmt) (a : List Word) (b : Word) : Word × Flg :=
  let s := b.toNat % 256
  (List.range 4).foldl (fun acc i =>
    let (c, fl) := if s = 255 then (0, fNV) else nfNarrowV dst ((Fmt.of src).decode (elemOf src a i)) (127 - s)
    (acc.1 ||| BitVec.ofNat 32 (c * 2 ^ (8 * i)), acc.2 ||| fl)) (0#32, 0#8)
/-- NDEC (R115): the destination words. -/
def ndecOf (dst : FFmt) (src : NFmt) (r : Rnd) (a b : Word) : List Word × Flg :=
  let f := Fmt.of dst
  let s := b.toNat % 256
  let es := (List.range 4).map fun i =>
    if s = 255 then f.invalid else
    let d := nfDecode src (a.toNat / 2 ^ (8 * i) % 2 ^ (nfW src + 1))
    f.roundDy r ⟨d.m, d.e + s - 127⟩ false
  let c (i : Nat) : Nat := (es[i]?.getD (0, 0)).1
  let fl := es.foldl (fun x e => x ||| e.2) 0#8
  match dst with
  | .f32 => ((List.range 4).map fun i => BitVec.ofNat 32 (c i), fl)
  | _ => ([BitVec.ofNat 32 (c 0 + 65536 * c 1), BitVec.ofNat 32 (c 2 + 65536 * c 3)], fl)

/-- The block scale of R187 over values, with target exponent t: the code and whether a signalling NaN was met. DESIGN CHOICE, log 79: where every value is infinite M is a maximum over nothing and is taken as 0. -/
def scaleOf (vs : List FVal) (t : Int) : Nat × Flg :=
  if vs.any (·.isNan) then (255, flagIf (vs.any (·.isSnan)) fNV) else
  let es := vs.filterMap fun v =>
    match v with
    | .fin _ m e => if m = 0 then none else some (e + (Nat.log2 m : Int))
    | _ => none
  match es with
  | [] => (127, 0)
  | e :: r => let E := r.foldl max e; ((max 0 (min 254 (E - t + 127))).toNat, 0)

end Sys2Proof.Machine
end

