-- ==== Sys2Proof/Machine/Operands.lean ====
section
/-! DEFINITION. Every operand form: which fields are legal, reading and popping sources, writing and pushing destinations (spec/01 R7-R11, R22-R32, spec/02 R50-R53). -/

namespace Sys2Proof.Machine

/-- A source field: its width in words, its empty-trap bit, and whether RET names it. -/
structure Src where
  f : Opnd
  n : Nat := 1
  et : Bool := false
  ret : Bool := false
  deriving DecidableEq, Repr
/-- A destination field. -/
structure Dest where
  f : Opnd
  n : Nat := 1
  deriving DecidableEq, Repr

/-- The kinds of operand value (R50). -/
inductive OpKind
  | reg (r : Nat)
  | port (q : Nat)
  | special (k : Nat)
  | bcast (k : Nat)
  | bad
  | zero
  deriving DecidableEq, Repr
/-- The operand map (R50). -/
def opKind (f : Opnd) : OpKind :=
  let x := f.toNat
  if x < 448 then .reg x
  else if x < 480 then .port (x - 448)
  else if x < 488 then .special x
  else if x < 496 then .bcast (x - 488)
  else if x < 500 then .special x
  else if x < 511 then .bad
  else .zero

/-- A register group lies within the allocation and is aligned (R7, R52). -/
def regOk (nregs r n : Nat) : Bool := decide (r + n ≤ nregs) && r % n == 0
/-- QCFG has configured the port (R30). -/
def Block.ring? (b : Block) (q : Nat) : Option Ring := (b.rings.find? fun x => x.1 == q).map (·.2)
/-- A thread of the unit may pop the port (R30). -/
def Block.canPop (b : Block) (front : Bool) (q : Nat) : Bool :=
  if front then (q == 17 || (1 ≤ q && q ≤ 15 && (b.ring? q).isSome))
  else (q == 0 || q == 16 || (1 ≤ q && q ≤ 15 && (b.ring? q).isSome))
/-- A thread may push the port (R30). -/
def Block.canPush (b : Block) (q : Nat) : Bool := 1 ≤ q && q ≤ 15 && (b.ring? q).isSome

/-- Registers of a thread of the unit. -/
def Block.nregsOf (b : Block) (front : Bool) : Nat := if front then 64 else b.nregs

/-- A source field is legal for the thread (R62 step 5). -/
def Block.srcOk (b : Block) (front : Bool) (x : Src) : Bool :=
  match opKind x.f with
  | .reg r => regOk (b.nregsOf front) r x.n
  | .port q => b.canPop front q
  | .special _ => x.n == 1
  | .bcast k => !front && k % x.n == 0
  | .bad => false
  | .zero => true
/-- A destination field is legal for the thread (R62 step 5). -/
def Block.dstOk (b : Block) (front : Bool) (x : Dest) : Bool :=
  match opKind x.f with
  | .reg r => regOk (b.nregsOf front) r x.n
  | .port q => b.canPush q
  | .zero => true
  | _ => false
/-- A field read and written, or a link field: registers or 511 only (R31, R119). -/
def Block.rwOk (b : Block) (front : Bool) (f : Opnd) (n : Nat) : Bool :=
  match opKind f with
  | .reg r => regOk (b.nregsOf front) r n
  | .zero => true
  | _ => false

/-- A unit's block, its own state, its kind and the core (R33). -/
structure View where
  u : UnitRef
  b : Block
  g : Grp
  deriving DecidableEq, Repr
def View.front (v : View) : Bool := v.u.isFront
/-- The unit that executes. -/
def State.view? (s : State) : Option View :=
  s.cur.bind fun u => (s.blk? u.blk).bind fun b => (b.grp? u).map fun g => ⟨u, b, g⟩
/-- The running split's threads (R156). -/
def View.lanes (v : View) : List Nat := (lanesOf v.g.runs).filter fun l => match v.g.threads[l]? with | some t => t.stat == .run | none => false
def View.thread (v : View) (l : Nat) : Option Thread := v.g.threads[l]?

/-- p0 to p7 with p7 reading 1. -/
def Thread.preds8 (t : Thread) : BitVec 8 := (1#1 ++ t.preds)
def predOf (p : BitVec 8) (k : PNum) : Bool := p.getLsbD k.toNat
/-- The guard (R42). -/
def Guard.holds (g : Guard) (t : Thread) : Bool := predOf t.preds8 g.p ^^ g.neg
/-- Writing a predicate; a write to p7 is discarded (R53). -/
def Thread.setPred (t : Thread) (k : PNum) (v : Bool) : Thread :=
  if k = 7#3 then t else
    { t with preds := if v then t.preds ||| (1#7 <<< k.toNat) else t.preds &&& ~~~(1#7 <<< k.toNat) }

end Sys2Proof.Machine

namespace Sys2Proof.Machine

/-- The active lanes of an instruction: threads of the split whose guard holds (R179). -/
def View.active (v : View) (g : Guard) : List Nat :=
  v.lanes.filter fun l => match v.thread l with | some t => Guard.holds g t | none => false

/-- The values of the specials (R9, R10); %tlo and %thi are read below. -/
def specialVal (s : State) (v : View) (l k : Nat) : Word :=
  let grid := s.grid? v.b.grid
  match k with
  | 480 => if v.front then 0 else BitVec.ofNat 32 l
  | 481 => if v.front then 0xFFFFFFFF else BitVec.ofNat 32 v.u.grpNo
  | 482 => BitVec.ofNat 32 v.b.idx
  | 483 => BitVec.ofNat 32 v.b.cluster
  | 484 => BitVec.ofNat 32 v.b.stage
  | 485 => v.b.page
  | 496 => v.b.pstat
  | 497 => BitVec.ofNat 32 v.b.groups.length
  | 498 => BitVec.ofNat 32 ((grid.map (·.nblocks)).getD 0)
  | _ => BitVec.ofNat 32 (v.b.core / 48 + 4 * (s.pkg % 32))

/-- Entries that may be popped: those written ahead of the first unwritten place (R501). -/
def Ring.avail (r : Ring) : Nat := (r.unwritten.foldl min r.tail) - r.head
/-- Room for pushes; reserved places take room (R501). -/
def Ring.room (r : Ring) : Nat := r.depth - (r.tail - r.head)
/-- The shared offset of an absolute place. -/
def Ring.place (r : Ring) (i : Nat) : Nat := r.ofs + 4 * (i % r.depth)

/-! ## The order of a thread's accesses -/

/-- The thread's next memory access may issue: its acquire accesses are complete and its strongly ordered ones performed (R273, R275). -/
def State.memReady (s : State) (t : Thread) : Bool :=
  t.acqw.all (fun i => !s.outstanding t i) && t.sow.all fun i => !t.unp.contains i
/-- The same for lanes of a unit. -/
def State.lanesReady (s : State) (u : UnitRef) (ls : List Nat) : Bool :=
  ls.all fun l => ((s.grp? u).bind (·.threads[l]?)).elim true (s.memReady ·)
/-- The port is a ring of the block's shared memory: its pushes and pops are memory accesses (R194, R269). -/
def isRing (q : Nat) : Bool := 1 ≤ q && q ≤ 15
/-- What holds any use of a ring: entries in SQ(g), and the order of the lanes' accesses (R269, R273, R275, R286). -/
def ringBusy (s : State) (u : UnitRef) (q : Nat) (ls : List Nat) : Bool :=
  isRing q && (((s.grp? u).elim [] (·.sq)) != [] || !s.lanesReady u ls)

/-- The reading of an instruction's sources in progress: pops taken, whether some source holds it, and whether some empty source traps (R22, R32). -/
structure Rd where
  s : State
  hold : Bool := false
  trap : Bool := false
  deriving DecidableEq, Repr
def Rd.empty (r : Rd) (et : Bool) : Rd := if et then { r with trap := true } else { r with hold := true }

/-- Entries a port holds for a lane, as they stand now, whether an empty port traps whatever the empty-trap bit holds (R154, R434), and whether the lane may not use it yet (R269, R273, R275). -/
def portView (s : State) (u : UnitRef) (l q : Nat) : List PWord × Bool × Bool :=
  match s.blk? u.blk with
  | none => ([], false, true)
  | some b =>
    if q = 0 then (b.tray, b.fe.gone, false)
    else if q = 16 then (((b.grp? u).bind (·.threads[l]?)).elim [] (·.q16), true, false)
    else if q = 17 then (b.q17.map fun w => ⟨w, false⟩, false, false)
    else match b.ring? q with
      | none => ([], false, true)
      | some r => ((List.range r.avail).map fun i => s.rdWord (kShared b.uid (r.place (r.head + i))), false, ringBusy s u q [l])
/-- One of the first `n` entries of a ring lies in an absent line (R221). -/
def portAbsent (s : State) (u : UnitRef) (q n : Nat) : Bool :=
  match (s.blk? u.blk).bind fun b => (b.ring? q).map fun r => (b, r) with
  | some (b, r) => isRing q && !((List.range n).all fun i => b.present (r.place (r.head + i)) 4)
  | none => false
/-- What an instruction that pops a poisoned word leaves in its destination (R26). -/
def PWord.taken (w : PWord) : PWord := if w.p then ⟨0, true⟩ else w
/-- Takes `n` entries off a port. -/
def portDrop (s : State) (u : UnitRef) (l q n : Nat) : State :=
  if q = 0 then s.modBlk u.blk fun b => { b with tray := b.tray.drop n }
  else if q = 16 then s.modThread u l fun t => { t with q16 := t.q16.drop n }
  else if q = 17 then s.modBlk u.blk fun b => { b with q17 := b.q17.drop n }
  else s.modBlk u.blk fun b => { b with rings := b.rings.map fun x => if x.1 = q then (q, { x.2 with head := x.2.head + n }) else x }

/-- Reads one source of one lane (R8, R10, R22, R31, R32). DESIGN CHOICE, log 52: a 128-bit source that names a port takes four entries. DESIGN CHOICE, log 79: a split that needs more entries of the tray than it holds after the front-end thread has exited takes the empty-source fault. -/
def readSrc (v : View) (l : Nat) (x : Src) (r : Rd) : List PWord × Rd :=
  let zeros := List.replicate x.n (⟨0, false⟩ : PWord)
  match opKind x.f with
  | .reg k =>
    match (r.s.grp? v.u).bind (·.threads[l]?) with
    | none => (zeros, { r with hold := true })
    | some t =>
      let rs := (List.range x.n).map fun i => t.regs[k + i]?.getD ⟨0, false, .full⟩
      let r := if rs.any (·.av == .empty) then r.empty x.et else r
      let r := if rs.any (·.av == .inFlight) then { r with hold := true } else r
      (rs.map fun g => ⟨g.v, g.p⟩, r)
  | .port q =>
    let (es, always, busy) := portView r.s v.u l q
    let r := if busy then { r with hold := true } else r
    if es.length < x.n then (zeros, r.empty (x.et || always))
    else
      let r := if portAbsent r.s v.u q x.n then { r with hold := true } else r
      (es.take x.n, if x.ret then r else { r with s := portDrop r.s v.u l q x.n })
  | .bcast k => ((List.range x.n).map fun i => v.b.bcast[k + i]?.getD ⟨0, false⟩, r)
  | .special k =>
    if k = 486 then
      let c := r.s.cycleOf v.b.core
      ([⟨lo32 c, false⟩], { r with s := r.s.modThread v.u l fun t => { t with tlat := c } })
    else if k = 487 then
      ([⟨hi32 (((r.s.grp? v.u).bind (·.threads[l]?)).elim 0 (·.tlat)), false⟩], r)
    else ([⟨specialVal r.s v l k, false⟩], r)
  | _ => (zeros, r)

/-- Reads every source of a lane, in the order a, b, c; but %tlo before %thi (R10, R31). -/
def readSrcs (v : View) (l : Nat) (xs : List Src) (r : Rd) : List (List PWord) × Rd :=
  let r := if xs.any (·.f == 486#9) then { r with s := r.s.modThread v.u l fun t => { t with tlat := r.s.cycleOf v.b.core } } else r
  xs.foldl (fun acc x => let (w, r) := readSrc v l x acc.2; (acc.1 ++ [w], r)) ([], r)

/-- What one lane brings to an instruction. -/
structure LaneIn where
  lane : Nat
  src : List (List PWord)
  preds : BitVec 8
  mode : Word
  sticky : Word
  deriving DecidableEq, Repr
/-- Word `i` of source `k`. -/
def LaneIn.w (x : LaneIn) (k : Nat) (i : Nat := 0) : PWord := (x.src[k]?.bind (·[i]?)).getD ⟨0, false⟩
/-- The pair in source `k`. -/
def LaneIn.d (x : LaneIn) (k : Nat) : DWord := pairOf (x.w k 0).v (x.w k 1).v
/-- Some word of some source is poisoned. -/
def LaneIn.psn (x : LaneIn) : Bool := x.src.any fun ws => ws.any (·.p)

/-- What an instruction leaves in one lane. -/
structure LaneOut where
  dst : Option (List PWord) := none
  preds : List (PNum × Bool) := []
  flags : Flg := 0
  retire : Bool := false
  /-- MOVP.set's predicates, SWRITE's words. -/
  setPreds : Option (BitVec 7) := none
  setMode : Option Word := none
  setSticky : Option Word := none
  deriving DecidableEq, Repr

/-- Reads all lanes in rising order (R161). -/
def readLanes (v : View) (ls : List Nat) (xs : List Src) (r : Rd) : List LaneIn × Rd :=
  ls.foldl (fun acc l =>
    let (ws, r) := readSrcs v l xs acc.2
    match v.thread l with
    | some t => (acc.1 ++ [⟨l, ws, t.preds8, t.mode, t.sticky⟩], r)
    | none => (acc.1, r)) ([], r)

/-- A destination register is on its way (R23). -/
def dstBusy (s : State) (u : UnitRef) (l : Nat) (d : Dest) : Bool :=
  match opKind d.f with
  | .reg k => ((s.grp? u).bind (·.threads[l]?)).elim false fun t => (List.range d.n).any fun i => (t.regs[k + i]?.elim false (·.av != .full))
  | _ => false
/-- A push of `n` entries by some lanes to a ring holds: no room, an absent line, entries in SQ(g), or the order of the lanes' accesses (R32, R221, R269, R273, R275). -/
def pushBusy (s : State) (u : UnitRef) (q : Nat) (ls : List Nat) (n : Nat) : Bool :=
  match s.blk? u.blk with
  | none => true
  | some b =>
    match b.ring? q with
    | none => true
    | some r => decide (r.room < n) || ringBusy s u q ls ||
        !((List.range n).all fun i => b.present (r.place (r.tail + i)) 4)
/-- Pushes entries onto a ring; a poisoned entry keeps its poison (R29). -/
def pushRing (s : State) (blk q : Nat) (ws : List PWord) : State :=
  ws.foldl (fun s w =>
    match (s.blk? blk).bind (·.ring? q) with
    | none => s
    | some r =>
      let k := kShared blk (r.place r.tail)
      let s := s.wr k (leBytes 4 w.v.toNat)
      let s := if w.p then s.markWord k else s
      s.modBlk blk fun b => { b with rings := b.rings.map fun x => if x.1 = q then (q, { x.2 with tail := x.2.tail + 1 }) else x }) s

/-- Writes registers, full, with their poison. -/
def Thread.setRegs (t : Thread) (r : Nat) (ws : List PWord) : Thread :=
  { t with regs := ws.zipIdx.foldl (fun rs w => rs.set (r + w.2) ⟨w.1.v, w.1.p, .full⟩) t.regs }
/-- Writes a destination of a lane: registers, a port, or nothing for 511 (R8, R31). -/
def writeDst (s : State) (u : UnitRef) (l : Nat) (d : Dest) (ws : List PWord) : State :=
  match opKind d.f with
  | .reg k => s.modThread u l (·.setRegs k ws)
  | .port q => pushRing s u.blk q ws
  | _ => s

end Sys2Proof.Machine
end

