-- ==== Sys2Proof/Machine/Bench.lean ====
section
/-! DEFINITION. Fetching code, taking a unit's halting fault, and the bench: group frames written and read back (spec/02 R39-R41; spec/17 R415-R425, R403). -/

namespace Sys2Proof.Machine

/-! ## Code regions and fetch -/

/-- A byte the device reads through the context's table; 0 where it does not translate. -/
def State.codeByte (s : State) (ctx va : Nat) : Nat :=
  match s.devRead ctx va 1 [0, 1, 2, 3, 4, 5] with
  | some [b] => b.toNat
  | _ => 0
/-- The map bit of an address in one region (R39). -/
def State.mapBit (s : State) (ctx : Nat) (base : VAddr) (len : Nat) (map : VAddr) (pc : VAddr) : Bool :=
  let o := pc.toNat - base.toNat
  decide (base.toNat ≤ pc.toNat ∧ o < len) && (s.codeByte ctx (map.toNat + o / 64)).testBit (o / 8 % 8)
/-- A program counter may become a clause address of a kernel (R40). -/
def State.clauseAddr (s : State) (ctx : Nat) (kd : KDesc) (pc : VAddr) : Bool :=
  pc.toNat % 8 == 0 && (s.mapBit ctx kd.gbase kd.glen kd.gmap pc || s.mapBit ctx kd.fbase kd.flen kd.fmap pc)
/-- The same for the kernel of a block. -/
def State.clauseOk (s : State) (b : Block) (pc : VAddr) : Bool :=
  match s.grid? b.grid with
  | some g => s.clauseAddr b.ctx g.kd pc
  | none => false

/-- Fetches the 64-bit word at an address: none where the page is invalid, no-execute, or in neither tier 0 nor 1 (R41, R233). -/
def State.fetch (s : State) (core ctx : Nat) (pc : VAddr) : Option DWord :=
  match s.xlate core ctx pc with
  | none => none
  | some l =>
    if l.nx || !(l.tier == 0 || l.tier == 1) then none
    else some (BitVec.ofNat 64 (leNat (s.rd (s.leafKey l) 8)))

/-! ## Halting faults of a unit -/

/-- A unit's fault is taken: the record names the faulting instruction, the address, the lanes and the detail (R20, R417). -/
def State.takeFault (s : State) (u : UnitRef) (code : Nat) (faddr : DWord) (lane info : Nat) (pc : VAddr) (mask : Mask) : State :=
  match s.blk? u.blk with
  | none => s
  | some b =>
    match b.grp? u with
    | none => s
    | some g => s.raiseHalt b.ctx code (some u) (.unit u) (mkRec b u g code 3 (pc.setWidth 64) faddr mask (lane % 32 + 256 * info))

/-! ## The priority token (R167) -/

/-- The next live group after `g` in rising index, wrapping (R167). -/
def Block.nextLive (b : Block) (g : Nat) : Option Nat :=
  let n := b.groups.length
  ((List.range n).map fun i => (g + 1 + i) % n).find? fun i => match b.groups[i]? with
    | some x => !x.gone && (match x.stat with | .benched .. => false | _ => true)
    | none => false
/-- The token passes on when its holder has exited or is benched (R167). -/
def Block.tokenCheck (b : Block) : Block :=
  match b.token with
  | none => b
  | some t =>
    match b.groups[t]? with
    | some g => if g.gone || (match g.stat with | .benched .. => true | _ => false) then { b with token := b.nextLive t } else b
    | none => b

/-! ## The bench area (R403) -/

/-- Lowest 128-aligned offset where a frame of `n` bytes fits beside the frames in use. -/
def benchPlace (frames : List (Nat × Nat)) (size n : Nat) : Option Nat :=
  let ok (o : Nat) : Bool := decide (o + n ≤ size) && frames.all fun f => decide (o + n ≤ f.1 ∨ f.1 + f.2 ≤ o)
  ((0 :: frames.map fun f => alignUp (f.1 + f.2) 128).filter ok).foldl (fun m o => some (m.elim o (min o))) none
/-- Takes a place of the bench area: the frame's virtual address. -/
def State.benchAlloc (s : State) (ctx n : Nat) : Option (Nat × State) :=
  let c := s.ctxD ctx
  (benchPlace c.frames c.rcd.benchsz.toNat n).map fun o =>
    (c.rcd.bencha.toNat % 2 ^ 56 + o, s.modCtx ctx fun c => { c with frames := c.frames ++ [(o, n)] })
/-- Frees a frame. -/
def State.benchFree (s : State) (ctx va : Nat) : State :=
  s.modCtx ctx fun c => { c with frames := c.frames.filter fun f => c.rcd.bencha.toNat % 2 ^ 56 + f.1 != va }

/-! ## Frames (R423, R424) -/

def TStat.code : TStat → Nat
  | .run => 0 | .meet => 1 | .uniform => 2 | .exited => 3 | .dead => 4 | .retired => 5
def TStat.ofCode : Nat → TStat
  | 1 => .meet | 2 => .uniform | 3 => .exited | 4 => .dead | 5 => .retired | _ => .run
def zerosB (n : Nat) : List Byte := List.replicate n 0#8
def padTo (n : Nat) (l : List Byte) : List Byte := (l ++ zerosB n).take n

/-- A thread record (R424). -/
def Thread.record (t : Thread) : List Byte :=
  leBytes 8 t.pc.toNat ++ leBytes 8 t.mr.toNat ++ padTo 64 (t.mstk.reverse.flatMap fun a => leBytes 8 a.toNat) ++
  leBytes 1 t.mstk.length ++ leBytes 1 t.stat.code ++ leBytes 1 t.preds.toNat ++ leBytes 1 t.q16.length ++
  leBytes 4 t.mode.toNat ++ leBytes 4 t.sticky.toNat ++ leBytes 1 t.pend.toNat ++ zerosB 3 ++ leBytes 8 t.tlat.toNat ++ zerosB 8 ++
  padTo 16 (t.q16.flatMap fun w => leBytes 4 w.v.toNat)
/-- A little-endian field of a byte list. -/
def fieldAt (bs : List Byte) (o n : Nat) : Nat := leNat ((bs.drop o).take n)
/-- A thread as its record holds it, with its registers. -/
def Thread.ofRecord (bs : List Byte) (regs : List Reg) : Thread :=
  let depth := fieldAt bs 0x50 1
  { regs := regs, preds := BitVec.ofNat 7 (fieldAt bs 0x52 1), pc := BitVec.ofNat 56 (fieldAt bs 0 8), cl := none,
    mr := BitVec.ofNat 56 (fieldAt bs 8 8),
    mstk := ((List.range (min depth 8)).map fun i => BitVec.ofNat 56 (fieldAt bs (0x10 + 8 * i) 8)).reverse,
    mode := BitVec.ofNat 32 (fieldAt bs 0x54 4), sticky := BitVec.ofNat 32 (fieldAt bs 0x58 4), pend := BitVec.ofNat 7 (fieldAt bs 0x5C 1),
    tlat := BitVec.ofNat 64 (fieldAt bs 0x60 8), stat := .ofCode (fieldAt bs 0x51 1),
    q16 := (List.range (min (fieldAt bs 0x53 1) 4)).map fun i => ⟨BitVec.ofNat 32 (fieldAt bs (0x70 + 4 * i) 4), false⟩,
    unp := [], relf := [], acqw := [], sow := [], arw := [], lastIssue := 0 }

def roleCode : Role → Nat
  | .computer => 0 | .storer => 1 | .loader => 2 | .inherit => 3
/-- Bytes of a group frame (R403). -/
def grpFrameSize (n : Nat) : Nat := alignUp (0x1080 + 132 * n) 128
/-- What the frame says the group waits for: a barrier + 1, or a cluster barrier + 17 (log 31). -/
def UStat.waitCode : UStat → Nat
  | .bar i => i + 1
  | .cbar i => i + 17
  | .leaving k _ => k
  | _ => 0

/-- Lanes of the split at which a frame resumes (R423). -/
def Grp.splitMask (g : Grp) : Mask :=
  if g.runs = 0 then maskOf ((g.threads.zipIdx.filter fun x => x.1.stat == .run && x.1.pc == g.pcOf).map (·.2)) else g.runs
/-- The unit's instruction is to execute again: it met a page fault that is unanswered, or answered and not yet executed (R417, R419, R427). -/
def Grp.toRedo (g : Grp) : Bool :=
  g.pendRe &&& g.splitMask != 0 || (match g.stat with | .held 1 | .benched 1 _ | .leaving _ (.page ..) => true | _ => false)
/-- The flags of a group's frame (R423). -/
def Block.grpFlags (b : Block) (g : Grp) (gi : Nat) : Nat :=
  let cont := ((g.threads.filter fun t => t.stat == .run && t.pc == g.pcOf).head?.bind (·.cl)).isSome
  (if g.toRedo then 1 else 0) ||| (if cont then 2 else 0) ||| (if b.token = some gi then 4 else 0) |||
    (if g.promoted.isSome then 8 else 0) ||| (if g.skipBp &&& g.splitMask = 0 then 0 else 16)
/-- A group frame (R423). -/
def Grp.frame (g : Grp) (b : Block) (gi cause flags : Nat) (blkFrame : Nat) (spill : List Byte) : List Byte :=
  let split := g.splitMask
  let role := ((lanesOf split).head?.bind fun l => (g.threads[l]?).bind (·.cl)).elim g.lastRole (·.role)
  let reg (k : Nat) (t : Thread) : Reg := t.regs[k]?.getD ⟨0, false, .full⟩
  leBytes 4 0x52464247 ++ leBytes 1 cause ++ leBytes 1 flags ++ leBytes 2 b.nregs ++ leBytes 8 g.pcOf.toNat ++ leBytes 8 g.faddr.toNat ++
  leBytes 4 (roleCode role + 4 * g.stat.waitCode) ++ leBytes 4 split.toNat ++ zerosB 32 ++
  leBytes 4 b.idx ++ leBytes 4 gi ++ leBytes 8 blkFrame ++ zerosB 48 ++
  padTo 4096 (g.threads.flatMap Thread.record) ++
  ((List.range b.nregs).flatMap fun k => padTo 128 (g.threads.flatMap fun t => leBytes 4 (reg k t).v.toNat)) ++
  ((List.range b.nregs).flatMap fun k => leBytes 4 (maskOf ((g.threads.zipIdx.filter fun x => (reg k x.1).p).map (·.2))).toNat) ++
  (if spill = [] then [] else zerosB (grpFrameSize b.nregs - (0x1080 + 132 * b.nregs)) ++ spill)

/-- The clause that a word address lies in, found by the map (log 32). -/
def State.clauseOf (s : State) (b : Block) (pc : VAddr) (role : Role) : Nat → Option ClauseCtx
  | 0 => none
  | k + 1 =>
    let h := pc - BitVec.ofNat 56 (8 * (17 - (k + 1)))
    if s.clauseOk b h then
      (s.fetch b.core b.ctx h).bind fun w =>
        let hd := headerOf w
        hd.cls.map fun c => ⟨h, c, hd.count, role, hd.yield⟩
    else s.clauseOf b pc role k

/-- The barrier that a group has reached in a use that is not over (R189, R190). -/
def State.reached (s : State) (b : Block) (gi : Nat) : UStat :=
  match b.bars.find? fun x => x.2.arrived.contains gi, s.cbars.find? fun c => c.grid == b.grid && c.cluster == b.cluster && c.arrived.any (fun a => a.1 == b.uid && a.2.1 == gi) with
  | some x, _ => .bar x.1
  | none, some c => .cbar c.id
  | none, none => .ready
/-- A group as its frame holds it (R425): its running split resumes at RESUME; it waits at a barrier only while the use it arrived in goes on, and its hold there counts anew (R421). `g` is what the core keeps of it. -/
def State.unframe (s : State) (b : Block) (g : Grp) (gi : Nat) (bs : List Byte) : Grp :=
  let n := fieldAt bs 6 2
  let flags := fieldAt bs 5 1
  let rolew := fieldAt bs 0x18 4
  let role := roleOf (BitVec.ofNat 2 rolew)
  let split := BitVec.ofNat 32 (fieldAt bs 0x1C 4)
  let psn (k l : Nat) : Bool := (fieldAt bs (0x1080 + 128 * n + 4 * k) 4).testBit l
  let regs (l : Nat) : List Reg := (List.range n).map fun k => ⟨BitVec.ofNat 32 (fieldAt bs (0x1080 + 128 * k + 4 * l) 4), psn k l, .full⟩
  let cl (t : Thread) (l : Nat) : Option ClauseCtx :=
    if t.stat != .run && t.stat != .uniform then none
    else if inMask split l then (if flags.testBit 1 then s.clauseOf b t.pc role 16 else none)
    else if s.clauseOk b t.pc then none else s.clauseOf b t.pc .computer 16
  let thr (l : Nat) : Thread :=
    let t := Thread.ofRecord ((bs.drop (0x80 + 128 * l)).take 128) (regs l)
    let t := if inMask split l && t.stat == .run then { t with pc := BitVec.ofNat 56 (fieldAt bs 8 8) } else t
    { t with cl := cl t l }
  let st := s.reached b gi
  { g with
    threads := (List.range 32).map thr
    stat := st
    runs := 0, lastRole := .computer, yielded := false, hold := 0, fair := 0, fairExp := false, age := 0
    waits := if st = .ready then [] else [⟨maskOf ((List.range 32).filter fun l => (thr l).live), (s.cycleOf b.core).toNat, false, none⟩]
    promoted := if flags.testBit 3 then some (g.promoted.getD 0) else none
    skipBp := (g.skipBp &&& ~~~split) ||| (if flags.testBit 4 then split else 0)
    pendRe := if flags.testBit 0 then split else 0, faddr := BitVec.ofNat 64 (fieldAt bs 0x10 8) }

/-- The unit's state may leave the core: no fill is outstanding and its store queue is empty (R422). -/
def State.drained (s : State) (u : UnitRef) (g : Grp) : Bool :=
  g.sq == [] && g.threads.all (fun t => t.unp == []) && !(s.fills.any fun f => f.u == u)

/-- Benches a group: its frame is written and its slot is free (R422, R423). None where the bench area has no place (R403). -/
def State.benchGrp (s : State) (u : UnitRef) (cause : Nat) : Option (Nat × State) :=
  (s.blk? u.blk).bind fun b => (b.grp? u).bind fun g =>
    let spill := if cause = 0 ∨ cause = 3 then s.rd (kSpill b.uid u.grpNo 0) b.spill else []
    let size := grpFrameSize b.nregs + spill.length
    (s.benchAlloc b.ctx size).map fun r =>
      let late := g.runs = 0 ∧ s.halting b.ctx
      let s := r.2.devWrite b.ctx r.1 (g.frame b u.grpNo cause (b.grpFlags g u.grpNo) 0 spill)
      let s := (s.endRun u).bump b.ctx 7 1
      let s := if late then s.noteStop b.ctx u else s
      let s := s.modGrp u fun g => { g with stat := .benched cause (BitVec.ofNat 56 r.1), waits := [] }
      (r.1, s.modBlk b.uid (·.tokenCheck))

/-- One cycle in which the running split's next instruction has not issued (R162, R421). -/
def State.holdStep (s : State) (u : UnitRef) (gw : Option Nat) : State :=
  match s.grp? u with
  | none => s
  | some g => (s.modGrp u fun g => { g with hold := g.hold + 1 }).noteWait u g.runs gw
/-- A unit stands where it is: its clause is over, and the hold counts (R237, R403, R421). -/
def State.stand (s : State) (u : UnitRef) (cause : Nat) : State :=
  match s.grp? u with
  | none => s
  | some g => ((s.noteWait u (if g.runs = 0 then maskOf g.live else g.runs) none).endRun u).modGrp u fun g => { g with stat := .held cause }

/-- A stop record of its own sequence: record 0 of the context's stop area, where it has one (R402, log 33). -/
def State.stopRecord0 (s : State) (ctx : Nat) (r : FRec) : State :=
  let c := (s.ctxD ctx).rcd
  if c.stopn = 0 then s else s.devWrite ctx (c.stopa.toNat % 2 ^ 56) (r.bytes false)
/-- The bench of a recoverable page fault (R237, R403): the group is benched with its record, or holds its slot where the bench area is full; a front-end thread holds. -/
def State.leavePage (s : State) (u : UnitRef) (b : Block) (g : Grp) (va : VAddr) (lane : Nat) : State :=
  let rcd (frame : Nat) : FRec :=
    { mkRec b u g fcPage 7 (g.pcOf.setWidth 64) (va.setWidth 64) g.runs (lane % 32) with frame := BitVec.ofNat 64 frame }
  let s' := s.modGrp u fun g => { g with faddr := va.setWidth 64 }
  match if u.isFront then none else s'.benchGrp u 1 with
  | some (va', s') => s'.post b.ctx (rcd va') (.grp b.uid u.grpNo)
  | none => (s'.stand u 1).post b.ctx (rcd 0) (if u.isFront then .front b.uid else .grp b.uid u.grpNo)
/-- The bench of a debug stop (R423, R436-R438): the group is benched with cause 4, or holds where the bench area has no place; a front-end thread stands. -/
def State.leaveStop (s : State) (u : UnitRef) (b : Block) (g : Grp) (code : Nat) (mask : Mask) (info : Nat) (pc : VAddr) (skip : Bool) : State :=
  let rcd (frame : Nat) : FRec :=
    { mkRec b u g code 2 (pc.setWidth 64) 0 mask ((lanesOf mask).headD 0 + 256 * info) with frame := BitVec.ofNat 64 frame }
  let s := s.modGrp u fun g => { g with skipBp := if skip then g.skipBp ||| mask else g.skipBp, dbgHalt := false }
  match if u.isFront then none else s.benchGrp u 4 with
  | some (va, s') => s'.stopRecord0 b.ctx (rcd va)
  | none => (s.stand u 4).stopRecord0 b.ctx (rcd 0)
/-- A unit that leaves goes to the bench once its fills have landed and its store queue is empty (R422); a front-end thread at once. -/
def State.leaveNow (s : State) (u : UnitRef) : State :=
  match s.blk? u.blk with
  | none => s
  | some b =>
    match b.grp? u with
    | none => s
    | some g =>
      match g.stat with
      | .leaving _ w =>
        if !(u.isFront || s.drained u g) then s else
        match w with
        | .page va lane => s.leavePage u b g va lane
        | .stop code mask info pc skip => s.leaveStop u b g code mask info pc skip
      | _ => s
/-- A unit's clause is over and it is on its way to the bench: its scheduler is free, no split of it runs, and its splits stand where they are (R422, R437). -/
def State.leave (s : State) (u : UnitRef) (w : Leave) : State :=
  match s.blk? u.blk with
  | none => s
  | some b =>
    ((s.modCore b.core fun c => { c with cur := c.cur.map fun o => if o = some u then none else o }).modGrp u fun g =>
      { g with stat := .leaving g.stat.waitCode w, hold := 0 }).leaveNow u
/-- A recoverable page fault of a unit (R237, R403). A full fault queue holds the unit (R418). -/
def State.pageFault (s : State) (u : UnitRef) (va : VAddr) (lane : Nat) : State :=
  match s.blk? u.blk with
  | none => s
  | some b => if (s.ctxD b.ctx).fqRoom then s.leave u (.page va lane) else s.holdStep u none

end Sys2Proof.Machine
end

