-- ==== Sys2Proof/Machine/Clause.lean ====
section
/-! DEFINITION. How a clause goes on: holds, clause breaks, advancing, transfers, parking, exits, and the one executor of register instructions (spec/01 R16-R23, R34; spec/02 R40, R62; spec/06 R156-R166). -/

namespace Sys2Proof.Machine

/-! ## Exits -/

/-- Groups of the block that are wholly gone (R189). -/
def Block.goneCount (b : Block) : Nat := (b.groups.filter (·.gone)).length
/-- A barrier whose arrivals plus gone groups reach its n completes: its groups are ready and it returns to no arrivals (R189). A group that arrived and is benched since counts; it is past the barrier when it comes back. -/
def Block.barCheck (b : Block) (id : Nat) : Block :=
  match (b.bars.find? fun x => x.1 == id).map (·.2) with
  | none => b
  | some r =>
    if r.n ≤ r.arrived.length + b.goneCount then
      { b with
        bars := b.bars.filter fun x => x.1 != id
        groups := b.groups.map fun g => if g.stat = .bar id then { g with stat := .ready, waits := [] } else g }
    else b
/-- Every barrier in use is tested again. -/
def Block.barsCheck (b : Block) : Block := (List.range 16).foldl (·.barCheck ·) b

/-- The blocks of a cluster of a grid. -/
def State.clusterBlocks (s : State) (grid cluster : Nat) : List Block := s.blocks.filter fun b => b.grid == grid && b.cluster == cluster
/-- Blocks of the cluster as launched: BPC for each stage (R149, R150). -/
def Grid.clusterSize (g : Grid) : Nat := if g.kind = .index then g.bpc * g.kd.stages else 1
/-- Stages of a cluster that have been admitted (R173). -/
def Grid.stagesIn (g : Grid) (cluster : Nat) : Nat :=
  if cluster < g.nextClu then g.kd.stages else if cluster = g.nextClu then g.nextStage else 0
/-- Blocks of the cluster that have ended: admitted, and no longer there (R190). -/
def State.clusterEnded (s : State) (g : Grid) (cluster : Nat) : Nat :=
  if g.kind = .index then g.bpc * g.stagesIn cluster - (s.clusterBlocks g.id cluster).length else 0
/-- Every group of the block that is not wholly exited has executed the cluster barrier in this use (R190). -/
def CBar.ready (c : CBar) (b : Block) : Bool :=
  let here (i : Nat) : Bool := c.arrived.any fun a => a.1 == b.uid && a.2.1 == i
  (List.range b.groups.length).any here && b.groups.zipIdx.all fun x => x.1.gone || here x.2
/-- A cluster barrier that has its arrivals releases the blocks that have arrived (R190); a benched group that executed its CBAR counts, and is past it when it comes back. Groups of a block that has not arrived are in the next use. -/
def State.cbarCheck (s : State) (grid cluster id : Nat) : State :=
  match s.cbars.find? fun c => c.grid == grid && c.cluster == cluster && c.id == id with
  | none => s
  | some c =>
    let free := ((s.clusterBlocks grid cluster).filter c.ready).map (·.uid)
    let ended := (s.grid? grid).elim 0 (s.clusterEnded · cluster)
    if c.n ≤ free.length + ended then
      let left := c.arrived.filter fun a => !free.contains a.1
      let others := s.cbars.filter fun x => !(x.grid == grid && x.cluster == cluster && x.id == id)
      { s with
        cbars := if left = [] then others else others ++ [{ c with n := (left.head?.map (·.2.2)).getD c.n, arrived := left }]
        blocks := s.blocks.map fun b =>
          if free.contains b.uid then
            { b with groups := b.groups.map fun g => if g.stat = .cbar id then { g with stat := .ready, waits := [] } else g }
          else b }
    else s
def State.cbarsCheck (s : State) (grid cluster : Nat) : State := (List.range 4).foldl (fun s i => s.cbarCheck grid cluster i) s

/-- What an exit or a retirement in a block brings about: barriers count the exited groups and the token moves (R121, R159, R167, R189). -/
def State.afterExit (s : State) (blk : Nat) : State :=
  let s := s.modBlk blk fun b => b.barsCheck.tokenCheck
  match s.blk? blk with
  | some b => s.cbarsCheck b.grid b.cluster
  | none => s

/-- Retires a thread: it stops as exited, with no arithmetic report, and is counted (R27). -/
def State.retire (s : State) (u : UnitRef) (l : Nat) : State :=
  match s.blk? u.blk with
  | none => s
  | some b => ((s.modThread u l fun t => { t with stat := .retired, cl := none }).bump b.ctx 1 1)

/-! ## Parking and divergence -/

/-- A meeting at `a` may be released: every live thread whose MR is `a` has arrived (R159). -/
def Grp.meetReady (g : Grp) (a : VAddr) : Bool :=
  (g.threads.any fun t => t.stat == .meet && t.pc == a) &&
    g.threads.all fun t => !(t.live && t.mr == a) || (t.stat == .meet && t.pc == a)
/-- A released thread pops its meeting stack into MR; MR is NONE at depth 0 (R120). -/
def Thread.release (t : Thread) : Thread :=
  match t.mstk with
  | [] => { t with mr := mrNone, stat := .run }
  | a :: r => { t with mr := a, mstk := r, stat := .run }
/-- Every meeting that may be released is (R159). -/
def Grp.meetings (g : Grp) : Grp := { g with threads := g.threads.map fun t => if t.stat == .meet && g.meetReady t.pc then t.release else t }
/-- Where a thread stands: its next word, and the header of the clause it is inside (R156). DESIGN CHOICE, log 83: threads at one word inside two overlapping clauses are two splits. -/
def Thread.place (t : Thread) : VAddr × Option VAddr := (t.pc, t.cl.map (·.hdr))
/-- Every live thread is parked at one group-uniform instruction (R160). -/
def Grp.uniformReady (g : Grp) : Bool :=
  match g.threads.filter (·.live) with
  | [] => false
  | t :: r => t.stat == .uniform && r.all fun x => x.stat == .uniform && x.place == t.place
/-- Every live thread is parked and nothing can be released (R163). -/
def Grp.diverged (g : Grp) : Bool :=
  let lv := g.threads.filter (·.live)
  lv != [] && lv.all (fun t => t.stat != .run) && !g.uniformReady && !(lv.any fun t => t.stat == .meet && g.meetReady t.pc)
/-- Raises the divergence fault where it is due (R163). DESIGN CHOICE, log 82: its record has the lowest program counter of the live threads, all live lanes as MASK, and lane 0. -/
def State.divergeCheck (s : State) (u : UnitRef) : State :=
  match s.grp? u with
  | some g =>
    if !u.isFront && g.diverged then
      let pc := (g.threads.filter (·.live)).foldl (fun m t => if t.pc.toNat < m.toNat then t.pc else m) mrNone
      s.takeFault u fcDiverge 0 0 0 pc (maskOf g.live)
    else s
  | none => s

/-! ## The end of a split's clause -/

/-- Puts a thread at a clause address; it parks where that is its meeting address (R34, R120). -/
def Thread.goTo (t : Thread) (pc : VAddr) : Thread :=
  if t.mr = pc then { t with pc := pc, cl := none, stat := .meet } else { t with pc := pc, cl := none }

/-- The split has no thread left in its clause: the scheduler is free, the role and YIELD are remembered (R36, R166), parked groups are tested. -/
def State.leaveClause (s : State) (u : UnitRef) (role : Role) (yielded : Bool) : State :=
  let s := s.endRun u
  let s := s.modGrp u fun g => { g with lastRole := role, yielded := yielded }
  s.divergeCheck u

/-- Threads `ls` of the unit become the running split. -/
def Grp.setRuns (g : Grp) (m : Mask) : Grp := { g with runs := m }

/-- Counting a successful issue (R157, R158, R162): the split's hold ends, the fairness timer runs while another split exists. -/
def Grp.issued (g : Grp) (cyc : Nat) : Grp :=
  let other := (g.threads.zipIdx.any fun x => x.1.stat == .run && !inMask g.runs x.2)
  { g with
    hold := 0, waits := (g.dropWait g.runs).waits, skipBp := g.skipBp &&& ~~~g.runs, pendRe := g.pendRe &&& ~~~g.runs
    fair := if other then g.fair + 1 else 0
    threads := g.threads.zipIdx.map fun x => if inMask g.runs x.2 then { x.1 with lastIssue := cyc } else x.1 }

/-- The issued instruction is over for the threads that stay in the clause: they go to the next word, or leave the clause at its end (R16, R40, R41). `v` is the unit as it stood before the instruction; `yl` says that a YIELD ended the clause. -/
def State.advance (s : State) (v : View) (yl : Bool := false) : State :=
  match s.blk? v.u.blk with
  | none => s
  | some b =>
    match b.grp? v.u with
    | none => s
    | some g0 =>
      let g := g0.issued (s.cycleOf b.core).toNat
      let c0 := v.g.clauseNow
      let stay := (lanesOf g.runs).filter fun l => match g.threads[l]? with | some t => t.stat == .run && t.cl.isSome | none => false
      match stay.head?.bind (g.threads[·]?) with
      | none =>
        (s.modGrp v.u fun _ => g).leaveClause v.u ((c0.map (·.role)).getD g.lastRole) (yl || (c0.map (·.yield)).getD false)
      | some t =>
        match t.cl with
        | none => s
        | some c =>
          let next := t.pc + 8#56
          if next.toNat = (c.hdr.toNat + 8 * (c.count + 1)) % 2 ^ 56 then
            -- the clause ends for every thread that stays: a fall-through (R40)
            if s.clauseOk b next then
              let g := stay.foldl (fun g l => g.modThread l (·.goTo next)) g
              (s.modGrp v.u fun _ => g).leaveClause v.u c.role (yl || c.yield)
            else
              let s := s.modGrp v.u fun _ => { g with runs := maskOf stay }
              s.takeFault v.u fcTarget (next.setWidth 64) (stay.headD 0) 0 t.pc (maskOf stay)
          else
            let g := stay.foldl (fun g l => g.modThread l fun t => { t with pc := next, cl := t.cl.map fun c => { c with yield := c.yield || yl } }) g
            s.modGrp v.u fun _ => { g with runs := maskOf stay }

/-- Breaks the clause of a held split: the remaining words form a continuation, its role is that of the group's last clause, and the core counts it (R36, R162). DESIGN CHOICE, log 78: the header's YIELD waits for the end of the continuation. -/
def State.breakClause (s : State) (u : UnitRef) : State :=
  match s.blk? u.blk with
  | none => s
  | some b =>
    match b.grp? u with
    | none => s
    | some _ =>
      let s := (s.noteStop b.ctx u).modCore b.core fun c =>
        { c with cur := c.cur.map fun o => if o = some u then none else o
                 breaks := c.breaks + 1 }
      s.modGrp u fun g => { g with runs := 0, hold := 0, lastRole := (g.clauseNow.map (·.role)).getD g.lastRole }

/-! ## A unit's instruction as a whole -/

/-- The lanes and address of the instruction a unit stands at. -/
def View.pc (v : View) : VAddr := v.g.pcOf

/-- The unit's instruction has issued and waits in the order of an engine context: it is noted once, and its slot is busy (R37, R347). -/
def Block.enqueueWait (b : Block) (u : UnitRef) (attn : Bool) (slot : Option Nat) : Block :=
  let ws := if attn then b.attn.waits else b.matrix.waits
  if ws.any (·.u == u) then b else
  let w (tl : Tl) : EngWait := ⟨u, tl.given, slot, b.attn.pass⟩
  let b := { b with slots := match slot with | some k => b.slots ||| (1#16 <<< k) | none => b.slots }
  if attn then { b with attn := { b.attn with waits := b.attn.waits ++ [w b.attn.tl] } }
  else { b with matrix := { b.matrix with waits := b.matrix.waits ++ [w b.matrix.tl] } }
/-- What a stop does to the unit (R20, R22, R237). -/
def State.stopUnit (s : State) (v : View) (st : Stop) : State :=
  match st with
  | .hold => s.holdStep v.u none
  | .gwait t => s.holdStep v.u (some t)
  | .queued attn slot => (s.modBlk v.u.blk (·.enqueueWait v.u attn slot)).holdStep v.u none
  | .idle => s
  | .fault code fa lane info => s.takeFault v.u code fa lane info v.pc v.g.runs
  | .page va lane => s.pageFault v.u va lane

/-- Executes an instruction of the current unit; without one nothing happens. -/
def runUnit (a : View → Act Unit) (s : State) : Host.Outcome State Fault Refusal :=
  match s.view? with
  | none => .next s
  | some v =>
    match a v s with
    | .ok (_, t) => .next t
    | .error st => .next (s.stopUnit v st)

/-! ## The executor of register instructions -/

/-- The operand fields an instruction uses. -/
structure Uses where
  src : List Src := []
  dst : Option Dest := none
  deriving DecidableEq, Repr

/-- Every used field is legal for the thread (R62 step 5). -/
def View.legal (v : View) (x : Uses) : Bool :=
  x.src.all (v.b.srcOk v.front) && (x.dst.elim true (v.b.dstOk v.front))

/-- What a lane's result leaves in its thread besides registers: predicates, mode, sticky and pending bits (R14, R53). -/
def Thread.leave (o : LaneOut) (t : Thread) : Thread :=
  let t := o.preds.foldl (fun t p => t.setPred p.1 p.2) t
  let t := match o.setPreds with | some p => { t with preds := p } | none => t
  let t := match o.setMode with | some m => { t with mode := m } | none => t
  let t := match o.setSticky with | some m => { t with sticky := m } | none => t
  t.setFlags o.flags
/-- Leaves one lane's results (R14, R26, R27, R53). A retired lane takes none. DESIGN CHOICE, log 79: it does not have PSN set either. -/
def commitLane (u : UnitRef) (dst : Option Dest) (s : State) (l : Nat) (o : LaneOut) : State :=
  if o.retire then s.retire u l else
  let s := match dst, o.dst with
    | some d, some ws => writeDst s u l d ws
    | _, _ => s
  s.modThread u l (·.leave o)

/-- Leaves every lane's results in rising lane order, retires and goes on. -/
def commitAll (v : View) (dst : Option Dest) (outs : List (Nat × LaneOut)) (s : State) : State :=
  let s := outs.foldl (fun s o => commitLane v.u dst s o.1 o.2) s
  let s := if outs.any (·.2.retire) then s.afterExit v.u.blk else s
  s.advance v

/-- Entries a split's results push on a port. DESIGN CHOICE, log 52: a 128-bit result pushes four. -/
def pushCount (d : Dest) (outs : List (Nat × LaneOut)) : Nat :=
  match opKind d.f with
  | .port _ => (outs.map fun o => if o.2.retire then 0 else (o.2.dst.elim 0 List.length)).sum
  | _ => 0
/-- Lanes whose results push. -/
def pushLanes (outs : List (Nat × LaneOut)) : List Nat := (outs.filter fun o => !o.2.retire && o.2.dst.isSome).map (·.1)

/-- The results have room at their port, where they go to one (R32). -/
def portFree (s : State) (u : UnitRef) (dst : Option Dest) (outs : List (Nat × LaneOut)) : Bool :=
  match dst with
  | some d => match opKind d.f with
    | .port q => pushCount d outs = 0 || !(pushBusy s u q (pushLanes outs) (pushCount d outs))
    | _ => true
  | none => true

/-- Reading done: the lanes' inputs and the state after the pops, or the stop (R22, R23, R32). -/
def readAll (v : View) (ls : List Nat) (x : Uses) (s : State) : Except Stop (List LaneIn × State) :=
  let (ins, r) := readLanes v ls x.src { s := s }
  if r.trap then .error (.fault fcEmpty 0 (ls.headD 0) 0)
  else if r.hold || x.dst.elim false (fun d => ls.any fun l => dstBusy s v.u l d) then .error .hold
  else .ok (ins, r.s)

/-- Runs an instruction of registers, predicates and ports over the active lanes: legality, guard, holds, one read of all sources, the function from all lanes' inputs to their results, and the results. DESIGN CHOICE, log 53: an instruction that pops and pushes one ring finds the room that its own pops make. -/
def runSplit (g : Guard) (x : Uses) (f : List LaneIn → List (Nat × LaneOut)) (v : View) : Act Unit := do
  needA (v.legal x) (.fault fcIllOpnd 0 0 0)
  let ls := v.active g
  if ls = [] then modA (·.advance v) else
  let s ← get
  match readAll v ls x s with
  | .error e => throw e
  | .ok (ins, s') =>
    let outs := f ins
    needA (portFree s' v.u x.dst outs) .hold
    set (commitAll v x.dst outs s')

/-- Each active lane by itself (R161). -/
def perLane (f : LaneIn → LaneOut) (ins : List LaneIn) : List (Nat × LaneOut) := ins.map fun i => (i.lane, f i)

/-- R26: a poisoned source word poisons every destination word, and PSN is set. -/
def poisoned (n : Nat) : LaneOut := { dst := some (List.replicate n ⟨0, true⟩), flags := fPSN }
/-- A result of `n` words under R26. -/
def cleanOut (x : LaneIn) (n : Nat) (r : List Word × Flg) : LaneOut :=
  if x.psn then poisoned n else { dst := some (r.1.map fun w => ⟨w, false⟩), flags := r.2 }

end Sys2Proof.Machine
end

