-- ==== Sys2Proof/Machine/Alu.lean ====
section
/-! DEFINITION. Integer arithmetic, comparison, selection, moves, logic, shifts and bit fields (spec/04 R91-R106, R123). -/

namespace Sys2Proof.Machine

/-- Source a, b or c of a format A word, `n` words wide (R43, R53). -/
def srcA (w : WA) (n : Nat := 1) : Src := ⟨w.a, n, w.et.getLsbD 2, w.ret == 1#2⟩
def srcB (w : WA) (n : Nat := 1) : Src := ⟨w.b, n, w.et.getLsbD 1, w.ret == 2#2⟩
def srcC (w : WA) (n : Nat := 1) : Src := ⟨w.c, n, w.et.getLsbD 0, w.ret == 3#2⟩

/-- A computation of `nd` words from sources a, b, c of the widths given (0: unused), under the poison rule of R26. -/
def alu (w : WA) (nd na nb nc : Nat) (f : LaneIn → List Word × Flg) : View → Act Unit :=
  runSplit w.g
    { src := [srcA w na, srcB w nb, srcC w nc].filter (·.n != 0), dst := some ⟨w.d, nd⟩ }
    (perLane fun x => cleanOut x nd (f x))
/-- One word from one, two or three words. -/
def alu1 (w : WA) (f : Word → Word) : View → Act Unit := alu w 1 1 0 0 fun x => ([f (x.w 0).v], 0)
def alu2 (w : WA) (f : Word → Word → Word) : View → Act Unit := alu w 1 1 1 0 fun x => ([f (x.w 0).v (x.w 1).v], 0)
def alu3 (w : WA) (f : Word → Word → Word → Word) : View → Act Unit :=
  alu w 1 1 1 1 fun x => ([f (x.w 0).v (x.w 1).v (x.w 2).v], 0)
/-- An immediate form (R93). -/
def aluI (w : WI) (f : Word → Word → Word) : View → Act Unit :=
  runSplit w.g { src := [⟨w.a, 1, w.eta, false⟩], dst := some ⟨w.d, 1⟩ } (perLane fun x => cleanOut x 1 ([f (x.w 0).v w.imm], 0))

/-- ext of R88. -/
def extI (sgn : Bool) (x : Word) : Int := if sgn then x.toInt else (x.toNat : Int)
/-- The words of a 64-bit result. -/
def words2 (x : DWord) : List Word := [lo32 x, hi32 x]

def execIadd (w : WA) (s : State) : Host.Outcome State Fault Refusal := runUnit (alu2 w fun a b => a + b) s
def execIsub (w : WA) (s : State) : Host.Outcome State Fault Refusal := runUnit (alu2 w fun a b => a - b) s
def execImul (w : WA) (s : State) : Host.Outcome State Fault Refusal := runUnit (alu2 w fun a b => a * b) s
def execImulh (w : WA) (sgn : Bool) (s : State) : Host.Outcome State Fault Refusal :=
  runUnit (alu2 w fun a b => hi32 (BitVec.ofInt 64 (extI sgn a * extI sgn b))) s
def execImad (w : WA) (s : State) : Host.Outcome State Fault Refusal := runUnit (alu3 w fun a b c => a * b + c) s
def execImadw (w : WA) (sgn : Bool) (s : State) : Host.Outcome State Fault Refusal :=
  runUnit (alu w 2 1 1 2 fun x => (words2 (BitVec.ofInt 64 (extI sgn (x.w 0).v * extI sgn (x.w 1).v) + x.d 2), 0)) s

/-- Quotient and remainder of R92, with IDZ. -/
def divRem (sgn : Bool) (a b : Word) : Word × Word × Flg :=
  if b = 0 then (0xFFFFFFFF, a, fIDZ)
  else if sgn ∧ a = 0x80000000 ∧ b = 0xFFFFFFFF then (0x80000000, 0, 0)
  else
    let q := (extI sgn a).tdiv (extI sgn b)
    (BitVec.ofInt 32 q, BitVec.ofInt 32 (extI sgn a - q * extI sgn b), 0)
def execIdiv (w : WA) (sgn : Bool) (s : State) : Host.Outcome State Fault Refusal :=
  runUnit (alu w 1 1 1 0 fun x => let r := divRem sgn (x.w 0).v (x.w 1).v; ([r.1], r.2.2)) s
def execIrem (w : WA) (sgn : Bool) (s : State) : Host.Outcome State Fault Refusal :=
  runUnit (alu w 1 1 1 0 fun x => let r := divRem sgn (x.w 0).v (x.w 1).v; ([r.2.1], r.2.2)) s
def execIabs (w : WA) (s : State) : Host.Outcome State Fault Refusal := runUnit (alu1 w fun a => if a.toInt < 0 then -a else a) s
def execIneg (w : WA) (s : State) : Host.Outcome State Fault Refusal := runUnit (alu1 w fun a => -a) s
/-- The smaller and the larger as the sign bit says (R91). -/
def minW (sgn : Bool) (a b : Word) : Word := if extI sgn b < extI sgn a then b else a
def maxW (sgn : Bool) (a b : Word) : Word := if extI sgn a < extI sgn b then b else a
def execImin (w : WA) (sgn : Bool) (s : State) : Host.Outcome State Fault Refusal := runUnit (alu2 w (minW sgn)) s
def execImax (w : WA) (sgn : Bool) (s : State) : Host.Outcome State Fault Refusal := runUnit (alu2 w (maxW sgn)) s
def execIclamp (w : WA) (sgn : Bool) (s : State) : Host.Outcome State Fault Refusal :=
  runUnit (alu3 w fun a b c => minW sgn (maxW sgn a b) c) s
def execLea (w : WA) (sh : BitVec 5) (s : State) : Host.Outcome State Fault Refusal :=
  runUnit (alu w 2 2 1 0 fun x => (words2 (x.d 0 + ((x.w 1).v.setWidth 64 <<< sh.toNat)), 0)) s
def execIadd64 (w : WA) (s : State) : Host.Outcome State Fault Refusal :=
  runUnit (alu w 2 2 2 0 fun x => (words2 (x.d 0 + x.d 1), 0)) s
def execImad64 (w : WA) (sgn : Bool) (s : State) : Host.Outcome State Fault Refusal :=
  runUnit (alu w 2 2 1 2 fun x => (words2 (x.d 2 + x.d 0 * BitVec.ofInt 64 (extI sgn (x.w 1).v)), 0)) s

/-- A result with a predicate: a poisoned source retires the lane, unless the predicate is p7 (R27, R94). -/
def predOut (x : LaneIn) (pd : PNum) (n : Nat) (ws : List Word) (p : Bool) (fl : Flg) : LaneOut :=
  if x.psn then (if pd = 7#3 then (if n = 0 then { flags := fPSN } else poisoned n) else { retire := true })
  else { dst := if n = 0 then none else some (ws.map fun w => ⟨w, false⟩), preds := [(pd, p)], flags := fl }

/-- IADDC and ISUBB (R94): the word and the carry or borrow. -/
def addCarry (a b : Word) (c : Bool) : Word × Bool :=
  let t := a.toNat + b.toNat + c.toNat
  (BitVec.ofNat 32 t, decide (2 ^ 32 ≤ t))
def subBorrow (a b : Word) (c : Bool) : Word × Bool :=
  let t : Int := a.toNat - b.toNat - c.toNat
  (BitVec.ofInt 32 t, decide (t < 0))
def carryOp (w : WA) (m : CarryMod) (f : Word → Word → Bool → Word × Bool) : View → Act Unit :=
  runSplit w.g { src := [srcA w, srcB w], dst := some ⟨w.d, 1⟩ } (perLane fun x =>
    let r := f (x.w 0).v (x.w 1).v (predOf x.preds m.ps ^^ m.neg)
    predOut x m.pd 1 [r.1] r.2 0)
def execIaddc (w : WA) (m : CarryMod) (s : State) : Host.Outcome State Fault Refusal := runUnit (carryOp w m addCarry) s
def execIsubb (w : WA) (m : CarryMod) (s : State) : Host.Outcome State Fault Refusal := runUnit (carryOp w m subBorrow) s

/-- Order of two words as the sign bit says. -/
def ordW (sgn : Bool) (a b : Word) : Ordering := compare (extI sgn a) (extI sgn b)
def execIsetp (w : WA) (pd : PNum) (op : Cmp) (sgn : Bool) (s : State) : Host.Outcome State Fault Refusal :=
  runUnit (runSplit w.g { src := [srcA w, srcB w] } (perLane fun x =>
    predOut x pd 0 [] (cmpHolds op (ordW sgn (x.w 0).v (x.w 1).v)) 0)) s
/-- PSETP's operations (R103). -/
def plogic (op : POp) (a b : Bool) : Bool :=
  match op with
  | .and => a && b | .or => a || b | .xor => a ^^ b | .andn => a && !b
def execPsetp (w : WA) (m : PLogic) (s : State) : Host.Outcome State Fault Refusal :=
  runUnit (runSplit w.g {} (perLane fun x => { preds := [(m.pd, plogic m.op (predOf x.preds m.pa) (predOf x.preds m.pb))] })) s
/-- SEL: only the selected word decides poison (R104). -/
def execSel (w : WA) (ps : PNum) (neg : Bool) (s : State) : Host.Outcome State Fault Refusal :=
  runUnit (runSplit w.g { src := [srcA w, srcB w], dst := some ⟨w.d, 1⟩ } (perLane fun x =>
    let y := if predOf x.preds ps ^^ neg then x.w 0 else x.w 1
    if y.p then poisoned 1 else { dst := some [y] })) s
def execMov (w : WA) (s : State) : Host.Outcome State Fault Refusal := runUnit (alu1 w id) s
def execMovi (w : WI) (s : State) : Host.Outcome State Fault Refusal :=
  runUnit (runSplit w.g { dst := some ⟨w.d, 1⟩ } (perLane fun _ => { dst := some [⟨w.imm, false⟩] })) s
def execMovp (w : WA) (toPred : Bool) (s : State) : Host.Outcome State Fault Refusal :=
  runUnit (if toPred then
      runSplit w.g { src := [srcA w] } (perLane fun x =>
        if x.psn then { retire := true } else { setPreds := some ((x.w 0).v.setWidth 7) })
    else runSplit w.g { dst := some ⟨w.d, 1⟩ } (perLane fun x => { dst := some [⟨x.preds.setWidth 32, false⟩] })) s

def execAnd (w : WA) (s : State) : Host.Outcome State Fault Refusal := runUnit (alu2 w fun a b => a &&& b) s
def execOr (w : WA) (s : State) : Host.Outcome State Fault Refusal := runUnit (alu2 w fun a b => a ||| b) s
def execXor (w : WA) (s : State) : Host.Outcome State Fault Refusal := runUnit (alu2 w fun a b => a ^^^ b) s
def execAndn (w : WA) (s : State) : Host.Outcome State Fault Refusal := runUnit (alu2 w fun a b => a &&& ~~~b) s
def execNot (w : WA) (s : State) : Host.Outcome State Fault Refusal := runUnit (alu1 w fun a => ~~~a) s
/-- BMIX's truth table, bit by bit (R96). -/
def bmixW (t : BitVec 8) (a b c : Word) : Word :=
  BitVec.ofNat 32 ((List.range 32).foldl (fun n i =>
    if t.getLsbD ((a.getLsbD i).toNat + 2 * (b.getLsbD i).toNat + 4 * (c.getLsbD i).toNat) then n + 2 ^ i else n) 0)
def execBmix (w : WA) (t : BitVec 8) (s : State) : Host.Outcome State Fault Refusal := runUnit (alu3 w (bmixW t)) s

/-- Shifts by the whole amount (R97). -/
def shlW (a n : Word) : Word := if n.toNat < 32 then a <<< n.toNat else 0
def shrW (a n : Word) : Word := if n.toNat < 32 then a >>> n.toNat else 0
def sarW (a n : Word) : Word := if n.toNat < 32 then a.sshiftRight n.toNat else (if a.getLsbD 31 then 0xFFFFFFFF else 0)
def shfW (right : Bool) (a b c : Word) : Word :=
  let w := pairOf a b
  let n := min c.toNat 32
  if right then lo32 (w >>> n) else hi32 (w <<< n)
def execShl (w : WA) (s : State) : Host.Outcome State Fault Refusal := runUnit (alu2 w shlW) s
def execShr (w : WA) (s : State) : Host.Outcome State Fault Refusal := runUnit (alu2 w shrW) s
def execSar (w : WA) (s : State) : Host.Outcome State Fault Refusal := runUnit (alu2 w sarW) s
def execRotl (w : WA) (s : State) : Host.Outcome State Fault Refusal := runUnit (alu2 w fun a b => a.rotateLeft (b.toNat % 32)) s
def execShf (w : WA) (right : Bool) (s : State) : Host.Outcome State Fault Refusal := runUnit (alu3 w (shfW right)) s

/-- Number of set bits, and runs of zeros from the top and from the bottom (R98). -/
def popcNat (n : Nat) : Nat → Nat
  | 0 => 0
  | k + 1 => (if n.testBit k then 1 else 0) + popcNat n k
def popcW (a : Word) : Nat := popcNat a.toNat 32
def clzW (a : Word) : Nat := runLen a.toNat false 32
def brevW (a : Word) : Word := BitVec.ofNat 32 ((List.range 32).foldl (fun n i => if a.getLsbD i then n + 2 ^ (31 - i) else n) 0)
def ctzW (a : Word) : Nat := clzW (brevW a)
def execPopc (w : WA) (s : State) : Host.Outcome State Fault Refusal := runUnit (alu1 w fun a => BitVec.ofNat 32 (popcW a)) s
def execClz (w : WA) (s : State) : Host.Outcome State Fault Refusal := runUnit (alu1 w fun a => BitVec.ofNat 32 (clzW a)) s
def execCtz (w : WA) (s : State) : Host.Outcome State Fault Refusal := runUnit (alu1 w fun a => BitVec.ofNat 32 (ctzW a)) s
def execBrev (w : WA) (s : State) : Host.Outcome State Fault Refusal := runUnit (alu1 w brevW) s

/-- The field that b names (R99): position and length. -/
def fieldOf (b : Word) : Nat × Nat :=
  let pos := min (b.toNat % 256) 32
  (pos, min (b.toNat / 256 % 256) (32 - pos))
def bfxW (sgn : Bool) (a b : Word) : Word :=
  let (pos, len) := fieldOf b
  if len = 0 then 0 else
  let f := a.toNat / 2 ^ pos % 2 ^ len
  if sgn && f.testBit (len - 1) then BitVec.ofNat 32 (2 ^ 32 - 2 ^ len + f) else BitVec.ofNat 32 f
def bfiW (a b c : Word) : Word :=
  let (pos, len) := fieldOf b
  let m := (2 ^ len - 1) * 2 ^ pos
  BitVec.ofNat 32 (c.toNat - (c.toNat &&& m) + a.toNat % 2 ^ len * 2 ^ pos)
def execBfx (w : WA) (sgn : Bool) (s : State) : Host.Outcome State Fault Refusal := runUnit (alu2 w (bfxW sgn)) s
def execBfi (w : WA) (s : State) : Host.Outcome State Fault Refusal := runUnit (alu3 w bfiW) s
/-- One byte of BSWZ (R100). -/
def swzByte (w : Nat) (sel : Nat) : Nat :=
  let x := w / 2 ^ (8 * (sel % 8)) % 256
  match sel / 8 % 4 with
  | 0 => x
  | 1 => if x ≥ 128 then 255 else 0
  | 2 => 0
  | _ => 255
def bswzW (a b c : Word) : Word :=
  BitVec.ofNat 32 ((List.range 4).foldl (fun n i => n + swzByte (pairOf a b).toNat (c.toNat / 2 ^ (8 * i) % 256) * 2 ^ (8 * i)) 0)
def execBswz (w : WA) (s : State) : Host.Outcome State Fault Refusal := runUnit (alu3 w bswzW) s

def execIaddImm (w : WI) (s : State) : Host.Outcome State Fault Refusal := runUnit (aluI w fun a b => a + b) s
def execImulImm (w : WI) (s : State) : Host.Outcome State Fault Refusal := runUnit (aluI w fun a b => a * b) s
def execAndImm (w : WI) (s : State) : Host.Outcome State Fault Refusal := runUnit (aluI w fun a b => a &&& b) s
def execOrImm (w : WI) (s : State) : Host.Outcome State Fault Refusal := runUnit (aluI w fun a b => a ||| b) s
def execXorImm (w : WI) (s : State) : Host.Outcome State Fault Refusal := runUnit (aluI w fun a b => a ^^^ b) s
def execShlImm (w : WI) (s : State) : Host.Outcome State Fault Refusal := runUnit (aluI w shlW) s
def execShrImm (w : WI) (s : State) : Host.Outcome State Fault Refusal := runUnit (aluI w shrW) s
def execSarImm (w : WI) (s : State) : Host.Outcome State Fault Refusal := runUnit (aluI w sarW) s

/-- SREAD and SWRITE (R123). -/
def execSread (w : WA) (sticky : Bool) (s : State) : Host.Outcome State Fault Refusal :=
  runUnit (runSplit w.g { dst := some ⟨w.d, 1⟩ } (perLane fun x =>
    { dst := some [⟨if sticky then x.sticky &&& stickyMask else x.mode &&& modeMask, false⟩] })) s
def execSwrite (w : WA) (sticky : Bool) (s : State) : Host.Outcome State Fault Refusal :=
  runUnit (runSplit w.g { src := [srcA w] } (perLane fun x =>
    if x.psn then { flags := fPSN }
    else if sticky then { setSticky := some ((x.w 0).v &&& stickyMask) } else { setMode := some ((x.w 0).v &&& modeMask) })) s

end Sys2Proof.Machine
end

