-- ==== Sys2Proof/Machine/Control.lean ====
section
/-! DEFINITION. Control transfer (spec/04 R116-R122; spec/02 R40, R61; spec/17 R420). -/

namespace Sys2Proof.Machine

/-- The clause the instruction stands in. -/
def View.clause (v : View) : Act ClauseCtx := someA v.g.clauseNow .idle
/-- header + SX(OFS, 56) (R117). -/
def relTarget (c : ClauseCtx) (ofs : Word) : VAddr := c.hdr + ofs.signExtend 56
/-- The header after the clause (R119, R122). -/
def afterClause (c : ClauseCtx) : VAddr := c.hdr + BitVec.ofNat 56 (8 * (c.count + 1))
/-- The check of R40 on the new program counters of lanes: the lowest that fails decides. -/
def checkTargets (v : View) (ts : List (Nat × VAddr)) : Act Unit := do
  let s ← get
  match ts.find? fun t => !s.clauseOk v.b t.2 with
  | some t => faultA fcTarget t.2.toNat t.1
  | none => pure ()
/-- Lanes go to their targets, the rest stay in the clause (R19). -/
def goAll (v : View) (ts : List (Nat × VAddr)) (s : State) : State :=
  ts.foldl (fun s t => s.modThread v.u t.1 (·.goTo t.2)) s

def execBra (g : Guard) (ofs : Word) (s : State) : Host.Outcome State Fault Refusal :=
  runUnit (fun v => do
    let ls := v.active g
    let c ← v.clause
    let ts := ls.map fun l => (l, relTarget c ofs)
    checkTargets v ts
    modA fun s => (goAll v ts s).advance v) s

/-- A transfer to a pair's address; `link` is CALLX's link field (R118, R119). A poisoned target retires its lane (R27). DESIGN CHOICE, log 79: no record of the model names the kind of a transfer. -/
def indirect (w : WA) (link : Option Opnd) (v : View) : Act Unit := do
  let x : Uses := { src := [srcA w 2], dst := link.map fun f => ⟨f, 2⟩ }
  needA (v.legal x && link.elim true fun f => v.b.rwOk v.front f 2) (.fault fcIllOpnd 0 0 0)
  let ls := v.active w.g
  if ls = [] then modA (·.advance v) else
  let c ← v.clause
  match readAll v ls x (← get) with
  | .error e => throw e
  | .ok (ins, s') =>
    let (bad, good) := ins.partition (·.psn)
    let ts := good.map fun i => (i.lane, (i.d 0).setWidth 56)
    checkTargets v ts
    let s := bad.foldl (fun s i => s.retire v.u i.lane) s'
    let s := match link with
      | some f => ts.foldl (fun s t => writeDst s v.u t.1 ⟨f, 2⟩ ((words2 ((afterClause c).setWidth 64)).map fun w => ⟨w, false⟩)) s
      | none => s
    let s := if bad = [] then s else s.afterExit v.u.blk
    set ((goAll v ts s).advance v)
def execBrx (w : WA) (s : State) : Host.Outcome State Fault Refusal := runUnit (indirect w none) s
def execRet (w : WA) (s : State) : Host.Outcome State Fault Refusal := runUnit (indirect w none) s
def execCallx (w : WA) (s : State) : Host.Outcome State Fault Refusal := runUnit (indirect w (some w.d)) s
def execCall (g : Guard) (link : Opnd) (ofs : Word) (s : State) : Host.Outcome State Fault Refusal :=
  runUnit (fun v => do
    needA (v.b.rwOk v.front link 2) (.fault fcIllOpnd 0 0 0)
    let ls := v.active g
    let c ← v.clause
    let s ← get
    needA (!(ls.any fun l => dstBusy s v.u l ⟨link, 2⟩)) .hold
    let ts := ls.map fun l => (l, relTarget c ofs)
    checkTargets v ts
    modA fun s => (goAll v ts (ls.foldl (fun s l => writeDst s v.u l ⟨link, 2⟩ ((words2 ((afterClause c).setWidth 64)).map fun w => ⟨w, false⟩)) s)).advance v) s

/-- MEET's effect on a thread (R120). -/
def Thread.meet (t : Thread) (tgt : VAddr) : Thread := { t with mstk := t.mr :: t.mstk, mr := tgt }
def execMeet (g : Guard) (ofs : Word) (s : State) : Host.Outcome State Fault Refusal :=
  runUnit (fun v => do
    let ls := v.active g
    let c ← v.clause
    let tgt := relTarget c ofs
    checkTargets v (ls.map fun l => (l, tgt))
    match ls.find? fun l => (v.thread l).elim false fun t => decide (8 ≤ t.mstk.length) with
    | some l => faultA fcMeet 0 l
    | none => modA fun s => (ls.foldl (fun s l => s.modThread v.u l (·.meet tgt)) s).advance v) s

/-- The report of pending arithmetic faults at a BAR, CBAR or EXIT (R420): under ARITH 0 one record is posted and the pending bits are clear; under ARITH 1 the fault halts, and false is answered. -/
def arithReport (v : View) (ls : List Nat) : Act Bool := do
  let s ← get
  let rep := ls.filter fun l => (v.thread l).elim false fun t => t.pend != 0
  if rep = [] then pure true else
  let bits : BitVec 7 := rep.foldl (fun m l => m ||| ((v.thread l).elim 0 (·.pend))) 0
  let ctx := s.ctxD v.b.ctx
  if (s.partD ctx.part).fcw.getLsbD 0 then
    set (s.takeFault v.u fcArith 0 (rep.headD 0) bits.toNat v.pc (maskOf rep))
    pure false
  else
    needA ctx.fqRoom .hold
    let r := mkRec v.b v.u v.g fcArith 1 (v.pc.setWidth 64) 0 (maskOf rep) (rep.headD 0 + 256 * bits.toNat)
    set ((rep.foldl (fun s l => s.modThread v.u l fun t => { t with pend := 0 }) s).post v.b.ctx r .none)
    pure true

def execExit (g : Guard) (s : State) : Host.Outcome State Fault Refusal :=
  runUnit (fun v => do
    let ls := v.active g
    if ← arithReport v ls then
      modA fun s =>
        let s := ls.foldl (fun s l => s.modThread v.u l fun t => { t with stat := .exited, cl := none }) s
        (if ls = [] then s else s.afterExit v.u.blk).advance v) s
/-- YIELD (R122). DESIGN CHOICE, log 78: a next header that fails R40 is the fault of a transfer, which leaves the whole split at the YIELD. -/
def execYield (g : Guard) (s : State) : Host.Outcome State Fault Refusal :=
  runUnit (fun v => do
    let ls := v.active g
    let c ← v.clause
    let ts := ls.map fun l => (l, afterClause c)
    checkTargets v ts
    modA fun s => (goAll v ts s).advance v (yl := ls != [])) s
def execNop (_g : Guard) (s : State) : Host.Outcome State Fault Refusal := runUnit (fun v => modA (·.advance v)) s
def execHint (_n : BitVec 4) (_payload : BitVec 56) (s : State) : Host.Outcome State Fault Refusal := runUnit (fun v => modA (·.advance v)) s

end Sys2Proof.Machine
end

