-- ==== Sys2Proof/Machine/Transc.lean ====
section
/-! DEFINITION. FRSQ, FEXP2, FLOG2 and FTANH (spec/03 R85): exact cases and special inputs as the table gives them; elsewhere the device's free result where it keeps the bound, and else a result that keeps it (log 5). -/

namespace Sys2Proof.Machine

/-- An interval of exact numbers that holds the true result. -/
structure Ivl where
  lo : Dy
  hi : Dy
  deriving DecidableEq, Repr

/-- Fraction bits of the fixed-point work below. -/
def fxBits : Nat := 200
/-- ⌊log2⌋ of a positive exact number. -/
def Dy.log2 (x : Dy) : Int := x.e + Nat.log2 x.m.natAbs
/-- One ulp of R85 at a positive true result near `x`. -/
def ulpAt (x : Dy) : Dy := ⟨1, max x.log2 (-126) - 23⟩

/-- The code `c` is finite and within `k` ulp of every number of a positive interval, on the side the sign says (R85). The smaller ulp of the interval's ends is taken. -/
def within (c : Nat) (neg : Bool) (v : Ivl) (k : Nat) : Bool :=
  match (Fmt.of .f32).decode c with
  | .fin n m e =>
    let x := Dy.ofFin (n != neg && m != 0) m e
    let u := ulpAt v.lo
    let ku : Dy := ⟨k * u.m, u.e⟩
    (x.le (v.lo.add ku)) && (v.hi.le (x.add ku))
  | _ => false

/-- The result of a transcendental outside its exact cases: NX, and UF where it is tiny (R85). -/
def transcResult (raw : Word) (neg : Bool) (v : Ivl) (k : Nat) : Word × Flg :=
  let f := Fmt.of .f32
  let c := if within raw.toNat neg v k then raw.toNat else (f.round .rn neg v.lo.m.natAbs v.lo.e true).1
  (BitVec.ofNat 32 c, fNX ||| flagIf (decide (c % 2 ^ 31 < 2 ^ 23)) fUF)

/-- 2^(2^-i) for i = 1 to n as fixed-point numbers, rounded down. -/
def rootsOf2 : Nat → Nat → List Nat
  | 0, _ => []
  | n + 1, c => let r := isqrt (c * 2 ^ fxBits); r :: rootsOf2 n r
/-- Product of the roots whose bits of the fraction are set; the error stays below `2^8` units. -/
def exp2Bits (roots : List Nat) (frac : Nat) : Nat :=
  (roots.zipIdx.foldl (fun acc x => if frac.testBit (fxBits - 1 - x.2) then acc * x.1 / 2 ^ fxBits else acc) (2 ^ fxBits))
/-- 2^x for a fixed-point x between `lo` and `lo + w` units. -/
def exp2Ivl (lo : Int) (w : Nat) : Ivl :=
  let n := lo / 2 ^ fxBits
  let fr := (lo % 2 ^ fxBits).toNat
  let p := exp2Bits (rootsOf2 fxBits (2 ^ (fxBits + 1))) fr
  ⟨⟨(p - 2 ^ 12 : Nat), n - fxBits⟩, ⟨(p + 2 ^ 12 + 2 * w : Nat), n - fxBits⟩⟩
/-- An exact number as fixed point, rounded down. -/
def toFx (m : Int) (e : Int) : Int :=
  if 0 ≤ e + fxBits then m * 2 ^ (e + fxBits).toNat else m / 2 ^ (-(e + fxBits)).toNat

/-- Bits of log2 of a fixed-point number in [1, 2), by squaring; the work keeps twice the digits. -/
def log2Bits : Nat → Nat → Nat → Nat
  | 0, _, acc => acc
  | k + 1, x, acc =>
    let y := x * x / 2 ^ (2 * fxBits)
    if y ≥ 2 ^ (2 * fxBits + 1) then log2Bits k (y / 2) (2 * acc + 1) else log2Bits k y (2 * acc)
/-- log2(e) with 200 fraction bits, rounded down. -/
def log2E : Nat := 144269504088896340735992468100189213742664595415298593413544940693110 * 2 ^ fxBits / 10 ^ 68

/-- FRSQ (R85). -/
def frsqOf (x : Word) : Word × Flg :=
  let f := Fmt.of .f32
  let o (r : Nat × Flg) : Word × Flg := (BitVec.ofNat 32 r.1, r.2)
  match f.decode x.toNat with
  | .nan s => o (f.nan, flagIf s fNV)
  | .inf n => if n then o f.invalid else (0, 0)
  | .fin n m e =>
    if m = 0 then o (f.withSign n f.infCode, fDZ)
    else if n then o f.invalid
    else
      let (m, e) := if e % 2 = 0 then (m, e) else (2 * m, e - 1)
      let r := isqrt m
      if r * r = m ∧ 2 ^ Nat.log2 r = r then o (f.round .rn false 1 (-(e / 2) - Nat.log2 r))
      else
        let q := isqrt (2 ^ (2 * fxBits) / m)
        transcResult (Config.frsqRaw x) false ⟨⟨(q : Nat), -(e / 2) - fxBits⟩, ⟨(q + 1 : Nat), -(e / 2) - fxBits⟩⟩ 1
/-- FEXP2 (R85). -/
def fexp2Of (x : Word) : Word × Flg :=
  let f := Fmt.of .f32
  let o (r : Nat × Flg) : Word × Flg := (BitVec.ofNat 32 r.1, r.2)
  match f.decode x.toNat with
  | .nan s => o (f.nan, flagIf s fNV)
  | .inf n => o (if n then 0 else f.infCode, 0)
  | .fin n m e =>
    let v := Dy.ofFin n m e
    if Dy.le ⟨128, 0⟩ v then o (f.infCode, fOF ||| fNX)
    else if v.le ⟨-150, 0⟩ then o (0, fUF ||| fNX)
    else
      let k : Int := if 0 ≤ e then v.m * 2 ^ e.toNat else v.m / 2 ^ (-e).toNat
      let isInt := (0 ≤ e) || v.m % 2 ^ (-e).toNat == 0
      if isInt && decide (-149 ≤ k) then o (f.round .rn false 1 k)
      else transcResult (Config.fexp2Raw x) false (exp2Ivl (toFx v.m v.e) 1) 1
/-- FLOG2 (R85). -/
def flog2Of (x : Word) : Word × Flg :=
  let f := Fmt.of .f32
  let o (r : Nat × Flg) : Word × Flg := (BitVec.ofNat 32 r.1, r.2)
  match f.decode x.toNat with
  | .nan s => o (f.nan, flagIf s fNV)
  | .inf n => if n then o f.invalid else o (f.infCode, 0)
  | .fin n m e =>
    if m = 0 then o (f.withSign true f.infCode, fDZ)
    else if n then o f.invalid
    else
      let E : Int := e + Nat.log2 m
      if 2 ^ Nat.log2 m = m then o (f.round .rn (decide (E < 0)) E.natAbs 0)
      else
        let fr := log2Bits fxBits (m * 2 ^ (2 * fxBits) / 2 ^ Nat.log2 m) 0
        let y : Int := E * 2 ^ fxBits + fr
        let neg := decide (y < 0)
        let a := if neg then (-y - 1).toNat else y.toNat
        transcResult (Config.flog2Raw x) neg ⟨⟨(a : Nat), -fxBits⟩, ⟨(a + 2 : Nat), -fxBits⟩⟩ 1
/-- FTANH (R85). -/
def ftanhOf (x : Word) : Word × Flg :=
  let f := Fmt.of .f32
  let o (r : Nat × Flg) : Word × Flg := (BitVec.ofNat 32 r.1, r.2)
  match f.decode x.toNat with
  | .nan s => o (f.nan, flagIf s fNV)
  | .inf n => o (f.withSign n 0x3F800000, 0)
  | .fin n m e =>
    let a : Dy := ⟨m, e⟩
    if a.lt ⟨1, -12⟩ then (x, 0)
    else if Dy.le ⟨10, 0⟩ a then o (f.withSign n 0x3F800000, 0)
    else
      let t := toFx (2 * m * log2E) (e - fxBits)
      let z := exp2Ivl t 64
      let up (d : Dy) : Nat := (toFx d.m d.e).toNat
      let one := 2 ^ fxBits
      let lo := (up z.lo - one) * one / (up z.lo + one)
      let hi := (up z.hi + 1 - one) * one / (up z.hi + 1 + one) + 1
      transcResult (Config.ftanhRaw x) n ⟨⟨(lo : Nat), -fxBits⟩, ⟨(hi : Nat), -fxBits⟩⟩ 2

end Sys2Proof.Machine
end

