-- ==== Sys2Proof/Machine/Float.lean ====
section
/-! DEFINITION. Floating point and conversions (spec/04 R107-R115, under spec/03). -/

namespace Sys2Proof.Machine

def wN (r : Nat × Flg) : List Word × Flg := ([BitVec.ofNat 32 r.1], r.2)
def f32 : Fmt := Fmt.of .f32
/-- Source `k` as FP32. -/
def LaneIn.f (x : LaneIn) (k : Nat) : FVal := f32.decode (x.w k).v.toNat

def execFadd (w : WA) (r : Option Rnd) (s : State) : Host.Outcome State Fault Refusal :=
  runUnit (alu w 1 1 1 0 fun x => wN (f32.addV (roundOf r x.mode) (x.f 0) (x.f 1))) s
def execFmul (w : WA) (r : Option Rnd) (s : State) : Host.Outcome State Fault Refusal :=
  runUnit (alu w 1 1 1 0 fun x => wN (f32.mulV (roundOf r x.mode) (x.f 0) (x.f 1))) s
def execFfma (w : WA) (r : Option Rnd) (s : State) : Host.Outcome State Fault Refusal :=
  runUnit (alu w 1 1 1 1 fun x => wN (f32.fmaV (roundOf r x.mode) (x.f 0) (x.f 1) (x.f 2))) s
def execFmin (w : WA) (s : State) : Host.Outcome State Fault Refusal :=
  runUnit (alu w 1 1 1 0 fun x => wN (f32.minmax false (x.w 0).v.toNat (x.w 1).v.toNat)) s
def execFmax (w : WA) (s : State) : Host.Outcome State Fault Refusal :=
  runUnit (alu w 1 1 1 0 fun x => wN (f32.minmax true (x.w 0).v.toNat (x.w 1).v.toNat)) s
def execFrnd (w : WA) (r : Option Rnd) (s : State) : Host.Outcome State Fault Refusal :=
  runUnit (alu w 1 1 0 0 fun x => wN (f32.rint (roundOf r x.mode) (x.w 0).v.toNat)) s
def execFclass (w : WA) (s : State) : Host.Outcome State Fault Refusal :=
  runUnit (alu1 w fun a => BitVec.ofNat 32 (fclassOf a.toNat)) s
/-- FSETP reads a whole register or its low half (R102). -/
def execFsetp (w : WA) (pd : PNum) (op : Cmp) (fmt : FFmt) (s : State) : Host.Outcome State Fault Refusal :=
  runUnit (runSplit w.g { src := [srcA w, srcB w] } (perLane fun x =>
    let f := Fmt.of fmt
    let r := f.compare op ((x.w 0).v.toNat % 2 ^ f.width) ((x.w 1).v.toNat % 2 ^ f.width)
    predOut x pd 0 [] r.1 r.2)) s

/-- A packed pair, each element on its own (R69, R110). -/
def half2 (bf : Bool) (f : Fmt → List FVal → Nat × Flg) (ws : List Word) : List Word × Flg :=
  let k : FFmt := if bf then .bf16 else .f16
  let el (i : Nat) : Nat × Flg := f (Fmt.of k) (ws.map fun w => (Fmt.of k).decode (elemOf k [w] i))
  ([BitVec.ofNat 32 ((el 0).1 + 65536 * (el 1).1)], (el 0).2 ||| (el 1).2)
def execHadd2 (w : WA) (bf : Bool) (r : Option Rnd) (s : State) : Host.Outcome State Fault Refusal :=
  runUnit (alu w 1 1 1 0 fun x => half2 bf (fun f vs => f.addV (roundOf r x.mode) (vs.getD 0 (.nan false)) (vs.getD 1 (.nan false))) [(x.w 0).v, (x.w 1).v]) s
def execHmul2 (w : WA) (bf : Bool) (r : Option Rnd) (s : State) : Host.Outcome State Fault Refusal :=
  runUnit (alu w 1 1 1 0 fun x => half2 bf (fun f vs => f.mulV (roundOf r x.mode) (vs.getD 0 (.nan false)) (vs.getD 1 (.nan false))) [(x.w 0).v, (x.w 1).v]) s
def execHfma2 (w : WA) (bf : Bool) (r : Option Rnd) (s : State) : Host.Outcome State Fault Refusal :=
  runUnit (alu w 1 1 1 1 fun x => half2 bf
    (fun f vs => f.fmaV (roundOf r x.mode) (vs.getD 0 (.nan false)) (vs.getD 1 (.nan false)) (vs.getD 2 (.nan false))) [(x.w 0).v, (x.w 1).v, (x.w 2).v]) s

def execFrcp (w : WA) (r : Option Rnd) (s : State) : Host.Outcome State Fault Refusal :=
  runUnit (alu w 1 1 0 0 fun x => wN (f32.rcp (roundOf r x.mode) (x.w 0).v.toNat)) s
def execFsqrt (w : WA) (r : Option Rnd) (s : State) : Host.Outcome State Fault Refusal :=
  runUnit (alu w 1 1 0 0 fun x => wN (f32.sqrt (roundOf r x.mode) (x.w 0).v.toNat)) s
def w1 (r : Word × Flg) : List Word × Flg := ([r.1], r.2)
def execFrsq (w : WA) (s : State) : Host.Outcome State Fault Refusal := runUnit (alu w 1 1 0 0 fun x => w1 (frsqOf (x.w 0).v)) s
def execFexp2 (w : WA) (s : State) : Host.Outcome State Fault Refusal := runUnit (alu w 1 1 0 0 fun x => w1 (fexp2Of (x.w 0).v)) s
def execFlog2 (w : WA) (s : State) : Host.Outcome State Fault Refusal := runUnit (alu w 1 1 0 0 fun x => w1 (flog2Of (x.w 0).v)) s
def execFtanh (w : WA) (s : State) : Host.Outcome State Fault Refusal := runUnit (alu w 1 1 0 0 fun x => w1 (ftanhOf (x.w 0).v)) s

/-- CVT of equal formats is a reserved code (R113). -/
def execCvt (w : WA) (dst src : CFmt) (r : Option Rnd) (s : State) : Host.Outcome State Fault Refusal :=
  runUnit (fun v => do
    needA (dst != src) (.fault fcIllInstr 0 0 0)
    alu w 1 1 0 0 (fun x => w1 (cvtOf dst src (roundOf r x.mode) (x.w 0).v)) v) s
/-- Words of four elements of an IEEE format (R114, R115). -/
def quadWords (k : FFmt) : Nat := if k = .f32 then 4 else 2
def execNcvt (w : WA) (dst : NFmt) (src : FFmt) (_r : Option Rnd) (s : State) : Host.Outcome State Fault Refusal :=
  runUnit (alu w 1 (quadWords src) 1 0 fun x => w1 (ncvtOf dst src ((x.src.headD []).map (·.v)) (x.w 1).v)) s
def execNdec (w : WA) (dst : FFmt) (src : NFmt) (r : Option Rnd) (s : State) : Host.Outcome State Fault Refusal :=
  runUnit (alu w (quadWords dst) 1 1 0 fun x => ndecOf dst src (roundOf r x.mode) (x.w 0).v (x.w 1).v) s

end Sys2Proof.Machine
end

