-- ==== Sys2Proof/Machine/Group.lean ====
section
/-! DEFINITION. Group instructions: lanes that act on one another, group-uniform issue, barriers (spec/07 R179-R192; spec/06 R160). -/

namespace Sys2Proof.Machine

/-! ## Shuffles, votes, reductions -/

def segWidth : Seg → Nat
  | .w32 => 32 | .w16 => 16 | .w8 => 8 | .w4 => 4 | .w2 => 2
/-- SHFL's source lane and whether it lies in the segment (R183). -/
def shflSrc (m : ShMode) (w lane n : Nat) : Nat × Bool :=
  let base := lane - lane % w
  match m with
  | .idx => (base + n % w, true)
  | .up => (lane - n, decide (n < w ∧ base + n ≤ lane))
  | .down => (lane + n, decide (n < w ∧ lane + n < base + w))
  | .xor => (lane ^^^ (n % w), true)
/-- One lane's result of SHFL from all lanes' inputs (R182, R183). -/
def shflLane (m : ShMod) (ins : List LaneIn) (x : LaneIn) : LaneOut :=
  if (x.w 1).p then (if m.pd = 7#3 then poisoned 1 else { retire := true }) else
  let (src, ok) := shflSrc m.mode (segWidth m.seg) x.lane (x.w 1).v.toNat
  let y := if ok then ins.find? (·.lane == src) else none
  let a := (y.getD x).w 0
  { (if a.p then poisoned 1 else { dst := some [a] } : LaneOut) with preds := [(m.pd, y.isSome)] }
def execShfl (w : WA) (m : ShMod) (s : State) : Host.Outcome State Fault Refusal :=
  runUnit (runSplit w.g { src := [srcA w, srcB w], dst := some ⟨w.d, 1⟩ } fun ins => ins.map fun x => (x.lane, shflLane m ins x)) s

/-- A lane's vote (R184). -/
def voteOf1 (ps : PNum) (neg : Bool) (x : LaneIn) : Bool := predOf x.preds ps ^^ neg
def voteAll (op : VoteOp) (vs : List Bool) : Bool :=
  match op with
  | .all => vs.all id
  | .any => vs.any id
  | .uni => vs.all (· == vs.headD true)
def execVote (w : WA) (pd : PNum) (op : VoteOp) (ps : PNum) (neg : Bool) (s : State) : Host.Outcome State Fault Refusal :=
  runUnit (runSplit w.g {} fun ins =>
    let r := voteAll op (ins.map (voteOf1 ps neg))
    ins.map fun x => (x.lane, { preds := [(pd, r)] })) s
/-- One word to every lane. -/
def sameWord (ins : List LaneIn) (x : Word) : List (Nat × LaneOut) := ins.map fun i => (i.lane, { dst := some [⟨x, false⟩] })
def execBallot (w : WA) (ps : PNum) (neg : Bool) (s : State) : Host.Outcome State Fault Refusal :=
  runUnit (runSplit w.g { dst := some ⟨w.d, 1⟩ } fun ins => sameWord ins (maskOf ((ins.filter (voteOf1 ps neg)).map (·.lane)))) s
def execElect (w : WA) (pd : PNum) (s : State) : Host.Outcome State Fault Refusal :=
  runUnit (runSplit w.g { dst := some ⟨w.d, 1⟩ } fun ins =>
    let l := (ins.head?.map (·.lane)).getD 0
    ins.map fun x => (x.lane, { dst := some [⟨BitVec.ofNat 32 l, false⟩], preds := [(pd, x.lane == l)] })) s
def execActmask (w : WA) (s : State) : Host.Outcome State Fault Refusal :=
  runUnit (runSplit w.g { dst := some ⟨w.d, 1⟩ } fun ins => sameWord ins (maskOf (ins.map (·.lane)))) s
/-- MATCH: bits, not values; a poisoned lane is in no other lane's mask (R185). -/
def execMatchLanes (w : WA) (wide : Bool) (s : State) : Host.Outcome State Fault Refusal :=
  runUnit (runSplit w.g { src := [srcA w (if wide then 2 else 1)], dst := some ⟨w.d, 1⟩ } fun ins => ins.map fun x =>
    let val (i : LaneIn) : List Word := (i.src.headD []).map (·.v)
    (x.lane, if x.psn then poisoned 1 else
      { dst := some [⟨maskOf ((ins.filter fun y => !y.psn && val y == val x).map (·.lane)), false⟩] })) s

/-- The operations of REDUX and SCAN and their identities (R186). -/
def redW (op : RedOp) (sgn : Bool) (a b : Word) : Word :=
  match op with
  | .add => a + b | .min => minW sgn a b | .max => maxW sgn a b | .and => a &&& b | .or => a ||| b | .xor => a ^^^ b
def redId (op : RedOp) (sgn : Bool) : Word :=
  match op with
  | .add | .or | .xor => 0
  | .and => 0xFFFFFFFF
  | .min => if sgn then 0x7FFFFFFF else 0xFFFFFFFF
  | .max => if sgn then 0x80000000 else 0
/-- A poisoned word poisons what is computed from it. -/
def redP (op : RedOp) (sgn : Bool) (a b : PWord) : PWord := ⟨redW op sgn a.v b.v, a.p || b.p⟩
def outP (x : PWord) : LaneOut := if x.p then poisoned 1 else { dst := some [x] }
def execRedux (w : WA) (op : RedOp) (sgn : Bool) (s : State) : Host.Outcome State Fault Refusal :=
  runUnit (runSplit w.g { src := [srcA w], dst := some ⟨w.d, 1⟩ } fun ins =>
    let r := (ins.map (·.w 0)).foldl (redP op sgn) ⟨redId op sgn, false⟩
    ins.map fun x => (x.lane, outP r)) s
/-- The prefixes of SCAN. -/
def scanLanes (op : RedOp) (sgn excl : Bool) : PWord → List LaneIn → List (Nat × LaneOut)
  | _, [] => []
  | acc, x :: r => let t := redP op sgn acc (x.w 0); (x.lane, outP (if excl then acc else t)) :: scanLanes op sgn excl t r
def execScan (w : WA) (op : RedOp) (excl sgn : Bool) (s : State) : Host.Outcome State Fault Refusal :=
  runUnit (runSplit w.g { src := [srcA w], dst := some ⟨w.d, 1⟩ } (scanLanes op sgn excl ⟨redId op sgn, false⟩)) s
/-- NSCALE (R187): the target exponent is b of the lowest active lane. -/
def execNscale (w : WA) (_t6 : Bool) (s : State) : Host.Outcome State Fault Refusal :=
  runUnit (runSplit w.g { src := [srcA w, srcB w], dst := some ⟨w.d, 1⟩ } fun ins =>
    let b := (ins.head?.map (·.w 1)).getD ⟨0, false⟩
    let bad := b.p || ins.any fun x => (x.w 0).p
    let r := scaleOf (ins.map fun x => x.f 0) b.v.toInt
    ins.map fun x => (x.lane, if bad then poisoned 1 else { dst := some [⟨BitVec.ofNat 32 r.1, false⟩], flags := r.2 })) s

/-! ## Elected instructions (R180-R182, R502) -/

/-- Reads in the lowest active lane. A poisoned control operand (an index of the sources) retires that lane and nothing else happens (R502). The body gets the active lanes and the input, and finishes the instruction. -/
def elected (g : Guard) (x : Uses) (ctl : List Nat) (body : List Nat → LaneIn → Act Unit) (v : View) : Act Unit := do
  needA (v.legal x) (.fault fcIllOpnd 0 0 0)
  let ls := v.active g
  match ls with
  | [] => modA (·.advance v)
  | l :: _ =>
    let s ← get
    match readAll v [l] { x with dst := none } s with
    | .error e => throw e
    | .ok (ins, s') =>
      needA (!(x.dst.elim false fun d => ls.any fun k => dstBusy s v.u k d)) .hold
      match ins with
      | [] => idleA
      | i :: _ =>
        set s'
        if ctl.any fun k => (i.src.getD k []).any (·.p) then
          modA fun s => ((s.retire v.u l).afterExit v.u.blk).advance v
        else body ls i
/-- Writes one result to the destination of every lane (R180); a port must have room for all. -/
def writeAll (v : View) (d : Dest) (ls : List Nat) (ws : List PWord) : Act Unit := do
  match opKind d.f with
  | .port q => needA (!(pushBusy (← get) v.u q ls (ws.length * ls.length))) .hold
  | _ => pure ()
  modA fun s => ls.foldl (fun s l =>
    let s := writeDst s v.u l d ws
    if ws.any (·.p) then s.modThread v.u l (·.setFlags fPSN) else s) s
/-- Writes a predicate in every lane. -/
def predAll (v : View) (pd : PNum) (ls : List Nat) (b : Bool) : Act Unit :=
  modA fun s => ls.foldl (fun s l => s.modThread v.u l (·.setPred pd b)) s
/-- The instruction is over. -/
def done (v : View) : Act Unit := modA (·.advance v)
/-- The release side of a pair waits until every earlier access of the lanes is performed (R279). -/
def released (v : View) (ls : List Nat) : Act Unit :=
  needA (ls.all fun l => (v.thread l).elim true fun t => t.unp == []) .hold

/-! ## Group-uniform instructions (R160) -/

/-- After a group-uniform instruction every thread goes on as one split at the next word, as a continuation (R160). -/
def State.uniformEnd (s : State) (v : View) : State :=
  let s := s.advance v
  if v.front then s else s.endRun v.u
/-- Every live thread of the group stands at the instruction. -/
def View.assembled (v : View) : Bool := v.lanes == v.g.live
/-- The threads that have arrived park, which ends their clause (R160, R162). DESIGN CHOICE, log 78: the header's YIELD has no effect at this end and waits for that of the continuation. -/
def State.park (s : State) (v : View) : State :=
  let c := v.g.clauseNow
  (v.lanes.foldl (fun s l => s.modThread v.u l fun t => { t with stat := .uniform }) s).leaveClause v.u ((c.map (·.role)).getD v.g.lastRole) false
/-- Issues once for the group: legality, the guard of the lowest live lane, then the body, which is given that lane and finishes the instruction. -/
def uniform (g : Guard) (legal : View → Bool) (body : Nat → Act Unit) (v : View) : Act Unit := do
  if !v.assembled then modA (·.park v) else
  needA (legal v) (.fault fcIllOpnd 0 0 0)
  match v.lanes with
  | [] => idleA
  | l :: _ =>
    if (v.thread l).elim false (Guard.holds g) then body l else modA (·.uniformEnd v)

/-! ## Barriers (R188-R191) -/

/-- Fields of the barrier immediate (R188). -/
def barId (w : WI) : Nat := w.imm.toNat % 16
def barCnt (w : WI) : Nat := w.imm.toNat / 65536 % 64
/-- The use's n: 0 and values above the number are taken as the number (R189, R190). -/
def barN (cnt all : Nat) : Nat := if cnt = 0 ∨ all < cnt then all else cnt
/-- A group's arrival: the first of a use fixes n (R189). -/
def Block.arrive (b : Block) (id n gi : Nat) : Block :=
  if b.bars.any (·.1 == id) then
    { b with bars := b.bars.map fun x => if x.1 = id then (id, { x.2 with arrived := x.2.arrived ++ [gi] }) else x }
  else { b with bars := b.bars ++ [(id, ⟨n, [gi]⟩)] }
/-- The group stands at the barrier once its instruction is over. -/
def State.waitAt (s : State) (u : UnitRef) (st : UStat) : State :=
  match s.grp? u with
  | some g => if g.stat = .ready then (s.noteWait u (maskOf g.live) none).modGrp u fun g => { g with stat := st } else s
  | none => s
def execBar (w : WI) (s : State) : Host.Outcome State Fault Refusal :=
  runUnit (fun v => uniform w.g (fun _ => true) (fun _ => do
    released v v.g.live
    if ← arithReport v v.g.live then
      modA fun s =>
        let s := s.modBlk v.u.blk (·.arrive (barId w) (barN (barCnt w) v.b.groups.length) v.u.grpNo)
        ((s.uniformEnd v).waitAt v.u (.bar (barId w))).modBlk v.u.blk (·.barCheck (barId w))) v) s
/-- A group's arrival at a cluster barrier: a use begins with the first CBAR of it, which fixes its n (R190). -/
def State.cbarArrive (s : State) (b : Block) (id cnt gi : Nat) : State :=
  let n := barN cnt ((s.grid? b.grid).elim 1 (·.clusterSize))
  let same (c : CBar) : Bool := c.grid == b.grid && c.cluster == b.cluster && c.id == id
  if s.cbars.any same then { s with cbars := s.cbars.map fun c => if same c then { c with arrived := c.arrived ++ [(b.uid, gi, n)] } else c }
  else { s with cbars := s.cbars ++ [⟨b.grid, b.cluster, id, n, [(b.uid, gi, n)]⟩] }
def execCbar (w : WI) (s : State) : Host.Outcome State Fault Refusal :=
  runUnit (fun v => uniform w.g (fun _ => true) (fun _ => do
    released v v.g.live
    if ← arithReport v v.g.live then
      let id := barId w % 4
      modA fun s =>
        let s := s.cbarArrive v.b id (barCnt w % 32) v.u.grpNo
        ((s.uniformEnd v).waitAt v.u (.cbar id)).cbarCheck v.b.grid v.b.cluster id) v) s

end Sys2Proof.Machine
end

