-- ==== Sys2Proof/Machine/Queues.lean ====
section
/-! DEFINITION. Block queues, the decision tray, the priority token and the schedule selector (spec/07 R193-R199; spec/06 R153, R167, R175). -/

namespace Sys2Proof.Machine

/-- The port that a field names. -/
def portOf (f : Opnd) : Option Nat := match opKind f with | .port q => some q | _ => none

/-! ## QTRY, QCFG, QLEN -/

/-- Pops one entry for every lane in rising order, or none at all (R195); a retained port is read at its head and keeps its entries (R31, R53). -/
def tryPops (v : View) (q : Nat) (ret : Bool) : List Nat → State → Option (List (Nat × PWord) × State)
  | [], s => some ([], s)
  | l :: r, s =>
    match (portView s v.u l q).1 with
    | [] => none
    | e :: _ => (tryPops v q ret r (if ret then s else portDrop s v.u l q 1)).map fun x => ((l, e) :: x.1, x.2)
/-- Entries that a QTRY of some lanes touches. -/
def tryCount (ret : Bool) (ls : List Nat) : Nat := if ret then min 1 ls.length else ls.length

def qtryPop (w : WA) (pd : PNum) (q : Nat) (v : View) : Act Unit := do
  let d : Dest := ⟨w.d, 1⟩
  needA (v.b.canPop v.front q && v.b.dstOk v.front d && (portOf w.d).isNone) (.fault fcIllOpnd 0 0 0)
  let ls := v.active w.g
  let s ← get
  needA (!((ls != [] && ringBusy s v.u q ls) || ls.any fun l => dstBusy s v.u l d)) .hold
  match tryPops v q (srcA w).ret ls s with
  | some (es, s') =>
    needA (!portAbsent s v.u q (tryCount (srcA w).ret ls)) .hold
    set (es.foldl (fun s e =>
      let s := writeDst s v.u e.1 d [e.2.taken]
      if e.2.p then s.modThread v.u e.1 (·.setFlags fPSN) else s) s')
    predAll v pd ls true
  | none => predAll v pd ls false
  done v
/-- A push takes no empty-source fault: an empty source holds it (R195). -/
def qtryPush (w : WA) (pd : PNum) (q : Nat) (v : View) : Act Unit := do
  needA (v.b.canPush q && v.b.srcOk v.front (srcA w)) (.fault fcIllOpnd 0 0 0)
  let ls := v.active w.g
  let s ← get
  match readAll v ls { src := [{ srcA w with et := false }] } s with
  | .error e => throw e
  | .ok (ins, s') =>
    let room := ((v.b.ring? q).map (·.room)).getD 0
    needA (ls = [] || !ringBusy s' v.u q ls) .hold
    if ls.length ≤ room then
      needA (ls = [] || !(pushBusy s' v.u q ls ls.length)) .hold
      set (ins.foldl (fun s x =>
        let s := pushRing s v.u.blk q [(x.w 0).taken]
        if x.psn then s.modThread v.u x.lane (·.setFlags fPSN) else s) s')
      predAll v pd ls true
    else predAll v pd ls false
    done v
/-- QTRY names a port in exactly one of D and A (R195). -/
def execQtry (w : WA) (pd : PNum) (s : State) : Host.Outcome State Fault Refusal :=
  runUnit (fun v =>
    match portOf w.d, portOf w.a with
    | none, some q => qtryPop w pd q v
    | some q, none => qtryPush w pd q v
    | _, _ => throw (.fault fcIllOpnd 0 0 0)) s

/-- A port's new ring: empty, its first place at the ring's offset (R193). Places reserved in the old ring lie below the new head. -/
def Block.setRing (b : Block) (q ofs depth : Nat) : Block :=
  let t := alignUp ((b.ring? q).elim 0 (·.tail)) depth
  { b with rings := (q, ⟨ofs, depth, t, t, []⟩) :: b.rings.filter (·.1 != q) }
def execQcfg (w : WI) (s : State) : Host.Outcome State Fault Refusal :=
  runUnit (fun v => do
    let q := (portOf w.d).getD 0
    needA (1 ≤ q && q ≤ 15) (.fault fcIllOpnd 0 0 0)
    elected w.g { src := [⟨w.a, 1, w.eta, false⟩] } [0] (fun ls x => do
      let a := (x.w 0).v.toNat
      let k := w.imm.toNat % 16
      needA (a % 4 == 0 && decide (a + 4 * 2 ^ k ≤ v.b.shared) && 1 ≤ k && k ≤ 10) (.fault fcQcfg 0 (ls.headD 0) 0)
      needA (!ringBusy (← get) v.u q (ls.take 1)) .hold
      modA fun s => s.modBlk v.u.blk (·.setRing q a (2 ^ k))
      done v) v) s
/-- QLEN reads the port without popping (R196). -/
def execQlen (w : WA) (s : State) : Host.Outcome State Fault Refusal :=
  runUnit (fun v => do
    needA ((portOf w.a).elim false (v.b.canPop v.front)) (.fault fcIllOpnd 0 0 0)
    elected w.g { dst := some ⟨w.d, 1⟩ } [] (fun ls x => do
      let (es, _, busy) := portView (← get) v.u x.lane ((portOf w.a).getD 0)
      needA (!busy) .hold
      writeAll v ⟨w.d, 1⟩ ls [⟨BitVec.ofNat 32 es.length, false⟩]
      done v) v) s

/-! ## Tray, token, selector -/

/-- TRAYW pushes the tray and loads the broadcast copies (R197). DESIGN CHOICE, log 54: the copies take the values that s0-s7 hold, with their poison bits; a register whose fill is outstanding does not hold the instruction. -/
def execTrayw (w : WA) (s : State) : Host.Outcome State Fault Refusal :=
  runUnit (fun v => elected w.g { src := [srcA w] } [] (fun ls x => do
    released v ls
    needA (v.b.tray.length < 64) .hold
    modA fun s =>
      let regs := ((s.grp? v.u).bind (·.threads[0]?)).elim [] (·.regs)
      let s := s.modBlk v.u.blk fun b => { b with tray := b.tray ++ [x.w 0], bcast := (regs.take 8).map fun r => ⟨r.v, r.p⟩ }
      if x.psn then s.modThread v.u x.lane (·.setFlags fPSN) else s
    done v) v) s
/-- A group is live for the token: some thread lives and it is not benched (R167). -/
def Block.tokenLive (b : Block) (g : Nat) : Bool :=
  match b.groups[g]? with
  | some x => !x.gone && (match x.stat with | .benched .. => false | _ => true)
  | none => false
/-- Where PTOK's target sends the token (R198). -/
def Block.giveToken (b : Block) (t : Nat) : Block :=
  { b with token := if b.tokenLive t then some t else b.nextLive (min t (b.groups.length - 1)) }
/-- PTOK (R198). DESIGN CHOICE, log 86: `next` without a holder, whose token has lapsed, counts from group 0. -/
def execPtok (w : WI) (s : State) : Host.Outcome State Fault Refusal :=
  runUnit (fun v =>
    let next := w.imm.getLsbD 5
    let reg := !next && w.a != 511#9
    elected w.g { src := if reg then [⟨w.a, 1, w.eta, false⟩] else [] } [0] (fun _ x => do
      modA fun s => s.modBlk v.u.blk fun b =>
        let t := if next then (b.token.map (· + 1)).getD 0 else if reg then (x.w 0).v.toNat % 32 else w.imm.toNat % 32
        if v.front || b.token = some v.u.grpNo then b.giveToken t else b
      done v) v) s
/-- The first variant whose BOUND is at or above a size (R175). -/
def KDesc.pick (k : KDesc) (size : Nat) : Option Nat := (k.vars.findIdx? fun v => decide (size ≤ v.bound))
def execSsel (w : WI) (s : State) : Host.Outcome State Fault Refusal :=
  runUnit (fun v => elected w.g { src := [⟨w.a, 2, w.eta, false⟩], dst := some ⟨w.d, 1⟩ } [0] (fun ls x => do
    let s ← get
    match (s.grid? v.b.grid).bind fun g => g.kd.pick (x.d 0).toNat with
    | some k =>
      set (s.modGrid v.b.grid fun g => { g with var := k })
      writeAll v ⟨w.d, 1⟩ ls [⟨BitVec.ofNat 32 k, false⟩]
    | none => writeAll v ⟨w.d, 1⟩ ls [⟨0xFFFFFFFF, false⟩]
    done v) v) s

end Sys2Proof.Machine
end

