-- ==== Sys2Proof/Machine/Tasks.lean ====
section
/-! DEFINITION. Stage channels, range tasks and grid results (spec/07 R200-R210; spec/15 R386). -/

namespace Sys2Proof.Machine

/-! ## Stage channels (R200-R202) -/

/-- The channel a block sends to or receives from: the lower stage of its pair, where both stages exist. -/
def chanStage (send up : Bool) (stage stages : Nat) : Option Nat :=
  if send != up then (if stage + 1 < stages then some stage else none)
  else if stage = 0 then none else some (stage - 1)
/-- Spatial block index (R150). -/
def spatialOf (g : Grid) (b : Block) : Nat := b.idx / max 1 g.kd.stages
def State.chanOf (s : State) (grid spatial stage : Nat) (up : Bool) : List PWord :=
  ((s.chans.find? fun c => c.grid == grid && c.spatial == spatial && c.stage == stage && c.up == up).map (·.q)).getD []
def State.setChan (s : State) (grid spatial stage : Nat) (up : Bool) (q : List PWord) : State :=
  { s with chans := ⟨grid, spatial, stage, up, q⟩ :: s.chans.filter fun c => !(c.grid == grid && c.spatial == spatial && c.stage == stage && c.up == up) }
/-- The lower stage of the channel that the instruction names; none is an illegal operand (R201). -/
def chanFor (v : View) (send up : Bool) (s : State) : Option (Nat × Nat) :=
  (s.grid? v.b.grid).bind fun g => (chanStage send up v.b.stage g.kd.stages).map fun k => (spatialOf g v.b, k)
/-- The block of a stage at the sender's spatial position has been admitted (R173, R201). -/
def State.stageIn (s : State) (b : Block) (stage : Nat) : Bool :=
  (s.grid? b.grid).elim false fun g => decide (stage < g.stagesIn b.cluster)
def execChsend (w : WA) (up : Bool) (s : State) : Host.Outcome State Fault Refusal :=
  runUnit (fun v => do
    let x : Uses := { src := [srcA w] }
    match chanFor v true up (← get) with
    | none => faultA fcIllOpnd
    | some (sp, k) =>
      needA (v.legal x) (.fault fcIllOpnd 0 0 0)
      let ls := v.active w.g
      released v ls
      match readAll v ls x (← get) with
      | .error e => throw e
      | .ok (ins, s') =>
        let q := s'.chanOf v.b.grid sp k up
        needA (ins = [] || (decide (q.length + ins.length ≤ 1024) && s.stageIn v.b (if up then v.b.stage - 1 else v.b.stage + 1))) .hold
        let s := if ins = [] then s' else s'.setChan v.b.grid sp k up (q ++ ins.map (·.w 0))
        set (ins.foldl (fun s i => if i.psn then s.modThread v.u i.lane (·.setFlags fPSN) else s) s)
        done v) s
def execChrecv (w : WA) (up : Bool) (s : State) : Host.Outcome State Fault Refusal :=
  runUnit (fun v => do
    let d : Dest := ⟨w.d, 1⟩
    let s ← get
    match chanFor v false up s with
    | none => faultA fcIllOpnd
    | some (sp, k) =>
      needA (v.b.dstOk v.front d) (.fault fcIllOpnd 0 0 0)
      let ls := v.active w.g
      let q := s.chanOf v.b.grid sp k up
      needA (decide (ls.length ≤ q.length) && !(ls.any fun l => dstBusy s v.u l d)) .hold
      match opKind d.f with
      | .port p => needA (ls = [] || !(pushBusy s v.u p ls ls.length)) .hold
      | _ => pure ()
      let s := if ls = [] then s else s.setChan v.b.grid sp k up (q.drop ls.length)
      set ((ls.zip q).foldl (fun s e =>
        let s := writeDst s v.u e.1 d [e.2.taken]
        if e.2.p then s.modThread v.u e.1 (·.setFlags fPSN) else s) s)
      done v) s

/-! ## Range tasks (R203-R207) -/

/-- Writes a block's entry of the grid result table (R386). -/
def State.grtWrite (s : State) (g : Grid) (idx : Nat) (w st : Nat) : State :=
  if g.grt = 0 then s else s.devWrite g.ctx (g.grt + 8 * idx) (leBytes 4 w ++ leBytes 1 st ++ zerosB 3)
/-- Writes a block's state there and leaves its result word (R454). -/
def State.grtState (s : State) (g : Grid) (idx st : Nat) : State :=
  if g.grt = 0 then s else s.devWrite g.ctx (g.grt + 8 * idx + 4) (leBytes 1 st ++ zerosB 3)
def Grid.setRes (g : Grid) (idx : Nat) (r : Res) : Grid := { g with results := assocSet g.results idx r }
/-- Records in the task table of a context, over its range grids (R203). -/
def State.tasksOf (s : State) (ctx : Nat) : List RangeRec := (s.grids.filter fun g => g.ctx == ctx && g.kind == .range).flatMap (·.recs)
/-- A new record with a new block, which takes the next number (R205, R206); its result entry starts as pending. DESIGN CHOICE, log 84: %nblocks of a range task is the number of blocks created so far. -/
def State.newRange (s : State) (grid lo hi grain : Nat) : State :=
  match s.grid? grid with
  | none => s
  | some g =>
    let i := g.created
    (s.modGrid grid fun g => { g with
      created := i + 1, nblocks := i + 1,
      recs := g.recs ++ [⟨i, lo, hi, max 1 grain, true, true⟩] }).grtWrite g i 0 0
def execRtlaunch (w : WA) (s : State) : Host.Outcome State Fault Refusal :=
  runUnit (fun v => elected w.g { src := [srcA w 2, srcB w 2, srcC w] } [0, 1, 2] (fun ls x => do
    let s ← get
    match s.grid? v.b.grid with
    | none => idleA
    | some g =>
      needA (g.kind == .range) (.fault fcTask 0 (ls.headD 0) 0)
      let lo := (x.d 0).toNat; let hi := (x.d 1).toNat
      if lo < hi then
        needA ((s.tasksOf g.ctx).length < 1024) .hold
        set (s.newRange v.b.grid lo hi (x.w 2).v.toNat)
      done v) v) s
/-- RTCLAIM on the block's own record (R204). -/
def execRtclaim (w : WA) (pd : PNum) (s : State) : Host.Outcome State Fault Refusal :=
  runUnit (fun v => elected w.g { src := [srcA w], dst := some ⟨w.d, 4⟩ } [0] (fun ls x => do
    let s ← get
    match s.grid? v.b.grid with
    | none => idleA
    | some g =>
      needA (g.kind == .range) (.fault fcTask 0 (ls.headD 0) 0)
      match g.recs.find? fun r => r.idx == v.b.idx && decide (r.lo < r.hi) with
      | some r =>
        let c := min (max 1 (x.w 0).v.toNat) (r.hi - r.lo)
        let lo := BitVec.ofNat 64 r.lo
        writeAll v ⟨w.d, 4⟩ ls [⟨lo32 lo, false⟩, ⟨hi32 lo, false⟩, ⟨BitVec.ofNat 32 c, false⟩, ⟨0, false⟩]
        modA fun s => s.modGrid v.b.grid fun g => { g with recs := g.recs.map fun y => if y.idx = r.idx then { y with lo := r.lo + c } else y }
        predAll v pd ls true
      | none => predAll v pd ls false
      done v) v) s

/-! ## Grid results (R208-R210) -/

def execGsig (w : WA) (s : State) : Host.Outcome State Fault Refusal :=
  runUnit (fun v => elected w.g { src := [srcA w] } [] (fun ls x => do
    match (← get).grid? v.b.grid with
    | none => idleA
    | some g =>
      needA (g.grt != 0) (.fault fcGwait 0 (ls.headD 0) 0)
      released v ls
      let a := x.w 0
      modA fun s =>
        let s := (s.modGrid v.b.grid (·.setRes v.b.idx (.signalled ⟨if a.p then 0 else a.v, a.p⟩))).grtWrite g v.b.idx (if a.p then 0 else a.v.toNat) 1
        if a.p then s.modThread v.u x.lane (·.setFlags fPSN) else s
      done v) v) s
/-- What a GWAIT writes for a block's state (R209). -/
def Res.pair : Res → Option (List PWord)
  | .pending => none
  | .signalled w => some [w, ⟨0, false⟩]
  | .skipped => some [⟨0, false⟩, ⟨1, false⟩]
  | .ended => some [⟨0, false⟩, ⟨2, false⟩]
def Grid.resOf (g : Grid) (idx : Nat) : Res := assocGet g.results idx .pending
def execGwait (w : WA) (s : State) : Host.Outcome State Fault Refusal :=
  runUnit (fun v => elected w.g { src := [srcA w], dst := some ⟨w.d, 2⟩ } [0] (fun ls x => do
    match (← get).grid? v.b.grid with
    | none => idleA
    | some g =>
      let a := (x.w 0).v.toNat
      needA (g.grt != 0 && decide (a < g.nblocks) && a != v.b.idx) (.fault fcGwait 0 (ls.headD 0) 0)
      match (g.resOf a).pair with
      | none => throw (.gwait a)
      | some ws =>
        writeAll v ⟨w.d, 2⟩ ls ws
        done v) v) s

end Sys2Proof.Machine
end

