-- ==== Sys2Proof/Machine/Access.lean ====
section
/-! DEFINITION. What memory accesses of lanes share: addresses, the checks of R242, translation faults, store queues and channels, and the fills (spec/08 R214-R236; spec/09 R240-R249; spec/10 R266-R277). -/

namespace Sys2Proof.Machine

def Width.bytes : Width → Nat
  | .w1 => 1 | .w2 => 2 | .w4 => 4 | .w8 => 8 | .w16 => 16
/-- Registers of a DATA group (R247). -/
def Width.words (w : Width) : Nat := max 1 (Width.bytes w / 4)
/-- At thread scope an order field has no effect (R274). -/
def ordOf (w : WM) : Order := if w.scope = .thread then .plain else w.ord
def acqs : Order → Bool | .acquire | .acqRel => true | _ => false
def rels : Order → Bool | .release | .acqRel => true | _ => false
/-- OFS, sign extended (R214). -/
def ofsOf (w : WM) (n : Nat) : BitVec n := w.ofs.signExtend n
/-- A lane with the address it computed. -/
structure LaneAt where
  x : LaneIn
  a : Nat
  deriving DecidableEq, Repr
/-- BASE is the last source: a word in the shared and spill spaces, a pair in the scratchpad (R214). -/
def laneAddr (w : WM) (scr : Bool) (x : LaneIn) : Nat :=
  let ws := (x.src.getLast?).getD []
  let b (i : Nat) : Word := (ws.getD i ⟨0, false⟩).v
  if scr then (pairOf (b 0) (b 1) + ofsOf w 64).toNat % 2 ^ 56 else (b 0 + ofsOf w 32).toNat

/-! ## The order of a thread's accesses -/

/-- The thread's accesses issued and not performed, none for a lane that is not there. -/
def View.unpOf (v : View) (l : Nat) : List Nat := (v.thread l).elim [] (·.unp)

/-- A memory instruction over the active lanes: legality, order holds, one read of all sources, and the retirement of lanes whose BASE (or, with `all`, any source) is poisoned (R243), before the body. A hold or a recoverable page fault of the body leaves everything as it was (R22, R32, R237); a halting fault leaves those lanes retired, for they were so before the checks that raised it. -/
def memIssue (w : WM) (x : Uses) (legal all : Bool) (body : List LaneIn → Act Unit) (v : View) : Act Unit := do
  needA (v.legal x && legal) (.fault fcIllOpnd 0 0 0)
  let ls := v.active w.g
  if ls = [] then done v else
  let s ← get
  needA (s.lanesReady v.u ls) .hold
  match readAll v ls x s with
  | .error e => throw e
  | .ok (ins, s') =>
    let isBad (i : LaneIn) : Bool := if all then i.psn else ((i.src.getLast?).getD []).any (·.p)
    let (bad, good) := ins.partition isBad
    if bad = [] then
      set s'
      body good
    else
      let out (s : State) : State := (bad.foldl (fun s i => s.retire v.u i.lane) s).afterExit v.u.blk
      match body good (out s') with
      | .ok (_, t) => set t
      | .error (.fault code fa lane info) => set ((out s).stopUnit v (.fault code fa lane info))
      | .error e => throw e

/-! ## The checks of R242 -/

/-- The first lane that fails raises the fault with its address. -/
def checkLanes (as : List LaneAt) (ok : Nat → Bool) (code : Nat) : Act Unit :=
  match as.find? fun l => !ok l.a with
  | some l => faultA code l.a l.x.lane
  | none => pure ()
def checkShared (v : View) (as : List LaneAt) (n : Nat) : Act Unit := do
  checkLanes as (fun a => a % n == 0) fcMisalign
  checkLanes as (fun a => v.b.inDecl a n || v.b.inShelf a n) fcRange
/-- The checks of a spill access (R222, R242). DESIGN CHOICE, log 58: where SPILL is no multiple of 128 a thread has SPILL/32 bytes, rounded down. -/
def checkSpill (v : View) (as : List LaneAt) (n : Nat) : Act Unit := do
  checkLanes as (fun a => a % n == 0) fcMisalign
  checkLanes as (fun a => decide (a + n ≤ v.b.spill / 32)) fcRange
/-- A leaf that no lane access may take (R236 step 1). -/
def State.tierBad (s : State) (l : Leaf) : Bool :=
  !(l.tier == 3 || l.tier == 5) || decide (scrBytes ≤ l.pa) || (l.tier == 5 && !s.numbered.contains l.pkg)
/-- Translates every lane's address, with the faults of R236. -/
def translate (v : View) (as : List LaneAt) (n : Nat) (write : Bool) : Act (List (LaneAt × Leaf)) := do
  checkLanes as (fun a => a % n == 0) fcMisalign
  let s ← get
  let ts := as.map fun a => (a, s.xlate v.b.core v.b.ctx (BitVec.ofNat 56 a.a))
  match ts.find? fun t => t.2.elim false s.tierBad with
  | some t => faultA fcTier t.1.a t.1.x.lane
  | none =>
  match ts.find? fun t => t.2.elim false fun l => write && !l.w with
  | some t => faultA fcProt t.1.a t.1.x.lane
  | none =>
  match ts.find? fun t => t.2.isNone with
  | some t => throw (.page (BitVec.ofNat 56 t.1.a) t.1.x.lane)
  | none => pure (ts.filterMap fun t => t.2.map fun l => (t.1, l))
/-- Every touched line is present (R221). -/
def presentAll (v : View) (as : List LaneAt) (n : Nat) : Act Unit := needA (as.all fun a => v.b.present a.a n) .hold

/-! ## Store queues -/

/-- Bytes k to k+n-1 and bytes j to j+m-1 share a byte. -/
def overlap (k n j m : Nat) : Bool := decide (k < j + m ∧ j < k + n)
/-- A queued store writes some of the bytes (R270). -/
def SqOp.stores (o : SqOp) (k n : Nat) : Bool :=
  match o with
  | .store j bs => overlap k n j bs.length
  | .spill ps => ps.any fun p => overlap k n p.1 p.2.length
  | .chan e => match e.op with | .store j bs => overlap k n j bs.length | _ => false
  | _ => false
/-- A load holds while its own queue stores to a byte it reads (R270). -/
def View.sqFree (v : View) (k n : Nat) : Bool := v.g.sq.all fun e => !e.op.stores k n
/-- An access enters UNP(t). -/
def State.addUnp (s : State) (u : UnitRef) (l id : Nat) : State := s.modThread u l fun t => { t with unp := t.unp ++ [id] }
/-- The accesses that a command awaits have been performed (R278). -/
def State.preDone (s : State) (ps : List CmdPre) : Bool :=
  ps.all fun p => match (s.grp? p.u).bind (·.threads[p.lane]?) with
    | some t => !(p.ids.any t.unp.contains)
    | none => true
/-- A bind of one of the lanes to the home, issued before the number given, has not left its threads. -/
def pathHolds (ps : List PathMsg) (u : UnitRef) (ls : List Nat) (home id : Nat) : Bool :=
  ps.any fun q => decide (q.id < id) && q.u == u && q.m.home == home && q.lanes.any ls.contains
/-- Every bind that awaits nothing more leaves its threads for its channel, those of one thread and home in program order (R278, R474). -/
def State.bindsLeave (s : State) : State :=
  s.hpath.foldl (fun s q =>
    if s.preDone q.pre && !pathHolds s.hpath q.u q.lanes q.m.home q.id then { s with hc := s.hc ++ [q.m], hpath := s.hpath.filter (·.id != q.id) } else s) s
/-- An access leaves UNP(t): it is performed, and a bind that waited for it goes on its way. -/
def State.dropUnp (s : State) (u : UnitRef) (l id : Nat) : State := (s.modThread u l fun t => { t with unp := t.unp.filter (· != id) }).bindsLeave
/-- The accesses an entry awaits: those before a release, and those before the thread's last release fence (R275, R277). -/
def State.preOf (s : State) (u : UnitRef) (l : Nat) (rel : Bool) : List Nat :=
  match (s.grp? u).bind (·.threads[l]?) with
  | some t => if rel then t.unp else t.relf.filter t.unp.contains
  | none => []
/-- A strongly ordered entry goes before the first entry that a release may hold (R273). -/
def sqInsert (so : Bool) (e : SqEnt) (q : List SqEnt) : List SqEnt :=
  if so then (q.takeWhile (·.pre == [])) ++ e :: q.dropWhile (·.pre == []) else q ++ [e]
/-- Appends an entry to SQ(g); a release also holds the thread's later engine commands (R278). -/
def State.enqueue (s : State) (u : UnitRef) (l : Nat) (rel so : Bool) (op : Nat → SqOp) : State :=
  let (id, s) := s.fresh
  let pre := if so then [] else s.preOf u l rel
  let s := if rel && !so then s.modThread u l fun t => { t with relf := t.unp } else s
  let s := s.modGrp u fun g => { g with sq := sqInsert so ⟨id, l, pre, op id⟩ g.sq }
  let s := s.addUnp u l id
  if so then s.modThread u l fun t => { t with sow := t.sow ++ [id] } else s
/-- An acquire-release atomic holds its thread until it is performed (R275). -/
def State.atomHolds (s : State) (u : UnitRef) (l id : Nat) : State := s.modThread u l fun t => { t with arw := t.arw.filter t.unp.contains ++ [id] }
/-- A thread remembers an acquire access (R275). -/
def State.acquire (s : State) (u : UnitRef) (l id : Nat) : State := s.modThread u l fun t => { t with acqw := t.acqw.filter t.unp.contains ++ [id] }

/-! ## Returned words -/

/-- The words of loaded bytes with their poison: widths 1 and 2 are extended to 32 bits, with sign where `sx` gives the width (R248, R243). -/
def wordsOf (bs : List Byte) (psn : Nat → Bool) (sx : Nat) : List PWord :=
  if bs.length < 4 then
    let x := leNat bs
    let y := if sx = 1 ∧ 128 ≤ x then x + 0xFFFFFF00 else if sx = 2 ∧ 32768 ≤ x then x + 0xFFFF0000 else x
    [⟨BitVec.ofNat 32 y, psn 0⟩]
  else (List.range (bs.length / 4)).map fun i => ⟨BitVec.ofNat 32 (leNat ((bs.drop (4 * i)).take 4)), psn i⟩
/-- The sign-extension code of a load. -/
def sxCode (w : WM) (sx : Bool) : Nat := if sx then Width.bytes w.wid else 0
/-- Bytes and poison of a memory word as words. -/
def State.loadWords (s : State) (k n sx : Nat) : List PWord := wordsOf (s.rd k n) (fun i => s.psnAt (k + 4 * i) (min n 4)) sx
/-- Reserves places of a ring (R501). -/
def Block.reserve (b : Block) (q n : Nat) : Block :=
  { b with rings := b.rings.map fun x => if x.1 = q then (q, { x.2 with tail := x.2.tail + n, unwritten := x.2.unwritten ++ (List.range n).map (x.2.tail + ·) }) else x }
/-- Registers go empty, or hold readers where the access has a fixed latency (R22, R219, R225). -/
def Thread.await (t : Thread) (r n : Nat) (av : Avail) : Thread :=
  { t with regs := (List.range n).foldl (fun rs i => rs.modify (r + i) fun x => { x with av := av }) t.regs }
/-- Where a lane's returned words will go, with the registers marked or the places taken. -/
def State.destFor (s : State) (u : UnitRef) (l : Nat) (f : Opnd) (n sx : Nat) (av : Avail) : Dst × State :=
  match opKind f with
  | .reg r => (.regs r n sx, s.modThread u l (·.await r n av))
  | .port q =>
    let t := ((s.blk? u.blk).bind (·.ring? q)).elim 0 (·.tail)
    (.port q ((List.range n).map (t + ·)) sx, s.modBlk u.blk (·.reserve q n))
  | _ => (.none, s)
def Dst.sx : Dst → Nat
  | .regs _ _ x => x
  | .port _ _ x => x
  | .none => 0
/-- Writes reserved places of a ring; places below its head are of a ring that QCFG has replaced. -/
def State.writePlaces (s : State) (blk q : Nat) (ps : List Nat) (ws : List PWord) : State :=
  (ps.zip ws).foldl (fun s x =>
    match (s.blk? blk).bind (·.ring? q) with
    | none => s
    | some r =>
      if !r.unwritten.contains x.1 then s else
      let k := kShared blk (r.place x.1)
      let s := s.wr k (leBytes 4 x.2.v.toNat)
      let s := if x.2.p then s.markWord k else s
      s.modBlk blk fun b => { b with rings := b.rings.map fun y => if y.1 = q then (q, { y.2 with unwritten := y.2.unwritten.filter (· != x.1) }) else y }) s
/-- A fill writes its registers, full and with the words' poison (R25); a thread that has exited takes none (R121). -/
def State.fillNow (s : State) (u : UnitRef) (l : Nat) (d : Dst) (ws : List PWord) : State :=
  match d with
  | .none => s
  | .regs r _ _ => s.modThread u l fun t => if t.live then t.setRegs r ws else t
  | .port q ps _ => s.writePlaces u.blk q ps ws
/-- Words that a load took at issue (R269): a register takes them at once; at a port they take places now and fill them when they are delivered (R501), which an acquire load awaits (R275). -/
def State.deliverAt (s : State) (u : UnitRef) (l : Nat) (f : Opnd) (ws : List PWord) (acq : Bool) : State :=
  match opKind f with
  | .port _ =>
    let (id, s) := s.fresh
    let (d, s) := s.destFor u l f ws.length 0 .full
    let s := if acq then s.acquire u l id else s
    { s with fills := s.fills ++ [⟨id, u, l, d, ws⟩] }
  | _ => writeDst s u l ⟨f, ws.length⟩ ws
/-- Loads that name a port, and BBARV whose token goes to one, need its room (R32, R501). -/
def portRoom (v : View) (f : Opnd) (ls : List Nat) (n : Nat) : Act Unit := do
  match opKind f with
  | .port q => needA (n = 0 || !(pushBusy (← get) v.u q ls n)) .hold
  | _ => pure ()

/-! ## Atomics (R250, R252) -/

/-- The new value of ATOM on `w` bytes. -/
def atomNew (op : AtomOp) (w old x : Nat) : Nat :=
  let m := 2 ^ (8 * w)
  let sg (a : Nat) : Int := if 2 * a < m then a else (a : Int) - m
  match op with
  | .add => (old + x) % m
  | .minS => if sg x < sg old then x else old
  | .minU => min old x
  | .maxS => if sg old < sg x then x else old
  | .maxU => max old x
  | .and => old &&& x
  | .or => old ||| x
  | .xor => old ^^^ x
  | .exch => x
/-- An atomic at its home point: the old words and the memory after it. -/
def State.atomAt (s : State) (k w : Nat) (f : Nat → Nat) : List PWord × State :=
  let old := leNat (s.rd k w)
  (s.loadWords k w 0, s.wr k (leBytes w (f old)))
/-- Performs what an OC or SQ entry carries: the returned words and the memory after it. DESIGN CHOICE, log 85: an access of 16 bytes is one step too, although R244 lets its halves come apart. -/
def OcOp.perform (o : OcOp) (sx : Nat) (s : State) : List PWord × State :=
  match o with
  | .load k n => (s.loadWords k n sx, s)
  | .store k bs => ([], s.wr k bs)
  | .atom k w op x => s.atomAt k w fun old => atomNew op w old x
  | .cas k w e n =>
    -- a compare that fails writes nothing
    if leNat (s.rd k w) = e then s.atomAt k w (fun _ => n) else (s.loadWords k w 0, s)
/-- Words the access would return. -/
def OcOp.retWords : OcOp → Nat
  | .load _ n => max 1 (n / 4)
  | .store .. => 0
  | .atom _ w _ _ => w / 4
  | .cas _ w _ _ => w / 4

end Sys2Proof.Machine
end

