-- ==== Sys2Proof/Machine/MemInstr.lean ====
section
/-! DEFINITION. Loads, stores, atomics, fences, presence bits, byte barriers and timeline counters (spec/09 R247-R264; spec/10 R269-R279). -/

namespace Sys2Proof.Machine

/-! ## Loads -/

def mSrc (f : Opnd) (n : Nat) : Src := ⟨f, n, false, false⟩
def Width.n (w : WM) : Nat := Width.bytes w.wid
/-- Loads of the shared or spill space, performed at issue (R269). `key` gives a lane's pieces: keys with lengths. -/
def loadNow (w : WM) (sx : Bool) (check : List LaneAt → Act Unit) (key : LaneAt → List (Nat × Nat)) (v : View) : Act Unit :=
  let n := Width.n w
  let nw := Width.words w.wid
  memIssue w { src := [mSrc w.base 1], dst := some ⟨w.data, nw⟩ } true false (fun ins => do
    let as := ins.map fun x => (⟨x, laneAddr w false x⟩ : LaneAt)
    check as
    needA (as.all fun a => (key a).all fun p => v.sqFree p.1 p.2) .hold
    portRoom v w.data (as.map (·.x.lane)) (nw * as.length)
    modA fun s => as.foldl (fun s a =>
      let ws := if n < 4 then s.loadWords ((key a).headD (0, 0)).1 n (sxCode w sx) else (key a).flatMap fun p => s.loadWords p.1 p.2 0
      s.deliverAt v.u a.x.lane w.data ws (acqs (ordOf w))) s
    done v) v
/-- Pieces of a spill access: rows of 4 bytes (R222). -/
def spillPieces (v : View) (l o n : Nat) : List (Nat × Nat) :=
  (List.range (max 1 (n / 4))).map fun i => (kSpill v.u.blk v.u.grpNo (spillByte (o + 4 * i) l), min n 4)
def execLds (w : WM) (sx : Bool) (s : State) : Host.Outcome State Fault Refusal :=
  runUnit (fun v => loadNow w sx (fun as => do
    checkShared v as (Width.n w)
    presentAll v as (Width.n w)) (fun a => [(kShared v.u.blk a.a, Width.n w)]) v) s
def execLdk (w : WM) (sx : Bool) (s : State) : Host.Outcome State Fault Refusal :=
  runUnit (fun v => loadNow w sx (fun as => checkSpill v as (Width.n w)) (fun a => spillPieces v a.x.lane a.a (Width.n w)) v) s
/-- The slice beside the issuing core, reached through the scratchpad tier (R225). -/
def View.local (v : View) (l : Leaf) : Bool := l.tier == 3 && l.pa / 2 ^ 21 == v.b.core
/-- Accesses of a split's lanes in rising order; a strongly ordered one is given the number of the strongly ordered one before it, which it follows (R234, R273). -/
def laneChain (ts : List (LaneAt × Leaf)) (f : State → LaneAt × Leaf → Option Nat → State) (s : State) : State :=
  (ts.foldl (fun (a : State × Option Nat) t =>
    let r := f a.1 t (if t.2.ord then a.2 else none)
    (r, if t.2.ord && a.1.nextId < r.nextId then some a.1.nextId else a.2)) (s, none)).1
/-- A load of the scratchpad: a request in the channel to the slice (R269); a register is on its way until it is filled (R225, R226). -/
def execLdp (w : WM) (sx : Bool) (s : State) : Host.Outcome State Fault Refusal :=
  runUnit (fun v =>
    let n := Width.n w
    let nw := Width.words w.wid
    memIssue w { src := [mSrc w.base 2], dst := some ⟨w.data, nw⟩ } true false (fun ins => do
      let as := ins.map fun x => (⟨x, laneAddr w true x⟩ : LaneAt)
      let ts ← translate v as n false
      let s ← get
      needA (ts.all fun t => (!t.2.ord || v.unpOf t.1.x.lane == []) && v.sqFree (s.leafKey t.2) n) .hold
      portRoom v w.data (ts.map (·.1.x.lane)) (nw * ts.length)
      modA (laneChain ts fun s t prev =>
        let l := t.1.x.lane
        let (id, s) := s.fresh
        let (d, s) := s.destFor v.u l w.data nw (sxCode w sx) (if v.local t.2 then .inFlight else .empty)
        let s := { s with oc := s.oc ++ [(⟨id, v.b.core, s.leafSlice t.2, v.u, l, d, .load (s.leafKey t.2) n, prev⟩ : OcEnt)] }
        let s := if (acqs (ordOf w)) then s.acquire v.u l id else s
        let s := if t.2.ord then s.modThread v.u l fun t => { t with sow := t.sow ++ [id] } else s
        s.addUnp v.u l id)
      done v) v) s

/-! ## Stores -/

/-- The bytes a lane stores: DATA is the first source (R248). -/
def dataBytes (x : LaneIn) (n : Nat) : List Byte := ((x.src.headD []).flatMap fun w => leBytes 4 w.v.toNat).take n
def dataPsn (x : LaneIn) : Bool := (x.src.headD []).any (·.p)
/-- A store with poisoned data writes nothing and is counted (R28, R243). -/
def State.dropStore (s : State) (v : View) (l : Nat) : State := (s.modThread v.u l (·.setFlags fPSN)).bump v.b.ctx 2 1
/-- Stores of the shared or spill space go to SQ(g) (R269). DESIGN CHOICE, log 55: where DATA and BASE both name ports, each lane takes DATA's entries before BASE's; the same holds for every store and barrier instruction. -/
def storeNow (w : WM) (check : List LaneAt → Act Unit) (op : LaneAt → List Byte → SqOp) (v : View) : Act Unit :=
  let n := Width.n w
  memIssue w { src := [mSrc w.data (Width.words w.wid), mSrc w.base 1] } true false (fun ins => do
    let as := ins.map fun x => (⟨x, laneAddr w false x⟩ : LaneAt)
    check as
    modA fun s => as.foldl (fun s a =>
      if dataPsn a.x then s.dropStore v a.x.lane
      else s.enqueue v.u a.x.lane (rels (ordOf w)) false fun _ => op a (dataBytes a.x n)) s
    done v) v
def execSts (w : WM) (s : State) : Host.Outcome State Fault Refusal :=
  runUnit (fun v => storeNow w (fun as => do
    checkShared v as (Width.n w)
    presentAll v as (Width.n w)) (fun a bs => .store (kShared v.u.blk a.a) bs) v) s
def execStk (w : WM) (s : State) : Host.Outcome State Fault Refusal :=
  runUnit (fun v => storeNow w (fun as => checkSpill v as (Width.n w)) (fun a bs =>
    .spill ((spillPieces v a.x.lane a.a (Width.n w)).zipIdx.map fun p => (p.1.1, (bs.drop (4 * p.2)).take 4))) v) s
def execStp (w : WM) (s : State) : Host.Outcome State Fault Refusal :=
  runUnit (fun v =>
    let n := Width.n w
    memIssue w { src := [mSrc w.data (Width.words w.wid), mSrc w.base 2] } true false (fun ins => do
      let as := ins.map fun x => (⟨x, laneAddr w true x⟩ : LaneAt)
      let ts ← translate v as n true
      needA (ts.all fun t => !t.2.ord || v.unpOf t.1.x.lane == []) .hold
      modA (laneChain ts fun s t prev =>
        let l := t.1.x.lane
        if dataPsn t.1.x then s.dropStore v l
        else s.enqueue v.u l (rels (ordOf w)) t.2.ord fun id =>
          .chan ⟨id, v.b.core, s.leafSlice t.2, v.u, l, .none, .store (s.leafKey t.2) (dataBytes t.1.x n), prev⟩)
      done v) v) s

/-! ## Atomics -/

/-- What a lane's atomic does at a key, from its DATA words. -/
def atomOf (op : AtomOp) (n : Nat) (k : Nat) (x : LaneIn) : OcOp := .atom k n op (leNat (dataBytes x n))
def casOf (n : Nat) (k : Nat) (x : LaneIn) : OcOp :=
  let bs := dataBytes x (2 * n)
  .cas k n (leNat (bs.take n)) (leNat (bs.drop n))
/-- A dropped atomic poisons the registers that would have received the old value (R243). -/
def State.dropAtom (s : State) (v : View) (l : Nat) (f : Opnd) (n : Nat) : State :=
  writeDst (s.dropStore v l) v.u l ⟨f, n⟩ (List.replicate n ⟨0, true⟩)
/-- ATOM and ACAS; after FENCE.rel a shared one waits for what the fence stands behind (R255, R277): `nd` words of DATA are read, the first `nr` of them receive the old value. -/
def atomic (w : WM) (sp : ASpace) (nd nr : Nat) (op : Nat → LaneIn → OcOp) (v : View) : Act Unit :=
  let n := Width.n w
  let scr := sp == .scratch
  memIssue w { src := [mSrc w.data nd, mSrc w.base (if scr then 2 else 1)] } (v.b.rwOk v.front w.data nd) false (fun ins => do
    let as := ins.map fun x => (⟨x, laneAddr w scr x⟩ : LaneAt)
    let o := ordOf w
    match sp with
    | .shared =>
      checkShared v as n
      let s ← get
      needA (v.g.sq == [] && as.all fun a => (!rels o || v.unpOf a.x.lane == []) && s.preOf v.u a.x.lane false == []) .hold
      presentAll v as n
      modA fun s => as.foldl (fun s a =>
        if dataPsn a.x then s.dropAtom v a.x.lane w.data nr
        else
          let (ws, s) := (op (kShared v.u.blk a.a) a.x).perform 0 s
          writeDst s v.u a.x.lane ⟨w.data, nr⟩ ws) s
    | .scratch =>
      let ts ← translate v as n true
      needA (ts.all fun t => !(t.2.ord || o == .acqRel) || v.unpOf t.1.x.lane == []) .hold
      modA (laneChain ts fun s t prev =>
        let l := t.1.x.lane
        if dataPsn t.1.x then s.dropAtom v l w.data nr
        else
          let (d, s) := s.destFor v.u l w.data nr 0 .empty
          let id := s.nextId
          let s := s.enqueue v.u l (rels o) t.2.ord fun id => .chan ⟨id, v.b.core, s.leafSlice t.2, v.u, l, d, op (s.leafKey t.2) t.1.x, prev⟩
          let s := if acqs o then s.acquire v.u l id else s
          if o = .acqRel then s.atomHolds v.u l id else s)
    done v) v
def execAtom (w : WM) (sp : ASpace) (op : AtomOp) (s : State) : Host.Outcome State Fault Refusal :=
  runUnit (fun v => atomic w sp (Width.words w.wid) (Width.words w.wid) (atomOf op (Width.n w)) v) s
def execAcas (w : WM) (sp : ASpace) (s : State) : Host.Outcome State Fault Refusal :=
  runUnit (fun v => atomic w sp (2 * Width.words w.wid) (Width.words w.wid) (casOf (Width.n w)) v) s

/-! ## FENCE (R255, R277) -/

/-- Loads and atomics of a thread that have not written their destinations. -/
def State.loadsOut (s : State) (u : UnitRef) (l : Nat) : Bool :=
  let ret (o : OcOp) : Bool := match o with | .store .. => false | _ => true
  s.fills.any (fun f => f.u == u && f.lane == l) ||
  s.oc.any (fun e => e.u == u && e.lane == l && ret e.op) ||
  ((s.grp? u).elim [] (·.sq)).any fun e => e.lane == l && (match e.op with | .chan c => ret c.op | _ => false)
def execFence (w : WM) (s : State) : Host.Outcome State Fault Refusal :=
  runUnit (fun v => do
    let ls := v.active w.g
    let s ← get
    match ordOf w with
    | .plain => pure ()
    | .acquire => needA (!(ls.any fun l => s.loadsOut v.u l)) .hold
    | .release => set (ls.foldl (fun s l => s.modThread v.u l fun t => { t with relf := t.unp }) s)
    | .acqRel => needA (ls.all fun l => v.unpOf l == [] && v.g.sq.all fun e => e.lane != l) .hold
    done v) s

/-! ## Presence bits (R256, R257) -/

def execPresw (w : WM) (set : Bool) (s : State) : Host.Outcome State Fault Refusal :=
  runUnit (fun v => memIssue w { src := [mSrc w.base 1] } true false (fun ins => do
    let as := ins.map fun x => (⟨x, laneAddr w false x⟩ : LaneAt)
    checkShared v as 1
    modA fun s => as.foldl (fun s a => s.enqueue v.u a.x.lane (rels (ordOf w)) false fun _ => .presw v.u.blk (a.a / 128) set) s
    done v) v) s
/-- The lines a PRESQ reports: 32 from its own on, within its region (R257). -/
def presLines (b : Block) (o : Nat) : List Nat :=
  let last := if o < 0x80000 then (b.shared + 127) / 128 else 0x84000 / 128
  (List.range 32).map fun i => if o / 128 + i < last then o / 128 + i else 0xFFFFFFFF
/-- The line that a queued PRESW writes. -/
def SqOp.presLine : SqOp → Option Nat
  | .presw _ l _ => some l
  | _ => none
def execPresq (w : WM) (s : State) : Host.Outcome State Fault Refusal :=
  runUnit (fun v => memIssue w { src := [mSrc w.base 1], dst := some ⟨w.data, 1⟩ } true false (fun ins => do
    let as := ins.map fun x => (⟨x, laneAddr w false x⟩ : LaneAt)
    checkShared v as 1
    let held (a : LaneAt) : Bool := v.g.sq.any fun e => e.op.presLine.elim false (presLines v.b a.a).contains
    needA (!(as.any held)) .hold
    portRoom v w.data (as.map (·.x.lane)) as.length
    modA fun s => as.foldl (fun s a =>
      let bits := (presLines v.b a.a).zipIdx.foldl (fun n x => if x.1 != 0xFFFFFFFF && !v.b.absent.contains x.1 then n + 2 ^ x.2 else n) 0
      s.deliverAt v.u a.x.lane w.data [⟨BitVec.ofNat 32 bits, false⟩] (acqs (ordOf w))) s
    done v) v) s

/-! ## Byte barriers (R259-R262) -/

/-- A byte barrier's fields (R259). -/
structure ByteBar where
  ph : Bool
  arr : Nat
  init : Nat
  bytes : Int
  deriving DecidableEq, Repr
def bbOf (w : DWord) : ByteBar :=
  ⟨w.getLsbD 63, (w.extractLsb' 48 15).toNat, (w.extractLsb' 33 15).toNat, (w.extractLsb' 0 32).toInt⟩
def ByteBar.word (b : ByteBar) : DWord := BitVec.ofBool b.ph ++ BitVec.ofNat 15 b.arr ++ BitVec.ofNat 15 b.init ++ 0#1 ++ BitVec.ofInt 32 b.bytes
/-- The test after every update (R260). -/
def ByteBar.test (b : ByteBar) : ByteBar := if b.arr = 0 ∧ b.bytes = 0 then { b with ph := !b.ph, arr := b.init, bytes := 0 } else b
def bytesOk (x : Int) : Bool := decide (-(2 : Int) ^ 31 ≤ x ∧ x < (2 : Int) ^ 31)
def State.bbRead (s : State) (k : Nat) : ByteBar := bbOf (BitVec.ofNat 64 (leNat (s.rd k 8)))
def State.bbWrite (s : State) (k : Nat) (b : ByteBar) : State := s.wr k (leBytes 8 b.word.toNat)
/-- A barrier instruction: SQ(g) empty, lanes in rising order (R261, R269). The update answers none where the lane faults. -/
def bbOp (w : WM) (x : Uses) (pre : LaneAt → Bool) (upd : Nat → LaneAt → State → Option State) (v : View) : Act Unit :=
  memIssue w x true (x.dst.isNone) (fun ins => do
    let as := ins.map fun x => (⟨x, laneAddr w false x⟩ : LaneAt)
    checkShared v as 8
    needA (v.g.sq == [] && as.all pre) .hold
    presentAll v as 8
    portRoom v (x.dst.elim 511#9 (·.f)) (as.map (·.x.lane)) as.length
    for a in as do
      let s ← get
      match upd (kShared v.u.blk a.a) a s with
      | some t => set t
      | none => faultA fcBarrier a.a a.x.lane
    done v) v
def execBbinit (w : WM) (s : State) : Host.Outcome State Fault Refusal :=
  runUnit (fun v => bbOp w { src := [mSrc w.data 1, mSrc w.base 1] } (fun _ => true) (fun k a s =>
    let n := (a.x.w 0).v.toNat
    if 1 ≤ n ∧ n ≤ 32767 then some (s.bbWrite k ⟨false, n, n, 0⟩) else none) v) s
/-- BBEXP (R260, R261). DESIGN CHOICE, log 87: each BBEXP, BBARV, BBWAIT and credit that meets an errored barrier word counts it, as the error itself did; BBINIT does not. -/
def execBbexp (w : WM) (s : State) : Host.Outcome State Fault Refusal :=
  runUnit (fun v => bbOp w { src := [mSrc w.data 1, mSrc w.base 1] } (fun _ => true) (fun k a s =>
    if s.psnAt k 8 then some (s.uncorrAt v.b.core) else
    let b := s.bbRead k
    let y := b.bytes + (a.x.w 0).v.toInt
    if bytesOk y then some (s.bbWrite k ({ b with bytes := y }).test) else none) v) s
def execBbarv (w : WM) (s : State) : Host.Outcome State Fault Refusal :=
  runUnit (fun v => do
    bbOp w { src := [mSrc w.base 1], dst := some ⟨w.data, 1⟩ } (fun a => v.unpOf a.x.lane == []) (fun k a s =>
      if s.psnAt k 8 then some (writeDst (s.uncorrAt v.b.core) v.u a.x.lane ⟨w.data, 1⟩ [⟨0, true⟩]) else
      let b := s.bbRead k
      if b.arr = 0 then none
      else some (writeDst (s.bbWrite k ({ b with arr := b.arr - 1 }).test) v.u a.x.lane ⟨w.data, 1⟩ [⟨if b.ph then 1 else 0, false⟩])) v) s
def execBbwait (w : WM) (s : State) : Host.Outcome State Fault Refusal :=
  runUnit (fun v => bbOp w { src := [mSrc w.data 1, mSrc w.base 1] } (fun a =>
      let k := kShared v.u.blk a.a
      s.psnAt k 8 || (s.bbRead k).ph != (a.x.w 0).v.getLsbD 0) (fun k _ s => some (if s.psnAt k 8 then s.uncorrAt v.b.core else s)) v) s

/-! ## C-class words: once per split (R161) -/

/-- Issues once for the split: the guard and the operands are read in its lowest lane, the slots of the wait mask must be clear (R37, R48). -/
def perSplit (w : WC) (x : Uses) (legal : Bool) (ctl : List Nat) (body : List Nat → LaneIn → Act Unit) (v : View) : Act Unit := do
  needA (v.legal x && legal) (.fault fcIllOpnd 0 0 0)
  match v.lanes with
  | [] => idleA
  | l :: _ =>
    if !((v.thread l).elim false (Guard.holds w.g)) then done v else
    needA (v.b.slots &&& w.wait == 0) .hold
    match readAll v [l] { x with dst := none } (← get) with
    | .error e => throw e
    | .ok (ins, s') =>
      needA (!(x.dst.elim false fun d => v.lanes.any fun k => dstBusy s' v.u k d)) .hold
      set s'
      match ins with
      | [] => idleA
      | i :: _ =>
        if ctl.any fun k => (i.src.getD k []).any (·.p) then modA fun s => ((s.retire v.u l).afterExit v.u.blk).advance v
        else body v.lanes i
/-- The counter that a selector names (R263). -/
def Block.tl? (b : Block) (sel : Nat) : Option Tl :=
  let kind := sel % 16
  let c := sel / 16 % 4
  if kind = 0 then (b.copies[c]?).map (·.tl) else if c ≠ 0 then none else
  match kind with
  | 1 => some b.matrix.tl
  | 2 => some b.attn.tl
  | 3 => some b.pagec.tl
  | 4 => some b.coll.tl
  | 5 => some b.handle.tl
  | _ => none
def execTlread (w : WC) (s : State) : Host.Outcome State Fault Refusal :=
  runUnit (fun v => perSplit w { src := [mSrc w.b 1], dst := some ⟨w.a, 2⟩ } true [0] (fun ls x => do
    match v.b.tl? (x.w 0).v.toNat with
    | none => faultA fcSelect 0 x.lane
    | some t =>
      writeAll v ⟨w.a, 2⟩ ls ((words2 (BitVec.ofNat 64 t.ctr)).map fun w => ⟨w, false⟩)
      done v) v) s
def execTlwait (w : WC) (s : State) : Host.Outcome State Fault Refusal :=
  runUnit (fun v => perSplit w { src := [mSrc w.a 2, mSrc w.b 1] } true [0, 1] (fun _ x => do
    match v.b.tl? (x.w 1).v.toNat with
    | none => faultA fcSelect 0 x.lane
    | some t =>
      needA (decide ((x.d 0).toNat ≤ t.ctr)) .hold
      done v) v) s

end Sys2Proof.Machine
end

