-- ==== Sys2Proof/Machine/MemEvents.lean ====
section
/-! DEFINITION. Steps of the memory machine between instructions (spec/10 R271, R272; spec/01 R25; spec/08 R235; spec/20 R461). -/

namespace Sys2Proof.Machine

/-- REGISTER_FILL: a returned value reaches its registers or its places (R25, R501). -/
def execRegisterFill (id : Nat) (s : State) : Host.Outcome State Fault Refusal :=
  .next (match s.fills.find? (·.id == id) with
    | none => s
    | some f => { s with fills := s.fills.erase f }.fillNow f.u f.lane f.dst f.words)

/-- The package has lost its route, and whether the link timeout has passed (R461). -/
def State.pkgLost (s : State) (p : Nat) : Bool := p != s.pkg && s.lost.contains p
def State.pkgGone (s : State) (p : Nat) : Bool := s.pkgLost p && s.timedOut.contains p
/-- The package of a key in HBM or a scratchpad. -/
def keyPkg (k : Nat) : Option Nat := let c := k / 2 ^ 64; if c % 8 ≤ 1 then some (c / 8) else none
/-- XSIG's write at its home point: one atomic access of 8 bytes (R481). -/
def State.xsigAt (s : State) (k : Nat) (add : Bool) (x : DWord) : State :=
  let old := BitVec.ofNat 64 (leNat (s.rd k 8))
  s.wr k (leBytes 8 (if add then old + x else x).toNat)
/-- An entry leaves its store queue: performed at COP(c), or sent on (R271, R284). -/
def State.depart (s : State) (u : UnitRef) (e : SqEnt) : State :=
  match e.op with
  | .store k bs => (s.wr k bs).dropUnp u e.lane e.id
  | .spill ps => (ps.foldl (fun s p => s.wr p.1 p.2) s).dropUnp u e.lane e.id
  | .presw b l set => (s.modBlk b fun x => if set then x.setLine l else x.clearLines (128 * l) 128).dropUnp u e.lane e.id
  | .chan o => { s with oc := s.oc ++ [o] }
  | .msg m => { s with hc := s.hc ++ [m] }
  | .xsig k add x =>
    (if (keyPkg k).elim false s.pkgGone then s.dropLink ((keyPkg k).getD 0) 1 else s.xsigAt k add x).dropUnp u e.lane e.id
/-- SQ_DEPARTURE: the head entry leaves when nothing it awaits is outstanding (R271, R275-R277); a drop follows the binds that its thread issued before it to the same home (R474). -/
def execSqDeparture (u : UnitRef) (s : State) : Host.Outcome State Fault Refusal :=
  .next (match s.grp? u with
    | none => s
    | some g =>
      match g.sq with
      | [] => s
      | e :: r =>
        let unp := (g.threads[e.lane]?).elim [] (·.unp)
        let away := match e.op with | .xsig k _ _ => keyPkg k | _ => none
        let behind := match e.op with | .msg m => pathHolds s.hpath u [e.lane] m.home e.id | _ => false
        if behind || e.pre.any unp.contains || away.elim false (fun p => s.pkgLost p && !s.pkgGone p) then s
        else (s.modGrp u fun g => { g with sq := r }).depart u e)

/-- What an access to a lost package leaves: returned words poisoned, a write dropped and counted; a load into the zero register leaves nothing (R248, R461). -/
def State.ocLost (s : State) (e : OcEnt) : State :=
  if e.dst = .none then (match e.op with | .load .. => s | _ => s.dropLink (e.slice / nCores) 1)
  else { s with fills := s.fills ++ [⟨e.id, e.u, e.lane, e.dst, List.replicate e.op.retWords ⟨0, true⟩⟩] }
/-- OC_DELIVERY: the head of OC(core, slice) is performed at its slice and leaves UNP(t); a returned value is on its way (R272). A strongly ordered access waits for that of the lane before it (R273). -/
def execOcDelivery (core slice : Nat) (s : State) : Host.Outcome State Fault Refusal :=
  .next (match s.oc.find? fun e => e.core == core && e.slice == slice with
    | none => s
    | some e =>
      let p := slice / nCores
      if (s.pkgLost p && !s.pkgGone p) || e.after.elim false (fun i => s.oc.any (·.id == i)) then s else
      let s := { s with oc := s.oc.erase e }.dropUnp e.u e.lane e.id
      if s.pkgGone p then s.ocLost e else
      let (ws, s) := e.op.perform e.dst.sx s
      if e.dst = .none then s else { s with fills := s.fills ++ [⟨e.id, e.u, e.lane, e.dst, ws⟩] })

/-- TLB_WALK_COMPLETE: the core TLB or the walk-ahead TLB caches the leaf of a walk; an INVALID result is never cached (R235, R303). -/
def execTlbWalkComplete (tlb : TlbRef) (ctx : Nat) (va : VAddr) (s : State) : Host.Outcome State Fault Refusal :=
  .next (match s.walkCtx ctx va with
    | none => s
    | some l =>
      let pg := va.toNat / 2 ^ 16
      let put (t : List TlbEnt) : List TlbEnt :=
        ⟨ctx, pg, l.pa - va.toNat % 2 ^ 16, l.w, l.nx, l.tier, l.ord, l.pkg⟩ :: t.filter fun e => !(e.ctx == ctx && e.vpage == pg)
      match tlb with
      | .lanes core => s.modCore core fun c => { c with tlb := put c.tlb }
      | .ahead core => s.modCore core fun c => { c with ahead := put c.ahead })

end Sys2Proof.Machine
end

