-- ==== Sys2Proof/Machine/Engine.lean ====
section
/-! DEFINITION. What every engine shares: reads and writes over translated runs, lost packages, commands waiting behind release fences, posted faults, and the completion of operations (spec/10 R278, R281; spec/12 R303-R306; spec/20 R461). -/

namespace Sys2Proof.Machine

/-- An engine access to a package without a route is held until the link timeout (R461). -/
def State.runsHeld (s : State) (rs : List Run) : Bool := rs.any fun r => s.pkgLost (s.leafPkg r.leaf) && !s.pkgGone (s.leafPkg r.leaf)
/-- Bytes with their poison; a package that is gone reads as poison (R461). -/
def State.engRead (s : State) (rs : List Run) : List Byte × List Bool :=
  (rs.flatMap fun r => if s.pkgGone (s.leafPkg r.leaf) then zerosB r.len else s.rd r.key r.len,
   rs.flatMap fun r => if s.pkgGone (s.leafPkg r.leaf) then List.replicate r.len true else s.rdPsn r.key r.len)
/-- Writes bytes with their poison; a write to a package that is gone is dropped and counted (R461). -/
def State.engWrite (s : State) (rs : List Run) (bs : List Byte) (ps : List Bool) : State :=
  (rs.foldl (fun x r =>
    (if x.1.pkgGone (x.1.leafPkg r.leaf) then x.1.dropLink (x.1.leafPkg r.leaf) 1 else x.1.wrPsn r.key (x.2.1.take r.len) (x.2.2.take r.len),
     x.2.1.drop r.len, x.2.2.drop r.len)) (s, bs, ps)).1
/-- One write of several pieces over runs: those to a package that is gone are dropped and counted (R461, R500). -/
def State.engWriteMany (s : State) (ps : List (Run × List Byte × List Bool)) : State :=
  let gone (p : Run × List Byte × List Bool) : Bool := s.pkgGone (s.leafPkg p.1.leaf)
  ((ps.filter gone).foldl (fun s p => s.dropLink (s.leafPkg p.1.leaf) 1) s).wrPsnMany ((ps.filter fun p => !gone p).map fun p => (p.1.key, p.2))
/-- The granules under runs. -/
def granulesOf (rs : List Run) : List Nat :=
  (rs.flatMap fun r => (List.range ((r.key + r.len + 7) / 8 - r.key / 8)).map (r.key / 8 + ·)).eraseDups
/-- Source granules that carry an error (R306). -/
def psnGranules (s : State) (rs : List Run) : List Nat := (granulesOf rs).filter fun g => s.psnAt (8 * g) 8

/-- Bytes from `a` on, cut at the lines of 128 (R281): first byte and length of each part. -/
def lineCuts (a n : Nat) : List (Nat × Nat) :=
  (List.range ((a + n + 127) / 128 - a / 128)).map fun i => let f := max a (128 * (a / 128 + i)); (f, min (a + n) (128 * (a / 128 + i + 1)) - f)
/-- The accesses before a release fence that a command of these lanes awaits (R278). -/
def View.cmdPre (v : View) (ls : List Nat) : List CmdPre :=
  (ls.filterMap fun l => (v.thread l).map fun t => (⟨v.u, l, t.relf.filter t.unp.contains⟩ : CmdPre)).filter (·.ids != [])
/-- A command whose read is made at issue holds instead. -/
def fenced (v : View) (ls : List Nat) : Act Unit := needA (v.cmdPre ls == []) .hold

/-- The engines of a block work: its context runs, and no halt line of its partition is up (R415, R428). -/
def State.engineRuns (s : State) (b : Block) : Bool := !s.halting b.ctx && (s.ctxD b.ctx).saved == .no && (s.ctxD b.ctx).halted.isNone
/-- The block, its engines working. -/
def engBlock (blk : Nat) : Act Block := do
  let s ← get
  let b ← someA (s.blk? blk) .idle
  needA (s.engineRuns b) .idle
  pure b
/-- Posts a fault of an engine operation; the engine holds while the fault queue is full (R418). -/
def postEng (b : Block) (r : FRec) (a : Answer) : Act Unit := do
  needA ((← get).ctxD b.ctx).fqRoom .idle
  modA (·.post b.ctx r a)
def XErr.code : XErr → Nat
  | .invalid _ => fcCopyPage
  | .illegal _ => fcCopyProt
def XErr.va : XErr → Nat
  | .invalid a => a
  | .illegal a => a

/-- A counter gives its next number (R291). -/
def Tl.give (t : Tl) : Nat × Tl := (t.given + 1, { t with given := t.given + 1 })

/-- A copy credit on a byte barrier (R260, R261, R301): false where BYTES would leave its range. -/
def State.bbCredit (s : State) (b : Block) (o n : Nat) : Bool × State :=
  let k := kShared b.uid o
  if s.psnAt k 8 then (true, s.uncorrAt b.core) else
  let x := s.bbRead k
  let y := x.bytes - (n : Int)
  if bytesOk y then (true, s.bbWrite k ({ x with bytes := y }).test) else (false, s)

end Sys2Proof.Machine
end

