-- ==== Sys2Proof/Machine/Copy.lean ====
section
/-! DEFINITION. Tensor records, TREC and the copies (spec/12 R291-R306, R315). -/

namespace Sys2Proof.Machine

/-! ## Tensor records (R292-R295) -/

def TRec.esize (r : TRec) : Nat := 2 ^ r.esz
/-- A record as its 128 bytes hold it. -/
def trecOf (bs : List Byte) : TRec :=
  let rank := fieldAt bs 8 1
  let esz := fieldAt bs 9 1
  let dim (k : Nat) : Dim :=
    let o := 0x10 + 12 * k
    ⟨fieldAt bs o 4, if k = 0 then 2 ^ (esz % 4) else fieldAt bs (o + 4) 6, fieldAt bs (o + 10) 2⟩
  { base := fieldAt bs 0 7, rank := rank, esz := esz, fill := BitVec.ofNat 32 (fieldAt bs 0xC 4), dims := (List.range (min rank 9)).map dim, raw := bs }
/-- Elements of the box, and its bytes (R293, R294). -/
def TRec.n (r : TRec) : Nat := r.dims.foldl (fun n d => n * d.box) 1
def TRec.nb (r : TRec) : Nat := r.esize * r.n
/-- R293. -/
def TRec.legal (r : TRec) : Bool :=
  1 ≤ r.rank && r.rank ≤ 9 && r.esz ≤ 3 && r.dims.all (fun d => 1 ≤ d.ext && 1 ≤ d.box && d.str % r.esize == 0) &&
    r.base % r.esize == 0 && r.nb ≤ 2 ^ 31
/-- The address of element `j`; none when it is out of bounds (R294, R295). -/
def TRec.addr (r : TRec) (c : List Int) (j : Nat) : Option Nat :=
  let step (acc : Option (Int × Nat)) (x : Dim × Int) : Option (Int × Nat) :=
    acc.bind fun a =>
      let p : Int := x.2 + (a.2 % x.1.box : Nat)
      if 0 ≤ p ∧ p < x.1.ext then some (a.1 + p * x.1.str, a.2 / x.1.box) else none
  ((r.dims.zip c).foldl step (some ((r.base : Int), j))).map fun a => a.1.toNat % 2 ^ 56
/-- FILL as an element's bytes (R292). -/
def TRec.fillBytes (r : TRec) : List Byte := let f := leBytes 4 r.fill.toNat; (f ++ f).take r.esize

/-! ## TREC (R296) -/

def execTrec (w : WC) (s : State) : Host.Outcome State Fault Refusal :=
  runUnit (fun v => perSplit w { src := [mSrc w.b 2, mSrc w.c 1] } true [0, 1] (fun ls x => do
    fenced v ls
    let a := (x.d 0).toNat % 2 ^ 56
    let k := (x.w 1).v.toNat % 16
    needA (a % 128 == 0) (.fault fcTrec (BitVec.ofNat 64 a) x.lane 0)
    let s ← get
    match s.engRange v.b.core v.b.ctx a 128 false with
    | .error _ => faultA fcTrec a x.lane
    | .ok rs =>
      needA (!s.runsHeld rs) .hold
      let (bs, ps) := s.engRead rs
      if ps.any id then
        modA fun s => (s.modBlk v.u.blk fun b => { b with recs := b.recs.set k (.poisoned (trecOf bs)) }).uncorrAt v.b.core
      else
        let r := trecOf bs
        needA r.legal (.fault fcTrec (BitVec.ofNat 64 a) x.lane 0)
        modA fun s => s.modBlk v.u.blk fun b => { b with recs := b.recs.set k (.rcd r) }
      done v) v) s

/-- The record that a slot gives a copy; a poisoned one only where what was read is legal (R296; log 37). -/
def RSlot.shape : RSlot → Option TRec
  | .none => Option.none
  | .rcd r => some r
  | .poisoned r => if r.legal then some r else Option.none
/-- The slot is marked as holding a poisoned record. -/
def RSlot.psn : RSlot → Bool
  | .poisoned _ => true
  | _ => false

/-! ## Issue of a copy (R297-R301) -/

/-- Nine coordinates. -/
def nine (l : List Int) : List Int := (l ++ List.replicate 9 0).take 9
/-- The words of a `.cmem` array (R298). -/
def State.cmemWords (s : State) (blk o n : Nat) : List PWord := (List.range n).map fun i => s.rdWord (kShared blk (o + 4 * i))
/-- Everything a copy names, once the checks of R300 have passed. DESIGN CHOICE, log 88: a `.cmem` array is read at once, also where a line of it is absent (R298). -/
def copyIssue (kind : CpyKind) (w : WC) (src : CSrc) (v : View) : Act Unit :=
  perSplit w { src := [mSrc w.b 4, mSrc w.c (if src = .creg then 4 else 1)], dst := some ⟨w.a, 2⟩ } true [0, 1] (fun ls x => do
    let s ← get
    let w0 := (x.w 0 0).v.toNat
    let ofs := (x.w 0 1).v.toNat
    let ctx := w0 / 256 % 4
    let sl (k : Nat) : RSlot := v.b.recs.getD k .none
    let srec := sl (w0 % 16)
    let drec := if kind = .cpyg then some (sl (w0 / 16 % 16)) else none
    needA (srec != .none && drec != some .none) (.fault fcTrec 0 x.lane 0)
    match srec, drec with
    | .rcd r, some (.rcd d) => needA (r.esz == d.esz && r.n == d.n) (.fault fcTrec 0 x.lane 0)
    | _, _ => pure ()
    let r? := srec.shape
    let d? := drec.bind (·.shape)
    let bad0 := srec.psn || drec.elim false (·.psn)
    let nb := (r?.map (·.nb)).getD 0
    if kind != .cpyg then
      needA (ofs % 128 == 0) (.fault fcMisalign (BitVec.ofNat 64 ofs) x.lane 0)
      needA (if kind = .cpyc then decide (ofs + nb ≤ 2 ^ 21) else v.b.inDecl ofs nb || v.b.inShelf ofs nb) (.fault fcRange (BitVec.ofNat 64 ofs) x.lane 0)
    let nw := if kind = .cpyg then 18 else 9
    let cw ← match src with
      | .creg => pure ((x.src.getD 1 []).map fun w => w)
      | .cmem => do
        let o := (x.w 1).v.toNat
        needA (o % 4 == 0) (.fault fcMisalign (BitVec.ofNat 64 o) x.lane 0)
        needA (v.b.inDecl o (4 * nw)) (.fault fcRange (BitVec.ofNat 64 o) x.lane 0)
        needA (v.g.sq == []) .hold
        pure (s.cmemWords v.u.blk o nw)
    let bb := if kind = .cpy ∧ (w0 / 2 ^ 15) % 2 = 1 then some (w0 / 2 ^ 16 * 8) else none
    needA (bb.elim true fun o => v.b.inDecl o 8) (.fault fcRange (BitVec.ofNat 64 (bb.getD 0)) x.lane 0)
    let c ← someA v.b.copies[ctx]? .idle
    needA (c.ops.length < 64) .hold
    let cs := cw.map fun w => w.v.toInt
    let (sc, dc) := match kind, src with
      | .cpyg, .creg => (nine (cs.take 2), nine (cs.drop 2))
      | .cpyg, .cmem => (nine (cs.take 9), nine (cs.drop 9))
      | _, _ => (nine cs, nine cs)
    let (no, tl) := c.tl.give
    let op : CopyOp :=
      { no := no, cmd := (x.src.headD []).map (·.v), pre := v.cmdPre ls, kind := kind, src := if kind = .cpys then none else r?, dst := if kind = .cpys then r? else d?,
        srec := w0 % 16, drec := w0 / 16 % 16, sc := sc, dc := dc, ofs := ofs, bb := bb, nb := nb, walked := 0, todo := [], hand := [], landed := 0,
        pages := [], seen := [], fault := .none, bad := bad0 || cw.any (·.p) }
    modA fun s => s.modBlk v.u.blk fun b =>
      let b := { b with copies := b.copies.set ctx ⟨tl, c.ops ++ [op]⟩ }
      if kind = .cpy then b.clearLines ofs nb else b
    writeAll v ⟨w.a, 2⟩ ls ((words2 (BitVec.ofNat 64 no)).map fun w => ⟨w, false⟩)
    done v) v
def execCpy (w : WC) (src : CSrc) (s : State) : Host.Outcome State Fault Refusal := runUnit (copyIssue .cpy w src) s
def execCpys (w : WC) (src : CSrc) (s : State) : Host.Outcome State Fault Refusal := runUnit (copyIssue .cpys w src) s
def execCpyg (w : WC) (src : CSrc) (s : State) : Host.Outcome State Fault Refusal := runUnit (copyIssue .cpyg w src) s
def execCpyc (w : WC) (src : CSrc) (s : State) : Host.Outcome State Fault Refusal := runUnit (copyIssue .cpyc w src) s

/-! ## Tiles (R302-R306) -/

def CopyOp.tiles (o : CopyOp) : Nat := ceilDiv o.nb 512
/-- The first tile of which something is still to move. -/
def CopyOp.floor (o : CopyOp) : Nat := o.todo.foldl (fun m p => min m (p.line / 4)) o.walked
/-- The elements of a tile: first and count. -/
def CopyOp.span (o : CopyOp) (t e : Nat) : Nat × Nat := (512 * t / e, (min 512 (o.nb - 512 * t)) / e)
/-- Runs of a tile's elements in a record: none where an element is out of bounds (R295). -/
def State.tileRuns (s : State) (b : Block) (r : TRec) (c : List Int) (write : Bool) : Nat → Nat → Except XErr (List (Option (List Run)))
  | _, 0 => .ok []
  | j, k + 1 =>
    let here : Except XErr (Option (List Run)) := match r.addr c j with
      | none => .ok none
      | some a => (s.engRange b.core b.ctx a r.esize write).map some
    match here with
    | .error e => .error e
    | .ok x => match s.tileRuns b r c write (j + 1) k with
      | .error e => .error e
      | .ok l => .ok (x :: l)
/-- Element size of a copy. -/
def CopyOp.esize (o : CopyOp) : Nat := ((o.src.orElse fun _ => o.dst).map (·.esize)).getD 1
/-- Some page that the copy touches is strongly ordered (R305). -/
def State.copyOrd (s : State) (b : Block) (o : CopyOp) : Bool :=
  let e := o.esize
  let any (r : Option TRec) (c : List Int) : Bool := r.elim false fun r =>
    (List.range (o.nb / e)).any fun j => (r.addr c j).elim false fun a => (s.xlateEng b.core b.ctx (BitVec.ofNat 56 a)).elim false (·.ord)
  any o.src o.sc || any o.dst o.dc
/-- An earlier copy of the context touches a strongly ordered page and has not completed: no later one does anything (R305). -/
def State.ordOpen (s : State) (b : Block) (c : CopyCtx) (o : CopyOp) : Bool := (c.ops.filter (·.no < o.no)).any (s.copyOrd b ·)
/-- The flash page of a run (R307). -/
def Run.page (r : Run) : Option Nat := if r.leaf.tier = 2 then some (r.leaf.pa % 2 ^ 43 / 16384) else none
/-- A job of the page engine. -/
def mkJob (no : Nat) (tgt : JobTgt) (p back : Nat) : PageJob :=
  { no := no, tgt := tgt, ppage := p, phase := .sense, retry := 0, cbits := 0, left := [], failed := false, back := back, hand := [], pstat := 0 }
/-- Asks for the pages that have no job yet (R315). -/
def State.askPages (s : State) (tgt : JobTgt) (ps : List Nat) : State :=
  ps.foldl (fun s p =>
    if s.jobs.any fun j => j.tgt == tgt && j.ppage == p then s
    else { s with jobs := s.jobs ++ [mkJob s.nextId tgt p 0], nextId := s.nextId + 1 }) s
def modOp (blk ctx no : Nat) (f : CopyOp → CopyOp) (s : State) : State :=
  s.modBlk blk fun b => { b with copies := b.copies.modify ctx fun c => { c with ops := updFirst (·.no == no) f c.ops } }
/-- What one sense of a page gave the copy, if it has ended (R315). -/
def CopyOp.sensed (o : CopyOp) (p : Nat) : Option SensedPage := o.pages.find? (·.page == p)
/-- Source granules of runs that carry an error: of a flash page, as its one sense gave them, all where it failed to decode (R306, R315). -/
def CopyOp.badGranules (s : State) (o : CopyOp) (rs : List Run) : List Nat :=
  let ofPage (r : Run) (p : Nat) : List Nat := match (o.sensed p).bind (·.bytes) with
    | none => granulesOf [r]
    | some (_, ps) => (granulesOf [r]).filter fun g => ((ps.drop (8 * g + r.leaf.pa % 16384 - r.key)).take 8).any id
  (psnGranules s (rs.filter (·.page.isNone)) ++ rs.flatMap fun r => r.page.elim [] (ofPage r)).eraseDups
/-- Bytes of a run with their poison: of a flash page, those of the copy's one sense of it, poisoned where it failed to decode (R315). -/
def State.readRun (s : State) (o : CopyOp) (r : Run) : List Byte × List Bool :=
  match r.page with
  | none => s.engRead [r]
  | some p => match (o.sensed p).bind (·.bytes) with
    | some (bs, ps) => ((bs.drop (r.leaf.pa % 16384)).take r.len, (ps.drop (r.leaf.pa % 16384)).take r.len)
    | none => (zerosB r.len, List.replicate r.len true)

/-- Lands a line whose box bytes keep their contents, for an abandoned copy (R304): present and credited. -/
def landEmpty (b : Block) (ctx no : Nat) (o : CopyOp) (line : Nat) (s : State) : State :=
  let n := min 128 (o.nb - 128 * line)
  let s := s.modBlk b.uid (·.setLine (o.ofs / 128 + line))
  match o.bb with
  | none => s
  | some bb => let (ok, s) := s.bbCredit b bb n
    if ok then s else s.post b.ctx (mkEngRec b 3 fcBarrier ctx no line bb 0) .none
/-- Abandons a copy from the tile it stopped at on (R304): the rest of a CPY's lines are present and credited, the counter rises. Tiles before it are still performed; where the command carries an error nothing more is written at all (R443). -/
def State.abandonCopy (s : State) (b : Block) (ctx : Nat) (o : CopyOp) : State :=
  let lines := ceilDiv o.nb 128
  let open_ := if o.bad then o.todo.map (·.line) ++ o.hand.map (·.line) else []
  let rest := if o.kind = .cpy then open_ ++ (List.range lines).drop (4 * o.walked) else []
  let s := rest.foldl (fun s l => landEmpty b ctx o.no o l s) s
  modOp b.uid ctx o.no (fun x => { x with
    walked := o.tiles, landed := x.landed + rest.length, fault := .none, bad := false
    todo := if o.bad then [] else x.todo, hand := if o.bad then [] else x.hand }) (s.bump b.ctx 4 1)

/-- The pieces of a translated tile: its elements' runs, a line's worth each. -/
def CopyOp.pieces (t e n : Nat) (sr dr : List (Option (List Run))) : List CopyPiece :=
  (List.range (ceilDiv (n * e) 128)).map fun i =>
    ⟨4 * t + i, (sr.drop (i * (128 / e))).take (128 / e), (dr.drop (i * (128 / e))).take (128 / e)⟩
/-- Where a piece reads: its source runs, or its shared line (R299). -/
def CopyOp.pieceFrom (o : CopyOp) (blk : Nat) (p : CopyPiece) : List Run :=
  match o.kind with
  | .cpys => [⟨kShared blk (o.ofs + 128 * p.line), min 128 (o.nb - 128 * p.line), ⟨0, true, false, 3, false, 0⟩⟩]
  | _ => (p.src.filterMap id).flatten
/-- A piece's bytes in box order with their poison: the source's elements, FILL where one is out of bounds (R295), or the shared line. -/
def State.pieceData (s : State) (blk : Nat) (o : CopyOp) (p : CopyPiece) : List Byte × List Bool :=
  let n := min 128 (o.nb - 128 * p.line)
  match o.kind with
  | .cpys => (s.rd (kShared blk (o.ofs + 128 * p.line)) n, s.rdPsn (kShared blk (o.ofs + 128 * p.line)) n)
  | _ =>
    let fill := (o.src.map (·.fillBytes)).getD []
    let els := p.src.map fun x => match x with
      | some rs => (rs.flatMap fun r => (s.readRun o r).1, rs.flatMap fun r => (s.readRun o r).2)
      | none => (fill, fill.map fun _ => false)
    (els.flatMap (·.1), els.flatMap (·.2))
/-- The runs of elements with the bytes that each takes. -/
def elemParts (e : Nat) : List (Option (List Run)) → List Byte × List Bool → List (Run × List Byte × List Bool)
  | [], _ => []
  | none :: r, d => elemParts e r (d.1.drop e, d.2.drop e)
  | some rs :: r, d =>
    (rs.foldl (fun (x : List (Run × List Byte × List Bool) × List Byte × List Bool) q =>
      (x.1 ++ [(q, x.2.1.take q.len, x.2.2.take q.len)], x.2.1.drop q.len, x.2.2.drop q.len)) ([], d.1.take e, d.2.take e)).1 ++
    elemParts e r (d.1.drop e, d.2.drop e)
/-- A line in hand written where it goes: the cabinet, or the destination's elements that are in bounds, in one write (R295, R303, R500, log 57). A CPY's lines land at COP(c) instead (R281). -/
def State.placePiece (s : State) (b : Block) (o : CopyOp) (p : CopyPiece) (d : List Byte × List Bool) : State :=
  match o.kind with
  | .cpy => s
  | .cpyc => s.wrPsn (kCab b.core (o.ofs + 128 * p.line)) d.1 d.2
  | _ => s.engWriteMany (elemParts o.esize p.dst d)
/-- The line has been read. -/
def CopyOp.holds (o : CopyOp) (line : Nat) : Bool := o.hand.any (·.line == line)

/-- The next tile is translated, at most 8 tiles ahead of the data (R303); or the copy stops at it with its fault posted (R304). Strongly ordered pages go tile by tile, and alone in their context (R305). Flash pages it touches are asked for (R315). -/
def walkTile (b : Block) (ctx : Nat) (c : CopyCtx) (o : CopyOp) : Act Unit := do
  let s ← get
  needA (o.fault == .none && decide (o.walked < o.tiles) && decide (o.walked ≤ o.floor + 8)) .idle
  needA (!(s.ordOpen b c o)) .idle
  needA (!(s.copyOrd b o) || ((c.ops.filter (·.no < o.no)) == [] && o.todo == [] && o.hand == [])) .idle
  let e := o.esize
  let (j, n) := o.span o.walked e
  let stop (slot : Nat) (x : XErr) : Act Unit := do
    postEng b (mkEngRec b 3 x.code ctx o.no o.walked x.va (slot + 256 * o.walked)) (.eop b.uid (.copy ctx) o.no)
    modA (modOp b.uid ctx o.no fun o => { o with fault := .posted x.code x.va })
  let runsOf (r : Option TRec) (cs : List Int) (w : Bool) : Except XErr (List (Option (List Run))) :=
    match r with
    | some r => s.tileRuns b r cs w j n
    | none => .ok []
  match runsOf o.src o.sc false, runsOf o.dst o.dc true with
  | .error x, _ => stop o.srec x
  | _, .error x => stop (if o.kind = .cpyg then o.drec else o.srec) x
  | .ok sr, .ok dr =>
    let pages := ((sr.filterMap id).flatten.filterMap (·.page)).eraseDups.filter fun p => (o.sensed p).isNone
    modA fun s => modOp b.uid ctx o.no (fun o => { o with walked := o.walked + 1, todo := o.todo ++ CopyOp.pieces o.walked e n sr dr })
      (s.askPages (.copy b.uid ctx o.no) pages)
/-- A line's worth of a translated tile is read: a CPYS reads a line only while it is present (R302), a piece of a flash page once it is sensed (R315); poisoned source granules are counted once (R306). -/
def readPiece (b : Block) (ctx : Nat) (o : CopyOp) (p : CopyPiece) : Act Unit := do
  let s ← get
  let line := p.line
  needA (!s.runsHeld (o.pieceFrom b.uid p) && (o.pieceFrom b.uid p).all fun r => r.page.elim true fun g => (o.sensed g).isSome) .idle
  needA (o.kind != .cpys || b.present (o.ofs + 128 * line) (min 128 (o.nb - 128 * line))) .idle
  let gs := (o.badGranules s (o.pieceFrom b.uid p)).filter fun g => !o.seen.contains g
  let s' := if gs = [] then s else s.bump b.ctx 3 gs.length
  let d := s.pieceData b.uid o p
  set (modOp b.uid ctx o.no (fun o => { o with
    todo := if o.kind = .cpy then o.todo.filter (·.line != line) else o.todo, hand := o.hand ++ [⟨line, d.1, d.2⟩], seen := o.seen ++ gs }) s')
/-- A line that has been read is written (R281, R303). -/
def writePiece (b : Block) (ctx : Nat) (o : CopyOp) (p : CopyPiece) : Act Unit := do
  let s ← get
  let h ← someA (o.hand.find? (·.line == p.line)) .idle
  needA (!s.runsHeld (p.dst.filterMap id).flatten) .idle
  set ((modOp b.uid ctx o.no (fun o => { o with todo := o.todo.filter (·.line != p.line), hand := o.hand.filter (·.line != p.line) }) s).placePiece b o p (h.bytes, h.psn))
/-- The next access of a line of a translated tile: its read, then its write (R281). -/
def movePiece (b : Block) (ctx : Nat) (o : CopyOp) (line : Nat) : Act Unit := do
  let p ← someA (o.todo.find? (·.line == line)) .idle
  if o.holds line then writePiece b ctx o p else readPiece b ctx o p
/-- COPY_TILE: a tile is translated, or a line of it read or written; the accesses of translated tiles run in any order (R281, R303). A copy whose record or command carries an error is abandoned in its turn (R296, R305, R443). -/
def execCopyTile (blk ctx : Nat) (st : EngStep) (s : State) : Host.Outcome State Fault Refusal :=
  runEvent (do
    let b ← engBlock blk
    let c ← someA b.copies[ctx]? .idle
    let o ← someA (c.ops.find? (·.no == st.of)) .idle
    needA ((← get).preDone o.pre) .idle
    if o.bad then (if o.fault = .none && !((← get).ordOpen b c o) then modA (·.abandonCopy b ctx o) else idleA) else
    match st.piece? with
    | none => walkTile b ctx c o
    | some l => movePiece b ctx o l) s

/-- COPY_LINE_LANDING: one line of a CPY is written, present and credited in one step (R281, R301). -/
def execCopyLineLanding (blk ctx no line : Nat) (s : State) : Host.Outcome State Fault Refusal :=
  runEvent (do
    let b ← engBlock blk
    let c ← someA b.copies[ctx]? .idle
    let o ← someA (c.ops.find? (·.no == no)) .idle
    needA (o.kind == .cpy && !o.bad) .idle
    let h ← someA (o.hand.find? (·.line == line)) .idle
    modA fun s =>
      let s := s.wrPsn (kShared blk (o.ofs + 128 * line)) h.bytes h.psn
      let s := s.modBlk blk (·.setLine (o.ofs / 128 + line))
      modOp blk ctx no (fun o => { o with hand := o.hand.filter (·.line != line), landed := o.landed + 1 }) s
    match o.bb with
    | none => pure ()
    | some bb =>
      let (ok, s) := (← get).bbCredit b bb h.bytes.length
      set s
      if !ok then postEng b (mkEngRec b 3 fcBarrier ctx no line bb 0) .none) s
/-- Every access of the copy is performed. -/
def CopyOp.complete (o : CopyOp) : Bool := !o.bad && o.fault == .none && o.tiles ≤ o.walked && o.todo == [] && o.hand == []

end Sys2Proof.Machine
end

