-- ==== Sys2Proof/Machine/Sched.lean ====
section
/-! DEFINITION. Which split a group runs and which group a scheduler serves, the checks before an instruction executes, and the scheduler's events (spec/06 R156-R169; spec/02 R35-R41, R62; spec/01 R16). -/

namespace Sys2Proof.Machine

/-! ## The split that a group would run -/

/-- The lanes of threads that stand where `t` stands and are not parked (R156). -/
def Grp.splitOf (g : Grp) (t : Thread) : List Nat :=
  (g.threads.zipIdx.filter fun x => x.1.stat == .run && x.1.place == t.place).map (·.2)
/-- Cycle of the last issue of a split. DESIGN CHOICE, log 78: where its threads joined after issuing at different times, the latest of them. -/
def Grp.splitLast (g : Grp) (t : Thread) : Nat :=
  (g.threads.filter fun x => x.stat == .run && x.place == t.place).foldl (fun m x => max m x.lastIssue) 0
/-- The first thread of a list under a strict order on threads. -/
def leastThread (lt : Thread → Thread → Bool) : List Thread → Option Thread
  | [] => none
  | t :: r => match leastThread lt r with
    | some x => if lt x t then some x else some t
    | none => some t
/-- The fairness timer has expired (R158). -/
def Grp.expired (g : Grp) : Bool := g.fairExp || decide (1024 ≤ g.fair)
/-- The split that the grouping stage chooses: a thread of it (R157), or of the group-uniform instruction that all live threads have reached (R160). DESIGN CHOICE, log 81: that instruction is selected like the next word of a clause, under the role of the clause that it stands in. -/
def Grp.choose (g : Grp) : Option Thread :=
  if g.uniformReady then g.threads.find? (·.live) else
  let lower (a b : Thread) : Bool := a.pc.toNat < b.pc.toNat
  let longest (a b : Thread) : Bool := g.splitLast a < g.splitLast b || (g.splitLast a == g.splitLast b && lower a b)
  leastThread (if g.expired then longest else lower) (g.threads.filter fun t => t.stat == .run)

/-! ## Readiness (R165) -/

/-- A unit may begin: it is not benched, held, stopped, waiting or halted, and its context runs (R165, R415, R416, R428, R436). -/
def State.mayBegin (s : State) (b : Block) (g : Grp) : Bool :=
  g.stat == .ready && g.runs == 0 && !g.dbgHalt && b.bench == .none && !s.halting b.ctx && !s.ctxStopped b.ctx
/-- Units of a scheduler: groups of its slots, or the front-end threads (R152, R165). -/
def State.unitsOn (s : State) (core sched : Nat) : List UnitRef :=
  (s.blocks.filter (·.core == core)).flatMap fun b => b.units.filter fun u => match b.grp? u with | some g => g.sched == sched | none => false

/-- The ageing threshold A of a context (R168). -/
def State.ageLimit (s : State) (ctx : Nat) : Nat := 2 ^ (6 + (s.ctxD ctx).agec)
/-- What a scheduler's cycle begins with: the meetings that the cycle before made ready are released, and the groups on their way to the bench go there if nothing of theirs is outstanding (R159, R422). -/
def State.meetAll (s : State) (core sched : Nat) : State :=
  let us := s.unitsOn core sched
  us.foldl (·.leaveNow ·) (us.foldl (fun s u => s.modGrp u (·.meetings)) s)
/-- The unit starts: its split is the running one, the clause's role is that of its last, its count is clear, a promotion is used up, and the fairness timer is cleared where the split changes (R36, R157, R158, R168). -/
def Grp.start (g : Grp) (t : Thread) (c : Option ClauseCtx) : Grp :=
  let ls := if g.uniformReady then g.live else g.splitOf t
  let newest := g.threads.foldl (fun m x => max m x.lastIssue) 0
  let same := g.splitLast t == newest
  let enter (x : Thread) : Thread :=
    match c with
    | some c => { x with cl := some c, pc := x.pc + 8#56, stat := .run }
    | none => { x with stat := .run }
  { (ls.foldl (fun g l => g.modThread l enter) g) with
    runs := maskOf ls, age := 0, promoted := none, hold := 0
    lastRole := ((c.orElse fun _ => t.cl).map (·.role)).getD g.lastRole
    waits := if c.isSome then (g.dropWait (maskOf ls)).waits else g.waits
    fair := if g.expired || !same then 0 else g.fair, fairExp := false
    yielded := false }

/-! ## Before the instruction executes (R62 steps 1 to 4) -/

/-- Debug stops are enabled in the unit's partition (R421). -/
def State.dbgOn (s : State) (ctx : Nat) : Bool := ((s.partD (s.ctxD ctx).part).fcw).getLsbD 1
/-- The split is about to issue at a breakpoint address (R437). -/
def State.atBreakpoint (s : State) (b : Block) (g : Grp) : Bool :=
  s.dbgOn b.ctx && (g.runs &&& ~~~g.skipBp) != 0 && (s.ctxD b.ctx).bps.contains g.pcOf

/-- A debug halt that is asked for takes place once the group stands at a clause boundary or at a barrier, and no halt line has stopped it (R436). -/
def State.debugPend (s : State) (u : UnitRef) : State :=
  match s.grp? u with
  | some g =>
    if g.dbgHalt && g.runs == 0 && !((s.blk? u.blk).elim true fun b => s.halting b.ctx) && (match g.stat with | .ready | .bar _ | .cbar _ => true | _ => false) then
      s.leave u (.stop fcDebug (maskOf ((g.choose.map g.splitOf).getD [])) 0 g.pcOf false)
    else s
  | none => s

/-- A group thread may execute it; SVC is not for a front-end thread (R60). -/
def Instr.forUnit (i : Instr) (front : Bool) : Bool :=
  match i with
  | .svc _ => !front
  | _ => true

/-- What a word of a clause comes to before it executes (R62 steps 1 to 4): a fault, a no-operation, or an instruction. -/
inductive Ahead
  | fault (code : Nat)
  | skip
  | run (i : Instr)
  deriving DecidableEq, Repr
/-- Steps 1 to 4 of R62 for a thread of a front-end processor or of a group. -/
def aheadOf (c : Cls) (front : Bool) (w : DWord) : Ahead :=
  match decode c w with
  | .error (.reserved gd) => if gd = ⟨true, 7#3⟩ then .skip else .fault fcIllInstr
  | .error _ => .fault fcIllInstr
  | .ok i =>
    match i with
    | .hint _ _ => .run i
    | _ =>
      if !(Instr.forUnit i front) then .fault fcIllInstr
      else if guardOf w = ⟨true, 7#3⟩ then .skip
      else .run i

/-- The split as it stands now: every thread at the same place has joined it (R156). -/
def Grp.join (g : Grp) : Grp :=
  match (lanesOf g.runs).head?.bind (g.threads[·]?) with
  | some t => { g with runs := maskOf (g.splitOf t) }
  | none => g

/-! ## The scheduler's other events -/

/-- FAIRNESS_TIMER_EXPIRY (R158). -/
def execFairnessTimerExpiry (blk g : Nat) (s : State) : Host.Outcome State Fault Refusal :=
  .next (s.modGrp (.group blk g) fun x => if 1024 ≤ x.fair then { x with fairExp := true } else x)
/-- AGEING_PROMOTION (R168): a group whose count has reached A; a scheduler's own cycle promotes it too. -/
def execAgeingPromotion (blk g : Nat) (s : State) : Host.Outcome State Fault Refusal :=
  runEvent (do
    let s ← get
    let b ← someA (s.blk? blk) .idle
    let x ← someA (b.grp? (.group blk g)) .idle
    needA (x.promoted.isNone && decide (s.ageLimit b.ctx ≤ x.age)) .idle
    set { s.modGrp (.group blk g) (fun x => { x with promoted := some s.nextAdm }) with nextAdm := s.nextAdm + 1 }) s
/-- CLAUSE_BREAK (R162): the split's next instruction has not issued for 64 cycles. -/
def execClauseBreak (u : UnitRef) (s : State) : Host.Outcome State Fault Refusal :=
  .next (match s.grp? u with
    | some g => if 64 ≤ g.hold && g.runs != 0 then s.breakClause u else s
    | none => s)
/-- MEETING_RELEASE (R159): the threads parked at the address go on together when every live thread that means to meet there has arrived. -/
def execMeetingRelease (blk g : Nat) (addr : VAddr) (s : State) : Host.Outcome State Fault Refusal :=
  .next (match s.grp? (.group blk g) with
    | some x =>
      if x.meetReady addr then
        s.modGrp (.group blk g) fun x => { x with threads := x.threads.map fun t => if t.stat = .meet ∧ t.pc = addr then t.release else t }
      else s
    | none => s)
/-- BREAKPOINT_TRIGGER (R437). -/
def execBreakpointTrigger (u : UnitRef) (s : State) : Host.Outcome State Fault Refusal :=
  .next (match s.blk? u.blk, s.grp? u with
    | some b, some g => if g.stat == .ready && s.atBreakpoint b g then s.leave u (.stop fcBreak g.runs 0 g.pcOf true) else s
    | _, _ => s)
/-- DEBUG_GROUP_HALT (R436): with DBG set the host asks one group to halt; it stops at its next clause boundary and is benched with cause 4. One that is stopped already stays as it is. -/
def execDebugGroupHalt (blk g : Nat) (s : State) : Host.Outcome State Fault Refusal :=
  .next (match s.blk? blk, s.grp? (.group blk g) with
    | some b, some x =>
      let s := if s.hostOk then { s with dbgHaltW := (UnitRef.group blk g).word } else s
      let still := match x.stat with | .stopped | .held 4 | .benched 4 _ | .leaving _ (.stop ..) => true | _ => x.gone || x.owed == 4
      if !s.hostOk || !s.dbgOn b.ctx || still then s
      else (s.modGrp (.group blk g) fun x => { x with dbgHalt := true }).debugPend (.group blk g)
    | _, _ => s)

end Sys2Proof.Machine
end

