-- ==== Sys2Proof/Machine/Create.lean ====
section
/-! DEFINITION. Threads, groups and blocks as they start, and how many resources they take (spec/01 R6; spec/06 R148-R151, R170-R174). -/

namespace Sys2Proof.Machine

/-- A thread at its start (R6); a lane beyond the block's threads is dead (R148). -/
def mkThread (n : Nat) (pc : VAddr) (mode : Word) (dead : Bool) : Thread :=
  { regs := List.replicate n ⟨0, false, .full⟩, preds := 0, pc := pc, cl := none, mr := mrNone, mstk := [],
    mode := mode &&& modeMask, sticky := 0, pend := 0, tlat := 0, stat := if dead then .dead else .run,
    q16 := [], unp := [], relf := [], acqw := [], sow := [], arw := [], lastIssue := 0 }
/-- A unit at its start. -/
def mkUnit (ts : List Thread) (sched slot adm : Nat) : Grp :=
  { threads := ts, sched := sched, slot := slot, stat := .ready, runs := 0, lastRole := .computer, yielded := false,
    hold := 0, waits := [], fair := 0, fairExp := false, age := 0, promoted := none,
    admitted := adm, sq := [], skipBp := 0, dbgHalt := false, pendRe := 0, faddr := 0, owed := 0 }
/-- Group `gi` of a block of `tpb` threads (R148). -/
def mkGroup (v : Variant) (mode : Word) (tpb gi sched slot adm : Nat) : Grp :=
  mkUnit ((List.range 32).map fun l => mkThread v.nregs (BitVec.ofNat 56 v.gentry) mode (decide (tpb ≤ 32 * gi + l))) sched slot adm
/-- The front-end thread: s0 to s7 hold the argument words (R151). -/
def mkFront (v : Variant) (mode : Word) (args : List Word) (slot adm : Nat) : Grp :=
  let t := mkThread 64 (BitVec.ofNat 56 v.fentry) mode false
  mkUnit [{ t with regs := (List.range 64).map fun k => ⟨if k < 8 then args.getD k 0 else 0, false, .full⟩ }] 4 slot adm
def Tl.init : Tl := ⟨0, 0⟩
def CopyCtx.init : CopyCtx := ⟨.init, []⟩
def MCtx.init : MCtx := ⟨.init, [], [], none, 0⟩
def ACtx.init : ACtx := ⟨.init, [], [], none, none⟩

/-- Energy units per group of each class (R172). -/
def energyWeight (cls : Nat) : Nat := [1, 2, 3, 4, 6, 8, 12, 16].getD cls 16
/-- Groups of a block (R148). -/
def groupsOf (tpb : Nat) : Nat := ceilDiv tpb 32

/-- Which numbers a block takes in its grid. -/
structure BlkId where
  idx : Nat
  cluster : Nat
  stage : Nat
  page : Word
  pstat : Word
  shelf : Bool
  deriving DecidableEq, Repr

/-- A block with its groups placed: `places` gives each group's scheduler and slot, `fe` the front-end context. -/
def mkBlock (uid : Nat) (g : Grid) (v : Variant) (core : Nat) (i : BlkId) (places : List (Nat × Nat)) (fe adm : Nat) : Block :=
  { uid := uid, grid := g.id, ctx := g.ctx, core := core, idx := i.idx, cluster := i.cluster, stage := i.stage, page := i.page, pstat := i.pstat,
    tpb := g.tpb, nregs := v.nregs, spill := v.spill, shared := v.shared, weight := energyWeight g.kd.energy, shelf := i.shelf,
    groups := (places.zipIdx.map fun x => mkGroup v g.kd.mode g.tpb x.2 x.1.1 x.1.2 adm),
    fe := mkFront v g.kd.mode g.args fe adm,
    bcast := (List.range 8).map fun k => ⟨g.args.getD k 0, false⟩,
    tray := [], rings := [], q17 := [], q17Pend := [], bars := [], token := some 0, slots := 0, absent := [],
    recs := List.replicate 16 .none, copies := List.replicate 4 .init, matrix := .init, attn := .init, pagec := ⟨.init, [], [], none⟩,
    coll := ⟨.init, []⟩, handle := ⟨.init, []⟩, bench := .none }

/-! ## What a core has free (R170-R172) -/

/-- A group holds its slot and register units while it is on the core (R422). -/
def Grp.onCore (g : Grp) : Bool := match g.stat with | .benched .. => false | _ => true
/-- A group is about to be benched (R422). -/
def Grp.isLeaving (g : Grp) : Bool := match g.stat with | .leaving .. => true | _ => false
/-- A block holds its place on the core: it is not benched whole. -/
def Block.onCore (b : Block) : Bool := match b.bench with | .out .. => false | _ => true
def State.resident (s : State) (core : Nat) : List Block := s.blocks.filter fun b => b.core == core && b.onCore
/-- The shelves reserved on a core: each holds its block's resources (R310). -/
def State.shelvesOn (s : State) (core : Nat) : List PgShelf := s.grids.flatMap fun g => g.pages.filter (·.core == core)
/-- Slots and register units of each scheduler in use or reserved: scheduler, slot, register units. -/
def State.slotsUsed (s : State) (core : Nat) : List (Nat × Nat × Nat) :=
  ((s.resident core).flatMap fun b => (b.groups.filter (·.onCore)).map fun g => (g.sched, g.slot, b.nregs / 16)) ++
    (s.shelvesOn core).flatMap fun p => p.places.map fun x => (x.1, x.2, p.need.units)
/-- The lowest slot free on a scheduler. DESIGN CHOICE, log 59: the spec does not say which free slot a group takes. -/
def freeSlot (used : List (Nat × Nat × Nat)) (sched : Nat) : Option Nat :=
  (List.range 24).find? fun k => !(used.any fun u => u.1 == sched && u.2.1 == k)
/-- Register units in use on a scheduler. -/
def unitsUsed (used : List (Nat × Nat × Nat)) (sched : Nat) : Nat := ((used.filter (·.1 == sched)).map (·.2.2)).sum
/-- Where one group goes: the scheduler with a free slot and the most free register units, the lower number first (R170). -/
def placeOne (used : List (Nat × Nat × Nat)) (n : Nat) : Option (Nat × Nat) :=
  let fit := (List.range 4).filterMap fun sc => (freeSlot used sc).bind fun k =>
    if unitsUsed used sc + n ≤ 64 then some (sc, k) else none
  fit.foldl (fun m x => match m with
    | none => some x
    | some y => if unitsUsed used x.1 < unitsUsed used y.1 then some x else some y) none
/-- Where the groups of a block go, in rising index (R170). -/
def placeGroups (n : Nat) : Nat → List (Nat × Nat × Nat) → Option (List (Nat × Nat))
  | 0, _ => some []
  | k + 1, used => (placeOne used n).bind fun p => (placeGroups n k (used ++ [(p.1, p.2, n)])).map (p :: ·)
/-- Shared bytes a block takes, in units of 128 (R171). -/
def sharedNeed (v : Variant) (ng : Nat) (shelf : Bool) : Nat := alignUp v.shared 128 + alignUp (ng * v.spill) 128 + if shelf then 16384 else 0
/-- Shared bytes a block holds; an evicted group's spill window is free (R422). -/
def Block.sharedUse (b : Block) : Nat :=
  let kept := b.groups.filter fun g => match g.stat with | .benched c _ => c != 0 | _ => true
  alignUp b.shared 128 + alignUp (kept.length * b.spill) 128 + if b.shelf then 16384 else 0
/-- What a block of the grid's variant takes. -/
def Grid.needOf (g : Grid) (shelf : Bool) : Need :=
  let v := g.kd.vars.getD g.var ⟨0, 0, 0, 16, 0, 0⟩
  let ng := groupsOf g.tpb
  ⟨ng, v.nregs / 16, sharedNeed v ng shelf, ng * energyWeight g.kd.energy⟩
/-- The lowest front-end context free on a core. DESIGN CHOICE, log 59: the spec does not say which free context a block takes. -/
def State.freeFe (s : State) (core : Nat) : Option Nat :=
  (List.range 16).find? fun k => !((s.resident core).any (·.fe.slot == k) || (s.shelvesOn core).any (·.fe == k))
/-- Bytes of shared memory and units of energy that a core has granted or reserved. -/
def State.bytesUsed (s : State) (core : Nat) : Nat := ((s.resident core).map (·.sharedUse)).sum + ((s.shelvesOn core).map (·.need.bytes)).sum
def State.energyUsed (s : State) (core : Nat) : Nat :=
  ((s.resident core).map fun b => b.groups.length * b.weight).sum + ((s.shelvesOn core).map (·.need.energy)).sum
/-- A block's places on a core beside everything it holds and has reserved, if it fits (R171, R172, R310). -/
def State.fitOn (s : State) (core : Nat) (n : Need) : Option (List (Nat × Nat) × Nat) :=
  if s.bytesUsed core + n.bytes ≤ 2 ^ 19 ∧ s.energyUsed core + n.energy ≤ 192 then
    (placeGroups n.units n.ng (s.slotsUsed core)).bind fun ps => (s.freeFe core).map fun fe => (ps, fe)
  else none

end Sys2Proof.Machine
end

