-- ==== Sys2Proof/Machine/Frames.lean ====
section
/-! DEFINITION. Block bench frames and checkpoint images (spec/17 R426, R428). Layouts that the spec leaves open are the model's (log 34). -/

namespace Sys2Proof.Machine

/-- Insertion sort. -/
def insertBy {α : Type} (le : α → α → Bool) (x : α) : List α → List α
  | [] => [x]
  | y :: r => if le x y then x :: y :: r else y :: insertBy le x r
def sortBy {α : Type} (le : α → α → Bool) (l : List α) : List α := l.foldr (insertBy le) []

/-- Bytes a group's frame takes with its spill window, and in a block frame (R403, R426). -/
def Block.grpBytes (b : Block) : Nat := alignUp (grpFrameSize b.nregs + b.spill) 128
/-- Where the group frames begin in a block frame. -/
def Block.grpStart (b : Block) : Nat := alignUp (0x2200 + b.shared + if b.shelf then 16384 else 0) 128
def Block.frameSize (b : Block) : Nat := b.grpStart + b.groups.length * b.grpBytes
/-- Where group `gi`'s frame lies in the block frame. -/
def Block.grpOfs (b : Block) (gi : Nat) : Nat := b.grpStart + gi * b.grpBytes

/-- Bits to bytes, the first bit lowest. -/
def bitsBytes (n : Nat) (f : Nat → Bool) : List Byte :=
  leBytes n ((List.range (8 * n)).foldl (fun x i => if f i then x + 2 ^ i else x) 0)
/-- An engine context's 256 bytes: its counter, its next number, and the words of what it holds (R426; their order is the model's, log 34). -/
def tlBytes (t : Tl) (ws : List Nat) : List Byte := padTo 256 (leBytes 8 t.ctr ++ leBytes 8 (t.given + 1) ++ ws.flatMap (leBytes 4))
/-- The words of a pass. -/
def Pass.opWords (p : Pass) : List Nat := [p.kvt, p.nseq, p.maxb, p.kvfmt + 256 * p.hd, p.qt, p.orow, p.srow, p.cab, p.tdofs, p.mkofs]
/-- The latched weight descriptor and the array status; the pass; the weight stream. -/
def MCtx.words (c : MCtx) : List Nat := c.status.toNat :: c.wd.elim [] fun d => [1, d.wofs, d.wstep, d.wcmp + 256 * d.wfmt]
def ACtx.words (c : ACtx) : List Nat := c.pass.elim [] fun p => 1 :: p.next :: p.opWords
def PCtx.words (c : PCtx) : List Nat := c.stream.elim [] fun d => [1, d.src, d.src / 2 ^ 32, d.ring, d.ring / 2 ^ 32, d.lbytes, d.nlayer, d.nwin, d.first, d.next, d.arrived.length, d.freed.length]
/-- A group's frame inside a block frame: as it stands where the group is benched already, with the spill window that the block still holds for it (R426-R428). -/
def State.grpFrameBytes (s : State) (b : Block) (gi frame : Nat) : List Byte :=
  match b.groups[gi]? with
  | none => []
  | some g =>
    let fresh := g.frame b gi 3 (b.grpFlags g gi) frame (s.rd (kSpill b.uid gi 0) b.spill)
    padTo b.grpBytes (match g.stat with
      | .benched 0 f => (s.devRead (s.ctxD b.ctx).via f.toNat (grpFrameSize b.nregs + b.spill) [0, 1, 2, 3, 4, 5]).getD fresh
      | .benched _ f => (s.devRead b.ctx f.toNat (grpFrameSize b.nregs) [0, 1, 2, 3, 4, 5]).elim fresh fun bs => bs ++ s.rd (kSpill b.uid gi 0) b.spill
      | _ => fresh)
/-- A block frame (R426). -/
def State.blockFrame (s : State) (b : Block) (frame : Nat) : List Byte :=
  let t := (b.fe.threads[0]?).getD (mkThread 64 0 0 true)
  let reg (k : Nat) : Reg := t.regs[k]?.getD ⟨0, false, .full⟩
  let bar (i : Nat) : List Byte := match (b.bars.find? (·.1 == i)).map (·.2) with
    | some r => leBytes 4 (r.arrived.length + 64 * r.n)
    | none => zerosB 4
  let cbar (i : Nat) : List Byte := match s.cbars.find? fun c => c.grid == b.grid && c.cluster == b.cluster && c.id == i with
    | some c => leBytes 4 ((c.arrived.filter (·.1 == b.uid)).length + 64 * c.n)
    | none => zerosB 4
  let ring (i : Nat) : List Byte := match b.ring? (i + 1) with
    | some r => leBytes 4 r.ofs ++ leBytes 4 r.depth ++ leBytes 4 r.head ++ leBytes 4 r.tail
    | none => zerosB 16
  let rec_ (i : Nat) : List Byte := match b.recs.getD i .none with
    | .rcd r | .poisoned r => padTo 128 r.raw
    | .none => zerosB 128
  let lines := b.shared / 128
  leBytes 4 0x4B464242 ++ leBytes 1 (if b.shelf then 1 else 0) ++ leBytes 1 b.groups.length ++ zerosB 2 ++ leBytes 4 b.shared ++ leBytes 4 b.idx ++
  padTo 128 t.record ++ (List.range 64).flatMap (fun k => leBytes 4 (reg k).v.toNat) ++ bitsBytes 8 (fun k => decide (k < 64) && (reg k).p) ++
  (List.range 16).flatMap bar ++ (List.range 4).flatMap cbar ++ leBytes 2 b.slots.toNat ++ leBytes 1 (b.token.getD 255) ++ zerosB 21 ++
  padTo 256 (b.tray.flatMap fun w => leBytes 4 w.v.toNat) ++ leBytes 1 b.tray.length ++ zerosB 7 ++
  bitsBytes 8 (fun k => (b.tray[k]?).elim false (·.p)) ++ (List.range 15).flatMap ring ++ (List.range 16).flatMap rec_ ++
  bitsBytes 4 (fun k => if k < 16 then (match b.recs.getD k .none with | .none => false | _ => true) else (match b.recs.getD (k - 16) .none with | .poisoned _ => true | _ => false)) ++
  zerosB 1020 ++
  b.copies.flatMap (fun c => tlBytes c.tl []) ++ tlBytes b.matrix.tl b.matrix.words ++ tlBytes b.attn.tl b.attn.words ++ tlBytes b.pagec.tl b.pagec.words ++ tlBytes b.coll.tl [] ++ tlBytes b.handle.tl [] ++
  zerosB 0x700 ++
  bitsBytes 0x200 (fun k => if k < lines then !b.absent.contains k else b.shelf && decide (k < lines + 128) && !b.absent.contains (4096 + k - lines)) ++
  s.rd (kShared b.uid 0) b.shared ++ (if b.shelf then s.rd (kShared b.uid 0x80000) 16384 else []) ++
  zerosB (b.grpStart - (0x2200 + b.shared + if b.shelf then 16384 else 0)) ++
  (List.range b.groups.length).flatMap fun gi => s.grpFrameBytes b gi frame

/-! ## Checkpoint images (R428) -/

/-- The blocks of a context in rising %block. -/
def State.ctxBlocks (s : State) (ctx : Nat) : List Block := sortBy (fun a b => a.idx ≤ b.idx) (s.blocks.filter (·.ctx == ctx))
/-- Offsets of the block frames in the image, from the end of the table on. -/
def frameOffsets : Nat → List Block → List (Nat × Nat)
  | _, [] => []
  | o, b :: r => (b.uid, o) :: frameOffsets (o + b.frameSize) r
def imageFrames (bs : List Block) : List (Nat × Nat) := frameOffsets (alignUp (0x1000 + 8 * bs.length) 128) bs
/-- Where the block frames end. -/
def imageEnd (bs : List Block) : Nat := alignUp (0x1000 + 8 * bs.length) 128 + (bs.map (·.frameSize)).sum
/-- Where a group's frame lies in a context's image. -/
def State.imageGrp (s : State) (ctx image blk gi : Nat) : Nat :=
  let bs := s.ctxBlocks ctx
  image + assocGet (imageFrames bs) blk 0 + ((bs.find? (·.uid == blk)).elim 0 (·.grpOfs gi))
/-- Range records, or the page grid's progress. -/
def Grid.gridBytes (g : Grid) : List Byte :=
  match g.kind with
  | .range => leBytes 8 g.recs.length ++ g.recs.flatMap fun r => leBytes 8 r.idx ++ leBytes 8 r.lo ++ leBytes 8 r.hi ++ leBytes 8 r.grain
  | .page =>
    let n := ceilDiv g.nblocks 8
    bitsBytes n (fun i => g.pagesDone.contains i && g.resOf i != .skipped) ++ bitsBytes n (fun i => g.pagesDone.contains i && g.resOf i == .skipped) ++
      leBytes 8 g.promo.length ++ g.promo.flatMap fun i => leBytes 8 i
  | .index => []
/-- Cores that a context's blocks occupy. -/
def coresUsed (bs : List Block) : List Nat := (sortBy (fun a b => decide (a ≤ b)) ((bs.filter (·.onCore)).map (·.core))).eraseDups
/-- Bytes of a core's section. -/
def coreSection : Nat := 8 + 8 * 2 ^ 20 + 2 * 2 ^ 20
/-- The command and descriptor words of a matrix operation, as its record in an image keeps them (log 34). -/
def MKind.opWords : MKind → List Nat
  | .mwld d => [0, d.wofs, d.wstep, d.wcmp, d.wfmt]
  | .mloop row m n z aofs astride scb afmt kofs d => [1 + if z then 256 else 0, row, m + 65536 * n, aofs, astride, scb + 65536 * afmt, kofs, d.wofs, d.wstep, d.wcmp + 256 * d.wfmt]
  | .mrowsc row m fofs => [2, row, m, fofs]
  | .mdrain row m z dofs dstride scb t dfmt k0 => [3 + if z then 256 else 0, row, m, dofs, dstride, scb + 65536 * dfmt, (t % 256).toNat, k0]
  | .mzero row m => [4, row, m]
  | .amask row m mofs => [5, row, m, mofs]
/-- The words of a copy: its kind, its four command words (R297), and as many coordinates as the 64 bytes hold; a frozen block's operation keeps them all (log 34). -/
def CopyOp.opWords (o : CopyOp) : List Nat :=
  (match o.kind with | .cpy => 0 | .cpys => 1 | .cpyg => 2 | .cpyc => 3) :: o.cmd.map (·.toNat) ++ ((o.sc ++ o.dc).map fun c => (c % 2 ^ 32).toNat)
/-- The words of a drop or a bind: home, object index, what it is, and its generation with the exponent or the finaliser record's address. -/
def HMsg.opWords (m : HMsg) : List Nat :=
  [m.home, m.idx] ++ match m.kind with
    | .drop g e => [0, g.toNat, e]
    | .bind g f => [1, g.toNat, f.toNat % 2 ^ 32, f.toNat / 2 ^ 32]
def CollOp.opWords (o : CollOp) : List Nat := [o.kind, o.src, o.src / 2 ^ 32, o.dst, o.dst / 2 ^ 32, o.count, o.rank, o.fmt + 256 * o.op, o.cid, o.use]
/-- An operation's 64 bytes: block and context kind, number, progress, then ten words of its command and descriptor (R428; log 34). -/
def opBytes (blk kind no prog : Nat) (ws : List Nat) : List Byte :=
  padTo 64 (leBytes 4 blk ++ leBytes 4 kind ++ leBytes 8 no ++ leBytes 8 prog ++ (ws.take 10).flatMap (leBytes 4))
/-- The handle messages that have not been handled at home, but for drops in store queues. -/
def State.hmsgs (s : State) : List HMsg := s.hc ++ s.hpath.map (·.m)
def Block.opsBytes (b : Block) (hc : List HMsg) : List Byte :=
  (b.copies.zipIdx.flatMap fun c => c.1.ops.flatMap fun o => opBytes b.idx (16 * c.2) o.no o.floor o.opWords) ++
  (b.matrix.ops.flatMap fun o => opBytes b.idx 1 o.no o.step o.kind.opWords) ++
  (b.attn.ops.flatMap fun o => opBytes b.idx 2 o.no (match o.kind with | .atile k .. => k | .aseq => 0) o.pass.opWords) ++
  (b.pagec.pend.flatMap fun n => opBytes b.idx 3 n 0 ((b.pagec.fly.find? (·.no == n)).elim [] fun l => [l.layer, l.src, l.src / 2 ^ 32, l.dst, l.dst / 2 ^ 32, l.page, l.pages])) ++
  (b.coll.ops.flatMap fun o => opBytes b.idx 4 o.no (if o.joined then 1 else 0) o.opWords) ++ (b.handle.ops.flatMap fun n => opBytes b.idx 5 n.1 (if n.2 then 1 else 0) ((hc.find? fun m => m.op == some (b.uid, n.1)).elim [] (·.opWords)))
/-- The parts of an image: offsets of GRIDS, CORES and OPS, and the length in bytes. -/
structure ImageMap where
  grids : Nat
  cores : Nat
  ops : Nat
  len : Nat
  deriving DecidableEq, Repr
def imageMap (g : Grid) (bs : List Block) (hc : List HMsg) : ImageMap :=
  let gr := imageEnd bs
  let co := alignUp (gr + g.gridBytes.length) 128
  let op := alignUp (co + 8 + (coresUsed bs).length * coreSection) 128
  ⟨gr, co, op, alignUp (op + (bs.flatMap (·.opsBytes hc)).length + 1) 1024⟩
/-- A block's frame for an image: a block benched whole has it already. -/
def State.imageFrame (s : State) (b : Block) (frame : Nat) : List Byte :=
  match b.bench with
  | .out va .. => (s.devRead b.ctx va.toNat b.frameSize [0, 1, 2, 3, 4, 5]).getD (s.blockFrame b frame)
  | _ => s.blockFrame b frame
/-- Writes the image of context `ctx` at an address of context `via`, whose queue holds the SAVE. -/
def State.writeImage (s : State) (ctx via image : Nat) (g : Grid) : State :=
  let bs := s.ctxBlocks ctx
  let m := imageMap g bs s.hmsgs
  let kind := match g.kind with | .index => 0 | .page => 1 | .range => 2
  let hdr := leBytes 4 0x4D494B43 ++ leBytes 4 (m.len / 1024) ++ leBytes 2 ctx ++ leBytes 1 kind ++ zerosB 0x35 ++ padTo 128 g.pkt ++
    leBytes 8 0x1000 ++ leBytes 8 m.grids ++ leBytes 8 m.cores ++ leBytes 8 m.ops ++ zerosB (0x1000 - 0xE0)
  let tab := (imageFrames bs).flatMap fun x => leBytes 8 x.2
  let s := s.devWrite via image (hdr ++ tab)
  let s := bs.foldl (fun s b => s.devWrite via (image + assocGet (imageFrames bs) b.uid 0) (s.imageFrame b (image + assocGet (imageFrames bs) b.uid 0))) s
  let s := s.devWrite via (image + m.grids) g.gridBytes
  let cs := coresUsed bs
  let s := s.devWrite via (image + m.cores) (leBytes 8 cs.length)
  let s := cs.zipIdx.foldl (fun s c =>
    let a := image + m.cores + 8 + c.2 * coreSection
    s.devWrite via a (leBytes 4 (c.1 / 48) ++ leBytes 4 (c.1 % 48) ++ s.rd (kAcc c.1 0 0) (8 * 2 ^ 20) ++ s.rd (kCab c.1 0) (2 * 2 ^ 20))) s
  s.devWrite via (image + m.ops) (bs.flatMap (·.opsBytes s.hmsgs))

end Sys2Proof.Machine
end

