-- ==== Sys2Proof/Machine/Admit.lean ====
section
/-! DEFINITION. Admission, ends, whole-block benches and returns of blocks and groups (spec/06 R155, R170-R174; spec/07 R205, R207, R210; spec/17 R425, R426, R429; spec/19 R456). -/

namespace Sys2Proof.Machine

/-! ## Cores of a context's partition (R458, R459) -/

def halfDie (core : Nat) : Nat := 2 * (core / 48) + core % 48 / 24
def State.inPart (s : State) (ctx core : Nat) : Bool := (s.partD (s.ctxD ctx).part).mask.getLsbD (halfDie core)
/-- Cores of the partition on the dies allowed, in rising number (R173). -/
def State.coresFor (s : State) (ctx : Nat) (die : Nat → Bool) : List Nat := (List.range nCores).filter fun c => die (c / 48) && s.inPart ctx c
/-- Dies a grid's blocks may take: the cluster's own (LAUNCH), or the mask (R384). -/
def Grid.dieOk (g : Grid) (cluster d : Nat) : Bool :=
  if g.kind = .index then g.pmap.getD cluster 4 == d else (g.pmap.getD 0 0).testBit d
/-- The context's units may start. -/
def State.mayStart (s : State) (ctx : Nat) : Bool := !s.ctxStopped ctx && !s.halting ctx
/-- A benched group of the core is ready to return: it goes ahead of any new block (R425). -/
def State.returnsOn (s : State) (core : Nat) : Bool := s.returns.any fun r => (s.blk? r.1).elim false fun b => b.core == core && b.onCore && s.mayStart b.ctx
/-- The block is benched whole, and the block it awaits has its result: it waits to return (R210, R456). -/
def State.backs (s : State) (b : Block) : Bool :=
  s.mayStart b.ctx && (match b.bench with
    | .out _ t _ => (s.grid? b.grid).elim false fun g => (g.resOf t) != .pending
    | _ => false)
/-- A block of the grid waits to return: it goes ahead of those not yet started (R210). -/
def State.blockWaits (s : State) (grid : Nat) : Bool := s.blocks.any fun b => b.grid == grid && s.backs b
/-- A block of the partition waits to return: it goes ahead of any shelf reservation there (R456). -/
def State.anyWaits (s : State) (ctx : Nat) : Bool := s.blocks.any fun b => (s.ctxD b.ctx).part == (s.ctxD ctx).part && s.backs b

/-! ## Eviction of frozen groups (R429) -/

/-- A context stands saved: its blocks are frozen. -/
def State.frozen (s : State) (ctx : Nat) : Option Nat := match (s.ctxD ctx).saved with | .saved im => some im | _ => none
/-- Frozen groups of other contexts on a core, highest slot first. -/
def State.evictable (s : State) (core ctx : Nat) : List (UnitRef × Nat × Nat) :=
  let gs := (s.resident core).flatMap fun b => if b.ctx = ctx ∨ (s.frozen b.ctx).isNone then [] else
    (b.groups.zipIdx.filter fun x => x.1.onCore).map fun x => (UnitRef.group b.uid x.2, x.1.slot, x.1.sched)
  sortBy (fun a b => b.2.1 < a.2.1 || (b.2.1 == a.2.1 && b.2.2 ≤ a.2.2)) gs
/-- Benches a frozen group as evicted: its frame in the image says CAUSE 0, its slot, register units and spill window are free, the token passes on and the benching is counted (R167, R422, R440). One that held its slot at a service call or a debug stop still waits for its reply or resume (R430). -/
def State.evict (s : State) (u : UnitRef) : State :=
  match s.blk? u.blk with
  | none => s
  | some b =>
    let va := s.imageGrp b.ctx ((s.frozen b.ctx).getD 0) u.blk u.grpNo
    (((s.devWrite (s.ctxD b.ctx).via (va + 4) [0#8]).modGrp u fun g =>
      { g with stat := .benched 0 (BitVec.ofNat 56 va), waits := [], owed := match g.stat with | .held 2 => 2 | .held 4 => 4 | _ => 0 }).modBlk u.blk (·.tokenCheck)).bump b.ctx 7 1
/-- Evicts on a core what the incoming block needs and no more. -/
def State.makeRoom (s : State) (core ctx : Nat) (n : Need) : Option State :=
  let us := (s.evictable core ctx).map (·.1)
  let out (l : List UnitRef) : State := l.foldl (·.evict) s
  let fits (l : List UnitRef) : Bool := ((out l).fitOn core n).isSome
  ((List.range (us.length + 1)).find? fun k => fits (us.take k)).map fun k =>
    let pick := us.take k
    out (pick.foldl (fun l u => if fits (l.filter (· != u)) then l.filter (· != u) else l) pick)

/-! ## Admission (R173) -/

def Grid.variant (g : Grid) : Variant := g.kd.vars.getD g.var ⟨0, 0, 0, 16, 0, 0⟩
/-- A block starts on a core. -/
def State.admitBlk (s : State) (g : Grid) (core : Nat) (i : BlkId) (places : List (Nat × Nat)) (fe : Nat) : State :=
  { s with blocks := s.blocks ++ [mkBlock s.nextUid g g.variant core i places fe s.nextAdm], nextUid := s.nextUid + 1 }
/-- The first of the cores with room, with the places there; or the first that has it once frozen groups have left (R173, R429). -/
def State.placeFor (s : State) (ctx : Nat) (cores : List Nat) (n : Need) : Option (State × Nat × List (Nat × Nat) × Nat) :=
  (cores.findSome? fun c => (s.fitOn c n).map fun p => (s, c, p)).orElse fun _ =>
    cores.findSome? fun c => (s.makeRoom c ctx n).bind fun t => (t.fitOn c n).map fun p => (t, c, p)
/-- A block starts on the first core that can take it. -/
def State.admitOn (s : State) (g : Grid) (cores : List Nat) (i : BlkId) : Option State :=
  (s.placeFor g.ctx cores (g.needOf i.shelf)).map fun x => x.1.admitBlk g x.2.1 i x.2.2.1 x.2.2.2
/-- The blocks of a stage start together, in rising index, or none does. -/
def State.admitAll (s : State) (g : Grid) (cores : List Nat) : List BlkId → Option State
  | [] => some { s with nextAdm := s.nextAdm + 1 }
  | i :: r => (s.admitOn g cores i).bind fun t => t.admitAll g cores r
/-- Cores that new blocks of the grid may take. -/
def State.newCores (s : State) (g : Grid) (cluster : Nat) : List Nat := (s.coresFor g.ctx (g.dieOk cluster)).filter fun c => !s.returnsOn c
/-- A block of a range task: %cluster reads %block (R150). -/
def rangeId (i : Nat) : BlkId := ⟨i, i, 0, 0xFFFFFFFF, 0, false⟩

/-- A page's block is created with the resources of its shelf, after every byte of the page has been performed (R173, R283, R313). -/
def State.createPage (s : State) (g : Grid) (p : PgShelf) (st : Nat) : State :=
  let g := { g with var := p.var }
  let b := mkBlock p.uid g g.variant p.core ⟨p.idx, p.idx, 0, BitVec.ofNat 32 p.idx, BitVec.ofNat 32 st, true⟩ p.places p.fe s.nextAdm
  { s.modGrid g.id (fun g => { g with pages := g.pages.filter (·.idx != p.idx), pagesDone := p.idx :: g.pagesDone, created := g.created + 1 }) with
    blocks := s.blocks ++ [b], nextAdm := s.nextAdm + 1 }
/-- BLOCK_ADMISSION (R173, R206, R283): the blocks of the grid's next stage, the range task's first waiting block, or the block of a delivered page. -/
def execBlockAdmission (grid : Nat) (s : State) : Host.Outcome State Fault Refusal :=
  runEvent (do
    let s ← get
    let g ← someA (s.grid? grid) .idle
    needA (s.mayStart g.ctx && (g.kind == .page || !s.blockWaits grid)) .idle
    match g.kind with
    | .page =>
      let p ← someA (g.pages.find? (·.pstat.isSome)) .idle
      set (s.createPage g p (p.pstat.getD 0))
    | .index =>
      needA (decide (g.nextClu < g.clusters)) .idle
      let ids := (List.range g.bpc).map fun b => (⟨g.kd.stages * (g.bpc * g.nextClu + b) + g.nextStage, g.nextClu, g.nextStage, 0xFFFFFFFF, 0, false⟩ : BlkId)
      let t ← someA (s.admitAll g (s.newCores g g.nextClu) ids) .idle
      set (t.modGrid grid fun g =>
        if g.nextStage + 1 < g.kd.stages then { g with nextStage := g.nextStage + 1 } else { g with nextStage := 0, nextClu := g.nextClu + 1 })
    | .range =>
      let r ← someA (g.recs.find? (·.waiting)) .idle
      let t ← someA (s.admitAll g (s.newCores g 0) [rangeId r.idx]) .idle
      set (t.modGrid grid fun g => { g with recs := g.recs.map fun x => if x.idx = r.idx then { x with waiting := false } else x })) s

/-! ## The end of a block (R155) -/

/-- Every engine operation that the block issued has completed. -/
def Block.enginesDone (b : Block) : Bool :=
  b.copies.all (·.ops == []) && b.matrix.ops == [] && b.attn.ops == [] && b.attn.move == none && b.pagec.pend == [] &&
    b.coll.ops == [] && b.handle.ops == []
/-- Nothing that the unit issued is still on its way. -/
def Grp.quiet (g : Grp) : Bool := g.sq == [] && g.threads.all (·.unp == [])
def Block.over (b : Block) : Bool :=
  b.groups.all (fun g => g.gone && g.quiet) && b.fe.gone && b.fe.quiet && b.enginesDone
/-- All blocks of the grid have started, been skipped or ended, and none is left (R147, R207). -/
def State.gridDone (s : State) (g : Grid) : Bool :=
  !(s.blocks.any (·.grid == g.id)) &&
    match g.kind with
    | .index => decide (g.clusters ≤ g.nextClu)
    | .page => decide (g.nblocks ≤ g.pagesDone.length)
    | .range => g.recs.all fun r => !r.waiting && decide (r.hi ≤ r.lo)
/-- What the grid keeps of an ended block: its result, its range record, its page (R205, R207, R209). -/
def Grid.blockGone (g : Grid) (idx : Nat) : Grid :=
  let g := if g.resOf idx = .pending then g.setRes idx .ended else g
  { g with recs := (g.recs.filter fun r => r.idx != idx || decide (r.lo < r.hi)).map fun r => if r.idx = idx then { r with owned := false } else r }
/-- The regions of a block that go with it. -/
def State.dropBlockMem (s : State) (b : Block) : State :=
  (List.range b.groups.length).foldl (fun s g => s.dropRegion (8 * (32 * b.uid + g) + 5)) (s.dropRegion (8 * b.uid + 4))
/-- Its regions' bytes are on the bench. -/
def State.takeBlockMem (s : State) (b : Block) : State :=
  (List.range b.groups.length).foldl (fun s g => s.takeRegion (8 * (32 * b.uid + g) + 5)) (s.takeRegion (8 * b.uid + 4))
/-- A block of the context that is over may end: also while its units stop under SAVE, where the retirement wins (R405, R409). -/
def State.mayEnd (s : State) (ctx : Nat) : Bool :=
  let c := s.ctxD ctx
  !s.halting ctx && c.halted.isNone && (match c.saved with | .saved _ => false | _ => true)
/-- BLOCK_END (R155, R454): the entry of a block that has not signalled keeps its result word. -/
def execBlockEnd (blk : Nat) (s : State) : Host.Outcome State Fault Refusal :=
  runEvent (do
    let s ← get
    let b ← someA (s.blk? blk) .idle
    let g ← someA (s.grid? b.grid) .idle
    needA (b.onCore && b.over && s.mayEnd b.ctx) .idle
    let s := if g.resOf b.idx = .pending then s.grtState g b.idx 3 else s
    let s := { s.dropBlockMem b with blocks := s.blocks.filter (·.uid != blk) }
    let s := (s.modGrid b.grid (·.blockGone b.idx)).cbarsCheck b.grid b.cluster
    set (match s.grid? b.grid with
      | some g => if g.fin && s.gridDone g then { s with grids := s.grids.filter (·.id != g.id) } else s
      | none => s)) s

/-! ## Range tasks: idle requests (R205, R207) -/

/-- The record with the most iterations left; a tie goes to the lower block. -/
def mostLeft : List RangeRec → Option RangeRec
  | [] => none
  | r :: l => match mostLeft l with
    | some x => if r.hi - r.lo < x.hi - x.lo ∨ (r.hi - r.lo = x.hi - x.lo ∧ x.idx < r.idx) then some x else some r
    | none => some r
/-- Admits a range block at once on the core of the request. -/
def admitRange (grid core idx : Nat) : Act Unit := do
  let s ← get
  let g ← someA (s.grid? grid) .idle
  let t ← someA (s.admitAll g [core] [rangeId idx]) .idle
  set (t.modGrid grid fun g => { g with recs := g.recs.map fun x => if x.idx = idx then { x with waiting := false } else x })
/-- IDLE_REQUEST (R205, R207): the records of the context's range grids share one table (R203). -/
def execIdleRequest (grid core : Nat) (s : State) : Host.Outcome State Fault Refusal :=
  runEvent (do
    let s ← get
    let g ← someA (s.grid? grid) .idle
    needA (g.kind == .range && s.mayStart g.ctx && !((s.tasksOf g.ctx).any (·.waiting)) && decide ((s.tasksOf g.ctx).length < 1024) &&
      !s.blockWaits grid && (s.newCores g 0).contains core) .idle
    match g.recs.find? fun r => !r.owned && decide (r.lo < r.hi) with
    | some r =>
      let s := s.modGrid grid fun g => { g with recs := g.recs.filter (· != r) }
      set (s.newRange grid r.lo r.hi r.grain)
      admitRange grid core g.created
    | none =>
      let r ← someA (mostLeft g.recs) .idle
      let n := r.hi - r.lo
      needA (decide (2 * r.grain ≤ n)) .idle
      let m := r.hi - n / 2
      let s := s.modGrid grid fun g => { g with recs := g.recs.map fun x => if x.idx = r.idx then { x with hi := m } else x }
      set (s.newRange grid m r.hi r.grain)
      admitRange grid core g.created) s

/-! ## Whole-block benches (R210, R426) -/

/-- A unit of which a split has been held at a GWAIT for `n` cycles, and its target, at cycle `now` of the core: the first whose target a test picks. -/
def Block.waiter (b : Block) (now n : Nat) (p : Nat → Bool) : Option (UnitRef × Nat) :=
  b.units.findSome? fun u => (b.grp? u).bind fun g => g.waits.findSome? fun w =>
    w.gwait.bind fun t => if w.since + n ≤ now ∧ p t then some (u, t) else none
/-- Block `i` of the grid has not been admitted and has no result. -/
def State.notAdmitted (s : State) (g : Grid) (i : Nat) : Bool := g.resOf i == .pending && !(s.blocks.any fun b => b.grid == g.id && b.idx == i)
/-- The page of block `i` goes to the head of the sense queue (R210). -/
def Grid.promote (g : Grid) (i : Nat) : Grid :=
  if g.kind = .page ∧ !(g.pages.any (·.idx == i)) ∧ !(g.pagesDone.contains i) then { g with promo := i :: g.promo.filter (· != i) } else g
/-- GWAIT_BENCH_DELAY_EXPIRY: the block begins to stop; once its units and engines are quiet it leaves the core with its frame written, and then the awaited page is promoted (R210). Where the bench area has no place the bench does not take place (R403). -/
def execGwaitBenchDelayExpiry (blk : Nat) (s : State) : Host.Outcome State Fault Refusal :=
  runEvent (do
    let s ← get
    let b ← someA (s.blk? blk) .idle
    let g ← someA (s.grid? b.grid) .idle
    needA (s.mayStart b.ctx) .idle
    match b.bench with
    | .out .. => idleA
    | .none =>
      let (u, t) ← someA (b.waiter (s.cycleOf b.core).toNat (s.ctxD b.ctx).bdly (s.notAdmitted g)) .idle
      set (s.modBlk blk fun b => { b with bench := .stopping t u })
    | .stopping t u =>
      if !s.notAdmitted g t then set (s.modBlk blk fun b => { b with bench := .none }) else
      needA (b.enginesDone && b.units.all fun u => (b.grp? u).elim true fun x => (u.isFront || x.runs == 0) && !x.isLeaving && s.drained u x) .idle
      match s.benchAlloc b.ctx b.frameSize with
      | none => set (s.modBlk blk fun b => { b with bench := .none })
      | some (va, s) =>
        let s := (s.devWrite b.ctx va (s.blockFrame b va)).bump b.ctx 7 (b.groups.filter (·.onCore)).length
        let s := s.modCore b.core fun c => { c with cur := c.cur.map fun o => if o.elim false (·.blk == blk) then none else o }
        set (((s.takeBlockMem b).modBlk blk fun b => { b with bench := .out (BitVec.ofNat 56 va) t u }).modGrid b.grid (·.promote t))) s

/-- A front-end thread as a block frame holds it (R426). -/
def State.unframeFe (s : State) (b : Block) (bs : List Byte) : Grp :=
  let t := Thread.ofRecord ((bs.drop 0x10).take 128) ((List.range 64).map fun k =>
    ⟨BitVec.ofNat 32 (fieldAt bs (0x90 + 4 * k) 4), (fieldAt bs 0x190 8).testBit k, .full⟩)
  let cl := if t.stat != .run ∨ s.clauseOk b t.pc then none else s.clauseOf b t.pc .computer 16
  { b.fe with threads := [{ t with cl := cl }], runs := 0, hold := 0, waits := [] }
/-- Shelves a page grid holds: its resident blocks and its reservations (R310, R456). -/
def State.shelvesUsed (s : State) (g : Grid) : Nat := (s.blocks.filter fun b => b.grid == g.id && b.shelf && b.onCore).length + g.pages.length
/-- A benched block back on a core from its frame's bytes (R425, R456). -/
def State.returnBlock (s : State) (b : Block) (core fe : Nat) (ps : List (Nat × Nat)) (bs : List Byte) : State :=
  let at_ (b : Block) : Block := { b with core := core, bench := .none }
  let sh := b.shared
  let s := s.putBytes (kShared b.uid 0) ((bs.drop 0x2200).take sh)
  let s := if b.shelf then s.putBytes (kShared b.uid 0x80000) ((bs.drop (0x2200 + sh)).take 16384) else s
  let (gs, s, _) := b.groups.zipIdx.foldl (fun (acc : List Grp × State × List (Nat × Nat)) x =>
    let gb := (bs.drop (b.grpOfs x.2)).take b.grpBytes
    let window (s : State) : State := s.putBytes (kSpill b.uid x.2 0) ((gb.drop (grpFrameSize b.nregs)).take b.spill)
    -- a group that was benched before stays on the bench; its spill window is the block's (R426)
    if !x.1.onCore then (acc.1 ++ [x.1], (match x.1.stat with | .benched 0 _ => acc.2.1 | _ => window acc.2.1), acc.2.2) else
    let p := acc.2.2.headD (0, 0)
    let g := { acc.2.1.unframe (at_ b) x.1 x.2 gb with sched := p.1, slot := p.2, admitted := s.nextAdm }
    (acc.1 ++ [g], window acc.2.1, acc.2.2.tail)) ([], s, ps)
  let f := s.unframeFe (at_ b) bs
  { s.modBlk b.uid (fun b => { at_ b with groups := gs, fe := { f with slot := fe } }) with nextAdm := s.nextAdm + 1 }
/-- BLOCK_RETURN (R210, R429, R456): the awaited block has its result, and the lowest core that can take the block does, frozen groups giving way. -/
def execBlockReturn (blk : Nat) (s : State) : Host.Outcome State Fault Refusal :=
  runEvent (do
    let s ← get
    let b ← someA (s.blk? blk) .idle
    let g ← someA (s.grid? b.grid) .idle
    needA (s.mayStart b.ctx) .idle
    match b.bench with
    | .out va t _ =>
      needA (g.resOf t != .pending && (!b.shelf || decide (s.shelvesUsed g < g.shelves))) .idle
      let n := { g.needOf b.shelf with ng := (b.groups.filter (·.onCore)).length, units := b.nregs / 16,
                                        bytes := b.sharedUse, energy := b.groups.length * b.weight }
      let (s, c, p) ← someA (s.placeFor b.ctx (s.coresFor b.ctx (g.dieOk b.cluster)) n) .idle
      let bs ← someA (s.devRead b.ctx va.toNat b.frameSize [0, 1, 2, 3, 4, 5]) .idle
      set ((s.returnBlock b c p.2 p.1 bs).benchFree b.ctx va.toNat)
    | _ => idleA) s

/-! ## Limits (R210, R421) -/

/-- GWLIM or HLIM: 16 to 40, other values taken as 28 (R421). -/
def limitOf (x : Nat) : Nat := if 16 ≤ x ∧ x ≤ 40 then 2 ^ x else 2 ^ 28
def State.gwLimit (s : State) (ctx : Nat) : Nat := limitOf ((s.partD (s.ctxD ctx).part).fcw.extractLsb' 16 8).toNat
def State.hLimit (s : State) (ctx : Nat) : Nat := limitOf ((s.partD (s.ctxD ctx).part).fcw.extractLsb' 8 8).toNat
/-- Where a held split stands: the program counter of its first lane. -/
def Grp.waitPc (g : Grp) (w : SplitWait) : VAddr := ((lanesOf w.lanes).head?.bind (g.threads[·]?)).elim g.pcOf (·.pc)
/-- GWAIT_LIMIT_EXPIRY (R210): the first split that has been held at a GWAIT for the limit takes the fault; cycles on the bench are the command processor's and are not counted here (log 1). -/
def execGwaitLimitExpiry (u : UnitRef) (s : State) : Host.Outcome State Fault Refusal :=
  runEvent (do
    let s ← get
    let b ← someA (s.blk? u.blk) .idle
    let g ← someA (s.grp? u) .idle
    let out := match b.bench with | .out _ _ x => x == u | _ => false
    let w ← someA (g.waits.find? fun w => w.gwait.isSome && (out || decide (w.since + s.gwLimit b.ctx ≤ (s.cycleOf b.core).toNat))) .idle
    needA (s.mayStart b.ctx) .idle
    set (s.takeFault u fcGwait 0 0 0 (g.waitPc w) w.lanes)) s
/-- HOLD_LIMIT_EXPIRY (R421): one wait-limit record for a split that has been held for the limit, at an instruction, a clause header or a barrier, and the hold goes on. -/
def execHoldLimitExpiry (u : UnitRef) (s : State) : Host.Outcome State Fault Refusal :=
  runEvent (do
    let s ← get
    let b ← someA (s.blk? u.blk) .idle
    let g ← someA (s.grp? u) .idle
    let due (w : SplitWait) : Bool := w.gwait.isNone && !w.wlim && decide (w.since + s.hLimit b.ctx ≤ (s.cycleOf b.core).toNat)
    let w ← someA (g.waits.find? due) .idle
    needA (b.onCore && s.mayStart b.ctx && (s.ctxD b.ctx).fqRoom) .idle
    let r := mkRec b u g fcWait 1 ((g.waitPc w).setWidth 64) 0 w.lanes ((lanesOf w.lanes).headD 0)
    set (((s.modGrp u fun g => { g with waits := updFirst due (fun w => { w with wlim := true }) g.waits }).post b.ctx r .none).bump b.ctx 0xC 1)) s

/-! ## Groups come back (R425) -/

/-- GROUP_RETURN: the first group of the core that is ready to return takes a slot and the state of its frame. DESIGN CHOICE, log 78: it keeps the age of its admission; the groups of a block that returns whole take a new one. -/
def execGroupReturn (blk gi : Nat) (s : State) : Host.Outcome State Fault Refusal :=
  runEvent (do
    let s ← get
    let b ← someA (s.blk? blk) .idle
    let g ← someA (b.grp? (.group blk gi)) .idle
    needA (s.mayStart b.ctx && b.onCore) .idle
    let first := s.returns.find? fun r => (s.blk? r.1).elim false fun x => x.core == b.core && x.onCore && s.mayStart x.ctx
    needA (first == some (blk, gi)) .idle
    match g.stat with
    | .benched cause va =>
      let p ← someA (placeOne (s.slotsUsed b.core) (b.nregs / 16)) .idle
      needA (cause != 0 || decide (s.bytesUsed b.core + alignUp b.spill 128 ≤ 2 ^ 19)) .idle
      let bs ← someA (s.devRead (if cause = 0 then (s.ctxD b.ctx).via else b.ctx) va.toNat (grpFrameSize b.nregs + if cause = 0 then b.spill else 0) [0, 1, 2, 3, 4, 5]) .idle
      let g' := { s.unframe b g gi bs with sched := p.1, slot := p.2 }
      let s := if cause = 0 then s.wr (kSpill blk gi 0) (bs.drop (grpFrameSize b.nregs)) else s
      let s := { s with returns := s.returns.filter (· != (blk, gi)) }
      let s := s.modGrp (.group blk gi) fun _ => g'
      -- a frame in an image is no frame of the bench area
      set (if cause = 0 then s else s.benchFree b.ctx va.toNat)
    | _ => set { s with returns := s.returns.filter (· != (blk, gi)) }) s

end Sys2Proof.Machine
end

