-- ==== Sys2Proof/Machine/Pages.lean ====
section
/-! DEFINITION. The page engine: page grids, the ladder of a flash page, flash pages of copies, and weight streams (spec/12 R307-R318; spec/19 R453, R455). -/

namespace Sys2Proof.Machine

/-- The page engine works for a context: its cores run, and the context's units have not stopped (R415, R428, R493). -/
def State.pageRuns (s : State) (ctx : Nat) : Bool :=
  s.pgUp && !s.ctxStopped ctx && ((s.partD (s.ctxD ctx).part).halt.elim true fun h => !h.stopped)
/-- Raises a page-engine counter of the context's partition: 0 read-retries, 1 reconstructions, 2 backing fetches, 3 uncorrectable pages (R455). -/
def State.pgBump (s : State) (ctx i : Nat) : State := s.modPart (s.ctxD ctx).part fun p => { p with pgc := p.pgc.modify i (· + 1) }
/-- The page engine's channel of a page (R307). -/
def chanOfPage (p : Nat) : Nat := p % 256

/-! ## Page grids (R308-R314) -/

/-- The address of a page record. -/
def Grid.recAt (g : Grid) (i : Nat) : Nat := g.plist + 64 * i
/-- Writes STATUS where its address translates (R312, R313). -/
def State.pageStatus (s : State) (g : Grid) (i st : Nat) : State :=
  match s.devRead g.ctx (g.recAt i + 0x10) 4 [0, 1] with
  | some _ => s.devWrite g.ctx (g.recAt i + 0x10) (leBytes 4 st)
  | none => s
/-- An uncorrectable page (R314, R453, R454): STATUS, then the launch's policy; a skip leaves the result word. -/
def State.pageLost (s : State) (g : Grid) (i core chan retry badrec : Nat) : State :=
  let s := (s.pgBump g.ctx 3).pageStatus g i (2 ^ 31 + 2 ^ 30 + badrec * 2 ^ 29 + chan * 2 ^ 16 + retry)
  if g.faultPolicy then
    let r : FRec :=
      { unit := 4, cause := fcUncor, flags := 1, ctxs := 0, wher := whereBits core 0 0, block := BitVec.ofNat 32 i, ctxn := BitVec.ofNat 32 (g.ctx % 4096 + 2 ^ 21),
        pc := 0, faddr := BitVec.ofNat 64 (g.recAt i), mask := 0, info := 0, prog := BitVec.ofNat 64 (i % 65536), frame := 0 }
    (s.modGrid g.id fun g => { g with pgStop := true }).raiseHalt g.ctx fcUncor none (.page g.id) r
  else
    (s.modGrid g.id fun g => { (g.setRes i .skipped) with pages := g.pages.filter (·.idx != i), pagesDone := i :: g.pagesDone }).grtState g i 2
/-- The next page in list order, promoted pages first (R210, R310). -/
def Grid.nextPg (g : Grid) : Option Nat :=
  let isOpen (i : Nat) : Bool := decide (i < g.nblocks) && !(g.pages.any (·.idx == i)) && !(g.pagesDone.contains i)
  (g.promo.find? isOpen).orElse fun _ => ((List.range (g.nblocks - g.nextPage)).map (g.nextPage + ·)).find? isOpen
/-- The page number and backing address of a record; none where the record or FPAGE cannot be used (R312). -/
def State.pageRec (s : State) (g : Grid) (i : Nat) : Option (Nat × Nat) :=
  let a := g.recAt i
  if s.devPsn g.ctx a 64 then none else
  (s.devRead g.ctx a 64 [0, 1]).bind fun bs =>
    let va := fieldAt bs 0 7
    match s.engRange nCores g.ctx va 16384 false with
    | .ok [r] => if r.leaf.tier = 2 ∧ va % 16384 = 0 then some (r.leaf.pa % 2 ^ 43 / 16384, fieldAt bs 8 7) else none
    | _ => none
/-- SHELF_RESERVATION (R310, R429, R456): a core with room for a block with its shelf is reserved for the next page, the block's resources of the variant of this moment with it, and the sense begins. -/
def execShelfReservation (grid : Nat) (s : State) : Host.Outcome State Fault Refusal :=
  runEvent (do
    let s ← get
    let g ← someA (s.grid? grid) .idle
    needA (g.kind == .page && s.pgUp && s.mayStart g.ctx && !g.pgStop && !s.anyWaits g.ctx && decide (s.shelvesUsed g < g.shelves)) .idle
    let i ← someA g.nextPg .idle
    let (s, c, ps, fe) ← someA (s.placeFor g.ctx (s.newCores g 0) (g.needOf true)) .idle
    let s := { s with nextUid := s.nextUid + 1 }
    let take (g : Grid) : Grid :=
      { g with pages := g.pages ++ [⟨i, s.nextUid - 1, c, g.var, g.needOf true, ps, fe, none⟩], promo := g.promo.filter (· != i), nextPage := if i = g.nextPage then i + 1 else g.nextPage }
    let s := s.modGrid grid take
    match s.pageRec g i with
    | none => set (s.pageLost (take g) i c 0 0 1)
    | some (p, back) => set { s with jobs := s.jobs ++ [mkJob s.nextId (.grid grid i) p back], nextId := s.nextId + 1 }) s
/-- How a page was delivered, as %pstat has it (R309). -/
def pstatOf (chan cbits back recon retry : Nat) : Nat := chan * 2 ^ 16 + min 255 cbits * 2 ^ 8 + back * 2 ^ 5 + recon * 2 ^ 4 + retry
/-- A page in lines of 128 bytes. -/
def pageLines (d : List Byte × List Bool) : List Landing := (List.range 128).map fun k => ⟨k, (d.1.drop (128 * k)).take 128, (d.2.drop (128 * k)).take 128⟩
def State.dropJob (s : State) (no : Nat) : State := { s with jobs := s.jobs.filter (·.no != no) }
def State.setJob (s : State) (j : PageJob) : State := { s with jobs := s.jobs.map fun x => if x.no = j.no then j else x }
/-- A line of a page is written into its shelf (R281, R283); after the last, %pstat is latched and STATUS written (R313). -/
def State.landLine (s : State) (j : PageJob) (g : Grid) (i line : Nat) : Option State :=
  (g.pages.find? (·.idx == i)).bind fun p => (j.hand.find? (·.line == line)).map fun l =>
    let s := s.wrPsn (kShared p.uid (0x80000 + 128 * line)) l.bytes l.psn
    let left := j.hand.filter (·.line != line)
    if left != [] then s.setJob { j with hand := left }
    else
      let s := s.modGrid g.id fun g => { g with pages := g.pages.map fun p => if p.idx = i then { p with pstat := some j.pstat } else p }
      (s.pageStatus g i (2 ^ 31 + j.pstat)).dropJob j.no

/-! ## Weight streams (R316-R318) -/

def modPage (blk : Nat) (f : PCtx → PCtx) (s : State) : State := s.modBlk blk fun b => { b with pagec := f b.pagec }
def modLayer (blk no : Nat) (f : Layer → Layer) (s : State) : State := modPage blk (fun c => { c with fly := updFirst (·.no == no) f c.fly }) s
/-- A descriptor as its bytes hold it, for first layer F and first number n0. -/
def wstreamOf (bs : List Byte) (f n0 : Nat) : WStream :=
  { src := fieldAt bs 0 7, ring := fieldAt bs 8 7, lbytes := fieldAt bs 0x10 4, nlayer := fieldAt bs 0x14 4, nwin := fieldAt bs 0x18 1,
    backw := fieldAt bs 0x20 7, first := f, n0 := n0, next := f, arrived := [], freed := [] }
/-- R316's limits. -/
def WStream.legal (w : WStream) : Bool :=
  w.src % 16384 == 0 && w.ring % 16384 == 0 && w.lbytes % 16384 == 0 && decide (16384 ≤ w.lbytes ∧ 1 ≤ w.nlayer ∧ 1 ≤ w.nwin ∧ w.nwin ≤ 16)
def execWstreamStart (w : WC) (s : State) : Host.Outcome State Fault Refusal :=
  runUnit (fun v => perSplit w { src := [mSrc w.b 2, mSrc w.c 1], dst := some ⟨w.a, 2⟩ } true [0, 1] (fun ls x => do
    fenced v ls
    let a := (x.d 0).toNat % 2 ^ 56
    let f := (x.w 1).v.toNat
    let c := v.b.pagec
    let bad (e : Bool) : Act Unit := needA (!e) (.fault fcStream (BitVec.ofNat 64 a) x.lane 0)
    bad (c.stream.isSome || a % 64 != 0)
    let s ← get
    match s.engRange v.b.core v.b.ctx a 64 false with
    | .error _ => bad true
    | .ok rs =>
      needA (!s.runsHeld rs) .hold
      let (bs, ps) := s.engRead rs
      let n0 := c.tl.given + 1
      if ps.any id then
        modA (modPage v.u.blk fun c => { c with tl := ⟨c.tl.ctr, n0⟩, pend := c.pend ++ [n0], fly := c.fly ++ [⟨n0, 0, 0, 0, 0, 0, 0, false, .none, false, true⟩] })
      else
        let d := wstreamOf bs f n0
        bad (!d.legal || decide (d.nlayer ≤ f))
        let n := d.nlayer - f
        modA (modPage v.u.blk fun c => { c with tl := ⟨c.tl.ctr, c.tl.given + n⟩, pend := c.pend ++ (List.range n).map (n0 + ·), stream := some d })
      writeAll v ⟨w.a, 2⟩ ls ((words2 (BitVec.ofNat 64 n0)).map fun w => ⟨w, false⟩)
      done v) v) s
/-- The window of the last layer has arrived and been freed: the stream is no longer active (R317). -/
def WStream.tidy (w : WStream) : Option WStream := if w.freed.contains (w.nlayer - 1) then none else some w
def execWstreamRel (w : WC) (s : State) : Host.Outcome State Fault Refusal :=
  runUnit (fun v => perSplit w { src := [mSrc w.c 1] } true [0] (fun ls x => do
    fenced v ls
    let k := (x.w 0).v.toNat
    match v.b.pagec.stream with
    | none => faultA fcStream 0 x.lane
    | some d =>
      needA (decide (1 ≤ k ∧ k ≤ 16 ∧ k ≤ d.arrived.length)) (.fault fcStream 0 x.lane 0)
      modA (modPage v.u.blk fun c => { c with stream := ({ d with arrived := d.arrived.drop k, freed := d.freed ++ d.arrived.take k } : WStream).tidy })
      done v) v) s
def PCtx.raised (c : PCtx) : PCtx := { c with tl := tlRaise c.tl c.pend }
def execWstreamStop (w : WC) (s : State) : Host.Outcome State Fault Refusal :=
  runUnit (fun v => perSplit w {} true [] (fun ls x => do
    fenced v ls
    match v.b.pagec.stream with
    | none => faultA fcStream 0 x.lane
    | some d =>
      modA (modPage v.u.blk fun c =>
        let cut := (c.fly.filter fun l => decide (d.n0 ≤ l.no) && !l.begun).map (·.no)
        let later := (List.range (d.nlayer - d.next)).map fun i => d.n0 + (d.next - d.first) + i
        ({ c with pend := c.pend.filter fun n => !(cut.contains n || later.contains n), fly := c.fly.filter fun l => !cut.contains l.no, stream := none } : PCtx).raised)
      done v) v) s
/-- Posts a layer's fault, which is answered as a copy's (R304, R318). -/
def layerFault (b : Block) (l : Layer) (x : XErr) : Act Unit := do
  postEng b (mkEngRec b 4 x.code 0 l.no l.page x.va (256 * l.page)) (.eop b.uid .page l.no)
  modA (modLayer b.uid l.no fun l => { l with fault := .posted x.code x.va })
/-- The next page of a layer is sensed. -/
def askLayer (b : Block) (l : Layer) : Act Unit := do
  let s ← get
  let va := (l.src + 16384 * l.page) % 2 ^ 56
  match s.engRange b.core b.ctx va 16384 false, s.engRange b.core b.ctx (l.dst + 16384 * l.page) 16384 true with
  | .error x, _ => layerFault b l x
  | _, .error x => layerFault b l x
  | .ok rs, .ok _ =>
    match rs.head?.bind (·.page) with
    | none => layerFault b l (.illegal va)
    | some p => modA fun s => modLayer b.uid l.no (fun l => { l with begun := true }) (s.askPages (.stream b.uid l.no l.page) [p])
/-- WSTREAM_LAYER_START: a layer that waits for its next page goes on, or the next layer whose window is free starts (R318). -/
def execWstreamLayerStart (blk : Nat) (s : State) : Host.Outcome State Fault Refusal :=
  runEvent (do
    let b ← engBlock blk
    let s ← get
    needA s.pgUp .idle
    let busy (l : Layer) : Bool := s.jobs.any fun j => match j.tgt with | .stream k n _ => k == blk && n == l.no | _ => false
    match b.pagec.fly.find? fun l => l.fault == .none && !l.done && !l.bad && !busy l with
    | some l => askLayer b l
    | none =>
      let d ← someA b.pagec.stream .idle
      needA (decide (d.next < d.nlayer) && (decide (d.next - d.first < d.nwin) || d.freed.contains (d.next - d.nwin))) .idle
      let o := d.next * d.lbytes
      let l : Layer := { no := d.n0 + (d.next - d.first), layer := d.next, src := d.src + o, dst := (d.ring + d.next % d.nwin * d.lbytes) % 2 ^ 56,
                         back := if d.backw = 0 then 0 else d.backw + o, pages := d.lbytes / 16384, page := 0, begun := false, fault := .none, done := false, bad := false }
      modA (modPage blk fun c => { c with fly := c.fly ++ [l], stream := some { d with next := d.next + 1 } })
      askLayer b l) s
/-- A page of a layer is over: the layer goes on to the next, and has arrived after its last. -/
def layerNext (blk no : Nat) (s : State) : State :=
  let step (l : Layer) : Layer := { l with page := l.page + 1, done := decide (l.pages ≤ l.page + 1) }
  let arrive (c : PCtx) : PCtx :=
    match c.fly.find? (·.no == no), c.stream with
    | some l, some d => if l.done && decide (d.n0 ≤ no) then { c with stream := some { d with arrived := d.arrived ++ [l.layer] } } else c
    | _, _ => c
  modPage blk arrive (modLayer blk no step s)
/-- A line of a page is written into its window (R281, R318); after the last the layer goes on. A line that does not translate stops the page with its fault: it is sensed again once that is answered. A layer whose command carries an error writes nothing more (R443). -/
def layerLine (j : PageJob) (blk no line : Nat) : Act Unit := do
  let s ← get
  let b ← someA (s.blk? blk) .idle
  let l ← someA (b.pagec.fly.find? (·.no == no)) .idle
  let h ← someA (j.hand.find? (·.line == line)) .idle
  if l.bad then set (s.dropJob j.no) else
  match s.engRange b.core b.ctx (l.dst + 16384 * l.page + 128 * line) 128 true with
  | .error x =>
    layerFault b l x
    modA (·.dropJob j.no)
  | .ok rs =>
    needA (!s.runsHeld rs) .idle
    let s := s.engWrite rs h.bytes h.psn
    let left := j.hand.filter (·.line != line)
    set (if left != [] then s.setJob { j with hand := left } else layerNext blk no (s.dropJob j.no))

/-! ## The ladder (R312) -/

/-- The context that a page is sensed for. -/
def State.jobCtx (s : State) (j : PageJob) : Nat :=
  match j.tgt with
  | .grid g _ => (s.grid? g).elim 0 (·.ctx)
  | .copy b _ _ => (s.blk? b).elim 0 (·.ctx)
  | .stream b _ _ => (s.blk? b).elim 0 (·.ctx)
/-- The backing copy's address, 0 for none (R308, R315, R316). -/
def State.jobBack (s : State) (j : PageJob) : Nat :=
  match j.tgt with
  | .grid .. => j.back
  | .copy .. => 0
  | .stream b n p => (((s.blk? b).bind fun b => b.pagec.fly.find? (·.no == n)).map fun l => if l.back = 0 then 0 else l.back + 16384 * p).getD 0
/-- The seven other pages of a stripe and its parity page, which no address reaches: 2^29 + j (R307). -/
def stripeOthers (p : Nat) : List Nat := (((List.range 8).map (8 * (p / 8) + ·)).filter (· != p)) ++ [2 ^ 29 + p / 8]
/-- The page's bytes with their poison. -/
def State.pageBytes (s : State) (p : Nat) : List Byte × List Bool := (s.rd (kFlash (16384 * p)) 16384, s.rdPsn (kFlash (16384 * p)) 16384)
/-- The page is decoded, or fetched from its backing copy: a grid's page goes to its shelf and a layer's to its window, line by line; a copy keeps the bytes of this one sense (R315). -/
def jobGood (j : PageJob) (d : List Byte × List Bool) (cbits back recon : Nat) : Act Unit := do
  match j.tgt with
  | .grid .. => modA (·.setJob { j with phase := .landing, hand := pageLines d, pstat := pstatOf (chanOfPage j.ppage) cbits back recon j.retry })
  | .copy b c n => modA fun s => modOp b c n (fun o => { o with pages := o.pages ++ [⟨j.ppage, some d⟩] }) (s.dropJob j.no)
  | .stream .. => modA (·.setJob { j with phase := .landing, hand := pageLines d })
/-- The page is uncorrectable (step 5); a copy's page that fails step 3 counts nothing more and supplies poison (R315); a layer's is counted and its granules are written as poisoned (R318). -/
def jobLost (j : PageJob) : Act Unit := do
  let s ← get
  match j.tgt with
  | .grid g i =>
    let s := s.dropJob j.no
    let g ← someA (s.grid? g) .idle
    set (s.pageLost g i (((g.pages.find? (·.idx == i)).map (·.core)).getD 0) (chanOfPage j.ppage) j.retry 0)
  | .copy b c n => set (modOp b c n (fun o => { o with pages := o.pages ++ [⟨j.ppage, none⟩] }) (s.dropJob j.no))
  | .stream .. => set ((s.pgBump (s.jobCtx j) 3).setJob { j with phase := .landing, hand := pageLines (zerosB 16384, List.replicate 16384 true) })
/-- After steps 1 to 3: the backing copy, where there is one. -/
def afterRecon (j : PageJob) : Act Unit := do
  if (← get).jobBack j = 0 then jobLost j else modA (·.setJob { j with phase := .backing })
/-- PAGE_SENSE_DONE: one sense and decode ends, with the outcome that the environment gives (R312, R455); or a line of a decoded page is written into its shelf or its window (R281, R283, R318). -/
def execPageSenseDone (sense : Nat) (res : Decoded) (s : State) : Host.Outcome State Fault Refusal :=
  runEvent (do
    let s ← get
    let j ← someA (s.jobs.find? (·.no == sense)) .idle
    let ctx := s.jobCtx j
    needA (s.pageRuns ctx) .idle
    match j.phase with
    | .backing => idleA
    | .landing =>
      match res, j.tgt with
      | .landed line, .grid g i =>
        let g ← someA (s.grid? g) .idle
        set (← someA (s.landLine j g i line) .idle)
      | .landed line, .stream b n _ => layerLine j b n line
      | _, _ => idleA
    | .sense =>
      match res with
      | .landed _ => idleA
      | .good c => jobGood j (s.pageBytes j.ppage) c 0 0
      | .failed =>
        if j.retry < 7 then set ((s.pgBump ctx 0).setJob { j with retry := j.retry + 1 })
        else set ((s.pgBump ctx 1).setJob { j with phase := .recon, left := (stripeOthers j.ppage).map fun p => (p, 0) })
    | .recon =>
      match j.left with
      | [] => idleA
      | (p, r) :: rest =>
        let fin (j : PageJob) : Act Unit :=
          if j.left != [] then modA (·.setJob j) else if j.failed then afterRecon j else jobGood j (s.pageBytes j.ppage) j.cbits 0 1
        match res with
        | .landed _ => idleA
        | .good c => fin { j with left := rest, cbits := j.cbits + c }
        | .failed => if r < 7 then set ((s.pgBump ctx 0).setJob { j with left := (p, r + 1) :: rest }) else fin { j with left := rest, failed := true }) s
/-- PAGE_BACKING_FETCH_DONE (R312 step 4). -/
def execPageBackingFetchDone (sense : Nat) (s : State) : Host.Outcome State Fault Refusal :=
  runEvent (do
    let s ← get
    let j ← someA (s.jobs.find? (·.no == sense)) .idle
    let ctx := s.jobCtx j
    needA (j.phase == .backing && s.pageRuns ctx) .idle
    let core := match j.tgt with
      | .grid .. => nCores
      | .copy b _ _ | .stream b _ _ => (s.blk? b).elim nCores (·.core)
    match s.engRange core ctx (s.jobBack j) 16384 false with
    | .error x =>
      match j.tgt with
      | .stream b n _ =>
        let b ← someA (s.blk? b) .idle
        let l ← someA (b.pagec.fly.find? (·.no == n)) .idle
        layerFault b l x
        modA fun s => (s.pgBump ctx 2).dropJob j.no
      | _ =>
        set (s.pgBump ctx 2)
        jobLost j
    | .ok rs =>
      needA (!s.runsHeld rs) .idle
      let (bs, ps) := s.engRead rs
      set (s.pgBump ctx 2)
      if ps.any id then jobLost j else jobGood j (bs, ps) 0 1 0) s

end Sys2Proof.Machine
end

