-- ==== Sys2Proof/Machine/Matrix.lean ====
section
/-! DEFINITION. The matrix array (spec/13 R320-R346; spec/03 R81-R84). -/

namespace Sys2Proof.Machine

/-! ## Issue of an M-class word (R321, R337, R348) -/

/-- The instruction at which the unit holds in the order of an engine context, if it has issued (R344, R347). -/
def Block.waitOf (b : Block) (u : UnitRef) : Option EngWait := (b.attn.waits ++ b.matrix.waits).find? (·.u == u)
/-- It is over: its slot is clear. -/
def Block.leaveWait (b : Block) (u : UnitRef) : Block :=
  match b.waitOf u with
  | none => b
  | some w => { b.clearSlot w.slot with
      attn := { b.attn with waits := b.attn.waits.filter (·.u != u) }, matrix := { b.matrix with waits := b.matrix.waits.filter (·.u != u) } }
/-- Issues once for the group: legality, slots, one read in the lowest live lane, and the retirement of that lane where a word is poisoned (R337 step 1). `slot` is false for MSTAT, which ignores SET and SEN. An instruction that has issued and holds in an engine context's order has its slots behind it (R37). -/
def engIssue (w : WE) (x : Uses) (slot : Bool) (body : List Nat → LaneIn → Act Unit) (v : View) : Act Unit :=
  uniform w.g (·.legal x) (fun l => do
    needA ((v.b.waitOf v.u).isSome || (v.b.slots &&& w.wait == 0 && !(slot && w.sen && v.b.slots.getLsbD w.set.toNat))) .hold
    match readAll v [l] { x with dst := none } (← get) with
    | .error e => throw e
    | .ok (ins, s') =>
      needA (!(x.dst.elim false fun d => v.g.live.any fun k => dstBusy s' v.u k d)) .hold
      set s'
      match ins with
      | [] => idleA
      | i :: _ =>
        if i.psn then modA fun s => (((s.modBlk v.u.blk (·.leaveWait v.u)).retire v.u l).afterExit v.u.blk).uniformEnd v
        else body v.g.live i) v
/-- The instruction is over for the group. -/
def uDone (v : View) : Act Unit := modA fun s => (s.modBlk v.u.blk (·.leaveWait v.u)).uniformEnd v
/-- From here on a hold is that of an issued instruction, in the order of the attention or the matrix context (R37, R344, R347). -/
def inOrder {α : Type} (attn : Bool) (slot : Option Nat) (a : Act α) : Act α := fun s =>
  match a s with
  | .error .hold => .error (.queued attn slot)
  | r => r
/-- The slot that the word sets (R37, R48). -/
def WE.slot? (w : WE) : Option Nat := if w.sen then some w.set.toNat else none
def Block.setSlot (b : Block) (sl : Option Nat) : Block :=
  match sl with
  | some k => { b with slots := b.slots ||| (1#16 <<< k) }
  | none => b
/-- An operation joins the block's matrix context and the core's acceptance order (R320, R322). -/
def acceptM (v : View) (w : WE) (ls : List Nat) (kind : MKind) (f : Block → Block := id) : Act Unit := do
  needA (decide (v.b.matrix.ops.length < 64)) .hold
  modA fun s =>
    let acc := (s.coreD v.b.core).accs
    let (no, tl) := v.b.matrix.tl.give
    let op : MOp := { no := no, acc := acc, pre := v.cmdPre ls, slot := WE.slot? w, kind := kind, begun := false, step := 0, got := [], hand := [], done := false, bad := false }
    let s := s.modBlk v.u.blk fun b => (f { b with matrix := { b.matrix with tl := tl, ops := b.matrix.ops ++ [op] } }).setSlot (WE.slot? w)
    s.modCore v.b.core fun c => { c with accs := acc + 1 }
  uDone v
def badDesc (b : Bool) (l : Nat) : Act Unit := needA (!b) (.fault fcMatrix 0 l 0)
def badAlign (xs : List Nat) (k l : Nat) : Act Unit :=
  match xs.find? fun a => a % k != 0 with
  | some a => faultA fcMisalign a l
  | none => pure ()
def badRange (b : Bool) (a l : Nat) : Act Unit := needA (!b) (.fault fcRange (BitVec.ofNat 64 a) l 0)

/-! ## Tiles and rows (R325-R328) -/

/-- Narrow formats are 0 and 1; 2 is FP16 and 3 BF16 (R329, R338). -/
def isNarrow (fmt : Nat) : Bool := fmt < 2
def nfmtOf (fmt : Nat) : NFmt := if fmt = 0 then .t8 else .t6
def wfmtOf (fmt : Nat) : Fmt := Fmt.of (if fmt = 2 then .f16 else .bf16)
/-- Bytes of a weight tile (R325). -/
def tileBytes (fmt cmp : Nat) : Nat :=
  if cmp = 0 then (match fmt with | 0 => 12672 | 1 => 9600 | _ => 24576) else (match fmt with | 0 => 8064 | 1 => 6528 | _ => 13824)
def byteAt (t : Array Byte) (i : Nat) : Nat := (t.getD i 0).toNat
/-- Bits 6q+5 to 6q of the 24-bit value at `o`. -/
def code6 (t : Array Byte) (o q : Nat) : Nat := (byteAt t o + 256 * byteAt t (o + 1) + 65536 * byteAt t (o + 2)) / 2 ^ (6 * q) % 64
/-- The stored code of row `r`, column `n`. -/
def tileCode (fmt : Nat) (t : Array Byte) (r n : Nat) : Nat :=
  match fmt with
  | 0 => byteAt t (384 + 128 * r + n)
  | 1 => code6 t (384 + 96 * r + 3 * (n / 4)) (n % 4)
  | _ => byteAt t (256 * r + 2 * n) + 256 * byteAt t (256 * r + 2 * n + 1)
/-- Where the metadata of a 2:4 tile begins. -/
def metaBase (fmt : Nat) : Nat := match fmt with | 0 => 6528 | 1 => 4992 | _ => 12288
def metaNib (fmt : Nat) (t : Array Byte) (g n : Nat) : Nat := byteAt t (metaBase fmt + 64 * g + n / 2) / (if n % 2 = 0 then 1 else 16) % 16
/-- Weight (k, n) as decompressed (R326). -/
def weightCode (fmt cmp : Nat) (t : Array Byte) (k n : Nat) : Nat :=
  if cmp = 0 then tileCode fmt t k n else
  let g := k / 4
  let nib := metaNib fmt t g n
  let p0 := nib % 4; let p1 := nib / 4
  if p0 < p1 then (if k % 4 = p0 then tileCode fmt t (2 * g) n else if k % 4 = p1 then tileCode fmt t (2 * g + 1) n else 0) else 0
/-- Some group of the tile has p0 ≥ p1 (R326). -/
def metaBad (fmt cmp : Nat) (t : Array Byte) : Bool :=
  cmp != 0 && (List.range 24).any fun g => (List.range 128).any fun n => let x := metaNib fmt t g n; decide (x / 4 ≤ x % 4)
/-- Tile bytes that column `n` is computed from. -/
def colBytes (fmt cmp n : Nat) : List Nat :=
  let rows := if cmp = 0 then 96 else 48
  let els := (List.range rows).flatMap fun r => match fmt with
    | 0 => [384 + 128 * r + n]
    | 1 => let o := 384 + 96 * r + 3 * (n / 4); (match n % 4 with | 0 => [o] | 1 => [o, o + 1] | 2 => [o + 1, o + 2] | _ => [o + 2])
    | _ => [256 * r + 2 * n, 256 * r + 2 * n + 1]
  els ++ (if isNarrow fmt then (List.range 3).map fun b => 128 * b + n else []) ++
    (if cmp = 0 then [] else (List.range 24).map fun g => metaBase fmt + 64 * g + n / 2)
/-- The byte ranges that elements `e` to `e + n - 1` of a row take: the first byte after RB and the length (R328). -/
def rowSpan (fmt scb e n : Nat) : Nat × Nat :=
  match fmt with
  | 0 => (scb + e, n)
  | 1 => (scb + 3 * (e / 4), 3 * (n / 4))
  | 4 => (4 * e, 4 * n)
  | _ => (2 * e, 2 * n)
/-- Every range of a row: its scale bytes and its elements. -/
def rowRanges (fmt scb e n : Nat) : List (Nat × Nat) := (if isNarrow fmt then [(e / 32, (n + 31) / 32)] else []) ++ [rowSpan fmt scb e n]
/-- RB of row `i`. -/
def rowBase (ofs stride i : Nat) : Nat := (ofs + i * stride) % 2 ^ 32
/-- Element `k` of a span of bytes. -/
def spanCode (fmt : Nat) (t : Array Byte) (k : Nat) : Nat :=
  match fmt with
  | 0 => byteAt t k
  | 1 => code6 t (3 * (k / 4)) (k % 4)
  | _ => byteAt t (2 * k) + 256 * byteAt t (2 * k + 1)

/-! ## The K-step (R81-R83) -/

/-- The value of an entry with a NaN or an infinity in it, or none. -/
def kNarrow (acc : Nat) (ts : List (Option Dy)) : Nat × Flg :=
  match f32.decode acc with
  | .nan _ => (f32.nan, 0)
  | v =>
    if ts.any (·.isNone) then (f32.nan, fNV) else
    match v with
    | .fin n m e => f32.roundDy .rn (ts.foldl (fun (x : Dy) t => x.add (t.getD ⟨0, 0⟩)) (Dy.ofFin n m e)) false
    | _ => (acc, 0)
/-- T[b] of one block (R81). -/
def blockSum (ps : List (Dy × Dy)) (sa sw : Nat) : Option Dy :=
  if sa = 255 ∨ sw = 255 then none
  else
    let x := ps.foldl (fun (x : Dy) p => x.add (p.1.mul p.2)) ⟨0, 0⟩
    some ⟨x.m, x.e + (sa : Int) + sw - 254⟩
/-- A 16-bit K-step of one entry (R82). -/
def kWide (acc : Nat) (ps : List (FVal × FVal)) : Nat × Flg :=
  let zi (p : FVal × FVal) : Bool := (p.1.isZero && p.2.isInf) || (p.1.isInf && p.2.isZero)
  if ps.any fun p => p.1.isNan || p.2.isNan || zi p then (f32.nan, fNV) else
  match f32.decode acc with
  | .nan _ => (f32.nan, 0)
  | v =>
    let infs := (if v.isInf then [v.neg] else []) ++ (ps.filter fun p => p.1.isInf || p.2.isInf).map fun p => p.1.neg != p.2.neg
    match infs with
    | s :: r => if r.all (· == s) then (f32.withSign s f32.infCode, 0) else (f32.nan, fNV)
    | [] =>
      let d (x : FVal) : Dy := match x with | .fin n m e => Dy.ofFin n m e | _ => ⟨0, 0⟩
      f32.roundDy .rn (ps.foldl (fun (x : Dy) p => x.add ((d p.1).mul (d p.2))) (d v)) false

/-! ## The accumulator store (R331) -/

def State.accRow (s : State) (core r : Nat) : List PWord := (List.range 128).map fun n => s.rdWord (kAcc core r n)
def State.setAccRow (s : State) (core r : Nat) (ws : List PWord) : State :=
  (ws.zipIdx.filter (·.1.p)).foldl (fun s x => s.markWord (kAcc core r x.2)) (s.wr (kAcc core r 0) (ws.flatMap fun w => leBytes 4 w.v.toNat))
def zeroRow : List PWord := List.replicate 128 ⟨0, false⟩
/-- Sets bits of a block's array status (R332). -/
def State.mStatus (s : State) (blk : Nat) (f : Flg) : State :=
  s.modBlk blk fun b => { b with matrix := { b.matrix with status := b.matrix.status ||| f.setWidth 32 } }
/-- META is bit 5 of the array status (R332). -/
def fMETA : Flg := 0x20

/-! ## The instructions -/

/-- ROW, M, S and Z of the common operand words (R336). -/
def rowOf (w : Word) : Nat := w.toNat % 16384
def mOf (w : Word) : Nat := w.toNat % 1024 + 1
def sOf (w : Word) : Nat := w.toNat / 65536 % 256 + 1
def zOf (w : Word) : Bool := w.getLsbD 24

def execMwld (w : WE) (s : State) : Host.Outcome State Fault Refusal :=
  runUnit (fun v => engIssue w { src := [mSrc w.b 4] } true (fun ls x => do
    let n (i : Nat) : Nat := (x.w 0 i).v.toNat
    let d : WDesc := ⟨n 0, n 1, n 2 / 16 % 4, n 2 % 8⟩
    badDesc (decide (2 ≤ d.wcmp) || decide (4 ≤ d.wfmt)) x.lane
    badAlign [d.wofs, d.wstep] 128 x.lane
    badRange (decide (2 ^ 21 < d.wofs + tileBytes d.wfmt d.wcmp)) d.wofs x.lane
    acceptM v w ls (.mwld d) fun b => { b with matrix := { b.matrix with wd := some d } }) v) s
/-- A format pair of R330. -/
def pairOk (wf af : Nat) : Bool := if isNarrow wf then isNarrow af else wf == af
def execMloop (w : WE) (s : State) : Host.Outcome State Fault Refusal :=
  runUnit (fun v => engIssue w { src := [mSrc w.a 1, mSrc w.b 4, mSrc w.c 1] } true (fun ls x => do
    let n (i : Nat) : Nat := (x.w 1 i).v.toNat
    let row := rowOf (x.w 0).v; let c := (x.w 2).v
    let m := mOf c; let k := sOf c
    let aofs := n 0; let astride := n 1; let scb := n 2 / 65536; let afmt := n 2 % 8; let kofs := n 3
    badDesc (decide (4 ≤ afmt) || kofs % 32 != 0 || (isNarrow afmt && (scb % 4 != 0 || decide (scb < kofs / 32 + 3 * k)))) x.lane
    match v.b.matrix.wd with
    | none => faultA fcFormat 0 x.lane
    | some d =>
      needA (pairOk d.wfmt afmt) (.fault fcFormat 0 x.lane 0)
      badAlign [aofs, astride] 4 x.lane
      badRange (decide (16384 < row + m)) row x.lane
      let rs := (List.range m).flatMap fun i => (rowRanges afmt scb kofs (96 * k)).map fun r => (rowBase aofs astride i + r.1, r.2)
      match rs.find? fun r => !(v.b.inDecl r.1 r.2 || v.b.inShelf r.1 r.2) with
      | some r => faultA fcRange r.1 x.lane
      | none =>
        let last := d.wofs + (k - 1) * d.wstep
        badRange (decide (2 ^ 21 < last + tileBytes d.wfmt d.wcmp)) last x.lane
        acceptM v w ls (.mloop row m k (zOf c) aofs astride scb afmt kofs d)) v) s
def execMrowsc (w : WE) (s : State) : Host.Outcome State Fault Refusal :=
  runUnit (fun v => engIssue w { src := [mSrc w.a 1, mSrc w.b 1, mSrc w.c 1] } true (fun ls x => do
    let row := rowOf (x.w 0).v; let o := (x.w 1).v.toNat; let m := mOf (x.w 2).v
    badAlign [o] 4 x.lane
    badRange (decide (16384 < row + m)) row x.lane
    badRange (!(v.b.inDecl o (4 * m) || v.b.inShelf o (4 * m))) o x.lane
    acceptM v w ls (.mrowsc row m o)) v) s
/-- Bytes that MDRAIN writes for row `i`: ranges of shared offsets (R342). -/
def drainRanges (dofs dstride scb dfmt k0 i : Nat) : List (Nat × Nat) :=
  (rowRanges dfmt scb k0 128).map fun r => (rowBase dofs dstride i + r.1, r.2)
def execMdrain (w : WE) (s : State) : Host.Outcome State Fault Refusal :=
  runUnit (fun v => engIssue w { src := [mSrc w.a 1, mSrc w.b 4, mSrc w.c 1] } true (fun ls x => do
    let n (i : Nat) : Nat := (x.w 1 i).v.toNat
    let row := rowOf (x.w 0).v; let c := (x.w 2).v
    let m := mOf c
    let dofs := n 0; let dstride := n 1; let scb := n 2 / 65536; let dfmt := n 2 % 8; let k0 := n 3
    let t := (BitVec.ofNat 8 (n 2 / 256)).toInt
    badDesc (decide (5 ≤ dfmt) || k0 % 32 != 0 || (isNarrow dfmt && (scb % 4 != 0 || decide (scb < k0 / 32 + 4)))) x.lane
    badAlign [dofs, dstride] 4 x.lane
    badRange (decide (16384 < row + m)) row x.lane
    let rs := (List.range m).flatMap (drainRanges dofs dstride scb dfmt k0)
    match rs.find? fun r => !v.b.inDecl r.1 r.2 with
    | some r => faultA fcRange r.1 x.lane
    | none => acceptM v w ls (.mdrain row m (zOf c) dofs dstride scb t dfmt k0) fun b => rs.foldl (fun b r => b.clearLines r.1 r.2) b) v) s
def execMzero (w : WE) (s : State) : Host.Outcome State Fault Refusal :=
  runUnit (fun v => engIssue w { src := [mSrc w.a 1, mSrc w.c 1] } true (fun ls x => do
    let row := rowOf (x.w 0).v; let m := mOf (x.w 1).v
    badRange (decide (16384 < row + m)) row x.lane
    acceptM v w ls (.mzero row m)) v) s
/-- MSTAT holds until every operation accepted before it has completed (R344). -/
def execMstat (w : WE) (clr : Bool) (s : State) : Host.Outcome State Fault Refusal :=
  runUnit (fun v => engIssue w { dst := some ⟨w.a, 1⟩ } false (fun ls _ => inOrder false none do
    let upTo := ((v.b.waitOf v.u).map (·.after)).getD v.b.matrix.tl.given
    needA (v.b.matrix.ops.all fun o => decide (upTo < o.no)) .hold
    writeAll v ⟨w.a, 1⟩ ls [⟨v.b.matrix.status, false⟩]
    if clr then modA fun s => s.modBlk v.u.blk fun b => { b with matrix := { b.matrix with status := 0 } }
    uDone v) v) s

/-! ## The pipes (R322, R323) -/

/-- Accumulator rows an operation acts on: first row, count, and whether it writes them. -/
def MKind.rows : MKind → List (Nat × Nat × Bool)
  | .mwld _ => []
  | .mloop row m .. => [(row, m, true)]
  | .mrowsc row m _ => [(row, m, true)]
  | .mdrain row m z .. => [(row, m, z)]
  | .mzero row m => [(row, m, true)]
  | .amask row m _ => [(row, m, true), (row + 128, m, true), (row + 256, m, true)]
def MKind.drains : MKind → Bool
  | .mdrain .. => true
  | _ => false
/-- Two operations may not pass each other on some row (R323). -/
def rowsMeet (a b : List (Nat × Nat × Bool)) : Bool :=
  a.any fun x => b.any fun y => (x.2.2 || y.2.2) && decide (x.1 < y.1 + y.2.1 ∧ y.1 < x.1 + x.2.1)
/-- Blocks of a core whose engines work. -/
def State.engBlocks (s : State) (core : Nat) : List Block := (s.resident core).filter s.engineRuns
/-- Rows still open to operations accepted before number `acc` on the core. -/
def State.openRows (s : State) (core acc : Nat) : List (Nat × Nat × Bool) :=
  (s.engBlocks core).flatMap fun b =>
    (b.matrix.ops.filter fun o => decide (o.acc < acc) && !o.done && !(o.kind.drains && o.begun)).flatMap (·.kind.rows) ++
    (b.attn.ops.filter fun o => decide (o.acc < acc) && o.kind == .aseq).flatMap fun o => [(o.pass.orow, o.pass.nrows, true)]
/-- The operation whose turn it is in a pipe: the earliest accepted that is not done. -/
def State.pipeHead (s : State) (core : Nat) (drain : Bool) : Option (Block × MOp) :=
  ((s.engBlocks core).flatMap fun b => (b.matrix.ops.filter fun o => !o.done && o.kind.drains == drain).map fun o => (b, o)).foldl
    (fun m x => match m with | some y => if x.2.acc < y.2.acc then some x else some y | none => some x) none
def modM (blk no : Nat) (f : MOp → MOp) (s : State) : State :=
  s.modBlk blk fun b => { b with matrix := { b.matrix with ops := updFirst (·.no == no) f b.matrix.ops } }
/-- The tile at a cabinet offset as a latch. -/
def State.loadTile (s : State) (b : Block) (d : WDesc) (o : Nat) : Latch :=
  let n := tileBytes d.wfmt d.wcmp
  ⟨b.uid, o, d.wfmt, d.wcmp, s.rd (kCab b.core o) n, s.rdPsn (kCab b.core o) n⟩

/-- The tile that a latch holds. -/
def Latch.holds (l : Latch) (b : Block) (d : WDesc) (o : Nat) : Bool := l.blk == b.uid && l.wofs == o && l.wfmt == d.wfmt && l.wcmp == d.wcmp
/-- A tile is loaded into the latch that was loaded longest ago; the latches belong to its block (R327). -/
def newLatch (l : Latch) (ls : List Latch) : List Latch := l :: (ls.filter fun x => x.blk == l.blk).take 1

/-- MROWSC on one row (R340). -/
def rowScale (f : PWord) (ws : List PWord) : List PWord × Flg :=
  let rs := ws.map fun w => (f32.mulV .rn (f32.decode w.v.toNat) (f32.decode f.v.toNat), w.p || f.p)
  (rs.map fun r => ⟨BitVec.ofNat 32 r.1.1, r.2⟩, rs.foldl (fun a r => a ||| r.1.2 ||| flagIf r.2 fPSN) 0)
/-- Bit `i` of packed bytes. -/
def bitAt (t : Array Byte) (i : Nat) : Bool := (byteAt t (i / 8)).testBit (i % 8)
/-- The bytes of a shared range, with their poison, from the lines that were read. -/
def gotBytes (got : List Landing) (o n : Nat) : List Byte × List Bool :=
  let piece {α : Type} (f : Landing → List α) (d : α) (c : Nat × Nat) : List α :=
    match got.find? (·.line == c.1 / 128) with
    | some h => ((f h).drop (c.1 % 128)).take c.2
    | none => List.replicate c.2 d
  ((lineCuts o n).flatMap (piece (·.bytes) 0#8), (lineCuts o n).flatMap (piece (·.psn) false))
/-- What a K-step reads of an activation row, at element `e` of the row that starts at `rb`: its elements and its scales (R328, R339). -/
def kRanges (afmt scb e rb : Nat) : List (Nat × Nat) :=
  let sp := rowSpan afmt scb e 96
  (rb + sp.1, sp.2) :: if isNarrow afmt then [(rb + e / 32, 3)] else []
/-- The shared bytes that an operation reads at a step (R334). -/
def MKind.reads (k : MKind) (step : Nat) : List (Nat × Nat) :=
  match k with
  | .mloop _ m _ _ aofs astride scb afmt kofs _ => (List.range m).flatMap fun i => kRanges afmt scb (kofs + 96 * step) (rowBase aofs astride i)
  | .mrowsc _ m fofs => [(fofs, 4 * m)]
  | .amask _ m mofs => [(mofs, 48 * m)]
  | _ => []
/-- The lines that it has still to read. -/
def MOp.need (o : MOp) : List Nat :=
  ((o.kind.reads o.step).flatMap fun r => (lineCuts r.1 r.2).map (·.1 / 128)).filter fun l => !(o.got.any (·.line == l))

/-- One drained row as bytes of its ranges, with poison, and its flags (R342). -/
def drainRow (scb : Nat) (t : Int) (dfmt k0 rb : Nat) (ws : List PWord) : List Frag × Flg :=
  let psn := flagIf (ws.any (·.p)) fPSN
  let v (w : PWord) : FVal := f32.decode w.v.toNat
  let o := rowSpan dfmt scb k0 128
  match dfmt with
  | 4 => ([⟨rb + o.1, ws.flatMap fun w => leBytes 4 w.v.toNat, ws.flatMap fun w => List.replicate 4 w.p⟩], psn)
  | 2 | 3 =>
    let rs := ws.map fun w => ((wfmtOf dfmt).ofV .rn (v w), w.p)
    ([⟨rb + o.1, rs.flatMap fun r => leBytes 2 r.1.1, rs.flatMap fun r => [r.2, r.2]⟩], rs.foldl (fun a r => a ||| r.1.2) psn)
  | _ =>
    let nf := nfmtOf dfmt
    let blk (c : Nat) : List PWord := (ws.drop (32 * c)).take 32
    let sc (c : Nat) : Nat × Flg := scaleOf ((blk c).map v) t
    let codes : List ((Nat × Flg) × Bool) := (List.range 4).flatMap fun c =>
      (blk c).map fun w => (if (sc c).1 = 255 then (0, fNV) else nfNarrowV nf (v w) (127 - (sc c).1), w.p)
    let fl := (List.range 4).foldl (fun a c => a ||| (sc c).2) (codes.foldl (fun a x => a ||| x.1.2) psn)
    let scales : Frag := ⟨rb + k0 / 32, (List.range 4).map fun c => BitVec.ofNat 8 (sc c).1, (List.range 4).map fun c => (blk c).any (·.p)⟩
    let els : Frag := if dfmt = 0 then ⟨rb + o.1, codes.map fun x => BitVec.ofNat 8 x.1.1, codes.map (·.2)⟩
      else
        let quad (q : Nat) : List ((Nat × Flg) × Bool) := (codes.drop (4 * q)).take 4
        let num (q : Nat) : Nat := ((quad q).zipIdx.map fun x => x.1.1.1 * 2 ^ (6 * x.2)).sum
        let p (q i : Nat) : Bool := ((quad q)[i]?).elim false (·.2)
        ⟨rb + o.1, (List.range 32).flatMap fun q => leBytes 3 (num q),
          (List.range 32).flatMap fun q => [p q 0 || p q 1, p q 1 || p q 2, p q 2 || p q 3]⟩
    ([scales, els], fl)
/-- Cuts bytes into pieces that lie within lines. -/
def cutLines : Nat → Frag → List Frag
  | 0, _ => []
  | k + 1, f =>
    if f.bytes = [] then [] else
    let n := 128 - f.ofs % 128
    ⟨f.ofs, f.bytes.take n, f.psn.take n⟩ :: cutLines k ⟨f.ofs + n, f.bytes.drop n, f.psn.drop n⟩

/-- Reads the first line that an operation needs and that is present; with none it is held (R281, R334). -/
def readLine (b : Block) (o : MOp) : Act Unit := do
  let l ← someA (o.need.find? fun l => b.present (128 * l) 128) .idle
  modA fun s => modM b.uid o.no (fun o => { o with got := o.got ++ [⟨l, s.rd (kShared b.uid (128 * l)) 128, s.rdPsn (kShared b.uid (128 * l)) 128⟩] }) s
/-- An operation whose command carries an error writes nothing more: its lines are present, it completes, and it is counted (R443). -/
def State.abandonM (s : State) (b : Block) (o : MOp) : State :=
  let lines (b : Block) : Block := match o.kind with
    | .mdrain _ m _ dofs dstride scb _ dfmt k0 => ((List.range m).flatMap (drainRanges dofs dstride scb dfmt k0)).foldl (fun b r =>
        (lineCuts r.1 r.2).foldl (fun b c => b.setLine (c.1 / 128)) b) b
    | _ => b
  (modM b.uid o.no (fun o => { o with begun := true, got := [], hand := [], done := true }) (s.modBlk b.uid lines)).bump b.ctx 4 1
/-- MATRIX_OPERATION_BEGIN: the next operation of a pipe begins once no earlier one is open on its rows. MROWSC and AMASK read their shared lines first, one at a time; MWLD, MROWSC, MZERO and AMASK are performed; an MDRAIN takes its rows in hand; an MLOOP's K-steps follow (R322, R323, R338, R340, R342, R343, R364). -/
def execMatrixOperationBegin (core : Nat) (drain : Bool) (s : State) : Host.Outcome State Fault Refusal :=
  runEvent (do
    let s ← get
    let (b, o) ← someA (s.pipeHead core drain) .idle
    needA (!o.begun && s.preDone o.pre) .idle
    needA (!rowsMeet o.kind.rows (s.openRows core o.acc)) .idle
    let finish (s : State) : State := modM b.uid o.no (fun o => { o with begun := true, got := [], done := true }) s
    if o.bad then set (s.abandonM b o)
    else if !(match o.kind with | .mloop .. => true | _ => o.need == []) then readLine b o
    else match o.kind with
    | .mwld d =>
      let l := s.loadTile b d d.wofs
      let s := s.modCore core fun c => { c with latches := newLatch l c.latches }
      set (finish (if metaBad d.wfmt d.wcmp l.bytes.toArray then s.mStatus b.uid fMETA else s))
    | .mzero row m => set (finish ((List.range m).foldl (fun s i => s.setAccRow core (row + i) zeroRow) s))
    | .mrowsc row m fofs =>
      let factor (i : Nat) : PWord := let d := gotBytes o.got (fofs + 4 * i) 4; ⟨BitVec.ofNat 32 (leNat d.1), d.2.any id⟩
      set (finish ((List.range m).foldl (fun s i =>
        let (ws, fl) := rowScale (factor i) (s.accRow core (row + i))
        (s.setAccRow core (row + i) ws).mStatus b.uid fl) s))
    | .amask row m mofs =>
      let t := (gotBytes o.got mofs (48 * m)).1.toArray
      set (finish ((List.range (3 * m)).foldl (fun s k =>
        let g := k / m; let i := k % m
        let ws := (s.accRow core (row + 128 * g + i)).zipIdx.map fun x => if bitAt t (384 * i + 128 * g + x.2) then x.1 else ⟨0xFF800000, false⟩
        s.setAccRow core (row + 128 * g + i) ws) s))
    | .mdrain row m z dofs dstride scb t dfmt k0 =>
      let out := (List.range m).map fun i => drainRow scb t dfmt k0 (rowBase dofs dstride i) (s.accRow core (row + i))
      let s := s.mStatus b.uid (out.foldl (fun a r => a ||| r.2) 0)
      let s := if z then (List.range m).foldl (fun s i => s.setAccRow core (row + i) zeroRow) s else s
      set (modM b.uid o.no (fun o => { o with begun := true, hand := out.flatMap fun r => r.1.flatMap (cutLines 6) }) s)
    | .mloop .. => set (modM b.uid o.no (fun o => { o with begun := true }) s)) s

/-- One row through the latched tile: the new entries and the flags (R81, R82, R331, R339). -/
def kRow (fmt cmp : Nat) (t : Array Byte) (colPsn : Array Bool) (afmt : Nat) (sa : List Nat) (a : Array Byte) (rowPsn : Bool) (old : List PWord) : List PWord × Flg :=
  let rs := old.zipIdx.map fun x =>
    let n := x.2
    let r := if isNarrow fmt then
        kNarrow x.1.v.toNat ((List.range 3).map fun b =>
          blockSum ((List.range 32).map fun j => (nfDecode (nfmtOf afmt) (spanCode afmt a (32 * b + j)), nfDecode (nfmtOf fmt) (weightCode fmt cmp t (32 * b + j) n)))
            (sa.getD b 0) (byteAt t (128 * b + n)))
      else
        kWide x.1.v.toNat ((List.range 96).map fun k => ((wfmtOf afmt).decode (spanCode afmt a k), (wfmtOf fmt).decode (weightCode fmt cmp t k n)))
    (r, x.1.p || rowPsn || colPsn.getD n false)
  (rs.map fun r => ⟨BitVec.ofNat 32 r.1.1, r.2⟩, rs.foldl (fun a r => a ||| r.1.2 ||| flagIf r.2 fPSN) 0)
/-- An activation row as a K-step takes it from the lines that were read, at element `e` of the row that starts at `rb`: elements, scales, and whether a byte is poisoned (R328, R339). -/
def kRowIn (got : List Landing) (afmt scb e rb : Nat) : Array Byte × List Nat × Bool :=
  let sp := rowSpan afmt scb e 96
  let els := gotBytes got (rb + sp.1) sp.2
  let scales := if isNarrow afmt then gotBytes got (rb + e / 32) 3 else ([], [])
  (els.1.toArray, scales.1.map (·.toNat), els.2.any id || scales.2.any id)
/-- Where the tile of a K-step stands. -/
def WDesc.tileAt (d : WDesc) (step : Nat) : Nat := d.wofs + step * d.wstep
/-- The tile that a K-step takes: the latched one, else the cabinet's (R327, R345; DEDUCED, log 8). -/
def State.kTile (s : State) (core : Nat) (b : Block) (step : Nat) (d : WDesc) : Latch :=
  ((s.coreD core).latches.find? (·.holds b d (d.tileAt step))).getD (s.loadTile b d (d.tileAt step))
/-- While the K-step takes its tile from one latch, the other loads the next step's tile (R327). -/
def State.loadNext (s : State) (core : Nat) (b : Block) (step k : Nat) (d : WDesc) (cur : Latch) : State :=
  s.modCore core fun c => { c with latches :=
    if step + 1 < k ∧ d.wstep ≠ 0 then [s.loadTile b d (d.tileAt (step + 1)), cur] else cur :: (c.latches.filter fun x => x.blk == b.uid && x != cur).take 1 }
/-- A K-step over all rows: the entries, the status bits, and the operation a step further (R331, R339). -/
def State.kStep (s : State) (core : Nat) (b : Block) (o : MOp) (row m k : Nat) (z : Bool) (aofs astride scb afmt kofs : Nat) (d : WDesc) : State :=
  let tile := s.kTile core b o.step d
  let t := tile.bytes.toArray
  let tp := tile.psn.toArray
  let colPsn := ((List.range 128).map fun n => (colBytes d.wfmt d.wcmp n).any fun i => tp.getD i false).toArray
  let rows := (List.range m).map fun i => kRowIn o.got afmt scb (kofs + 96 * o.step) (rowBase aofs astride i)
  let s := s.loadNext core b o.step k d tile
  let s := rows.zipIdx.foldl (fun s x =>
    let r := row + x.2
    let old := if z && o.step == 0 then zeroRow else s.accRow core r
    let (ws, fl) := kRow d.wfmt d.wcmp t colPsn afmt x.1.2.1 x.1.1 x.1.2.2 old
    (s.setAccRow core r ws).mStatus b.uid fl) s
  let s := if metaBad d.wfmt d.wcmp t then s.mStatus b.uid fMETA else s
  modM b.uid o.no (fun o => { o with step := o.step + 1, got := [], done := decide (k ≤ o.step + 1) }) s
/-- MATRIX_KSTEP: for the MLOOP in the compute pipe a line of its activation rows is read, or, with all of the step's lines read, the next K-step updates its rows (R281, R334, R339). -/
def execMatrixKstep (core : Nat) (s : State) : Host.Outcome State Fault Refusal :=
  runEvent (do
    let s ← get
    let (b, o) ← someA (s.pipeHead core false) .idle
    needA o.begun .idle
    if o.bad then set (s.abandonM b o) else
    match o.kind with
    | .mloop row m k z aofs astride scb afmt kofs d =>
      if o.need != [] then readLine b o else set (s.kStep core b o row m k z aofs astride scb afmt kofs d)
    | _ => idleA) s
/-- Pieces of one shared line are written in one step, which sets its presence bit (R281, R334, R500). -/
def State.landFrags (s : State) (blk line : Nat) (fs : List Frag) : State :=
  (s.wrPsnMany (fs.map fun f => (kShared blk f.ofs, f.bytes, f.psn))).modBlk blk (·.setLine line)
/-- A poisoned entry's error reaches every granule of 64 bits that its bytes lie in (R342, R442). -/
def State.markDrained (s : State) (blk : Nat) (fs : List Frag) : State :=
  fs.foldl (fun s f => (f.psn.zipIdx.filter (·.1)).foldl (fun s x => s.markGran (kShared blk (f.ofs + x.2)) 1) s) s
/-- MDRAIN_LINE_LANDING: every drained byte of one line is written in one step, which sets its presence bit (R334); none where the operation carries an error (R443). -/
def execMdrainLineLanding (blk no line : Nat) (s : State) : Host.Outcome State Fault Refusal :=
  runEvent (do
    let b ← engBlock blk
    let o ← someA (b.matrix.ops.find? (·.no == no)) .idle
    let (now, later) := o.hand.partition fun f => f.ofs / 128 == line
    needA (now != []) .idle
    if o.bad then modA (·.abandonM b o) else
    modA fun s =>
      let s := (s.landFrags blk line now).markDrained blk now
      modM blk no (fun o => { o with hand := later, done := later == [] }) s) s
/-- The operation has reached the point of R333. -/
def MOp.complete (o : MOp) : Bool := o.done && o.hand == []

end Sys2Proof.Machine
end

