-- ==== Sys2Proof/Machine/Handles.lean ====
section
/-! DEFINITION. Counted tensors: handles, home tables, drop and bind messages (spec/20 R461-R476; spec/10 R284). -/

namespace Sys2Proof.Machine

/-! ## Handles and home entries (R462-R464) -/

structure Handle where
  w0 : DWord
  w1 : DWord
  deriving DecidableEq, Repr
def Handle.field (h : Handle) (lo n : Nat) : Nat := h.w0.toNat / 2 ^ lo % 2 ^ n
def Handle.dev (h : Handle) : Nat := h.field 58 6
def Handle.die (h : Handle) : Nat := h.field 56 2
def Handle.gen (h : Handle) : Nat := h.field 48 8
def Handle.idx (h : Handle) : Nat := h.field 16 32
def Handle.e (h : Handle) : Nat := h.field 11 5
def Handle.ind (h : Handle) : Bool := h.w0.getLsbD 10
def Handle.addr (h : Handle) : Nat := h.w1.toNat % 2 ^ 56
def Handle.null (h : Handle) : Bool := h.w0 == 0 && h.w1 == 0
/-- A handle from its parts (R463). -/
def mkHandle (dev die gen idx e : Nat) (ind : Bool) (addr : Nat) : Handle :=
  ⟨BitVec.ofNat 64 (dev * 2 ^ 58 + die * 2 ^ 56 + gen * 2 ^ 48 + idx * 2 ^ 16 + e * 2 ^ 11 + if ind then 2 ^ 10 else 0), BitVec.ofNat 64 addr⟩
/-- The same handle with another exponent. -/
def Handle.withE (h : Handle) (e : Nat) : Handle := { h with w0 := (h.w0 &&& ~~~(0x1F#64 <<< 11)) ||| (BitVec.ofNat 64 e <<< 11) }
def Handle.words (h : Handle) : List PWord := (words2 h.w0 ++ words2 h.w1).map fun w => ⟨w, false⟩
/-- The handle in source `k`. -/
def LaneIn.handle (x : LaneIn) (k : Nat) : Handle := ⟨pairOf (x.w k 0).v (x.w k 1).v, pairOf (x.w k 2).v (x.w k 3).v⟩
def handleOf (bs : List Byte) : Handle := ⟨BitVec.ofNat 64 (fieldAt bs 0 8), BitVec.ofNat 64 (fieldAt bs 8 8)⟩
def Handle.bytes (h : Handle) : List Byte := leBytes 8 h.w0.toNat ++ leBytes 8 h.w1.toNat

/-- A peer is the context of the context's domain on a package (R462). -/
def State.isPeer (s : State) (ctx dev : Nat) (p : Peer) : Bool := p.dom == (s.ctxD ctx).rcd.dom.toNat && p.pkg == dev
/-- The context of the context's domain that runs on another package, if any (R462). -/
def State.peer? (s : State) (ctx dev : Nat) : Option Peer :=
  if (s.ctxD ctx).rcd.dom = 0 ∨ !s.numbered.contains dev then none else s.domPeers.find? (s.isPeer ctx dev)
/-- HTAB and NOBJ of the context that a handle's home package refers to (R462): none where there is none. -/
def State.tableOf (s : State) (ctx dev : Nat) : Option (Nat × Nat) :=
  let c := (s.ctxD ctx).rcd
  if dev = s.pkg then some (c.htab.toNat % 2 ^ 56, c.nobj.toNat) else (s.peer? ctx dev).map fun p => (p.htab, p.nobj)
/-- The 32 bytes of a home entry: keys with lengths; an entry may lie across two pages (R464). -/
abbrev HomeAt := List (Nat × Nat)
/-- Where a home entry is looked for: no table (R462), an address that does not translate to tier 0, or its bytes. -/
inductive HomeLoc
  | noTable
  | unmapped (e : XErr)
  | at (k : HomeAt)
  deriving DecidableEq, Repr
/-- Pieces of bytes within pages, first address and length, through the table of a context on another package, in its tier 0 (R232, R462). -/
def State.peerKeys (s : State) (p : Peer) : List (Nat × Nat) → Except XErr HomeAt
  | [] => .ok []
  | (a, n) :: r =>
    match s.walk p.pkg p.root (BitVec.ofNat 56 a) with
    | none => .error (.invalid a)
    | some l =>
      if l.tier ≠ 0 then .error (.illegal a) else
      match s.peerKeys p r with
      | .ok k => .ok ((kHbm p.pkg l.pa, n) :: k)
      | .error e => .error e
/-- A home entry: through the table of the context it belongs to, in tier 0 (R462, R464). -/
def State.homeLoc (s : State) (ctx dev die idx : Nat) : HomeLoc :=
  match s.tableOf ctx dev with
  | none => .noTable
  | some t =>
    let a := (t.1 + 32 * (t.2 * die + idx)) % 2 ^ 56
    let here := min 32 (65536 - a % 65536)
    if dev ≠ s.pkg then
      match (s.peer? ctx dev).map fun p => s.peerKeys p ([(a, here), ((a + here) % 2 ^ 56, 32 - here)].filter (·.2 != 0)) with
      | none => .noTable
      | some (.ok k) => .at k
      | some (.error e) => .unmapped e
    else
    match s.engRange nCores ctx a 32 false with
    | .ok rs => if rs.all fun r => r.leaf.tier == 0 then .at (rs.map fun r => (r.key, r.len)) else .unmapped (.illegal a)
    | .error x => .unmapped x
/-- Where it lies, if it can be reached. -/
def State.homeAt (s : State) (ctx dev die idx : Nat) : Option HomeAt := match s.homeLoc ctx dev die idx with | .at k => some k | _ => none
/-- A home entry (R464). -/
structure Home where
  sum : Nat
  tote : Nat
  gen : Nat
  live : Bool
  ind : Bool
  fin : Bool
  depth : Nat
  base : DWord
  frec : DWord
  deriving DecidableEq, Repr
def homeOf (bs : List Byte) : Home :=
  ⟨fieldAt bs 0 8, fieldAt bs 8 1, fieldAt bs 9 1, fieldAt bs 10 1 == 1, fieldAt bs 11 1 % 2 == 1, fieldAt bs 11 1 / 2 % 2 == 1, fieldAt bs 12 1,
    BitVec.ofNat 64 (fieldAt bs 0x10 8), BitVec.ofNat 64 (fieldAt bs 0x18 8)⟩
def Home.bytes (h : Home) : List Byte :=
  leBytes 8 h.sum ++ leBytes 1 h.tote ++ leBytes 1 h.gen ++ leBytes 1 (if h.live then 1 else 0) ++
    leBytes 1 ((if h.ind then 1 else 0) + if h.fin then 2 else 0) ++ leBytes 1 h.depth ++ zerosB 3 ++ leBytes 8 h.base.toNat ++ leBytes 8 h.frec.toNat
def State.home (s : State) (k : HomeAt) : Home := homeOf (k.flatMap fun p => s.rd p.1 p.2)
/-- The pieces of a home entry with the bytes that each takes. -/
def homeCut : HomeAt → List Byte → List (Nat × List Byte)
  | [], _ => []
  | p :: r, bs => (p.1, bs.take p.2) :: homeCut r (bs.drop p.2)
/-- The entry is written whole, in one write. -/
def State.setHome (s : State) (k : HomeAt) (h : Home) : State := s.wrMany (homeCut k h.bytes)

/-- The check of B (R469): E 31, a package R462 does not reach, an index that names no entry. -/
def State.handleBad (s : State) (ctx : Nat) (h : Handle) : Bool :=
  !h.null && (h.e == 31 || (match s.tableOf ctx h.dev with
    | none => true
    | some t => h.idx == 0 || decide (t.2 ≤ h.idx)))
def handleFault (b : Bool) (l : Nat) : Act Unit := needA (!b) (.fault fcHandle 0 l 0)
/-- The lowest index from `i` on that a test picks, within `n` indices. -/
def firstFrom (p : Nat → Bool) : Nat → Nat → Option Nat
  | _, 0 => none
  | i, n + 1 => if p i then some i else firstFrom p (i + 1) n
/-- The lowest free entry of a die's table of the context, with its key. -/
def State.freeEntry (s : State) (ctx die : Nat) : Option (Nat × HomeAt) :=
  let n := (s.ctxD ctx).rcd.nobj.toNat
  let isFree (i : Nat) : Bool := (s.homeAt ctx s.pkg die i).elim false fun k => !(s.home k).live
  (firstFrom isFree 1 (n - 1)).bind fun i => (s.homeAt ctx s.pkg die i).map fun k => (i, k)
/-- The executing die (R471). -/
def View.die (v : View) : Nat := v.b.core / 48

/-! ## HNEW, HCOPY, HDEREF, HWT -/

def execHnew (w : WC) (s : State) : Host.Outcome State Fault Refusal :=
  runUnit (fun v => perSplit w { src := [mSrc w.b 2, mSrc w.c 1], dst := some ⟨w.a, 4⟩ } (v.b.rwOk v.front w.a 4) [0, 1] (fun _ x => do
    let s ← get
    let e := (x.w 1).v.toNat
    handleFault ((s.ctxD v.b.ctx).rcd.htab == 0 || e == 0 || decide (30 < e)) x.lane
    let (i, k) ← someA (s.freeEntry v.b.ctx v.die) .hold
    let base := (x.d 0).toNat % 2 ^ 56
    let h := s.home k
    let s := s.setHome k ⟨0, e, h.gen, true, false, false, 0, BitVec.ofNat 64 base, 0⟩
    set (writeDst s v.u x.lane ⟨w.a, 4⟩ (mkHandle s.pkg v.die h.gen i e false base).words)
    done v) v) s
/-- What splitting a handle's weight gives (R472): each half with the state after it, a stop, or poison, where the indirection's home is on a package that is gone (R461, log 35). -/
inductive Split
  | ok (g : Handle) (s : State)
  | stop (e : Stop)
  | poison
def State.splitHandle (s : State) (ctx die lane : Nat) (h : Handle) : Split :=
  if h.null then .stop (.fault fcHandle 0 lane 0)
  else if 1 ≤ h.e then .ok (h.withE (h.e - 1)) s
  else if h.ind && s.pkgGone h.dev then .poison
  else
    let dep : Except Stop Nat :=
      if !h.ind then .ok 1 else
      if s.pkgLost h.dev then .error .hold else
      match s.homeAt ctx h.dev h.die h.idx with
      | none => .error (.fault fcHandle 0 lane 0)
      | some k =>
        let x := s.home k
        if !x.live || x.gen != h.gen then .error (.fault fcStale 0 lane 0) else .ok (x.depth + 1)
    match dep with
    | .error e => .stop e
    | .ok dep =>
      if 15 < dep then .stop (.fault fcHandle 0 lane 0) else
      if (s.ctxD ctx).rcd.htab = 0 then .stop (.fault fcHandle 0 lane 0) else
      match s.freeEntry ctx die with
      | none => .stop .hold
      | some (i, k) =>
        let c := (s.ctxD ctx).rcd
        let g := mkHandle s.pkg die (s.home k).gen i 29 true (c.htab.toNat % 2 ^ 56 + 32 * (c.nobj.toNat * die + i))
        .ok g (s.setHome k ⟨0, 30, (s.home k).gen, true, true, false, dep, h.w0, h.w1⟩)
/-- A and B name no common register (R472). -/
def disjointRegs (a b : Opnd) : Bool :=
  match opKind a, opKind b with
  | .reg x, .reg y => x != y
  | _, _ => true
def execHcopy (w : WC) (s : State) : Host.Outcome State Fault Refusal :=
  runUnit (fun v => perSplit w { src := [mSrc w.b 4], dst := some ⟨w.a, 4⟩ }
    (v.b.rwOk v.front w.a 4 && v.b.rwOk v.front w.b 4 && disjointRegs w.a w.b) [0] (fun _ x => do
    let s ← get
    let h := x.handle 0
    handleFault (s.handleBad v.b.ctx h) x.lane
    match s.splitHandle v.b.ctx v.die x.lane h with
    | .stop e => throw e
    | .poison =>
      set (writeDst (writeDst s v.u x.lane ⟨w.b, 4⟩ (List.replicate 4 ⟨0, true⟩)) v.u x.lane ⟨w.a, 4⟩ (List.replicate 4 ⟨0, true⟩))
      done v
    | .ok g s =>
      set (writeDst (writeDst s v.u x.lane ⟨w.b, 4⟩ g.words) v.u x.lane ⟨w.a, 4⟩ g.words)
      done v) v) s
/-- What resolving a handle gives (R475). -/
inductive Deref
  | addr (a : Nat)
  | stop (e : Stop)
  /-- A home entry's address does not translate to tier 0: each user takes its own fault (R349). -/
  | unmapped (e : XErr)
  /-- An entry lies on a package that is gone (R461). -/
  | poison
  deriving DecidableEq, Repr
def State.deref (s : State) (ctx lane : Nat) : Nat → Handle → Deref
  | 0, _ => .stop (.fault fcStale 0 lane 0)
  | n + 1, h =>
    if (s.tableOf ctx h.dev).isSome && s.pkgGone h.dev then .poison
    else if (s.tableOf ctx h.dev).isSome && s.pkgLost h.dev then .stop .hold else
    match s.homeLoc ctx h.dev h.die h.idx with
    | .noTable => .stop (.fault fcHandle 0 lane 0)
    | .unmapped e => .unmapped e
    | .at k =>
      let x := s.home k
      if !x.live || x.gen != h.gen then .stop (.fault fcStale 0 lane 0)
      else if !h.ind then .addr h.addr
      else s.deref ctx lane n ⟨x.base, x.frec⟩
/-- HDEREF's checks and walk (R469, R475). -/
def State.resolve (s : State) (ctx lane : Nat) (h : Handle) : Deref :=
  if h.null || s.handleBad ctx h then .stop (.fault fcHandle 0 lane 0) else s.deref ctx lane 16 h
def execHderef (w : WC) (s : State) : Host.Outcome State Fault Refusal :=
  runUnit (fun v => perSplit w { src := [mSrc w.b 4], dst := some ⟨w.a, 2⟩ } true [0] (fun ls x => do
    match (← get).resolve v.b.ctx x.lane (x.handle 0) with
    | .stop e => throw e
    | .unmapped _ => faultA fcHandle 0 x.lane
    | .poison => writeAll v ⟨w.a, 2⟩ ls [⟨0, true⟩, ⟨0, true⟩]
    | .addr a => writeAll v ⟨w.a, 2⟩ ls ((words2 (BitVec.ofNat 64 a)).map fun w => ⟨w, false⟩)
    done v) v) s
def execHwt (w : WC) (s : State) : Host.Outcome State Fault Refusal :=
  runUnit (fun v => perSplit w { src := [mSrc w.b 4], dst := some ⟨w.a, 1⟩ } true [0] (fun ls x => do
    let h := x.handle 0
    let r := if h.null then 0xFFFFFFFF else h.e + if h.ind then 256 else 0
    writeAll v ⟨w.a, 1⟩ ls [⟨BitVec.ofNat 32 r, false⟩]
    done v) v) s

/-! ## HDROP and HBIND (R470, R473, R474) -/

/-- The block's handle context gives a number; `now` completes it at once. -/
def giveHandle (v : View) (now : Bool) : Act Nat := do
  needA (decide (v.b.handle.ops.length < 64)) .hold
  let (no, tl) := v.b.handle.tl.give
  modA fun s => s.modBlk v.u.blk fun b =>
    let ops := if now then b.handle.ops else b.handle.ops ++ [(no, false)]
    { b with handle := { tl := tlRaise tl (ops.map (·.1)), ops := ops } }
  pure no
/-- Appends a drop to SQ(g): a release at system scope that is no access of the thread and no fence before later engine commands (R278, R284). -/
def State.enqueueDrop (s : State) (u : UnitRef) (l : Nat) (m : HMsg) : State :=
  let (id, s) := s.fresh
  let pre := s.preOf u l true
  s.modGrp u fun g => { g with sq := g.sq ++ [⟨id, l, pre, .msg m⟩] }
def execHdrop (w : WC) (s : State) : Host.Outcome State Fault Refusal :=
  runUnit (fun v => perSplit w { src := [mSrc w.b 4] } (v.b.rwOk v.front w.b 4) [0] (fun _ x => do
    let s ← get
    let h := x.handle 0
    handleFault (s.handleBad v.b.ctx h) x.lane
    let no ← giveHandle v h.null
    if !h.null then
      modA fun s =>
        let s := writeDst s v.u x.lane ⟨w.b, 4⟩ (List.replicate 4 ⟨0, false⟩)
        s.enqueueDrop v.u x.lane ⟨v.b.core, 4 * h.dev + h.die, v.b.ctx, h.idx, .drop (BitVec.ofNat 8 h.gen) h.e, some (v.u.blk, no)⟩
    done v) v) s
/-- A bind enters the command path of its lanes and leaves it for its channel at once where it awaits nothing (R278, R474). -/
def State.sendBind (s : State) (v : View) (ls : List Nat) (m : HMsg) : State :=
  let (id, s) := s.fresh
  State.bindsLeave { s with hpath := s.hpath ++ [⟨id, v.u, ls, v.cmdPre ls, m⟩] }
def execHbind (w : WC) (s : State) : Host.Outcome State Fault Refusal :=
  runUnit (fun v => perSplit w { src := [mSrc w.b 4, mSrc w.c 2] } true [0, 1] (fun ls x => do
    let s ← get
    let h := x.handle 0
    let a := (x.d 1).toNat % 2 ^ 56
    handleFault (h.null || s.handleBad v.b.ctx h || h.ind) x.lane
    needA (a % 64 == 0) (.fault fcMisalign (BitVec.ofNat 64 a) x.lane 0)
    let no ← giveHandle v false
    modA fun s => s.sendBind v ls ⟨v.b.core, 4 * h.dev + h.die, v.b.ctx, h.idx, .bind (BitVec.ofNat 8 h.gen) (BitVec.ofNat 64 a), some (v.u.blk, no)⟩
    done v) v) s

/-! ## Messages at home (R466, R467, R474) -/

/-- The operation that the message completes has been handled. -/
def State.handled (s : State) (op : Option (Nat × Nat)) : State :=
  match op with
  | none => s
  | some (blk, no) => s.modBlk blk fun b => { b with handle := { b.handle with ops := b.handle.ops.map fun x => if x.1 = no then (no, true) else x } }
/-- A drop of a handle by an engine or by an indirection's death joins the channel from that home (R467). -/
def State.sendDrop (s : State) (core ctx : Nat) (h : Handle) : State :=
  { s with hc := s.hc ++ [⟨core, 4 * h.dev + h.die, ctx, h.idx, .drop (BitVec.ofNat 8 h.gen) h.e, none⟩] }
/-- DEATH (R467): the finaliser is queued, or the held handle is dropped; the entry is free. -/
def State.death (s : State) (ctx home idx : Nat) (k : HomeAt) (x : Home) : State :=
  let s :=
    if x.ind then s.sendDrop (nCores + home) ctx ⟨x.base, x.frec⟩
    else if x.fin && home / 4 == s.pkg then
      s.modCtx ctx fun c => { c with fins := c.fins ++ [⟨home % 4, idx, (s.devRead ctx (x.frec.toNat % 2 ^ 56) 64 [0, 1]).getD []⟩] }
    else s
  s.setHome k ⟨0, x.tote, (x.gen + 1) % 256, false, false, false, x.depth, x.base, x.frec⟩
/-- Context counters of stale drops and over-drops (R466, R492). -/
def ctrStale : Nat := 0x100
def ctrOver : Nat := 0x101
/-- A message counts in the context that its home serves: the sender's own, or that of its domain on another package (R462, R466, R492). -/
def State.countHome (s : State) (m : HMsg) (ix : Nat) : State :=
  let dev := m.home / 4
  if dev = s.pkg then s.bump m.ctx ix 1 else
    { s with domPeers := s.domPeers.map fun p => if !s.isPeer m.ctx dev p then p
                                                 else if ix = ctrStale then { p with stales := p.stales + 1 } else { p with overs := p.overs + 1 } }
/-- A drop handled in one step at home (R466). -/
def State.dropAt (s : State) (m : HMsg) (gen : BitVec 8) (e : Nat) : State :=
  let stale := s.countHome m ctrStale
  let n := ((s.tableOf m.ctx (m.home / 4)).map (·.2)).getD 0
  if m.idx = 0 ∨ n ≤ m.idx then stale else
  match s.homeAt m.ctx (m.home / 4) (m.home % 4) m.idx with
  | none => stale
  | some k =>
    let x := s.home k
    if !x.live || x.gen != gen.toNat then stale
    else if 2 ^ x.tote < x.sum + 2 ^ e then s.countHome m ctrOver
    else
      let x := { x with sum := x.sum + 2 ^ e }
      if x.sum = 2 ^ x.tote then s.death m.ctx m.home m.idx k x else s.setHome k x
/-- A bind handled at home (R474). -/
def State.bindAt (s : State) (m : HMsg) (gen : BitVec 8) (frec : DWord) : State :=
  match s.homeAt m.ctx (m.home / 4) (m.home % 4) m.idx with
  | none => s.countHome m ctrStale
  | some k =>
    let x := s.home k
    if x.live && x.gen == gen.toNat then s.setHome k { x with fin := true, frec := frec } else s.countHome m ctrStale
/-- The head of HC(core, home) (R266), if the context runs and the link stands or has been given up (R461, R483). -/
def State.hcHead (s : State) (core home : Nat) : Option HMsg :=
  (s.hc.find? fun m => m.core == core && m.home == home).filter fun m =>
    !s.halting m.ctx && !s.ctxStopped m.ctx && !(s.pkgLost (home / 4) && !s.pkgGone (home / 4))
def arrive (core home : Nat) (act : HMsg → State → Option State) : Act Unit := do
  let s ← get
  let m ← someA (s.hcHead core home) .idle
  let t := { s with hc := s.hc.erase m }
  if s.pkgGone (home / 4) then set ((t.dropLink (home / 4) 1).handled m.op)
  else
    let u ← someA (act m t) .idle
    set (u.handled m.op)
def execDropMessageArrival (core home : Nat) (s : State) : Host.Outcome State Fault Refusal :=
  runEvent (arrive core home fun m s => match m.kind with
    | .drop g e => some (s.dropAt m g e)
    | .bind .. => none) s
def execBindMessageArrival (core home : Nat) (s : State) : Host.Outcome State Fault Refusal :=
  runEvent (arrive core home fun m s => match m.kind with
    | .bind g f => some (s.bindAt m g f)
    | .drop .. => none) s

end Sys2Proof.Machine
end

