-- ==== Sys2Proof/Machine/Attention.lean ====
section
/-! DEFINITION. The attention sequencer and the survivor instructions (spec/14 R347-R366, R505). -/

namespace Sys2Proof.Machine

/-! ## Passes and tile plans (R350-R352, R357, R358) -/

/-- Length of sequence `i`. -/
def Pass.len (p : Pass) (i : Nat) : Nat := p.clt.getD (i + 1) 0 - p.clt.getD i 0
/-- The pass that a descriptor and its table give. -/
def passOf (bs : List Byte) (clt : List Nat) : Pass :=
  let dec := fieldAt bs 0x18 1 % 2 == 1
  let nseq := fieldAt bs 0x10 4
  let qt := fieldAt bs 0x1B 1
  { clt := clt, kvt := fieldAt bs 8 7, nseq := nseq, maxb := fieldAt bs 0x14 4, decode := dec, causal := !dec || fieldAt bs 0x18 1 / 2 % 2 == 1,
    kvfmt := fieldAt bs 0x19 1, hd := fieldAt bs 0x1A 1, qt := qt, orow := fieldAt bs 0x1C 2,
    nrows := if dec then nseq * qt else clt.getD nseq 0 - clt.getD 0 0,
    srow := fieldAt bs 0x1E 2, cab := fieldAt bs 0x20 4, tdofs := fieldAt bs 0x24 4, mkofs := fieldAt bs 0x28 4, stofs := fieldAt bs 0x2C 4, next := 0 }
/-- The descriptor's own limits (R351). -/
def Pass.fieldsOk (p : Pass) : Bool :=
  decide (1 ≤ p.nseq ∧ p.nseq ≤ 4096 ∧ 1 ≤ p.maxb ∧ p.maxb ≤ 1024 ∧ 1 ≤ p.hd ∧ p.hd ≤ 128 ∧ 1 ≤ p.qt ∧ p.qt ≤ 128) && (p.kvfmt == 2 || p.kvfmt == 3) &&
    p.cab % 128 == 0 && p.tdofs % 64 == 0 && p.mkofs % 128 == 0 && p.stofs % 8 == 0
/-- No word of the table is below the one before it. -/
def rises : List Nat → Bool
  | a :: b :: r => a ≤ b && rises (b :: r)
  | _ => true
/-- The checks of R352 on the table and the areas. -/
def Pass.areasOk (p : Pass) (b : Block) : Bool :=
  rises p.clt && (List.range p.nseq).all (fun i => decide (p.len i ≤ 64 * p.maxb)) &&
    decide (p.orow + p.nrows ≤ 16384 ∧ p.srow + 384 ≤ 16384 ∧ p.cab + 491520 ≤ 2 ^ 21) &&
    b.inDecl p.tdofs 128 && b.inDecl p.mkofs 12288 && b.inDecl p.stofs (8 * p.nrows)
/-- Query tiles of a sequence: first pass row, rows, position of the first (R357). -/
def Pass.queryTiles (p : Pass) (i : Nat) : List (Nat × Nat × Int) :=
  let n := p.len i
  if n = 0 then []
  else if p.decode then [(i * p.qt, p.qt, (n : Int) - p.qt)]
  else (List.range (ceilDiv n p.qt)).map fun t => (p.clt.getD i 0 - p.clt.getD 0 0 + t * p.qt, min p.qt (n - t * p.qt), ((t * p.qt : Nat) : Int))
/-- Key tiles of a query tile (R358). -/
def Pass.keyTiles (p : Pass) (i : Nat) (q : Nat × Nat × Int) : List TilePlan :=
  let n := p.len i
  let last := (q.2.2 + q.2.1 - 1).toNat
  let nb := if p.causal then min (ceilDiv n 64) (last / 64 + 1) else ceilDiv n 64
  (List.range (ceilDiv nb 6)).map fun g =>
    { seq := i, len := n, qrow0 := q.1, qrows := q.2.1, qpos0 := q.2.2, blk0 := 6 * g, nblk := min 6 (nb - 6 * g), firstk := g == 0, lastk := g + 1 == ceilDiv nb 6 }
/-- The key tiles of the pass in order. -/
def Pass.plan (p : Pass) : List TilePlan := (List.range p.nseq).flatMap fun i => (p.queryTiles i).flatMap (p.keyTiles i)

/-! ## ASEQ, ATILE and AMASK -/

def badAttn (b : Bool) (a l : Nat) : Act Unit := needA (!b) (.fault fcAttn (BitVec.ofNat 64 a) l 0)
/-- Bytes that an instruction reads while it holds its group (R349): a translation that fails takes the fault given. -/
def heldRead (v : View) (code lane a n : Nat) (tiers : List Nat) : Act (List Byte × List Bool) := do
  let s ← get
  match s.engRange v.b.core v.b.ctx a n false with
  | .error x => faultA code x.va lane
  | .ok rs =>
    needA (rs.all fun r => tiers.contains r.leaf.tier) (.fault code (BitVec.ofNat 64 a) lane 0)
    needA (!s.runsHeld rs) .hold
    pure (s.engRead rs)
def allTiers : List Nat := [0, 1, 2, 3, 4, 5]
/-- An operation joins the block's attention context; the pass changes with it (R347). -/
def acceptA (v : View) (w : WE) (ls : List Nat) (kind : AKind) (pass : Pass) (bad : Bool) (next : Option Pass) : Act Nat := do
  needA (decide (v.b.attn.ops.length < 64)) .hold
  let (no, tl) := v.b.attn.tl.give
  modA fun s =>
    let acc := (s.coreD v.b.core).accs
    let op : AOp := { no := no, acc := acc, pre := v.cmdPre ls, slot := WE.slot? w, kind := kind, pass := pass, ended := false, hand := [], last := none, fault := .none, bad := bad }
    let s := s.modBlk v.u.blk fun b => ({ b with attn := { b.attn with tl := tl, ops := b.attn.ops ++ [op], pass := next } }).setSlot (WE.slot? w)
    s.modCore v.b.core fun c => { c with accs := acc + 1 }
  pure no
def execAseq (w : WE) (s : State) : Host.Outcome State Fault Refusal :=
  runUnit (fun v => engIssue w { src := [mSrc w.b 2] } true (fun ls x => do
    fenced v ls
    let a := (x.d 0).toNat % 2 ^ 56
    badAttn (a % 128 != 0) a x.lane
    let (bs, ps) ← heldRead v fcAttn x.lane a 128 allTiers
    let p0 := passOf bs []
    if ps.any id then
      let _ ← acceptA v w ls .aseq p0 true v.b.attn.pass
      uDone v
    else
      let ca := fieldAt bs 0 7
      badAttn (!p0.fieldsOk || ca % 4 != 0) a x.lane
      let (ts, tps) ← heldRead v fcAttn x.lane ca (4 * (p0.nseq + 1)) [0, 1]
      let p := passOf bs ((List.range (p0.nseq + 1)).map fun i => fieldAt ts (4 * i) 4)
      if tps.any id then
        let _ ← acceptA v w ls .aseq p0 true v.b.attn.pass
        uDone v
      else
        badAttn (!p.areasOk v.b) a x.lane
        let _ ← acceptA v w ls .aseq p false (some p)
        uDone v) v) s
def execAtile (w : WE) (s : State) : Host.Outcome State Fault Refusal :=
  runUnit (fun v => engIssue w { dst := some ⟨w.a, 2⟩ } true (fun ls _ => do
    let no ← match v.b.attn.pass with
      | none => pure 0
      | some p =>
        match p.plan[p.next]? with
        | none => pure 0
        | some pl => acceptA v w ls (.atile p.next pl [] none) p false (some { p with next := p.next + 1 })
    writeAll v ⟨w.a, 2⟩ ls ((words2 (BitVec.ofNat 64 no)).map fun w => ⟨w, false⟩)
    uDone v) v) s
def execAmask (w : WE) (s : State) : Host.Outcome State Fault Refusal :=
  runUnit (fun v => engIssue w { src := [mSrc w.a 1, mSrc w.b 1, mSrc w.c 1] } true (fun ls x => do
    let row := rowOf (x.w 0).v; let o := (x.w 1).v.toNat; let m := mOf (x.w 2).v
    badAttn (decide (128 < m ∨ 16383 < row + 256 + m - 1)) 0 x.lane
    badAlign [o] 4 x.lane
    badRange (!v.b.inDecl o (48 * m)) o x.lane
    acceptM v w ls (.amask row m o)) v) s

/-! ## The gather (R359-R362, R505) -/

def popc64 (x : Nat) : Nat := ((List.range 64).filter x.testBit).length
/-- Positions with a slot, in rising order (R354). -/
def slotsOf (surv : Nat) : List Nat := (List.range 64).filter surv.testBit
/-- Bits of the survivor word within the length. -/
def survIn (surv len j : Nat) : Nat := surv % 2 ^ (min 64 (len - 64 * j))
def modA' (blk no : Nat) (f : AOp → AOp) (s : State) : State :=
  s.modBlk blk fun b => { b with attn := { b.attn with ops := updFirst (·.no == no) f b.attn.ops } }
/-- A block that holds no slots. -/
def KvHand.none : KvHand := ⟨0, [], [], [], [], .none⟩
/-- A halting fault of an engine (R360). -/
def engHalt (b : Block) (unit code no place : Nat) (s : State) : State := s.raiseHalt b.ctx code .none (.eng b.uid unit 0) (mkEngRec b unit code 0 no place 0 0)
/-- What an access of a gather leaves (R359, R360): a fault to post (R505), a fault that halts the context, nothing yet, a block that is absent, or the state with the block further on its way, or in hand. -/
inductive Gather
  | post (e : XErr)
  | halt (code : Nat)
  | wait
  | absent
  | busy (s : State) (k : KvBusy)
  | took (s : State) (h : KvHand)
/-- Copies the handle of block `t` of a tile at its entry's home, once it resolves (R360). -/
def State.gatherHandle (s : State) (b : Block) (p : Pass) (pl : TilePlan) (t : Nat) : Gather :=
  let j := pl.blk0 + t
  match s.engRange b.core b.ctx (p.kvt + 16 * (pl.seq * p.maxb + j)) 16 true with
  | .error x => .post x
  | .ok er =>
    if s.runsHeld er then .wait else
    let (eb, ep) := s.engRead er
    if ep.any id then .absent else
    let h := handleOf eb
    match s.resolve b.ctx 0 h with
    | .stop (.fault code _ _ _) => .halt code
    | .stop _ => .wait
    | .unmapped e => .post e
    | .poison => .absent
    | .addr a =>
      match s.splitHandle b.ctx (b.core / 48) 0 h with
      | .stop (.fault code _ _ _) => .halt code
      | .stop _ => .wait
      | .poison => .absent
      | .ok g s => .busy (s.engWrite er g.bytes (List.replicate 16 false)) (.handle (g.w0, g.w1) a)
/-- The accesses to runs, each within a line of 128 bytes: the first goes to place `o` (R281). -/
def kvReads (isV : Bool) : Nat → List Run → List KvRead
  | _, [] => []
  | o, r :: rs => ((lineCuts r.key r.len).map fun c => ⟨isV, o + (c.1 - r.key), ⟨c.1, c.2, r.leaf⟩⟩) ++ kvReads isV (o + r.len) rs
/-- The block is in hand once no access to it is left. -/
def KvHand.settled (s : State) (h : KvHand) (left : List KvRead) : Gather := if left = [] then .took s h else .busy s (.slots h left)
/-- Reads the survivor word in one step; the slots' accesses follow, translated together (R359). -/
def State.gatherSurv (s : State) (b : Block) (p : Pass) (pl : TilePlan) (t : Nat) (w : DWord × DWord) (a : Nat) : Gather :=
  match s.engRange b.core b.ctx a 8 false with
  | .error x => .post x
  | .ok sr =>
    if s.runsHeld sr then .wait else
    let surv := leNat (s.engRead sr).1
    let n := 2 * p.hd * (slotsOf (survIn surv pl.len (pl.blk0 + t))).length
    match s.engRange b.core b.ctx (a + 0x80) n false, s.engRange b.core b.ctx (a + 0x80 + 2 * p.hd * 64) n false with
    | .error x, _ => .post x
    | _, .error x => .post x
    | .ok kr, .ok vr =>
      let no := List.replicate n false
      KvHand.settled s ⟨BitVec.ofNat 64 surv, zerosB n, no, zerosB n, no, some w⟩ (kvReads false 0 kr ++ kvReads true 0 vr)
/-- Bytes put into a list at a place. -/
def splice {α : Type} (l : List α) (o : Nat) (x : List α) : List α := l.take o ++ x ++ l.drop (o + x.length)
/-- Reads one access of the slots. -/
def State.gatherSlot (s : State) (h : KvHand) (left : List KvRead) (k : Nat) : Gather :=
  match left[k]? with
  | none => .wait
  | some r =>
    if s.runsHeld [r.run] then .wait else
    let (bs, ps) := s.engRead [r.run]
    KvHand.settled s (if r.isV then { h with vbytes := splice h.vbytes r.ofs bs, vpsn := splice h.vpsn r.ofs ps }
      else { h with kbytes := splice h.kbytes r.ofs bs, kpsn := splice h.kpsn r.ofs ps }) (left.eraseIdx k)
/-- The next access of block `t`, the k-th of those that may come in any order. -/
def State.gather (s : State) (b : Block) (p : Pass) (pl : TilePlan) (t : Nat) (busy : Option KvBusy) (k : Nat) : Gather :=
  match busy with
  | none => s.gatherHandle b p pl t
  | some (.handle w a) => s.gatherSurv b p pl t w a
  | some (.slots h left) => s.gatherSlot h left k

/-- The columns of a tile: for each slot of each block its column, its position, its block and its slot. -/
def tileCols (pl : TilePlan) (hand : List KvHand) : List (Nat × Nat × Nat × Nat) :=
  hand.zipIdx.flatMap fun h =>
    (slotsOf (survIn h.1.surv.toNat pl.len (pl.blk0 + h.2))).zipIdx.map fun x => (64 * h.2 + x.2, 64 * (pl.blk0 + h.2) + x.1, h.2, x.2)
/-- K-steps per score column group. -/
def Pass.ks (p : Pass) : Nat := ceilDiv p.hd 96
/-- The tile's keys and values in its buffer: every element of the buffer's tiles is written (R359). -/
def State.writeKv (s : State) (b : Block) (p : Pass) (buf : Nat) (cols : List (Nat × Nat × Nat × Nat)) (hand : List KvHand) : State :=
  let ks := p.ks
  let voff := buf + 3 * ks * 24576
  let s := s.wr (kCab b.core buf) (zerosB ((3 * ks + 4) * 24576))
  cols.foldl (fun s c =>
    let h := hand.getD c.2.2.1 KvHand.none
    (List.range p.hd).foldl (fun s d =>
      let o := 2 * (p.hd * c.2.2.2 + d)
      let cut {α : Type} (l : List α) : List α := (l.drop o).take 2
      let s := s.wrPsn (kCab b.core (buf + 24576 * (ks * (c.1 / 128) + d / 96) + 256 * (d % 96) + 2 * (c.1 % 128))) (cut h.kbytes) (cut h.kpsn)
      s.wrPsn (kCab b.core (voff + 24576 * (c.1 / 96) + 256 * (c.1 % 96) + 2 * d)) (cut h.vbytes) (cut h.vpsn)) s) s
/-- A mask bit (R359). -/
def maskBit (p : Pass) (pl : TilePlan) (cols : List (Nat × Nat × Nat × Nat)) (i col : Nat) : Bool :=
  (cols.find? (·.1 == col)).elim false fun c => !p.causal || decide ((c.2.1 : Int) ≤ pl.qpos0 + i)
/-- The tile's descriptor (R361). -/
def tileDesc (p : Pass) (k : Nat) (pl : TilePlan) (hand : List KvHand) (masked : Bool) (buf : Nat) : List Byte :=
  let cnt (t : Nat) : Nat := (hand[t]?).elim 0 fun h => (slotsOf (survIn h.surv.toNat pl.len (pl.blk0 + t))).length
  let beyond := hand.zipIdx.any fun h => h.1.surv.toNat != survIn h.1.surv.toNat pl.len (pl.blk0 + h.2)
  let bit (b : Bool) (n : Nat) : Nat := if b then n else 0
  leBytes 4 k ++ leBytes 4 pl.seq ++ leBytes 4 pl.qrow0 ++ leBytes 2 pl.qrows ++ leBytes 1 pl.nblk ++
    leBytes 1 (bit masked 1 + bit pl.firstk 2 + bit pl.lastk 4 + bit (k % 2 == 1) 8 + bit beyond 16) ++
    leBytes 4 (BitVec.ofInt 32 pl.qpos0).toNat ++ leBytes 2 (64 * pl.nblk) ++ leBytes 2 ((List.range 6).map cnt).sum ++ leBytes 4 buf ++
    leBytes 4 (buf + 3 * p.ks * 24576) ++ leBytes 1 p.ks ++ zerosB 3 ++ leBytes 4 pl.blk0 ++ (List.range 6).flatMap (fun t => leBytes 1 (cnt t)) ++ zerosB 18
/-- The handle copy of a block on its way. -/
def KvBusy.handleOf : KvBusy → Option (DWord × DWord)
  | .handle w _ => some w
  | .slots h _ => h.handle
/-- The handle copies that a gather has made. -/
def AKind.copiesMade : AKind → List (DWord × DWord)
  | .aseq => []
  | .atile _ _ hand busy => hand.filterMap (·.handle) ++ (busy.bind (·.handleOf)).toList
/-- Drops handle copies (R360). -/
def State.dropCopies (s : State) (b : Block) (ws : List (DWord × DWord)) : State := ws.foldl (fun s w => s.sendDrop b.core b.ctx ⟨w.1, w.2⟩) s
/-- The end of an ATILE (R359, R361): the buffer is written; what the mask tile takes where some column is masked, and the descriptor. -/
def State.endTile (s : State) (b : Block) (p : Pass) (k : Nat) (pl : TilePlan) (hand : List KvHand) : State × List Frag × Frag :=
  let hand := hand ++ List.replicate (pl.nblk - hand.length) KvHand.none
  let buf := p.cab + 245760 * (k % 2)
  let cols := tileCols pl hand
  let masked := (List.range pl.qrows).any fun i => (List.range (64 * pl.nblk)).any fun c => !maskBit p pl cols i c
  let clean (o : Nat) (bs : List Byte) : Frag := ⟨o, bs, List.replicate bs.length false⟩
  (s.writeKv b p buf cols hand,
   if masked then cutLines 64 (clean (p.mkofs + 6144 * (k % 2)) ((List.range pl.qrows).flatMap fun i => bitsBytes 48 (maskBit p pl cols i))) else [],
   clean (p.tdofs + 64 * (k % 2)) (tileDesc p k pl hand masked buf))
/-- The effect of ASEQ as an operation (R352): the rows, and what the statistics take. -/
def State.endSeq (s : State) (b : Block) (p : Pass) : State × List Frag :=
  ((List.range p.nrows).foldl (fun s r => s.setAccRow b.core (p.orow + r) zeroRow) s,
   cutLines (p.nrows / 16 + 2) ⟨p.stofs, (List.range p.nrows).flatMap (fun _ => leBytes 4 0xFF800000 ++ zerosB 4), List.replicate (8 * p.nrows) false⟩)
/-- The attention context performs its operations and the instructions that hold in its order one at a time (R347). -/
def Block.attnTurn (b : Block) (o : AOp) : Bool := b.attn.waits.all fun w => decide (o.no ≤ w.after)
/-- The next access of the operation at the head that is none of its shared lines: the next of its tile's blocks, the k-th of those that may come in any order (R281, R359, R505), or, once these are there, its buffer or its rows. -/
def attnWork (b : Block) (o : AOp) (k : Nat) : Act Unit := do
  let s ← get
  match o.kind with
  | .aseq =>
    needA (!rowsMeet [(o.pass.orow, o.pass.nrows, true)] (s.openRows b.core o.acc)) .idle
    let (s, fs) := s.endSeq b o.pass
    set (modA' b.uid o.no (fun o => { o with ended := true, hand := fs }) s)
  | .atile i pl hand busy =>
    if o.fault == .abandon || hand.length == pl.nblk then
      let (s, fs, d) := s.endTile b o.pass i pl hand
      set (modA' b.uid o.no (fun o => { o with ended := true, hand := fs, last := some d }) (s.dropCopies b o.kind.copiesMade))
    else
      let take (s : State) (h : KvHand) : State := modA' b.uid o.no (fun o => { o with kind := .atile i pl (hand ++ [h]) none }) s
      match s.gather b o.pass pl hand.length busy k with
      | .post x =>
        postEng b (mkEngRec b 5 x.code 0 o.no hand.length x.va (256 * hand.length)) (.eop b.uid .attention o.no)
        modA (modA' b.uid o.no fun o => { o with fault := .posted x.code x.va })
      | .halt code => set (engHalt b 5 code o.no hand.length s)
      | .wait => idleA
      | .absent => set (take (s.uncorrAt b.core) KvHand.none)
      | .busy s y => set (modA' b.uid o.no (fun o => { o with kind := .atile i pl hand (some y) }) s)
      | .took s h => set (take s h)
/-- ATTENTION_GATHER_BLOCK: an access of the operation at the head of the attention context: one of its shared lines, the descriptor's last (R281, R359), or the next of its other accesses. -/
def execAttentionGatherBlock (st : EngStep) (s : State) : Host.Outcome State Fault Refusal :=
  runEvent (do
    let b ← engBlock st.of
    let o ← someA b.attn.ops.head? .idle
    needA (b.attnTurn o && (← get).preDone o.pre && !o.bad && (o.fault == .none || o.fault == .abandon)) .idle
    if !o.ended then attnWork b o (st.piece?.getD 0) else
    match st.piece? with
    | none => idleA
    | some l =>
      let (now, later) := if o.hand = [] then (o.last.toList, []) else o.hand.partition fun f => f.ofs / 128 == l
      needA (now.any fun f => f.ofs / 128 == l) .idle
      modA fun s =>
        modA' st.of o.no (fun x => { x with hand := later, last := if o.hand = [] then none else x.last }) (s.landFrags st.of l now)) s
/-- The head operation of an attention context is over (R281): its last accesses are performed, or its command carries an error (R443). -/
def AOp.complete (o : AOp) : Bool := o.bad || (o.ended && o.hand == [] && o.last.isNone)
/-- The state once it is: an operation abandoned is counted; one whose command carries an error drops the handle copies it had made (R360, R443, R505). -/
def State.attnEnd (s : State) (b : Block) (o : AOp) : Option State :=
  if b.attnTurn o && s.preDone o.pre && o.complete then
    let s := if o.bad && !o.ended then s.dropCopies b o.kind.copiesMade else s
    some (if o.bad || o.fault == .abandon then s.bump b.ctx 4 1 else s)
  else none

/-! ## Survivor instructions (R353-R356) -/

/-- Every operation and every instruction before this one in the attention context's order is over (R347). -/
def attnFree (v : View) : Act Unit :=
  let upTo := (v.b.waitOf v.u).elim v.b.attn.tl.given (·.after)
  needA (v.b.attn.ops.all (fun o => decide (upTo < o.no)) && v.b.attn.waits.head?.elim true (·.u == v.u)) .hold
/-- What a survivor instruction finds: the block's address, its survivor word with its poison, or a handle whose home is on a package that is gone (R461). -/
structure Survivor where
  a : Nat
  surv : Nat
  psn : Bool
def survivor (v : View) (ls : List Nat) (x : LaneIn) (write : Bool) : Act (Option Survivor) := do
  attnFree v
  fenced v ls
  let s ← get
  match s.resolve v.b.ctx x.lane (x.handle 0) with
  | .stop e => throw e
  | .unmapped e => faultA fcAttn e.va x.lane
  | .poison => pure none
  | .addr a =>
    match s.engRange v.b.core v.b.ctx a 8 write with
    | .error e => faultA fcAttn e.va x.lane
    | .ok rs =>
      needA (!s.runsHeld rs) .hold
      let (bs, ps) := s.engRead rs
      pure (some ⟨a, leNat bs, ps.any id⟩)
/-- The position that C names. -/
def survPos (x : LaneIn) : Act Nat := do
  let p := (x.w 1).v.toNat
  badAttn (decide (63 < p)) 0 x.lane
  pure p
def execSvmap (w : WE) (s : State) : Host.Outcome State Fault Refusal :=
  runUnit (fun v => engIssue w { src := [mSrc w.b 4, mSrc w.c 1], dst := some ⟨w.a, 1⟩ } true (fun ls x => do
    let p ← survPos x
    inOrder true (WE.slot? w) do
      let r : PWord := match ← survivor v ls x false with
        | none => ⟨0, true⟩
        | some f => if f.psn then ⟨0, true⟩ else ⟨BitVec.ofNat 32 (if f.surv.testBit p then popc64 (f.surv % 2 ^ p) else 0xFFFFFFFF), false⟩
      writeAll v ⟨w.a, 1⟩ ls [r]
      uDone v) v) s
/-- Translates the move of slot `i` to place `j`, K and V together (R303, R349, R356). -/
def State.slotRuns (s : State) (b : Block) (base sz i j : Nat) : Except XErr SlotBusy :=
  let run (v : Bool) (q : Nat) (w : Bool) := s.engRange b.core b.ctx (base + 0x80 + (if v then 64 * sz else 0) + sz * q) sz w
  let no := (zerosB sz, List.replicate sz false)
  match run false i false, run false j true, run true i false, run true j true with
  | .ok ks, .ok kd, .ok vs, .ok vd => .ok ⟨kvReads false 0 ks ++ kvReads true 0 vs, kvReads false 0 kd ++ kvReads true 0 vd, no, no⟩
  | .error e, _, _, _ => .error e
  | _, .error e, _, _ => .error e
  | _, _, .error e, _ => .error e
  | _, _, _, .error e => .error e
/-- The next access of a slot on its way, a read or, once it is read, a write; none where it is held for a package without a route (R281, R461). -/
def State.slotStep (s : State) (t : SlotBusy) : Option (State × SlotBusy) :=
  match t.reads, t.writes with
  | r :: rest, _ =>
    if s.runsHeld [r.run] then none else
    let d := s.engRead [r.run]
    let put (x : List Byte × List Bool) : List Byte × List Bool := (splice x.1 r.ofs d.1, splice x.2 r.ofs d.2)
    some (s, if r.isV then { t with reads := rest, v := put t.v } else { t with reads := rest, k := put t.k })
  | [], r :: rest =>
    if s.runsHeld [r.run] then none else
    let x := if r.isV then t.v else t.k
    some (s.engWrite [r.run] ((x.1.drop r.ofs).take r.run.len) ((x.2.drop r.ofs).take r.run.len), { t with writes := rest })
  | [], [] => some (s, t)
def setMove (blk : Nat) (m : Option SlotMove) (s : State) : State := s.modBlk blk fun b => { b with attn := { b.attn with move := m } }
/-- The slots that move, each with its new place, in order (R356). -/
def SlotMove.pairs (m : SlotMove) (set_ : Bool) : List (Nat × Nat) :=
  let n := popc64 m.surv.toNat
  let q := popc64 (m.surv.toNat % 2 ^ m.pos)
  if set_ then (List.range (n - q)).map fun i => (n - 1 - i, n - i) else (List.range (n - 1 - q)).map fun i => (q + 1 + i, q + i)
/-- One attempt of an instruction whose slots move: a slot's move is translated, or one access of it is made; after the last slot the survivor word is rewritten in one step (R281, R356). A fault of a move is posted; the group holds until it is answered, and what the instruction took at its issue stays with the context (R32, R505). -/
def survMove (set_ : Bool) (w : WE) (v : View) (m : SlotMove) : Act Unit :=
  inOrder true (WE.slot? w) do
    match m.fault with
    | .posted _ _ => holdA
    | .abandon =>
      modA fun s => setMove v.u.blk none (s.bump v.b.ctx 4 1)
      uDone v
    | .none =>
      let s ← get
      let stay (s : State) (m : SlotMove) : Act Unit :=
        set (((setMove v.u.blk (some m) s).modBlk v.u.blk (·.enqueueWait v.u true (WE.slot? w))).holdStep v.u none)
      let fault (e : XErr) : Act Unit := do
        needA (s.ctxD v.b.ctx).fqRoom .hold
        stay (s.post v.b.ctx (mkEngRec v.b 5 e.code 0 0 m.next e.va (256 * m.next)) (.move v.u.blk)) { m with fault := .posted e.code e.va }
      match m.busy, (m.pairs set_)[m.next]?, s.engRange v.b.core v.b.ctx m.base 8 true with
      | some t, _, _ =>
        match s.slotStep t with
        | none => stay s m
        | some (s, t) => stay s (if t.reads = [] ∧ t.writes = [] then { m with busy := none, next := m.next + 1 } else { m with busy := some t })
      | none, some (i, j), _ =>
        match s.slotRuns v.b m.base m.size i j with
        | .error e => fault e
        | .ok t => stay s { m with busy := some t }
      | none, none, .error e => fault e
      | none, none, .ok rs =>
        if s.runsHeld rs then stay s m else
        let y := if set_ then m.surv.toNat ||| 2 ^ m.pos else m.surv.toNat ^^^ 2 ^ m.pos
        set (setMove v.u.blk none (s.engWrite rs (leBytes 8 y) (List.replicate 8 m.psn)))
        uDone v
/-- SVSET and SVCLR. One whose moves have begun goes on with what it took when it issued. -/
def survEdit (set_ : Bool) (w : WE) (v : View) : Act Unit :=
  match v.b.attn.move.filter (·.u == v.u) with
  | some m => survMove set_ w v m
  | none =>
    engIssue w { src := [mSrc w.b 4, mSrc w.c 1] } true (fun ls x => do
      let p ← survPos x
      let pass ← someA ((v.b.waitOf v.u).elim v.b.attn.pass (·.pass)) (.fault fcAttn 0 x.lane 0)
      let f? ← inOrder true (WE.slot? w) (survivor v ls x true)
      match f? with
      | none => uDone v
      | some f =>
        if f.surv.testBit p == set_ then uDone v
        else survMove set_ w v ⟨v.u, f.a, BitVec.ofNat 64 f.surv, f.psn, p, 2 * pass.hd, 0, none, .none⟩) v
def execSvset (w : WE) (s : State) : Host.Outcome State Fault Refusal := runUnit (survEdit true w) s
def execSvclr (w : WE) (s : State) : Host.Outcome State Fault Refusal := runUnit (survEdit false w) s

end Sys2Proof.Machine
end

