-- ==== Sys2Proof/Machine/Streams.lean ====
section
/-! DEFINITION. Duplex streams: frames and their arrival, and the stream instructions (spec/14 R367-R375; spec/15 R406; spec/22 R490; spec/10 R285). -/

namespace Sys2Proof.Machine

/-! ## Stream contexts (R367) -/

/-- The fields of a stream context. -/
structure SCtx where
  at_ : Nat
  g : Nat
  p : Nat
  f : Nat
  l : Nat
  pmin : Nat
  npend : Nat
  frn : Nat
  fhead : Nat
  ftail : Nat
  fring : Nat
  fpay : Nat
  fpsz : Nat
  cqn : Nat
  stag : Nat
  clt : Nat
  kvt : Nat
  seq : Nat
  nseq : Nat
  maxb : Nat
  tlog : Nat
  tlogn : Nat
  ckr : Nat
  ckn : Nat
  cksz : Nat
  late : Nat
  clamp : Nat
  cfail : Nat
  deriving DecidableEq, Repr
def sctxOf (a : Nat) (bs : List Byte) : SCtx :=
  let f := fieldAt bs
  { at_ := a, g := f 0 4, p := f 4 4, f := f 8 4, l := f 0xC 4, pmin := f 0x10 4, npend := f 0x14 2, frn := f 0x16 2, fhead := f 0x18 4, ftail := f 0x1C 4,
    fring := f 0x20 7, fpay := f 0x28 7, fpsz := f 0x30 4, cqn := f 0x34 2, stag := f 0x36 2, clt := f 0x40 7, kvt := f 0x48 7, seq := f 0x50 4,
    nseq := f 0x54 4, maxb := f 0x58 4, tlog := f 0x60 7, tlogn := f 0x68 4, ckr := f 0x70 7, ckn := f 0x78 4, cksz := f 0x7C 4,
    late := f 0x80 4, clamp := f 0x84 4, cfail := f 0x88 4 }
def pow2In (lo hi n : Nat) : Bool := decide (lo ≤ n ∧ n ≤ hi) && n == 2 ^ Nat.log2 n
/-- R367's limits. -/
def SCtx.legal (c : SCtx) : Bool :=
  pow2In 2 1024 c.frn && pow2In 2 65536 c.tlogn && decide (1 ≤ c.l ∧ c.l ≤ c.tlogn ∧ 1 ≤ c.maxb ∧ c.maxb ≤ 1024 ∧ 2 ≤ c.ckn ∧ c.ckn ≤ 4096 ∧ c.cksz ≤ 16384 ∧ c.seq < c.nseq) &&
    c.cksz % 128 == 0 && c.fpsz % 128 == 0
/-- Frames pending: their counts from the tail on. -/
def SCtx.pending (c : SCtx) : List Nat := (List.range ((c.fhead + 2 ^ 32 - c.ftail) % 2 ^ 32)).map fun i => c.ftail + i
def SCtx.ringAt (c : SCtx) (x : Nat) : Nat := c.fring + 32 * (x % c.frn)

/-! ## Frame arrival (R369, R406) -/

/-- FRAME_WINDOW_WRITE (R489, R490): a write within the window is taken; a write that covers its last byte submits the record. Any other access is discarded and counted. -/
def execFrameWindowWrite (ctx ofs : Nat) (bytes : List Byte) (s : State) : Host.Outcome State Fault Refusal :=
  .next (if bytes = [] ∨ ofs < 0x9000 ∨ 0x9020 < ofs + bytes.length then s.hostError else
    s.modCtx ctx fun c =>
      let w := c.window.take (ofs - 0x9000) ++ bytes ++ c.window.drop (ofs - 0x9000 + bytes.length)
      { c with window := w, framesIn := if ofs + bytes.length = 0x9020 then c.framesIn ++ [w] else c.framesIn })
/-- The running block whose q17 a stream context is bound to; a launch whose STREAM is 0 binds none (R406). -/
def State.boundBlock (s : State) (ctx stream : Nat) : Option Block :=
  s.blocks.find? fun b => b.ctx == ctx && b.idx == 0 && b.onCore && (s.grid? b.grid).elim false fun g => g.stream != 0 && g.stream == stream && !g.fin
/-- A stream report to the context's queue CQN (R396, R401). -/
def State.streamReport (s : State) (ctx : Nat) (c : SCtx) (status stamp : Nat) : State :=
  let n := (s.ctxD ctx).rcd.ncq.toNat
  { s with cqPend := s.cqPend ++ [⟨.stream, ctx, if n ≤ c.cqn then 0 else c.cqn, BitVec.ofNat 64 c.at_, c.stag, status, 2, BitVec.ofNat 32 stamp, none, 0⟩] }
/-- The arrival of one frame: none while it is held. -/
def State.frameStep (s : State) (ctx : Nat) (fr : List Byte) : Option State :=
  let a := fieldAt fr 0 7
  let stamp := fieldAt fr 8 4
  let len := fieldAt fr 12 4
  let pay := fieldAt fr 16 7
  match s.devRead ctx a 256 [0] with
  | none => some s.hostError
  | some bs =>
    if s.devPsn ctx a 256 then some s.hostError else
    let c := sctxOf a bs
    (s.boundBlock ctx a).bind fun b =>
      let x := c.fhead
      let slot := c.fpay + c.fpsz * (x % c.frn)
      let n := min len c.fpsz
      let fault := some (s.streamReport ctx c 0x10 stamp)
      if !c.legal || a % 256 != 0 then fault else
      match s.engRange nCores ctx (c.ringAt x) 32 true, s.engRange nCores ctx slot c.fpsz true, s.engRange nCores ctx pay n false with
      | .ok er, .ok pr, .ok sr =>
        let put (s : State) (o n v : Nat) : State := s.devWrite ctx (a + o) (leBytes n v)
        if stamp < c.f then some ((put s 0x80 4 (c.late + 1)).streamReport ctx c 0x0E stamp) else
        if (c.fhead + 2 ^ 32 - c.ftail) % 2 ^ 32 = c.frn then none else
        let s2 := min stamp c.g
        let early := decide (c.g < stamp)
        let flags := (if x / c.frn % 2 = 0 then 1 else 0) + (if early then 2 else 0) + if c.fpsz < len then 4 else 0
        let (bytes, ps) := s.engRead sr
        let s := s.engWrite pr bytes ps
        let s := s.engWrite er (leBytes 4 s2 ++ leBytes 4 stamp ++ leBytes 4 flags ++ leBytes 4 n ++ zerosB 16) (List.replicate 32 false)
        let s := if early then put s 0x84 4 (c.clamp + 1) else s
        let s := put (put (put s 0x18 4 (x + 1)) 0x14 2 (c.npend + 1)) 0x10 4 (min c.pmin s2)
        some (s.modBlk b.uid fun b => { b with q17Pend := b.q17Pend ++ [BitVec.ofNat 32 (c.stag * 65536 + x % c.frn)] })
      | _, _, _ => fault
/-- The first frame of a context that is not held and has no earlier frame of its stream before it. -/
def State.frameOf (s : State) (ctx : Nat) : List Nat → List (List Byte) → Option (List Byte × State)
  | _, [] => none
  | held, f :: r =>
    let a := fieldAt f 0 7
    if held.contains a then s.frameOf ctx held r else
    match s.frameStep ctx f with
    | some t => some (f, t)
    | none => s.frameOf ctx (a :: held) r
/-- FRAME_ARRIVAL: the stream unit takes one submitted frame. While a report of the unit waits for a completion queue of the context, it takes no frame of that context (R397, R407; log 60). -/
def execFrameArrival (s : State) : Host.Outcome State Fault Refusal :=
  runEvent (do
    let s ← get
    let pick := s.ctxs.findSome? fun c =>
      if s.halting c.no || s.ctxStopped c.no || s.cqPend.any (fun e => e.writer == .stream && e.ctx == c.no) then none else (s.frameOf c.no [] c.framesIn).map fun x => (c.no, x.1, x.2)
    let (n, f, t) ← someA pick .idle
    set (t.modCtx n fun c => { c with framesIn := c.framesIn.erase f })) s
/-- Q17_PUSH: a written frame's entry reaches q17, which holds 64 entries (R285, R368). -/
def execQ17Push (blk : Nat) (s : State) : Host.Outcome State Fault Refusal :=
  runEvent (do
    let s ← get
    let b ← someA (s.blk? blk) .idle
    match b.q17Pend with
    | [] => idleA
    | e :: r =>
      needA (decide (b.q17.length < 64) && b.onCore) .idle
      set (s.modBlk blk fun b => { b with q17 := b.q17 ++ [e], q17Pend := r })) s

/-! ## The stream instructions (R348, R370-R373) -/

def sRead (v : View) (l a n : Nat) : Act (List Byte) := do pure (← heldRead v fcDuplex l a n allTiers).1
/-- A write of a stream instruction (R349). -/
def sWrite (v : View) (l a : Nat) (bs : List Byte) : Act Unit := do
  let s ← get
  match s.engRange v.b.core v.b.ctx a bs.length true with
  | .error x => faultA fcDuplex x.va l
  | .ok rs =>
    needA (!s.runsHeld rs) .hold
    set (s.engWrite rs bs (bs.map fun _ => false))
def badStream (b : Bool) (l : Nat) : Act Unit := needA (!b) (.fault fcDuplex 0 l 0)
/-- The stream context that B names, and which of its bytes are poisoned. -/
def streamCtx (v : View) (ls : List Nat) (l : Nat) (b : DWord) : Act (SCtx × List Bool) := do
  let a := b.toNat % 2 ^ 56
  badStream (a % 256 != 0) l
  attnFree v
  fenced v ls
  let (bs, ps) ← heldRead v fcDuplex l a 256 [0]
  let c := sctxOf a bs
  badStream (!c.legal) l
  pure (c, ps)
/-- A value with the poison of its own bytes (R306, R443). -/
def ownPoison (ps : List Bool) (v o n : Nat) : PWord := ⟨BitVec.ofNat 32 v, ((ps.drop o).take n).any id⟩
def execDsread (w : WE) (sel : DsSel) (s : State) : Host.Outcome State Fault Refusal :=
  runUnit (fun v => engIssue w { src := mSrc w.b 2 :: (if sel = .frame then [mSrc w.c 1] else []), dst := some ⟨w.a, 4⟩ } true (fun ls x => inOrder true (WE.slot? w) do
    let (c, ps) ← streamCtx v ls x.lane (x.d 0)
    let ws ← match sel with
      | .cur => pure [ownPoison ps c.g 0 4, ownPoison ps c.p 4 4, ownPoison ps c.f 8 4, ownPoison ps c.l 0xC 4]
      | .pend => pure [ownPoison ps c.pmin 0x10 4, ownPoison ps c.npend 0x14 2, ownPoison ps c.late 0x80 4, ownPoison ps c.clamp 0x84 4]
      | .frame => do
        let (e, ep) ← heldRead v fcDuplex x.lane (c.ringAt (x.w 1).v.toNat) 32 allTiers
        pure ((List.range 4).map fun i => ownPoison ep (fieldAt e (4 * i) 4) (4 * i) 4)
    writeAll v ⟨w.a, 4⟩ ls ws
    uDone v) v) s
/-- Adds to words m in SEQ+1..NSEQ of the length table. -/
def cltAdd (v : View) (l : Nat) (c : SCtx) (d : Int) : Act Unit := do
  let n := c.nseq - c.seq
  let ws ← sRead v l (c.clt + 4 * (c.seq + 1)) (4 * n)
  sWrite v l (c.clt + 4 * (c.seq + 1)) ((List.range n).flatMap fun i => leBytes 4 (((fieldAt ws (4 * i) 4 : Nat) + d) % 2 ^ 32).toNat)
def execDscommit (w : WE) (s : State) : Host.Outcome State Fault Refusal :=
  runUnit (fun v => engIssue w { src := [mSrc w.a 1, mSrc w.b 2] } true (fun ls x => inOrder true (WE.slot? w) do
    let pd : PNum := w.c.setWidth 3
    let (c, _) ← streamCtx v ls x.lane (x.d 1)
    let p := min c.p c.g
    if c.pmin ≤ c.g ∨ c.l < c.g + 1 - p ∨ (c.ckn : Int) < (c.g : Int) + 2 - c.f then
      sWrite v x.lane (c.at_ + 0x88) (leBytes 4 (c.cfail + 1))
      predAll v pd ls false
    else
      sWrite v x.lane (c.tlog + 4 * (c.g % c.tlogn)) (leBytes 4 (x.w 0).v.toNat)
      sWrite v x.lane c.at_ (leBytes 4 (c.g + 1))
      cltAdd v x.lane c 1
      predAll v pd ls true
    uDone v) v) s
/-- The check of the shared area that a snapshot comes from or goes to. -/
def snapArea (v : View) (l a n : Nat) : Act Unit := do
  if n != 0 then
    needA (a % 128 == 0) (.fault fcMisalign (BitVec.ofNat 64 a) l 0)
    needA (v.b.inDecl a n) (.fault fcRange (BitVec.ofNat 64 a) l 0)
/-- Cuts one KV block of the sequence at s (R372). -/
def cutBlock (v : View) (l : Nat) (c : SCtx) (s j : Nat) : Act Unit := do
  let ea := c.kvt + 16 * (c.seq * c.maxb + j)
  let h := handleOf (← sRead v l ea 16)
  if h.null then pure () else
  match (← get).resolve v.b.ctx l h with
  | .stop e => throw e
  | .unmapped e => faultA fcDuplex e.va l
  | .poison =>
    -- the block lies behind a home on a package that is gone: its survivor word is out of reach (R461)
    if s ≤ 64 * j then dropEntry ea h
  | .addr a =>
    let surv := leNat (← sRead v l a 8)
    if 64 * j < s then sWrite v l a (leBytes 8 (surv % 2 ^ (s - 64 * j)))
    else
      sWrite v l a (zerosB 8)
      dropEntry ea h
where
  dropEntry (ea : Nat) (h : Handle) : Act Unit := do
    modA fun t => t.sendDrop v.b.core v.b.ctx h
    sWrite v l ea (zerosB 16)
/-- The cut at s, with the frame numbers that stay pending (R372). -/
def truncAt (v : View) (l a : Nat) (c : SCtx) (s : Nat) (pend : List Nat) : Act Unit := do
  sWrite v l c.at_ (leBytes 4 s)
  let t ← sRead v l (c.clt + 4 * c.seq) 8
  let len := fieldAt t 4 4 - fieldAt t 0 4
  cltAdd v l c ((s : Int) - len)
  for j in (List.range (c.maxb - s / 64)).map (s / 64 + ·) do cutBlock v l c s j
  let mut low := 2 ^ 32 - 1
  for x in pend do
    let e ← sRead v l (c.ringAt x) 12
    if s < fieldAt e 0 4 then
      sWrite v l (c.ringAt x) (leBytes 4 s)
      sWrite v l (c.ringAt x + 8) (leBytes 4 (fieldAt e 8 4 ||| 2))
    low := min low (min s (fieldAt e 0 4))
  sWrite v l (c.at_ + 0x10) (leBytes 4 low)
  if c.cksz != 0 then
    let (bs, ps) ← heldRead v fcDuplex l (c.ckr + c.cksz * (s % c.ckn)) c.cksz allTiers
    modA fun t => (cutLines (bs.length / 128 + 1) ⟨a, bs, ps⟩).foldl (fun t f => t.landFrags v.u.blk (f.ofs / 128) [f]) t
def execDstruncFrame (w : WE) (s : State) : Host.Outcome State Fault Refusal :=
  runUnit (fun v => engIssue w { src := [mSrc w.a 1, mSrc w.b 2, mSrc w.c 1] } true (fun ls x => inOrder true (WE.slot? w) do
    let l := x.lane
    let a := (x.w 0).v.toNat
    let (c, _) ← streamCtx v ls l (x.d 1)
    badStream (decide (c.npend = 0 ∨ (x.w 2).v.toNat ≠ c.ftail % c.frn)) l
    snapArea v l a c.cksz
    let e ← sRead v l (c.ringAt c.ftail) 4
    sWrite v l (c.at_ + 0x1C) (leBytes 4 (c.ftail + 1))
    sWrite v l (c.at_ + 0x14) (leBytes 2 (c.npend - 1))
    truncAt v l a c (leNat e) c.pending.tail
    uDone v) v) s
def execDstruncPos (w : WE) (s : State) : Host.Outcome State Fault Refusal :=
  runUnit (fun v => engIssue w { src := [mSrc w.a 1, mSrc w.b 2, mSrc w.c 1] } true (fun ls x => inOrder true (WE.slot? w) do
    let l := x.lane
    let a := (x.w 0).v.toNat
    let p := (x.w 2).v.toNat
    let (c, _) ← streamCtx v ls l (x.d 1)
    badStream (decide (p < c.f ∨ c.g < p)) l
    snapArea v l a c.cksz
    truncAt v l a c p c.pending
    uDone v) v) s
def execDsckptSave (w : WE) (s : State) : Host.Outcome State Fault Refusal :=
  runUnit (fun v => engIssue w { src := [mSrc w.a 1, mSrc w.b 2] } true (fun ls x => inOrder true (WE.slot? w) do
    let l := x.lane
    let a := (x.w 0).v.toNat
    let (c, _) ← streamCtx v ls l (x.d 1)
    snapArea v l a c.cksz
    if c.cksz != 0 then
      needA (v.b.present a c.cksz) .hold
      let s ← get
      match s.engRange v.b.core v.b.ctx (c.ckr + c.cksz * (c.g % c.ckn)) c.cksz true with
      | .error e => faultA fcDuplex e.va l
      | .ok rs =>
        needA (!s.runsHeld rs) .hold
        set (s.engWrite rs (s.rd (kShared v.u.blk a) c.cksz) (s.rdPsn (kShared v.u.blk a) c.cksz))
    uDone v) v) s
def execDsckptRel (w : WE) (s : State) : Host.Outcome State Fault Refusal :=
  runUnit (fun v => engIssue w { src := [mSrc w.b 2, mSrc w.c 1] } true (fun ls x => inOrder true (WE.slot? w) do
    let (c, _) ← streamCtx v ls x.lane (x.d 0)
    sWrite v x.lane (c.at_ + 8) (leBytes 4 (max c.f (min (x.w 1).v.toNat (min c.p (min c.g c.pmin)))))
    uDone v) v) s

end Sys2Proof.Machine
end

