-- ==== Sys2Proof/Machine/CmdProc.lean ====
section
/-! DEFINITION. The command processor: queues, fetching, control packets and completions (spec/15 R376-R401, R409). -/

namespace Sys2Proof.Machine

/-! ## Queues -/

def State.queue? (s : State) (ctx q : Nat) : Option SwQ := s.queues.find? fun x => x.ctx == ctx && x.q == q
def State.modQ (s : State) (ctx q : Nat) (f : SwQ → SwQ) : State :=
  { s with queues := s.queues.map fun x => if x.ctx = ctx ∧ x.q = q then f x else x }
/-- The queue in a hardware slot. -/
def State.slotQ (s : State) (slot : Nat) : Option SwQ := s.queues.find? fun x => x.slot == some slot
/-- A context record keeps the limits of R399. -/
def CtxRec.ok (c : CtxRec) : Bool :=
  c.qtab.toNat % 4096 == 0 && pow2In 16 65536 c.fqn.toNat && decide (1 ≤ c.ncq.toNat ∧ c.ncq.toNat ≤ 256 ∧ c.fqvec.toNat < 2048) &&
    (c.svcn == 0 || (pow2In 16 4096 c.svcn.toNat && c.svcr.toNat % 2048 == 0)) && (c.stopn == 0 || decide (16 ≤ c.stopn.toNat ∧ c.stopn.toNat ≤ 65536)) &&
    c.stopa.toNat % 64 == 0 && c.bencha.toNat % 4096 == 0 && c.benchsz.toNat % 4096 == 0
/-- A context record keeps the limits of R399, and the first byte of each area it names lies in the tier that R399 gives. -/
def State.ctxOk (s : State) (ctx : Nat) : Bool :=
  let c := (s.ctxD ctx).rcd
  let lies (a : DWord) (tiers : List Nat) : Bool := (s.devRead ctx (a.toNat % 2 ^ 56) 1 tiers).isSome
  c.ok && lies c.qtab [0, 1] && (c.svcn == 0 || lies c.svcr [0, 1]) && (c.stopn == 0 || lies c.stopa [0, 1]) && (c.benchsz == 0 || lies c.bencha [0])
/-- The last value written at an offset of a queue-notify page (R489). -/
def State.notePage (s : State) (ctx ofs v : Nat) : State :=
  { s with notifyPg := (ctx, ofs, BitVec.ofNat 64 v) :: s.notifyPg.filter fun x => !(x.1 == ctx && x.2.1 == ofs) }
/-- Address of a software queue's table entry (R400). -/
def State.qtabAt (s : State) (ctx q : Nat) : Nat := (s.ctxD ctx).rcd.qtab.toNat % 2 ^ 56 + 32 * q
/-- Bytes of a context's structure in tier 0 or 1. -/
def State.read01 (s : State) (ctx a n : Nat) : Option (List Byte) := s.devRead ctx a n [0, 1]
/-- The command-processor cores run (R493). -/
def State.cpUp (s : State) : Bool := decide (2 ≤ s.released)
/-- Waits for a slot, once (R376). -/
def State.wantSlot (s : State) (ctx q : Nat) : State :=
  if s.slotWait.contains (ctx, q) ∨ ((s.queue? ctx q).bind (·.slot)).isSome then s else { s with slotWait := s.slotWait ++ [(ctx, q)] }
/-- A queue as its table entry describes it, when it is first read (R400); reading starts where every earlier entry has retired. -/
def SwQ.ofEntry (ctx q : Nat) (e : List Byte) : SwQ :=
  let r := fieldAt e 0x10 8
  { ctx := ctx, q := q, cq := fieldAt e 0xC 2, nq := fieldAt e 8 4, widx := r, ridx := r, slot := none,
    bufs := [⟨fieldAt e 0 7, true, fieldAt e 8 4, r, [], none, none⟩], live := [], wait := none, miss := 0, tagStall := false, halted := false, stale := false, given := 0 }
/-- Reading resumes at the packet that halted the queue, afresh (R400). -/
def SwQ.restart (q : SwQ) : SwQ :=
  { q with halted := false, miss := 0, tagStall := false, bufs := match q.bufs with
      | b :: r => { b with fet := b.fet.filter fun f => decide (f.idx < b.next) } :: r
      | [] => [] }
/-- RING, NQ and CQ are read again after EN has been 0 (R400); what was fetched from the ring and not yet reached is dropped. -/
def SwQ.reread (q : SwQ) (e : List Byte) : SwQ :=
  let again (b : Buf) : Buf := if b.ring then { b with base := fieldAt e 0 7, nent := fieldAt e 8 4, fet := b.fet.filter fun f => decide (f.idx < b.next) } else b
  { q with stale := false, cq := fieldAt e 0xC 2, nq := fieldAt e 8 4, miss := 0, tagStall := false, bufs := q.bufs.map again }
/-- The table entry keeps the limits of R376. -/
def qentOk (e : List Byte) : Bool := pow2In 16 65536 (fieldAt e 8 4) && fieldAt e 0 7 % 64 == 0
/-- The queue's EN is 0 in its table entry. -/
def State.enClear (s : State) (q : SwQ) : Bool := (s.read01 q.ctx (s.qtabAt q.ctx q.q + 0xE) 1).elim false fun f => leNat f % 2 == 0
/-- After a write by the host: queues whose EN is 0 have their entry read again at the first notify after it is set (R400). -/
def State.noteEn (s : State) : State := { s with queues := s.queues.map fun q => if s.enClear q then { q with stale := true } else q }
/-- A notify of a queue (R378, R399, R400). -/
def State.notify (s : State) (ctx q idx : Nat) : State :=
  if !s.ctxOk ctx then s.hostError else
  match s.read01 ctx (s.qtabAt ctx q) 32 with
  | none => s.hostError
  | some e =>
    let flags := fieldAt e 0xE 1
    match s.queue? ctx q with
    | none =>
      if flags % 2 = 0 then s
      else if !qentOk e then s.hostError
      else { s with queues := s.queues ++ [{ SwQ.ofEntry ctx q e with widx := idx, halted := (flags / 2) % 2 = 1 }] }.wantSlot ctx q
    | some x =>
      if flags % 2 = 0 then (if x.live = [] ∧ x.slot = none then { s with queues := s.queues.filter (· != x) } else s)
      else if x.stale && !qentOk e then s.hostError
      else
        let s := if x.stale then s.modQ ctx q (·.reread e) else s
        let s := s.modQ ctx q fun x => { (if x.halted ∧ flags / 2 % 2 = 0 then x.restart else x) with widx := idx }
        if x.wait.elim false (·.parked) then s else s.wantSlot ctx q
/-- QUEUE_NOTIFY (R378, R489): the later write's index stands (R499). -/
def execQueueNotify (ctx q idx : Nat) (s : State) : Host.Outcome State Fault Refusal :=
  .next (if 4096 ≤ q then s.hostError else
    let s := s.notePage ctx (8 * q) idx
    if s.cpUp then s.notify ctx q idx else s)
/-- QUEUE_RESTART (R400): the host clears HALTED and writes the notify word again; the command-processor cores act on it once they run (R493). -/
def execQueueRestart (ctx q idx : Nat) (s : State) : Host.Outcome State Fault Refusal :=
  .next (if 4096 ≤ q then s.hostError else
    let s := s.notePage ctx (8 * q) idx
    match s.queue? ctx q, s.read01 ctx (s.qtabAt ctx q) 32 with
    | some x, some e =>
      if x.halted ∧ s.cpUp then (s.devWrite ctx (s.qtabAt ctx q + 0xE) (leBytes 1 (fieldAt e 0xE 1 &&& 0xFD))).notify ctx q idx else s
    | _, _ => s)

/-! ## Completion queues (R396, R397, R401) -/

/-- The queue that receives statuses (R400, R401). -/
def State.cqNo (s : State) (ctx n : Nat) : Nat := if (s.ctxD ctx).rcd.ncq.toNat ≤ n then 0 else n
/-- Posts a status about a queue to its completion queue: the writer is the queue itself, or the management core (R416). -/
def State.postStatus (s : State) (q : SwQ) (status info : Nat) (detail : Nat := 0) (by_ : CqWriter := .queue) : State :=
  { s with cqPend := s.cqPend ++ [⟨by_, q.ctx, s.cqNo q.ctx q.cq, BitVec.ofNat 64 info, q.q, status, 1, BitVec.ofNat 32 detail, none, 0⟩] }
/-- A completion-queue table entry (R401). -/
structure CqTab where
  base : Nat
  ne : Nat
  vec : Nat
  thr : Nat
  timer : Nat
  deriving DecidableEq, Repr
/-- The table entry of a completion queue; none where it is unusable. -/
def State.cqTab (s : State) (ctx n : Nat) : Option CqTab :=
  (s.read01 ctx ((s.ctxD ctx).rcd.cqt.toNat % 2 ^ 56 + 32 * n) 32).bind fun e =>
    let t : CqTab := ⟨fieldAt e 0 7, fieldAt e 8 4, fieldAt e 0xC 2 % 2048, max 1 (fieldAt e 0xE 2), fieldAt e 0x10 4⟩
    if pow2In 16 65536 t.ne && t.base % 16 == 0 && (s.read01 ctx t.base (16 * t.ne)).isSome then some t else none
def State.cq (s : State) (ctx n : Nat) : CqSt := (s.cqs.find? fun c => c.ctx == ctx && c.n == n).getD ⟨ctx, n, 0, 0, 0⟩
def State.setCq (s : State) (c : CqSt) : State := { s with cqs := c :: s.cqs.filter fun x => !(x.ctx == c.ctx && x.n == c.n) }
/-- Raises an MSI-X vector. -/
def State.interrupt (s : State) (vec : Nat) : State := { s with msix := vec :: s.msix }
/-- The 16 bytes of an entry (R396). -/
def CqEnt.bytes (e : CqEnt) (phase : Bool) : List Byte :=
  leBytes 8 e.info.toNat ++ leBytes 2 e.queue ++ leBytes 1 e.status ++ leBytes 1 ((if phase then 1 else 0) + 2 * e.kind) ++ leBytes 4 e.detail.toNat
/-- COMPLETION_QUEUE_WRITE (R396, R397, R401): the first entry that waits for the queue is written, unless the queue is full. Where its table entry is unusable the writer's hold is counted, once, and the writer reads it again after CQREAD; its writer holds meanwhile (R407). -/
def execCompletionQueueWrite (ctx cq : Nat) (s : State) : Host.Outcome State Fault Refusal :=
  runEvent (do
    let s ← get
    needA s.cpUp .idle
    let e ← someA (s.cqPend.find? fun e => e.ctx == ctx && e.cq == cq && e.counted != 1) .idle
    match s.cqTab ctx cq with
    | none =>
      let mark (s : State) : State := { s with cqPend := updFirst (· == e) (fun e => { e with counted := 1 }) s.cqPend }
      set (mark (if e.counted = 0 then s.hostError else s))
    | some t =>
      let c := s.cq ctx cq
      needA (decide (c.wr - c.rd < t.ne)) .idle
      let s := s.devWrite ctx (t.base + 16 * (c.wr % t.ne)) (e.bytes (c.wr / t.ne % 2 == 0))
      let full := decide (t.thr ≤ c.cnt + 1)
      let s := s.setCq { c with wr := c.wr + 1, cnt := if full then 0 else c.cnt + 1 }
      let s := if full then s.interrupt t.vec else s
      let s : State := match e.live with
        | some (q, no) => s.modQ ctx q fun x => { x with live := x.live.map fun (l : Live) => if l.no = no then { l with w := .done } else l }
        | none => s
      set { s with cqPend := s.cqPend.erase e }) s
/-- CQ_TIMER_EXPIRY (R397). -/
def execCqTimerExpiry (ctx cq : Nat) (s : State) : Host.Outcome State Fault Refusal :=
  runEvent (do
    let s ← get
    let t ← someA (s.cqTab ctx cq) .idle
    let c := s.cq ctx cq
    needA (s.cpUp && decide (1 ≤ t.timer ∧ 1 ≤ c.cnt)) .idle
    set ((s.setCq { c with cnt := 0 }).interrupt t.vec)) s

/-! ## Headers (R380) -/

def isLaunchType (ty : Nat) : Bool := ty == 1 || ty == 2 || ty == 3
/-- Entries of a packet. -/
def entsOf (ty : Nat) : Nat := if isLaunchType ty then 2 else 1
/-- A packet's header word. -/
def hdrOf (bs : List Byte) : Nat := fieldAt bs 0 8
def hdrType (bs : List Byte) : Nat := fieldAt bs 2 1
/-- Bits of the header. -/
def hdrF (bs : List Byte) (lo n : Nat) : Nat := hdrOf bs / 2 ^ lo % 2 ^ n

/-! ## Slots and fetching (R376-R379) -/

def freeHwSlot (s : State) : Option Nat := (List.range 128).find? fun k => !(s.queues.any (·.slot == some k))
/-- A buffer that has been executed ends its IB, and what a FETCH_FENCE awaits of it; the enclosing one goes on (R388, R394). -/
def settleBufs : List Buf → List Live → List Buf × List Live
  | b :: r, live =>
    if !b.ring && b.nent ≤ b.next then
      settleBufs r (live.map fun l => match l.w with
        | .ib d => if d = r.length + 1 then { l with w := .done } else l
        | .fence left => { l with w := .fence (left.filter fun x => x.1 != r.length + 1) }
        | _ => l)
    else (b :: r, live)
  | [], live => ([], live)
/-- The queue has read all its entries. -/
def SwQ.idle (q : SwQ) : Bool :=
  q.wait.isNone && match q.bufs with
    | [b] => b.ring && decide (q.widx ≤ b.next)
    | _ => false
/-- Moves past `n` entries of the innermost buffer; entries left far behind are forgotten, and a queue with nothing unread frees its slot (R376). -/
def SwQ.past (q : SwQ) (n : Nat) : SwQ :=
  match q.bufs with
  | [] => q
  | b :: r =>
    let b := { b with next := b.next + n, fet := b.fet.filter fun f => decide (b.next + n ≤ f.idx + 64) }
    let (bufs, live) := settleBufs (b :: r) q.live
    let q := { q with bufs := bufs, live := live }
    if q.idle then { q with slot := none } else q
/-- A packet of `n` entries is dispatched (R381). -/
def SwQ.dispatch (q : SwQ) (n : Nat) (w : PkWait) : SwQ :=
  match q.bufs with
  | [] => q
  | b :: r =>
    ({ q with given := q.given + 1, live := q.live ++ [⟨q.given + 1, b.next, if r = [] then n else 0, w⟩] } : SwQ).past n
def State.dispatch (s : State) (q : SwQ) (n : Nat) (w : PkWait) : State := s.modQ q.ctx q.q (·.dispatch n w)
/-- A queue that halts while it passes entries over stands at the PRED again (R381, R389). -/
def SwQ.atPred (q : SwQ) : SwQ :=
  match q.bufs with
  | b :: r => match b.skip with
    | some (p, _) => { q with bufs := { b with next := p, skip := none } :: r }
    | none => q
  | [] => q
/-- Halts the queue at its packet (R381, R400). -/
def State.haltQ (s : State) (q : SwQ) (status : Nat) : State :=
  let s := s.modQ q.ctx q.q SwQ.atPred
  let q := q.atPred
  let s := s.modQ q.ctx q.q fun x => { x with halted := true }
  let a := s.qtabAt q.ctx q.q + 0xE
  let f := ((s.read01 q.ctx a 1).map leNat).getD 1
  (s.devWrite q.ctx a (leBytes 1 (f ||| 2))).postStatus q status ((q.bufs.head?.map (·.next)).getD 0)
def stBadPacket : Nat := 0x01
/-- QUEUE_SLOT_ASSIGN (R376): the first queue that waits takes the lowest free slot; a WAIT whose compare held goes on (R391). -/
def execQueueSlotAssign (s : State) : Host.Outcome State Fault Refusal :=
  runEvent (do
    let s ← get
    needA s.cpUp .idle
    match s.slotWait, freeHwSlot s with
    | (ctx, q) :: r, some k =>
      set { s with slotWait := r }
      modA fun s => s.modQ ctx q fun x =>
        let x := { x with slot := some k }
        if x.wait.elim false (·.held) then ({ x with wait := none } : SwQ).dispatch 1 .done
        else if x.idle then { x with slot := none } else x
    | _, _ => idleA) s

/-- The tag of an entry of a ring (R377). -/
def tagOf (nq idx : Nat) : Nat := idx / nq % 65535 + 1
def Buf.addr (b : Buf) (idx : Nat) : Nat := b.base + 64 * (if b.ring then idx % b.nent else idx)
/-- An entry may be read: below the write index, or within the buffer. -/
def SwQ.has (q : SwQ) (b : Buf) (idx : Nat) : Bool := if b.ring then decide (idx < q.widx) else decide (idx < b.nent)
/-- The first entry from the next packet on that has not been fetched, within the window of 32 (R379). -/
def Buf.wanted (b : Buf) : Option Nat := ((List.range 32).map (b.next + ·)).find? fun i => !(b.fet.any (·.idx == i))
/-- The packet at the head needs entry `idx` to be dispatched: its first entry, and the second where its header asks for one (R381). -/
def Buf.needs (b : Buf) (idx : Nat) : Bool :=
  idx == b.next || (idx == b.next + 1 && b.skip.isNone && (b.ring || decide (b.next + 1 < b.nent)) &&
    (b.fet.find? (·.idx == b.next)).elim false fun e => entsOf (hdrType e.bytes) == 2)
/-- What a FETCH_FENCE in progress awaits: entries with the depths of their buffers. -/
def SwQ.fenced (q : SwQ) : List (Nat × Nat) := q.live.flatMap fun l => match l.w with | .fence left => left | _ => []
/-- The buffer and entry to fetch: the innermost buffer's, else one that a FETCH_FENCE has discarded in an enclosing buffer and awaits (R379, R394). -/
def SwQ.target (q : SwQ) : Option (Buf × Nat) :=
  let of (b : Buf) : Option (Buf × Nat) := b.wanted.bind fun i => if q.has b i then some (b, i) else none
  match q.bufs with
  | [] => none
  | b :: r => (of b).orElse fun _ =>
    (r.zipIdx.filterMap fun x => (of x.1).filter fun y => q.fenced.contains (r.length - x.2, y.2)).head?
/-- A fetch of the entry that is wanted: its index and bytes, none where it cannot be read, or carries an uncorrectable error (R443). -/
def fetchOf (s : State) (q : SwQ) : Option (Buf × Nat × Option (List Byte)) :=
  q.target.map fun t => (t.1, t.2, if s.devPsn q.ctx (t.1.addr t.2) 64 then none else s.read01 q.ctx (t.1.addr t.2) 64)
/-- A fetched entry is kept in its buffer. -/
def SwQ.keep (q : SwQ) (b : Buf) (i : Nat) (bs : List Byte) : SwQ :=
  let q := { q with bufs := q.bufs.map fun x => if x = b then { x with fet := x.fet ++ [⟨i, bs⟩] } else x }
  if b.ring then { q with miss := 0, tagStall := false } else q
/-- Mismatches of the entry that is to be fetched: an indirect buffer's entries carry no tag check (R378, R380). -/
def SwQ.missNow (q : SwQ) : Nat := if q.target.elim false (·.1.ring) then q.miss else 0
/-- The ring's entry that is awaited. -/
def SwQ.awaits (q : SwQ) : Option Nat := q.bufs.getLast?.bind (·.wanted)
/-- A change of the buffers after which another entry of the ring is awaited starts its count of reads anew (R377). -/
def SwQ.recount (old new : SwQ) : SwQ := if old.awaits = new.awaits then new else { new with miss := 0, tagStall := false }
/-- The entries of a packet that a PRED passes over are behind: it counts as dispatched and retired, and a LOOP that it passes in a repetition is over (R389, R390). -/
def SwQ.passOver (q : SwQ) (k : Nat) : SwQ :=
  match q.bufs with
  | [] => q
  | b :: r =>
    let ends := b.loop.elim false fun l => decide (l.2 ≤ b.next + k)
    let skip := b.skip.bind fun x => if x.2 ≤ k then none else some (x.1, x.2 - k)
    let live := if ends then q.live.map fun l => if l.w = .loop (r.length + 1) then { l with w := .done } else l else q.live
    ({ q with bufs := { b with skip := skip, loop := if ends then none else b.loop } :: r, live := live } : SwQ).dispatch k .done
/-- Passes over the fetched entries that a failed PRED names; false where they do not end on a packet boundary (R389). -/
def SwQ.skipOn : Nat → SwQ → SwQ × Bool
  | 0, q => (q, true)
  | f + 1, q =>
    match q.bufs.head?.bind fun b => b.skip.bind fun x => (b.fet.find? (·.idx == b.next)).map fun e => (x.2, entsOf (hdrType e.bytes)) with
    | none => (q, true)
    | some (n, k) => if n < k then (q, false) else skipOn f (q.passOver k)
/-- The queue goes on passing over what it has fetched; a wrong boundary is BAD_PACKET at the PRED (R389). -/
def State.skipOn (s : State) (ctx q : Nat) : State :=
  match s.queue? ctx q with
  | none => s
  | some x =>
    let (y, ok) := SwQ.skipOn 256 x
    if ok then s.modQ ctx q fun _ => x.recount y else s.haltQ x stBadPacket
/-- The queue is read and dispatches: its context runs (R399, R416), and no entry that it writes waits for its completion queue (R397, R407). -/
def State.qRuns (s : State) (q : SwQ) : Bool :=
  s.cpUp && s.ctxOk q.ctx && (s.ctxD q.ctx).halted.isNone && !q.halted && !(s.cqPend.any fun e => e.writer == .queue && e.ctx == q.ctx && e.queue == q.q)
/-- PACKET_FETCH (R377, R379). -/
def execPacketFetch (slot : Nat) (s : State) : Host.Outcome State Fault Refusal :=
  runEvent (do
    let s ← get
    let q ← someA (s.slotQ slot) .idle
    needA (s.qRuns q && q.missNow == 0) .idle
    let (b, i, r) ← someA (fetchOf s q) .idle
    match r with
    | none =>
      needA (b.needs i) .idle
      set (s.haltQ q stBadPacket)
    | some bs =>
      if b.ring && fieldAt bs 0 2 != tagOf b.nent i then set (s.modQ q.ctx q.q fun x => { x with miss := 1 })
      else set ((s.modQ q.ctx q.q (·.keep b i bs)).skipOn q.ctx q.q)) s
/-- TAG_REFETCH (R377): 64 cycles after a mismatch of a ring's entry. -/
def execTagRefetch (slot : Nat) (s : State) : Host.Outcome State Fault Refusal :=
  runEvent (do
    let s ← get
    let q ← someA (s.slotQ slot) .idle
    needA (s.qRuns q && q.missNow != 0) .idle
    let (b, i, r) ← someA (fetchOf s q) .idle
    match r with
    | none =>
      needA (b.needs i) .idle
      set (s.haltQ q stBadPacket)
    | some bs =>
      if fieldAt bs 0 2 != tagOf b.nent i then
        let n := q.miss + 1
        let post := decide (65536 ≤ n) && !q.tagStall
        let s := s.modQ q.ctx q.q fun x => { x with miss := n, tagStall := x.tagStall || post }
        set (if post then s.postStatus q 0x0D i else s)
      else set ((s.modQ q.ctx q.q (·.keep b i bs)).skipOn q.ctx q.q)) s

/-! ## Packets (R380, R381) -/

/-- The packet before which every earlier one has retired: buffers and loops that enclose it are still open. -/
def SwQ.alone (q : SwQ) : Bool := q.live.all fun l => match l.w with | .done | .ib _ | .loop _ => true | _ => false
/-- Packets that are always serial (R381): RESUME, SAVE, FETCH_FENCE, COMPLETE. -/
def isSerial (ty : Nat) : Bool := [4, 5, 0xB, 0xC].contains ty
/-- The packet at the head of a buffer with all its bytes, once it is fetched; one that would run past the end of its buffer gives none. No packet starts while a PRED passes over entries. -/
def Buf.packet? (b : Buf) : Option (Option (List Byte)) :=
  if b.skip.isSome then none else
  (b.fet.find? (·.idx == b.next)).bind fun e =>
    if entsOf (hdrType e.bytes) = 1 then some (some e.bytes)
    else if !b.ring && b.nent ≤ b.next + 1 then some none
    else (b.fet.find? (·.idx == b.next + 1)).map fun f => some (e.bytes ++ f.bytes)
/-- The `n` entries from `i` on, as fetched, end on a packet boundary and hold no LOOP (R390). -/
def Buf.bodyOk (b : Buf) : Nat → Nat → Nat → Bool
  | 0, _, n => n == 0
  | f + 1, i, n => n == 0 || (b.fet.find? (·.idx == i)).elim false fun e =>
      let k := entsOf (hdrType e.bytes)
      decide (k ≤ n) && hdrType e.bytes != 8 && b.bodyOk f (i + k) (n - k)
/-- A RANGE waits while its context's table of task records is full. DESIGN CHOICE, log 75: R385 names no status for it. -/
def State.tableRoom (s : State) (ctx : Nat) : Bool := decide ((s.tasksOf ctx).length < 1024)
/-- The packet at the head is not one that waits: a SAVE whose target is stopping, a launch before which an owed pre-emption stops its context, a RANGE without a free record (R203, R404, R405). -/
def State.judged (s : State) (q : SwQ) (bs : List Byte) : Bool :=
  let c := s.ctxD q.ctx
  let owed := c.preempt.isSome && c.saved == .stopping
  match hdrType bs with
  | 1 | 2 => !owed
  | 3 => !owed && s.tableRoom q.ctx
  | 5 => (s.ctxD (fieldAt bs 0x18 2)).saved != .stopping
  | _ => true
/-- A slot's queue has a packet that can start now (R381). -/
def State.servable (s : State) (slot : Nat) : Bool :=
  (s.slotQ slot).elim false fun q => s.qRuns q && q.wait.isNone && q.bufs.head?.elim false fun b =>
    match b.packet? with
    | none => false
    | some none => true
    | some (some bs) => (!(isSerial (hdrType bs) || hdrF bs 31 1 == 1) || q.alone) && s.judged q bs
/-- Slots from the one served last on, the nearest first. -/
def turnDist (turn slot : Nat) : Nat := (slot + 127 - turn % 128) % 128
/-- Round-robin (R376): no slot between the one served last and this one has a packet that can start. -/
def State.myTurn (s : State) (slot : Nat) : Bool :=
  (List.range 128).all fun k => !(decide (turnDist s.turn k < turnDist s.turn slot) && s.servable k)
/-- A packet of one type: started when it is at the head, its slot has its turn and SER allows (R376, R381). -/
def packet (slot : Nat) (ty : Nat → Bool) (body : SwQ → Buf → List Byte → Act Unit) (s : State) : Host.Outcome State Fault Refusal :=
  runEvent (do
    let s ← get
    let q ← someA (s.slotQ slot) .idle
    needA (s.qRuns q && q.wait.isNone && (!s.servable slot || s.myTurn slot)) .idle
    let b ← someA q.bufs.head? .idle
    let p ← someA b.packet? .idle
    let first := ((b.fet.find? (·.idx == b.next)).map (·.bytes)).getD []
    needA (ty (hdrType first)) .idle
    match p with
    | none => modA (·.haltQ q stBadPacket)
    | some bs =>
      needA (!(isSerial (hdrType bs) || hdrF bs 31 1 == 1) || q.alone) .idle
      body q b bs
    let own := s.servable slot
    modA fun s => if own then { s with turn := slot } else s) s
def badPacket (q : SwQ) : Act Unit := modA (·.haltQ q stBadPacket)
/-- The packet is dispatched and has retired, or waits as given. -/
def passOn (q : SwQ) (n : Nat) (w : PkWait) : Act Unit := modA (·.dispatch q n w)
/-- NOP, and a TYPE that is not listed (R381). -/
def execNopPacket (slot : Nat) (s : State) : Host.Outcome State Fault Refusal :=
  packet slot (fun t => t = 0 || 0x0C < t) (fun q _ bs => if hdrType bs = 0 then passOn q 1 .done else badPacket q) s

/-! ## Compares, PRED, LOOP, IB (R387-R390) -/

/-- Compare codes (R387). -/
def cmpWord (c w v : Nat) : Bool :=
  match c with
  | 0 => decide (v ≤ w)
  | 1 => w == v
  | 2 => w != v
  | _ => decide (w < v)
/-- The 64-bit word a control packet names: 8-aligned, in tier 0 or 1. -/
def State.ctlWord (s : State) (ctx a : Nat) : Option Nat := if a % 8 = 0 then (s.read01 ctx a 8).map leNat else none
/-- The compare of PRED and WAIT; none where a field is illegal. -/
def State.compare (s : State) (ctx : Nat) (bs : List Byte) : Option Bool :=
  if 3 < hdrF bs 32 3 then none else (s.ctlWord ctx (fieldAt bs 8 7)).map fun w => cmpWord (hdrF bs 32 3) w (fieldAt bs 0x10 8)
/-- Sets the innermost buffer. -/
def SwQ.setBuf (q : SwQ) (f : Buf → Buf) : SwQ := { q with bufs := match q.bufs with | b :: r => f b :: r | [] => [] }
/-- PRED makes its compare at once and retires; where the compare fails the entries that it names are passed over as they are fetched (R389). -/
def execPred (slot : Nat) (s : State) : Host.Outcome State Fault Refusal :=
  packet slot (· == 7) (fun q b bs => do
    let s ← get
    match s.compare q.ctx bs with
    | none => badPacket q
    | some true => passOn q 1 .done
    | some false =>
      let n := hdrF bs 40 8
      if !b.ring && decide (b.nent < b.next + 1 + n) then badPacket q else
      modA fun s => (s.modQ q.ctx q.q fun x =>
        x.recount ((x.setBuf fun y => { y with skip := if n = 0 then none else some (b.next, n) }).dispatch 1 .done)).skipOn q.ctx q.q) s
def execLoop (slot : Nat) (s : State) : Host.Outcome State Fault Refusal :=
  packet slot (· == 8) (fun q b bs => do
    let n := hdrF bs 32 8
    let depth := q.bufs.length
    match b.loop with
    | none =>
      if b.ring || hdrF bs 48 16 == 0 || n == 0 || decide (32 < n ∨ b.next < n) then badPacket q else
      if !b.bodyOk 33 (b.next - n) n then badPacket q else
      modA (·.modQ q.ctx q.q fun x =>
        ({ x with given := x.given + 1, live := x.live ++ [⟨x.given + 1, b.next, 0, .loop depth⟩] } : SwQ).setBuf fun b =>
          { b with loop := some (hdrF bs 48 16 - 1, b.next + 1), next := b.next - n })
    | some (0, _) => modA (·.modQ q.ctx q.q fun x =>
        (({ x with live := x.live.map fun l => if l.w = .loop depth then { l with w := .done } else l } : SwQ).setBuf fun b => { b with loop := none }).past 1)
    | some (k + 1, a) => modA (·.modQ q.ctx q.q (·.setBuf fun b => { b with loop := some (k, a), next := b.next - n }))) s
def execIb (slot : Nat) (s : State) : Host.Outcome State Fault Refusal :=
  packet slot (· == 6) (fun q _ bs => do
    let n := hdrF bs 32 17
    let a := fieldAt bs 8 7
    if n = 0 ∨ 65536 < n ∨ a % 64 ≠ 0 ∨ ((← get).read01 q.ctx a 64).isNone then badPacket q
    else if q.bufs.length = 5 then modA (·.haltQ q 0x0B)
    else modA (·.modQ q.ctx q.q fun x =>
      match x.bufs with
      | [] => x
      | b :: r =>
        { x with given := x.given + 1, live := x.live ++ [⟨x.given + 1, b.next, if r = [] then 1 else 0, .ib (r.length + 2)⟩],
                 bufs := ⟨a, false, n, 0, [], none, none⟩ :: { b with next := b.next + 1 } :: r })) s

/-! ## WAIT (R391, R392) -/

/-- The WAIT at the head of a queue that waits. -/
def waiting (q : SwQ) : Act (WaitSt × List Byte) := do
  let w ← someA q.wait .idle
  let b ← someA q.bufs.head? .idle
  let e ← someA (b.fet.find? (·.idx == b.next)) .idle
  pure (w, e.bytes)
def execWait (slot : Nat) (s : State) : Host.Outcome State Fault Refusal :=
  packet slot (· == 9) (fun q _ bs => do
    match (← get).compare q.ctx bs with
    | none => badPacket q
    | some true => passOn q 1 .done
    | some false =>
      -- with SRD 0 the queue is parked at the first compare that fails (R398)
      let park := ((← get).ctxD q.ctx).rcd.srd == 0#32
      modA (·.modQ q.ctx q.q fun x => { x with wait := some ⟨0, false, park, false⟩, slot := if park then none else x.slot })) s
/-- The wait is over. -/
def State.endWait (s : State) (q : SwQ) : State := s.modQ q.ctx q.q fun x => ({ x with wait := none } : SwQ).dispatch 1 .done
/-- WAIT_POLL: the word is read again after 256 cycles, while the queue keeps its slot; where the slot-release delay ends in the cycle of a read, the read comes first (R391, R409). -/
def execWaitPoll (slot : Nat) (s : State) : Host.Outcome State Fault Refusal :=
  runEvent (do
    let s ← get
    let q ← someA (s.slotQ slot) .idle
    needA (s.qRuns q) .idle
    let (w, bs) ← waiting q
    needA (decide (w.cycles + 256 ≤ (s.ctxD q.ctx).rcd.srd.toNat)) .idle
    if (s.compare q.ctx bs).getD false then set (s.endWait q)
    else set (s.modQ q.ctx q.q fun x => { x with wait := some { w with cycles := w.cycles + 256 } })) s
/-- WAIT_PARK: the slot-release delay ends before the next read. -/
def execWaitPark (slot : Nat) (s : State) : Host.Outcome State Fault Refusal :=
  runEvent (do
    let s ← get
    let q ← someA (s.slotQ slot) .idle
    needA (s.qRuns q) .idle
    let (w, _) ← waiting q
    needA (decide ((s.ctxD q.ctx).rcd.srd.toNat < w.cycles + 256)) .idle
    set (s.modQ q.ctx q.q fun x => { x with slot := none, wait := some { w with parked := true } })) s
/-- PARKED_WAIT_POLL: every 4,096 cycles; when the compare holds the queue waits for a slot. -/
def execParkedWaitPoll (ctx q : Nat) (s : State) : Host.Outcome State Fault Refusal :=
  runEvent (do
    let s ← get
    let x ← someA (s.queue? ctx q) .idle
    needA (s.qRuns x) .idle
    let (w, bs) ← waiting x
    needA (w.parked && !w.held) .idle
    if (s.compare ctx bs).getD false then set ((s.modQ ctx q fun x => { x with wait := some { w with held := true } }).wantSlot ctx q)
    else set (s.modQ ctx q fun x => { x with wait := some { w with cycles := w.cycles + 4096 } })) s
/-- WAIT_STALL: the wait limit ends before the next read. -/
def execWaitStall (ctx q : Nat) (s : State) : Host.Outcome State Fault Refusal :=
  runEvent (do
    let s ← get
    let x ← someA (s.queue? ctx q) .idle
    needA (s.qRuns x) .idle
    let (w, _) ← waiting x
    let lim := (s.ctxD ctx).rcd.wlim.toNat
    needA (!w.stall && !w.held && decide (1 ≤ lim ∧ lim < w.cycles + if w.parked then 4096 else 256)) .idle
    set ((s.modQ ctx q fun x => { x with wait := some { w with stall := true } }).postStatus x 0x0C ((x.bufs.head?.map (·.next)).getD 0))) s

/-! ## SIGNAL, FETCH_FENCE, COMPLETE, retirement (R393-R395, R400) -/

def execSignal (slot : Nat) (s : State) : Host.Outcome State Fault Refusal :=
  packet slot (· == 0xA) (fun q _ bs => do
    let s ← get
    let op := hdrF bs 32 2
    let a := fieldAt bs 8 7
    let v := fieldAt bs 0x10 8
    match s.ctlWord q.ctx a with
    | none => badPacket q
    | some w =>
      if op = 3 then badPacket q else
      set (s.devWrite q.ctx a (leBytes 8 (if op = 0 then v else if op = 1 then (w + v) % 2 ^ 64 else (w + 2 ^ 64 - v) % 2 ^ 64)))
      passOn q 1 .done) s
/-- FETCH_FENCE: what follows it is discarded in its buffer and in every enclosing one, and it retires once all of it has been fetched again (R394, log 61). -/
def execFetchFence (slot : Nat) (s : State) : Host.Outcome State Fault Refusal :=
  packet slot (· == 0xB) (fun q _ _ => modA (·.modQ q.ctx q.q fun x =>
    -- the entry after the fence in its own buffer, the next one in an enclosing one
    let from_ (i : Nat) (b : Buf) : Nat := if i = 0 then b.next + 1 else b.next
    let left := x.bufs.zipIdx.flatMap fun y => (y.1.fet.filter fun f => decide (from_ y.2 y.1 ≤ f.idx)).map fun f => (x.bufs.length - y.2, f.idx)
    let bufs := x.bufs.zipIdx.map fun y => { y.1 with fet := y.1.fet.filter fun f => decide (f.idx < from_ y.2 y.1) }
    x.recount (({ x with bufs := bufs } : SwQ).dispatch 1 (.fence left)))) s
def execComplete (slot : Nat) (s : State) : Host.Outcome State Fault Refusal :=
  packet slot (· == 0xC) (fun q _ bs => do
    let s ← get
    let mode := hdrF bs 32 2
    let a := fieldAt bs 8 7
    let cq := fieldAt bs 0x18 2
    let word := s.ctlWord q.ctx a
    if mode = 3 ∨ (s.ctxD q.ctx).rcd.ncq.toNat ≤ cq ∨ (mode ≠ 0 ∧ word = none) then badPacket q else
    let w := (word.getD 0 + 2 ^ 64 - 1) % 2 ^ 64
    let s := if mode = 0 then s else s.devWrite q.ctx a (leBytes 8 w)
    let s := if mode ≠ 0 ∧ hdrF bs 34 1 = 1 ∧ w = 0 then (match s.cqTab q.ctx cq with
      | some t => (s.setCq { s.cq q.ctx cq with cnt := 0 }).interrupt t.vec
      | none => s) else s
    let no := q.given + 1
    if mode = 1 then set (s.dispatch q 1 .done) else
    let e : CqEnt := ⟨.queue, q.ctx, cq, BitVec.ofNat 64 (fieldAt bs 0x10 8), q.q, 0, 0, 0, some (q.q, no), 0⟩
    set { s.dispatch q 1 .cq with cqPend := s.cqPend ++ [e] }) s
/-- A grid that has completed is forgotten, with its channels and cluster barriers (R200). -/
def State.dropGrid (s : State) (g : Nat) : State :=
  { s with grids := s.grids.filter (·.id != g), chans := s.chans.filter (·.grid != g), cbars := s.cbars.filter (·.grid != g) }
/-- A grid has completed, or is there no more. -/
def State.gridOver (s : State) (g : Nat) : Bool := (s.grid? g).elim true s.gridDone
/-- The entries that a FETCH_FENCE awaits have been fetched again, or are behind (R394). -/
def SwQ.refetched (q : SwQ) (left : List (Nat × Nat)) : Bool :=
  left.all fun x => match (q.bufs.reverse)[x.1 - 1]? with
    | none => true
    | some b => decide (x.2 < b.next) || b.fet.any (·.idx == x.2)
/-- RIDX once packets have retired: the ring's entry after the last of them (R400). -/
def ridxAfter (old : Nat) (gone : List Live) : Nat := ((gone.filter (·.ents != 0)).getLast?).elim old fun l => l.idx + l.ents
/-- PACKET_RETIRE (R381, R394, R400): a launch whose grid is over has retired, and a FETCH_FENCE whose refetch is complete; RIDX passes the packets before the first that has not, and is written. -/
def execPacketRetire (ctx q : Nat) (s : State) : Host.Outcome State Fault Refusal :=
  runEvent (do
    let s ← get
    let x ← someA (s.queue? ctx q) .idle
    needA s.cpUp .idle
    let over_ := x.live.filterMap fun l => match l.w with | .grid g => if s.gridOver g then some g else none | _ => none
    let live := x.live.map fun l => match l.w with
      | .grid g => if over_.contains g then { l with w := .done } else l
      | .fence left => if x.refetched left then { l with w := .done } else l
      | _ => l
    let gone := live.takeWhile (·.w == .done)
    needA (live != x.live || gone != []) .idle
    let n := ridxAfter x.ridx gone
    let s := over_.foldl (·.dropGrid) s
    let s := s.modQ ctx q fun x => { x with live := live.drop gone.length, ridx := n }
    set (if n = x.ridx then s else s.devWrite ctx (s.qtabAt ctx q + 0x10) (leBytes 8 n))) s

end Sys2Proof.Machine
end

