-- ==== Sys2Proof/Machine/Coll.lean ====
section
/-! DEFINITION. Collectives and cross-device signals (spec/20 R477-R481), and the completion of every engine's operations (spec/10 R281; spec/12 R291, R304). -/

namespace Sys2Proof.Machine

/-! ## Issue of a collective (R477, R478) -/

/-- Bytes of an element of format FMT. -/
def collSize (fmt : Nat) : Nat := if fmt = 1 then 2 else 4
/-- Elements of a participant's source and destination (R478): kinds 0 all-reduce, 1 all-gather, 2 reduce-scatter. -/
def CollOp.srcLen (o : CollOp) : Nat := (if o.kind = 2 then o.ranks.length * o.count else o.count) * collSize o.fmt
def CollOp.dstLen (o : CollOp) : Nat := (if o.kind = 1 then o.ranks.length * o.count else o.count) * collSize o.fmt
/-- What all participants must give alike (R479). -/
def CollOp.params (o : CollOp) : List Nat := [o.kind, o.count, o.fmt, if o.kind = 1 then 0 else o.op] ++ o.ranks
/-- A package lies in the context's domain (R462). -/
def State.inDomain (s : State) (ctx p : Nat) : Bool := (s.tableOf ctx p).isSome || p == s.pkg
/-- Entries without repeats. -/
def noRepeat : List Nat → Bool
  | [] => true
  | x :: r => !r.contains x && noRepeat r
/-- How often the die has used an identifier. -/
def Ctx.uses (c : Ctx) (cid die : Nat) : Nat := ((c.collUse.find? fun u => u.1 == cid && u.2.1 == die).map (·.2.2)).getD 0
def Ctx.use (c : Ctx) (cid die : Nat) : Ctx :=
  { c with collUse := (cid, die, c.uses cid die + 1) :: c.collUse.filter fun u => !(u.1 == cid && u.2.1 == die) }
/-- The block's collective context gives the operation its number. -/
def acceptColl (v : View) (f : Opnd) (ls : List Nat) (op : Nat → CollOp) : Act Unit := do
  let (no, tl) := v.b.coll.tl.give
  modA fun s => s.modBlk v.u.blk fun b => { b with coll := ⟨tl, b.coll.ops ++ [op no]⟩ }
  writeAll v ⟨f, 2⟩ ls ((words2 (BitVec.ofNat 64 no)).map fun w => ⟨w, false⟩)
  done v
/-- COLL of a form (R478). -/
def collIssue (kind : Nat) (w : WC) (v : View) : Act Unit :=
  perSplit w { src := [mSrc w.b 2], dst := some ⟨w.a, 2⟩ } true [0] (fun ls x => do
    fenced v ls
    let a := (x.d 0).toNat % 2 ^ 56
    let bad (e : Bool) : Act Unit := needA (!e) (.fault fcTrec (BitVec.ofNat 64 a) x.lane 0)
    bad (a % 64 != 0)
    let (bs, ps) ← heldRead v fcTrec x.lane a 64 [0, 1]
    let f := fieldAt bs
    let n := f 0x1C 2
    let base : CollOp :=
      { no := 0, pre := v.cmdPre ls, kind := kind, src := f 0 7, dst := f 8 7, ranks := [], count := f 0x18 4, rank := f 0x1E 2, fmt := f 0x20 1,
        op := f 0x21 1, cid := f 0x24 4, use := 0, tile := 0, work := [], data := ([], []), seen := [], joined := false, out := none, fault := .none, bad := false }
    if ps.any id then
      needA (v.b.coll.ops.length < 64) .hold
      acceptColl v w.a ls fun no => { base with no := no, bad := true }
    else
      let e := collSize base.fmt
      bad (decide (base.count < 1 ∨ 2 ^ 28 < base.count ∨ n < 2 ∨ 128 < n ∨ n ≤ base.rank ∨ 3 < base.fmt ∨ (kind ≠ 1 ∧ 2 < base.op)) ||
        base.src % e != 0 || base.dst % e != 0)
      let (rs, rp) ← heldRead v fcTrec x.lane (f 0x10 7) (2 * n) allTiers
      let ranks := (List.range n).map fun i => fieldAt rs (2 * i) 2 % 128
      let s ← get
      let die := 4 * s.pkg + v.die
      if rp.any id then
        needA (v.b.coll.ops.length < 64) .hold
        acceptColl v w.a ls fun no => { base with no := no, bad := true }
      else
        bad (!(ranks.all fun r => s.inDomain v.b.ctx (r / 4)) || !noRepeat ranks || ranks.getD base.rank 128 != die)
        needA (v.b.coll.ops.length < 64) .hold
        modA fun s => s.modCtx v.b.ctx (·.use base.cid die)
        acceptColl v w.a ls fun no => { base with no := no, ranks := ranks, use := (s.ctxD v.b.ctx).uses base.cid die }) v
def execCollAr (w : WC) (s : State) : Host.Outcome State Fault Refusal := runUnit (collIssue 0 w) s
def execCollAg (w : WC) (s : State) : Host.Outcome State Fault Refusal := runUnit (collIssue 1 w) s
def execCollRs (w : WC) (s : State) : Host.Outcome State Fault Refusal := runUnit (collIssue 2 w) s

/-! ## Joining (R479) -/

def modColl (blk no : Nat) (f : CollOp → CollOp) (s : State) : State :=
  s.modBlk blk fun b => { b with coll := { b.coll with ops := updFirst (·.no == no) f b.coll.ops } }
/-- Posts a participant's translation fault at its tile, which is answered as a copy's (R304, R478). -/
def collFault (b : Block) (o : CollOp) (x : XErr) : Act Unit := do
  postEng b (mkEngRec b 6 x.code 0 o.no o.tile x.va (256 * o.tile)) (.eop b.uid .coll o.no)
  modA (modColl b.uid o.no fun o => { o with fault := .posted x.code x.va })
/-- The accesses of `n` bytes from `a` on, each within a 128-byte line (R281). -/
def State.collRuns (s : State) (b : Block) (write : Bool) (a n : Nat) : Except XErr (List (List Run)) :=
  (lineCuts a n).foldr (fun c acc => match s.engRange b.core b.ctx c.1 c.2 write, acc with
    | .ok rs, .ok l => .ok (rs :: l)
    | .error x, _ => .error x
    | .ok _, .error x => .error x) (.ok [])
def State.coll? (s : State) (ctx cid use : Nat) : Option Coll := s.colls.find? fun c => c.ctx == ctx && c.cid == cid && c.use == use
/-- Parts join a collective. -/
def State.join (s : State) (ctx cid use : Nat) (ps : List CollPart) : State :=
  match s.coll? ctx cid use with
  | some c => { s with colls := s.colls.map fun x => if x = c then { x with parts := x.parts ++ ps } else x }
  | none => { s with colls := s.colls ++ [⟨ctx, cid, use, ps⟩] }
/-- What participants on other packages bring, as the environment gives it, with what of it is poisoned (R480): one whose bytes do not fit disagrees about the collective. -/
def CollOp.remoteParts (o : CollOp) (own : Nat) (have_ : List Nat) (remote : List (Nat × List Byte × List Bool)) : List CollPart :=
  remote.foldl (fun ps r =>
    match o.ranks[r.1]? with
    | none => ps
    | some d =>
      if d / 4 = own ∨ have_.contains d ∨ ps.any (·.die == d) then ps
      else ps ++ [⟨d, r.1, if r.2.1.length = o.srcLen then o.params else [], r.2.1, (List.range r.2.1.length).map fun i => r.2.2.getD i false⟩]) []
/-! ## Combining (R480) -/

/-- One combination of two elements: .rn for the floating-point formats, wraparound for integers; sticky flags are discarded. -/
def collOp2 (fmt op x y : Nat) : Nat :=
  let sg (a : Nat) : Int := (BitVec.ofNat 32 a).toInt
  match fmt with
  | 0 | 1 =>
    let f : Fmt := .of (if fmt = 0 then .f32 else .bf16)
    match op with
    | 0 => (f.addV .rn (f.decode x) (f.decode y)).1
    | 1 => (f.minmax false x y).1
    | _ => (f.minmax true x y).1
  | _ =>
    match op with
    | 0 => (x + y) % 2 ^ 32
    | 1 => if fmt = 2 then (if sg x ≤ sg y then x else y) else min x y
    | _ => if fmt = 2 then (if sg x ≤ sg y then y else x) else max x y
/-- Combines values two at a time, in the order that the choices give: each picks two of the values left (R480, log 6). -/
def treeFold (f : Nat → Nat → Nat) : Nat → List Nat → List Nat → Nat
  | 0, _, vs => vs.headD 0
  | k + 1, cs, vs =>
    match vs with
    | [] => 0
    | [x] => x
    | _ =>
      let c := cs.headD 0
      let i := c % vs.length
      let rest := vs.eraseIdx i
      let j := c / vs.length % rest.length
      treeFold f k cs.tail (f (vs.getD i 0) (rest.getD j 0) :: rest.eraseIdx j)
/-- Those of the ranks that have joined; dies that are none of this operation's ranks are of no concern to it. -/
def State.collParts (s : State) (ctx : Nat) (o : CollOp) : List CollPart :=
  (s.coll? ctx o.cid o.use).elim [] fun c => c.parts.filter fun p => o.ranks.contains p.die
/-- All participants agree and their ranks are distinct (R479). -/
def collAgree (ps : List CollPart) (o : CollOp) : Bool := ps.all (fun p => p.params == o.params) && noRepeat (ps.map (·.rank))
/-- Element `k` of a source: its value and whether a byte of it is poisoned. -/
def CollPart.elem (p : CollPart) (e k : Nat) : Nat × Bool := (fieldAt p.src (e * k) e, ((p.psn.drop (e * k)).take e).any id)
/-- The bytes of a participant's destination with their poison. -/
def collResult (ctx : Nat) (ps : List CollPart) (o : CollOp) : List Byte × List Bool :=
  let e := collSize o.fmt
  let ps := o.ranks.map fun d => (ps.find? (·.die == d)).getD ⟨d, 0, [], [], []⟩
  if o.kind = 1 then (ps.flatMap (·.src), ps.flatMap (·.psn)) else
  let first := if o.kind = 2 then o.rank * o.count else 0
  let el (k : Nat) : Nat × Bool :=
    let xs := ps.map (·.elem e (first + k))
    (treeFold (collOp2 o.fmt o.op) ps.length (Config.collOrder (2 ^ 32 * ctx + o.cid) o.use (first + k)) (xs.map (·.1)), xs.any (·.2))
  let els := (List.range o.count).map el
  (els.flatMap fun x => leBytes e x.1, els.flatMap fun x => List.replicate e x.2)
/-- Bytes the spec calls unspecified, fresh ones (log 7). -/
def State.freeBytes (s : State) (n : Nat) : List Byte × State := ((List.range n).map fun i => Config.freeByte (s.tick + i), { s with tick := s.tick + n })

/-! ## Progress (R461, R479, R480) -/

/-- A rank that is lost: its package has no route, and the link timeout has passed or not (R461, R483). -/
def State.rankHeld (s : State) (d : Nat) : Bool := s.pkgLost (d / 4) && !s.pkgGone (d / 4)
/-- The participant joins the k-th collective with its identifier, and with it those elsewhere (R479). -/
def State.collEnter (s : State) (b : Block) (o : CollOp) (params : List Nat) (others : List CollPart) : State :=
  let p : CollPart := ⟨4 * s.pkg + b.core / 48, o.rank, params, o.data.1, o.data.2⟩
  modColl b.uid o.no (fun o => { o with tile := 0, work := [], data := ([], []), joined := true }) (s.join b.ctx o.cid o.use (p :: others))
/-- The next tile of the source is translated once every access of the one before it is performed; after the last the participant joins. One abandoned joins as one that disagrees (R303, R304, R478). -/
def collSource (b : Block) (o : CollOp) (others : List CollPart) : Act Unit := do
  let s ← get
  if o.fault == .abandon then set (s.collEnter b { o with data := ([], []) } [] others) else
  needA (o.work.all (·.got.isSome)) .idle
  let gots := o.work.filterMap (·.got)
  let o := { o with data := (o.data.1 ++ gots.flatMap (·.1), o.data.2 ++ gots.flatMap (·.2)), work := [] }
  let n := o.data.1.length
  if o.srcLen ≤ n then set (s.collEnter b o o.params others) else
  match s.collRuns b false (o.src + n) (min 512 (o.srcLen - n)) with
  | .error x =>
    set (modColl b.uid o.no (fun x => { x with data := o.data, work := [] }) s)
    collFault b o x
  | .ok rs => set (modColl b.uid o.no (fun x => { x with data := o.data, work := rs.map fun r => ⟨r, none⟩, tile := x.tile + 1 }) s)
/-- An access of the source's tile: poisoned granules are counted once (R306, R480). -/
def collRead (b : Block) (o : CollOp) (k : Nat) : Act Unit := do
  let s ← get
  let a ← someA o.work[k]? .idle
  needA (a.got.isNone && !s.runsHeld a.rs) .idle
  let gs := (psnGranules s a.rs).filter fun g => !o.seen.contains g
  let s' := if gs = [] then s else s.bump b.ctx 3 gs.length
  set (modColl b.uid o.no (fun o => { o with work := o.work.set k ⟨a.rs, some (s.engRead a.rs)⟩, seen := o.seen ++ gs }) s')
/-- Every rank has joined, or is lost beyond the timeout: what the destination will hold is settled. It is unspecified where the participants disagree or a rank lies on a package that is gone (R461, R479, R483, log 7); while a route is lost and the timeout runs, the operation is held. -/
def collSettle (b : Block) (o : CollOp) : Act Unit := do
  let s ← get
  let ps := s.collParts b.ctx o
  let gone (d : Nat) : Bool := s.pkgGone (d / 4)
  needA (!o.ranks.any s.rankHeld && o.ranks.all fun d => ps.any (·.die == d) || gone d) .idle
  let (out, s) := if collAgree ps o && !o.ranks.any gone then (collResult b.ctx ps o, s) else
    let (bs, s) := s.freeBytes o.dstLen
    ((bs, bs.map fun _ => false), s)
  set (modColl b.uid o.no (fun o => { o with out := some out }) s)
/-- The next tile of the destination is translated once the one before it is performed (R303, R304, R478). -/
def collTile (b : Block) (o : CollOp) (out : List Byte × List Bool) : Act Unit := do
  let s ← get
  needA (o.work == [] && out.1 != []) .idle
  let n := min 512 out.1.length
  match s.collRuns b true (o.dst + 512 * o.tile) n with
  | .error x => collFault b o x
  | .ok rs =>
    let work := (rs.zip (lineCuts (o.dst + 512 * o.tile) n)).map fun x =>
      (⟨x.1, some ((out.1.drop (x.2.1 - (o.dst + 512 * o.tile))).take x.2.2, (out.2.drop (x.2.1 - (o.dst + 512 * o.tile))).take x.2.2)⟩ : CollAcc)
    set (modColl b.uid o.no (fun o => { o with work := work, tile := o.tile + 1, out := some (out.1.drop n, out.2.drop n) }) s)
/-- An access of the destination's tile: held while a rank's route is lost, and unspecified bytes once one is gone (R461). -/
def collWrite (b : Block) (o : CollOp) (k : Nat) : Act Unit := do
  let s ← get
  let a ← someA o.work[k]? .idle
  let (bs, ps) ← someA a.got .idle
  needA (!o.ranks.any s.rankHeld && !s.runsHeld a.rs) .idle
  let ((bs, ps), s) := if o.ranks.any fun d => s.pkgGone (d / 4) then
      let (fs, s) := s.freeBytes bs.length
      ((fs, fs.map fun _ => false), s)
    else ((bs, ps), s)
  set (modColl b.uid o.no (fun o => { o with work := o.work.eraseIdx k }) (s.engWrite a.rs bs ps))
/-- COLLECTIVE_JOIN: the source is read tile by tile, and the participant joins; participants elsewhere join with what they bring; once all have joined or are lost the result is settled, and then written tile by tile. The accesses of a tile come in any order. -/
def execCollectiveJoin (blk : Nat) (st : EngStep) (remote : List (Nat × List Byte × List Bool)) (s : State) : Host.Outcome State Fault Refusal :=
  runEvent (do
    let b ← engBlock blk
    let o ← someA (b.coll.ops.find? (·.no == st.of)) .idle
    let s ← get
    needA (!o.bad && s.preDone o.pre && (o.fault == .none || (o.fault == .abandon && !o.joined))) .idle
    match st.piece? with
    | some k => if o.joined then collWrite b o k else collRead b o k
    | none =>
      let others := o.remoteParts s.pkg ((s.coll? b.ctx o.cid o.use).elim [] fun c => c.parts.map (·.die)) remote
      if !o.joined then collSource b o others
      else if others != [] then set (s.join b.ctx o.cid o.use others)
      else match o.out with
        | none => collSettle b o
        | some out => collTile b o out) s

/-! ## XSIG (R481) -/

/-- The tiers and packages an XSIG may write. -/
def State.xsigLegal (s : State) (l : Leaf) : Bool :=
  decide (l.tier ≤ 5 ∧ l.tier ≠ 2) && l.w && (!(l.tier == 4 || l.tier == 5) || s.numbered.contains l.pkg) &&
    (!(l.tier == 3 || l.tier == 5) || decide (l.pa < scrBytes))
def xsig (add : Bool) (w : WC) (v : View) : Act Unit :=
  perSplit w { src := [mSrc w.b 2, mSrc w.c 2] } true [0] (fun _ x => do
    let s ← get
    needA ((v.thread x.lane).elim true (s.memReady ·)) .hold
    let a := (x.d 0).toNat % 2 ^ 56
    needA (a % 8 == 0) (.fault fcMisalign (BitVec.ofNat 64 a) x.lane 0)
    match s.xlate v.b.core v.b.ctx (BitVec.ofNat 56 a) with
    | none => throw (.page (BitVec.ofNat 56 a) x.lane)
    | some l =>
      needA (s.xsigLegal l) (.fault fcProt (BitVec.ofNat 64 a) x.lane 0)
      needA (!l.ord || v.unpOf x.lane == []) .hold
      modA fun s =>
        if (x.w 1 0).p || (x.w 1 1).p then s.dropStore v x.lane
        else s.enqueue v.u x.lane true l.ord fun _ => .xsig (s.leafKey l) add (x.d 1)
      done v) v
def execXsigSet (w : WC) (s : State) : Host.Outcome State Fault Refusal := runUnit (xsig false w) s
def execXsigAdd (w : WC) (s : State) : Host.Outcome State Fault Refusal := runUnit (xsig true w) s

/-! ## Completion of engine operations (R281, R291) -/

def collDone (blk no : Nat) (s : State) : State :=
  s.modBlk blk fun b => let ops := b.coll.ops.filter (·.no != no); { b with coll := ⟨tlRaise b.coll.tl (ops.map (·.no)), ops⟩ }
/-- A collective completes at a participant once its destination is written; one abandoned, or whose command carries an error, is counted (R304, R443, R480). -/
def collComplete (b : Block) (o : CollOp) : Act Unit := do
  let s ← get
  needA (s.preDone o.pre) .idle
  if o.bad || (o.joined && o.fault == .abandon) then set (collDone b.uid o.no (s.bump b.ctx 4 1))
  else
    needA (o.out == some ([], []) && o.work == [] && o.fault == .none) .idle
    set (collDone b.uid o.no s)
/-- ENGINE_OPERATION_COMPLETE: an operation all of whose accesses are performed completes, its dependency slot is clear, and its context's counter rises as far as no earlier operation is open (R37, R281, R291). -/
def execEngineOperationComplete (blk : Nat) (e : Eng) (no : Nat) (s : State) : Host.Outcome State Fault Refusal :=
  runEvent (do
    let b ← engBlock blk
    match e with
    | .copy k =>
      let c ← someA b.copies[k]? .idle
      let o ← someA (c.ops.find? (·.no == no)) .idle
      needA o.complete .idle
      let ops := c.ops.filter (·.no != no)
      modA fun s => s.modBlk blk fun b => { b with copies := b.copies.set k ⟨tlRaise c.tl (ops.map (·.no)), ops⟩ }
    | .matrix =>
      let o ← someA (b.matrix.ops.find? (·.no == no)) .idle
      needA o.complete .idle
      let ops := b.matrix.ops.filter (·.no != no)
      modA fun s => s.modBlk blk fun b => ({ b with matrix := { b.matrix with tl := tlRaise b.matrix.tl (ops.map (·.no)), ops := ops } } : Block).clearSlot o.slot
    | .attention =>
      let o ← someA b.attn.ops.head? .idle
      needA (o.no == no) .idle
      let t ← someA ((← get).attnEnd b o) .idle
      set (t.modBlk blk fun b =>
        let ops := b.attn.ops.filter (·.no != no)
        ({ b with attn := { b.attn with tl := tlRaise b.attn.tl (ops.map (·.no)), ops := ops } } : Block).clearSlot o.slot)
    | .page =>
      let l ← someA (b.pagec.fly.find? (·.no == no)) .idle
      needA (l.done || l.bad) .idle
      modA fun s => modPage blk (fun c => ({ c with pend := c.pend.filter (· != no), fly := c.fly.filter (·.no != no) } : PCtx).raised)
        (if l.bad then s.bump b.ctx 4 1 else s)
    | .coll =>
      let o ← someA (b.coll.ops.find? (·.no == no)) .idle
      collComplete b o
    | .handle =>
      needA (b.handle.ops.contains (no, true)) .idle
      let ops := b.handle.ops.filter (·.1 != no)
      modA fun s => s.modBlk blk fun b => { b with handle := { tl := tlRaise b.handle.tl (ops.map (·.1)), ops := ops } }) s

end Sys2Proof.Machine
end

