-- ==== Sys2Proof/Machine/Launch.lean ====
section
/-! DEFINITION. Launches and their checks, pre-emption by SAVE and RESUME, finalisers (spec/15 R382-R386, R404, R405; spec/17 R428-R430; spec/20 R468). -/

namespace Sys2Proof.Machine

/-! ## What a launch asks for -/

/-- The fields of a launch packet, or of the RANGE packet that a finaliser stands for (R382, R383, R468). -/
structure Req where
  kind : GKind
  fin : Bool
  agec : Nat
  bdly : Nat
  faultPolicy : Bool
  shelves : Nat
  kdesc : Nat
  /-- Address of the size word; none takes the size as 0. -/
  size : Option Nat
  /-- Address of the placement map, or a die mask in its place. -/
  pmap : Option Nat
  mask : Nat
  grt : Nat
  gx : Nat
  gy : Nat
  gz : Nat
  bpc : Nat
  tpb : Nat
  stream : Nat
  plist : Nat
  npage : Nat
  lo : Nat
  hi : Nat
  grain : Nat
  args : List Word
  pkt : List Byte
  deriving DecidableEq, Repr
def argWords (bs : List Byte) (o : Nat) : List Word := (List.range 8).map fun i => BitVec.ofNat 32 (fieldAt bs (o + 4 * i) 4)
def reqOf (kind : GKind) (bs : List Byte) : Req :=
  let f := fieldAt bs
  { kind := kind, fin := false, agec := hdrF bs 32 3, bdly := hdrF bs 36 5, faultPolicy := hdrF bs 41 1 == 1, shelves := hdrF bs 48 16,
    kdesc := f 8 7, size := some (f 0x10 7), pmap := some (f 0x18 7), mask := 0, grt := f 0x20 7, gx := f 0x28 2, gy := f 0x2A 2, gz := f 0x2C 2,
    bpc := f 0x2E 2, tpb := f 0x30 2, stream := f 0x38 7, plist := if kind = .page then f 0x48 7 else 0, npage := f 0x50 4,
    lo := f 0x48 8, hi := f 0x50 8, grain := f 0x58 4, args := argWords bs 0x60, pkt := bs }
/-- REGS within its limits. DESIGN CHOICE, log 58: a value that is no multiple of 16 from 16 to 448 is taken as the next such value below it, or as 16. -/
def regsOf (x : Nat) : Nat := 16 * max 1 (min 28 (x / 16))
/-- A variant record, its entries as addresses (R142). DESIGN CHOICE, log 58: SPILL above 16,384 is taken as 16,384; a SPILL or SHARED that is no multiple of 128 is taken as read. -/
def variantOf (bs : List Byte) (o gbase fbase : Nat) : Variant :=
  let f := fieldAt bs
  ⟨f o 8, (gbase + f (o + 8) 4) % 2 ^ 56, (fbase + f (o + 0xC) 4) % 2 ^ 56, regsOf (f (o + 0x10) 2), min 16384 (f (o + 0x12) 2), f (o + 0x14) 4⟩
/-- A kernel descriptor; none where MAGIC, VER, NVAR, ENERGY or STAGES is out of range (R141, R385). DESIGN CHOICE, log 58: GBASE is taken as read, also where it is no multiple of 8; bits 63:56 of GBASE, GMAP, FBASE and FMAP are dropped. -/
def kdescOf (bs : List Byte) : Option KDesc :=
  let f := fieldAt bs
  let g := f 0x10 7
  let fb := f 0x28 7
  if f 0 4 = 0x444B474E ∧ f 4 2 = 1 ∧ 1 ≤ f 6 1 ∧ f 6 1 ≤ 4 ∧ f 7 1 ≤ 7 ∧ 1 ≤ f 8 1 ∧ f 8 1 ≤ 16 then
    some { energy := f 7 1, stages := f 8 1, gbase := BitVec.ofNat 56 g, glen := f 0x18 4, gmap := BitVec.ofNat 56 (f 0x20 7), fbase := BitVec.ofNat 56 fb,
           flen := f 0x30 4, fmap := BitVec.ofNat 56 (f 0x38 7), mode := BitVec.ofNat 32 (f 0x34 4),
           vars := (List.range (f 6 1)).map fun i => variantOf bs (0x40 + 32 * i) g fb }
  else none

/-! ## The checks (R385) -/

def Req.clusters (r : Req) : Nat := match r.kind with | .index => r.gx * r.gy * r.gz | .page => r.npage | .range => 1
/-- Row 1. -/
def Req.fieldsBad (r : Req) : Bool :=
  r.agec == 7 || !(r.bdly == 0 || decide (6 ≤ r.bdly ∧ r.bdly ≤ 20)) || r.kdesc % 64 != 0 || r.size.elim false (· % 8 != 0) || r.pmap.elim false (· % 8 != 0) ||
    r.grt % 8 != 0 || r.plist % 64 != 0 || r.stream % 256 != 0
/-- Bytes at an address of the context, in any tier. -/
def State.readAny (s : State) (ctx a n : Nat) : Option (List Byte) := s.devRead ctx a n [0, 1, 2, 3, 4, 5]
/-- The count that the placement map must have (R384). -/
def Req.mapLen (r : Req) : Nat := if r.kind = .index then r.clusters else 1
/-- The placement map: its count, and its bytes where the count is right; none where it does not translate. -/
def State.readMap (s : State) (ctx : Nat) (r : Req) : Option (Nat × List Nat) :=
  match r.pmap with
  | none => some (1, [r.mask])
  | some a => (s.readAny ctx a 4).bind fun c =>
    if leNat c ≠ r.mapLen then some (leNat c, []) else (s.readAny ctx (a + 4) (leNat c)).map fun bs => (leNat c, bs.map (·.toNat))
/-- Row 5. -/
def Req.limitsBad (r : Req) (kd : KDesc) : Bool :=
  !decide (1 ≤ r.tpb ∧ r.tpb ≤ 1024) ||
    match r.kind with
    | .index => !decide (1 ≤ r.gx ∧ 1 ≤ r.gy ∧ 1 ≤ r.gz ∧ 1 ≤ r.bpc ∧ r.bpc ≤ 16)
    | .page => !decide (1 ≤ r.npage ∧ r.npage ≤ 2 ^ 24) || decide (1 < kd.stages)
    | .range => decide (r.hi < r.lo ∨ 1 < kd.stages)
/-- Row 6. -/
def Req.mapBad (r : Req) (m : Nat × List Nat) : Bool :=
  m.1 != r.mapLen || m.2.any fun x => if r.kind = .index then decide (3 < x) else decide (x = 0 ∨ 15 < x)
/-- A die has cores of the context's partition (R459). -/
def State.dieIn (s : State) (ctx d : Nat) : Bool := let m := (s.partD (s.ctxD ctx).part).mask; m.getLsbD (2 * d) || m.getLsbD (2 * d + 1)
/-- Dies that the map names. -/
def Req.dies (r : Req) (m : List Nat) : List Nat := if r.kind = .index then m else (List.range 4).filter fun d => m.any (·.testBit d)
/-- How many blocks of one need an empty core takes (R170-R172). -/
def coreCap (n : Need) : Nat → List (Nat × Nat × Nat) → Nat → Nat
  | 0, _, k => k
  | f + 1, used, k =>
    if (k + 1) * n.bytes ≤ 2 ^ 19 ∧ (k + 1) * n.energy ≤ 192 then
      match placeGroups n.units n.ng used with
      | some ps => coreCap n f (used ++ ps.map fun p => (p.1, p.2, n.units)) (k + 1)
      | none => k
    else k
/-- Bytes of stage channels that a grid has on a die (R200). -/
def Grid.chanBytes (g : Grid) (d : Nat) : Nat :=
  if g.kind = .index then (g.pmap.filter (· == d)).length * g.bpc * (g.kd.stages - 1) * 2 * 4096 else 0
/-- Bytes of a die's scratchpad (R1). -/
def dieScratch : Nat := 48 * 2 ^ 21
/-- The grid that a request starts, or the status of the first check that fails (R385). -/
def State.launchOf (s : State) (ctx id : Nat) (r : Req) (owner : Option (Nat × Nat)) : Except Nat Grid :=
  if r.fieldsBad then .error 0x01 else
  let here (a : Nat) : Bool := a == 0 || (s.readAny ctx a 8).isSome
  match s.readAny ctx r.kdesc 192, (match r.size with | none => some [] | some a => s.readAny ctx a 8), s.readMap ctx r with
  | some kb, some sb, some m =>
    if !(here r.grt && here r.stream && (r.kind != .page || (s.readAny ctx r.plist 64).isSome)) then .error 0x0A else
    match kdescOf kb with
    | none => .error 0x02
    | some kd =>
      match kd.vars.findIdx? fun v => decide (leNat sb ≤ v.bound) with
      | none => .error 0x03
      | some vi =>
        if r.limitsBad kd then .error 0x04
        else if r.mapBad m then .error 0x05
        else if !((r.dies m.2).all (s.dieIn ctx)) then .error 0x06
        else
          let v := kd.vars.getD vi ⟨0, 0, 0, 16, 0, 0⟩
          if !(s.clauseAddr ctx kd (BitVec.ofNat 56 v.gentry) && s.clauseAddr ctx kd (BitVec.ofNat 56 v.fentry)) then .error 0x08 else
          let n := r.clusters
          let bpc := if r.kind = .index then r.bpc else 1
          let g : Grid :=
            { id := id, ctx := ctx, kind := r.kind, fin := r.fin, kd := kd, var := vi, pkt := r.pkt,
              faultPolicy := r.faultPolicy, shelves := if r.shelves = 0 then 2 ^ 32 else r.shelves, clusters := n, bpc := bpc, tpb := r.tpb,
              nblocks := kd.stages * bpc * n, grt := r.grt, stream := r.stream, args := r.args, plist := r.plist, pmap := m.2, nextClu := 0, nextStage := 0,
              results := [], recs := if r.kind = .range then [⟨0, r.lo, r.hi, max 1 r.grain, true, true⟩] else [], created := if r.kind = .range then 1 else 0,
              nextPage := 0, promo := [], pages := [], pagesDone := [], pgStop := false, owner := owner }
          let cap := coreCap (g.needOf (r.kind == .page)) 16 [] 0
          let room (d : Nat) : Bool := decide (bpc * kd.stages ≤ cap * (s.coresFor ctx (· == d)).length)
          if cap = 0 ∨ (r.kind = .index ∧ !((r.dies m.2).all room)) then .error 0x07
          else if !((List.range 4).all fun d => g.chanBytes d = 0 || decide (g.chanBytes d + (s.grids.map (·.chanBytes d)).sum ≤ dieScratch)) then .error 0x09
          else .ok g
  | _, _, _ => .error 0x0A
/-- Starts a grid: every entry of its result table is pending before its first block starts (R386). -/
def State.startGrid (s : State) (g : Grid) : State :=
  let s := if g.grt = 0 then s else s.devWrite g.ctx g.grt (zerosB (8 * g.nblocks))
  { s with grids := s.grids ++ [g], nextUid := s.nextUid + 1 }
/-! ## Freezing a context (R404, R405, R428) -/

/-- Every unit of the context stands at a clause boundary, or is a front-end thread, nothing it issued is on its way, no group is about to be benched, and no block that is over has still to end; of a halted context none ends (R405, R415, R416, R422, R428). -/
def State.ctxQuiet (s : State) (ctx : Nat) : Bool :=
  (s.ctxBlocks ctx).all fun b => !(b.onCore && b.over && (s.ctxD ctx).halted.isNone) &&
    b.units.all fun u => (b.grp? u).elim true fun g => (u.isFront || g.runs == 0) && !g.isLeaving && s.drained u g
/-- The context is frozen with its image written: evicted groups are found in the new image. -/
def State.freeze (s : State) (ctx via image : Nat) (g : Grid) : State :=
  let s := (s.ctxBlocks ctx).foldl (fun s b => s.endRun (.front b.uid)) s
  let s := s.writeImage ctx via image g
  let s := (s.ctxBlocks ctx).foldl (fun s b => (List.range b.groups.length).foldl (fun s i => s.modGrp (.group b.uid i) fun g =>
    match g.stat with
    | .benched 0 _ => { g with stat := .benched 0 (BitVec.ofNat 56 (s.imageGrp ctx image b.uid i)) }
    | _ => g) s) s
  s.modCtx ctx fun c => { c with saved := .saved image, via := via }
/-- The image of a context that has stopped is written and the context is frozen; where it is longer than the limit, or does not translate, the context goes on and the status says so (R404). -/
def State.saveNow (s : State) (ctx via image limit : Nat) (g : Grid) : State × Option Nat :=
  let len := (imageMap g (s.ctxBlocks ctx) s.hmsgs).len
  if limit < len then (s, some 0x02)
  else if (s.read01 via image len).isNone then (s, some 0x0A)
  else (s.freeze ctx via image g, none)
/-- Posts a status to the queue of a SAVE. -/
def State.saveStatus (s : State) (p : Preempt) (st : Nat) : State := (s.queue? p.via p.q).elim s fun q => s.postStatus q st p.idx
/-- A pre-emption that is owed freezes the stopped context before the new grid's first block. -/
def State.preemptNow (s : State) (ctx : Nat) (g : Grid) : State :=
  match (s.ctxD ctx).preempt with
  | none => s
  | some p =>
    let s := s.modCtx ctx fun c => { c with preempt := none, saved := .no }
    match s.saveNow ctx p.via p.image p.limit g with
    | (s, some st) => s.saveStatus p st
    | (s, none) => s
/-- A launch packet's grid whose last block retires: nothing of it is left to start, and each of its blocks is over; in a halted context none ends (R155, R405, R416). -/
def State.retires (s : State) (g : Grid) : Bool :=
  (s.ctxD g.ctx).halted.isNone && g.owner.isSome && ({ s with blocks := s.blocks.filter fun b => !(b.grid == g.id && b.onCore && b.over) } : State).gridDone g
/-- The launch packet's ageing code and bench delay are the context's from here on (R168, R210, log 62). -/
def State.setAge (s : State) (ctx : Nat) (r : Req) : State :=
  s.modCtx ctx fun c => { c with agec := r.agec, bdly := if r.bdly = 0 then 1024 else 2 ^ r.bdly }
/-- A launch packet of one kind: it starts its grid, or is rejected with a status and retires; only BAD_PACKET halts the queue (R385). A pre-emption that is owed takes effect here: the packet waits until the units of its context have stopped, and its grid starts frozen (R405). A RANGE waits for a free task record (R203, log 75). -/
def launchPacket (slot : Nat) (ty : Nat) (kind : GKind) (s : State) : Host.Outcome State Fault Refusal :=
  packet slot (· == ty) (fun q b bs => do
    let s ← get
    let r := reqOf kind bs
    match s.launchOf q.ctx s.nextUid r (some (q.q, q.given + 1)) with
    | .ok g =>
      needA (kind != .range || s.tableRoom q.ctx) .idle
      let start (s : State) : State := ((s.startGrid g).setAge q.ctx r).dispatch q 2 (.grid g.id)
      match (s.ctxD q.ctx).preempt, (s.ctxD q.ctx).saved with
      | some _, .no => set (s.modCtx q.ctx fun c => { c with saved := .stopping })
      | some _, .stopping =>
        needA (s.ctxQuiet q.ctx) .idle
        set ((start s).preemptNow q.ctx g)
      | _, _ => set (start s)
    | .error st => if st = stBadPacket then badPacket q else set ((s.postStatus q st b.next).dispatch q 2 .done)) s
def execLaunch (slot : Nat) (s : State) : Host.Outcome State Fault Refusal := launchPacket slot 1 .index s
def execLaunchPages (slot : Nat) (s : State) : Host.Outcome State Fault Refusal := launchPacket slot 2 .page s
def execRange (slot : Nat) (s : State) : Host.Outcome State Fault Refusal := launchPacket slot 3 .range s

/-! ## Finalisers (R468) -/

/-- The RANGE packet that a finaliser record stands for. -/
def finReq (t : FinTask) : Req :=
  let f := fieldAt t.bytes
  { kind := .range, fin := true, agec := 2, bdly := 0, faultPolicy := false, shelves := 0, kdesc := f 0 7, size := none, pmap := none, mask := 2 ^ t.die,
    grt := 0, gx := 0, gy := 0, gz := 0, bpc := 1, tpb := f 0x1C 2, stream := 0, plist := 0, npage := 0, lo := f 8 8, hi := f 0x10 8, grain := f 0x18 4,
    args := argWords t.bytes 0x20,
    pkt := leBytes 8 (0x30000 + 2 ^ 33) ++ leBytes 8 (f 0 7) ++ zerosB 32 ++ leBytes 8 (f 0x1C 2) ++ zerosB 16 ++ leBytes 8 (f 8 8) ++ leBytes 8 (f 0x10 8) ++
      leBytes 8 (f 0x18 4) ++ (t.bytes.drop 0x20).take 32 }
/-- FINALISER_START: the first finaliser that waits starts as a range task, or its failed check is reported to completion queue 0; while such a report waits for the queue, or the context has no free task record, no further finaliser of the context starts (R203, R397). Its AGE and BDLY are the context's from here on (R468). -/
def execFinaliserStart (s : State) : Host.Outcome State Fault Refusal :=
  runEvent (do
    let s ← get
    needA s.cpUp .idle
    let waits (c : Ctx) : Bool := s.cqPend.any fun e => e.writer == .fin && e.ctx == c.no
    let c ← someA (s.ctxs.find? fun c => c.fins != [] && s.ctxOk c.no && s.mayStart c.no && s.tableRoom c.no && !waits c) .idle
    match c.fins with
    | [] => idleA
    | t :: r =>
      let s := s.modCtx c.no fun c => { c with fins := r }
      match (if t.bytes = [] then .error 0x0A else s.launchOf c.no s.nextUid (finReq t) none) with
      | .ok g => set ((s.startGrid g).setAge c.no (finReq t))
      | .error st => set { s with cqPend := s.cqPend ++ [(⟨.fin, c.no, 0, BitVec.ofNat 64 t.idx, 0, st, 1, 0, none, 0⟩ : CqEnt)] }) s

/-! ## SAVE and RESUME (R404, R405, R428-R430) -/

def execSave (slot : Nat) (s : State) : Host.Outcome State Fault Refusal :=
  packet slot (· == 5) (fun q b bs => do
    let s ← get
    let a := fieldAt bs 8 7
    let ctx := fieldAt bs 0x18 2
    if a % 4096 ≠ 0 ∨ 4096 ≤ ctx then badPacket q else
    let limit := fieldAt bs 0x10 8
    let ends (s : State) (st : Nat) : Act Unit := set ((s.postStatus q st b.next).dispatch q 1 .done)
    let goOn := s.modCtx ctx fun c => { c with saved := .no }
    -- the last block of a launch packet retires as the pre-emption arrives: it takes effect at the context's next packet (R405)
    let owe := ends (goOn.modCtx ctx fun c => { c with preempt := some ⟨q.ctx, q.q, b.next, a, limit⟩ }) 0x0F
    match s.grids.find? (fun g => g.ctx == ctx && !s.gridDone g), (s.ctxD ctx).saved with
    | none, .stopping => owe
    | none, _ => ends s 0x0F
    | some _, .saved _ => ends s 0x0F
    | some _, .no => if s.grids.any fun g => g.ctx == ctx && s.retires g then owe else set (s.modCtx ctx fun c => { c with saved := .stopping })
    | some g, .stopping =>
      needA (s.ctxQuiet ctx) .idle
      match s.saveNow ctx q.ctx a limit g with
      | (_, some st) => ends goOn st
      | (s, none) => set (s.dispatch q 1 .done)) s

/-- What an image's header says. -/
structure Image where
  len : Nat
  ctx : Nat
  kind : Nat
  blkt : Nat
  grids : Nat
  cores : Nat
  ops : Nat
  bytes : List Byte
  deriving DecidableEq, Repr
/-- The image at an address, if every page within LEN translates and MAGIC stands. -/
def State.readImage (s : State) (via a : Nat) : Option Image :=
  (s.read01 via a 0xE0).bind fun h =>
    let f := fieldAt h
    let len := 1024 * f 4 4
    if f 0 4 ≠ 0x4D494B43 then none else
    (s.read01 via a len).map fun bs => ⟨len, f 8 2, f 10 1, f 0xC0 8, f 0xC8 8, f 0xD0 8, f 0xD8 8, bs⟩
/-- Cores of the image with the place of their contents. -/
def Image.coreList (m : Image) : List (Nat × Nat × Nat) :=
  (List.range (min 192 (fieldAt m.bytes m.cores 8))).map fun i =>
    let o := m.cores + 8 + i * coreSection
    (fieldAt m.bytes o 4, fieldAt m.bytes (o + 4) 4, o + 8)
/-- RESUME's checks (R404). -/
def Image.ok (m : Image) (s : State) : Bool :=
  let saved := match (s.ctxD m.ctx).saved with | .saved _ => true | _ => false
  let n := (s.ctxBlocks m.ctx).length
  saved && decide (m.kind ≤ 2 ∧ m.blkt + 8 * n ≤ m.len ∧ m.grids < m.len ∧ m.cores + 8 ≤ m.len ∧ m.ops < m.len) &&
    ((List.range n).all fun i => decide (fieldAt m.bytes (m.blkt + 8 * i) 8 < m.len)) &&
    decide (m.cores + 8 + fieldAt m.bytes m.cores 8 * coreSection ≤ m.len) &&
    m.coreList.all fun c => decide (c.1 < 4 ∧ c.2.1 < 48) && s.inPart m.ctx (48 * c.1 + c.2.1)
/-- A group of a restored context: one benched for a page fault re-executes, one that held its slot for it goes on, one that stopped is ready (R427, R430). -/
def Grp.wake (g : Grp) : Grp := match g.stat with | .stopped => { g with stat := .ready } | .held 1 => { g with stat := .ready, pendRe := g.splitMask } | _ => g
/-- A posted engine fault is tried again. -/
def OpFault.wake : OpFault → OpFault
  | .posted .. => .none
  | f => f
def Block.wake (b : Block) : Block :=
  { b with
    groups := b.groups.map (·.wake), fe := b.fe.wake
    copies := b.copies.map fun c => { c with ops := c.ops.map fun o => { o with fault := o.fault.wake } }
    attn := { b.attn with ops := b.attn.ops.map fun o => { o with fault := o.fault.wake }, move := b.attn.move.map fun m => { m with fault := m.fault.wake } }
    pagec := { b.pagec with fly := b.pagec.fly.map fun l => { l with fault := l.fault.wake } }
    coll := { b.coll with ops := b.coll.ops.map fun o => { o with fault := o.fault.wake } } }
/-- Groups that may return: those benched for a page fault, and evicted ones, but for one that still waits for its reply or its resume. -/
def Block.comeBack (b : Block) : List (Nat × Nat) :=
  (b.groups.zipIdx.filter fun x => match x.1.stat with | .benched c _ => decide (c ≤ 1) && x.1.owed == 0 | _ => false).map fun x => (b.uid, x.2)
/-- Restores a saved context from its image (R430). -/
def State.restore (s : State) (via a : Nat) (m : Image) : State :=
  let s := m.coreList.foldl (fun s c =>
    let core := 48 * c.1 + c.2.1
    (s.wr (kAcc core 0 0) ((m.bytes.drop c.2.2).take (2 ^ 23))).wr (kCab core 0) ((m.bytes.drop (c.2.2 + 2 ^ 23)).take (2 ^ 21))) s
  let bs := s.ctxBlocks m.ctx
  let at_ (i : Nat) (b : Block) (gi : Nat) : Nat := a + fieldAt m.bytes (m.blkt + 8 * i) 8 + b.grpOfs gi
  let s := bs.zipIdx.foldl (fun s x => s.modBlk x.1.uid fun b => { b.wake with groups := b.wake.groups.zipIdx.map fun g =>
    match g.1.stat with
    | .benched 0 _ => { g.1 with stat := .benched 0 (BitVec.ofNat 56 (at_ x.2 b g.2)) }
    | _ => g.1 }) s
  let back := (bs.flatMap Block.comeBack).filter fun r => !s.returns.contains r
  { s.modCtx m.ctx (fun c => { c with saved := .no, halted := none, via := via, answers := [] }) with returns := s.returns ++ back }
def execResume (slot : Nat) (s : State) : Host.Outcome State Fault Refusal :=
  packet slot (· == 4) (fun q b bs => do
    let s ← get
    let a := fieldAt bs 8 7
    if a % 8 ≠ 0 then badPacket q else
    match (s.readImage q.ctx a).filter (·.ok s) with
    | none => set ((s.postStatus q 0x12 b.next).dispatch q 1 .done)
    | some m =>
      let g := (s.grids.find? fun g => g.ctx == m.ctx && !s.gridDone g).elim 0 (·.id)
      set ((s.restore q.ctx a m).dispatch q 1 (.grid g))) s

end Sys2Proof.Machine
end

