-- ==== Sys2Proof/Machine/Faults.lean ====
section
/-! DEFINITION. The fault queue and its answers, the halt sequence, service replies and the debug interface (spec/17 R415-R419, R433-R437; spec/15 R402). -/

namespace Sys2Proof.Machine


/-- What keeps a unit. -/
def State.ustat? (s : State) (u : UnitRef) : Option UStat := (s.grp? u).map fun g => g.stat

/-! ## Doorbells (R397, R418, R489) -/

/-- CQREAD: entries are free; a writer that holds on an unusable table entry reads it again (R401). -/
def execCqread (ctx cq idx : Nat) (s : State) : Host.Outcome State Fault Refusal :=
  .next (if 256 ≤ cq then s.hostError else
    let s := (s.notePage ctx (0x8000 + 8 * cq) idx).setCq { s.cq ctx cq with rd := idx }
    { s with cqPend := s.cqPend.map fun e => if e.ctx = ctx ∧ e.cq = cq ∧ e.counted = 1 then { e with counted := 2 } else e })
/-- FQREAD: records are free (R418). -/
def execFqread (ctx idx : Nat) (s : State) : Host.Outcome State Fault Refusal :=
  .next ((s.notePage ctx 0x8800 idx).modCtx ctx fun c => { c with fqr := idx })

/-! ## The fault queue (R418, R419) -/

/-- FAULT_RECORD_POST: the first record that waits is written, its last word last, and the queue's vector is raised. -/
def execFaultRecordPost (ctx : Nat) (s : State) : Host.Outcome State Fault Refusal :=
  runEvent (do
    let s ← get
    let c := s.ctxD ctx
    match c.pendF with
    | [] => idleA
    | (r, a) :: rest =>
      let n := c.rcd.fqn.toNat
      needA (decide (1 ≤ n ∧ c.fqw - c.fqr < n)) .idle
      let bs := r.bytes (c.fqw / n % 2 == 0)
      let at_ := c.rcd.fq.toNat % 2 ^ 56 + 64 * (c.fqw % n)
      let s := (s.devWrite ctx at_ (bs.take 56)).devWrite ctx (at_ + 56) (bs.drop 56)
      let s := (s.bump ctx 6 1).interrupt (c.rcd.fqvec.toNat % 2048)
      set (s.modCtx ctx fun c =>
        { c with fqw := c.fqw + 1, pendF := rest, answers := if a = .none then c.answers else c.answers ++ [(c.fqw, a)] })) s
/-- The answer that a record awaits; an answer for a saved context is discarded (R419). -/
def takeAnswer (ctx idx : Nat) : Act Answer := do
  let s ← get
  let c := s.ctxD ctx
  needA (s.hostOk && match c.saved with | .saved _ => false | _ => true) .idle
  let a ← someA ((c.answers.find? (·.1 == idx)).map (·.2)) .idle
  modA fun s => s.modCtx ctx fun c => { c with answers := c.answers.filter (·.1 != idx) }
  pure a
/-- Sets the fault of the operation that an answer names. -/
def setFault (blk : Nat) (e : Eng) (no : Nat) (f : OpFault) (s : State) : State :=
  match e with
  | .copy k => modOp blk k no (fun o => { o with fault := f }) s
  | .attention => s.modBlk blk fun b => { b with attn := { b.attn with ops := updFirst (·.no == no) (fun o => { o with fault := f }) b.attn.ops } }
  | .page => modLayer blk no (fun l => { l with fault := f }) s
  | .coll => s.modBlk blk fun b => { b with coll := { b.coll with ops := updFirst (·.no == no) (fun o => { o with fault := f }) b.coll.ops } }
  | _ => s
def State.modMove (s : State) (blk : Nat) (f : OpFault) : State :=
  s.modBlk blk fun b => { b with attn := { b.attn with move := b.attn.move.map fun m => { m with fault := f } } }
/-- The fault-answer word of the context's partition as the host writes it: the record's index, the context, and whether it abandons (R419, R491; the word's layout is the model's, log 36). -/
def State.noteAnswer (s : State) (ctx idx : Nat) (abandon : Bool) : State :=
  if s.hostOk then s.modPart (s.ctxD ctx).part fun p => { p with answer := BitVec.ofNat 64 (idx % 2 ^ 32 + 2 ^ 32 * (ctx % 4096) + if abandon then 2 ^ 63 else 0) } else s
/-- FAULT_ANSWER_RESUME: a benched group returns, one that held its slot goes on, an engine operation goes on at its point of failure. -/
def execFaultAnswerResume (ctx idx : Nat) (s : State) : Host.Outcome State Fault Refusal :=
  runEvent (do
    match ← takeAnswer ctx idx with
    | .none => pure ()
    | .grp blk g => modA fun s =>
        match s.ustat? (.group blk g) with
        | some (.benched 1 _) => { s with returns := s.returns ++ [(blk, g)] }
        | some (.held 1) => s.modGrp (.group blk g) fun g => { g with stat := .ready, pendRe := g.splitMask }
        | _ => s
    | .front blk => modA fun s => s.modGrp (.front blk) fun g => if g.stat = .held 1 then { g with stat := .ready, pendRe := g.splitMask } else g
    | .eop blk e no => modA (setFault blk e no .none)
    | .move blk => modA (·.modMove blk .none)) (s.noteAnswer ctx idx false)
/-- A unit that waits for an answer becomes halting: its context halts with the same code, and one that holds its slot stops there (R237, R419). -/
def State.haltUnit (s : State) (u : UnitRef) : State :=
  match s.blk? u.blk with
  | none => s
  | some b =>
    match b.grp? u with
    | none => s
    | some g =>
      let frame := match g.stat with | .benched _ f => f.toNat | _ => 0
      let r := { mkRec b u g fcPage 7 (g.pcOf.setWidth 64) g.faddr g.splitMask 0 with frame := BitVec.ofNat 64 frame }
      s.raiseHalt b.ctx fcPage (if g.onCore then some u else none) (.unit u) r
/-- FAULT_ANSWER_ABANDON (R304, R419, R505). -/
def execFaultAnswerAbandon (ctx idx : Nat) (s : State) : Host.Outcome State Fault Refusal :=
  runEvent (do
    match ← takeAnswer ctx idx with
    | .none => pure ()
    | .grp blk g => modA (·.haltUnit (.group blk g))
    | .front blk => modA (·.haltUnit (.front blk))
    | .move blk => modA (·.modMove blk .abandon)
    | .eop blk e no =>
      let s ← get
      match s.blk? blk with
      | none => pure ()
      | some b =>
        match e with
        | .copy k =>
          match (b.copies[k]?).bind fun c => c.ops.find? (·.no == no) with
          | some o => set (s.abandonCopy b k o)
          | none => pure ()
        | .page => set (layerNext blk no (modLayer blk no (fun l => { l with page := l.pages - 1, fault := .none }) (s.bump b.ctx 4 1)))
        | _ => set (setFault blk e no .abandon s)) (s.noteAnswer ctx idx true)

/-! ## The halt sequence (R402, R415, R416) -/

/-- The contexts of a partition. -/
def State.partCtxs (s : State) (p : Nat) : List Nat := (s.ctxs.filter (·.part == p)).map (·.no)
/-- The record of a unit that stopped only for the halt line: its resumption address, and the fault address of a pending re-execution. -/
def stopRec (b : Block) (u : UnitRef) (g : Grp) : FRec :=
  { mkRec b u g 0 (if g.toRedo then 4 else 0) (g.pcOf.setWidth 64) (if g.toRedo then g.faddr else 0) 0 0 with
    frame := match g.stat with | .benched _ f => f.setWidth 64 | _ => 0 }
/-- An engine context's record, at its first open operation. -/
def engStop (b : Block) (unit ctxs no place : Nat) : FRec := { mkEngRec b unit 0 ctxs no place 0 0 with flags := 0 }
/-- Records of the units of a block and of its engine contexts other than those that raised the halt, with their places in the order of stopping: the front-end thread, groups on the core and those whose bench completed after the halt line rose (R446), and engine contexts with operations open. -/
def Block.stopRecs (b : Block) (late : List UnitRef) (raised : List Who) : List (Nat × FRec) :=
  let rank (u : UnitRef) : Nat := if late.contains u then late.idxOf u + 1 else 0
  let units := b.units.filterMap fun u => (b.grp? u).bind fun g => 
    if g.gone || !(g.onCore || late.contains u) || raised.contains (.unit u) then none else some (rank u, stopRec b u g)
  let first (l : List (Nat × Nat)) (unit ctxs : Nat) : List FRec :=
    if raised.contains (.eng b.uid unit ctxs) then [] else (l.take 1).map fun x => engStop b unit ctxs x.1 x.2
  units ++ (first (b.matrix.ops.map fun o => (o.no, o.step)) 2 0 ++ (b.copies.zipIdx.flatMap fun c => first (c.1.ops.map fun o => (o.no, o.floor)) 3 c.2) ++
    first (b.pagec.fly.map fun l => (l.no, l.page)) 4 0 ++
    first (b.attn.ops.map fun o => (o.no, match o.kind with | .atile _ _ h _ => h.length | .aseq => 0)) 5 0 ++
    first (b.coll.ops.map fun o => (o.no, o.tile)) 6 0 ++ first (b.handle.ops.map fun o => (o.1, 0)) 7 0 ++
    if b.q17Pend = [] then [] else [engStop b 8 0 0 0]).map fun r => (0, r)
/-- Records with their places in the stop area of `n` records (R402). -/
def placeStops (n : Nat) (rs : List FRec) : List (Nat × FRec) :=
  if n = 0 then []
  else if rs.length < n then rs.zipIdx.map fun x => (x.2, x.1)
  else
    let more : FRec := { unit := 0xFF, cause := 0, flags := 0, ctxs := 0, wher := 0, block := 0, ctxn := 0, pc := 0, faddr := 0, mask := 0,
                         info := BitVec.ofNat 32 (rs.length - (n - 1)), prog := 0, frame := 0 }
    ((rs.take (n - 1)).zipIdx.map fun x => (x.2, x.1)) ++ [(n - 1, more)]
/-- HALT_SEQUENCE (R415): once no other group of the partition is inside a clause or on its way to the bench (R446), every unit has stopped; front-end threads stand at their instruction. A fault raised after that joins the records, which are listed afresh. -/
def execHaltSequence (part : Nat) (s : State) : Host.Outcome State Fault Refusal :=
  runEvent (do
    let s ← get
    let h ← someA (s.partD part).halt .idle
    let cs := s.partCtxs part
    let bs := s.blocks.filter fun b => cs.contains b.ctx && b.onCore
    needA (s.mgmtUp && (!h.stopped || h.again) && bs.all fun b => b.groups.all fun g => g.runs == 0 && !g.isLeaving) .idle
    let s := bs.foldl (fun s b => s.endRun (.front b.uid)) s
    let key (x : Nat × FRec) : Nat := (x.1 * 2 ^ 16 + x.2.unit) * 2 ^ 32 + x.2.wher
    let todo := cs.flatMap fun c =>
      let raised := h.recs.filter (·.ctx == c)
      let all := sortBy (fun a b => decide (key a ≤ key b))
        (raised.map (fun r => (r.place, r.rcd)) ++ (bs.filter (·.ctx == c)).flatMap (·.stopRecs h.late (raised.map (·.who))))
      (placeStops (s.ctxD c).rcd.stopn.toNat (all.map (·.2))).map fun x => (c, x.1, x.2)
    set (s.modPart part fun p => { p with halt := some { h with stopped := true, again := false, told := false, todo := todo } })) s
/-- STOP_RECORD_WRITE (R402). -/
def execStopRecordWrite (part : Nat) (s : State) : Host.Outcome State Fault Refusal :=
  runEvent (do
    let s ← get
    let h ← someA (s.partD part).halt .idle
    needA (h.stopped && !h.again) .idle
    match h.todo with
    | [] => idleA
    | (c, i, r) :: rest =>
      let s := s.devWrite c ((s.ctxD c).rcd.stopa.toNat % 2 ^ 56 + 64 * i) (r.bytes false)
      set (s.modPart part fun p => { p with halt := some { h with todo := rest } })) s
/-- CONTEXT_HALTED to every queue of a context, with the queue's RIDX and the code; the management core writes it (R416). -/
def State.haltCtx (s : State) (ctx code : Nat) : State :=
  let s := (s.queues.filter (·.ctx == ctx)).foldl (fun s q => s.postStatus q 0x11 q.ridx code .mgmt) s
  s.modCtx ctx fun c => { c with halted := some code }
/-- CONTEXT_HALTED (R416): after the last record the faulting contexts are halted, each with the lowest of its codes; the halt line falls once the management core's entries are written (R397). -/
def execContextHalted (part : Nat) (s : State) : Host.Outcome State Fault Refusal :=
  runEvent (do
    let s ← get
    let h ← someA (s.partD part).halt .idle
    needA (s.mgmtUp && h.stopped && !h.again && h.todo == []) .idle
    let cs := (h.faults.map (·.1)).eraseDups
    let code (c : Nat) : Nat := ((h.faults.filter (·.1 == c)).map (·.2)).foldl min 0xFF
    let s := if h.told then s else (cs.filter fun c => (s.ctxD c).halted.isNone).foldl (fun s c => s.haltCtx c (code c)) s
    let open_ := s.cqPend.any fun e => e.writer == .mgmt && cs.contains e.ctx
    needA (!(h.told && open_)) .idle
    set (s.modPart part fun p => { p with halt := if open_ then some { h with told := true } else none })) s

/-! ## Service replies (R433) -/

/-- Writes a lane's replies into a benched group's frame (R423, R424, R446). -/
def State.replyFrame (s : State) (ctx frame l : Nat) (bs : List Byte) : State :=
  let t := frame + 0x80 + 128 * l
  (s.devWrite ctx (t + 0x53) (leBytes 1 4)).devWrite ctx (t + 0x70) bs
/-- An evicted group has what it waited for: it may return, once its context is resumed (R430). -/
def State.settle (s : State) (ctx : Nat) (u : UnitRef) : State :=
  let s := s.modGrp u fun g => { g with owed := 0 }
  match (s.ctxD ctx).saved with
  | .no => if s.returns.contains (u.blk, u.grpNo) then s else { s with returns := s.returns ++ [(u.blk, u.grpNo)] }
  | _ => s
/-- SVCREPLY: each lane's four reply words are loaded into its q16, the entry is free and the group may return. -/
def execSvcreply (ctx idx : Nat) (s : State) : Host.Outcome State Fault Refusal :=
  runEvent (do
    let s := (← get).notePage ctx 0x8808 idx
    set s
    let c := s.ctxD ctx
    match c.svcs.find? (·.slot == idx) with
    | none => pure ()
    | some r =>
      let base := c.rcd.svcr.toNat % 2 ^ 56 + 2048 * r.slot + 0x240
      let reply (l : Nat) : List Byte := (s.read01 ctx (base + 16 * l) 16).getD (zerosB 16)
      let s := s.modCtx ctx fun c => { c with svcs := c.svcs.filter (· != r) }
      let u : UnitRef := .group r.blk r.g
      match s.ustat? u with
      | some (.benched 0 f) => set (((lanesOf r.mask).foldl (fun s l => s.replyFrame (s.ctxD ctx).via f.toNat l (reply l)) s).settle ctx u)
      | some (.benched _ f) => set { (lanesOf r.mask).foldl (fun s l => s.replyFrame ctx f.toNat l (reply l)) s with returns := s.returns ++ [(r.blk, r.g)] }
      | some (.held 2) =>
        -- a frozen group's frame in the image takes the reply too: the group may be evicted before its context is resumed
        let s := match s.frozen ctx with
          | some im => (lanesOf r.mask).foldl (fun s l => s.replyFrame (s.ctxD ctx).via (s.imageGrp ctx im r.blk r.g) l (reply l)) s
          | none => s
        let load (s : State) (l : Nat) : State :=
          s.modThread u l fun t => { t with q16 := (List.range 4).map fun i => ⟨BitVec.ofNat 32 (fieldAt (reply l) (4 * i) 4), false⟩ }
        set (((lanesOf r.mask).foldl load s).modGrp u fun g => { g with stat := .ready })
      | _ => set s) s

/-! ## Debug (R435, R436) -/

/-- BREAKPOINT_SET: up to four addresses of a context. -/
def execBreakpointSet (ctx : Nat) (addrs : List VAddr) (s : State) : Host.Outcome State Fault Refusal :=
  .next (if s.hostOk ∧ addrs.length ≤ 4 then s.modCtx ctx fun c => { c with bps := addrs } else s)
/-- DEBUG_RESUME: a group benched for a debug stop may return; one that stands where it is goes on, at its barrier where it has arrived at one whose use is not over (R436). -/
def execDebugResume (u : UnitRef) (s : State) : Host.Outcome State Fault Refusal :=
  .next (if !s.hostOk then s else
    let s := { s with dbgResumeW := u.word }
    match s.ustat? u with
    | some (.benched 4 _) => if s.returns.contains (u.blk, u.grpNo) then s else { s with returns := s.returns ++ [(u.blk, u.grpNo)] }
    | some (.benched 0 _) => if (s.grp? u).elim false (·.owed == 4) then s.settle ((s.blk? u.blk).elim 0 (·.ctx)) u else s
    | some (.held 4) =>
      let st := if u.isFront then .ready else (s.blk? u.blk).elim .ready fun b => s.reached b u.grpNo
      s.modGrp u fun g => { g with stat := st }
    | _ => s)

end Sys2Proof.Machine
end

