-- ==== Sys2Proof/Machine/HostSide.lean ====
section
/-! DEFINITION. The host's registers and mailboxes, the root core and housekeeping (spec/22 R487-R499; spec/17 R441-R445; spec/20 R459-R461; spec/08 R238). -/

namespace Sys2Proof.Machine

/-! ## Translation invalidate (R238, R492) -/

/-- TRANSLATION_INVALIDATE: the register's words are written, the last of them last, which starts the request; a request while BUSY is discarded and sets OVR. The places of base and count are the model's (log 64). -/
def execTranslationInvalidate (ctx : Nat) (base : VAddr) (pages : Nat) (s : State) : Host.Outcome State Fault Refusal :=
  .next (if !s.hostOk then s else if s.invBusy.isSome then { s with invOvr := true }
    else { s with invReg := [BitVec.ofNat 64 ctx, base.setWidth 64, BitVec.ofNat 64 pages, 0], invBusy := some (ctx, base, pages) })
/-- One word of the register is written: while BUSY it is discarded; the last starts the request. -/
def State.writeInv (s : State) (i : Nat) (v : DWord) : State :=
  if s.invBusy.isSome then { s with invOvr := s.invOvr || i == 3 } else
  let r := s.invReg.set i v
  let w (k : Nat) : DWord := r.getD k 0
  { s with invReg := r, invBusy := if i = 3 then some ((w 0).toNat % 4096, (w 1).setWidth 56, (w 2).toNat % 2 ^ 32) else none }
/-- An access of the context that has been translated is still on its way: of a lane, of the tiles that a copy or a collective has translated, of a block that is gathered, of a slot that moves, or the page engines' (R238). -/
def State.accessesOpen (s : State) (ctx : Nat) : Bool :=
  let away (o : SqOp) : Bool := match o with | .chan _ | .xsig .. => true | _ => false
  s.jobs.any (fun j => s.jobCtx j == ctx) || (s.blocks.filter (·.ctx == ctx)).any fun b =>
    s.oc.any (fun e => e.u.blk == b.uid) || b.attn.move.elim false (·.busy.isSome) || b.copies.any (fun c => c.ops.any (·.todo != [])) || b.coll.ops.any (·.work != []) ||
      b.attn.ops.any (fun o => match o.kind with | .atile _ _ _ (some (.slots ..)) => true | _ => false) ||
      b.units.any fun u => (b.grp? u).elim false fun g => g.sq.any fun e => away e.op
/-- INVALIDATE_COMPLETE: every TLB has discarded the translations named, every access made through them is performed, and BUSY falls. -/
def execInvalidateComplete (s : State) : Host.Outcome State Fault Refusal :=
  runEvent (do
    let s ← get
    let (ctx, base, pages) ← someA s.invBusy .idle
    needA (!s.accessesOpen ctx) .idle
    let first := base.toNat / 2 ^ 16
    let named (e : TlbEnt) : Bool := e.ctx == ctx && (pages == 0 || decide (first ≤ e.vpage ∧ e.vpage < first + pages))
    set { s with invBusy := none, cores := s.cores.map fun (c : Core) => { c with tlb := c.tlb.filter (fun e => !named e), ahead := c.ahead.filter fun e => !named e } }) s

/-! ## Wiping, boot, life cycle, attestation (R493-R496) -/

/-- A region survives the wipe: host memory, other packages' memory, and flash unless it is erased. -/
def survives (pkg : Nat) (flash : Bool) (k : Nat) : Bool :=
  let c := k / 2 ^ 64
  if c = 2 then true else if c = 3 then flash else decide (c % 8 ≤ 1) && c / 8 != pkg
/-- Every SRAM and HBM stack of the package is zero and nothing is resident (R496); what firmware numbered and what lies outside the package stays, its errors with it (R500). -/
def State.wiped (s : State) (keepFlash : Bool) : State :=
  { State.reset with
    agenda := s.agenda, curCore := s.curCore
    mem := s.mem.filter fun c => survives s.pkg keepFlash c.1
    granErr := s.granErr.filter fun g => survives s.pkg keepFlash (8 * g)
    wordErr := s.wordErr.filter fun w => survives s.pkg keepFlash (4 * w)
    pkg := s.pkg, numbered := s.numbered, lost := s.lost, timedOut := s.timedOut, domPeers := s.domPeers, lifeCycle := s.lifeCycle, measures := s.measures
    nextId := s.nextId, nextUid := s.nextUid, nextAdm := s.nextAdm, tick := s.tick }
/-- Leading images whose verification succeeds. -/
def leading : List Bool → Nat
  | true :: r => leading r + 1
  | _ => 0
/-- The recorded measurement `n` is taken. -/
def State.measure (s : State) (n : Nat) : State := { s with measures := s.measures.set n ((List.range 64).map (Config.measureByte n)) }
/-- RESET_BOOT: the root core wipes, measures itself and each image it reads, and releases each processor whose image verifies, up to the first that fails. -/
def execResetBoot (good : List Bool) (s : State) : Host.Outcome State Fault Refusal :=
  let n := leading (good.take 3)
  .next ((List.range (min 4 (n + 2))).foldl State.measure
    { s.wiped true with booted := true, released := n, bootFail := if n < 3 then some n else none, measures := State.reset.measures })
/-- The moves of the life-cycle state. -/
def lifeOk (a b : Nat) : Bool := (a < 3 && b == a + 1) || (a == 1 && b == 3)
/-- A context exists that has not been destroyed. -/
def State.ctxsRun (s : State) : Bool := s.grids != [] || s.blocks != [] || s.queues != [] || s.ctxs.any fun c => c.rcd != .init
/-- A request held back is served once no context runs and no flash write is in progress (R496, R499): the state moves, every memory is wiped and flash erased. -/
def State.serveLife (s : State) : State :=
  match s.lifeReq with
  | some t => if s.ctxsRun || s.flashW.isSome then s else { s.wiped false with lifeCycle := t }
  | none => s
/-- LIFECYCLE_REQUEST: a move that is not allowed is refused with no effect. -/
def execLifecycleRequest (tgt : Nat) (s : State) : Host.Outcome State Fault Refusal :=
  .next (if lifeOk s.lifeCycle tgt then { s with lifeReq := some tgt }.serveLife else s)
/-- ATTESTATION_REQUEST: the report over the host's nonce of 64 bytes (R495). -/
def execAttestationRequest (nonce : List Byte) (s : State) : Host.Outcome State Fault Refusal :=
  .next (if nonce.length ≠ 64 then s else
    let body := nonce ++ s.measures.flatten ++ leBytes 4 s.lifeCycle ++ (List.range 32).map Config.identityByte
    { s with attReport := body ++ (List.range 4627).map (Config.signByte body) })

/-! ## Flash writes (R497) -/

/-- FLASH_WRITE_REQUEST: source in host memory or HBM, first page, count. -/
def execFlashWriteRequest (host : Bool) (src : Nat) (page count : Nat) (s : State) : Host.Outcome State Fault Refusal :=
  .next (if s.hostOk ∧ s.flashW.isNone then
    { s with flashW := some ⟨host, src, page, count⟩, flashDone := false
             flashBox := [BitVec.ofNat 64 src, BitVec.ofNat 64 page, BitVec.ofNat 64 count, if host then 1 else 0] } else s)
/-- The pieces, key and length, of a flash write's source page; in HBM one past the end of the 384 GiB goes on at their start (DESIGN CHOICE, log 58). -/
def State.flashSrc (s : State) (w : FlashW) : List (Nat × Nat) := if w.fromHost then [(kHost w.src, 16384)] else hbmPieces s.pkg w.src 16384
/-- The parity page of a page's stripe, in capacity that no address reaches, holds the exclusive or of the stripe's eight pages again (R307, R497; PRESUMED, log 66). -/
def State.rebuildParity (s : State) (page : Nat) : State :=
  let j := page / 8
  let ps := (List.range 8).map fun i => s.rd (kFlash (16384 * (8 * j + i))) 16384
  s.wr (kFlash (16384 * (2 ^ 29 + j))) (ps.foldl (fun a p => (a.zip p).map fun x => x.1 ^^^ x.2) (zerosB 16384))
/-- FLASH_WRITE_DONE: the management core has the page engines write: one page is written whole and its stripe's parity page rebuilt; after the last, DONE is set. A page number beyond the tier counts modulo its size (DESIGN CHOICE, log 58). -/
def execFlashWriteDone (s : State) : Host.Outcome State Fault Refusal :=
  runEvent (do
    let s ← get
    let w ← someA s.flashW .idle
    needA (s.mgmtUp && s.pgUp) .idle
    match w.count with
    | 0 => set ({ s with flashW := none, flashDone := true }.serveLife)
    | n + 1 =>
      let ps := s.flashSrc w
      let page := w.page % 2 ^ 29
      let s := (s.wrPsn (kFlash (16384 * page)) (ps.flatMap fun p => s.rd p.1 p.2) (ps.flatMap fun p => s.rdPsn p.1 p.2)).rebuildParity page
      if n = 0 then set ({ s with flashW := none, flashDone := true }.serveLife)
      else set { s with flashW := some { w with src := w.src + 16384, page := w.page + 1, count := n } }) s

/-! ## Registers (R398, R399, R421, R440, R459-R462, R491) -/

/-- A 64-bit write into a context record at an offset. -/
def CtxRec.write (c : CtxRec) (ofs : Nat) (v : DWord) : CtxRec :=
  match ofs with
  | 0x00 => { c with root := v }
  | 0x08 => { c with part := lo32 v }
  | 0x10 => { c with fq := v }
  | 0x18 => { c with cqt := v }
  | 0x20 => { c with wlim := v }
  | 0x28 => { c with srd := lo32 v }
  | 0x30 => { c with htab := v }
  | 0x38 => { c with nobj := lo32 v, dom := v.extractLsb' 32 16 }
  | 0x40 => { c with qtab := v }
  | 0x48 => { c with fqn := lo32 v, ncq := v.extractLsb' 32 16, fqvec := v.extractLsb' 48 16 }
  | 0x50 => { c with svcr := v }
  | 0x58 => { c with svcn := lo32 v, stopn := hi32 v }
  | 0x60 => { c with stopa := v }
  | 0x68 => { c with bencha := v }
  | 0x70 => { c with benchsz := v }
  | _ => c
/-- Fields of the fault-control word (R421). -/
def fcwMask : Word := 0x00FFFF07
/-- Scrubber `i` of a level: of a core, of a die for the scratchpad, of a stack for HBM (R444). -/
def State.scrub (s : State) (l : Level) (i : Nat) : Scrub :=
  match l with
  | .vrf => (s.coreD i).vrf
  | .shared => (s.coreD i).shm
  | .slice => s.dieS.getD i (.init 16)
  | .acc => (s.coreD i).accS
  | .cabinet => (s.coreD i).cabS
  | .hbm => s.hbmS.getD i (.init 0)
def State.modScrub (s : State) (l : Level) (i : Nat) (f : Scrub → Scrub) : State :=
  match l with
  | .vrf => s.modCore i fun c => { c with vrf := f c.vrf }
  | .shared => s.modCore i fun c => { c with shm := f c.shm }
  | .slice => { s with dieS := s.dieS.modify i f }
  | .acc => s.modCore i fun c => { c with accS := f c.accS }
  | .cabinet => s.modCore i fun c => { c with cabS := f c.cabS }
  | .hbm => { s with hbmS := s.hbmS.modify i f }
/-- The protected levels by number. -/
def levels : List Level := [.vrf, .shared, .slice, .acc, .cabinet, .hbm]
/-- Scrubbers of a level. -/
def levelCount : Level → Nat
  | .slice => 4
  | .hbm => 8
  | _ => nCores
/-- A core's rate of a level: the scratchpad's is its die's; a level of no core has none there. -/
def State.setRate (s : State) (core level rate : Nat) : State :=
  match levels[level]? with
  | none | some .hbm => s
  | some l => s.modScrub l (if l = .slice then core / 48 else core) fun x => { x with rate := rate }
/-- A partition may take the half-dies: no context is bound to it and none is another partition's (R459). -/
def State.maskOk (s : State) (p : Nat) (m : BitVec 8) : Bool :=
  decide (p < 8) && !(s.ctxs.any fun c => c.rcd != .init && c.part == p) && s.parts.zipIdx.all fun x => x.2 == p || x.1.mask &&& m == 0
/-- Clears a package counter (log 36): 4p + i the page-engine counters of partition p, 32 host-access errors, 40 + l the scrub passes and 48 + l the log overflows of level l, 64 + k the drops and 96 + k the replays of link k. -/
def State.clearPkg (s : State) (i : Nat) : State :=
  let level (k : Nat) (f : Scrub → Scrub) : State :=
    match levels[k]? with
    | some l => (List.range (levelCount l)).foldl (fun s n => s.modScrub l n f) s
    | none => s
  if i < 32 then s.modPart (i / 4) fun p => { p with pgc := p.pgc.set (i % 4) 0 }
  else if i = 32 then { s with hostErr := 0 }
  else if 40 ≤ i ∧ i < 48 then level (i - 40) fun x => { x with passes := 0 }
  else if 48 ≤ i ∧ i < 56 then level (i - 48) fun x => { x with ovf := 0 }
  else if 64 ≤ i ∧ i < 96 then { s with linkDrops := s.linkDrops.filter (·.1 != i - 64) }
  else if 96 ≤ i ∧ i < 128 then { s with linkReplays := s.linkReplays.filter (·.1 != i - 96) }
  else s
/-- REGISTER_WRITE (R491). -/
def execRegisterWrite (r : HostReg) (v : DWord) (s : State) : Host.Outcome State Fault Refusal :=
  .next (if !s.hostOk then s else
    match r with
    | .ctxWord c o => if c < 4096 then s.modCtx c fun x => { x with rcd := x.rcd.write o v } else s.hostError
    | .partMask p => if s.maskOk p (v.setWidth 8) then s.modPart p fun x => { x with mask := v.setWidth 8 } else s
    | .faultCtl p => s.modPart p fun x => { x with fcw := lo32 v &&& fcwMask }
    | .linkTimeout p => s.modPart p fun x => { x with linkTo := lo32 v }
    -- a base whose window would leave HBM is not taken (DESIGN CHOICE, log 58)
    | .bar4Base => if v.toNat + 2 ^ 36 ≤ hbmBytes then { s with bar4Base := v } else s
    | .scrubRate c l => s.setRate c l v.toNat
    | .ctxCounter c i =>
      if v = 0 ∧ [1, 2, 3, 4, 5, 6, 7, 0xB, 0xC, ctrStale, ctrOver].contains i then s.modCtx c fun x => { x with ctrs := assocSet x.ctrs i 0 } else s
    | .pkgCounter i => if v = 0 then s.clearPkg i else s
    | .invalidateWord i => s.writeInv i v
    | .ovrClear => if v = 0 then { s with invOvr := false } else s
    | .queueEntry c q o => if q < 4096 ∧ o < 32 ∧ o % 8 = 0 then (s.devWrite c (s.qtabAt c q + o) (leBytes 8 v.toNat)).noteEn else s)
/-- BAR4_WRITE (R488): at the HBM home point, within the window of 64 GiB; a failed image closes BAR0 alone (R493). -/
def execBar4Write (ofs : Nat) (bytes : List Byte) (s : State) : Host.Outcome State Fault Refusal :=
  .next (if ofs + bytes.length ≤ 2 ^ 36 then (s.wr (kHbm s.pkg (s.bar4Base.toNat + ofs)) bytes).noteEn else s)

/-! ## What the host reads (R488, R489, R491) -/

/-- The offset within BAR0 of the group that a word belongs to, with the entry's place in it where the spec gives one; the queue table lies in memory (R491, R492). -/
def barGroup : HostWord → Option Nat
  | .of (.ctxWord c o) => some (256 * c + o)
  | .of (.partMask p) | .of (.faultCtl p) | .of (.linkTimeout p) | .faultAnswer p => some (0x100000 + 64 * p)
  | .of (.invalidateWord i) => some (0x110000 + 8 * i)
  | .of .ovrClear | .invalidateBusy => some 0x110000
  | .flashBox _ | .flashDone => some 0x111000
  | .of (.scrubRate c _) | .coreCounter c _ => some (0x120000 + 4096 * c)
  | .errLog l c _ _ => if l = 2 ∨ l = 5 then none else some (0x120000 + 4096 * c)
  | .of (.ctxCounter c i) => if i = ctrStale ∨ i = ctrOver then some 0x1500000 else some (0x1400000 + 64 * c)
  | .of (.pkgCounter _) => some 0x1500000
  | .breakpoint .. | .groupHalt | .debugResume => some 0x1600000
  | .report _ | .lifeCycle | .bootStage => some 0x1700000
  | .of .bar4Base | .of (.queueEntry ..) => none
/-- A context's queue-notify page within BAR2 (R488). -/
def notifyBase (ctx : Nat) : Nat := 65536 * ctx
/-- A read of a queue-notify page: the last value written, or 0; the frame window holds the bytes last written to it (R489, R490). -/
def State.notifyRead (s : State) (ctx ofs : Nat) : DWord :=
  if 0x9000 ≤ ofs ∧ ofs < 0x9020 then BitVec.ofNat 64 (leNat (((s.ctxD ctx).window.drop (ofs - 0x9000)).take 8))
  else ((s.notifyPg.find? fun x => x.1 == ctx && x.2.1 == ofs).map (·.2.2)).getD 0
/-- A read through BAR4. -/
def State.bar4Read (s : State) (ofs n : Nat) : List Byte := s.rd (kHbm s.pkg (s.bar4Base.toNat + ofs)) n
/-- The word of a context record at an offset, as CtxRec.write lays it out. -/
def CtxRec.read (c : CtxRec) (ofs : Nat) : DWord :=
  match ofs with
  | 0x00 => c.root
  | 0x08 => c.part.setWidth 64
  | 0x10 => c.fq
  | 0x18 => c.cqt
  | 0x20 => c.wlim
  | 0x28 => c.srd.setWidth 64
  | 0x30 => c.htab
  | 0x38 => (c.dom ++ c.nobj).setWidth 64
  | 0x40 => c.qtab
  | 0x48 => c.fqvec ++ (c.ncq ++ c.fqn)
  | 0x50 => c.svcr
  | 0x58 => c.stopn ++ c.svcn
  | 0x60 => c.stopa
  | 0x68 => c.bencha
  | 0x70 => c.benchsz
  | _ => 0
/-- The value of a package counter (R492), numbered as State.clearPkg numbers them. -/
def State.pkgRead (s : State) (i : Nat) : DWord :=
  let level (k : Nat) (f : Scrub → DWord) : DWord :=
    match levels[k]? with
    | some l => (List.range (levelCount l)).foldl (fun a n => a + f (s.scrub l n)) 0
    | none => 0
  if i < 32 then (s.partD (i / 4)).pgc.getD (i % 4) 0
  else if i = 32 then s.hostErr
  else if 40 ≤ i ∧ i < 48 then level (i - 40) (·.passes)
  else if 48 ≤ i ∧ i < 56 then level (i - 48) (·.ovf)
  else if 64 ≤ i ∧ i < 96 then assocGet s.linkDrops (i - 64) 0
  else if 96 ≤ i ∧ i < 128 then assocGet s.linkReplays (i - 96) 0
  else 0
/-- A register that REGISTER_WRITE writes, as it reads. -/
def State.hostReg (s : State) (r : HostReg) : DWord :=
  match r with
  | .ctxWord c o => (s.ctxD c).rcd.read o
  | .partMask p => (s.partD p).mask.setWidth 64
  | .faultCtl p => (s.partD p).fcw.setWidth 64
  | .linkTimeout p => (s.partD p).linkTo.setWidth 64
  | .bar4Base => s.bar4Base
  | .scrubRate c l => (levels[l]?).elim 0 fun x => BitVec.ofNat 64 (s.scrub x (if x = .slice then c / 48 else c)).rate
  | .ctxCounter c i => assocGet (s.ctxD c).ctrs i 0
  | .pkgCounter i => s.pkgRead i
  | .invalidateWord i => s.invReg.getD i 0
  | .ovrClear => if s.invOvr then 1 else 0
  | .queueEntry c q o => BitVec.ofNat 64 (leNat ((s.read01 c (s.qtabAt c q + o) 8).getD []))
/-- An error log entry's 16 bytes (R445). -/
def ErrEnt.bytes (e : ErrEnt) : List Byte := leBytes 8 e.stamp.toNat ++ leBytes 4 e.gran.toNat ++ leBytes 1 e.kind ++ leBytes 1 e.syn ++ leBytes 2 e.rep
/-- A read of BAR0 (R491). After an image has failed, the mailbox alone is exposed (R493). -/
def State.regRead (s : State) (r : HostWord) : DWord :=
  let open_ (v : DWord) : DWord := if s.hostOk then v else 0
  match r with
  | .of r => open_ (s.hostReg r)
  | .errLog l i k hi => open_ ((levels[l]?).elim 0 fun x => ((s.scrub x i).log[k]?).elim 0 fun e =>
      BitVec.ofNat 64 (leNat (if hi then e.bytes.drop 8 else e.bytes.take 8)))
  | .coreCounter c i => open_ (match i with
      | 0x00 => (s.coreD c).breaks.setWidth 64
      | 0x08 => (s.coreD c).corrected.setWidth 64
      | 0x09 => (s.coreD c).uncorr.setWidth 64
      | 0x0A => (s.coreD c).replays.setWidth 64
      | _ => 0)
  | .breakpoint c i => open_ (((s.ctxD c).bps[i]?).elim 0 (·.setWidth 64))
  | .invalidateBusy => open_ (if s.invBusy.isSome then 1 else 0)
  | .faultAnswer p => open_ (s.partD p).answer
  | .groupHalt => open_ s.dbgHaltW
  | .debugResume => open_ s.dbgResumeW
  | .flashBox i => open_ (s.flashBox.getD i 0)
  | .flashDone => open_ (if s.flashDone then 1 else 0)
  | .report i => BitVec.ofNat 64 (leNat ((s.attReport.drop (8 * i)).take 8))
  | .lifeCycle => BitVec.ofNat 64 s.lifeCycle
  | .bootStage => s.bootFail.elim 0 fun n => BitVec.ofNat 64 (n + 1)

/-! ## Destroying a context (R403, R416, R483) -/

def State.dropCtx (s : State) (ctx : Nat) : State :=
  let bs := s.blocks.filter (·.ctx == ctx)
  let mine (b : Nat) : Bool := bs.any (·.uid == b)
  let gs := (s.grids.filter (·.ctx == ctx)).map (·.id)
  let jobMine (j : PageJob) : Bool := match j.tgt with | .grid g _ => gs.contains g | .copy b _ _ => mine b | .stream b _ _ => mine b
  let shelves := (s.grids.filter (·.ctx == ctx)).flatMap (·.pages)
  let s := shelves.foldl (fun s p => s.dropRegion (8 * p.uid + 4)) (bs.foldl (·.dropBlockMem) s)
  { s with
    blocks := s.blocks.filter (·.ctx != ctx), grids := s.grids.filter (·.ctx != ctx)
    chans := s.chans.filter fun c => !gs.contains c.grid, cbars := s.cbars.filter fun c => !gs.contains c.grid
    hc := s.hc.filter (·.ctx != ctx), hpath := s.hpath.filter (·.m.ctx != ctx), fills := s.fills.filter fun f => !mine f.u.blk, jobs := s.jobs.filter fun j => !jobMine j
    colls := s.colls.filter (·.ctx != ctx), queues := s.queues.filter (·.ctx != ctx), slotWait := s.slotWait.filter (·.1 != ctx)
    cqPend := s.cqPend.filter (·.ctx != ctx), cqs := s.cqs.filter (·.ctx != ctx), returns := s.returns.filter fun r => !mine r.1
    ctxs := s.ctxs.filter (·.no != ctx)
    cores := s.cores.map fun c =>
      { c with cur := c.cur.map fun o => if o.elim false fun u => mine u.blk then none else o
               latches := c.latches.filter fun l => !mine l.blk }
    parts := s.parts.map fun p => { p with halt := p.halt.map fun h =>
      { h with faults := h.faults.filter (·.1 != ctx), recs := h.recs.filter (·.ctx != ctx), todo := h.todo.filter (·.1 != ctx) } } }
/-- CONTEXT_DESTROY: a halted or saved context, or one with nothing started; once an image has failed the host reaches it no more (R493). -/
def execContextDestroy (ctx : Nat) (s : State) : Host.Outcome State Fault Refusal :=
  let c := s.ctxD ctx
  let saved := match c.saved with | .saved _ => true | _ => false
  .next (if !s.hostOk then s else if c.halted.isSome || saved || (!(s.grids.any (·.ctx == ctx)) && !(s.blocks.any (·.ctx == ctx))) then (s.dropCtx ctx).serveLife else s)

/-! ## Heartbeats and the watchdog (R441, R494, R498, R499) -/

/-- Heartbeats of the core are checked in its partition. -/
def State.beatsOn (s : State) (core : Nat) : Bool := s.parts.any fun p => p.mask.getLsbD (halfDie core) && p.fcw.getLsbD 2
def execHeartbeatSend (core : Nat) (s : State) : Host.Outcome State Fault Refusal := .next (s.modCore core fun c => { c with beat := true })
/-- The record of a core that has stopped. -/
def beatRec (ctx core : Nat) : FRec :=
  { unit := 1, cause := fcBeat, flags := 1, ctxs := 0, wher := whereBits core 0 0, block := 0, ctxn := BitVec.ofNat 32 (ctx % 4096 + 2 ^ 21),
    pc := 0, faddr := 0, mask := 0, info := 0, prog := 0, frame := 0 }
/-- HEARTBEAT_WINDOW_EXPIRY: two windows in a row without a heartbeat halt every context on the core; each core's window in which the watchdog reset the management core is excused (R499). -/
def execHeartbeatWindowExpiry (core : Nat) (s : State) : Host.Outcome State Fault Refusal :=
  .next (if !s.mgmtUp then s else
    let c := s.coreD core
    let next (n : Nat) (s : State) : State := s.modCore core fun c => { c with beat := false, missed := n }
    if c.beat || !s.beatsOn core || c.excuse then (next 0 s).modCore core fun c => { c with excuse := false }
    else if c.missed = 0 then next 1 s
    else (((s.resident core).map (·.ctx)).eraseDups).foldl (fun s x => s.raiseHalt x fcBeat none (.core core) (beatRec x core)) (next 0 s))
def execWatchdogReport (s : State) : Host.Outcome State Fault Refusal := .next (if s.mgmtUp then { s with wdReported := true } else s)
/-- The contexts that run: those the host has made that are neither halted nor saved, with a grid or between two (R494). -/
def State.ctxsRunning (s : State) : List Nat :=
  let runs (c : Nat) : Bool := (s.ctxD c).halted.isNone && match (s.ctxD c).saved with | .saved _ => false | _ => true
  ((s.grids.map (·.ctx) ++ (s.ctxs.filter (·.rcd != .init)).map (·.no)).eraseDups).filter runs
/-- Boots the management core again (R493, R494, log 65): its image is read, measured and verified; one that fails leaves it and every processor after it in reset. Where they were all in reset since an earlier failure, the boot goes on with their images. -/
def State.bootAgain (s : State) : State :=
  let good (k : Nat) : Bool := Config.imageGood (s.tick + k)
  if s.released = 0 then
    let n := leading [good 0, good 1, good 2]
    { (List.range (min 3 (n + 1))).foldl (fun s i => s.measure (i + 1)) s with released := n, bootFail := if n < 3 then some n else none, tick := s.tick + 3 }
  else if good 0 then { s.measure 1 with tick := s.tick + 1 }
  else { s.measure 1 with released := 0, bootFail := some 0, tick := s.tick + 1 }
/-- WATCHDOG_EXPIRY: after boot, two missed reports halt the contexts that run, and the management core is reset and booted again (R494). -/
def execWatchdogExpiry (s : State) : Host.Outcome State Fault Refusal :=
  .next (if !s.booted then s
    else if s.wdReported then { s with wdReported := false, wdMissed := 0 }
    else if s.wdMissed = 0 then { s with wdMissed := 1 }
    else
      let t := s.ctxsRunning.foldl (fun s c => s.haltCtx c 0) s
      ({ t with wdMissed := 0, cores := t.cores.map fun (c : Core) => { c with excuse := true } } : State).bootAgain)
/-- CLOCK_THROTTLE_STEP: the core clock falls by 100 MHz, the step is logged, and the core's heartbeat window starts anew. -/
def execClockThrottleStep (core : Nat) (s : State) : Host.Outcome State Fault Refusal :=
  .next (let n := (s.coreD core).clock - 1
    if !s.mgmtUp ∨ n = 0 then s else
      { s.modCore core (fun c => { c with clock := n, beat := false }) with throttleLog := (core, n) :: s.throttleLog })

/-! ## Links (R460, R461) -/

def execLinkFlitReplay (link : Nat) (s : State) : Host.Outcome State Fault Refusal :=
  .next (if link < 24 then { s with linkReplays := assocSet s.linkReplays link (assocGet s.linkReplays link 0 + 1) } else s)
def execLinkRouteLost (pkg : Nat) (s : State) : Host.Outcome State Fault Refusal :=
  .next (if pkg ≠ s.pkg ∧ s.numbered.contains pkg then { s with lost := insRise pkg s.lost } else s)
def execLinkTimeout (pkg : Nat) (s : State) : Host.Outcome State Fault Refusal :=
  .next (if s.pkgLost pkg then { s with timedOut := insRise pkg s.timedOut } else s)

/-! ## Scrubbing and soft errors (R442-R445, R500) -/

/-- Granules that a pass goes over (R444): a die's scrubber goes over its slices together, and an HBM stack has an eighth of HBM (log 63). -/
def levelSize : Level → Nat
  | .vrf | .shared => 65536
  | .slice | .cabinet => 262144
  | .acc => 1048576
  | .hbm => hbmBytes / 64
/-- The scrubber goes over its rate's number of granules. -/
def Scrub.tick (x : Scrub) (size : Nat) : Scrub :=
  let p := x.pos + x.rate
  if size ≤ p then { x with pos := p % size, passes := x.passes + BitVec.ofNat 64 (p / size) } else { x with pos := p }
/-- SCRUB_TICK: scrubbing changes no value that a program reads (R444, R500). -/
def execScrubTick (level : Level) (inst : Nat) (s : State) : Host.Outcome State Fault Refusal :=
  .next (s.modScrub level inst (·.tick (levelSize level)))
/-- A log entry: a repeat at the newest entry's place counts, else the oldest gives way (R445). -/
def Scrub.record (x : Scrub) (stamp : DWord) (gran : Word) (kind syn : Nat) : Scrub :=
  match x.log with
  | e :: r =>
    if e.gran = gran ∧ e.kind = kind then { x with log := { e with rep := min 65535 (e.rep + 1) } :: r }
    else
      let l := ⟨stamp, gran, kind, syn, 0⟩ :: x.log
      { x with log := l.take 64, ovf := if 64 < l.length then x.ovf + 1 else x.ovf }
  | [] => { x with log := [⟨stamp, gran, kind, syn, 0⟩] }
/-- Where a group's registers lie in the core's register file: each scheduler's quarter holds its groups' in rising slot (DESIGN CHOICE, log 63). -/
def State.vrfBase (s : State) (core : Nat) (g : Grp) : Nat :=
  1024 * g.sched + ((s.resident core).flatMap fun b => (b.groups.filter fun x => x.onCore && x.sched == g.sched && decide (x.slot < g.slot)).map fun _ => b.nregs).sum
/-- Where a block's shared bytes lie in the core's shared memory, after those of the blocks that came before it; within a block the declared area, the shelf, then the spill windows it holds (DESIGN CHOICE, log 63). -/
def State.shmBase (s : State) (b : Block) : Nat := (((s.resident b.core).takeWhile (·.uid != b.uid)).map (·.sharedUse)).sum
def Block.shmPlace (b : Block) (o : Nat) : Nat := if o < 0x80000 then o else alignUp b.shared 128 + (o - 0x80000)
def Block.spillPlace (b : Block) (g o : Nat) : Nat :=
  let kept := (b.groups.take g).filter fun x => match x.stat with | .benched c _ => c != 0 | _ => true
  alignUp b.shared 128 + (if b.shelf then 16384 else 0) + kept.length * b.spill + o
/-- The granule of a register: registers 2k and 2k + 1 of a lane share one (DESIGN CHOICE, log 63). A front-end register lies in no level that has a log. -/
def State.regGran (s : State) (u : UnitRef) (l r : Nat) : Option (Level × Nat × Nat) :=
  match u with
  | .front _ => none
  | .group b g => (s.blk? b).bind fun x => (x.groups[g]?).bind fun y => if y.onCore then some (.vrf, x.core, 32 * ((s.vrfBase x.core y + r) / 2) + l) else none
/-- The granule of a byte of memory. -/
def State.memGran (s : State) (k : Nat) : Option (Level × Nat × Nat) :=
  let c := k / 2 ^ 64
  let o := k % 2 ^ 64 / 8
  if c % 8 = 4 then (s.blk? (c / 8)).map fun b => (.shared, b.core, (s.shmBase b + b.shmPlace (8 * o)) / 8)
  else if c % 8 = 5 then (s.blk? (c / 256)).map fun b => (.shared, b.core, (s.shmBase b + b.spillPlace (c / 8 % 32) (8 * o)) / 8)
  else if c % 8 = 6 then some (.cabinet, c / 8, o)
  else if c % 8 = 7 then some (.acc, c / 8, o)
  else if c = 8 * s.pkg + 1 then some (.slice, o / (262144 * 48), o % (262144 * 48))
  else if c = 8 * s.pkg then some (.hbm, o / levelSize .hbm, o % levelSize .hbm)
  else none
/-- Where an error is logged: the level, the logging unit and the granule; none for places with no log. A replay is logged at the granule its results go to (R442, log 63). -/
def State.errAt (s : State) (p : ErrPlace) : Option (Level × Nat × Nat) :=
  match p with
  | .reg u l r | .fullBit u l r | .result u l (.reg r) => s.regGran u l r
  | .latch c => some (.cabinet, c, 0)
  | .presence b line => s.memGran (kShared b (128 * line))
  | .accEntry c row col => some (.acc, c, 64 * row + col / 2)
  | .granule k | .result _ _ (.entry k) | .result _ _ (.stored k) => s.memGran k
  | _ => none
/-- The core whose counts an error raises (R440): errors in HBM and in host memory are no core's. -/
def ErrPlace.core? (s : State) (p : ErrPlace) : Option Nat :=
  match p with
  | .tlb t _ => some t.core
  | .latch c => some c
  | .reg u .. | .fullBit u .. | .result u .. => (s.blk? u.blk).map (·.core)
  | .threadCtl b _ _ | .frontCtl b | .engineCmd b _ _ => (s.blk? b).map (·.core)
  | .packet _ => none
  | .granule k => if k / 2 ^ 64 = 8 * s.pkg + 1 then some (k % 2 ^ 64 / 2 ^ 21) else (s.errAt p).bind fun x => if x.1 = .hbm then none else some x.2.1
  | _ => (s.errAt p).map (·.2.1)
/-- The logging unit's local cycles: a core's own; a die's or a stack's are free (log 7). -/
def State.errStamp (s : State) (l : Level) (i : Nat) : DWord :=
  if l = .slice ∨ l = .hbm then BitVec.ofNat 64 (leNat ((List.range 8).map fun k => Config.freeByte (s.tick + 1 + k))) else s.cycleOf i
/-- Logs and counts an error: kind 1 corrected, 2 uncorrectable, 3 a replay, 4 a replay that failed (R440, R445). The syndrome is a free value (log 7). -/
def State.logErr (s : State) (p : ErrPlace) (kind : Nat) : State :=
  let s := match ErrPlace.core? s p with
    | some c => s.modCore c fun x => match kind with
      | 1 => { x with corrected := x.corrected + 1 }
      | 3 => { x with replays := x.replays + 1 }
      | _ => { x with uncorr := x.uncorr + 1 }
    | none => s
  match s.errAt p with
  | some (l, i, g) =>
    let syn := (Config.freeByte s.tick).toNat
    { s.modScrub l i (·.record (s.errStamp l i) (BitVec.ofNat 32 g) kind syn) with tick := s.tick + 9 }
  | none => s
/-- Poisons registers `r` and its partner of one granule; `fill` also marks them full. -/
def State.poisonReg (s : State) (u : UnitRef) (l r : Nat) (fill : Bool) : State :=
  let hit (x : Reg) : Reg := { x with p := true, av := if fill then .full else x.av }
  s.modThread u l fun t => { t with regs := (t.regs.modify r hit).modify (r ^^^ 1) hit }
/-- A thread whose control state is lost is retired and counted (R27, R443). -/
def State.loseThread (s : State) (u : UnitRef) (l : Nat) : State :=
  match (s.grp? u).bind (·.threads[l]?) with
  | some t => if t.live then (let s := (s.retire u l).afterExit u.blk; if u.isFront then s else s.divergeCheck u) else s
  | none => s
/-- A result whose replays have failed carries an uncorrectable error where it is written (R442). -/
def State.loseResult (s : State) (u : UnitRef) (l : Nat) (r : ErrRes) : State :=
  let hit (x : PWord) : PWord := { x with p := true }
  match r with
  | .reg r => s.modThread u l fun t => { t with regs := t.regs.modify r fun x => { x with p := true } }
  | .pred => s.loseThread u l
  | .entry k => s.markWord k
  | .tray i => s.modBlk u.blk fun b => { b with tray := b.tray.modify i hit }
  | .chan n i => { s with chans := s.chans.modify n fun c => { c with q := c.q.modify i hit } }
  | .stored k => s.markGran k 1
/-- An engine command with an uncorrectable error: the operation writes nothing, completes, and counts as abandoned. -/
def State.badCmd (s : State) (blk : Nat) (e : Eng) (no : Nat) : State :=
  match e with
  | .copy k => modOp blk k no (fun o => { o with bad := true }) s
  | .matrix => modM blk no (fun o => { o with bad := true }) s
  | .attention => s.modBlk blk fun b => { b with attn := { b.attn with ops := updFirst (·.no == no) (fun o => { o with bad := true }) b.attn.ops } }
  | .page => modLayer blk no (fun l => { l with bad := true }) s
  | .coll => modColl blk no (fun o => { o with bad := true }) s
  | .handle =>
    match s.blk? blk with
    | some b =>
      if b.handle.ops.contains (no, false) then
        let mine (m : HMsg) : Bool := m.op == some (blk, no)
        let s := { s with hc := s.hc.filter (fun m => !mine m), hpath := s.hpath.filter fun q => !mine q.m }
        let s := s.modBlk blk fun b =>
          let clear (g : Grp) : Grp := { g with sq := g.sq.filter fun e => match e.op with | .msg m => !mine m | _ => true }
          { b with groups := b.groups.map clear, fe := clear b.fe }
        (s.handled (some (blk, no))).bump b.ctx 4 1
      else s
    | none => s
/-- What an uncorrectable error does where it lands (R443). -/
def State.uncorrectable (s : State) (p : ErrPlace) : State :=
  match p with
  | .reg u l r => s.poisonReg u l r false
  | .fullBit u l r => s.poisonReg u l r true
  | .granule k => s.markGran k 1
  | .presence b line => (s.modBlk b (·.setLine line)).markGran (kShared b (128 * line)) 128
  | .accEntry c row col => (s.markWord (kAcc c row (col / 2 * 2))).markWord (kAcc c row (col / 2 * 2 + 1))
  | .threadCtl b g l => s.loseThread (.group b g) l
  | .frontCtl b => s.loseThread (.front b) 0
  | .engineCmd b e no => s.badCmd b e no
  | .tlb (.lanes c) n => s.modCore c fun x => { x with tlb := x.tlb.eraseIdx n }
  | .tlb (.ahead c) n => s.modCore c fun x => { x with ahead := x.ahead.eraseIdx n }
  | .packet slot => match s.slotQ slot with
    | some q => s.modQ q.ctx q.q (·.setBuf fun b => { b with fet := b.fet.filter fun f => decide (f.idx < b.next) })
    | none => s
  | .latch c => s.modCore c fun x => { x with latches := x.latches.map fun l => { l with psn := l.psn.map fun _ => true } }
  | .result u l r => s.loseResult u l r
/-- A parity error of a latch or of an instruction's result, which is answered by a replay (R442). -/
def ErrPlace.parity : ErrPlace → Bool
  | .latch _ | .result .. => true
  | _ => false
/-- SOFT_ERROR (R442, R443): a corrected error is counted and logged and changes nothing visible; after a parity error the instruction is replayed, and where the replays fail its results are uncorrectable. -/
def execSoftError (p : ErrPlace) (correctable : Bool) (s : State) : Host.Outcome State Fault Refusal :=
  .next (if correctable then s.logErr p (if ErrPlace.parity p then 3 else 1) else (s.logErr p (if ErrPlace.parity p then 4 else 2)).uncorrectable p)

end Sys2Proof.Machine
end

