-- ==== Sys2Proof/Machine/Xclass.lean ====
section
/-! DEFINITION. X-class instructions: traps, service calls, breakpoints and status items (spec/17 R431-R440; spec/02 R60). -/

namespace Sys2Proof.Machine

/-- The running split stands at the word after its instruction and stays the running one; a fall-through to no clause address faults (R40). -/
def State.pastWord (s : State) (v : View) : State :=
  match s.grp? v.u with
  | none => s
  | some g0 =>
    let g := g0.issued (s.cycleOf v.b.core).toNat
    let ls := v.lanes
    match v.g.clauseNow with
    | none => s
    | some c =>
      let next := v.pc + 8#56
      if next.toNat = (c.hdr.toNat + 8 * (c.count + 1)) % 2 ^ 56 then
        if s.clauseOk v.b next then
          s.modGrp v.u fun _ => { (ls.foldl (fun g l => g.modThread l (·.goTo next)) g) with lastRole := c.role, yielded := c.yield }
        else s.takeFault v.u fcTarget (next.setWidth 64) (ls.headD 0) 0 v.pc (maskOf ls)
      else s.modGrp v.u fun _ => ls.foldl (fun g l => g.modThread l fun t => { t with pc := next }) g
def iSrc (w : WI) (n : Nat) (et : Bool) : Src := ⟨w.a, n, et, false⟩

/-! ## TRAP (R439) -/

/-- The halting trap fault, taken with the lowest active lane whose value is not poisoned; the poisoned lanes below it are retired (R27). A TRAP that ends its clause with no clause address behind it raises the fall-through's fault as well, and its lanes stay at it (R20, R40). -/
def execTrap (w : WI) (s : State) : Host.Outcome State Fault Refusal :=
  runUnit (fun v => do
    let x : Uses := { src := [iSrc w 1 w.eta] }
    needA (v.legal x) (.fault fcIllOpnd 0 0 0)
    let ls := v.active w.g
    if ls = [] then done v else
    match readAll v ls x (← get) with
    | .error e => throw e
    | .ok (ins, s) =>
      let bad := ins.takeWhile (·.psn)
      let s := bad.foldl (fun s i => s.retire v.u i.lane) s
      let s := if bad = [] then s else s.afterExit v.u.blk
      match ins.drop bad.length with
      | [] => set (s.advance v)
      | i :: _ =>
        let next := v.pc + 8#56
        let stay := v.lanes.filter fun l => !(bad.any (·.lane == l))
        let atEnd := v.g.clauseNow.elim true fun c => next.toNat == (c.hdr.toNat + 8 * (c.count + 1)) % 2 ^ 56
        let off := atEnd && !s.clauseOk v.b next
        let s := if off then s else stay.foldl (fun s l => s.modThread v.u l fun t => if atEnd then t.goTo next else { t with pc := next }) s
        let s := s.takeFault v.u fcTrap ((i.w 0).v.setWidth 64) i.lane (w.imm.toNat % 2 ^ 24) next (maskOf (ls.filter stay.contains))
        set (if off then s.takeFault v.u fcTarget (next.setWidth 64) (stay.headD 0) 0 v.pc (maskOf stay) else s)) s

/-! ## SVC (R431, R432) -/

/-- The 2,048 bytes of a request with its TAG apart. -/
def svcEntry (code : Nat) (pc : DWord) (ctx g blk : Nat) (mask : Mask) (seq : Nat) (args : List (Nat × List Word)) : List Byte :=
  zerosB 2 ++ leBytes 4 code ++ leBytes 8 pc.toNat ++ leBytes 4 (ctx % 4096 + 65536 * g) ++ leBytes 4 blk ++ leBytes 4 mask.toNat ++ zerosB 4 ++
  leBytes 8 seq ++ zerosB 24 ++ (List.range 32).flatMap fun l => padTo 16 ((assocGet args l []).flatMap fun w => leBytes 4 w.toNat)
/-- One request for the split: the ring's next entry is written, the group's replies are discarded and it is benched, or holds where the bench area has no place (R403). -/
def execSvc (w : WI) (s : State) : Host.Outcome State Fault Refusal :=
  runUnit (fun v => do
    let x : Uses := { src := [iSrc w 4 false] }
    needA (v.legal x) (.fault fcIllOpnd 0 0 0)
    let ls := v.active w.g
    if ls = [] then done v else
    let s ← get
    let c := s.ctxD v.b.ctx
    let rn := c.rcd.svcn.toNat
    needA (rn != 0) (.fault fcIllInstr 0 0 0)
    let slot := c.svcW % rn
    needA (!(c.svcs.any (·.slot == slot)) && ls.all fun l => v.unpOf l == []) .hold
    match readAll v ls x s with
    | .error e => throw e
    | .ok (ins, s) =>
      needA (s.drained v.u v.g) .hold
      let at_ := (c.rcd.svcr.toNat % 2 ^ 56 + 2048 * slot) % 2 ^ 56
      let args := ins.map fun i => (i.lane, (i.src.headD []).map (·.v))
      let s := s.devWrite v.b.ctx (at_ + 2) (svcEntry w.imm.toNat (v.pc.setWidth 64) v.b.ctx v.u.grpNo v.b.idx (maskOf ls) (c.svcSeq + 1) args)
      let s := s.devWrite v.b.ctx at_ (leBytes 2 (c.svcW / rn % 65535 + 1))
      let s := s.modCtx v.b.ctx fun c => { c with svcSeq := c.svcSeq + 1, svcW := c.svcW + 1, svcs := c.svcs ++ [⟨slot, v.u.blk, v.u.grpNo, maskOf ls⟩] }
      let s := s.modGrp v.u fun g => { g with threads := g.threads.map fun t => { t with q16 := [] } }
      let s := s.pastWord v
      if (s.grp? v.u).elim true (·.stat == .stopped) then set s else
      match s.benchGrp v.u 2 with
      | some (_, t) => set t
      | none => set (s.stand v.u 2)) s

/-! ## BKPT (R435, R438) -/

def execBkpt (w : WI) (s : State) : Host.Outcome State Fault Refusal :=
  runUnit (fun v => do
    let ls := v.active w.g
    if ls = [] then done v else
    let s ← get
    if !s.dbgOn v.b.ctx then
      modA (·.bump v.b.ctx 0xB 1)
      done v
    else
      let t := s.pastWord v
      set (if (t.grp? v.u).elim true (·.stat == .stopped) then t
        else t.leave v.u (.stop fcBreak (maskOf ls) (w.imm.toNat % 2 ^ 24) v.pc false))) s

/-! ## Status items (R440) -/

/-- An item's value as a lane sees it. -/
def State.statItem (s : State) (v : View) (l ix : Nat) : Word :=
  let c := s.coreD v.b.core
  match ix with
  | 0x00 => c.breaks
  | 0x05 => (v.thread l).elim 0 fun t => t.pend.setWidth 32
  | 0x08 => c.corrected
  | 0x09 => c.uncorr
  | 0x0A => c.replays
  | 0x0D => (v.thread l).elim 0 fun t => t.sticky.setWidth 8 |>.setWidth 32
  | _ => lo32 (assocGet (s.ctxD v.b.ctx).ctrs ix 0)
def execStatrd (w : WA) (ix : BitVec 8) (s : State) : Host.Outcome State Fault Refusal :=
  runUnit (fun v => do
    let s ← get
    runSplit w.g { dst := some ⟨w.d, 1⟩ } (perLane fun x => { dst := some [⟨s.statItem v x.lane ix.toNat, false⟩] }) v) s
/-- Clears an item: the lanes' own bits, or the context's counter. -/
def execStatclr (w : WA) (ix : BitVec 8) (s : State) : Host.Outcome State Fault Refusal :=
  runUnit (fun v => do
    let ls := v.active w.g
    modA fun s =>
      let s : State := match ix.toNat with
        | 0x05 => ls.foldl (fun (s : State) l => s.modThread v.u l fun t => { t with pend := 0 }) s
        | 0x0D => ls.foldl (fun (s : State) l => s.modThread v.u l fun t => { t with sticky := 0 }) s
        | k => if ls = [] then s else s.modCtx v.b.ctx fun c => { c with ctrs := assocSet c.ctrs k 0 }
      s.advance v) s

end Sys2Proof.Machine
end

