-- ==== Sys2Proof/Machine/Trial.lean ====
section
/-! DEFINITION. Whether the next instruction of a split would hold, tried on the state as it stands: a continuation is ready as soon as nothing holds it (spec/06 R160, R162, R165). -/

namespace Sys2Proof.Machine

/-- What a program instruction would do; none for an event. -/
def Instr.tried (i : Instr) (s : State) : Option (Host.Outcome State Fault Refusal) :=
  match i with
  | .iadd w => some (execIadd w s)
  | .isub w => some (execIsub w s)
  | .iaddc w m => some (execIaddc w m s)
  | .isubb w m => some (execIsubb w m s)
  | .imul w => some (execImul w s)
  | .imulh w sgn => some (execImulh w sgn s)
  | .imad w => some (execImad w s)
  | .imadw w sgn => some (execImadw w sgn s)
  | .idiv w sgn => some (execIdiv w sgn s)
  | .irem w sgn => some (execIrem w sgn s)
  | .iabs w => some (execIabs w s)
  | .ineg w => some (execIneg w s)
  | .imin w sgn => some (execImin w sgn s)
  | .imax w sgn => some (execImax w sgn s)
  | .iclamp w sgn => some (execIclamp w sgn s)
  | .lea w sh => some (execLea w sh s)
  | .iadd64 w => some (execIadd64 w s)
  | .imad64 w sgn => some (execImad64 w sgn s)
  | .isetp w pd op sgn => some (execIsetp w pd op sgn s)
  | .psetp w m => some (execPsetp w m s)
  | .sel w ps neg => some (execSel w ps neg s)
  | .mov w => some (execMov w s)
  | .movi w => some (execMovi w s)
  | .movp w toPred => some (execMovp w toPred s)
  | .and w => some (execAnd w s)
  | .or w => some (execOr w s)
  | .xor w => some (execXor w s)
  | .andn w => some (execAndn w s)
  | .not w => some (execNot w s)
  | .bmix w t => some (execBmix w t s)
  | .shl w => some (execShl w s)
  | .shr w => some (execShr w s)
  | .sar w => some (execSar w s)
  | .rotl w => some (execRotl w s)
  | .shf w right => some (execShf w right s)
  | .popc w => some (execPopc w s)
  | .clz w => some (execClz w s)
  | .ctz w => some (execCtz w s)
  | .brev w => some (execBrev w s)
  | .bfx w sgn => some (execBfx w sgn s)
  | .bfi w => some (execBfi w s)
  | .bswz w => some (execBswz w s)
  | .iaddImm w => some (execIaddImm w s)
  | .imulImm w => some (execImulImm w s)
  | .andImm w => some (execAndImm w s)
  | .orImm w => some (execOrImm w s)
  | .xorImm w => some (execXorImm w s)
  | .shlImm w => some (execShlImm w s)
  | .shrImm w => some (execShrImm w s)
  | .sarImm w => some (execSarImm w s)
  | .fadd w r => some (execFadd w r s)
  | .fmul w r => some (execFmul w r s)
  | .ffma w r => some (execFfma w r s)
  | .fmin w => some (execFmin w s)
  | .fmax w => some (execFmax w s)
  | .frnd w r => some (execFrnd w r s)
  | .fclass w => some (execFclass w s)
  | .fsetp w pd op fmt => some (execFsetp w pd op fmt s)
  | .hadd2 w bf r => some (execHadd2 w bf r s)
  | .hmul2 w bf r => some (execHmul2 w bf r s)
  | .hfma2 w bf r => some (execHfma2 w bf r s)
  | .frcp w r => some (execFrcp w r s)
  | .frsq w => some (execFrsq w s)
  | .fsqrt w r => some (execFsqrt w r s)
  | .fexp2 w => some (execFexp2 w s)
  | .flog2 w => some (execFlog2 w s)
  | .ftanh w => some (execFtanh w s)
  | .cvt w dst src r => some (execCvt w dst src r s)
  | .ncvt w dst src r => some (execNcvt w dst src r s)
  | .ndec w dst src r => some (execNdec w dst src r s)
  | .bra g ofs => some (execBra g ofs s)
  | .brx w => some (execBrx w s)
  | .ret w => some (execRet w s)
  | .call g link ofs => some (execCall g link ofs s)
  | .callx w => some (execCallx w s)
  | .meet g ofs => some (execMeet g ofs s)
  | .exit g => some (execExit g s)
  | .yield g => some (execYield g s)
  | .nop g => some (execNop g s)
  | .hint n payload => some (execHint n payload s)
  | .sread w sticky => some (execSread w sticky s)
  | .swrite w sticky => some (execSwrite w sticky s)
  | .shfl w m => some (execShfl w m s)
  | .vote w pd op ps neg => some (execVote w pd op ps neg s)
  | .ballot w ps neg => some (execBallot w ps neg s)
  | .elect w pd => some (execElect w pd s)
  | .actmask w => some (execActmask w s)
  | .matchLanes w wide => some (execMatchLanes w wide s)
  | .redux w op sgn => some (execRedux w op sgn s)
  | .scan w op excl sgn => some (execScan w op excl sgn s)
  | .nscale w t6 => some (execNscale w t6 s)
  | .bar w => some (execBar w s)
  | .cbar w => some (execCbar w s)
  | .qtry w pd => some (execQtry w pd s)
  | .qcfg w => some (execQcfg w s)
  | .qlen w => some (execQlen w s)
  | .ptok w => some (execPtok w s)
  | .trayw w => some (execTrayw w s)
  | .ssel w => some (execSsel w s)
  | .chsend w up => some (execChsend w up s)
  | .chrecv w up => some (execChrecv w up s)
  | .rtlaunch w => some (execRtlaunch w s)
  | .rtclaim w pd => some (execRtclaim w pd s)
  | .gsig w => some (execGsig w s)
  | .gwait w => some (execGwait w s)
  | .lds w sx => some (execLds w sx s)
  | .ldp w sx => some (execLdp w sx s)
  | .ldk w sx => some (execLdk w sx s)
  | .sts w => some (execSts w s)
  | .stp w => some (execStp w s)
  | .stk w => some (execStk w s)
  | .atom w sp op => some (execAtom w sp op s)
  | .acas w sp => some (execAcas w sp s)
  | .presw w set => some (execPresw w set s)
  | .presq w => some (execPresq w s)
  | .fence w => some (execFence w s)
  | .bbinit w => some (execBbinit w s)
  | .bbexp w => some (execBbexp w s)
  | .bbarv w => some (execBbarv w s)
  | .bbwait w => some (execBbwait w s)
  | .tlread w => some (execTlread w s)
  | .tlwait w => some (execTlwait w s)
  | .trec w => some (execTrec w s)
  | .cpy w src => some (execCpy w src s)
  | .cpys w src => some (execCpys w src s)
  | .cpyg w src => some (execCpyg w src s)
  | .cpyc w src => some (execCpyc w src s)
  | .wstreamStart w => some (execWstreamStart w s)
  | .wstreamRel w => some (execWstreamRel w s)
  | .wstreamStop w => some (execWstreamStop w s)
  | .mwld w => some (execMwld w s)
  | .mloop w => some (execMloop w s)
  | .mrowsc w => some (execMrowsc w s)
  | .mdrain w => some (execMdrain w s)
  | .mzero w => some (execMzero w s)
  | .mstat w clr => some (execMstat w clr s)
  | .aseq w => some (execAseq w s)
  | .atile w => some (execAtile w s)
  | .amask w => some (execAmask w s)
  | .svmap w => some (execSvmap w s)
  | .svset w => some (execSvset w s)
  | .svclr w => some (execSvclr w s)
  | .dsread w sel => some (execDsread w sel s)
  | .dscommit w => some (execDscommit w s)
  | .dstruncFrame w => some (execDstruncFrame w s)
  | .dstruncPos w => some (execDstruncPos w s)
  | .dsckptSave w => some (execDsckptSave w s)
  | .dsckptRel w => some (execDsckptRel w s)
  | .hnew w => some (execHnew w s)
  | .hcopy w => some (execHcopy w s)
  | .hdrop w => some (execHdrop w s)
  | .hbind w => some (execHbind w s)
  | .hderef w => some (execHderef w s)
  | .hwt w => some (execHwt w s)
  | .collAr w => some (execCollAr w s)
  | .collAg w => some (execCollAg w s)
  | .collRs w => some (execCollRs w s)
  | .xsigSet w => some (execXsigSet w s)
  | .xsigAdd w => some (execXsigAdd w s)
  | .trap w => some (execTrap w s)
  | .svc w => some (execSvc w s)
  | .bkpt w => some (execBkpt w s)
  | .statrd w ix => some (execStatrd w ix s)
  | .statclr w ix => some (execStatclr w ix s)
  | _ => none
/-- An acquire-release atomic of a lane of the running split is not performed yet: it holds its thread (R275). -/
def Grp.atomHeld (g : Grp) : Bool := (lanesOf g.runs).any fun l => (g.threads[l]?).elim false fun t => t.arw.any t.unp.contains
/-- What holds the next instruction of a split inside a clause, if anything does: the block it awaits at a GWAIT, or something else. Slot moves that get further hold nothing. The instruction is tried on the state with the split running, and what it would leave is dropped. -/
def State.heldAt (s : State) (b : Block) (u : UnitRef) (t : Thread) : Option (Option Nat) :=
  let s := { s.modGrp u (·.start t none) with cur := some u }
  (s.grp? u).bind fun g =>
    if g.atomHeld then some none else
    g.clauseNow.bind fun c => (s.fetch b.core b.ctx g.pcOf).bind fun w =>
      match aheadOf c.cls u.isFront w with
      | .run i =>
        match Instr.tried i s with
        | some (.next r) => (r.grp? u).bind fun x =>
            if x.hold = 0 || (r.blk? u.blk).map (·.attn.move) != (s.blk? u.blk).map (·.attn.move) then none else some ((x.waits.find? fun w => w.lanes &&& g.runs != 0).bind (·.gwait))
        | _ => none
      | _ => none

end Sys2Proof.Machine
end

