-- ==== Sys2Proof/Machine/Select.lean ====
section
/-! DEFINITION. Which units are ready, which one a scheduler serves, and an issue attempt up to its instruction (spec/06 R152, R157-R168; spec/02 R62). -/

namespace Sys2Proof.Machine

/-! ## Readiness (R165) -/

/-- What a chosen split would begin with. -/
inductive Begin
  /-- A continuation (R160, R162). -/
  | cont (role : Role)
  /-- A clause whose header conditions hold (R37, R38). -/
  | clause (c : ClauseCtx)
  /-- A header that cannot be fetched, or whose class is illegal (R16): the fault code. -/
  | bad (code : Nat)
  deriving DecidableEq, Repr

/-- ROLE 3 takes the role of the group's last clause (R36). -/
def Grp.roleFor (g : Grp) (r : Role) : Role := if r = .inherit then g.lastRole else r

/-- How the chosen split begins; none while the header's wait mask or WAF holds it, or, inside a clause, while its next instruction is held (R37, R38, R160, R165; log 80). -/
def State.begin? (s : State) (b : Block) (u : UnitRef) (g : Grp) (t : Thread) : Option Begin :=
  match t.cl with
  | some c => if (s.heldAt b u t).isSome then none else some (.cont c.role)
  | none =>
    match s.fetch b.core b.ctx t.pc with
    | none => some (.bad fcFetch)
    | some w =>
      let h := headerOf w
      match h.cls with
      | none => some (.bad fcIllClause)
      | some c =>
        if (c = .S && !u.isFront) || (c = .V && u.isFront) then some (.bad fcIllClause)
        else if h.wait &&& b.slots != 0 then none
        else if h.waf && !((g.splitOf t).all fun l => match g.threads[l]? with | some x => x.regs.all (·.av == .full) | none => true) then none
        else some (.clause ⟨t.pc, c, h.count, g.roleFor h.role, h.yield⟩)

/-- A unit that is ready, with the split's thread and its beginning (R165). -/
def State.ready? (s : State) (u : UnitRef) : Option (Thread × Begin) :=
  (s.blk? u.blk).bind fun b => (b.grp? u).bind fun g =>
    if s.mayBegin b g then g.choose.bind fun t => (s.begin? b u g t).map fun x => (t, x) else none

/-! ## Selection (R166, R152) -/

/-- The key of R166, least first. DESIGN CHOICE, log 78: a group whose next header cannot be fetched, or has an illegal class, has the class of its last clause. -/
def State.selKey (s : State) (u : UnitRef) (x : Begin) : List Nat :=
  match s.blk? u.blk with
  | none => []
  | some b =>
    match b.grp? u with
    | none => []
    | some g =>
      let role := match x with | .cont r => r | .clause c => c.role | .bad _ => g.lastRole
      let cls := if g.promoted.isSome then 0 else match role with | .loader => 1 | .storer => 2 | _ => 3
      [cls, g.promoted.getD 0, if cls = 3 ∧ b.token = some u.grpNo then 0 else 1, if cls ≠ 0 ∧ g.yielded then 1 else 0, g.admitted, g.slot]
/-- Order of two keys, first difference first. -/
def keyLt : List Nat → List Nat → Bool
  | a :: r, b :: t => a < b || (a == b && keyLt r t)
  | _, _ => false
/-- The least element under a key. -/
def leastBy {α : Type} (key : α → List Nat) : List α → Option α
  | [] => none
  | x :: r => match leastBy key r with
    | some y => if keyLt (key y) (key x) then some y else some x
    | none => some x
/-- The unit that a scheduler selects, with the thread of its split and its beginning. -/
def State.select (s : State) (core sched : Nat) : Option (UnitRef × Thread × Begin) :=
  let rs := (s.unitsOn core sched).filterMap fun u => (s.ready? u).map fun x => (u, x.1, x.2)
  if sched = 4 then
    let turn (x : UnitRef × Thread × Begin) : List Nat := match s.grp? x.1 with
      | some g => [(g.slot + 31 - (s.coreD core).lastFe) % 16]
      | none => []
    leastBy turn rs
  else leastBy (fun x => s.selKey x.1 x.2.2) rs

/-- A unit that waits, with the lanes of the split chosen: at a clause header for a dependency slot or for WAF, or inside a clause at a held instruction, with the block it awaits at a GWAIT (R37, R38, R165, R421). -/
def State.headerWait (s : State) (u : UnitRef) : Option (Mask × Option Nat) :=
  (s.blk? u.blk).bind fun b => (b.grp? u).bind fun g =>
    if s.mayBegin b g then g.choose.bind fun t =>
      if (s.begin? b u g t).isNone then some (maskOf (g.splitOf t), (s.heldAt b u t).bind id) else none
    else none
/-- One local cycle of a scheduler: the core's counter rises, every ready unit that is not the one served counts the cycle and is promoted when its count reaches A (R168, R177), and the waits of splits that cannot begin are noted (R421). -/
def State.tickCore (s : State) (core sched : Nat) (served : Option UnitRef) : State :=
  let us := s.unitsOn core sched
  let s := s.modCore core fun c => { c with cycle := c.cycle + 1 }
  let s := us.foldl (fun s u => match s.headerWait u with | some m => s.noteWait u m.1 m.2 | none => s) s
  let idle := if sched = 4 then [] else us.filter fun u => some u != served && (s.ready? u).isSome
  let s := idle.foldl (fun s u => s.modGrp u fun g => { g with age := g.age + 1 }) s
  let old := idle.filter fun u => ((s.blk? u.blk).bind fun b => (b.grp? u).map fun g => g.promoted.isNone && decide (s.ageLimit b.ctx ≤ g.age)).getD false
  if old = [] then s else
    { old.foldl (fun t u => t.modGrp u fun g => { g with promoted := some s.nextAdm }) s with nextAdm := s.nextAdm + 1 }

/-! ## An issue attempt (R62) -/

/-- An issue attempt of the unit inside its clause, up to the instruction: the hold limit of the clause, an atomic that holds the split, a breakpoint, the fetch, and the checks of R62 before execution. The instruction is left where there is one to execute. -/
def State.preIssue (s : State) (u : UnitRef) : State × Option Instr :=
  match s.blk? u.blk with
  | none => (s, none)
  | some b =>
    match b.grp? u with
    | none => (s, none)
    | some g0 =>
      if !((s.coreD b.core).cur[g0.sched]? == some (some u)) || g0.stat != .ready || s.issueStopped b.ctx u.isFront
          || (match b.bench with | .none => false | .stopping .. => u.isFront | .out .. => true) || (u.isFront && s.halting b.ctx) then (s, none) else
      let s := (s.meetAll b.core g0.sched).tickCore b.core g0.sched (some u)
      if 64 ≤ g0.hold then (s.breakClause u, none) else
      let s := s.modGrp u (·.join)
      let g := g0.meetings.join
      match g.clauseNow with
      | none => (s, none)
      | some c =>
        let pc := g.pcOf
        if g.atomHeld then (s.holdStep u none, none) else
        if s.atBreakpoint b g then (s.leave u (.stop fcBreak g.runs 0 pc true), none) else
        match s.fetch b.core b.ctx pc with
        | none => (s.takeFault u fcFetch 0 0 0 pc g.runs, none)
        | some w =>
          match aheadOf c.cls u.isFront w with
          | .fault code => (s.takeFault u code 0 0 0 pc g.runs, none)
          | .skip => (s.advance ⟨u, b, g⟩, none)
          | .run i => ({ s with cur := some u }, some i)

/-! ## SCHEDULER_SELECT -/

/-- YIELD lowers a group at the first selection after its clause, and at that one only (R166). -/
def State.clearYields (s : State) (core sched : Nat) : State :=
  (s.unitsOn core sched).foldl (fun s u => s.modGrp u fun g => { g with yielded := false }) s
/-- What a cycle begins with at a clause boundary: meetings, groups on their way to the bench, and debug halts asked for (R159, R422, R436). -/
def State.cycleHead (s : State) (core sched : Nat) : State := (s.unitsOn core sched).foldl (·.debugPend ·) (s.meetAll core sched)
/-- SCHEDULER_SELECT: at a clause boundary the units that a debug halt awaits stop, and the scheduler takes the best ready unit (R152, R166, R436). -/
def execSchedulerSelect (core sched : Nat) (s : State) : Host.Outcome State Fault Refusal :=
  .next <|
    match (s.coreD core).cur[sched]? with
    | some none =>
      let s := s.cycleHead core sched
      match s.select core sched with
      | none => s.tickCore core sched none
      | some (u, t, x) =>
        let s := (s.tickCore core sched (some u)).clearYields core sched
        let s := s.modCore core fun c => { c with cur := c.cur.set sched (some u)
                                                  lastFe := if sched = 4 then ((s.grp? u).elim c.lastFe (·.slot)) else c.lastFe }
        match x with
        | .bad code => (s.modGrp u (·.start t none)).takeFault u code 0 0 0 t.pc (maskOf (((s.grp? u).map (·.splitOf t)).getD []))
        | .cont _ => s.modGrp u (·.start t none)
        | .clause c => s.modGrp u (·.start t (some c))
    | _ => s

end Sys2Proof.Machine
end

