-- ==== Sys2Proof/Machine/Dispatch.lean ====
section
/-! DEFINITION. One arm per instruction: the meaning of each. -/

namespace Sys2Proof.Machine

def exec (i : Instr) (s : State) : Host.Outcome State Fault Refusal :=
  match i with
  | .iadd w => Sys2Proof.Machine.execIadd w s
  | .isub w => Sys2Proof.Machine.execIsub w s
  | .iaddc w m => Sys2Proof.Machine.execIaddc w m s
  | .isubb w m => Sys2Proof.Machine.execIsubb w m s
  | .imul w => Sys2Proof.Machine.execImul w s
  | .imulh w sgn => Sys2Proof.Machine.execImulh w sgn s
  | .imad w => Sys2Proof.Machine.execImad w s
  | .imadw w sgn => Sys2Proof.Machine.execImadw w sgn s
  | .idiv w sgn => Sys2Proof.Machine.execIdiv w sgn s
  | .irem w sgn => Sys2Proof.Machine.execIrem w sgn s
  | .iabs w => Sys2Proof.Machine.execIabs w s
  | .ineg w => Sys2Proof.Machine.execIneg w s
  | .imin w sgn => Sys2Proof.Machine.execImin w sgn s
  | .imax w sgn => Sys2Proof.Machine.execImax w sgn s
  | .iclamp w sgn => Sys2Proof.Machine.execIclamp w sgn s
  | .lea w sh => Sys2Proof.Machine.execLea w sh s
  | .iadd64 w => Sys2Proof.Machine.execIadd64 w s
  | .imad64 w sgn => Sys2Proof.Machine.execImad64 w sgn s
  | .isetp w pd op sgn => Sys2Proof.Machine.execIsetp w pd op sgn s
  | .psetp w m => Sys2Proof.Machine.execPsetp w m s
  | .sel w ps neg => Sys2Proof.Machine.execSel w ps neg s
  | .mov w => Sys2Proof.Machine.execMov w s
  | .movi w => Sys2Proof.Machine.execMovi w s
  | .movp w toPred => Sys2Proof.Machine.execMovp w toPred s
  | .and w => Sys2Proof.Machine.execAnd w s
  | .or w => Sys2Proof.Machine.execOr w s
  | .xor w => Sys2Proof.Machine.execXor w s
  | .andn w => Sys2Proof.Machine.execAndn w s
  | .not w => Sys2Proof.Machine.execNot w s
  | .bmix w t => Sys2Proof.Machine.execBmix w t s
  | .shl w => Sys2Proof.Machine.execShl w s
  | .shr w => Sys2Proof.Machine.execShr w s
  | .sar w => Sys2Proof.Machine.execSar w s
  | .rotl w => Sys2Proof.Machine.execRotl w s
  | .shf w right => Sys2Proof.Machine.execShf w right s
  | .popc w => Sys2Proof.Machine.execPopc w s
  | .clz w => Sys2Proof.Machine.execClz w s
  | .ctz w => Sys2Proof.Machine.execCtz w s
  | .brev w => Sys2Proof.Machine.execBrev w s
  | .bfx w sgn => Sys2Proof.Machine.execBfx w sgn s
  | .bfi w => Sys2Proof.Machine.execBfi w s
  | .bswz w => Sys2Proof.Machine.execBswz w s
  | .iaddImm w => Sys2Proof.Machine.execIaddImm w s
  | .imulImm w => Sys2Proof.Machine.execImulImm w s
  | .andImm w => Sys2Proof.Machine.execAndImm w s
  | .orImm w => Sys2Proof.Machine.execOrImm w s
  | .xorImm w => Sys2Proof.Machine.execXorImm w s
  | .shlImm w => Sys2Proof.Machine.execShlImm w s
  | .shrImm w => Sys2Proof.Machine.execShrImm w s
  | .sarImm w => Sys2Proof.Machine.execSarImm w s
  | .fadd w r => Sys2Proof.Machine.execFadd w r s
  | .fmul w r => Sys2Proof.Machine.execFmul w r s
  | .ffma w r => Sys2Proof.Machine.execFfma w r s
  | .fmin w => Sys2Proof.Machine.execFmin w s
  | .fmax w => Sys2Proof.Machine.execFmax w s
  | .frnd w r => Sys2Proof.Machine.execFrnd w r s
  | .fclass w => Sys2Proof.Machine.execFclass w s
  | .fsetp w pd op fmt => Sys2Proof.Machine.execFsetp w pd op fmt s
  | .hadd2 w bf r => Sys2Proof.Machine.execHadd2 w bf r s
  | .hmul2 w bf r => Sys2Proof.Machine.execHmul2 w bf r s
  | .hfma2 w bf r => Sys2Proof.Machine.execHfma2 w bf r s
  | .frcp w r => Sys2Proof.Machine.execFrcp w r s
  | .frsq w => Sys2Proof.Machine.execFrsq w s
  | .fsqrt w r => Sys2Proof.Machine.execFsqrt w r s
  | .fexp2 w => Sys2Proof.Machine.execFexp2 w s
  | .flog2 w => Sys2Proof.Machine.execFlog2 w s
  | .ftanh w => Sys2Proof.Machine.execFtanh w s
  | .cvt w dst src r => Sys2Proof.Machine.execCvt w dst src r s
  | .ncvt w dst src r => Sys2Proof.Machine.execNcvt w dst src r s
  | .ndec w dst src r => Sys2Proof.Machine.execNdec w dst src r s
  | .bra g ofs => Sys2Proof.Machine.execBra g ofs s
  | .brx w => Sys2Proof.Machine.execBrx w s
  | .ret w => Sys2Proof.Machine.execRet w s
  | .call g link ofs => Sys2Proof.Machine.execCall g link ofs s
  | .callx w => Sys2Proof.Machine.execCallx w s
  | .meet g ofs => Sys2Proof.Machine.execMeet g ofs s
  | .exit g => Sys2Proof.Machine.execExit g s
  | .yield g => Sys2Proof.Machine.execYield g s
  | .nop g => Sys2Proof.Machine.execNop g s
  | .hint n payload => Sys2Proof.Machine.execHint n payload s
  | .sread w sticky => Sys2Proof.Machine.execSread w sticky s
  | .swrite w sticky => Sys2Proof.Machine.execSwrite w sticky s
  | .shfl w m => Sys2Proof.Machine.execShfl w m s
  | .vote w pd op ps neg => Sys2Proof.Machine.execVote w pd op ps neg s
  | .ballot w ps neg => Sys2Proof.Machine.execBallot w ps neg s
  | .elect w pd => Sys2Proof.Machine.execElect w pd s
  | .actmask w => Sys2Proof.Machine.execActmask w s
  | .matchLanes w wide => Sys2Proof.Machine.execMatchLanes w wide s
  | .redux w op sgn => Sys2Proof.Machine.execRedux w op sgn s
  | .scan w op excl sgn => Sys2Proof.Machine.execScan w op excl sgn s
  | .nscale w t6 => Sys2Proof.Machine.execNscale w t6 s
  | .bar w => Sys2Proof.Machine.execBar w s
  | .cbar w => Sys2Proof.Machine.execCbar w s
  | .qtry w pd => Sys2Proof.Machine.execQtry w pd s
  | .qcfg w => Sys2Proof.Machine.execQcfg w s
  | .qlen w => Sys2Proof.Machine.execQlen w s
  | .ptok w => Sys2Proof.Machine.execPtok w s
  | .trayw w => Sys2Proof.Machine.execTrayw w s
  | .ssel w => Sys2Proof.Machine.execSsel w s
  | .chsend w up => Sys2Proof.Machine.execChsend w up s
  | .chrecv w up => Sys2Proof.Machine.execChrecv w up s
  | .rtlaunch w => Sys2Proof.Machine.execRtlaunch w s
  | .rtclaim w pd => Sys2Proof.Machine.execRtclaim w pd s
  | .gsig w => Sys2Proof.Machine.execGsig w s
  | .gwait w => Sys2Proof.Machine.execGwait w s
  | .lds w sx => Sys2Proof.Machine.execLds w sx s
  | .ldp w sx => Sys2Proof.Machine.execLdp w sx s
  | .ldk w sx => Sys2Proof.Machine.execLdk w sx s
  | .sts w => Sys2Proof.Machine.execSts w s
  | .stp w => Sys2Proof.Machine.execStp w s
  | .stk w => Sys2Proof.Machine.execStk w s
  | .atom w sp op => Sys2Proof.Machine.execAtom w sp op s
  | .acas w sp => Sys2Proof.Machine.execAcas w sp s
  | .presw w set => Sys2Proof.Machine.execPresw w set s
  | .presq w => Sys2Proof.Machine.execPresq w s
  | .fence w => Sys2Proof.Machine.execFence w s
  | .bbinit w => Sys2Proof.Machine.execBbinit w s
  | .bbexp w => Sys2Proof.Machine.execBbexp w s
  | .bbarv w => Sys2Proof.Machine.execBbarv w s
  | .bbwait w => Sys2Proof.Machine.execBbwait w s
  | .tlread w => Sys2Proof.Machine.execTlread w s
  | .tlwait w => Sys2Proof.Machine.execTlwait w s
  | .trec w => Sys2Proof.Machine.execTrec w s
  | .cpy w src => Sys2Proof.Machine.execCpy w src s
  | .cpys w src => Sys2Proof.Machine.execCpys w src s
  | .cpyg w src => Sys2Proof.Machine.execCpyg w src s
  | .cpyc w src => Sys2Proof.Machine.execCpyc w src s
  | .wstreamStart w => Sys2Proof.Machine.execWstreamStart w s
  | .wstreamRel w => Sys2Proof.Machine.execWstreamRel w s
  | .wstreamStop w => Sys2Proof.Machine.execWstreamStop w s
  | .mwld w => Sys2Proof.Machine.execMwld w s
  | .mloop w => Sys2Proof.Machine.execMloop w s
  | .mrowsc w => Sys2Proof.Machine.execMrowsc w s
  | .mdrain w => Sys2Proof.Machine.execMdrain w s
  | .mzero w => Sys2Proof.Machine.execMzero w s
  | .mstat w clr => Sys2Proof.Machine.execMstat w clr s
  | .aseq w => Sys2Proof.Machine.execAseq w s
  | .atile w => Sys2Proof.Machine.execAtile w s
  | .amask w => Sys2Proof.Machine.execAmask w s
  | .svmap w => Sys2Proof.Machine.execSvmap w s
  | .svset w => Sys2Proof.Machine.execSvset w s
  | .svclr w => Sys2Proof.Machine.execSvclr w s
  | .dsread w sel => Sys2Proof.Machine.execDsread w sel s
  | .dscommit w => Sys2Proof.Machine.execDscommit w s
  | .dstruncFrame w => Sys2Proof.Machine.execDstruncFrame w s
  | .dstruncPos w => Sys2Proof.Machine.execDstruncPos w s
  | .dsckptSave w => Sys2Proof.Machine.execDsckptSave w s
  | .dsckptRel w => Sys2Proof.Machine.execDsckptRel w s
  | .hnew w => Sys2Proof.Machine.execHnew w s
  | .hcopy w => Sys2Proof.Machine.execHcopy w s
  | .hdrop w => Sys2Proof.Machine.execHdrop w s
  | .hbind w => Sys2Proof.Machine.execHbind w s
  | .hderef w => Sys2Proof.Machine.execHderef w s
  | .hwt w => Sys2Proof.Machine.execHwt w s
  | .collAr w => Sys2Proof.Machine.execCollAr w s
  | .collAg w => Sys2Proof.Machine.execCollAg w s
  | .collRs w => Sys2Proof.Machine.execCollRs w s
  | .xsigSet w => Sys2Proof.Machine.execXsigSet w s
  | .xsigAdd w => Sys2Proof.Machine.execXsigAdd w s
  | .trap w => Sys2Proof.Machine.execTrap w s
  | .svc w => Sys2Proof.Machine.execSvc w s
  | .bkpt w => Sys2Proof.Machine.execBkpt w s
  | .statrd w ix => Sys2Proof.Machine.execStatrd w ix s
  | .statclr w ix => Sys2Proof.Machine.execStatclr w ix s
  | .schedulerSelect core sched => Sys2Proof.Machine.execSchedulerSelect core sched s
  | .fairnessTimerExpiry blk g => Sys2Proof.Machine.execFairnessTimerExpiry blk g s
  | .ageingPromotion blk g => Sys2Proof.Machine.execAgeingPromotion blk g s
  | .clauseBreak u => Sys2Proof.Machine.execClauseBreak u s
  | .meetingRelease blk g addr => Sys2Proof.Machine.execMeetingRelease blk g addr s
  | .registerFill id => Sys2Proof.Machine.execRegisterFill id s
  | .sqDeparture u => Sys2Proof.Machine.execSqDeparture u s
  | .ocDelivery core slice => Sys2Proof.Machine.execOcDelivery core slice s
  | .tlbWalkComplete tlb ctx va => Sys2Proof.Machine.execTlbWalkComplete tlb ctx va s
  | .blockAdmission grid => Sys2Proof.Machine.execBlockAdmission grid s
  | .blockEnd blk => Sys2Proof.Machine.execBlockEnd blk s
  | .idleRequest grid core => Sys2Proof.Machine.execIdleRequest grid core s
  | .gwaitBenchDelayExpiry blk => Sys2Proof.Machine.execGwaitBenchDelayExpiry blk s
  | .blockReturn blk => Sys2Proof.Machine.execBlockReturn blk s
  | .gwaitLimitExpiry u => Sys2Proof.Machine.execGwaitLimitExpiry u s
  | .holdLimitExpiry u => Sys2Proof.Machine.execHoldLimitExpiry u s
  | .groupReturn blk g => Sys2Proof.Machine.execGroupReturn blk g s
  | .copyTile blk ctx st => Sys2Proof.Machine.execCopyTile blk ctx st s
  | .copyLineLanding blk ctx no line => Sys2Proof.Machine.execCopyLineLanding blk ctx no line s
  | .engineOperationComplete blk e no => Sys2Proof.Machine.execEngineOperationComplete blk e no s
  | .matrixOperationBegin core drain => Sys2Proof.Machine.execMatrixOperationBegin core drain s
  | .matrixKstep core => Sys2Proof.Machine.execMatrixKstep core s
  | .mdrainLineLanding blk no line => Sys2Proof.Machine.execMdrainLineLanding blk no line s
  | .attentionGatherBlock st => Sys2Proof.Machine.execAttentionGatherBlock st s
  | .shelfReservation grid => Sys2Proof.Machine.execShelfReservation grid s
  | .pageSenseDone sense res => Sys2Proof.Machine.execPageSenseDone sense res s
  | .pageBackingFetchDone sense => Sys2Proof.Machine.execPageBackingFetchDone sense s
  | .wstreamLayerStart blk => Sys2Proof.Machine.execWstreamLayerStart blk s
  | .dropMessageArrival core home => Sys2Proof.Machine.execDropMessageArrival core home s
  | .bindMessageArrival core home => Sys2Proof.Machine.execBindMessageArrival core home s
  | .finaliserStart => Sys2Proof.Machine.execFinaliserStart s
  | .collectiveJoin blk st remote => Sys2Proof.Machine.execCollectiveJoin blk st remote s
  | .frameWindowWrite ctx ofs bytes => Sys2Proof.Machine.execFrameWindowWrite ctx ofs bytes s
  | .frameArrival => Sys2Proof.Machine.execFrameArrival s
  | .q17Push blk => Sys2Proof.Machine.execQ17Push blk s
  | .queueNotify ctx q idx => Sys2Proof.Machine.execQueueNotify ctx q idx s
  | .queueSlotAssign => Sys2Proof.Machine.execQueueSlotAssign s
  | .packetFetch slot => Sys2Proof.Machine.execPacketFetch slot s
  | .tagRefetch slot => Sys2Proof.Machine.execTagRefetch slot s
  | .nopPacket slot => Sys2Proof.Machine.execNopPacket slot s
  | .launch slot => Sys2Proof.Machine.execLaunch slot s
  | .launchPages slot => Sys2Proof.Machine.execLaunchPages slot s
  | .range slot => Sys2Proof.Machine.execRange slot s
  | .resume slot => Sys2Proof.Machine.execResume slot s
  | .save slot => Sys2Proof.Machine.execSave slot s
  | .ib slot => Sys2Proof.Machine.execIb slot s
  | .pred slot => Sys2Proof.Machine.execPred slot s
  | .loop slot => Sys2Proof.Machine.execLoop slot s
  | .wait slot => Sys2Proof.Machine.execWait slot s
  | .waitPoll slot => Sys2Proof.Machine.execWaitPoll slot s
  | .waitPark slot => Sys2Proof.Machine.execWaitPark slot s
  | .parkedWaitPoll ctx q => Sys2Proof.Machine.execParkedWaitPoll ctx q s
  | .waitStall ctx q => Sys2Proof.Machine.execWaitStall ctx q s
  | .signal slot => Sys2Proof.Machine.execSignal slot s
  | .fetchFence slot => Sys2Proof.Machine.execFetchFence slot s
  | .complete slot => Sys2Proof.Machine.execComplete slot s
  | .packetRetire ctx q => Sys2Proof.Machine.execPacketRetire ctx q s
  | .completionQueueWrite ctx cq => Sys2Proof.Machine.execCompletionQueueWrite ctx cq s
  | .cqTimerExpiry ctx cq => Sys2Proof.Machine.execCqTimerExpiry ctx cq s
  | .cqread ctx cq idx => Sys2Proof.Machine.execCqread ctx cq idx s
  | .fqread ctx idx => Sys2Proof.Machine.execFqread ctx idx s
  | .faultRecordPost ctx => Sys2Proof.Machine.execFaultRecordPost ctx s
  | .svcreply ctx idx => Sys2Proof.Machine.execSvcreply ctx idx s
  | .faultAnswerResume ctx idx => Sys2Proof.Machine.execFaultAnswerResume ctx idx s
  | .faultAnswerAbandon ctx idx => Sys2Proof.Machine.execFaultAnswerAbandon ctx idx s
  | .haltSequence part => Sys2Proof.Machine.execHaltSequence part s
  | .stopRecordWrite part => Sys2Proof.Machine.execStopRecordWrite part s
  | .contextHalted part => Sys2Proof.Machine.execContextHalted part s
  | .breakpointTrigger u => Sys2Proof.Machine.execBreakpointTrigger u s
  | .debugGroupHalt blk g => Sys2Proof.Machine.execDebugGroupHalt blk g s
  | .debugResume u => Sys2Proof.Machine.execDebugResume u s
  | .breakpointSet ctx addrs => Sys2Proof.Machine.execBreakpointSet ctx addrs s
  | .translationInvalidate ctx base pages => Sys2Proof.Machine.execTranslationInvalidate ctx base pages s
  | .invalidateComplete => Sys2Proof.Machine.execInvalidateComplete s
  | .flashWriteRequest host src page count => Sys2Proof.Machine.execFlashWriteRequest host src page count s
  | .flashWriteDone => Sys2Proof.Machine.execFlashWriteDone s
  | .attestationRequest nonce => Sys2Proof.Machine.execAttestationRequest nonce s
  | .lifecycleRequest tgt => Sys2Proof.Machine.execLifecycleRequest tgt s
  | .queueRestart ctx q idx => Sys2Proof.Machine.execQueueRestart ctx q idx s
  | .contextDestroy ctx => Sys2Proof.Machine.execContextDestroy ctx s
  | .registerWrite r v => Sys2Proof.Machine.execRegisterWrite r v s
  | .heartbeatSend core => Sys2Proof.Machine.execHeartbeatSend core s
  | .heartbeatWindowExpiry core => Sys2Proof.Machine.execHeartbeatWindowExpiry core s
  | .watchdogReport => Sys2Proof.Machine.execWatchdogReport s
  | .watchdogExpiry => Sys2Proof.Machine.execWatchdogExpiry s
  | .resetBoot good => Sys2Proof.Machine.execResetBoot good s
  | .clockThrottleStep core => Sys2Proof.Machine.execClockThrottleStep core s
  | .scrubTick level inst => Sys2Proof.Machine.execScrubTick level inst s
  | .linkFlitReplay link => Sys2Proof.Machine.execLinkFlitReplay link s
  | .linkRouteLost pkg => Sys2Proof.Machine.execLinkRouteLost pkg s
  | .linkTimeout pkg => Sys2Proof.Machine.execLinkTimeout pkg s
  | .softError p correctable => Sys2Proof.Machine.execSoftError p correctable s
  | .bar4Write ofs bytes => Sys2Proof.Machine.execBar4Write ofs bytes s

end Sys2Proof.Machine
end

