-- ==== Sys2Proof/Machine/Place.lean ====
section
/-! DEFINITION. A word placed where the next step fetches: a context, a page table, a kernel and a block of one thread whose clause holds the word (log 4). -/

namespace Sys2Proof.Machine

/-- Where the placed clause stands, both as virtual and physical address. -/
def placeHdr : Nat := 0x30000
/-- The kernel that the placed block runs: one region with its map. -/
def placeKd : KDesc :=
  { energy := 0, stages := 1, gbase := BitVec.ofNat 56 placeHdr, glen := 64, gmap := 0x40000#56, fbase := BitVec.ofNat 56 placeHdr, flen := 64,
    fmap := 0x40000#56, mode := 0, vars := [⟨0, placeHdr, placeHdr, 32, 256, 4096⟩] }
/-- The grid of the placed block: one block of one thread. -/
def placeGrid (id : Nat) : Grid :=
  { id := id, ctx := 0, kind := .index, fin := false, kd := placeKd, var := 0, pkt := zerosB 128, faultPolicy := false,
    shelves := 0, clusters := 1, bpc := 1, tpb := 1, nblocks := 1, grt := 0, stream := 0, args := List.replicate 8 0, plist := 0, pmap := [0],
    nextClu := 1, nextStage := 0, results := [(0, .pending)], recs := [], created := 1, nextPage := 0, promo := [], pages := [], pagesDone := [],
    pgStop := false, owner := none }
/-- The bytes placed: the table of one 512 MiB page, the header, the word, and the map that marks the header and the word after the clause as clause starts. -/
def State.placeBytes (s : State) (hdr w : Nat) : State :=
  let put (s : State) (a n x : Nat) : State := s.wr (kHbm s.pkg a) (leBytes n x)
  put (put (put (put (put s 0x10000 8 (2 ^ 63 + 0x20000)) 0x20000 8 (2 ^ 63 + 2 ^ 62 + 2 ^ 60)) placeHdr 8 hdr) (placeHdr + 8) 8 w) 0x40000 1 5
/-- Places a word of class `c` and puts a block at it: the next turn is the issue of that block's first group, or of its front-end thread for class S. -/
def State.place (s : State) (c : Cls) (hdr w : Nat) : State :=
  let uid := s.nextUid
  let g := placeGrid uid
  let v : Variant := placeKd.vars.headD ⟨0, 0, 0, 16, 0, 0⟩
  let u : UnitRef := if c = .S then .front uid else .group uid 0
  let cl : ClauseCtx := ⟨BitVec.ofNat 56 placeHdr, c, 1, .computer, false⟩
  let enter (x : Grp) : Grp := { x.modThread 0 (fun t => { t with pc := BitVec.ofNat 56 (placeHdr + 8), cl := some cl }) with runs := 1 }
  let b := mkBlock uid g v 0 ⟨0, 0, 0, 0xFFFFFFFF, 0, false⟩ [(0, 0)] 0 s.nextAdm
  let s := s.placeBytes hdr w
  let s := s.modCtx 0 fun x => { x with rcd := { x.rcd with root := 0x10000 } }
  let s := { s with grids := g :: s.grids, blocks := (b.modGrp u enter) :: s.blocks, nextUid := uid + 1, nextAdm := s.nextAdm + 1, agenda := .issue u :: s.agenda }
  s.modCore 0 fun x => { x with cur := x.cur.set (if c = .S then 4 else 0) (some u), tlb := [] }

/-- Whom the model lets move when the agenda is empty: on core `curCore` the unit inside a clause, else the first scheduler with a unit that is ready once its cycle has begun, and where none has, each in its turn (log 1). -/
def State.autoTurn (s : State) : Turn :=
  match (s.coreD s.curCore).cur.findSome? id with
  | some u => .issue u
  | none => .event (.schedulerSelect s.curCore (((List.range 5).find? fun k => ((s.cycleHead s.curCore k).select s.curCore k).isSome).getD ((s.cycleOf s.curCore).toNat % 5)))

end Sys2Proof.Machine
end

