-- ==== Sys2Proof/Machine/Step.lean ====
section
/-! DEFINITION. One step of the machine: the next turn of the agenda, an event or an issue attempt (log 1). -/

namespace Sys2Proof.Machine

/-- An issue attempt of a unit: the checks before execution, then the instruction's meaning. -/
def issue (u : UnitRef) (s : State) : Host.Outcome State Fault Refusal :=
  match s.preIssue u with
  | (t, some i) => exec i t
  | (t, none) => .next t

/-- A turn. -/
def turn (x : Turn) (s : State) : Host.Outcome State Fault Refusal :=
  match x with
  | .event i => exec i s
  | .issue u => issue u s

/-- One step. -/
def step (s : State) : Host.Outcome State Fault Refusal :=
  match s.agenda with
  | x :: r => turn x { s with agenda := r, cur := none }
  | [] => turn s.autoTurn { s with cur := none }

/-- The state with an instruction where the next step fetches (log 4): up to 64 bits a V-class word; above, a clause header and the word. -/
def State.withFetchWord (s : State) (nbits w : Nat) : State :=
  if nbits ≤ 64 then s.place .V 0x2000000000000000 (w % 2 ^ 64)
  else match (headerOf (BitVec.ofNat 64 w)).cls with
    | some c => s.place c (w % 2 ^ 64) (w / 2 ^ 64 % 2 ^ 64)
    | none => s.place .V (w % 2 ^ 64) (w / 2 ^ 64 % 2 ^ 64)

end Sys2Proof.Machine
end

