-- ==== Sys2Proof/Safety.lean ====
section
/-! DEFINITION. What counts as a safe run, in the terms that statements use. -/

namespace Sys2Proof

/-- The step ends in a next state. -/
def goesOn (s : Machine.State) : Prop := ∃ t, Machine.step s = .next t
/-- Memory keeps its canonical form. -/
def memCanonical (s : Machine.State) : Prop := Machine.memWf s.mem = true
/-- No unit of the partition of context `c` raised a halting fault. -/
def notHalting (s : Machine.State) (c : Nat) : Prop := s.halting c = false

end Sys2Proof

namespace Sys2Proof.Spec

open Sys2Proof.Machine

/-- A thread of a unit. -/
def thr? (s : State) (u : UnitRef) (l : Nat) : Option Thread := (s.grp? u).bind (·.threads[l]?)
/-- A register of a thread of a unit. -/
def reg? (s : State) (u : UnitRef) (l r : Nat) : Option Reg := (thr? s u l).bind (·.regs[r]?)
/-- What an instruction may change in a thread besides its registers, its place and its ports: predicates, mode, sticky and pending bits, meeting registers, and accesses on their way. -/
def ctl (t : Thread) : BitVec 7 × Word × Word × BitVec 7 × VAddr × List VAddr × List Nat :=
  (t.preds, t.mode, t.sticky, t.pend, t.mr, t.mstk, t.unp)
/-- Everything a block holds for its engines and for its shared space. -/
def engines (b : Block) : List RSlot × List CopyCtx × MCtx × ACtx × PCtx × CollCtx × HCtx × BitVec 16 × List Nat × List PWord × Nat :=
  (b.recs, b.copies, b.matrix, b.attn, b.pagec, b.coll, b.handle, b.slots, b.absent, b.bcast, b.shared)

/-! ### What results leave, and what stays -/

/-- The result that a register takes from the lanes' results, if it is a destination of a lane that stays. -/
def newReg (dst : Option Dest) (outs : List (Nat × LaneOut)) (l r : Nat) : Option Reg :=
  (outs.find? (·.1 == l)).bind fun o => dst.bind fun d =>
    match opKind d.f, o.2.dst with
    | .reg k, some ws => if o.2.retire then none else if k ≤ r then (ws[r - k]?).map fun w => ⟨w.v, w.p, .full⟩ else none
    | _, _ => none
/-- A thread's predicates, mode, sticky and pending bits after its lane's result. -/
def newCtl (o : LaneOut) (t : Thread) : Thread :=
  if o.retire then t else
  let t := o.preds.foldl (fun t p => t.setPred p.1 p.2) t
  let t := match o.setPreds with | some p => { t with preds := p } | none => t
  let t := match o.setMode with | some m => { t with mode := m } | none => t
  let t := match o.setSticky with | some m => { t with sticky := m } | none => t
  t.setFlags o.flags
/-- Shared bytes that the results' pushes store to: the places of the ring from its tail on. -/
def pushedAt (s : State) (u : UnitRef) (dst : Option Dest) (outs : List (Nat × LaneOut)) : List Nat :=
  match dst with
  | none => []
  | some d => match opKind d.f with
    | .port q => match (s.blk? u.blk).bind (·.ring? q) with
      | some r => (List.range (pushCount d outs)).map fun i => kShared u.blk (r.place (r.tail + i))
      | none => []
    | _ => []

/-- Every thread keeps its registers and control bits but for what the lanes' results leave in unit `u`. -/
def Wrote (s t : State) (u : UnitRef) (dst : Option Dest) (outs : List (Nat × LaneOut)) : Prop :=
  (∀ u' l r, reg? t u' l r =
    match (if u' = u then newReg dst outs l r else none) with
    | some x => (reg? s u' l r).map fun _ => x
    | none => reg? s u' l r) ∧
  (∀ u' l, (thr? t u' l).map ctl = (thr? s u' l).map fun x =>
    match (if u' = u then outs.find? (·.1 == l) else none) with
    | some o => ctl (newCtl o.2 x)
    | none => ctl x)
/-- No engine register, slot, presence bit or broadcast copy of a block changes. -/
def SameEngines (s t : State) : Prop := ∀ n, (t.blk? n).map engines = (s.blk? n).map engines
/-- No context record changes. -/
def SameRecords (s t : State) : Prop := ∀ c, (t.ctxD c).rcd = (s.ctxD c).rcd
/-- Nothing changes outside memory, blocks, cores, partitions, contexts and cluster barriers. -/
def SameRest (s t : State) : Prop :=
  { t with mem := s.mem, granErr := s.granErr, wordPsn := s.wordPsn, wordErr := s.wordErr, blocks := s.blocks, cores := s.cores, parts := s.parts, ctxs := s.ctxs, cbars := s.cbars } = s
/-- The whole effect of lanes' results: registers and control bits, no engine, no byte but the ring places pushed, no record. -/
def Effect (s s1 t : State) (u : UnitRef) (dst : Option Dest) (outs : List (Nat × LaneOut)) : Prop :=
  Wrote s t u dst outs ∧ SameEngines s t ∧
    (∀ a, (∀ k ∈ pushedAt s1 u dst outs, a < k ∨ k + 4 ≤ a) → memGet t.mem a = memGet s.mem a) ∧ SameRecords s t ∧ SameRest s t
/-- No register, control bit, engine register, byte of memory or record changes. -/
def SameData (s t : State) : Prop := Wrote s t (.front 0) none [] ∧ SameEngines s t ∧ t.mem = s.mem ∧ SameRecords s t

end Sys2Proof.Spec
end

