-- ==== Sys2Proof/Certificates/Slice0/Obligations.lean ====
section
/-! DEFINITION. The statements about the Dyide-7 model, with the tables and observations they are made of. -/

/-! ## What the statements observe -/

namespace Sys2Proof.Spec

open Sys2Proof.Machine

/-! ### Register instructions: the fields each uses and each lane's result -/

/-- A register instruction: its guard, the fields it uses, and what the active lanes' inputs leave in each lane. -/
structure RegRow where
  g : Guard
  uses : Uses
  out : State → View → List LaneIn → List (Nat × LaneOut)

/-- `nd` words from sources a, b, c of the widths given (0: not used); a poisoned source word poisons the result and sets PSN (R26). -/
def aRow (w : WA) (nd na nb nc : Nat) (f : LaneIn → List Word × Flg) : Option RegRow :=
  some ⟨w.g, { src := [srcA w na, srcB w nb, srcC w nc].filter (·.n != 0), dst := some ⟨w.d, nd⟩ },
    fun _ _ ins => ins.map fun x => (x.lane, if x.psn then { dst := some (List.replicate nd ⟨0, true⟩), flags := fPSN }
      else { dst := some ((f x).1.map fun y => ⟨y, false⟩), flags := (f x).2 })⟩
def aRow1 (w : WA) (f : Word → Word) : Option RegRow := aRow w 1 1 0 0 fun x => ([f (x.w 0).v], 0)
def aRow2 (w : WA) (f : Word → Word → Word) : Option RegRow := aRow w 1 1 1 0 fun x => ([f (x.w 0).v (x.w 1).v], 0)
def aRow3 (w : WA) (f : Word → Word → Word → Word) : Option RegRow := aRow w 1 1 1 1 fun x => ([f (x.w 0).v (x.w 1).v (x.w 2).v], 0)
/-- An immediate form (R93). -/
def iRow (w : WI) (f : Word → Word → Word) : Option RegRow :=
  some ⟨w.g, { src := [⟨w.a, 1, w.eta, false⟩], dst := some ⟨w.d, 1⟩ },
    fun _ _ ins => ins.map fun x => (x.lane, if x.psn then { dst := some [⟨0, true⟩], flags := fPSN } else { dst := some [⟨f (x.w 0).v w.imm, false⟩] })⟩
/-- An instruction whose lanes do not act on one another. -/
def eachRow (g : Guard) (u : Uses) (f : LaneIn → LaneOut) : Option RegRow := some ⟨g, u, fun _ _ ins => ins.map fun x => (x.lane, f x)⟩
/-- A comparison: a predicate, or the lane's retirement where a source is poisoned and the predicate is not p7 (R27). -/
def cmpOut (x : LaneIn) (pd : PNum) (p : Bool) (fl : Flg) : LaneOut :=
  if x.psn then (if pd = 7#3 then { flags := fPSN } else { retire := true }) else { preds := [(pd, p)], flags := fl }
/-- A word with a carry (R94). -/
def carryOut (x : LaneIn) (pd : PNum) (r : Word × Bool) : LaneOut :=
  if x.psn then (if pd = 7#3 then { dst := some [⟨0, true⟩], flags := fPSN } else { retire := true })
  else { dst := some [⟨r.1, false⟩], preds := [(pd, r.2)] }
/-- One FP32 result with its flags. -/
def fOut (r : Nat × Flg) : List Word × Flg := ([BitVec.ofNat 32 r.1], r.2)
/-- A word to every lane. -/
def allOut (ins : List LaneIn) (x : Word) : List (Nat × LaneOut) := ins.map fun i => (i.lane, { dst := some [⟨x, false⟩] })

/-- The register instructions: spec/04 for the arithmetic, spec/07 R183 to R187 for the lanes of a group, spec/17 R440 for the status items. -/
def regRow : Instr → Option RegRow
  | .iadd w => aRow2 w fun a b => BitVec.ofNat 32 (a.toNat + b.toNat)
  | .isub w => aRow2 w fun a b => BitVec.ofInt 32 ((a.toNat : Int) - b.toNat)
  | .iaddc w m => eachRow w.g { src := [srcA w, srcB w], dst := some ⟨w.d, 1⟩ } fun x =>
      carryOut x m.pd (addCarry (x.w 0).v (x.w 1).v (predOf x.preds m.ps ^^ m.neg))
  | .isubb w m => eachRow w.g { src := [srcA w, srcB w], dst := some ⟨w.d, 1⟩ } fun x =>
      carryOut x m.pd (subBorrow (x.w 0).v (x.w 1).v (predOf x.preds m.ps ^^ m.neg))
  | .imul w => aRow2 w fun a b => BitVec.ofNat 32 (a.toNat * b.toNat)
  | .imulh w g => aRow2 w fun a b => hi32 (BitVec.ofInt 64 (extI g a * extI g b))
  | .imad w => aRow3 w fun a b c => BitVec.ofNat 32 (a.toNat * b.toNat + c.toNat)
  | .imadw w g => aRow w 2 1 1 2 fun x => (words2 (BitVec.ofInt 64 (extI g (x.w 0).v * extI g (x.w 1).v) + x.d 2), 0)
  | .idiv w g => aRow w 1 1 1 0 fun x => ([(divRem g (x.w 0).v (x.w 1).v).1], (divRem g (x.w 0).v (x.w 1).v).2.2)
  | .irem w g => aRow w 1 1 1 0 fun x => ([(divRem g (x.w 0).v (x.w 1).v).2.1], (divRem g (x.w 0).v (x.w 1).v).2.2)
  | .iabs w => aRow1 w fun a => if a.toInt < 0 then -a else a
  | .ineg w => aRow1 w fun a => -a
  | .imin w g => aRow2 w fun a b => if extI g b < extI g a then b else a
  | .imax w g => aRow2 w fun a b => if extI g a < extI g b then b else a
  | .iclamp w g => aRow3 w fun a b c => minW g (maxW g a b) c
  | .lea w sh => aRow w 2 2 1 0 fun x => (words2 (x.d 0 + ((x.w 1).v.setWidth 64 <<< sh.toNat)), 0)
  | .iadd64 w => aRow w 2 2 2 0 fun x => (words2 (x.d 0 + x.d 1), 0)
  | .imad64 w g => aRow w 2 2 1 2 fun x => (words2 (x.d 2 + x.d 0 * BitVec.ofInt 64 (extI g (x.w 1).v)), 0)
  | .isetp w pd op g => eachRow w.g { src := [srcA w, srcB w] } fun x => cmpOut x pd (cmpHolds op (ordW g (x.w 0).v (x.w 1).v)) 0
  | .psetp w m => eachRow w.g {} fun x => { preds := [(m.pd, plogic m.op (predOf x.preds m.pa) (predOf x.preds m.pb))] }
  | .sel w ps neg => eachRow w.g { src := [srcA w, srcB w], dst := some ⟨w.d, 1⟩ } fun x =>
      let y := if predOf x.preds ps ^^ neg then x.w 0 else x.w 1
      if y.p then { dst := some [⟨0, true⟩], flags := fPSN } else { dst := some [y] }
  | .mov w => aRow1 w fun a => a
  | .movi w => eachRow w.g { dst := some ⟨w.d, 1⟩ } fun _ => { dst := some [⟨w.imm, false⟩] }
  | .movp w true => eachRow w.g { src := [srcA w] } fun x => if x.psn then { retire := true } else { setPreds := some ((x.w 0).v.setWidth 7) }
  | .movp w false => eachRow w.g { dst := some ⟨w.d, 1⟩ } fun x => { dst := some [⟨x.preds.setWidth 32, false⟩] }
  | .and w => aRow2 w fun a b => a &&& b
  | .or w => aRow2 w fun a b => a ||| b
  | .xor w => aRow2 w fun a b => a ^^^ b
  | .andn w => aRow2 w fun a b => a &&& ~~~b
  | .not w => aRow1 w fun a => ~~~a
  | .bmix w t => aRow3 w (bmixW t)
  | .shl w => aRow2 w shlW
  | .shr w => aRow2 w shrW
  | .sar w => aRow2 w sarW
  | .rotl w => aRow2 w fun a b => a.rotateLeft (b.toNat % 32)
  | .shf w r => aRow3 w (shfW r)
  | .popc w => aRow1 w fun a => BitVec.ofNat 32 (popcW a)
  | .clz w => aRow1 w fun a => BitVec.ofNat 32 (clzW a)
  | .ctz w => aRow1 w fun a => BitVec.ofNat 32 (ctzW a)
  | .brev w => aRow1 w brevW
  | .bfx w g => aRow2 w (bfxW g)
  | .bfi w => aRow3 w bfiW
  | .bswz w => aRow3 w bswzW
  | .iaddImm w => iRow w fun a b => BitVec.ofNat 32 (a.toNat + b.toNat)
  | .imulImm w => iRow w fun a b => BitVec.ofNat 32 (a.toNat * b.toNat)
  | .andImm w => iRow w fun a b => a &&& b
  | .orImm w => iRow w fun a b => a ||| b
  | .xorImm w => iRow w fun a b => a ^^^ b
  | .shlImm w => iRow w shlW
  | .shrImm w => iRow w shrW
  | .sarImm w => iRow w sarW
  | .fadd w r => aRow w 1 1 1 0 fun x => fOut (f32.addV (roundOf r x.mode) (x.f 0) (x.f 1))
  | .fmul w r => aRow w 1 1 1 0 fun x => fOut (f32.mulV (roundOf r x.mode) (x.f 0) (x.f 1))
  | .ffma w r => aRow w 1 1 1 1 fun x => fOut (f32.fmaV (roundOf r x.mode) (x.f 0) (x.f 1) (x.f 2))
  | .fmin w => aRow w 1 1 1 0 fun x => fOut (f32.minmax false (x.w 0).v.toNat (x.w 1).v.toNat)
  | .fmax w => aRow w 1 1 1 0 fun x => fOut (f32.minmax true (x.w 0).v.toNat (x.w 1).v.toNat)
  | .frnd w r => aRow w 1 1 0 0 fun x => fOut (f32.rint (roundOf r x.mode) (x.w 0).v.toNat)
  | .fclass w => aRow1 w fun a => BitVec.ofNat 32 (fclassOf a.toNat)
  | .fsetp w pd op k => eachRow w.g { src := [srcA w, srcB w] } fun x =>
      let r := (Fmt.of k).compare op ((x.w 0).v.toNat % 2 ^ (Fmt.of k).width) ((x.w 1).v.toNat % 2 ^ (Fmt.of k).width)
      cmpOut x pd r.1 r.2
  | .hadd2 w bf r => aRow w 1 1 1 0 fun x =>
      half2 bf (fun f vs => f.addV (roundOf r x.mode) (vs.getD 0 (.nan false)) (vs.getD 1 (.nan false))) [(x.w 0).v, (x.w 1).v]
  | .hmul2 w bf r => aRow w 1 1 1 0 fun x =>
      half2 bf (fun f vs => f.mulV (roundOf r x.mode) (vs.getD 0 (.nan false)) (vs.getD 1 (.nan false))) [(x.w 0).v, (x.w 1).v]
  | .hfma2 w bf r => aRow w 1 1 1 1 fun x =>
      half2 bf (fun f vs => f.fmaV (roundOf r x.mode) (vs.getD 0 (.nan false)) (vs.getD 1 (.nan false)) (vs.getD 2 (.nan false))) [(x.w 0).v, (x.w 1).v, (x.w 2).v]
  | .frcp w r => aRow w 1 1 0 0 fun x => fOut (f32.rcp (roundOf r x.mode) (x.w 0).v.toNat)
  | .frsq w => aRow w 1 1 0 0 fun x => ([(frsqOf (x.w 0).v).1], (frsqOf (x.w 0).v).2)
  | .fsqrt w r => aRow w 1 1 0 0 fun x => fOut (f32.sqrt (roundOf r x.mode) (x.w 0).v.toNat)
  | .fexp2 w => aRow w 1 1 0 0 fun x => ([(fexp2Of (x.w 0).v).1], (fexp2Of (x.w 0).v).2)
  | .flog2 w => aRow w 1 1 0 0 fun x => ([(flog2Of (x.w 0).v).1], (flog2Of (x.w 0).v).2)
  | .ftanh w => aRow w 1 1 0 0 fun x => ([(ftanhOf (x.w 0).v).1], (ftanhOf (x.w 0).v).2)
  | .cvt w d k r => if d = k then none else aRow w 1 1 0 0 fun x => ([(cvtOf d k (roundOf r x.mode) (x.w 0).v).1], (cvtOf d k (roundOf r x.mode) (x.w 0).v).2)
  | .ncvt w d k _ => aRow w 1 (quadWords k) 1 0 fun x =>
      let q := ncvtOf d k ((x.src.headD []).map (·.v)) (x.w 1).v
      ([q.1], q.2)
  | .ndec w d k r => aRow w (quadWords d) 1 1 0 fun x => ndecOf d k (roundOf r x.mode) (x.w 0).v (x.w 1).v
  | .sread w k => eachRow w.g { dst := some ⟨w.d, 1⟩ } fun x => { dst := some [⟨if k then x.sticky &&& stickyMask else x.mode &&& modeMask, false⟩] }
  | .swrite w k => eachRow w.g { src := [srcA w] } fun x =>
      if x.psn then { flags := fPSN }
      else if k then { setSticky := some ((x.w 0).v &&& stickyMask) } else { setMode := some ((x.w 0).v &&& modeMask) }
  | .shfl w m => some ⟨w.g, { src := [srcA w, srcB w], dst := some ⟨w.d, 1⟩ }, fun _ _ ins => ins.map fun x => (x.lane, shflLane m ins x)⟩
  | .vote w pd op ps neg => some ⟨w.g, {}, fun _ _ ins => ins.map fun x =>
      (x.lane, { preds := [(pd, voteAll op (ins.map fun y => predOf y.preds ps ^^ neg))] })⟩
  | .ballot w ps neg => some ⟨w.g, { dst := some ⟨w.d, 1⟩ }, fun _ _ ins =>
      allOut ins (maskOf ((ins.filter fun y => predOf y.preds ps ^^ neg).map (·.lane)))⟩
  | .elect w pd => some ⟨w.g, { dst := some ⟨w.d, 1⟩ }, fun _ _ ins => ins.map fun x =>
      let l := (ins.head?.map (·.lane)).getD 0
      (x.lane, { dst := some [⟨BitVec.ofNat 32 l, false⟩], preds := [(pd, x.lane == l)] })⟩
  | .actmask w => some ⟨w.g, { dst := some ⟨w.d, 1⟩ }, fun _ _ ins => allOut ins (maskOf (ins.map (·.lane)))⟩
  | .matchLanes w wide => some ⟨w.g, { src := [srcA w (if wide then 2 else 1)], dst := some ⟨w.d, 1⟩ }, fun _ _ ins => ins.map fun x =>
      let val (i : LaneIn) : List Word := (i.src.headD []).map (·.v)
      (x.lane, if x.psn then { dst := some [⟨0, true⟩], flags := fPSN }
        else { dst := some [⟨maskOf ((ins.filter fun y => !y.psn && val y == val x).map (·.lane)), false⟩] })⟩
  | .redux w op g => some ⟨w.g, { src := [srcA w], dst := some ⟨w.d, 1⟩ }, fun _ _ ins => ins.map fun x =>
      (x.lane, outP ((ins.map (·.w 0)).foldl (redP op g) ⟨redId op g, false⟩))⟩
  | .scan w op excl g => some ⟨w.g, { src := [srcA w], dst := some ⟨w.d, 1⟩ }, fun _ _ ins => scanLanes op g excl ⟨redId op g, false⟩ ins⟩
  | .nscale w _ => some ⟨w.g, { src := [srcA w, srcB w], dst := some ⟨w.d, 1⟩ }, fun _ _ ins => ins.map fun x =>
      let b := (ins.head?.map (·.w 1)).getD ⟨0, false⟩
      let r := scaleOf (ins.map fun x => x.f 0) b.v.toInt
      (x.lane, if b.p || ins.any (fun x => (x.w 0).p) then { dst := some [⟨0, true⟩], flags := fPSN }
        else { dst := some [⟨BitVec.ofNat 32 r.1, false⟩], flags := r.2 })⟩
  | .statrd w ix => if !statusItems.contains ix.toNat then none else some ⟨w.g, { dst := some ⟨w.d, 1⟩ }, fun s v ins => ins.map fun x => (x.lane, { dst := some [⟨s.statItem v x.lane ix.toNat, false⟩] })⟩
  | _ => none

/-- The values of the special operands that hold still while an instruction reads (R9). -/
def specialIs (s : State) (v : View) (l : Nat) (f : Opnd) : Option Word :=
  match f.toNat with
  | 480 => some (if v.front then 0 else BitVec.ofNat 32 l)
  | 481 => some (if v.front then 0xFFFFFFFF else BitVec.ofNat 32 v.u.grpNo)
  | 482 => some (BitVec.ofNat 32 v.b.idx)
  | 483 => some (BitVec.ofNat 32 v.b.cluster)
  | 484 => some (BitVec.ofNat 32 v.b.stage)
  | 485 => some v.b.page
  | 496 => some v.b.pstat
  | 497 => some (BitVec.ofNat 32 v.b.groups.length)
  | 498 => (s.grid? v.b.grid).map fun g => BitVec.ofNat 32 g.nblocks
  | 499 => some (BitVec.ofNat 32 (v.b.core / 48 + 4 * (s.pkg % 32)))
  | _ => none
/-- The instruction's fields are legal, some lane is active, every source can be read (none is empty, no destination is on its way), and a port has room. -/
def RegReady (R : RegRow) (s : State) (v : View) (ins : List LaneIn) (s1 : State) : Prop :=
  s.view? = some v ∧ v.legal R.uses = true ∧ v.active R.g ≠ [] ∧ readAll v (v.active R.g) R.uses s = .ok (ins, s1) ∧
    portFree s1 v.u R.uses.dst (R.out s v ins) = true

end Sys2Proof.Spec

open Sys2Proof Sys2Proof.Machine Sys2Proof.Spec

/-! ## Register instructions -/

/-- Every register instruction completes on every operand form: with its fields legal, its operands readable and room at its port, its next state is the state after the reads with each active lane's result left, in rising lane order, and the split gone on. A special operand reads as its value, %tlo and %thi as the two halves of one count of the core's cycles, which the thread keeps from its last read of %tlo; a broadcast operand reads the block's copy of s0 to s7 (R9 to R11, R62, R161; spec/04, spec/07 R183 to R187, R440; the free results of FRSQ, FEXP2, FLOG2 and FTANH are log 5. Readings of the model: a 128-bit operand or result at a port is four entries, log 52; the room at a port is that after the instruction's own pops, log 53; NSCALE reads b of every active lane and gives 127 over no finite value, log 50; a CVT of a signalling NaN sets NV, log 79). -/
def Obligations.RegisterInstructionsComplete : Prop :=
  (∀ (i : Instr) (R : RegRow) (s s1 : State) (v : View) (ins : List LaneIn), regRow i = some R → RegReady R s v ins s1 →
    exec i s = .next (commitAll v R.uses.dst (R.out s v ins) s1)) ∧
  ∀ (v : View) (l : Nat) (et ret : Bool) (r : Rd),
    (∀ f x, specialIs r.s v l f = some x → readSrc v l ⟨f, 1, et, ret⟩ r = ([⟨x, false⟩], r)) ∧
    (∀ k n, k < 8 → readSrc v l ⟨BitVec.ofNat 9 (488 + k), n, et, ret⟩ r = ((List.range n).map fun i => v.b.bcast[k + i]?.getD ⟨0, false⟩, r)) ∧
    (let c := r.s.cycleOf v.b.core
     readSrc v l ⟨486#9, 1, et, ret⟩ r = ([⟨lo32 c, false⟩], { r with s := r.s.modThread v.u l fun t => { t with tlat := c } }) ∧
     (∀ t, thr? r.s v.u l = some t → readSrc v l ⟨487#9, 1, et, ret⟩ r = ([⟨hi32 t.tlat, false⟩], r)) ∧
     ∀ (xs : List Src) (i : Nat), (∃ x ∈ xs, x.f = 486#9) → (xs[i]?).map (·.f) = some 487#9 → (thr? r.s v.u l).isSome = true →
       (readSrcs v l xs r).1[i]? = some [⟨hi32 c, false⟩])

/-- Result and frame of every register instruction: each active lane's destination registers hold its result and are full, its predicates, mode, sticky and pending bits are as its result says, a lane with a poisoned operand of a predicate result is retired; every other register, predicate and flag of every thread, every engine register of every block, every context record, all that no unit owns, and every byte of memory but the ring places pushed are as before. Readings of the model: a lane retired for a poisoned source keeps its sticky bits and has no PSN set, log 79; what is read and pushed at ports, and NSCALE, follow log 50, 52 and 53, and the free results log 5. -/
def Obligations.RegisterInstructionEffectAndFrame : Prop :=
  ∀ (i : Instr) (R : RegRow) (s s1 : State) (v : View) (ins : List LaneIn), regRow i = some R → RegReady R s v ins s1 → memCanonical s →
    ∃ t, exec i s = .next t ∧ Effect s s1 t v.u R.uses.dst (R.out s v ins) ∧
      ∀ o ∈ R.out s v ins, o.2.retire = true → (thr? t v.u o.1).map (·.stat) = some .retired

/-! ## Control transfer, barriers and queues -/

namespace Sys2Proof.Spec

/-- The executing unit's split stands in clause `c`. -/
def InClause (s : State) (v : View) (c : ClauseCtx) : Prop := s.view? = some v ∧ v.g.clauseNow = some c
/-- The active lanes may go to an address (R40). -/
def TargetOk (s : State) (v : View) (g : Guard) (a : VAddr) : Prop := v.active g = [] ∨ s.clauseOk v.b a = true
/-- The active lanes at one target. -/
def allTo (v : View) (g : Guard) (a : VAddr) : List (Nat × VAddr) := (v.active g).map fun l => (l, a)
/-- The return address in a link pair of some lanes (R119). -/
def linked (v : View) (link : Opnd) (c : ClauseCtx) (ls : List Nat) (s : State) : State :=
  ls.foldl (fun s l => writeDst s v.u l ⟨link, 2⟩ ((words2 ((afterClause c).setWidth 64)).map fun w => ⟨w, false⟩)) s
/-- Lanes whose pending bits an exit or a barrier reports: none. -/
def NothingPending (v : View) (ls : List Nat) : Prop := ∀ l ∈ ls, (v.thread l).elim false (fun t => t.pend != 0) = false
/-- The hold of the running split counts, and nothing else changes (R22, R162, R421). -/
def heldNow (v : View) (s : State) : State := (s.modGrp v.u fun g => { g with hold := g.hold + 1 }).noteWait v.u v.g.runs none
/-- A source register of a lane has the availability given. -/
def SourceIs (s : State) (v : View) (x : Src) (l : Nat) (a : Avail) : Prop :=
  ∃ k i, opKind x.f = .reg k ∧ i < x.n ∧ (reg? s v.u l (k + i)).map (·.av) = some a
/-- Every access of the lanes is performed (R279). -/
def AllPerformed (v : View) (ls : List Nat) : Prop := ∀ l ∈ ls, (v.thread l).elim true (fun t => t.unp == []) = true
/-- All live threads of the unit stand at the instruction, and the guard of the lowest holds (R160). -/
def Assembled (s : State) (v : View) (g : Guard) (l : Nat) : Prop :=
  s.view? = some v ∧ v.assembled = true ∧ v.lanes.head? = some l ∧ (v.thread l).elim false (Guard.holds g) = true
/-- A BAR, a CBAR or an EXIT that may be carried out, with the lanes whose pending faults it reports and what it does once they are (R420). -/
def ReportsAt (s : State) (v : View) (i : Instr) (ls : List Nat) (fin : State → State) : Prop :=
  (∃ g, i = .exit g ∧ ls = v.active g ∧ fin = fun s =>
    ((ls.foldl (fun s l => s.modThread v.u l fun t => { t with stat := .exited, cl := none }) s).afterExit v.u.blk).advance v) ∨
  (∃ w l, i = .bar w ∧ ls = v.g.live ∧ Assembled s v w.g l ∧ AllPerformed v v.g.live ∧ fin = fun s =>
    (((s.modBlk v.u.blk (·.arrive (barId w) (barN (barCnt w) v.b.groups.length) v.u.grpNo)).uniformEnd v).waitAt v.u (.bar (barId w))).modBlk v.u.blk (·.barCheck (barId w))) ∨
  (∃ w l, i = .cbar w ∧ ls = v.g.live ∧ Assembled s v w.g l ∧ AllPerformed v v.g.live ∧ fin = fun s =>
    (((s.cbarArrive v.b (barId w % 4) (barCnt w % 32) v.u.grpNo).uniformEnd v).waitAt v.u (.cbar (barId w % 4))).cbarCheck v.b.grid v.b.cluster (barId w % 4))
/-- An instruction that its lowest active lane's operands decide: fields legal, operands of that lane readable, no destination on its way (R180). -/
def ElectedReady (g : Guard) (x : Uses) (s : State) (v : View) (l : Nat) (ls : List Nat) (i : LaneIn) (s1 : State) : Prop :=
  s.view? = some v ∧ v.legal x = true ∧ v.active g = l :: ls ∧ readAll v [l] { x with dst := none } s = .ok ([i], s1) ∧
    (x.dst.elim false fun d => (l :: ls).any fun k => dstBusy s v.u k d) = false
/-- The control operands named are clean (R502). -/
def Clean (ks : List Nat) (i : LaneIn) : Prop := (ks.any fun k => (i.src.getD k []).any (·.p)) = false
/-- One result in the destination of every lane; a poisoned one sets PSN (R180, R502). -/
def toAll (v : View) (d : Dest) (ls : List Nat) (ws : List PWord) (s : State) : State :=
  ls.foldl (fun s l =>
    let s := writeDst s v.u l d ws
    if ws.any (·.p) then s.modThread v.u l (·.setFlags fPSN) else s) s
/-- One predicate in every lane. -/
def predTo (v : View) (pd : PNum) (b : Bool) (ls : List Nat) (s : State) : State := ls.foldl (fun s l => s.modThread v.u l (·.setPred pd b)) s
/-- A port that is the destination can take a result of every lane: room, present lines, and the order of the lanes' accesses. -/
def RoomFor (s : State) (v : View) (d : Dest) (ls : List Nat) : Prop := ∀ q, opKind d.f = .port q → pushBusy s v.u q ls (d.n * ls.length) = false

end Sys2Proof.Spec

/-- BRA, CALL, YIELD, BRX, RET and CALLX complete: with legal targets the active lanes go to the word's address or each to its own pair's (the calls with the return address in each lane's link pair), a lane with a poisoned pair is retired, the other lanes go to the next word (R19, R27, R61, R117 to R119, R122). -/
def Obligations.TransfersComplete : Prop :=
  (∀ (s : State) (v : View) (c : ClauseCtx) (g : Guard), InClause s v c →
     (∀ ofs, TargetOk s v g (c.hdr + ofs.signExtend 56) →
       exec (.bra g ofs) s = .next ((goAll v (allTo v g (c.hdr + ofs.signExtend 56)) s).advance v)) ∧
     (∀ link ofs, TargetOk s v g (c.hdr + ofs.signExtend 56) → v.b.rwOk v.front link 2 = true →
       (∀ l ∈ v.active g, dstBusy s v.u l ⟨link, 2⟩ = false) →
       exec (.call g link ofs) s = .next ((goAll v (allTo v g (c.hdr + ofs.signExtend 56)) (linked v link c (v.active g) s)).advance v)) ∧
     (TargetOk s v g (c.hdr + BitVec.ofNat 56 (8 * (c.count + 1))) →
       exec (.yield g) s = .next ((goAll v (allTo v g (c.hdr + BitVec.ofNat 56 (8 * (c.count + 1)))) s).advance v (v.active g != [])))) ∧
  (∀ (s s1 : State) (v : View) (c : ClauseCtx) (w : WA) (ins : List LaneIn), InClause s v c → v.active w.g ≠ [] →
     (∀ i ∈ ins, i.psn = false → s.clauseOk v.b ((i.d 0).setWidth 56) = true) →
     let tgts := (ins.filter fun i => !i.psn).map fun i => (i.lane, (i.d 0).setWidth 56)
     let out (s : State) : State := (ins.filter (·.psn)).foldl (fun s i => s.retire v.u i.lane) s
     let fin (s : State) : State := if ins.any (·.psn) then s.afterExit v.u.blk else s
     (v.legal { src := [srcA w 2] } = true → readAll v (v.active w.g) { src := [srcA w 2] } s = .ok (ins, s1) →
       exec (.brx w) s = .next ((goAll v tgts (fin (out s1))).advance v) ∧ exec (.ret w) s = .next ((goAll v tgts (fin (out s1))).advance v)) ∧
     (v.legal { src := [srcA w 2], dst := some ⟨w.d, 2⟩ } = true → v.b.rwOk v.front w.d 2 = true →
       readAll v (v.active w.g) { src := [srcA w 2], dst := some ⟨w.d, 2⟩ } s = .ok (ins, s1) →
       exec (.callx w) s = .next ((goAll v tgts (fin (linked v w.d c (tgts.map (·.1)) (out s1)))).advance v)))

/-- What a transfer and an exit leave: each lane sent to an address stands there, at a clause start, parked where its meeting register holds the address; an exited lane stays where it is, stopped; every register, control bit, engine register, byte and record is as before (R19, R34, R120, R121). -/
def Obligations.TransferredAndExitedLanes : Prop :=
  (∀ (s : State) (v : View) (ts : List (Nat × VAddr)) (y : Bool), s.view? = some v → (ts.map (·.1)).Nodup → (∀ x ∈ ts, x.1 ∈ v.lanes) →
     let t := (goAll v ts s).advance v y
     (∀ x ∈ ts, (thr? t v.u x.1).map (fun t => (t.pc, t.cl, t.stat)) =
       (thr? s v.u x.1).map fun t => (x.2, none, if t.mr = x.2 then .meet else .run)) ∧ SameData s t ∧ SameRest s t) ∧
  (∀ (s : State) (v : View) (g : Guard), s.view? = some v → NothingPending v (v.active g) →
     ∃ t, exec (.exit g) s = .next t ∧ (∀ l ∈ v.active g, (thr? t v.u l).map (fun t => (t.stat, t.pc)) = (thr? s v.u l).map fun t => (.exited, t.pc)) ∧
       SameData s t ∧ SameRest s t)

/-- MEET, EXIT, NOP and HINT complete: MEET pushes the meeting register and takes the target, an exiting lane stops for good, NOP and HINT only go on (R120 to R123). -/
def Obligations.MeetExitNopHintComplete : Prop :=
  ∀ (s : State) (v : View) (g : Guard), s.view? = some v →
    (∀ c ofs, InClause s v c → TargetOk s v g (c.hdr + ofs.signExtend 56) →
      (∀ l ∈ v.active g, (v.thread l).elim false (fun t => decide (8 ≤ t.mstk.length)) = false) →
      exec (.meet g ofs) s = .next (((v.active g).foldl (fun s l => s.modThread v.u l fun t =>
        { t with mstk := t.mr :: t.mstk, mr := c.hdr + ofs.signExtend 56 }) s).advance v)) ∧
    (NothingPending v (v.active g) →
      exec (.exit g) s = .next ((let t := (v.active g).foldl (fun s l => s.modThread v.u l fun t => { t with stat := .exited, cl := none }) s
        if v.active g = [] then t else t.afterExit v.u.blk).advance v)) ∧
    exec (.nop g) s = .next (s.advance v) ∧ (∀ n p, exec (.hint n p) s = .next (s.advance v))

/-- BAR and CBAR complete: with the group assembled, its accesses performed and nothing to report, the group arrives and is held until its barrier completes; a barrier completes exactly when its arrivals with the exited groups reach its n: then it is free and no group is held at it. Where lanes have arithmetic faults pending, BAR, CBAR and EXIT report them first: with ARITH clear one record of them is posted, their pending bits are clear and the instruction goes on, or holds while the fault queue is full; with ARITH set the arithmetic fault is taken with them (R15, R160, R189, R190, R279, R418, R420). -/
def Obligations.BarriersComplete : Prop :=
  (∀ (s : State) (v : View) (w : WI) (l : Nat), Assembled s v w.g l → AllPerformed v v.g.live → NothingPending v v.g.live →
     exec (.bar w) s = .next (((((s.modBlk v.u.blk (·.arrive (barId w) (barN (barCnt w) v.b.groups.length) v.u.grpNo)).uniformEnd v).waitAt v.u
       (.bar (barId w))).modBlk v.u.blk (·.barCheck (barId w)))) ∧
     exec (.cbar w) s = .next ((((s.cbarArrive v.b (barId w % 4) (barCnt w % 32) v.u.grpNo).uniformEnd v).waitAt v.u (.cbar (barId w % 4))).cbarCheck
       v.b.grid v.b.cluster (barId w % 4))) ∧
  (∀ (b : Block) (id : Nat) (r : Bar), (b.bars.find? fun x => x.1 == id).map (·.2) = some r →
     (r.n ≤ r.arrived.length + b.goneCount → (∀ x ∈ (b.barCheck id).bars, x.1 ≠ id) ∧ ∀ g ∈ (b.barCheck id).groups, g.stat ≠ .bar id) ∧
     (r.arrived.length + b.goneCount < r.n → b.barCheck id = b)) ∧
  (∀ (s : State) (v : View) (i : Instr) (ls : List Nat) (fin : State → State), s.view? = some v → ReportsAt s v i ls fin →
     let rep := ls.filter fun l => (v.thread l).elim false fun t => t.pend != 0
     rep ≠ [] →
     let bits : BitVec 7 := rep.foldl (fun m l => m ||| ((v.thread l).elim 0 (·.pend))) 0
     let ctx := s.ctxD v.b.ctx
     ((s.partD ctx.part).fcw.getLsbD 0 = true → exec i s = .next (s.takeFault v.u 0x1E 0 (rep.headD 0) bits.toNat v.pc (maskOf rep))) ∧
     ((s.partD ctx.part).fcw.getLsbD 0 = false → ctx.fqRoom = false → exec i s = .next (heldNow v s)) ∧
     ((s.partD ctx.part).fcw.getLsbD 0 = false → ctx.fqRoom = true →
       exec i s = .next (fin ((rep.foldl (fun s l => s.modThread v.u l fun t => { t with pend := 0 }) s).post v.b.ctx
         (mkRec v.b v.u v.g 0x1E 1 (v.pc.setWidth 64) 0 (maskOf rep) (rep.headD 0 + 256 * bits.toNat)) .none))))

/-- QTRY, QCFG and QLEN complete: QTRY moves an entry of every lane or none and says which in its predicate (an entry of a retained port is read and kept; a push from an empty register only holds, whatever its empty-trap bit), QCFG sets up an empty ring, QLEN counts (R193 to R196; that a QTRY without room takes nothing is the model's reading, log 15). -/
def Obligations.QueueInstructionsComplete : Prop :=
  ∀ (s : State) (v : View), s.view? = some v →
    (∀ (w : WA) (pd : PNum) (q : Nat), portOf w.d = none → portOf w.a = some q → v.b.canPop v.front q = true → v.b.dstOk v.front ⟨w.d, 1⟩ = true →
      (v.active w.g ≠ [] → ringBusy s v.u q (v.active w.g) = false) → (∀ l ∈ v.active w.g, dstBusy s v.u l ⟨w.d, 1⟩ = false) →
      let ret := (srcA w).ret
      (∀ es t, tryPops v q ret (v.active w.g) s = some (es, t) → portAbsent s v.u q (if ret then min 1 (v.active w.g).length else (v.active w.g).length) = false →
        exec (.qtry w pd) s = .next ((predTo v pd true (v.active w.g) (es.foldl (fun s e =>
            if e.2.p then (writeDst s v.u e.1 ⟨w.d, 1⟩ [⟨0, true⟩]).modThread v.u e.1 (·.setFlags fPSN) else writeDst s v.u e.1 ⟨w.d, 1⟩ [e.2]) t)).advance v)) ∧
      (tryPops v q ret (v.active w.g) s = none → exec (.qtry w pd) s = .next ((predTo v pd false (v.active w.g) s).advance v))) ∧
    (∀ (w : WA) (pd : PNum) (q : Nat) (ins : List LaneIn) (s1 : State) (r : Ring), portOf w.d = some q → portOf w.a = none → v.b.canPush q = true →
      v.b.srcOk v.front (srcA w) = true → v.b.ring? q = some r → readAll v (v.active w.g) { src := [{ srcA w with et := false }] } s = .ok (ins, s1) →
      (v.active w.g ≠ [] → ringBusy s1 v.u q (v.active w.g) = false) →
      ((v.active w.g).length ≤ r.room → (v.active w.g ≠ [] → pushBusy s1 v.u q (v.active w.g) (v.active w.g).length = false) →
        exec (.qtry w pd) s = .next ((predTo v pd true (v.active w.g) (ins.foldl (fun s x =>
          let t := pushRing s v.u.blk q [if (x.w 0).p then ⟨0, true⟩ else x.w 0]
          if x.psn then t.modThread v.u x.lane (·.setFlags fPSN) else t) s1)).advance v)) ∧
      (r.room < (v.active w.g).length → exec (.qtry w pd) s = .next ((predTo v pd false (v.active w.g) s).advance v))) ∧
    (∀ (w : WA) (pd : PNum) (q : Nat), portOf w.d = some q → portOf w.a = none → v.b.canPush q = true → v.b.srcOk v.front (srcA w) = true →
      (∃ l ∈ v.active w.g, SourceIs s v (srcA w) l .empty ∨ SourceIs s v (srcA w) l .inFlight) → exec (.qtry w pd) s = .next (heldNow v s)) ∧
    (∀ (w : WI) (q l : Nat) (ls : List Nat) (i : LaneIn) (s1 : State), portOf w.d = some q → 1 ≤ q → q ≤ 15 →
      ElectedReady w.g { src := [⟨w.a, 1, w.eta, false⟩] } s v l ls i s1 → Clean [0] i →
      (i.w 0).v.toNat % 4 = 0 → (i.w 0).v.toNat + 4 * 2 ^ (w.imm.toNat % 16) ≤ v.b.shared → 1 ≤ w.imm.toNat % 16 → w.imm.toNat % 16 ≤ 10 → ringBusy s1 v.u q [l] = false →
      exec (.qcfg w) s = .next ((s1.modBlk v.u.blk (·.setRing q (i.w 0).v.toNat (2 ^ (w.imm.toNat % 16)))).advance v)) ∧
    (∀ (w : WA) (q l : Nat) (ls : List Nat) (i : LaneIn) (s1 : State), portOf w.a = some q → v.b.canPop v.front q = true →
      ElectedReady w.g { dst := some ⟨w.d, 1⟩ } s v l ls i s1 → (portView s1 v.u i.lane q).2.2 = false → RoomFor s1 v ⟨w.d, 1⟩ (l :: ls) →
      exec (.qlen w) s = .next ((toAll v ⟨w.d, 1⟩ (l :: ls) [⟨BitVec.ofNat 32 (portView s1 v.u i.lane q).1.length, false⟩] s1).advance v))

/-- TRAYW, PTOK and SSEL complete: the tray takes the word and the broadcast copies are loaded, the holder (or the front-end thread) passes the token, the grid takes the first variant whose bound fits. Stage channels, range tasks and grid results complete: sends append in lane order and receives take in lane order, a launch of a nonempty range makes a record, a claim takes up to the asked count off the block's own record, a signal sets the block's entry and a GWAIT reads a settled one (R167, R175, R197 to R210; that the broadcast copies take s0 to s7 as they stand, with their poison bits and without waiting for their fills, and that the records of all range grids of a context are one table of 1,024, is the model's reading, log 54 and 75). -/
def Obligations.TrayTokenAndTaskInstructionsComplete : Prop :=
  (∀ (s s1 : State) (v : View) (l : Nat) (ls : List Nat) (i : LaneIn),
     (∀ w : WA, ElectedReady w.g { src := [srcA w] } s v l ls i s1 → AllPerformed v (l :: ls) → v.b.tray.length < 64 →
       exec (.trayw w) s = .next ((let regs := ((s1.grp? v.u).bind (·.threads[0]?)).elim [] (·.regs)
         let t := s1.modBlk v.u.blk fun b => { b with tray := b.tray ++ [i.w 0], bcast := (regs.take 8).map fun r => ⟨r.v, r.p⟩ }
         if i.psn then t.modThread v.u i.lane (·.setFlags fPSN) else t).advance v)) ∧
     (∀ (w : WI) (reg : Bool), reg = (!w.imm.getLsbD 5 && w.a != 511#9) →
       ElectedReady w.g { src := if reg then [⟨w.a, 1, w.eta, false⟩] else [] } s v l ls i s1 → Clean [0] i →
       exec (.ptok w) s = .next ((s1.modBlk v.u.blk fun b =>
         if v.front || b.token = some v.u.grpNo then
           b.giveToken (if w.imm.getLsbD 5 then (b.token.map (· + 1)).getD 0 else if reg then (i.w 0).v.toNat % 32 else w.imm.toNat % 32) else b).advance v)) ∧
     (∀ w : WI, ElectedReady w.g { src := [⟨w.a, 2, w.eta, false⟩], dst := some ⟨w.d, 1⟩ } s v l ls i s1 → Clean [0] i → RoomFor s1 v ⟨w.d, 1⟩ (l :: ls) →
       exec (.ssel w) s = .next (match (s1.grid? v.b.grid).bind fun g => g.kd.pick (i.d 0).toNat with
         | some k => (toAll v ⟨w.d, 1⟩ (l :: ls) [⟨BitVec.ofNat 32 k, false⟩] (s1.modGrid v.b.grid fun g => { g with var := k })).advance v
         | none => (toAll v ⟨w.d, 1⟩ (l :: ls) [⟨0xFFFFFFFF, false⟩] s1).advance v))) ∧
  ((∀ (s s1 : State) (v : View) (w : WA) (up : Bool) (sp k : Nat) (ins : List LaneIn), s.view? = some v → chanFor v true up s = some (sp, k) →
     v.legal { src := [srcA w] } = true → AllPerformed v (v.active w.g) → readAll v (v.active w.g) { src := [srcA w] } s = .ok (ins, s1) → ins ≠ [] →
     (s1.chanOf v.b.grid sp k up).length + ins.length ≤ 1024 → s1.stageIn v.b (if up then v.b.stage - 1 else v.b.stage + 1) = true →
     exec (.chsend w up) s = .next ((ins.foldl (fun s i => if i.psn then s.modThread v.u i.lane (·.setFlags fPSN) else s)
       (s1.setChan v.b.grid sp k up (s1.chanOf v.b.grid sp k up ++ ins.map (·.w 0)))).advance v)) ∧
   (∀ (s : State) (v : View) (w : WA) (up : Bool) (sp k : Nat), s.view? = some v → chanFor v false up s = some (sp, k) → v.b.dstOk v.front ⟨w.d, 1⟩ = true →
     v.active w.g ≠ [] → (v.active w.g).length ≤ (s.chanOf v.b.grid sp k up).length → (∀ l ∈ v.active w.g, dstBusy s v.u l ⟨w.d, 1⟩ = false) →
     RoomFor s v ⟨w.d, 1⟩ (v.active w.g) →
     exec (.chrecv w up) s = .next ((((v.active w.g).zip (s.chanOf v.b.grid sp k up)).foldl (fun s e =>
       if e.2.p then (writeDst s v.u e.1 ⟨w.d, 1⟩ [⟨0, true⟩]).modThread v.u e.1 (·.setFlags fPSN) else writeDst s v.u e.1 ⟨w.d, 1⟩ [e.2])
       (s.setChan v.b.grid sp k up ((s.chanOf v.b.grid sp k up).drop (v.active w.g).length))).advance v)) ∧
   (∀ (s s1 : State) (v : View) (l : Nat) (ls : List Nat) (i : LaneIn) (g : Grid) (w : WA), s1.grid? v.b.grid = some g →
     (g.kind = .range → ElectedReady w.g { src := [srcA w 2, srcB w 2, srcC w] } s v l ls i s1 → Clean [0, 1, 2] i → (s1.tasksOf g.ctx).length < 1024 →
       exec (.rtlaunch w) s = .next ((if (i.d 0).toNat < (i.d 1).toNat then s1.newRange v.b.grid (i.d 0).toNat (i.d 1).toNat (i.w 2).v.toNat else s1).advance v)) ∧
     (∀ pd, g.kind = .range → ElectedReady w.g { src := [srcA w], dst := some ⟨w.d, 4⟩ } s v l ls i s1 → Clean [0] i →
       RoomFor s1 v ⟨w.d, 4⟩ (l :: ls) →
       exec (.rtclaim w pd) s = .next (match g.recs.find? fun r => r.idx == v.b.idx && decide (r.lo < r.hi) with
         | some r =>
           let c := min (max 1 (i.w 0).v.toNat) (r.hi - r.lo)
           (predTo v pd true (l :: ls) ((toAll v ⟨w.d, 4⟩ (l :: ls) [⟨lo32 (BitVec.ofNat 64 r.lo), false⟩, ⟨hi32 (BitVec.ofNat 64 r.lo), false⟩, ⟨BitVec.ofNat 32 c, false⟩, ⟨0, false⟩] s1).modGrid
             v.b.grid fun g => { g with recs := g.recs.map fun y => if y.idx = r.idx then { y with lo := r.lo + c } else y })).advance v
         | none => (predTo v pd false (l :: ls) s1).advance v)) ∧
     (g.grt ≠ 0 → ElectedReady w.g { src := [srcA w] } s v l ls i s1 → AllPerformed v (l :: ls) →
       exec (.gsig w) s = .next ((let x : PWord := if (i.w 0).p then ⟨0, true⟩ else i.w 0
         let t := (s1.modGrid v.b.grid (·.setRes v.b.idx (.signalled x))).grtWrite g v.b.idx x.v.toNat 1
         if x.p then t.modThread v.u i.lane (·.setFlags fPSN) else t).advance v)) ∧
     (∀ ws, g.grt ≠ 0 → (i.w 0).v.toNat < g.nblocks → (i.w 0).v.toNat ≠ v.b.idx → (g.resOf (i.w 0).v.toNat).pair = some ws →
       ElectedReady w.g { src := [srcA w], dst := some ⟨w.d, 2⟩ } s v l ls i s1 → Clean [0] i → RoomFor s1 v ⟨w.d, 2⟩ (l :: ls) →
       exec (.gwait w) s = .next ((toAll v ⟨w.d, 2⟩ (l :: ls) ws s1).advance v))))

/-! ## Memory -/

namespace Sys2Proof.Spec

/-- A memory instruction's fields are legal, its active lanes may issue and can be read, and no lane's address is poisoned (R242, R243, R273, R275). -/
def MemReady (w : WM) (x : Uses) (all : Bool) (s : State) (v : View) (ins : List LaneIn) (s1 : State) : Prop :=
  s.view? = some v ∧ v.legal x = true ∧ v.active w.g ≠ [] ∧ s.lanesReady v.u (v.active w.g) = true ∧
    readAll v (v.active w.g) x s = .ok (ins, s1) ∧ ∀ i ∈ ins, (if all then i.psn else ((i.src.getLast?).getD []).any (·.p)) = false
/-- The lanes with the shared or spill offsets they compute (R214). -/
def nearLanes (w : WM) (ins : List LaneIn) : List LaneAt := ins.map fun x => ⟨x, laneAddr w false x⟩
/-- The lanes with the virtual addresses they compute (R214). -/
def farLanes (w : WM) (ins : List LaneIn) : List LaneAt := ins.map fun x => ⟨x, laneAddr w true x⟩
/-- Every lane's shared bytes are aligned and in the block's space (R215, R242). -/
def SharedOk (v : View) (as : List LaneAt) (n : Nat) : Prop := (∀ a ∈ as, a.a % n = 0) ∧ ∀ a ∈ as, (v.b.inDecl a.a n || v.b.inShelf a.a n) = true
/-- Every lane's line is present (R221). -/
def Present (v : View) (as : List LaneAt) (n : Nat) : Prop := ∀ a ∈ as, v.b.present a.a n = true
/-- Every lane's spill bytes are aligned and in the lane's window (R222, R242). -/
def SpillOk (v : View) (as : List LaneAt) (n : Nat) : Prop := (∀ a ∈ as, a.a % n = 0) ∧ ∀ a ∈ as, a.a + n ≤ v.b.spill / 32
/-- Every lane's address is aligned and translates to a leaf of the scratchpad that it may access (R236, R242). -/
def Mapped (s : State) (v : View) (as : List LaneAt) (n : Nat) (write : Bool) (lf : LaneAt → Leaf) : Prop :=
  (∀ a ∈ as, a.a % n = 0) ∧ ∀ a ∈ as, s.xlate v.b.core v.b.ctx (BitVec.ofNat 56 a.a) = some (lf a) ∧ s.tierBad (lf a) = false ∧ (write && !(lf a).w) = false
/-- A port destination can take `n` words of every lane (R501). -/
def LoadRoom (s : State) (v : View) (f : Opnd) (ls : List LaneAt) (n : Nat) : Prop :=
  ∀ q, opKind f = .port q → n = 0 ∨ ls = [] ∨ pushBusy s v.u q (ls.map (·.x.lane)) (n * ls.length) = false
/-- A lane by lane effect that may fail. -/
def eachLane (f : LaneAt → State → Option State) : List LaneAt → State → Option State
  | [], s => some s
  | a :: r, s => (f a s).bind (eachLane f r)
/-- A C-class instruction: fields legal, the guard of the split's lowest lane true, no waited slot busy, that lane's operands readable, no destination on its way, its control operands clean (R37, R48, R161, R502). -/
def SplitReady (w : WC) (x : Uses) (ks : List Nat) (s : State) (v : View) (l : Nat) (i : LaneIn) (s1 : State) : Prop :=
  s.view? = some v ∧ v.legal x = true ∧ v.lanes.head? = some l ∧ (v.thread l).elim false (Guard.holds w.g) = true ∧ v.b.slots &&& w.wait = 0 ∧
    readAll v [l] { x with dst := none } s = .ok ([i], s1) ∧ (x.dst.elim false fun d => v.lanes.any fun k => dstBusy s1 v.u k d) = false ∧ Clean ks i

end Sys2Proof.Spec

/-- LDS, LDK and LDP complete: a load of the shared or spill space delivers its words at issue; a load of the scratchpad puts a request in the channel to its slice and marks its registers or reserves its places (R222, R225, R247, R248, R269, R501; that a load into a port reserves its places at issue is the model's reading of R501, log 15). -/
def Obligations.LoadsComplete : Prop :=
  ∀ (s s1 : State) (v : View) (w : WM) (sx : Bool) (ins : List LaneIn),
    let n := Width.bytes w.wid
    let nw := Width.words w.wid
    (MemReady w { src := [mSrc w.base 1], dst := some ⟨w.data, nw⟩ } false s v ins s1 →
      (SharedOk v (nearLanes w ins) n → Present v (nearLanes w ins) n → (∀ a ∈ nearLanes w ins, v.sqFree (kShared v.u.blk a.a) n = true) →
        LoadRoom s1 v w.data (nearLanes w ins) nw →
        exec (.lds w sx) s = .next (((nearLanes w ins).foldl (fun s a =>
          s.deliverAt v.u a.x.lane w.data (s.loadWords (kShared v.u.blk a.a) n (if n < 4 then sxCode w sx else 0)) (acqs (ordOf w))) s1).advance v)) ∧
      (SpillOk v (nearLanes w ins) n → (∀ a ∈ nearLanes w ins, ∀ p ∈ spillPieces v a.x.lane a.a n, v.sqFree p.1 p.2 = true) →
        LoadRoom s1 v w.data (nearLanes w ins) nw →
        exec (.ldk w sx) s = .next (((nearLanes w ins).foldl (fun s a => s.deliverAt v.u a.x.lane w.data
          (if n < 4 then s.loadWords ((spillPieces v a.x.lane a.a n).headD (0, 0)).1 n (sxCode w sx)
           else (spillPieces v a.x.lane a.a n).flatMap fun p => s.loadWords p.1 p.2 0) (acqs (ordOf w))) s1).advance v))) ∧
    (∀ lf, MemReady w { src := [mSrc w.base 2], dst := some ⟨w.data, nw⟩ } false s v ins s1 → Mapped s1 v (farLanes w ins) n false lf →
      (∀ a ∈ farLanes w ins, ((lf a).ord = true → v.unpOf a.x.lane = []) ∧ v.sqFree (s1.leafKey (lf a)) n = true) →
      LoadRoom s1 v w.data (farLanes w ins) nw →
      exec (.ldp w sx) s = .next ((laneChain ((farLanes w ins).map fun a => (a, lf a)) (fun s p prev =>
        let a := p.1
        let (d, t) := { s with nextId := s.nextId + 1 }.destFor v.u a.x.lane w.data nw (sxCode w sx) (if v.local (lf a) then .inFlight else .empty)
        let t := { t with oc := t.oc ++ [(⟨s.nextId, v.b.core, t.leafSlice (lf a), v.u, a.x.lane, d, .load (t.leafKey (lf a)) n, prev⟩ : OcEnt)] }
        let t := if acqs (ordOf w) then t.acquire v.u a.x.lane s.nextId else t
        let t := if (lf a).ord then t.modThread v.u a.x.lane fun x => { x with sow := x.sow ++ [s.nextId] } else t
        t.addUnp v.u a.x.lane s.nextId) s1).advance v))

/-- STS, STK and STP complete: each lane's bytes go as an entry to its unit's store queue, a release behind the thread's earlier accesses; a lane with poisoned data stores nothing, is counted and sets PSN (R28, R243, R248, R269, R275; that a lane takes DATA's entries before BASE's where both name ports is the model's order, log 55). -/
def Obligations.StoresComplete : Prop :=
  ∀ (s s1 : State) (v : View) (w : WM) (ins : List LaneIn),
    let n := Width.bytes w.wid
    (MemReady w { src := [mSrc w.data (Width.words w.wid), mSrc w.base 1] } false s v ins s1 →
      (SharedOk v (nearLanes w ins) n → Present v (nearLanes w ins) n →
        exec (.sts w) s = .next (((nearLanes w ins).foldl (fun s a => if dataPsn a.x then s.dropStore v a.x.lane
          else s.enqueue v.u a.x.lane (rels (ordOf w)) false fun _ => .store (kShared v.u.blk a.a) (dataBytes a.x n)) s1).advance v)) ∧
      (SpillOk v (nearLanes w ins) n →
        exec (.stk w) s = .next (((nearLanes w ins).foldl (fun s a => if dataPsn a.x then s.dropStore v a.x.lane
          else s.enqueue v.u a.x.lane (rels (ordOf w)) false fun _ => .spill ((spillPieces v a.x.lane a.a n).zipIdx.map fun p =>
            (p.1.1, ((dataBytes a.x n).drop (4 * p.2)).take 4))) s1).advance v))) ∧
    (∀ lf, MemReady w { src := [mSrc w.data (Width.words w.wid), mSrc w.base 2] } false s v ins s1 → Mapped s1 v (farLanes w ins) n true lf →
      (∀ a ∈ farLanes w ins, (lf a).ord = true → v.unpOf a.x.lane = []) →
      exec (.stp w) s = .next ((laneChain ((farLanes w ins).map fun a => (a, lf a)) (fun s p prev =>
        let a := p.1
        if dataPsn a.x then s.dropStore v a.x.lane
        else s.enqueue v.u a.x.lane (rels (ordOf w)) (lf a).ord fun id =>
          .chan ⟨id, v.b.core, s.leafSlice (lf a), v.u, a.x.lane, .none, .store (s.leafKey (lf a)) (dataBytes a.x n), prev⟩) s1).advance v))

/-- ATOM and ACAS complete in both spaces: in the shared space each lane's operation is performed at issue in rising lane order and its old value written back; in the scratchpad it is queued to its slice with its registers empty, and one at acq-rel holds its thread until it is performed (R226, R250, R252, R269, R275; a lane with poisoned data performs nothing, log 18). -/
def Obligations.AtomicsComplete : Prop :=
  ∀ (s s1 : State) (v : View) (w : WM) (ins : List LaneIn) (i : ASpace → Instr) (nd : Nat) (op : Nat → LaneIn → OcOp),
    let n := Width.bytes w.wid
    let nr := Width.words w.wid
    ((∃ a, i = (fun sp => .atom w sp a) ∧ nd = nr ∧ op = atomOf a n) ∨ (i = (fun sp => .acas w sp) ∧ nd = 2 * nr ∧ op = casOf n)) →
    v.b.rwOk v.front w.data nd = true →
    (MemReady w { src := [mSrc w.data nd, mSrc w.base 1] } false s v ins s1 → SharedOk v (nearLanes w ins) n → Present v (nearLanes w ins) n → v.g.sq = [] →
      (∀ a ∈ nearLanes w ins, (rels (ordOf w) = true → v.unpOf a.x.lane = []) ∧ s1.preOf v.u a.x.lane false = []) →
      exec (i .shared) s = .next (((nearLanes w ins).foldl (fun s a => if dataPsn a.x then s.dropAtom v a.x.lane w.data nr
        else writeDst ((op (kShared v.u.blk a.a) a.x).perform 0 s).2 v.u a.x.lane ⟨w.data, nr⟩ ((op (kShared v.u.blk a.a) a.x).perform 0 s).1) s1).advance v)) ∧
    (∀ lf, MemReady w { src := [mSrc w.data nd, mSrc w.base 2] } false s v ins s1 → Mapped s1 v (farLanes w ins) n true lf →
      (∀ a ∈ farLanes w ins, (lf a).ord = true ∨ ordOf w = .acqRel → v.unpOf a.x.lane = []) →
      exec (i .scratch) s = .next ((laneChain ((farLanes w ins).map fun a => (a, lf a)) (fun s p prev =>
        let a := p.1
        if dataPsn a.x then s.dropAtom v a.x.lane w.data nr
        else
          let (d, t) := s.destFor v.u a.x.lane w.data nr 0 .empty
          let x := t.enqueue v.u a.x.lane (rels (ordOf w)) (lf a).ord fun id =>
            .chan ⟨id, v.b.core, t.leafSlice (lf a), v.u, a.x.lane, d, op (t.leafKey (lf a)) a.x, prev⟩
          let y := if acqs (ordOf w) then x.acquire v.u a.x.lane t.nextId else x
          if ordOf w = .acqRel then y.atomHolds v.u a.x.lane t.nextId else y) s1).advance v))

/-- PRESW, PRESQ and FENCE complete: PRESW queues the setting or clearing of its line, PRESQ delivers the presence bits of its lines, an acquire fence goes on once no load is outstanding, a release fence marks the accesses before it, a full fence goes on once all are performed, one at thread scope only goes on. TLREAD and TLWAIT complete: the counter that the selector names is written to every lane's pair, or is at or above the count waited for (R255 to R257, R263, R264, R274, R277). -/
def Obligations.PresenceFenceTimelineComplete : Prop :=
  ((∀ (s s1 : State) (v : View) (w : WM) (b : Bool) (ins : List LaneIn), MemReady w { src := [mSrc w.base 1] } false s v ins s1 → SharedOk v (nearLanes w ins) 1 →
     exec (.presw w b) s = .next (((nearLanes w ins).foldl (fun s a => s.enqueue v.u a.x.lane (rels (ordOf w)) false fun _ => .presw v.u.blk (a.a / 128) b) s1).advance v)) ∧
   (∀ (s s1 : State) (v : View) (w : WM) (ins : List LaneIn), MemReady w { src := [mSrc w.base 1], dst := some ⟨w.data, 1⟩ } false s v ins s1 →
     SharedOk v (nearLanes w ins) 1 →
     (∀ a ∈ nearLanes w ins, (v.g.sq.any fun e => e.op.presLine.elim false (presLines v.b a.a).contains) = false) →
     LoadRoom s1 v w.data (nearLanes w ins) 1 →
     exec (.presq w) s = .next (((nearLanes w ins).foldl (fun s a => s.deliverAt v.u a.x.lane w.data
       [⟨BitVec.ofNat 32 ((presLines v.b a.a).zipIdx.foldl (fun n x => if x.1 != 0xFFFFFFFF && !v.b.absent.contains x.1 then n + 2 ^ x.2 else n) 0), false⟩] (acqs (ordOf w))) s1).advance v)) ∧
   (∀ (s : State) (v : View) (w : WM), s.view? = some v →
     (ordOf w = .plain → exec (.fence w) s = .next (s.advance v)) ∧
     (ordOf w = .acquire → (∀ l ∈ v.active w.g, s.loadsOut v.u l = false) → exec (.fence w) s = .next (s.advance v)) ∧
     (ordOf w = .release →
       exec (.fence w) s = .next (((v.active w.g).foldl (fun s l => s.modThread v.u l fun t => { t with relf := t.unp }) s).advance v)) ∧
     (ordOf w = .acqRel → (∀ l ∈ v.active w.g, v.unpOf l = [] ∧ ∀ e ∈ v.g.sq, e.lane ≠ l) → exec (.fence w) s = .next (s.advance v)))) ∧
  (∀ (s s1 : State) (v : View) (w : WC) (l : Nat) (i : LaneIn) (tl : Tl),
     (SplitReady w { src := [mSrc w.b 1], dst := some ⟨w.a, 2⟩ } [0] s v l i s1 → v.b.tl? (i.w 0).v.toNat = some tl → RoomFor s1 v ⟨w.a, 2⟩ v.lanes →
       exec (.tlread w) s = .next ((toAll v ⟨w.a, 2⟩ v.lanes [⟨lo32 (BitVec.ofNat 64 tl.ctr), false⟩, ⟨hi32 (BitVec.ofNat 64 tl.ctr), false⟩] s1).advance v)) ∧
     (SplitReady w { src := [mSrc w.a 2, mSrc w.b 1] } [0, 1] s v l i s1 → v.b.tl? (i.w 1).v.toNat = some tl → (i.d 0).toNat ≤ tl.ctr →
       exec (.tlwait w) s = .next (s1.advance v)))

/-- BBINIT, BBEXP, BBARV and BBWAIT complete: lane by lane on an empty store queue, initialising, expecting bytes, arriving with the phase returned, and waiting for the other phase (R259 to R262; that a lane takes DATA's entries before BASE's where both name ports is the model's order, log 55, and that an instruction meeting an errored word counts it, log 87). -/
def Obligations.ByteBarriersComplete : Prop :=
  ∀ (s s1 t : State) (v : View) (w : WM) (ins : List LaneIn), SharedOk v (nearLanes w ins) 8 → Present v (nearLanes w ins) 8 → v.g.sq = [] →
    (MemReady w { src := [mSrc w.data 1, mSrc w.base 1] } true s v ins s1 →
      (eachLane (fun a s => if 1 ≤ (a.x.w 0).v.toNat ∧ (a.x.w 0).v.toNat ≤ 32767 then
          some (s.bbWrite (kShared v.u.blk a.a) ⟨false, (a.x.w 0).v.toNat, (a.x.w 0).v.toNat, 0⟩) else none) (nearLanes w ins) s1 = some t →
        exec (.bbinit w) s = .next (t.advance v)) ∧
      (eachLane (fun a s => let k := kShared v.u.blk a.a
          if s.psnAt k 8 then some (s.uncorrAt v.b.core) else
          if bytesOk ((s.bbRead k).bytes + (a.x.w 0).v.toInt) then some (s.bbWrite k { s.bbRead k with bytes := (s.bbRead k).bytes + (a.x.w 0).v.toInt }.test) else none)
          (nearLanes w ins) s1 = some t →
        exec (.bbexp w) s = .next (t.advance v)) ∧
      ((∀ a ∈ nearLanes w ins, let k := kShared v.u.blk a.a
          s.psnAt k 8 = false ∧ (s.bbRead k).ph ≠ (a.x.w 0).v.getLsbD 0) → (∀ a ∈ nearLanes w ins, s1.psnAt (kShared v.u.blk a.a) 8 = false) →
        exec (.bbwait w) s = .next (s1.advance v))) ∧
    (MemReady w { src := [mSrc w.base 1], dst := some ⟨w.data, 1⟩ } false s v ins s1 → (∀ a ∈ nearLanes w ins, v.unpOf a.x.lane = []) →
      LoadRoom s1 v w.data (nearLanes w ins) 1 →
      eachLane (fun a s => let k := kShared v.u.blk a.a
          if s.psnAt k 8 then some (writeDst (s.uncorrAt v.b.core) v.u a.x.lane ⟨w.data, 1⟩ [⟨0, true⟩]) else
          if (s.bbRead k).arr = 0 then none else
          some (writeDst (s.bbWrite k { s.bbRead k with arr := (s.bbRead k).arr - 1 }.test) v.u a.x.lane ⟨w.data, 1⟩ [⟨if (s.bbRead k).ph then 1 else 0, false⟩]))
          (nearLanes w ins) s1 = some t →
      exec (.bbarv w) s = .next (t.advance v))

namespace Sys2Proof.Spec

/-- What an instruction reads and writes in memory, lane by lane: its fields, its operands, whether its destination registers are ones it may write, whether any poisoned source retires a lane, and the bytes it touches at each lane's address. -/
structure MemUse where
  w : WM
  x : Uses
  ok : Bool
  all : Bool
  n : Nat
/-- The instructions that access the shared space (R241, R250, R256, R257, R261). -/
def nearUse (v : View) : Instr → Option MemUse
  | .lds w _ => some ⟨w, { src := [mSrc w.base 1], dst := some ⟨w.data, Width.words w.wid⟩ }, true, false, Width.bytes w.wid⟩
  | .sts w => some ⟨w, { src := [mSrc w.data (Width.words w.wid), mSrc w.base 1] }, true, false, Width.bytes w.wid⟩
  | .atom w .shared _ => some ⟨w, { src := [mSrc w.data (Width.words w.wid), mSrc w.base 1] }, v.b.rwOk v.front w.data (Width.words w.wid), false, Width.bytes w.wid⟩
  | .acas w .shared => some ⟨w, { src := [mSrc w.data (2 * Width.words w.wid), mSrc w.base 1] }, v.b.rwOk v.front w.data (2 * Width.words w.wid), false, Width.bytes w.wid⟩
  | .presw w _ => some ⟨w, { src := [mSrc w.base 1] }, true, false, 1⟩
  | .presq w => some ⟨w, { src := [mSrc w.base 1], dst := some ⟨w.data, 1⟩ }, true, false, 1⟩
  | .bbinit w | .bbexp w | .bbwait w => some ⟨w, { src := [mSrc w.data 1, mSrc w.base 1] }, true, true, 8⟩
  | .bbarv w => some ⟨w, { src := [mSrc w.base 1], dst := some ⟨w.data, 1⟩ }, true, false, 8⟩
  | _ => none
/-- The instructions that access the scratchpad, with whether they store (R241, R250). -/
def farUse (v : View) : Instr → Option (MemUse × Bool)
  | .ldp w _ => some (⟨w, { src := [mSrc w.base 2], dst := some ⟨w.data, Width.words w.wid⟩ }, true, false, Width.bytes w.wid⟩, false)
  | .stp w => some (⟨w, { src := [mSrc w.data (Width.words w.wid), mSrc w.base 2] }, true, false, Width.bytes w.wid⟩, true)
  | .atom w .scratch _ => some (⟨w, { src := [mSrc w.data (Width.words w.wid), mSrc w.base 2] }, v.b.rwOk v.front w.data (Width.words w.wid), false, Width.bytes w.wid⟩, true)
  | .acas w .scratch => some (⟨w, { src := [mSrc w.data (2 * Width.words w.wid), mSrc w.base 2] }, v.b.rwOk v.front w.data (2 * Width.words w.wid), false, Width.bytes w.wid⟩, true)
  | _ => none
/-- Its lanes may issue and are read. -/
def MemUse.Ready (m : MemUse) (s : State) (v : View) (ins : List LaneIn) (s1 : State) : Prop := MemReady m.w m.x m.all s v ins s1 ∧ m.ok = true

end Sys2Proof.Spec

/-- An instruction of the shared space (LDS, STS, ATOM and ACAS there, PRESW, PRESQ and the four byte barriers, whose words are 8 bytes) with a misaligned lane takes the misalignment fault of the lowest such lane, else one with a lane outside the block's space the range fault of the lowest such; nothing is stored, loaded, queued or held for (R215, R242, R256, R257, R261). -/
def Obligations.SharedAccessFaults : Prop :=
  ∀ (i : Instr) (s s1 : State) (v : View) (m : MemUse) (ins : List LaneIn) (a : LaneAt), nearUse v i = some m → m.Ready s v ins s1 →
    let first (ok : Nat → Bool) : Prop := (nearLanes m.w ins).find? (fun l => !ok l.a) = some a
    (first (fun x => x % m.n == 0) → exec i s = .next (s.takeFault v.u 0x09 (BitVec.ofNat 64 a.a) a.x.lane 0 v.g.pcOf v.g.runs)) ∧
    ((∀ x ∈ nearLanes m.w ins, x.a % m.n = 0) → first (fun x => v.b.inDecl x m.n || v.b.inShelf x m.n) →
      exec i s = .next (s.takeFault v.u 0x0A (BitVec.ofNat 64 a.a) a.x.lane 0 v.g.pcOf v.g.runs))

/-- What memory instructions leave at issue. Loads and stores of the shared and spill spaces, presence instructions, fences and waits change no byte of memory, no engine register and no context record, whatever they answer: a store is performed when its entry leaves the queue. So do the loads, stores and atomics of the scratchpad whose addresses translate (one that does not takes the page fault, of another statement). ATOM and ACAS of the shared space change only their lanes' bytes, BBINIT, BBEXP and BBARV only the 8 bytes of each lane's barrier and, for BBARV into a port, one place of its ring a lane: every other byte reads as before. TLREAD's next state is stated whole elsewhere (R215, R250, R252, R261, R269, R271). -/
def Obligations.MemoryIssueFrames : Prop :=
  (∀ (i : Instr) (s t : State),
     (match i with | .lds .. | .ldk .. | .sts _ | .stk _ | .presw .. | .presq _ | .fence _ | .bbwait _ | .tlwait _ => True | _ => False) →
     exec i s = .next t → t.mem = s.mem ∧ SameEngines s t ∧ SameRecords s t) ∧
  (∀ (i : Instr) (s s1 t : State) (v : View) (m : MemUse) (wr : Bool) (ins : List LaneIn), farUse v i = some (m, wr) → m.Ready s v ins s1 →
     (∀ a ∈ farLanes m.w ins, (s1.xlate v.b.core v.b.ctx (BitVec.ofNat 56 a.a)).isSome = true) → exec i s = .next t →
     t.mem = s.mem ∧ SameEngines s t ∧ SameRecords s t) ∧
  (∀ (i : Instr) (s s1 t : State) (v : View) (m : MemUse) (ins : List LaneIn), memCanonical s →
     (match i with | .atom _ .shared _ | .acas _ .shared | .bbinit _ | .bbexp _ | .bbarv _ => True | _ => False) → nearUse v i = some m → m.Ready s v ins s1 →
     exec i s = .next t →
     (∀ a, (∀ x ∈ nearLanes m.w ins, a < kShared v.u.blk x.a ∨ kShared v.u.blk x.a + m.n ≤ a) →
       (∀ d q r, m.x.dst = some d → opKind d.f = .port q → (s1.blk? v.u.blk).bind (·.ring? q) = some r →
         ∀ k < ins.length, a < kShared v.u.blk (r.place (r.tail + k)) ∨ kShared v.u.blk (r.place (r.tail + k)) + 4 ≤ a) →
       memGet t.mem a = memGet s.mem a) ∧ SameEngines s t ∧ SameRecords s t)

/-! ## Engine instructions -/

namespace Sys2Proof.Spec

/-- The bytes of a range that an instruction of the unit reads, with their poison: the range translates, in the tiers allowed, over no lost link (R349, R461). -/
def Reads (s : State) (v : View) (a n : Nat) (tiers : List Nat) (r : List Byte × List Bool) : Prop :=
  ∃ rs, s.engRange v.b.core v.b.ctx a n false = .ok rs ∧ rs.all (fun x => tiers.contains x.leaf.tier) = true ∧ s.runsHeld rs = false ∧ s.engRead rs = r
/-- The state after an instruction of the unit writes bytes at an address that translates for writing. -/
def Writes (s : State) (v : View) (a : Nat) (bs : List Byte) (t : State) : Prop :=
  ∃ rs, s.engRange v.b.core v.b.ctx a bs.length true = .ok rs ∧ s.runsHeld rs = false ∧ t = s.engWrite rs bs (bs.map fun _ => false)
/-- The two words of a number. -/
def numWords (n : Nat) : List PWord := [⟨lo32 (BitVec.ofNat 64 n), false⟩, ⟨hi32 (BitVec.ofNat 64 n), false⟩]
/-- No release fence of the lanes has accesses before it outstanding (R278). -/
def Fenced (v : View) (ls : List Nat) : Prop := v.cmdPre ls = []
/-- An engine instruction is over for its group: a place it held in an engine context's order is given up with its slot (R37, R344, R347). -/
def engOver (v : View) (s : State) : State := (s.modBlk v.u.blk (·.leaveWait v.u)).uniformEnd v
/-- The last number of the attention context that comes before the unit's instruction (R347). -/
def attnBefore (v : View) : Nat := (v.b.waitOf v.u).elim v.b.attn.tl.given (·.after)
/-- All that comes before the unit's instruction in the attention context's order is over (R347). -/
def AttnTurn (v : View) : Prop := (∀ o ∈ v.b.attn.ops, attnBefore v < o.no) ∧ (v.b.attn.waits.head?.elim true fun w => w.u == v.u) = true
/-- The four copies as instructions. -/
def copyInstr (k : CpyKind) (w : WC) (src : CSrc) : Instr := match k with | .cpy => .cpy w src | .cpys => .cpys w src | .cpyg => .cpyg w src | .cpyc => .cpyc w src
/-- An M-class instruction: the group assembled, fields legal, no waited slot busy and not the one it sets (or it has passed them and holds in an engine context's order), the lowest live lane's operands readable and clean, no destination on its way (R37, R160, R337). -/
def EngReady (w : WE) (x : Uses) (slot : Bool) (s : State) (v : View) (i : LaneIn) (s1 : State) : Prop :=
  ∃ l, Assembled s v w.g l ∧ v.legal x = true ∧
    ((v.b.waitOf v.u).isSome = true ∨ v.b.slots &&& w.wait = 0 ∧ (slot && w.sen && v.b.slots.getLsbD w.set.toNat) = false) ∧
    readAll v [l] { x with dst := none } s = .ok ([i], s1) ∧ (x.dst.elim false fun d => v.g.live.any fun k => dstBusy s1 v.u k d) = false ∧ i.psn = false
/-- The instructions that give the matrix array an operation: word, fields, and the operation with what its acceptance does to the block, where the checks of R337 to R343 and R364 pass. -/
structure MRow where
  w : WE
  uses : Uses
  op : LaneIn → Block → Option (MKind × (Block → Block))
def matrixRow : Instr → Option MRow
  | .mwld w => some ⟨w, { src := [mSrc w.b 4] }, fun x _ =>
      let n (i : Nat) : Nat := (x.w 0 i).v.toNat
      let d : WDesc := ⟨n 0, n 1, n 2 / 16 % 4, n 2 % 8⟩
      if d.wcmp < 2 ∧ d.wfmt < 4 ∧ d.wofs % 128 = 0 ∧ d.wstep % 128 = 0 ∧ d.wofs + tileBytes d.wfmt d.wcmp ≤ 2 ^ 21 then
        some (.mwld d, fun b => { b with matrix := { b.matrix with wd := some d } }) else none⟩
  | .mloop w => some ⟨w, { src := [mSrc w.a 1, mSrc w.b 4, mSrc w.c 1] }, fun x b =>
      let n (i : Nat) : Nat := (x.w 1 i).v.toNat
      let row := (x.w 0).v.toNat % 16384; let m := (x.w 2).v.toNat % 1024 + 1; let k := (x.w 2).v.toNat / 65536 % 256 + 1
      let scb := n 2 / 65536; let fmt := n 2 % 8
      b.matrix.wd.bind fun d =>
        if fmt < 4 ∧ n 3 % 32 = 0 ∧ (fmt < 2 → scb % 4 = 0 ∧ n 3 / 32 + 3 * k ≤ scb) ∧ (if d.wfmt < 2 then fmt < 2 else d.wfmt = fmt) ∧ n 0 % 4 = 0 ∧ n 1 % 4 = 0 ∧
          row + m ≤ 16384 ∧
          (((List.range m).flatMap fun i => (rowRanges fmt scb (n 3) (96 * k)).map fun r => (rowBase (n 0) (n 1) i + r.1, r.2)).all fun r => b.inDecl r.1 r.2 || b.inShelf r.1 r.2) = true ∧
          d.wofs + (k - 1) * d.wstep + tileBytes d.wfmt d.wcmp ≤ 2 ^ 21 then
          some (.mloop row m k ((x.w 2).v.getLsbD 24) (n 0) (n 1) scb fmt (n 3) d, id) else none⟩
  | .mrowsc w => some ⟨w, { src := [mSrc w.a 1, mSrc w.b 1, mSrc w.c 1] }, fun x b =>
      let row := (x.w 0).v.toNat % 16384; let o := (x.w 1).v.toNat; let m := (x.w 2).v.toNat % 1024 + 1
      if o % 4 = 0 ∧ row + m ≤ 16384 ∧ (b.inDecl o (4 * m) || b.inShelf o (4 * m)) = true then some (.mrowsc row m o, id) else none⟩
  | .mdrain w => some ⟨w, { src := [mSrc w.a 1, mSrc w.b 4, mSrc w.c 1] }, fun x b =>
      let n (i : Nat) : Nat := (x.w 1 i).v.toNat
      let row := (x.w 0).v.toNat % 16384; let m := (x.w 2).v.toNat % 1024 + 1
      let scb := n 2 / 65536; let fmt := n 2 % 8
      let rs := (List.range m).flatMap (drainRanges (n 0) (n 1) scb fmt (n 3))
      if fmt < 5 ∧ n 3 % 32 = 0 ∧ (fmt < 2 → scb % 4 = 0 ∧ n 3 / 32 + 4 ≤ scb) ∧ n 0 % 4 = 0 ∧ n 1 % 4 = 0 ∧ row + m ≤ 16384 ∧ rs.all (fun r => b.inDecl r.1 r.2) = true then
        some (.mdrain row m ((x.w 2).v.getLsbD 24) (n 0) (n 1) scb (BitVec.ofNat 8 (n 2 / 256)).toInt fmt (n 3), fun b => rs.foldl (fun b r => b.clearLines r.1 r.2) b) else none⟩
  | .mzero w => some ⟨w, { src := [mSrc w.a 1, mSrc w.c 1] }, fun x _ =>
      let row := (x.w 0).v.toNat % 16384; let m := (x.w 1).v.toNat % 1024 + 1
      if row + m ≤ 16384 then some (.mzero row m, id) else none⟩
  | .amask w => some ⟨w, { src := [mSrc w.a 1, mSrc w.b 1, mSrc w.c 1] }, fun x b =>
      let row := (x.w 0).v.toNat % 16384; let o := (x.w 1).v.toNat; let m := (x.w 2).v.toNat % 1024 + 1
      if m ≤ 128 ∧ row + 256 + m - 1 ≤ 16383 ∧ o % 4 = 0 ∧ b.inDecl o (48 * m) = true then some (.amask row m o, id) else none⟩
  | _ => none
/-- The block and the core after an operation is accepted: its number, its place in the acceptance order, its slot busy (R37, R320, R322). -/
def acceptedM (v : View) (w : WE) (k : MKind) (f : Block → Block) (s : State) : State :=
  let op : MOp := { no := v.b.matrix.tl.given + 1, acc := (s.coreD v.b.core).accs, pre := v.cmdPre v.g.live, slot := if w.sen then some w.set.toNat else none,
                    kind := k, begun := false, step := 0, got := [], hand := [], done := false, bad := false }
  (s.modBlk v.u.blk fun b => (f { b with matrix := { b.matrix with tl := ⟨v.b.matrix.tl.ctr, v.b.matrix.tl.given + 1⟩, ops := b.matrix.ops ++ [op] } }).setSlot op.slot).modCore
    v.b.core fun c => { c with accs := op.acc + 1 }
/-- The same for the attention sequencer (R347). -/
def acceptedA (v : View) (w : WE) (k : AKind) (pass : Pass) (bad : Bool) (next : Option Pass) (s : State) : State :=
  let op : AOp := { no := v.b.attn.tl.given + 1, acc := (s.coreD v.b.core).accs, pre := v.cmdPre v.g.live, slot := if w.sen then some w.set.toNat else none,
                    kind := k, pass := pass, ended := false, hand := [], last := none, fault := .none, bad := bad }
  (s.modBlk v.u.blk fun b => ({ b with attn := { b.attn with tl := ⟨v.b.attn.tl.ctr, v.b.attn.tl.given + 1⟩, ops := b.attn.ops ++ [op], pass := next } } : Block).setSlot op.slot).modCore
    v.b.core fun c => { c with accs := op.acc + 1 }
/-- The stream context that a stream instruction names: aligned, readable in HBM, legal, the instruction's turn come (R347, R367, R370). -/
def StreamAt (s : State) (v : View) (b : DWord) (c : SCtx) (ps : List Bool) : Prop :=
  AttnTurn v ∧ Fenced v v.g.live ∧ b.toNat % 2 ^ 56 % 256 = 0 ∧
    ∃ r, Reads s v (b.toNat % 2 ^ 56) 256 [0] r ∧ c = sctxOf (b.toNat % 2 ^ 56) r.1 ∧ c.legal = true ∧ ps = r.2
/-- A word read from `n` bytes at offset `o`: poisoned where one of these bytes is (R306, R443). -/
def wordAt (ps : List Bool) (v o n : Nat) : PWord := ⟨BitVec.ofNat 32 v, ((ps.drop o).take n).any id⟩
/-- The words of a collective descriptor (R477). -/
def collOf (bs : List Byte) (kind no : Nat) (ranks : List Nat) (use : Nat) (pre : List CmdPre) (bad : Bool) : CollOp :=
  { no := no, pre := pre, kind := kind, src := fieldAt bs 0 7, dst := fieldAt bs 8 7, ranks := ranks, count := fieldAt bs 0x18 4, rank := fieldAt bs 0x1E 2,
    fmt := fieldAt bs 0x20 1, op := fieldAt bs 0x21 1, cid := fieldAt bs 0x24 4, use := use, tile := 0, work := [], data := ([], []), seen := [], joined := false,
    out := none, fault := .none, bad := bad }

end Sys2Proof.Spec

/-- The four copies complete, with coordinates in registers or in shared memory: with the checks of R300 passed the copy joins its context under the next number, which every lane receives; a CPY marks the lines it writes absent (R297 to R301). -/
def Obligations.CopiesComplete : Prop :=
  ∀ (s s1 : State) (v : View) (w : WC) (l : Nat) (i : LaneIn) (kind : CpyKind) (src : CSrc) (cw : List PWord) (c : CopyCtx),
    SplitReady w { src := [mSrc w.b 4, mSrc w.c (if src = .creg then 4 else 1)], dst := some ⟨w.a, 2⟩ } [0, 1] s v l i s1 →
    let w0 := (i.w 0 0).v.toNat
    let ofs := (i.w 0 1).v.toNat
    let srec := v.b.recs.getD (w0 % 16) .none
    let drec := if kind = .cpyg then some (v.b.recs.getD (w0 / 16 % 16) .none) else none
    let nb := (srec.shape.map (·.nb)).getD 0
    let nw := if kind = .cpyg then 18 else 9
    let o := (i.w 1).v.toNat
    let bb := if kind = .cpy ∧ (w0 / 2 ^ 15) % 2 = 1 then some (w0 / 2 ^ 16 * 8) else none
    srec ≠ .none → drec ≠ some .none → (∀ r d, srec = .rcd r → drec = some (.rcd d) → r.esz = d.esz ∧ r.n = d.n) →
    (kind ≠ .cpyg → ofs % 128 = 0 ∧ (if kind = .cpyc then ofs + nb ≤ 2 ^ 21 else (v.b.inDecl ofs nb || v.b.inShelf ofs nb) = true)) →
    (src = .creg → cw = i.src.getD 1 []) →
    (src = .cmem → o % 4 = 0 ∧ v.b.inDecl o (4 * nw) = true ∧ v.g.sq = [] ∧ cw = s1.cmemWords v.u.blk o nw) →
    (∀ x, bb = some x → v.b.inDecl x 8 = true) → v.b.copies[w0 / 256 % 4]? = some c → c.ops.length < 64 →
    let cs := cw.map fun w => w.v.toInt
    let op : CopyOp :=
      { no := c.tl.given + 1, cmd := (i.src.headD []).map (·.v), pre := v.cmdPre v.lanes, kind := kind, src := if kind = .cpys then none else srec.shape,
        dst := if kind = .cpys then srec.shape else drec.bind (·.shape), srec := w0 % 16, drec := w0 / 16 % 16,
        sc := if kind = .cpyg then nine (cs.take (if src = .creg then 2 else 9)) else nine cs,
        dc := if kind = .cpyg then nine (cs.drop (if src = .creg then 2 else 9)) else nine cs,
        ofs := ofs, bb := bb, nb := nb, walked := 0, todo := [], hand := [], landed := 0, pages := [], seen := [], fault := .none,
        bad := srec.psn || drec.elim false (·.psn) || cw.any (·.p) }
    let t := s1.modBlk v.u.blk fun b =>
      let b := { b with copies := b.copies.set (w0 / 256 % 4) ⟨⟨c.tl.ctr, c.tl.given + 1⟩, c.ops ++ [op]⟩ }
      if kind = .cpy then b.clearLines ofs nb else b
    RoomFor t v ⟨w.a, 2⟩ v.lanes →
    exec (copyInstr kind w src) s = .next ((toAll v ⟨w.a, 2⟩ v.lanes (numWords (c.tl.given + 1)) t).advance v)

/-- The weight-stream instructions complete: a start takes a number for every layer, a release frees arrived windows in order, a stop drops the layers not begun (R316 to R318; that a start whose descriptor carries an error is accepted under one number and marked bad is the model's reading, log 23). -/
def Obligations.WeightStreamInstructionsComplete : Prop :=
  ∀ (s s1 : State) (v : View) (w : WC) (l : Nat) (i : LaneIn),
    (∀ r : List Byte × List Bool, SplitReady w { src := [mSrc w.b 2, mSrc w.c 1], dst := some ⟨w.a, 2⟩ } [0, 1] s v l i s1 → Fenced v v.lanes →
      v.b.pagec.stream = none → (i.d 0).toNat % 2 ^ 56 % 64 = 0 → Reads s1 v ((i.d 0).toNat % 2 ^ 56) 64 [0, 1, 2, 3, 4, 5] r →
      let n0 := v.b.pagec.tl.given + 1
      let d := wstreamOf r.1 (i.w 1).v.toNat n0
      let fin (f : PCtx → PCtx) : State := (toAll v ⟨w.a, 2⟩ v.lanes (numWords n0) (s1.modBlk v.u.blk fun b => { b with pagec := f b.pagec })).advance v
      RoomFor s1 v ⟨w.a, 2⟩ v.lanes →
      (r.2.any id = true →
        exec (.wstreamStart w) s = .next (fin fun c => { c with tl := ⟨c.tl.ctr, n0⟩, pend := c.pend ++ [n0], fly := c.fly ++ [⟨n0, 0, 0, 0, 0, 0, 0, false, .none, false, true⟩] })) ∧
      (r.2.any id = false → d.legal = true → (i.w 1).v.toNat < d.nlayer →
        exec (.wstreamStart w) s = .next (fin fun c => { c with
          tl := ⟨c.tl.ctr, c.tl.given + (d.nlayer - (i.w 1).v.toNat)⟩
          pend := c.pend ++ (List.range (d.nlayer - (i.w 1).v.toNat)).map (n0 + ·)
          stream := some d }))) ∧
    (∀ d, SplitReady w { src := [mSrc w.c 1] } [0] s v l i s1 → Fenced v v.lanes → v.b.pagec.stream = some d → 1 ≤ (i.w 0).v.toNat → (i.w 0).v.toNat ≤ 16 →
      (i.w 0).v.toNat ≤ d.arrived.length →
      exec (.wstreamRel w) s = .next ((s1.modBlk v.u.blk fun b => { b with pagec := { b.pagec with
        stream := (let e : WStream := { d with arrived := d.arrived.drop (i.w 0).v.toNat, freed := d.freed ++ d.arrived.take (i.w 0).v.toNat }
          if e.freed.contains (d.nlayer - 1) then none else some e) } }).advance v)) ∧
    (∀ d, SplitReady w {} [] s v l i s1 → Fenced v v.lanes → v.b.pagec.stream = some d →
      exec (.wstreamStop w) s = .next ((s1.modBlk v.u.blk fun b => { b with pagec :=
        (let cut := (b.pagec.fly.filter fun l => decide (d.n0 ≤ l.no) && !l.begun).map (·.no)
         let later := (List.range (d.nlayer - d.next)).map fun i => d.n0 + (d.next - d.first) + i
         ({ b.pagec with pend := b.pagec.pend.filter fun n => !(cut.contains n || later.contains n), fly := b.pagec.fly.filter fun l => !cut.contains l.no, stream := none } : PCtx).raised) }).advance v))

/-- MWLD, MLOOP, MROWSC, MDRAIN, MZERO and AMASK complete: with their checks passed, the operation with its operands as read joins the block's matrix context and the core's acceptance order (R320 to R322, R336 to R343, R364). -/
def Obligations.MatrixInstructionsComplete : Prop :=
  ∀ (i : Instr) (R : MRow) (s s1 : State) (v : View) (x : LaneIn) (k : MKind) (f : Block → Block), matrixRow i = some R → EngReady R.w R.uses true s v x s1 →
    R.op x v.b = some (k, f) → v.b.matrix.ops.length < 64 → exec i s = .next (engOver v (acceptedM v R.w k f s1))

/-- TREC completes: the record at an aligned, readable address fills its slot where it is legal, or marks the slot where a byte is poisoned. MSTAT completes: with every earlier matrix operation complete it writes the array status to every lane, and clears it where asked (R296, R332, R344). -/
def Obligations.TensorRecordAndMatrixStatusComplete : Prop :=
  (∀ (s s1 : State) (v : View) (w : WE) (i : LaneIn) (clr : Bool), EngReady w { dst := some ⟨w.a, 1⟩ } false s v i s1 →
     (∀ o ∈ v.b.matrix.ops, ((v.b.waitOf v.u).map (·.after)).getD v.b.matrix.tl.given < o.no) →
     RoomFor s1 v ⟨w.a, 1⟩ v.g.live →
     exec (.mstat w clr) s = .next (engOver v (let t := toAll v ⟨w.a, 1⟩ v.g.live [⟨v.b.matrix.status, false⟩] s1
       if clr then t.modBlk v.u.blk fun b => { b with matrix := { b.matrix with status := 0 } } else t))) ∧
  (∀ (s s1 : State) (v : View) (w : WC) (l : Nat) (i : LaneIn) (r : List Byte × List Bool), SplitReady w { src := [mSrc w.b 2, mSrc w.c 1] } [0, 1] s v l i s1 →
     Fenced v v.lanes → (i.d 0).toNat % 2 ^ 56 % 128 = 0 → Reads s1 v ((i.d 0).toNat % 2 ^ 56) 128 [0, 1, 2, 3, 4, 5] r →
     let k := (i.w 1).v.toNat % 16
     (r.2.any id = true →
       exec (.trec w) s = .next (((s1.modBlk v.u.blk fun b => { b with recs := b.recs.set k (.poisoned (trecOf r.1)) }).uncorrAt v.b.core).advance v)) ∧
     (r.2.any id = false → (trecOf r.1).legal = true →
       exec (.trec w) s = .next ((s1.modBlk v.u.blk fun b => { b with recs := b.recs.set k (.rcd (trecOf r.1)) }).advance v)))

/-- ASEQ and ATILE complete: ASEQ starts the pass that its descriptor and table give, ATILE takes the pass's next tile and returns its number, or 0 where there is none (R350 to R352, R357, R358; that an ASEQ whose descriptor carries an error is accepted and marked bad is the model's reading, log 23). -/
def Obligations.AttentionInstructionsComplete : Prop :=
  ∀ (s s1 : State) (v : View) (w : WE) (x : LaneIn), v.b.attn.ops.length < 64 →
    (∀ r q : List Byte × List Bool, EngReady w { src := [mSrc w.b 2] } true s v x s1 → Fenced v v.g.live → (x.d 0).toNat % 2 ^ 56 % 128 = 0 →
      Reads s1 v ((x.d 0).toNat % 2 ^ 56) 128 [0, 1, 2, 3, 4, 5] r →
      (r.2.any id = true → exec (.aseq w) s = .next (engOver v (acceptedA v w .aseq (passOf r.1 []) true v.b.attn.pass s1))) ∧
      (r.2.any id = false → (passOf r.1 []).fieldsOk = true → fieldAt r.1 0 7 % 4 = 0 →
        Reads s1 v (fieldAt r.1 0 7) (4 * (fieldAt r.1 0x10 4 + 1)) [0, 1] q → q.2.any id = false →
        let p := passOf r.1 ((List.range (fieldAt r.1 0x10 4 + 1)).map fun i => fieldAt q.1 (4 * i) 4)
        p.areasOk v.b = true → exec (.aseq w) s = .next (engOver v (acceptedA v w .aseq p false (some p) s1)))) ∧
    (EngReady w { dst := some ⟨w.a, 2⟩ } true s v x s1 → RoomFor s1 v ⟨w.a, 2⟩ v.g.live →
      (∀ p, v.b.attn.pass = some p → p.plan[p.next]? = none →
        exec (.atile w) s = .next (engOver v (toAll v ⟨w.a, 2⟩ v.g.live (numWords 0) s1))) ∧
      (∀ p pl, v.b.attn.pass = some p → p.plan[p.next]? = some pl →
        let t := acceptedA v w (.atile p.next pl [] none) p false (some { p with next := p.next + 1 }) s1
        RoomFor t v ⟨w.a, 2⟩ v.g.live →
        exec (.atile w) s = .next (engOver v (toAll v ⟨w.a, 2⟩ v.g.live (numWords (v.b.attn.tl.given + 1)) t))))

/-- The group holds at its survivor instruction, whose slots are on their way. -/
def slotsGoOn (v : View) (w : WE) (s : State) (m : SlotMove) : State :=
  ((setMove v.u.blk (some m) s).modBlk v.u.blk (·.enqueueWait v.u true (WE.slot? w))).holdStep v.u none
/-- SVMAP, SVSET and SVCLR complete: the rank of a position, or all ones where it has no slot; one already as asked changes nothing; where no slot has to move the survivor word is rewritten at once, else the slots move one by one while the group holds, each read and then written access by access, and the survivor word is written last, in one step (R281, R353 to R356; that a survivor word with an error gives SVMAP poison and is used, and written back with its error, by SVSET and SVCLR, is the model's reading, log 26). -/
def Obligations.SurvivorInstructionsComplete : Prop :=
  (∀ (s s1 : State) (v : View) (w : WE) (x : LaneIn) (a : Nat) (rs : List Run), AttnTurn v → v.b.attn.move = none → Fenced v v.g.live → (x.w 1).v.toNat ≤ 63 →
    s1.resolve v.b.ctx x.lane (x.handle 0) = .addr a → s1.runsHeld rs = false →
    let p := (x.w 1).v.toNat
    let surv := leNat (s1.engRead rs).1
    let psn := (s1.engRead rs).2.any id
    (EngReady w { src := [mSrc w.b 4, mSrc w.c 1], dst := some ⟨w.a, 1⟩ } true s v x s1 → s1.engRange v.b.core v.b.ctx a 8 false = .ok rs →
      RoomFor s1 v ⟨w.a, 1⟩ v.g.live →
      exec (.svmap w) s = .next (engOver v (toAll v ⟨w.a, 1⟩ v.g.live [if psn then ⟨0, true⟩ else ⟨BitVec.ofNat 32 (if surv.testBit p then popc64 (surv % 2 ^ p) else 0xFFFFFFFF), false⟩] s1))) ∧
    (∀ pass, EngReady w { src := [mSrc w.b 4, mSrc w.c 1] } true s v x s1 → (v.b.waitOf v.u).elim v.b.attn.pass (·.pass) = some pass → s1.engRange v.b.core v.b.ctx a 8 true = .ok rs →
      (surv.testBit p = true → exec (.svset w) s = .next (engOver v s1)) ∧
      (surv.testBit p = false → exec (.svclr w) s = .next (engOver v s1)) ∧
      let n := popc64 surv
      let q := popc64 (surv % 2 ^ p)
      let m : SlotMove := ⟨v.u, a, BitVec.ofNat 64 surv, psn, p, 2 * pass.hd, 0, none, .none⟩
      (surv.testBit p = false →
        (q = n → exec (.svset w) s = .next (engOver v (setMove v.u.blk none (s1.engWrite rs (leBytes 8 (surv ||| 2 ^ p)) (List.replicate 8 psn))))) ∧
        (∀ t, q < n → s1.slotRuns v.b a (2 * pass.hd) (n - 1) n = .ok t → exec (.svset w) s = .next (slotsGoOn v w s1 { m with busy := some t }))) ∧
      (surv.testBit p = true →
        (q + 1 = n → exec (.svclr w) s = .next (engOver v (setMove v.u.blk none (s1.engWrite rs (leBytes 8 (surv ^^^ 2 ^ p)) (List.replicate 8 psn))))) ∧
        (∀ t, q + 1 < n → s1.slotRuns v.b a (2 * pass.hd) (q + 1) q = .ok t → exec (.svclr w) s = .next (slotsGoOn v w s1 { m with busy := some t }))))) ∧
  (∀ (s : State) (v : View) (w : WE) (up : Bool) (m : SlotMove), s.view? = some v → v.b.attn.move = some m → m.u = v.u → m.fault = .none →
    let again (t : State) : Prop := exec (if up then .svset w else .svclr w) s = .next t
    let moved (t : SlotBusy) : SlotMove := if t.reads = [] ∧ t.writes = [] then { m with busy := none, next := m.next + 1 } else { m with busy := some t }
    (∀ t r rest, m.busy = some t → t.reads = r :: rest → s.runsHeld [r.run] = false →
      let d := s.engRead [r.run]
      let put (x : List Byte × List Bool) : List Byte × List Bool := (splice x.1 r.ofs d.1, splice x.2 r.ofs d.2)
      again (slotsGoOn v w s (moved (if r.isV then { t with reads := rest, v := put t.v } else { t with reads := rest, k := put t.k })))) ∧
    (∀ t r rest, m.busy = some t → t.reads = [] → t.writes = r :: rest → s.runsHeld [r.run] = false →
      let x := if r.isV then t.v else t.k
      again (slotsGoOn v w (s.engWrite [r.run] ((x.1.drop r.ofs).take r.run.len) ((x.2.drop r.ofs).take r.run.len)) (moved { t with writes := rest }))) ∧
    (∀ i j t, m.busy = none → (m.pairs up)[m.next]? = some (i, j) → s.slotRuns v.b m.base m.size i j = .ok t → again (slotsGoOn v w s { m with busy := some t })) ∧
    (∀ rs, m.busy = none → (m.pairs up).length ≤ m.next → s.engRange v.b.core v.b.ctx m.base 8 true = .ok rs → s.runsHeld rs = false →
      let y := if up then m.surv.toNat ||| 2 ^ m.pos else m.surv.toNat ^^^ 2 ^ m.pos
      again (engOver v (setMove v.u.blk none (s.engWrite rs (leBytes 8 y) (List.replicate 8 m.psn))))))

/-- DSREAD, DSCOMMIT and DSCKPT.rel complete: a read returns the context's fields, or a frame entry's first four words, each with the poison of its own bytes; a commit under its condition logs the word, raises the commit position and every later length, and otherwise counts the failure, saying which in its predicate; a checkpoint release raises the floor within the limits (R306, R349, R370, R371, R373, R443; that the fields a commit or a release reads are used as their bytes stand is the model's reading, log 26). -/
def Obligations.StreamReadAndCommitComplete : Prop :=
  ∀ (s s1 : State) (v : View) (w : WE) (x : LaneIn) (c : SCtx) (ps : List Bool),
    (∀ sel, EngReady w { src := mSrc w.b 2 :: (if sel = .frame then [mSrc w.c 1] else []), dst := some ⟨w.a, 4⟩ } true s v x s1 → StreamAt s1 v (x.d 0) c ps →
      RoomFor s1 v ⟨w.a, 4⟩ v.g.live →
      let gives (ws : List PWord) : Prop := exec (.dsread w sel) s = .next (engOver v (toAll v ⟨w.a, 4⟩ v.g.live ws s1))
      (sel = .cur → gives [wordAt ps c.g 0 4, wordAt ps c.p 4 4, wordAt ps c.f 8 4, wordAt ps c.l 0xC 4]) ∧
      (sel = .pend → gives [wordAt ps c.pmin 0x10 4, wordAt ps c.npend 0x14 2, wordAt ps c.late 0x80 4, wordAt ps c.clamp 0x84 4]) ∧
      (∀ r, sel = .frame → Reads s1 v (c.ringAt (x.w 1).v.toNat) 32 [0, 1, 2, 3, 4, 5] r →
        gives ((List.range 4).map fun i => wordAt r.2 (fieldAt r.1 (4 * i) 4) (4 * i) 4))) ∧
    (EngReady w { src := [mSrc w.a 1, mSrc w.b 2] } true s v x s1 → StreamAt s1 v (x.d 1) c ps →
      let fails := c.pmin ≤ c.g ∨ c.l < c.g + 1 - min c.p c.g ∨ (c.ckn : Int) < (c.g : Int) + 2 - c.f
      (∀ t, fails → Writes s1 v (c.at_ + 0x88) (leBytes 4 (c.cfail + 1)) t →
        exec (.dscommit w) s = .next (engOver v (predTo v (w.c.setWidth 3) false v.g.live t))) ∧
      (∀ t1 t2 r t, ¬ fails → Writes s1 v (c.tlog + 4 * (c.g % c.tlogn)) (leBytes 4 (x.w 0).v.toNat) t1 → Writes t1 v c.at_ (leBytes 4 (c.g + 1)) t2 →
        Reads t2 v (c.clt + 4 * (c.seq + 1)) (4 * (c.nseq - c.seq)) [0, 1, 2, 3, 4, 5] r →
        Writes t2 v (c.clt + 4 * (c.seq + 1)) ((List.range (c.nseq - c.seq)).flatMap fun i => leBytes 4 (((fieldAt r.1 (4 * i) 4 : Nat) + (1 : Int)) % 2 ^ 32).toNat) t →
        exec (.dscommit w) s = .next (engOver v (predTo v (w.c.setWidth 3) true v.g.live t)))) ∧
    (∀ t, EngReady w { src := [mSrc w.b 2, mSrc w.c 1] } true s v x s1 → StreamAt s1 v (x.d 0) c ps →
      Writes s1 v (c.at_ + 8) (leBytes 4 (max c.f (min (x.w 1).v.toNat (min c.p (min c.g c.pmin))))) t →
      exec (.dsckptRel w) s = .next (engOver v t))

namespace Sys2Proof.Spec

/-- All tiers. -/
def anyTier : List Nat := [0, 1, 2, 3, 4, 5]
/-- A relation along a list. -/
def along {α β : Type} (R : α → β → β → Prop) : List α → β → β → Prop
  | [], s, t => s = t
  | a :: r, s, t => ∃ u, R a s u ∧ along R r u t
/-- The cut of one block of the sequence: a null entry stays; a block that the cut falls into loses its later survivor bits; one behind the cut loses all of them, and its handle is dropped and its entry null (R284, R372). -/
def CutBlock (v : View) (lane : Nat) (c : SCtx) (cut j : Nat) (s t : State) : Prop :=
  let ea := c.kvt + 16 * (c.seq * c.maxb + j)
  ∃ e, Reads s v ea 16 anyTier e ∧
    let h := handleOf e.1
    (h.null = true ∧ t = s ∨ h.null = false ∧ ∃ a y, s.resolve v.b.ctx lane h = .addr a ∧ Reads s v a 8 anyTier y ∧
      ((64 * j < cut ∧ Writes s v a (leBytes 8 (leNat y.1 % 2 ^ (cut - 64 * j))) t) ∨
        (cut ≤ 64 * j ∧ ∃ u, Writes s v a (List.replicate 8 0) u ∧
          Writes { u with hc := u.hc ++ [(⟨v.b.core, 4 * h.dev + h.die, v.b.ctx, h.idx, .drop (BitVec.ofNat 8 h.gen) h.e, none⟩ : HMsg)] } v ea (List.replicate 16 0) t)))
/-- A frame that stays pending: a later stamp becomes the cut, with CLAMPED set; the number kept is the least stamp so far (R372). -/
def CutFrame (v : View) (c : SCtx) (cut x : Nat) (s t : State × Nat) : Prop :=
  ∃ e, Reads s.1 v (c.ringAt x) 12 anyTier e ∧ t.2 = min s.2 (min cut (fieldAt e.1 0 4)) ∧
    (fieldAt e.1 0 4 ≤ cut ∧ t.1 = s.1 ∨ cut < fieldAt e.1 0 4 ∧ ∃ u, Writes s.1 v (c.ringAt x) (leBytes 4 cut) u ∧
      Writes u v (c.ringAt x + 8) (leBytes 4 (fieldAt e.1 8 4 ||| 2)) t.1)
/-- R372's lines down to the pending frames and PMIN: G, the lengths from SEQ + 1 on, the blocks from the cut's on, the pending stamps, the least of them. -/
def CutMade (v : View) (lane : Nat) (c : SCtx) (cut : Nat) (pend : List Nat) (s t : State) : Prop :=
  ∃ t1 t2 t3 t4 low two ws, Writes s v c.at_ (leBytes 4 cut) t1 ∧ Reads t1 v (c.clt + 4 * c.seq) 8 anyTier two ∧
    Reads t1 v (c.clt + 4 * (c.seq + 1)) (4 * (c.nseq - c.seq)) anyTier ws ∧
    (let oldLen := fieldAt two.1 4 4 - fieldAt two.1 0 4
     Writes t1 v (c.clt + 4 * (c.seq + 1)) ((List.range (c.nseq - c.seq)).flatMap fun i => leBytes 4 (((fieldAt ws.1 (4 * i) 4 : Int) + (cut - oldLen)) % 2 ^ 32).toNat) t2) ∧
    along (CutBlock v lane c cut) ((List.range (c.maxb - cut / 64)).map (cut / 64 + ·)) t2 t3 ∧
    along (CutFrame v c cut) pend (t3, 2 ^ 32 - 1) (t4, low) ∧ Writes t4 v (c.at_ + 0x10) (leBytes 4 low) t
/-- The snapshot at the cut is in the shared area, every line of it present, and nothing else has changed; with CKSZ 0 nothing has (R372). -/
def Restored (v : View) (c : SCtx) (cut ofs : Nat) (s t : State) : Prop :=
  (c.cksz = 0 → t = s) ∧ (c.cksz ≠ 0 → ∀ r, Reads s v (c.ckr + c.cksz * (cut % c.ckn)) c.cksz anyTier r →
    (∀ i b, r.1[i]? = some b → memGet t.mem (kShared v.u.blk (ofs + i)) = b) ∧
    (∀ k, k < kShared v.u.blk ofs ∨ kShared v.u.blk (ofs + c.cksz) ≤ k → memGet t.mem k = memGet s.mem k) ∧
    (∀ k < c.cksz / 128, ∀ b, t.blk? v.u.blk = some b → ofs / 128 + k ∉ b.absent) ∧ SameRecords s t ∧ ∀ u l k, reg? t u l k = reg? s u l k)

end Sys2Proof.Spec

/-- DSTRUNC in both forms and DSCKPT.save complete: the cut at the frame's or the given position is made, a frame cut takes its frame off the pending ones, a snapshot of the area is stored in its place. What a cut leaves is said line by line: G is the cut, the lengths of later sequences are less by what was cut, the survivor words lose the positions from the cut on, the handles behind it are dropped and their entries null, the pending stamps are at most the cut, PMIN is the least of them, and the snapshot at the cut is in the shared area; a write of the unit leaves its bytes where they translate to, and no other byte changes (R284, R349, R372, R373; that fields read are used as their bytes stand is the model's reading, log 26). -/
def Obligations.StreamTruncateAndCheckpointComplete : Prop :=
  ∀ (s s1 : State) (v : View) (w : WE) (x : LaneIn) (c : SCtx) (ps : List Bool), StreamAt s1 v (x.d 1) c ps →
    (c.cksz ≠ 0 → (x.w 0).v.toNat % 128 = 0 ∧ v.b.inDecl (x.w 0).v.toNat c.cksz = true) →
    (EngReady w { src := [mSrc w.a 1, mSrc w.b 2, mSrc w.c 1] } true s v x s1 →
      (∀ r t1 t2 t, c.npend ≠ 0 → (x.w 2).v.toNat = c.ftail % c.frn → Reads s1 v (c.ringAt c.ftail) 4 [0, 1, 2, 3, 4, 5] r →
        Writes s1 v (c.at_ + 0x1C) (leBytes 4 (c.ftail + 1)) t1 → Writes t1 v (c.at_ + 0x14) (leBytes 2 (c.npend - 1)) t2 →
        truncAt v x.lane (x.w 0).v.toNat c (leNat r.1) c.pending.tail t2 = .ok ((), t) → exec (.dstruncFrame w) s = .next (engOver v t)) ∧
      (∀ t, c.f ≤ (x.w 2).v.toNat → (x.w 2).v.toNat ≤ c.g → truncAt v x.lane (x.w 0).v.toNat c (x.w 2).v.toNat c.pending s1 = .ok ((), t) →
        exec (.dstruncPos w) s = .next (engOver v t)) ∧
      (∀ u, memCanonical s1 →
        (∀ r t1 t2, c.npend ≠ 0 → (x.w 2).v.toNat = c.ftail % c.frn → Reads s1 v (c.ringAt c.ftail) 4 anyTier r → Writes s1 v (c.at_ + 0x1C) (leBytes 4 (c.ftail + 1)) t1 →
          Writes t1 v (c.at_ + 0x14) (leBytes 2 (c.npend - 1)) t2 → CutMade v x.lane c (leNat r.1) c.pending.tail t2 u →
          (c.cksz ≠ 0 → ∃ q, Reads u v (c.ckr + c.cksz * (leNat r.1 % c.ckn)) c.cksz anyTier q) →
          ∃ t, exec (.dstruncFrame w) s = .next (engOver v t) ∧ Restored v c (leNat r.1) (x.w 0).v.toNat u t) ∧
        (c.f ≤ (x.w 2).v.toNat → (x.w 2).v.toNat ≤ c.g → CutMade v x.lane c (x.w 2).v.toNat c.pending s1 u →
          (c.cksz ≠ 0 → ∃ q, Reads u v (c.ckr + c.cksz * ((x.w 2).v.toNat % c.ckn)) c.cksz anyTier q) →
          ∃ t, exec (.dstruncPos w) s = .next (engOver v t) ∧ Restored v c (x.w 2).v.toNat (x.w 0).v.toNat u t)) ∧
      (∀ a bs r t, memCanonical s1 → s1.engRange v.b.core v.b.ctx a bs.length true = .ok [r] → s1.pkgGone (s1.leafPkg r.leaf) = false → Writes s1 v a bs t →
        (∀ i b, bs[i]? = some b → memGet t.mem (r.key + i) = b) ∧ ∀ k, k < r.key ∨ r.key + bs.length ≤ k → memGet t.mem k = memGet s1.mem k)) ∧
    (EngReady w { src := [mSrc w.a 1, mSrc w.b 2] } true s v x s1 →
      (c.cksz = 0 → exec (.dsckptSave w) s = .next (engOver v s1)) ∧
      (∀ rs, c.cksz ≠ 0 → v.b.present (x.w 0).v.toNat c.cksz = true →
        s1.engRange v.b.core v.b.ctx (c.ckr + c.cksz * (c.g % c.ckn)) c.cksz true = .ok rs → s1.runsHeld rs = false →
        exec (.dsckptSave w) s = .next (engOver v (s1.engWrite rs (s1.rd (kShared v.u.blk (x.w 0).v.toNat) c.cksz) (s1.rdPsn (kShared v.u.blk (x.w 0).v.toNat) c.cksz)))))

/-- The handle instructions complete: HNEW takes the lowest free entry of the die's table, HCOPY splits a handle's weight (two handles of the exponent less one, or, at exponent 0, two of exponent 29 to a new indirection entry that holds the handle), HDEREF returns its address, HWT its weight, HDROP and HBIND send their message under a number of the handle context (R463 to R475; that a drop waits for no earlier access is the model's reading, log 17). -/
def Obligations.HandleInstructionsComplete : Prop :=
  (∀ (s : State) (ctx die lane : Nat) (h : Handle), h.null = false →
    (1 ≤ h.e → ∃ g, s.splitHandle ctx die lane h = .ok g s ∧ g.e + 1 = h.e ∧ (g.dev, g.die, g.gen, g.idx, g.ind, g.w1) = (h.dev, h.die, h.gen, h.idx, h.ind, h.w1)) ∧
    (∀ n k, h.e = 0 → h.ind = false → (s.ctxD ctx).rcd.htab ≠ 0 → s.freeEntry ctx die = some (n, k) →
      s.splitHandle ctx die lane h = .ok (mkHandle s.pkg die (s.home k).gen n 29 true ((s.ctxD ctx).rcd.htab.toNat % 2 ^ 56 + 32 * ((s.ctxD ctx).rcd.nobj.toNat * die + n)))
        (s.setHome k ⟨0, 30, (s.home k).gen, true, true, false, 1, h.w0, h.w1⟩))) ∧
  ∀ (s s1 : State) (v : View) (w : WC) (l : Nat) (i : LaneIn),
    (∀ n k, v.b.rwOk v.front w.a 4 = true → SplitReady w { src := [mSrc w.b 2, mSrc w.c 1], dst := some ⟨w.a, 4⟩ } [0, 1] s v l i s1 →
      (s1.ctxD v.b.ctx).rcd.htab ≠ 0 → 1 ≤ (i.w 1).v.toNat → (i.w 1).v.toNat ≤ 30 → s1.freeEntry v.b.ctx v.die = some (n, k) →
      let base := (i.d 0).toNat % 2 ^ 56
      let e := (i.w 1).v.toNat
      let t := s1.setHome k ⟨0, e, (s1.home k).gen, true, false, false, 0, BitVec.ofNat 64 base, 0⟩
      exec (.hnew w) s = .next ((writeDst t v.u i.lane ⟨w.a, 4⟩ (mkHandle s1.pkg v.die (s1.home k).gen n e false base).words).advance v)) ∧
    (∀ g t, (v.b.rwOk v.front w.a 4 && v.b.rwOk v.front w.b 4 && disjointRegs w.a w.b) = true →
      SplitReady w { src := [mSrc w.b 4], dst := some ⟨w.a, 4⟩ } [0] s v l i s1 → s1.handleBad v.b.ctx (i.handle 0) = false →
      s1.splitHandle v.b.ctx v.die i.lane (i.handle 0) = .ok g t →
      exec (.hcopy w) s = .next ((writeDst (writeDst t v.u i.lane ⟨w.b, 4⟩ g.words) v.u i.lane ⟨w.a, 4⟩ g.words).advance v)) ∧
    (∀ a, SplitReady w { src := [mSrc w.b 4], dst := some ⟨w.a, 2⟩ } [0] s v l i s1 → s1.resolve v.b.ctx i.lane (i.handle 0) = .addr a →
      RoomFor s1 v ⟨w.a, 2⟩ v.lanes → exec (.hderef w) s = .next ((toAll v ⟨w.a, 2⟩ v.lanes (numWords a) s1).advance v)) ∧
    (SplitReady w { src := [mSrc w.b 4], dst := some ⟨w.a, 1⟩ } [0] s v l i s1 → RoomFor s1 v ⟨w.a, 1⟩ v.lanes →
      let h := i.handle 0
      exec (.hwt w) s = .next ((toAll v ⟨w.a, 1⟩ v.lanes [⟨BitVec.ofNat 32 (if h.null then 0xFFFFFFFF else h.e + if h.ind then 256 else 0), false⟩] s1).advance v)) ∧
    (let h := i.handle 0
     let no := v.b.handle.tl.given + 1
     let give (now : Bool) (s : State) : State := s.modBlk v.u.blk fun b =>
       let ops := if now then b.handle.ops else b.handle.ops ++ [(no, false)]
       { b with handle := { tl := tlRaise ⟨v.b.handle.tl.ctr, no⟩ (ops.map (·.1)), ops := ops } }
     v.b.handle.ops.length < 64 → s1.handleBad v.b.ctx h = false →
     (v.b.rwOk v.front w.b 4 = true → SplitReady w { src := [mSrc w.b 4] } [0] s v l i s1 →
       exec (.hdrop w) s = .next ((if h.null then give true s1 else
         (writeDst (give false s1) v.u i.lane ⟨w.b, 4⟩ (List.replicate 4 ⟨0, false⟩)).enqueueDrop v.u i.lane
           ⟨v.b.core, 4 * h.dev + h.die, v.b.ctx, h.idx, .drop (BitVec.ofNat 8 h.gen) h.e, some (v.u.blk, no)⟩).advance v)) ∧
     (SplitReady w { src := [mSrc w.b 4, mSrc w.c 2] } [0, 1] s v l i s1 → h.null = false → h.ind = false → (i.d 1).toNat % 2 ^ 56 % 64 = 0 →
       let msg : HMsg := ⟨v.b.core, 4 * h.dev + h.die, v.b.ctx, h.idx, .bind (BitVec.ofNat 8 h.gen) (BitVec.ofNat 64 ((i.d 1).toNat % 2 ^ 56)), some (v.u.blk, no)⟩
       (v.cmdPre v.lanes = [] → s1.hpath = [] → exec (.hbind w) s = .next (({ give false s1 with nextId := s1.nextId + 1, hc := s1.hc ++ [msg] } : State).advance v)) ∧
       (s1.preDone (v.cmdPre v.lanes) = false → s1.hpath = [] → exec (.hbind w) s = .next
         (({ give false s1 with nextId := s1.nextId + 1, hpath := [⟨s1.nextId, v.u, v.lanes, v.cmdPre v.lanes, msg⟩] } : State).advance v))))

/-- The collectives and the signals complete: with a legal descriptor and rank table the operation joins the block's collective context under the next number, and its identifier is used once more by the die; a poisoned descriptor gives an operation that will be dropped; a signal is queued as a release at system scope, and dropped where its value is poisoned (R477 to R481; that a descriptor with an error is accepted and marked bad, and what is checked of a signal's address, is the model's reading, log 23 and 38). -/
def Obligations.CollectivesAndSignalsComplete : Prop :=
  (∀ (s s1 : State) (v : View) (w : WC) (l : Nat) (i : LaneIn) (kind : Nat) (r q : List Byte × List Bool),
    SplitReady w { src := [mSrc w.b 2], dst := some ⟨w.a, 2⟩ } [0] s v l i s1 → kind < 3 → Fenced v v.lanes → (i.d 0).toNat % 2 ^ 56 % 64 = 0 →
    Reads s1 v ((i.d 0).toNat % 2 ^ 56) 64 [0, 1] r → v.b.coll.ops.length < 64 →
    let instr : Instr := match kind with | 0 => .collAr w | 1 => .collAg w | _ => .collRs w
    let no := v.b.coll.tl.given + 1
    let n := fieldAt r.1 0x1C 2
    let die := 4 * s1.pkg + v.die
    let ranks := (List.range n).map fun i => fieldAt q.1 (2 * i) 2 % 128
    let base := collOf r.1 kind no [] 0 (v.cmdPre v.lanes) false
    let accept (op : CollOp) (s : State) : State := s.modBlk v.u.blk fun b => { b with coll := ⟨⟨v.b.coll.tl.ctr, no⟩, b.coll.ops ++ [op]⟩ }
    let fin (t : State) : Host.Outcome State Fault Refusal := .next ((toAll v ⟨w.a, 2⟩ v.lanes (numWords no) t).advance v)
    let bad := collOf r.1 kind no [] 0 (v.cmdPre v.lanes) true
    (r.2.any id = true → RoomFor (accept bad s1) v ⟨w.a, 2⟩ v.lanes → exec instr s = fin (accept bad s1)) ∧
    (r.2.any id = false → 1 ≤ base.count → base.count ≤ 2 ^ 28 → 2 ≤ n → n ≤ 128 → base.rank < n → base.fmt ≤ 3 → (kind = 1 ∨ base.op ≤ 2) →
      base.src % collSize base.fmt = 0 → base.dst % collSize base.fmt = 0 → Reads s1 v (fieldAt r.1 0x10 7) (2 * n) [0, 1, 2, 3, 4, 5] q → q.2.any id = false →
      ranks.all (fun r => s1.inDomain v.b.ctx (r / 4)) = true → noRepeat ranks = true → ranks.getD base.rank 128 = die →
      let op := collOf r.1 kind no ranks ((s1.ctxD v.b.ctx).uses base.cid die) (v.cmdPre v.lanes) false
      let t := accept op (s1.modCtx v.b.ctx (·.use base.cid die))
      RoomFor t v ⟨w.a, 2⟩ v.lanes → exec instr s = fin t)) ∧
  (∀ (s s1 : State) (v : View) (w : WC) (l : Nat) (i : LaneIn) (add : Bool) (lf : Leaf), SplitReady w { src := [mSrc w.b 2, mSrc w.c 2] } [0] s v l i s1 →
    ((v.thread i.lane).elim true (s1.memReady ·)) = true → (i.d 0).toNat % 2 ^ 56 % 8 = 0 →
    s1.xlate v.b.core v.b.ctx (BitVec.ofNat 56 ((i.d 0).toNat % 2 ^ 56)) = some lf → s1.xsigLegal lf = true → (lf.ord = true → v.unpOf i.lane = []) →
    exec (if add then .xsigAdd w else .xsigSet w) s = .next ((if (i.w 1 0).p || (i.w 1 1).p then s1.dropStore v i.lane
      else s1.enqueue v.u i.lane true lf.ord fun _ => .xsig (s1.leafKey lf) add (i.d 1)).advance v))

/-! ## Exceptions, service calls and status items -/

namespace Sys2Proof.Spec

/-- Poisoned lanes of a list retired, and the ends this leaves checked (R27). -/
def retired (v : View) (bad : List LaneIn) (s : State) : State :=
  let t := bad.foldl (fun s i => s.retire v.u i.lane) s
  if bad = [] then t else t.afterExit v.u.blk
/-- The lanes at the next word: the rest of the clause, or past its end. -/
def pastTrap (v : View) (c : ClauseCtx) (ls : List Nat) (s : State) : State :=
  ls.foldl (fun s l => s.modThread v.u l fun t =>
    if (v.pc + 8#56).toNat = (c.hdr.toNat + 8 * (c.count + 1)) % 2 ^ 56 then t.goTo (v.pc + 8#56) else { t with pc := v.pc + 8#56 }) s
/-- The record of a unit's fault (R417). -/
def faultRec (b : Block) (u : UnitRef) (g : Grp) (code lane info : Nat) (fa : DWord) (pc : VAddr) (mask : Mask) : FRec :=
  mkRec b u g code 3 (pc.setWidth 64) fa mask (lane % 32 + 256 * info)

end Sys2Proof.Spec

/-- TRAP completes by taking the trap fault with the lowest active lane's value, the code of the word, and the pc of the next word (where it ends its clause and no clause stands behind it, its lanes stay at it and the target fault of the fall-through is taken as well); lanes with a poisoned value below that lane are retired first, and where every value is poisoned the rest go on (R20, R27, R40, R439; which lanes a TRAP reads is the model's reading, log 28). -/
def Obligations.TrapTakesItsFault : Prop :=
  ∀ (s s1 : State) (v : View) (c : ClauseCtx) (w : WI) (bad ins : List LaneIn), InClause s v c →
    v.legal { src := [iSrc w 1 w.eta] } = true → v.active w.g ≠ [] → (∀ i ∈ bad, i.psn = true) →
    readAll v (v.active w.g) { src := [iSrc w 1 w.eta] } s = .ok (bad ++ ins, s1) →
    let stay := v.lanes.filter fun l => !(bad.any (·.lane == l))
    (ins = [] → exec (.trap w) s = .next ((retired v bad s1).advance v)) ∧
    (∀ i r, ins = i :: r → i.psn = false →
      let noNext : Prop := (v.pc + 8#56).toNat = (c.hdr.toNat + 8 * (c.count + 1)) % 2 ^ 56 ∧ (retired v bad s1).clauseOk v.b (v.pc + 8#56) = false
      let taken (t : State) : State := t.takeFault v.u 0x1F ((i.w 0).v.setWidth 64) i.lane (w.imm.toNat % 2 ^ 24) (v.pc + 8#56) (maskOf ((v.active w.g).filter stay.contains))
      (¬ noNext → exec (.trap w) s = .next (taken (pastTrap v c stay (retired v bad s1)))) ∧
      (noNext → exec (.trap w) s = .next ((taken (retired v bad s1)).takeFault v.u 0x04 ((v.pc + 8#56).setWidth 64) (stay.headD 0) 0 v.pc (maskOf stay))))

/-- SVC, BKPT and STATCLR complete: a service call writes its ring entry and the group is benched or held; a breakpoint counts, or with debug stops on stops its unit after the word; a clear leaves its item zero (R431, R432, R435, R438, R440; that a group without a place in the bench area is held, and that the ring entry carries no poison, is the model's reading, log 27). -/
def Obligations.ServiceBreakpointStatusClearComplete : Prop :=
  (∀ (s s1 : State) (v : View) (w : WI) (ins : List LaneIn), s.view? = some v → v.legal { src := [iSrc w 4 false] } = true → v.active w.g ≠ [] →
    let c := s.ctxD v.b.ctx
    let rn := c.rcd.svcn.toNat
    let slot := c.svcW % rn
    rn ≠ 0 → (c.svcs.any (·.slot == slot)) = false → (∀ l ∈ v.active w.g, v.unpOf l = []) → readAll v (v.active w.g) { src := [iSrc w 4 false] } s = .ok (ins, s1) →
    s1.drained v.u v.g = true →
    let at_ := (c.rcd.svcr.toNat % 2 ^ 56 + 2048 * slot) % 2 ^ 56
    let t := s1.devWrite v.b.ctx (at_ + 2) (svcEntry w.imm.toNat (v.pc.setWidth 64) v.b.ctx v.u.grpNo v.b.idx (maskOf (v.active w.g)) (c.svcSeq + 1)
      (ins.map fun i => (i.lane, (i.src.headD []).map (·.v))))
    let t := t.devWrite v.b.ctx at_ (leBytes 2 (c.svcW / rn % 65535 + 1))
    let t := t.modCtx v.b.ctx fun c => { c with svcSeq := c.svcSeq + 1, svcW := c.svcW + 1, svcs := c.svcs ++ [⟨slot, v.u.blk, v.u.grpNo, maskOf (v.active w.g)⟩] }
    let t := (t.modGrp v.u fun g => { g with threads := g.threads.map fun t => { t with q16 := [] } }).pastWord v
    (t.grp? v.u).elim true (·.stat == .stopped) = false →
    (∀ va t', t.benchGrp v.u 2 = some (va, t') → exec (.svc w) s = .next t') ∧
    (t.benchGrp v.u 2 = none → exec (.svc w) s = .next (t.stand v.u 2))) ∧
  (∀ (s : State) (v : View) (w : WI), s.view? = some v → v.active w.g ≠ [] →
    (s.dbgOn v.b.ctx = false → exec (.bkpt w) s = .next ((s.bump v.b.ctx 0xB 1).advance v)) ∧
    (s.dbgOn v.b.ctx = true → ((s.pastWord v).grp? v.u).elim true (·.stat == .stopped) = false →
      exec (.bkpt w) s = .next ((s.pastWord v).leave v.u (.stop 0x22 (maskOf (v.active w.g)) (w.imm.toNat % 2 ^ 24) v.pc false)))) ∧
  (∀ (s : State) (v : View) (w : WA) (ix : BitVec 8), s.view? = some v → v.active w.g ≠ [] → clearableItems.contains ix.toNat = true →
    (ix = 5#8 → exec (.statclr w ix) s = .next (((v.active w.g).foldl (fun s l => s.modThread v.u l fun t => { t with pend := 0 }) s).advance v)) ∧
    (ix = 13#8 → exec (.statclr w ix) s = .next (((v.active w.g).foldl (fun s l => s.modThread v.u l fun t => { t with sticky := 0 }) s).advance v)) ∧
    (ix ≠ 5#8 → ix ≠ 13#8 → exec (.statclr w ix) s = .next ((s.modCtx v.b.ctx fun c => { c with ctrs := assocSet c.ctrs ix.toNat 0 }).advance v)))

/-- Taking a halting fault: the unit stops, its partition's halt line is up with the fault's context, code and record last, the unit's scheduler is free, and no register, control bit, engine register, byte of memory or context record changes (R20, R415, R417). -/
def Obligations.HaltingFaultIsTaken : Prop :=
  ∀ (s : State) (u : UnitRef) (b : Block) (g : Grp) (code lane info : Nat) (fa : DWord) (pc : VAddr) (mask : Mask), s.blk? u.blk = some b → b.grp? u = some g →
    (s.ctxD b.ctx).part < s.parts.length →
    let t := s.takeFault u code fa lane info pc mask
    (t.grp? u).map (·.stat) = some .stopped ∧ t.halting b.ctx = true ∧ (∀ k : Nat, (t.coreD b.core).cur[k]? ≠ some (some u)) ∧
      (∃ h, (t.partD (s.ctxD b.ctx).part).halt = some h ∧ h.faults.getLast? = some (b.ctx, code) ∧
        (h.recs.getLast?).map (fun r => (r.ctx, r.who, r.rcd)) = some (b.ctx, .unit u, faultRec b u g code lane info fa pc mask)) ∧ SameData s t

namespace Sys2Proof.Spec

/-- The instructions whose guard is each lane's own: the guard, and whether every field is one that the thread may use (R7, R30, R50, R52, R119). -/
def laneUses (s : State) (v : View) : Instr → Option (Guard × Bool)
  | .brx w | .ret w => some (w.g, v.legal { src := [srcA w 2] })
  | .callx w => some (w.g, v.legal { src := [srcA w 2], dst := some ⟨w.d, 2⟩ } && v.b.rwOk v.front w.d 2)
  | .exit g | .nop g => some (g, true)
  | .qtry w _ => some (w.g, match portOf w.d, portOf w.a with
      | none, some q => v.b.canPop v.front q && v.b.dstOk v.front ⟨w.d, 1⟩
      | some q, none => v.b.canPush q && v.b.srcOk v.front (srcA w)
      | _, _ => false)
  | .qcfg w => some (w.g, (portOf w.d).elim false (fun q => decide (1 ≤ q ∧ q ≤ 15)) && v.legal { src := [⟨w.a, 1, w.eta, false⟩] })
  | .qlen w => some (w.g, (portOf w.a).elim false (v.b.canPop v.front) && v.legal { dst := some ⟨w.d, 1⟩ })
  | .chsend w up => some (w.g, (chanFor v true up s).isSome && v.legal { src := [srcA w] })
  | .chrecv w up => some (w.g, (chanFor v false up s).isSome && v.b.dstOk v.front ⟨w.d, 1⟩)
  | .lds w _ | .ldk w _ => some (w.g, v.legal { src := [mSrc w.base 1], dst := some ⟨w.data, Width.words w.wid⟩ })
  | .ldp w _ => some (w.g, v.legal { src := [mSrc w.base 2], dst := some ⟨w.data, Width.words w.wid⟩ })
  | .sts w | .stk w => some (w.g, v.legal { src := [mSrc w.data (Width.words w.wid), mSrc w.base 1] })
  | .stp w => some (w.g, v.legal { src := [mSrc w.data (Width.words w.wid), mSrc w.base 2] })
  | .atom w sp _ => some (w.g, v.legal { src := [mSrc w.data (Width.words w.wid), mSrc w.base (if sp = .scratch then 2 else 1)] } && v.b.rwOk v.front w.data (Width.words w.wid))
  | .acas w sp => some (w.g, v.legal { src := [mSrc w.data (2 * Width.words w.wid), mSrc w.base (if sp = .scratch then 2 else 1)] } && v.b.rwOk v.front w.data (2 * Width.words w.wid))
  | .presw w _ => some (w.g, v.legal { src := [mSrc w.base 1] })
  | .presq w | .bbarv w => some (w.g, v.legal { src := [mSrc w.base 1], dst := some ⟨w.data, 1⟩ })
  | .bbinit w | .bbexp w | .bbwait w => some (w.g, v.legal { src := [mSrc w.data 1, mSrc w.base 1] })
  | .fence w => some (w.g, true)
  | .trayw w | .gsig w => some (w.g, v.legal { src := [srcA w] })
  | .ptok w => some (w.g, v.legal { src := if w.imm.getLsbD 5 || w.a == 511#9 then [] else [⟨w.a, 1, w.eta, false⟩] })
  | .ssel w => some (w.g, v.legal { src := [⟨w.a, 2, w.eta, false⟩], dst := some ⟨w.d, 1⟩ })
  | .rtlaunch w => some (w.g, v.legal { src := [srcA w 2, srcB w 2, srcC w] })
  | .rtclaim w _ => some (w.g, v.legal { src := [srcA w], dst := some ⟨w.d, 4⟩ })
  | .gwait w => some (w.g, v.legal { src := [srcA w], dst := some ⟨w.d, 2⟩ })
  | .trap w => some (w.g, v.legal { src := [⟨w.a, 1, w.eta, false⟩] })
  | .svc w => some (w.g, v.legal { src := [⟨w.a, 4, false, false⟩] })
  | .bkpt w => some (w.g, true)
  | .statclr w _ => some (w.g, true)
  | i => (regRow i).map fun R => (R.g, v.legal R.uses)
/-- The transfers whose target is at a distance from their clause's header, likewise (R117, R119, R120, R122). -/
def jumpUses (v : View) : Instr → Option (Guard × Bool)
  | .bra g _ | .meet g _ | .yield g => some (g, true)
  | .call g link _ => some (g, v.b.rwOk v.front link 2)
  | _ => none
/-- The instructions of a whole split, whose guard the lowest lane gives (R48, R161). -/
def splitUses (v : View) : Instr → Option (Guard × Bool)
  | .tlread w => some (w.g, v.legal { src := [mSrc w.b 1], dst := some ⟨w.a, 2⟩ })
  | .tlwait w => some (w.g, v.legal { src := [mSrc w.a 2, mSrc w.b 1] })
  | .trec w => some (w.g, v.legal { src := [mSrc w.b 2, mSrc w.c 1] })
  | .cpy w c | .cpys w c | .cpyg w c | .cpyc w c => some (w.g, v.legal { src := [mSrc w.b 4, mSrc w.c (if c = .creg then 4 else 1)], dst := some ⟨w.a, 2⟩ })
  | .wstreamStart w => some (w.g, v.legal { src := [mSrc w.b 2, mSrc w.c 1], dst := some ⟨w.a, 2⟩ })
  | .wstreamRel w => some (w.g, v.legal { src := [mSrc w.c 1] })
  | .wstreamStop w => some (w.g, true)
  | .hnew w => some (w.g, v.legal { src := [mSrc w.b 2, mSrc w.c 1], dst := some ⟨w.a, 4⟩ } && v.b.rwOk v.front w.a 4)
  | .hcopy w => some (w.g, v.legal { src := [mSrc w.b 4], dst := some ⟨w.a, 4⟩ } && v.b.rwOk v.front w.a 4 && v.b.rwOk v.front w.b 4 && disjointRegs w.a w.b)
  | .hdrop w => some (w.g, v.legal { src := [mSrc w.b 4] } && v.b.rwOk v.front w.b 4)
  | .hbind w => some (w.g, v.legal { src := [mSrc w.b 4, mSrc w.c 2] })
  | .hderef w => some (w.g, v.legal { src := [mSrc w.b 4], dst := some ⟨w.a, 2⟩ })
  | .hwt w => some (w.g, v.legal { src := [mSrc w.b 4], dst := some ⟨w.a, 1⟩ })
  | .collAr w | .collAg w | .collRs w => some (w.g, v.legal { src := [mSrc w.b 2], dst := some ⟨w.a, 2⟩ })
  | .xsigSet w | .xsigAdd w => some (w.g, v.legal { src := [mSrc w.b 2, mSrc w.c 2] })
  | _ => none
/-- The instructions of a whole group, whose guard the lowest live lane gives (R160, R337). -/
def groupUses (v : View) : Instr → Option (Guard × Bool)
  | .bar w | .cbar w => some (w.g, true)
  | .mstat w _ => some (w.g, v.legal { dst := some ⟨w.a, 1⟩ })
  | .aseq w => some (w.g, v.legal { src := [mSrc w.b 2] })
  | .atile w => some (w.g, v.legal { dst := some ⟨w.a, 2⟩ })
  | .svmap w => some (w.g, v.legal { src := [mSrc w.b 4, mSrc w.c 1], dst := some ⟨w.a, 1⟩ })
  | .svset w | .svclr w => some (w.g, v.legal { src := [mSrc w.b 4, mSrc w.c 1] })
  | .dsread w sel => some (w.g, v.legal { src := mSrc w.b 2 :: (if sel = .frame then [mSrc w.c 1] else []), dst := some ⟨w.a, 4⟩ })
  | .dscommit w | .dsckptSave w => some (w.g, v.legal { src := [mSrc w.a 1, mSrc w.b 2] })
  | .dstruncFrame w | .dstruncPos w => some (w.g, v.legal { src := [mSrc w.a 1, mSrc w.b 2, mSrc w.c 1] })
  | .dsckptRel w => some (w.g, v.legal { src := [mSrc w.b 2, mSrc w.c 1] })
  | i => (matrixRow i).map fun R => (R.w.g, v.legal R.uses)
/-- The illegal-operand fault. -/
def illegal (v : View) (s : State) : State := s.takeFault v.u 0x03 0 0 0 v.g.pcOf v.g.runs
/-- The empty-source fault, with the lowest active lane. -/
def emptyTrap (v : View) (g : Guard) (s : State) : State := s.takeFault v.u 0x06 0 ((v.active g).headD 0) 0 v.g.pcOf v.g.runs
/-- No source of the instruction traps: no empty-trap bit is set, and no source is a port. -/
def NoTrap (R : RegRow) : Prop := ∀ x ∈ R.uses.src, x.et = false ∧ ∀ q, opKind x.f ≠ .port q

end Sys2Proof.Spec

/-- A register instruction with a field that its thread may not use takes the illegal-operand fault at its own address, and has no effect of its own, whatever its guard; so does any other program instruction of the lanes, of a split, or of an assembled group. One with legal fields and a guard that is false (in every lane, in the lowest lane of the split, in the lowest live lane of the group) reads nothing, pops nothing, leaves nothing and only goes on. A register instruction holds while a source or a destination register is not full, while its port has not enough entries, or while the port it writes has no room, and nothing but its hold changes; it takes the empty-source fault where an empty source has its empty-trap bit set or is a tray whose front-end thread has exited (R7, R9, R18, R22 to R24, R30, R32, R50, R52, R154, R195, R201, R62 steps 5 to 7; that the room at a port is that after the instruction's own pops, and that a tray of an exited front-end thread with fewer entries than the split needs traps, are the model's readings, log 53 and 79). -/
def Obligations.IllegalFieldFaults : Prop :=
  (∀ (i : Instr) (R : RegRow) (s : State) (v : View), regRow i = some R → s.view? = some v → v.legal R.uses = false →
    exec i s = .next (s.takeFault v.u 0x03 0 0 0 v.g.pcOf v.g.runs)) ∧
  (∀ (i : Instr) (g : Guard) (ok : Bool) (s : State) (v : View), s.view? = some v →
    (laneUses s v i = some (g, ok) → (ok = false → exec i s = .next (illegal v s)) ∧ (ok = true → v.active g = [] → exec i s = .next (s.advance v))) ∧
    (jumpUses v i = some (g, ok) → (ok = false → exec i s = .next (illegal v s)) ∧
      (ok = true → v.g.clauseNow.isSome = true → v.active g = [] → exec i s = .next (s.advance v))) ∧
    (splitUses v i = some (g, ok) → (ok = false → exec i s = .next (illegal v s)) ∧
      (∀ l, ok = true → v.lanes.head? = some l → (v.thread l).elim false (Guard.holds g) = false → exec i s = .next (s.advance v))) ∧
    (groupUses v i = some (g, ok) → v.assembled = true → v.b.attn.move = none → (ok = false → exec i s = .next (illegal v s)) ∧
      (∀ l, ok = true → v.lanes.head? = some l → (v.thread l).elim false (Guard.holds g) = false → exec i s = .next (s.uniformEnd v)))) ∧
  ∀ (i : Instr) (R : RegRow) (s : State) (v : View), regRow i = some R → s.view? = some v → v.legal R.uses = true → v.active R.g ≠ [] →
    ((∃ l ∈ v.active R.g, ∃ x ∈ R.uses.src, x.et = true ∧ SourceIs s v x l .empty) → exec i s = .next (emptyTrap v R.g s)) ∧
    (NoTrap R → (∃ l ∈ v.active R.g, (∃ x ∈ R.uses.src, SourceIs s v x l .empty ∨ SourceIs s v x l .inFlight) ∨ ∃ d, R.uses.dst = some d ∧ dstBusy s v.u l d = true) →
      exec i s = .next (heldNow v s)) ∧
    (∀ x r q l, R.uses.src = x :: r → opKind x.f = .port q → (v.active R.g).head? = some l → (portView s v.u l q).1.length < x.n →
      (x.et = true ∨ (portView s v.u l q).2.1 = true → exec i s = .next (emptyTrap v R.g s)) ∧
      (x.et = false → (portView s v.u l q).2.1 = false → r = [] → exec i s = .next (heldNow v s))) ∧
    (∀ ins s1, readAll v (v.active R.g) R.uses s = .ok (ins, s1) → portFree s1 v.u R.uses.dst (R.out s v ins) = false → exec i s = .next (heldNow v s))

namespace Sys2Proof.Spec

/-- The group as its bench frame holds it when a page fault benches it. -/
def atPage (g : Grp) (va : VAddr) (lane : Nat) : Grp :=
  { g with stat := .leaving g.stat.waitCode (.page va lane), hold := 0, faddr := va.setWidth 64 }
/-- The bytes of that frame (R423): the group's own, with cause 1, and no spill window. -/
def pageFrame (v : View) (va : VAddr) (lane : Nat) : List Byte :=
  (atPage v.g va lane).frame v.b v.u.grpNo 1 (v.b.grpFlags (atPage v.g va lane) v.u.grpNo) 0 []

end Sys2Proof.Spec

/-- A load, store or atomic of the scratchpad checks in the order of R236: a misaligned lane, a lane in a tier it may not use, a store or atomic where writing is barred each take their fault, with the lowest such lane; then one where a lane's address does not translate takes the page fault with the lowest such. A unit whose fault queue has no room holds, its hold noted, and nothing else changes. Where the queue has room, the unit leaves its scheduler: a group waits until its accesses are done; then it is benched with cause 1 and its frame written at its place in the bench area, or, where the area has no place, as always for a front-end thread, it holds its slot; the record posted names the fault, the address and the lane, and its answer is awaited; no register, engine or record changes, and no byte but the frame's (R236, R237, R242, R403, R418, R419, R422, R423). -/
def Obligations.UntranslatedAccessIsAPageFault : Prop :=
  (∀ (i : Instr) (s s1 : State) (v : View) (m : MemUse) (wr : Bool) (ins : List LaneIn) (a : LaneAt), farUse v i = some (m, wr) → m.Ready s v ins s1 →
    let as := farLanes m.w ins
    let x (l : LaneAt) : Option Leaf := s1.xlate v.b.core v.b.ctx (BitVec.ofNat 56 l.a)
    let bad (l : LaneAt) : Bool := (x l).elim false s1.tierBad
    let barred (l : LaneAt) : Bool := (x l).elim false fun f => wr && !f.w
    let fault (code : Nat) : State := s.takeFault v.u code (BitVec.ofNat 64 a.a) a.x.lane 0 v.g.pcOf v.g.runs
    (as.find? (fun l => !(l.a % m.n == 0)) = some a → exec i s = .next (fault 0x09)) ∧
    ((∀ l ∈ as, l.a % m.n = 0) →
      (as.find? bad = some a → exec i s = .next (fault 0x0B)) ∧
      ((∀ l ∈ as, bad l = false) →
        (as.find? barred = some a → exec i s = .next (fault 0x0C)) ∧
        ((∀ l ∈ as, barred l = false) → as.find? (fun l => (x l).isNone) = some a →
          exec i s = .next (s.pageFault v.u (BitVec.ofNat 56 a.a) a.x.lane))))) ∧
  (∀ (s : State) (v : View) (va : VAddr) (lane : Nat), s.view? = some v →
    ((s.ctxD v.b.ctx).fqRoom = false → s.pageFault v.u va lane = heldNow v s) ∧
    ((s.ctxD v.b.ctx).fqRoom = true → v.g.stat = .ready →
      let t := s.pageFault v.u va lane
      let size := grpFrameSize v.b.nregs
      let posted (frame : Nat) (a : Answer) : Prop := (t.ctxD v.b.ctx).pendF = (s.ctxD v.b.ctx).pendF ++
        [({ mkRec v.b v.u v.g 0x0D 7 (v.pc.setWidth 64) (va.setWidth 64) v.g.runs (lane % 32) with frame := BitVec.ofNat 64 frame }, a)]
      (∀ k : Nat, (t.coreD v.b.core).cur[k]? ≠ some (some v.u)) ∧ Wrote s t (.front 0) none [] ∧ SameEngines s t ∧ SameRecords s t ∧
      (v.front = false → s.drained v.u v.g = false → (t.grp? v.u).map (·.stat) = some (.leaving 0 (.page va lane)) ∧ t.mem = s.mem) ∧
      (v.front = false → s.drained v.u v.g = true → s.benchAlloc v.b.ctx size = none →
        (t.grp? v.u).map (·.stat) = some (.held 1) ∧ posted 0 (.grp v.u.blk v.u.grpNo) ∧ t.mem = s.mem) ∧
      (∀ fr s2, v.front = false → s.drained v.u v.g = true → s.benchAlloc v.b.ctx size = some (fr, s2) →
        (t.grp? v.u).map (·.stat) = some (.benched 1 (BitVec.ofNat 56 fr)) ∧ posted fr (.grp v.u.blk v.u.grpNo) ∧
          t.mem = (s.devWrite v.b.ctx fr (pageFrame v va lane)).mem ∧ (pageFrame v va lane).length = 0x1080 + 132 * v.b.nregs ∧
          size = alignUp (pageFrame v va lane).length 128) ∧
      (v.front = true → (t.grp? v.u).map (·.stat) = some (.held 1) ∧ posted 0 (.front v.u.blk) ∧ t.mem = s.mem)))

/-! ## Events of the schedulers and of memory -/

namespace Sys2Proof.Spec

/-- The clause that a beginning enters. -/
def entered : Begin → Option ClauseCtx
  | .clause c => some c
  | _ => none
/-- A store queue's head waits for nothing: no earlier access of a release, no lost link whose timeout runs, and, a drop, no bind of its thread to the same home issued before it (R275, R461, R474). -/
def HeadReady (s : State) (u : UnitRef) (g : Grp) (e : SqEnt) : Prop :=
  (match e.op with | .msg m => pathHolds s.hpath u [e.lane] m.home e.id | _ => false) = false ∧ (e.pre.any ((g.threads[e.lane]?).elim [] (·.unp)).contains) = false ∧
    (match e.op with | .xsig k _ _ => (keyPkg k).elim false fun p => s.pkgLost p && !s.pkgGone p | _ => false) = false

end Sys2Proof.Spec

/-- The scheduler's events complete: a free scheduler, once complete meetings are released and the halts asked for have taken place, starts the unit it selects, an expired fairness timer is noted, a unit unserved for its threshold is promoted, a clause held for 64 cycles breaks, a complete meeting is released, a unit at a breakpoint stops, and a group asked to halt stops at its next clause boundary or where it waits at a barrier (R152, R157 to R159, R162, R166, R168, R436, R437; one issue attempt is one cycle, log 10). -/
def Obligations.SchedulerEventsComplete : Prop :=
  (∀ (s : State) (core sched : Nat) (u : UnitRef) (t : Thread) (x : Begin), (s.coreD core).cur[sched]? = some none →
    let s0 := (s.unitsOn core sched).foldl (fun s u => s.debugPend u) (s.meetAll core sched)
    s0.select core sched = some (u, t, x) → (∀ code, x ≠ .bad code) →
    let s1 := (s0.tickCore core sched (some u)).clearYields core sched
    exec (.schedulerSelect core sched) s = .next ((s1.modCore core fun c => { c with
      cur := c.cur.set sched (some u)
      lastFe := if sched = 4 then ((s1.grp? u).elim c.lastFe (·.slot)) else c.lastFe }).modGrp u (·.start t (entered x)))) ∧
  (∀ (s : State) (blk g : Nat) (x : Grp), s.grp? (.group blk g) = some x → 1024 ≤ x.fair →
    ∃ t, exec (.fairnessTimerExpiry blk g) s = .next t ∧ t.grp? (.group blk g) = some { x with fairExp := true } ∧ SameData s t) ∧
  (∀ (s : State) (blk g : Nat) (b : Block) (x : Grp), s.blk? blk = some b → b.grp? (.group blk g) = some x →
    x.promoted = none → 2 ^ (6 + (s.ctxD b.ctx).agec) ≤ x.age →
    exec (.ageingPromotion blk g) s = .next { s.modGrp (.group blk g) (fun x => { x with promoted := some s.nextAdm }) with nextAdm := s.nextAdm + 1 }) ∧
  (∀ (s : State) (u : UnitRef) (g : Grp), s.grp? u = some g → 64 ≤ g.hold → g.runs ≠ 0 → exec (.clauseBreak u) s = .next (s.breakClause u)) ∧
  (∀ (s : State) (blk g : Nat) (a : VAddr) (x : Grp), s.grp? (.group blk g) = some x → x.meetReady a = true →
    exec (.meetingRelease blk g a) s = .next (s.modGrp (.group blk g) fun x => { x with threads := x.threads.map fun t => if t.stat = .meet ∧ t.pc = a then t.release else t })) ∧
  (∀ (s : State) (u : UnitRef) (b : Block) (g : Grp), s.blk? u.blk = some b → s.grp? u = some g → g.stat = .ready → s.atBreakpoint b g = true →
    exec (.breakpointTrigger u) s = .next (s.leave u (.stop 0x22 g.runs 0 g.pcOf true))) ∧
  (∀ (s : State) (blk gi : Nat) (b : Block) (g : Grp), s.blk? blk = some b → s.grp? (.group blk gi) = some g → s.dbgOn b.ctx = true → s.hostOk = true → g.gone = false → g.owed ≠ 4 →
    let asked := ({ s with dbgHaltW := (UnitRef.group blk gi).word } : State).modGrp (.group blk gi) fun x => { x with dbgHalt := true }
    (g.runs ≠ 0 ∧ g.stat = .ready ∨ (∃ c, g.stat = .held c ∧ c ≠ 4) ∨ (∃ c f, g.stat = .benched c f ∧ c ≠ 4) → exec (.debugGroupHalt blk gi) s = .next asked) ∧
    (g.runs = 0 → s.halting b.ctx = false → (g.stat = .ready ∨ (∃ i, g.stat = .bar i) ∨ ∃ i, g.stat = .cbar i) →
      exec (.debugGroupHalt blk gi) s = .next (asked.leave (.group blk gi) (.stop 0x23 (maskOf ((g.choose.map g.splitOf).getD [])) 0 g.pcOf false))))

/-- The memory machine's events complete: a returned value fills its registers or places, the head of a store queue departs, the head of a channel is performed at its slice, a walk's leaf is cached in the core TLB, or in the walk-ahead TLB where it was an engine's (R25, R235, R303, R271, R272, R501). -/
def Obligations.MemoryEventsComplete : Prop :=
  (∀ (s : State) (id : Nat) (f : Fill), (s.fills.find? fun f => f.id == id) = some f →
    exec (.registerFill id) s = .next (({ s with fills := s.fills.erase f } : State).fillNow f.u f.lane f.dst f.words)) ∧
  (∀ (s : State) (u : UnitRef) (g : Grp) (e : SqEnt) (r : List SqEnt), s.grp? u = some g → g.sq = e :: r → HeadReady s u g e →
    exec (.sqDeparture u) s = .next ((s.modGrp u fun g => { g with sq := r }).depart u e)) ∧
  (∀ (s : State) (core slice : Nat) (e : OcEnt), (s.oc.find? fun e => e.core == core && e.slice == slice) = some e → s.pkgLost (slice / 192) = false →
    (∀ i, e.after = some i → ∀ x ∈ s.oc, x.id ≠ i) →
    let p := e.op.perform e.dst.sx (({ s with oc := s.oc.erase e } : State).dropUnp e.u e.lane e.id)
    exec (.ocDelivery core slice) s = .next (if e.dst = .none then p.2 else { p.2 with fills := p.2.fills ++ [(⟨e.id, e.u, e.lane, e.dst, p.1⟩ : Fill)] })) ∧
  (∀ (s : State) (core ctx : Nat) (va : VAddr) (l : Leaf), s.walkCtx ctx va = some l →
    let put (t : List TlbEnt) : List TlbEnt :=
      ⟨ctx, va.toNat / 2 ^ 16, l.pa - va.toNat % 2 ^ 16, l.w, l.nx, l.tier, l.ord, l.pkg⟩ :: t.filter fun e => !(e.ctx == ctx && e.vpage == va.toNat / 2 ^ 16)
    exec (.tlbWalkComplete (.lanes core) ctx va) s = .next (s.modCore core fun c => { c with tlb := put c.tlb }) ∧
    exec (.tlbWalkComplete (.ahead core) ctx va) s = .next (s.modCore core fun c => { c with ahead := put c.ahead }))

/-- A departing store writes its bytes and no other byte; no register, engine register or context record changes, and the access leaves its thread's outstanding ones (R271). -/
def Obligations.DepartedStoreIsPerformed : Prop :=
  ∀ (s t : State) (u : UnitRef) (g : Grp) (e : SqEnt) (r : List SqEnt) (k : Nat) (bs : List Byte), memCanonical s → s.grp? u = some g → g.sq = e :: r →
    HeadReady s u g e → e.op = .store k bs → exec (.sqDeparture u) s = .next t →
    (∀ i b, bs[i]? = some b → memGet t.mem (k + i) = b) ∧ (∀ a, a < k ∨ k + bs.length ≤ a → memGet t.mem a = memGet s.mem a) ∧
      (∀ u' l r, reg? t u' l r = reg? s u' l r) ∧ SameEngines s t ∧ SameRecords s t ∧
      ∀ x, thr? s u e.lane = some x → (thr? t u e.lane).map (·.unp) = some (x.unp.filter (· != e.id))

/-! ## Events of blocks and groups -/

namespace Sys2Proof.Spec

/-- A running block of a grid. -/
def Runs (s : State) (blk : Nat) (b : Block) (g : Grid) : Prop := s.blk? blk = some b ∧ s.grid? b.grid = some g ∧ s.mayStart b.ctx = true
/-- The blocks of a grid's next stage. -/
def stageIds (g : Grid) : List BlkId :=
  (List.range g.bpc).map fun b => ⟨g.kd.stages * (g.bpc * g.nextClu + b) + g.nextStage, g.nextClu, g.nextStage, 0xFFFFFFFF, 0, false⟩
/-- A range record no longer waits for its block. -/
def started (grid idx : Nat) (s : State) : State :=
  s.modGrid grid fun g => { g with recs := g.recs.map fun x => if x.idx = idx then { x with waiting := false } else x }
/-- An idle core is given the iterations of a range. -/
def givenTo (grid core lo hi grain : Nat) (g : Grid) (s t : State) : Prop :=
  ∃ g' u, (s.newRange grid lo hi grain).grid? grid = some g' ∧ (s.newRange grid lo hi grain).admitAll g' [core] [rangeId g.created] = some u ∧ t = started grid g.created u

end Sys2Proof.Spec

/-- Blocks start and end: the next stage's blocks start together in rising index where all fit, a delivered page's block starts with the resources of its shelf, a waiting range block starts, an idle core takes an unowned record or the upper half of the longest, and a block that is over leaves with its shared bytes, its result settled (R155, R170 to R174, R205 to R207, R283; what ends a block and who waits for whom, that an ended block's shared bytes read 0, and that a context's records are counted over all its range grids, is the model's reading, log 20, 2 and 75). -/
def Obligations.BlockEventsComplete : Prop :=
  (∀ (s t : State) (grid : Nat) (g : Grid), s.grid? grid = some g → s.mayStart g.ctx = true →
    (∀ p n, g.kind = .page → g.pages.find? (·.pstat.isSome) = some p → p.pstat = some n → exec (.blockAdmission grid) s = .next (s.createPage g p n)) ∧
    (s.blockWaits grid = false →
    (g.kind = .index → g.nextClu < g.clusters → s.admitAll g (s.newCores g g.nextClu) (stageIds g) = some t →
      exec (.blockAdmission grid) s = .next (t.modGrid grid fun g =>
        if g.nextStage + 1 < g.kd.stages then { g with nextStage := g.nextStage + 1 } else { g with nextStage := 0, nextClu := g.nextClu + 1 })) ∧
    (∀ r, g.kind = .range → g.recs.find? (·.waiting) = some r → s.admitAll g (s.newCores g 0) [rangeId r.idx] = some t →
      exec (.blockAdmission grid) s = .next (started grid r.idx t)) ∧
    (∀ core, g.kind = .range → (s.tasksOf g.ctx).any (·.waiting) = false → (s.tasksOf g.ctx).length < 1024 → core ∈ s.newCores g 0 →
      (∀ r, (g.recs.find? fun r => !r.owned && decide (r.lo < r.hi)) = some r →
        givenTo grid core r.lo r.hi r.grain g (s.modGrid grid fun g => { g with recs := g.recs.filter (· != r) }) t → exec (.idleRequest grid core) s = .next t) ∧
      (∀ r, (g.recs.find? fun r => !r.owned && decide (r.lo < r.hi)) = none → mostLeft g.recs = some r → 2 * r.grain ≤ r.hi - r.lo →
        let m := r.hi - (r.hi - r.lo) / 2
        givenTo grid core m r.hi r.grain g (s.modGrid grid fun g => { g with recs := g.recs.map fun x => if x.idx = r.idx then { x with hi := m } else x }) t →
        exec (.idleRequest grid core) s = .next t)))) ∧
  (∀ (s : State) (blk : Nat) (b : Block) (g : Grid), s.blk? blk = some b → s.grid? b.grid = some g → s.mayEnd b.ctx = true → b.onCore = true → b.over = true →
    ∃ t, exec (.blockEnd blk) s = .next t ∧ t.blk? blk = none ∧ (∀ g', t.grid? b.grid = some g' → g'.resOf b.idx ≠ .pending) ∧
      ∀ k, k / 2 ^ 64 = 8 * b.uid + 4 → memGet t.mem k = 0#8)

/-- A block that waits too long for a block not admitted begins to stop; once quiet it is benched whole, its frame written at its place in the bench area and its shared and spill bytes taken off the core, and the awaited page goes to the head of the sense queue, unless the bench area has no place or the awaited block has been admitted meanwhile; it returns to the lowest core with room once the awaited result is there, frozen groups giving way; a split's wait beyond its limit is a fault, a split's hold beyond its limit is reported once; a benched group returns from its frame, an evicted one with its spill window (R210, R421, R422, R425, R426, R429; the block frame's open places and which limits run on the bench are the model's reading, log 21 and 34). -/
def Obligations.BenchEventsComplete : Prop :=
  (∀ (s : State) (blk : Nat) (b : Block) (g : Grid), Runs s blk b g →
    (∀ u t, b.bench = .none → b.waiter (s.cycleOf b.core).toNat (s.ctxD b.ctx).bdly (s.notAdmitted g) = some (u, t) →
      exec (.gwaitBenchDelayExpiry blk) s = .next (s.modBlk blk fun b => { b with bench := .stopping t u })) ∧
    (∀ u t va s1, b.bench = .stopping t u → u.blk = blk → s.notAdmitted g t = true → b.enginesDone = true →
      (∀ x ∈ b.units, ∀ y, b.grp? x = some y → (x.isFront = true ∨ y.runs = 0) ∧ y.isLeaving = false ∧ s.drained x y = true) →
      (s.benchAlloc b.ctx b.frameSize = none → exec (.gwaitBenchDelayExpiry blk) s = .next (s.modBlk blk fun b => { b with bench := .none })) ∧
      (s.benchAlloc b.ctx b.frameSize = some (va, s1) →
      ∃ t', exec (.gwaitBenchDelayExpiry blk) s = .next t' ∧ (t'.blk? blk).map (·.bench) = some (.out (BitVec.ofNat 56 va) t u) ∧
        (t'.grid? b.grid).map (·.promo) = some (g.promote t).promo ∧ (∀ (k : Nat) (x : UnitRef), (t'.coreD b.core).cur[k]? = some (some x) → x.blk ≠ blk) ∧
        t'.mem = ((s.devWrite b.ctx va (s.blockFrame b va)).takeBlockMem b).mem)) ∧
    (∀ u t, b.bench = .stopping t u → s.notAdmitted g t = false →
      exec (.gwaitBenchDelayExpiry blk) s = .next (s.modBlk blk fun b => { b with bench := .none })) ∧
    (∀ va t u s' c p bs, b.bench = .out va t u → g.resOf t ≠ .pending → (b.shelf = true → s.shelvesUsed g < g.shelves) →
      s.placeFor b.ctx (s.coresFor b.ctx (g.dieOk b.cluster)) { g.needOf b.shelf with
        ng := (b.groups.filter (·.onCore)).length, units := b.nregs / 16, bytes := b.sharedUse, energy := b.groups.length * b.weight } = some (s', c, p) →
      s'.devRead b.ctx va.toNat b.frameSize [0, 1, 2, 3, 4, 5] = some bs →
      exec (.blockReturn blk) s = .next ((s'.returnBlock b c p.2 p.1 bs).benchFree b.ctx va.toNat))) ∧
  (∀ (s : State) (u : UnitRef) (b : Block) (g : Grp), s.blk? u.blk = some b → s.grp? u = some g → s.mayStart b.ctx = true →
    let now := (s.cycleOf b.core).toNat
    (∀ w, (g.waits.find? fun w => w.gwait.isSome && ((match b.bench with | .out _ _ x => x == u | _ => false) || decide (w.since + s.gwLimit b.ctx ≤ now))) = some w →
      exec (.gwaitLimitExpiry u) s = .next (s.takeFault u 0x10 0 0 0 (g.waitPc w) w.lanes)) ∧
    (let due (w : SplitWait) : Bool := w.gwait.isNone && !w.wlim && decide (w.since + s.hLimit b.ctx ≤ now)
     ∀ w, g.waits.find? due = some w → b.onCore = true → (s.ctxD b.ctx).fqRoom = true →
      exec (.holdLimitExpiry u) s = .next (((s.modGrp u fun g => { g with waits := updFirst due (fun w => { w with wlim := true }) g.waits }).post b.ctx
        (mkRec b u g 0x20 1 ((g.waitPc w).setWidth 64) 0 w.lanes ((lanesOf w.lanes).headD 0)) .none).bump b.ctx 0xC 1))) ∧
  (∀ (s : State) (blk gi cause : Nat) (b : Block) (g : Grp) (va : VAddr) (p : Nat × Nat) (bs : List Byte),
    s.blk? blk = some b → b.grp? (.group blk gi) = some g → s.mayStart b.ctx = true → b.onCore = true →
    (s.returns.find? fun r => (s.blk? r.1).elim false fun x => x.core == b.core && x.onCore && s.mayStart x.ctx) = some (blk, gi) → g.stat = .benched cause va →
    placeOne (s.slotsUsed b.core) (b.nregs / 16) = some p → (cause = 0 → s.bytesUsed b.core + alignUp b.spill 128 ≤ 2 ^ 19) →
    s.devRead (if cause = 0 then (s.ctxD b.ctx).via else b.ctx) va.toNat (grpFrameSize b.nregs + if cause = 0 then b.spill else 0) [0, 1, 2, 3, 4, 5] = some bs →
    let s1 := if cause = 0 then s.wr (kSpill blk gi 0) (bs.drop (grpFrameSize b.nregs)) else s
    exec (.groupReturn blk gi) s = .next ((({ s1 with returns := s1.returns.filter (· != (blk, gi)) } : State).modGrp (.group blk gi) fun _ =>
      { s.unframe b g gi bs with sched := p.1, slot := p.2 }) |> fun t => if cause = 0 then t else t.benchFree b.ctx va.toNat))

/-! ## Events of the engines -/

namespace Sys2Proof.Spec

/-- The engines of a block work. -/
def Works (s : State) (blk : Nat) (b : Block) : Prop := s.blk? blk = some b ∧ s.engineRuns b = true
/-- An operation of a copy context. -/
def CopyAt (s : State) (blk ctx no : Nat) (b : Block) (c : CopyCtx) (o : CopyOp) : Prop :=
  Works s blk b ∧ b.copies[ctx]? = some c ∧ (c.ops.find? (·.no == no)) = some o
/-- The head operation of a pipe of the matrix array, which no earlier one holds back. -/
def PipeAt (s : State) (core : Nat) (drain : Bool) (b : Block) (o : MOp) : Prop :=
  s.pipeHead core drain = some (b, o) ∧ o.begun = false ∧ s.preDone o.pre = true ∧ rowsMeet o.kind.rows (s.openRows core o.acc) = false ∧ o.bad = false
/-- An operation of the matrix context begun and done. -/
def finished (b : Block) (o : MOp) (s : State) : State := modM b.uid o.no (fun o => { o with begun := true, got := [], done := true }) s
/-- A shared line read for a matrix operation, in one step. -/
def lineRead (s : State) (b : Block) (o : MOp) (l : Nat) : State :=
  modM b.uid o.no (fun o => { o with got := o.got ++ [⟨l, s.rd (kShared b.uid (128 * l)) 128, s.rdPsn (kShared b.uid (128 * l)) 128⟩] }) s

end Sys2Proof.Spec

/-- A copy's tiles and lines complete: the next tile is translated, at most 8 ahead of the data, a copy of strongly ordered pages tile by tile and alone, one behind such a copy not at all, and its flash pages asked for; a copy whose record or command carries an error is abandoned in that same order; a source or destination range that does not translate posts its fault with that record's slot and stops the copy at its tile; a line's worth of a translated tile is read, with FILL out of bounds, its poisoned source granules counted once, and then written to the cabinet or its destination; a line of a CPY is written, present and credited in one step (R281, R295, R296, R301 to R306, R315, R443; the order of tiles is the model's reading, log 16). -/
def Obligations.CopyEventsComplete : Prop :=
  ∀ (s : State) (blk ctx no : Nat) (b : Block) (c : CopyCtx) (o : CopyOp), CopyAt s blk ctx no b c o → s.preDone o.pre = true →
    let first : Prop := ∀ e ∈ c.ops, e.no < o.no → s.copyOrd b e = false
    (o.bad = true → o.fault = .none → first → exec (.copyTile blk ctx (.next no)) s = .next (s.abandonCopy b ctx o)) ∧
    (o.bad = false →
    (o.fault = .none → o.walked < o.tiles → o.walked ≤ o.floor + 8 → first → (s.copyOrd b o = true → (∀ e ∈ c.ops, o.no ≤ e.no) ∧ o.todo = [] ∧ o.hand = []) →
      let j := (o.span o.walked o.esize).1
      let n := (o.span o.walked o.esize).2
      let src : Except XErr (List (Option (List Run))) := match o.src with | some r => s.tileRuns b r o.sc false j n | none => .ok []
      let dst : Except XErr (List (Option (List Run))) := match o.dst with | some r => s.tileRuns b r o.dc true j n | none => .ok []
      let stop (x : XErr) (slot : Nat) : State := modOp blk ctx no (fun o => { o with fault := .posted x.code x.va })
        (s.post b.ctx (mkEngRec b 3 x.code ctx no o.walked x.va (slot + 256 * o.walked)) (.eop blk (.copy ctx) no))
      (∀ sr dr, src = .ok sr → dst = .ok dr →
        exec (.copyTile blk ctx (.next no)) s = .next (modOp blk ctx no (fun o => { o with walked := o.walked + 1, todo := o.todo ++ CopyOp.pieces o.walked o.esize n sr dr })
          (s.askPages (.copy blk ctx no) (((sr.filterMap id).flatten.filterMap (·.page)).eraseDups.filter fun p => (o.sensed p).isNone)))) ∧
      (∀ x, src = .error x → (s.ctxD b.ctx).fqRoom = true → exec (.copyTile blk ctx (.next no)) s = .next (stop x o.srec)) ∧
      (∀ sr x, src = .ok sr → dst = .error x → (s.ctxD b.ctx).fqRoom = true →
        exec (.copyTile blk ctx (.next no)) s = .next (stop x (if o.kind = .cpyg then o.drec else o.srec)))) ∧
    (∀ line p, (o.todo.find? (·.line == line)) = some p → (∀ h ∈ o.hand, h.line ≠ line) → s.runsHeld (o.pieceFrom blk p) = false →
      (∀ r ∈ o.pieceFrom blk p, ∀ g, r.page = some g → (o.sensed g).isSome = true) →
      (o.kind = .cpys → b.present (o.ofs + 128 * line) (min 128 (o.nb - 128 * line)) = true) →
      let gs := (o.badGranules s (o.pieceFrom blk p)).filter fun g => !o.seen.contains g
      let d := s.pieceData blk o p
      exec (.copyTile blk ctx (.piece no line)) s = .next (modOp blk ctx no (fun o => { o with
        todo := if o.kind = .cpy then o.todo.filter (·.line != line) else o.todo, hand := o.hand ++ [⟨line, d.1, d.2⟩], seen := o.seen ++ gs })
        (if gs = [] then s else s.bump b.ctx 3 gs.length))) ∧
    (∀ line p h, (o.todo.find? (·.line == line)) = some p → (o.hand.find? (·.line == line)) = some h → s.runsHeld (p.dst.filterMap id).flatten = false →
      exec (.copyTile blk ctx (.piece no line)) s = .next ((modOp blk ctx no (fun o => { o with todo := o.todo.filter (·.line != line), hand := o.hand.filter (·.line != line) }) s).placePiece
        b o p (h.bytes, h.psn))) ∧
    (∀ line h, o.kind = .cpy → (o.hand.find? (·.line == line)) = some h →
      let t := modOp blk ctx no (fun o => { o with hand := o.hand.filter (·.line != line), landed := o.landed + 1 })
        ((s.wrPsn (kShared blk (o.ofs + 128 * line)) h.bytes h.psn).modBlk blk (·.setLine (o.ofs / 128 + line)))
      (o.bb = none → exec (.copyLineLanding blk ctx no line) s = .next t) ∧
      (∀ bb, o.bb = some bb → (t.bbCredit b bb h.bytes.length).1 = true →
        exec (.copyLineLanding blk ctx no line) s = .next (t.bbCredit b bb h.bytes.length).2)))

/-- A landed copy line: its bytes are in the shared space, its line is present, and every byte outside the line is as before (R281, R301). -/
def Obligations.LandedLineIsPresent : Prop :=
  ∀ (s t : State) (blk ctx no line : Nat) (b : Block) (c : CopyCtx) (o : CopyOp) (h : Landing), memCanonical s → CopyAt s blk ctx no b c o →
    o.kind = .cpy → o.bad = false → (o.hand.find? (·.line == line)) = some h → o.bb = none → exec (.copyLineLanding blk ctx no line) s = .next t →
    (∀ i x, h.bytes[i]? = some x → memGet t.mem (kShared blk (o.ofs + 128 * line) + i) = x) ∧
      (∀ a, a < kShared blk (o.ofs + 128 * line) ∨ kShared blk (o.ofs + 128 * line) + h.bytes.length ≤ a → memGet t.mem a = memGet s.mem a) ∧
      (t.blk? blk).map (·.absent) = some (b.absent.filter (· != o.ofs / 128 + line)) ∧ ∀ u l r, reg? t u l r = reg? s u l r

/-- The matrix array's operations begin and complete: MWLD fills a latch, META set where its tile is not of the 2:4 form, MZERO clears its rows, MROWSC scales and AMASK masks them, MDRAIN takes its converted rows in hand, MLOOP begins and performs one K-step after another, each of which changes the entries of its rows and no others, a drained line is written in one write with its presence bit, a poisoned entry's error in every granule its bytes lie in; an operation whose command carries an error, begun or not, writes no byte more and is over (R322, R323, R326, R334, R338 to R343, R364, R442, R443; that a K-step's arithmetic is one event behind its lines' reads, and that it takes the tile of the latch that holds it, else the cabinet's, is the model's reading, log 77, 24 and 8). -/
def Obligations.MatrixEventsComplete : Prop :=
  (∀ (s : State) (core : Nat) (drain : Bool) (b : Block) (o : MOp), PipeAt s core drain b o →
    let go (t : State) : Prop := exec (.matrixOperationBegin core drain) s = .next t
    (∀ d, o.kind = .mwld d → 
      let l := s.loadTile b d d.wofs
      let t := s.modCore core fun c => { c with latches := newLatch l c.latches }
      go (finished b o (if metaBad d.wfmt d.wcmp l.bytes.toArray then t.mStatus b.uid fMETA else t))) ∧
    (∀ row m, o.kind = .mzero row m → go (finished b o ((List.range m).foldl (fun s i => s.setAccRow core (row + i) zeroRow) s))) ∧
    (∀ l, o.kind.drains = false → (∀ row m k z aofs astride scb afmt kofs d, o.kind ≠ .mloop row m k z aofs astride scb afmt kofs d) →
      (o.need.find? fun l => b.present (128 * l) 128) = some l → go (lineRead s b o l)) ∧
    (∀ row m fofs, o.kind = .mrowsc row m fofs → o.need = [] →
      go (finished b o ((List.range m).foldl (fun s i =>
        let x := gotBytes o.got (fofs + 4 * i) 4
        let r := rowScale ⟨BitVec.ofNat 32 (leNat x.1), x.2.any id⟩ (s.accRow core (row + i))
        (s.setAccRow core (row + i) r.1).mStatus b.uid r.2) s))) ∧
    (∀ row m mofs, o.kind = .amask row m mofs → o.need = [] →
      let bits := (gotBytes o.got mofs (48 * m)).1.toArray
      go (finished b o ((List.range (3 * m)).foldl (fun s k =>
        let r := row + 128 * (k / m) + k % m
        s.setAccRow core r ((s.accRow core r).zipIdx.map fun x => if bitAt bits (384 * (k % m) + 128 * (k / m) + x.2) then x.1 else ⟨0xFF800000, false⟩)) s))) ∧
    (∀ row m z dofs dstride scb sh dfmt k0, o.kind = .mdrain row m z dofs dstride scb sh dfmt k0 →
      let out := (List.range m).map fun i => drainRow scb sh dfmt k0 (rowBase dofs dstride i) (s.accRow core (row + i))
      let t := s.mStatus b.uid (out.foldl (fun a r => a ||| r.2) 0)
      let t := if z then (List.range m).foldl (fun s i => s.setAccRow core (row + i) zeroRow) t else t
      go (modM b.uid o.no (fun o => { o with begun := true, hand := out.flatMap fun r => r.1.flatMap (cutLines 6) }) t)) ∧
    (∀ row m k z aofs astride scb afmt kofs d, o.kind = .mloop row m k z aofs astride scb afmt kofs d → go (modM b.uid o.no (fun o => { o with begun := true }) s))) ∧
  (∀ (s : State) (core : Nat) (b : Block) (o : MOp) (row m k : Nat) (z : Bool) (aofs astride scb afmt kofs : Nat) (d : WDesc), s.pipeHead core false = some (b, o) →
    o.begun = true → o.bad = false → o.kind = .mloop row m k z aofs astride scb afmt kofs d →
    (∀ l, (o.need.find? fun l => b.present (128 * l) 128) = some l → exec (.matrixKstep core) s = .next (lineRead s b o l)) ∧
    (o.need = [] → exec (.matrixKstep core) s = .next (s.kStep core b o row m k z aofs astride scb afmt kofs d) ∧
      (memCanonical s → row + m ≤ 16384 →
        let t := s.kStep core b o row m k z aofs astride scb afmt kofs d
        let tile := s.kTile core b o.step d
        let badCols := ((List.range 128).map fun n => (colBytes d.wfmt d.wcmp n).any fun i => tile.psn.toArray.getD i false).toArray
        (∀ i < m, let x := kRowIn o.got afmt scb (kofs + 96 * o.step) (rowBase aofs astride i)
          t.accRow core (row + i) =
            (kRow d.wfmt d.wcmp tile.bytes.toArray badCols afmt x.2.1 x.1 x.2.2 (if z ∧ o.step = 0 then List.replicate 128 ⟨0, false⟩ else s.accRow core (row + i))).1) ∧
        (∀ c r, r < 16384 → ¬ (c = core ∧ row ≤ r ∧ r < row + m) → t.accRow c r = s.accRow c r) ∧
        (∀ a, a / 2 ^ 64 ≠ 8 * core + 7 → memGet t.mem a = memGet s.mem a) ∧ SameRecords s t ∧ ∀ u l r, reg? t u l r = reg? s u l r))) ∧
  (∀ (s : State) (blk no line : Nat) (b : Block) (o : MOp), Works s blk b → (b.matrix.ops.find? (·.no == no)) = some o → o.bad = false → (∃ f ∈ o.hand, f.ofs / 128 = line) →
    let p := o.hand.partition fun f => f.ofs / 128 == line
    exec (.mdrainLineLanding blk no line) s = .next (modM blk no (fun o => { o with hand := p.2, done := p.2 == [] })
      (p.1.foldl (fun s f => (f.psn.zipIdx.filter (·.1)).foldl (fun s x => s.markGran (kShared blk (f.ofs + x.2)) 1) s)
        ((s.wrPsnMany (p.1.map fun f => (kShared blk f.ofs, f.bytes, f.psn))).modBlk blk (·.setLine line))))) ∧
  (∀ (s : State) (core : Nat) (drain : Bool) (b : Block) (o : MOp), s.pipeHead core drain = some (b, o) → o.bad = true →
    (o.begun = false → s.preDone o.pre = true → rowsMeet o.kind.rows (s.openRows core o.acc) = false → exec (.matrixOperationBegin core drain) s = .next (s.abandonM b o)) ∧
    (o.begun = true → drain = false → exec (.matrixKstep core) s = .next (s.abandonM b o)) ∧ (s.abandonM b o).mem = s.mem) ∧
  (∀ (s : State) (blk no line : Nat) (b : Block) (o : MOp), Works s blk b → (b.matrix.ops.find? (·.no == no)) = some o → o.bad = true → (∃ f ∈ o.hand, f.ofs / 128 = line) →
    exec (.mdrainLineLanding blk no line) s = .next (s.abandonM b o))

/-- Engine operations complete: an operation all of whose accesses are performed leaves its context, its dependency slot is clear, and the context's counter rises as far as no operation left is open (R37, R281, R291). -/
def Obligations.EngineOperationsComplete : Prop :=
  ∀ (s : State) (blk no : Nat) (b : Block), Works s blk b →
    (∀ k c o, CopyAt s blk k no b c o → o.complete = true → let left := c.ops.filter (·.no != no)
      exec (.engineOperationComplete blk (.copy k) no) s = .next (s.modBlk blk fun b => { b with copies := b.copies.set k ⟨tlRaise c.tl (left.map (·.no)), left⟩ })) ∧
    (∀ o, (b.matrix.ops.find? (·.no == no)) = some o → o.complete = true → let left := b.matrix.ops.filter (·.no != no)
      exec (.engineOperationComplete blk .matrix no) s = .next (s.modBlk blk fun b =>
        ({ b with matrix := { b.matrix with tl := tlRaise b.matrix.tl (left.map (·.no)), ops := left } } : Block).clearSlot o.slot)) ∧
    (∀ o r t, b.attn.ops = o :: r → o.no = no → s.attnEnd b o = some t →
      exec (.engineOperationComplete blk .attention no) s = .next (t.modBlk blk fun b => let left := b.attn.ops.filter (·.no != no)
        ({ b with attn := { b.attn with tl := tlRaise b.attn.tl (left.map (·.no)), ops := left } } : Block).clearSlot o.slot)) ∧
    (∀ l, (b.pagec.fly.find? (·.no == no)) = some l → l.done = true → l.bad = false →
      exec (.engineOperationComplete blk .page no) s = .next (modPage blk (fun c => ({ c with pend := c.pend.filter (· != no), fly := c.fly.filter (·.no != no) } : PCtx).raised) s)) ∧
    (∀ o, (b.coll.ops.find? (·.no == no)) = some o → s.preDone o.pre = true → o.bad = false → o.fault = .none → o.out = some ([], []) → o.work = [] →
      exec (.engineOperationComplete blk .coll no) s = .next (collDone b.uid no s)) ∧
    ((no, true) ∈ b.handle.ops → let left := b.handle.ops.filter (·.1 != no)
      exec (.engineOperationComplete blk .handle no) s = .next (s.modBlk blk fun b => { b with handle := { tl := tlRaise b.handle.tl (left.map (·.1)), ops := left } }))

/-! ## Events of attention, pages, streams, handles and collectives -/

namespace Sys2Proof.Spec

/-- The head operation of an attention context, its turn come and nothing against it. -/
def AttnAt (s : State) (blk : Nat) (b : Block) (o : AOp) : Prop :=
  Works s blk b ∧ b.attn.ops.head? = some o ∧ b.attnTurn o = true ∧ o.fault = .none ∧ o.bad = false ∧ s.preDone o.pre = true
/-- The next tile block of it, with the accesses to it that are on their way. -/
def GatherAt (s : State) (blk : Nat) (b : Block) (o : AOp) (i : Nat) (pl : TilePlan) (hand : List KvHand) (busy : Option KvBusy) : Prop :=
  AttnAt s blk b o ∧ o.ended = false ∧ o.kind = .atile i pl hand busy ∧ hand.length < pl.nblk
/-- A block's accesses go on, or, once none is left, the tile has it in hand. -/
def gathered (blk no i : Nat) (pl : TilePlan) (hand : List KvHand) (h : KvHand) (left : List KvRead) (s : State) : State :=
  modA' blk no (fun o => { o with kind := if left = [] then .atile i pl (hand ++ [h]) none else .atile i pl hand (some (.slots h left)) }) s
/-- A sense job of the page engine. -/
def JobAt (s : State) (sense : Nat) (j : PageJob) : Prop := (s.jobs.find? (·.no == sense)) = some j ∧ s.pageRuns (s.jobCtx j) = true
/-- The lines of a page. -/
def linesOf (d : List Byte × List Bool) : List Landing := (List.range 128).map fun k => ⟨k, (d.1.drop (128 * k)).take 128, (d.2.drop (128 * k)).take 128⟩
/-- A page's bytes on their way to a job's target: in lines to its shelf, with how it was delivered, or to its stream's window; or to the copy that waits for this sense (R309, R313, R315, R318). -/
def deliveredAs (j : PageJob) (d : List Byte × List Bool) (cbits back recon : Nat) (s : State) : State :=
  match j.tgt with
  | .grid .. => s.setJob { j with phase := .landing, hand := linesOf d, pstat := pstatOf (chanOfPage j.ppage) cbits back recon j.retry }
  | .copy b c n => modOp b c n (fun o => { o with pages := o.pages ++ [⟨j.ppage, some d⟩] }) (s.dropJob j.no)
  | .stream .. => s.setJob { j with phase := .landing, hand := linesOf d }
/-- The head of a handle channel, its link up. -/
def MsgAt (s : State) (core home : Nat) (m : HMsg) : Prop := s.hcHead core home = some m ∧ s.pkgGone (home / 4) = false

end Sys2Proof.Spec

/-- An attention operation goes on access by access: the table entry's handle is resolved and copied with half its weight, then the survivor word is read, then the slots, in lines in any order, and the tile takes the block in hand; an entry that does not translate posts its fault; with every block in hand the buffer is written and the mask and the descriptor are to land; a line to land is written in one write with its presence bit (R281, R359 to R361, R505; that the buffer of a tile and the rows of an ASEQ are written in one step, and that a survivor word with an error is used as its bytes read, is the model's reading, log 77 and 26). -/
def Obligations.GatherCompletes : Prop :=
  (∀ (s : State) (blk : Nat) (b : Block) (o : AOp) (i : Nat) (pl : TilePlan) (hand : List KvHand) (busy : Option KvBusy), GatherAt s blk b o i pl hand busy →
    let p := o.pass
    let t := hand.length
    let j := pl.blk0 + t
    let ea := p.kvt + 16 * (pl.seq * p.maxb + j)
    (∀ er a g s1, busy = none → s.engRange b.core b.ctx ea 16 true = .ok er → s.runsHeld er = false → (s.engRead er).2.any id = false →
      s.resolve b.ctx 0 (handleOf (s.engRead er).1) = .addr a → s.splitHandle b.ctx (b.core / 48) 0 (handleOf (s.engRead er).1) = .ok g s1 →
      exec (.attentionGatherBlock (.next blk)) s = .next (modA' blk o.no (fun o => { o with kind := .atile i pl hand (some (.handle (g.w0, g.w1) a)) })
        (s1.engWrite er g.bytes (List.replicate 16 false)))) ∧
    (∀ w a sr kr vr, busy = some (.handle w a) → s.engRange b.core b.ctx a 8 false = .ok sr → s.runsHeld sr = false →
      let surv := leNat (s.engRead sr).1
      let n := 2 * p.hd * (slotsOf (survIn surv pl.len j)).length
      s.engRange b.core b.ctx (a + 0x80) n false = .ok kr → s.engRange b.core b.ctx (a + 0x80 + 2 * p.hd * 64) n false = .ok vr →
      exec (.attentionGatherBlock (.next blk)) s = .next (gathered blk o.no i pl hand
        ⟨BitVec.ofNat 64 surv, zerosB n, List.replicate n false, zerosB n, List.replicate n false, some w⟩ (kvReads false 0 kr ++ kvReads true 0 vr) s)) ∧
    (∀ h left k r, busy = some (.slots h left) → left[k]? = some r → s.runsHeld [r.run] = false →
      let d := s.engRead [r.run]
      exec (.attentionGatherBlock (.piece blk k)) s = .next (gathered blk o.no i pl hand
        (if r.isV then { h with vbytes := splice h.vbytes r.ofs d.1, vpsn := splice h.vpsn r.ofs d.2 }
          else { h with kbytes := splice h.kbytes r.ofs d.1, kpsn := splice h.kpsn r.ofs d.2 }) (left.eraseIdx k) s)) ∧
    (∀ x, busy = none → s.engRange b.core b.ctx ea 16 true = .error x → (s.ctxD b.ctx).fqRoom = true →
      exec (.attentionGatherBlock (.next blk)) s = .next (modA' blk o.no (fun o => { o with fault := .posted x.code x.va })
        (s.post b.ctx (mkEngRec b 5 x.code 0 o.no t x.va (256 * t)) (.eop blk .attention o.no))))) ∧
  (∀ (s : State) (blk : Nat) (b : Block) (o : AOp), AttnAt s blk b o →
    (∀ k pl hand busy, o.ended = false → o.kind = .atile k pl hand busy → hand.length = pl.nblk →
      let e := s.endTile b o.pass k pl hand
      exec (.attentionGatherBlock (.next blk)) s = .next (modA' blk o.no (fun o => { o with ended := true, hand := e.2.1, last := some e.2.2 })
        (e.1.dropCopies b (hand.filterMap (·.handle) ++ (busy.bind (·.handleOf)).toList)))) ∧
    (o.ended = false → o.kind = .aseq → rowsMeet [(o.pass.orow, o.pass.nrows, true)] (s.openRows b.core o.acc) = false →
      exec (.attentionGatherBlock (.next blk)) s = .next (modA' blk o.no (fun o' => { o' with ended := true, hand := (s.endSeq b o.pass).2 }) (s.endSeq b o.pass).1)) ∧
    (∀ line, o.ended = true → o.hand ≠ [] → (∃ f ∈ o.hand, f.ofs / 128 = line) →
      let p := o.hand.partition fun f => f.ofs / 128 == line
      exec (.attentionGatherBlock (.piece blk line)) s = .next (modA' blk o.no (fun o => { o with hand := p.2 })
        ((s.wrPsnMany (p.1.map fun f => (kShared blk f.ofs, f.bytes, f.psn))).modBlk blk (·.setLine line)))))

/-- The page engine's events complete: a shelf is reserved for the next page with the block's resources of that moment and its sense begins; a good sense has the page's lines land in the shelf one by one, a failed one is retried seven times and then reconstructed; a backing copy is delivered; a stream's page is written into its window line by line, and its next layer starts once its window is free (R173, R210, R281, R283, R307, R310 to R315, R318, R453, R455, R456; who gets a shelf next and the ladder's channel, and that a page's bytes are taken in hand in one step and land line by line, are the model's reading, log 22 and 77). -/
def Obligations.PageEventsComplete : Prop :=
  (∀ (s s1 : State) (grid : Nat) (g : Grid) (i c fe : Nat) (ps : List (Nat × Nat)) (p : Nat × Nat), s.grid? grid = some g → g.kind = .page → s.pgUp = true → s.mayStart g.ctx = true →
    g.pgStop = false → s.anyWaits g.ctx = false → s.shelvesUsed g < g.shelves → g.nextPg = some i →
    s.placeFor g.ctx (s.newCores g 0) (g.needOf true) = some (s1, c, ps, fe) →
    let var := g.var
    let need := g.needOf true
    let t := ({ s1 with nextUid := s1.nextUid + 1 } : State).modGrid grid fun g => { g with
      pages := g.pages ++ [⟨i, s1.nextUid, c, var, need, ps, fe, none⟩]
      promo := g.promo.filter (· != i)
      nextPage := if i = g.nextPage then i + 1 else g.nextPage }
    t.pageRec g i = some p →
    exec (.shelfReservation grid) s = .next { t with jobs := t.jobs ++ [mkJob t.nextId (.grid grid i) p.1 p.2], nextId := t.nextId + 1 }) ∧
  (∀ (s t : State) (sense : Nat) (j : PageJob), JobAt s sense j →
    (∀ c, j.phase = .sense → exec (.pageSenseDone sense (.good c)) s = .next (deliveredAs j (s.pageBytes j.ppage) c 0 0 s)) ∧
    (j.phase = .sense → j.retry < 7 → exec (.pageSenseDone sense .failed) s = .next ((s.pgBump (s.jobCtx j) 0).setJob { j with retry := j.retry + 1 })) ∧
    (j.phase = .sense → j.retry = 7 →
      exec (.pageSenseDone sense .failed) s = .next ((s.pgBump (s.jobCtx j) 1).setJob { j with phase := .recon, left := (stripeOthers j.ppage).map fun p => (p, 0) })) ∧
    (∀ c p r, j.phase = .recon → j.left = [(p, r)] → j.failed = false →
      exec (.pageSenseDone sense (.good c)) s = .next (deliveredAs { j with left := [], cbits := j.cbits + c } (s.pageBytes j.ppage) (j.cbits + c) 0 1 s)) ∧
    (∀ line grid i g, j.phase = .landing → j.tgt = .grid grid i → s.grid? grid = some g → s.landLine j g i line = some t →
      exec (.pageSenseDone sense (.landed line)) s = .next t) ∧
    (∀ g i rs, j.phase = .backing → j.tgt = .grid g i → s.engRange 192 (s.jobCtx j) (s.jobBack j) 16384 false = .ok rs → s.runsHeld rs = false →
      (s.engRead rs).2.any id = false → exec (.pageBackingFetchDone sense) s = .next (deliveredAs j (s.engRead rs) 0 1 0 (s.pgBump (s.jobCtx j) 2))) ∧
    (∀ line blk n p x l h rs, j.phase = .landing → j.tgt = .stream blk n p → s.blk? blk = some x → (x.pagec.fly.find? (·.no == n)) = some l →
      (j.hand.find? (·.line == line)) = some h → s.engRange x.core x.ctx (l.dst + 16384 * l.page + 128 * line) 128 true = .ok rs → s.runsHeld rs = false →
      let left := j.hand.filter (·.line != line)
      let u := s.engWrite rs h.bytes h.psn
      exec (.pageSenseDone sense (.landed line)) s = .next (if left ≠ [] then u.setJob { j with hand := left } else layerNext blk n (u.dropJob j.no)))) ∧
  (∀ (s : State) (blk : Nat) (b : Block) (d : WStream) (rs ds : List Run) (p : Nat), Works s blk b → s.pgUp = true → b.pagec.fly = [] → b.pagec.stream = some d → d.next < d.nlayer →
    (d.next - d.first < d.nwin ∨ d.next - d.nwin ∈ d.freed) →
    let l : Layer := { no := d.n0 + (d.next - d.first), layer := d.next, src := d.src + d.next * d.lbytes, dst := (d.ring + d.next % d.nwin * d.lbytes) % 2 ^ 56,
                       back := if d.backw = 0 then 0 else d.backw + d.next * d.lbytes, pages := d.lbytes / 16384, page := 0, begun := false, fault := .none, done := false, bad := false }
    let t := modPage blk (fun c => { c with fly := c.fly ++ [l], stream := some { d with next := d.next + 1 } }) s
    t.engRange b.core b.ctx (l.src % 2 ^ 56) 16384 false = .ok rs → t.engRange b.core b.ctx l.dst 16384 true = .ok ds → rs.head?.bind (·.page) = some p →
    exec (.wstreamLayerStart blk) s = .next (modLayer blk l.no (fun l => { l with begun := true }) (t.askPages (.stream blk l.no 0) [p])))

namespace Sys2Proof.Spec

/-- A submitted frame's stream context is read whole and clean, and a running block is bound to it (R367, R406). -/
def FrameAt (s : State) (ctx : Nat) (fr : List Byte) (c : SCtx) (b : Block) : Prop :=
  ∃ bs, s.devRead ctx (fieldAt fr 0 7) 256 [0] = some bs ∧ s.devPsn ctx (fieldAt fr 0 7) 256 = false ∧ c = sctxOf (fieldAt fr 0 7) bs ∧
    s.boundBlock ctx (fieldAt fr 0 7) = some b
/-- Its ring entry, payload slot and submitted payload translate (R369). -/
def FrameParts (s : State) (ctx : Nat) (fr : List Byte) (c : SCtx) (er pr sr : List Run) : Prop :=
  s.engRange nCores ctx (c.fring + 32 * (c.fhead % c.frn)) 32 true = .ok er ∧ s.engRange nCores ctx (c.fpay + c.fpsz * (c.fhead % c.frn)) c.fpsz true = .ok pr ∧
    s.engRange nCores ctx (fieldAt fr 16 7) (min (fieldAt fr 12 4) c.fpsz) false = .ok sr
/-- A stream report in the context's queue CQN, the first queue where it has no such one (R396, R401). -/
def reported (ctx : Nat) (c : SCtx) (status stamp : Nat) (s : State) : State :=
  { s with cqPend := s.cqPend ++ [⟨.stream, ctx, if (s.ctxD ctx).rcd.ncq.toNat ≤ c.cqn then 0 else c.cqn, BitVec.ofNat 64 c.at_, c.stag, status, 2, BitVec.ofNat 32 stamp, none, 0⟩] }
/-- A field of the stream context is written. -/
def putF (ctx : Nat) (c : SCtx) (o n v : Nat) (s : State) : State := s.devWrite ctx (c.at_ + o) (leBytes n v)
/-- The frame is in: payload, entry, CLAMP, FHEAD, NPEND and PMIN are written, and the entry's word is on its way to q17 (R368, R369). -/
def frameIn (ctx : Nat) (fr : List Byte) (c : SCtx) (b : Block) (er pr sr : List Run) (s : State) : State :=
  let stamp := fieldAt fr 8 4
  let len := fieldAt fr 12 4
  let flags := (if c.fhead / c.frn % 2 = 0 then 1 else 0) + (if c.g < stamp then 2 else 0) + if c.fpsz < len then 4 else 0
  let t := s.engWrite pr (s.engRead sr).1 (s.engRead sr).2
  let t := t.engWrite er (leBytes 4 (min stamp c.g) ++ leBytes 4 stamp ++ leBytes 4 flags ++ leBytes 4 (min len c.fpsz) ++ zerosB 16) (List.replicate 32 false)
  let t := if c.g < stamp then putF ctx c 0x84 4 (c.clamp + 1) t else t
  let t := putF ctx c 0x10 4 (min c.pmin (min stamp c.g)) (putF ctx c 0x14 2 (c.npend + 1) (putF ctx c 0x18 4 (c.fhead + 1) t))
  t.modBlk b.uid fun b => { b with q17Pend := b.q17Pend ++ [BitVec.ofNat 32 (c.stag * 65536 + c.fhead % c.frn)] }

end Sys2Proof.Spec

/-- The stream unit's and the handles' events complete: a window write is taken and one that covers the last byte submits its record; a frame is taken in order: a late one is counted and reported, one whose ring is full waits, one whose context cannot be read is counted and dropped, one with another part that fails is reported, and any other has its payload, entry and counts written and its entry goes to q17; a drop or a bind is handled at its home in one step; a finaliser's task starts with its ageing and bench delay; a participant's source is read tile by tile and joins its collective, the result of one that all have joined is settled (a gather's is the sources in rank order; an element of an integer sum is the sum of the sources' elements, poisoned where one of them is), and is written tile by tile, each access in a line (R281, R285, R303, R306, R367 to R369, R406, R466, R468, R474, R478 to R480, R490). Readings of the model: what a bad stream context does to a frame, log 26; the order in which a collective combines, log 6; when a source is read, a result is settled and what disagrees, log 29; ageing and bench delay of a whole context, log 62; a finaliser waits for a free task record, log 75; a stream unit with a report that waits takes no frame, log 60. -/
def Obligations.StreamHandleCollectiveEventsComplete : Prop :=
  (∀ (ctx : Nat) (ps : List CollPart) (o : CollOp), let part (d : Nat) : CollPart := (ps.find? (·.die == d)).getD ⟨d, 0, [], [], []⟩
    (o.kind = 1 → collResult ctx ps o = (o.ranks.flatMap fun d => (part d).src, o.ranks.flatMap fun d => (part d).psn)) ∧
    (∀ k, o.kind ≠ 1 → (o.fmt = 2 ∨ o.fmt = 3) → o.op = 0 → k < o.count → let at_ := 4 * ((if o.kind = 2 then o.rank * o.count else 0) + k)
      fieldAt (collResult ctx ps o).1 (4 * k) 4 = (o.ranks.map fun d => fieldAt (part d).src at_ 4).sum % 2 ^ 32 ∧
      ∀ j < 4, (collResult ctx ps o).2[4 * k + j]? = some (o.ranks.any fun d => ((((part d).psn.drop at_).take 4).any id)))) ∧
  (∀ (s : State) (ctx ofs : Nat) (bytes : List Byte), bytes ≠ [] → 0x9000 ≤ ofs → ofs + bytes.length ≤ 0x9020 →
    exec (.frameWindowWrite ctx ofs bytes) s = .next (s.modCtx ctx fun c =>
      let w := c.window.take (ofs - 0x9000) ++ bytes ++ c.window.drop (ofs - 0x9000 + bytes.length)
      { c with window := w, framesIn := if ofs + bytes.length = 0x9020 then c.framesIn ++ [w] else c.framesIn })) ∧
  (∀ (s t : State) (c : Ctx) (r : List Ctx) (f : List Byte) (fs : List (List Byte)), s.ctxs = c :: r → s.mayStart c.no = true → c.framesIn = f :: fs →
    (∀ e ∈ s.cqPend, e.ctx = c.no → e.writer ≠ .stream) → s.frameStep c.no f = some t → exec .frameArrival s = .next (t.modCtx c.no fun c => { c with framesIn := c.framesIn.erase f })) ∧
  (∀ (s : State) (ctx : Nat) (fr : List Byte),
    (s.devRead ctx (fieldAt fr 0 7) 256 [0] = none ∨ s.devPsn ctx (fieldAt fr 0 7) 256 = true → s.frameStep ctx fr = some s.hostError) ∧
    (∀ c b, FrameAt s ctx fr c b → let stamp := fieldAt fr 8 4
      (c.legal = false ∨ c.at_ % 256 ≠ 0 ∨ (∀ er pr sr, ¬ FrameParts s ctx fr c er pr sr) → s.frameStep ctx fr = some (reported ctx c 0x10 stamp s)) ∧
      (∀ er pr sr, c.legal = true → c.at_ % 256 = 0 → FrameParts s ctx fr c er pr sr →
        let full : Prop := (c.fhead + 2 ^ 32 - c.ftail) % 2 ^ 32 = c.frn
        (stamp < c.f → s.frameStep ctx fr = some (reported ctx c 0x0E stamp (putF ctx c 0x80 4 (c.late + 1) s))) ∧
        (c.f ≤ stamp → full → s.frameStep ctx fr = none) ∧
        (c.f ≤ stamp → ¬ full → s.frameStep ctx fr = some (frameIn ctx fr c b er pr sr s))))) ∧
  (∀ (s : State) (blk : Nat) (b : Block) (e : Word) (r : List Word), s.blk? blk = some b → b.q17Pend = e :: r → b.q17.length < 64 → b.onCore = true →
    exec (.q17Push blk) s = .next (s.modBlk blk fun b => { b with q17 := b.q17 ++ [e], q17Pend := r })) ∧
  (∀ (s : State) (core home : Nat) (m : HMsg), MsgAt s core home m →
    (∀ g e, m.kind = .drop g e → exec (.dropMessageArrival core home) s = .next ((({ s with hc := s.hc.erase m } : State).dropAt m g e).handled m.op)) ∧
    (∀ g f, m.kind = .bind g f → exec (.bindMessageArrival core home) s = .next ((({ s with hc := s.hc.erase m } : State).bindAt m g f).handled m.op))) ∧
  (∀ (s : State) (c : Ctx) (f : FinTask) (r : List FinTask) (g : Grid), s.cpUp = true → (s.ctxs.find? fun c => c.fins != [] && s.ctxOk c.no && s.mayStart c.no && s.tableRoom c.no && !(s.cqPend.any fun e => e.writer == .fin && e.ctx == c.no)) = some c →
    c.fins = f :: r → f.bytes ≠ [] →
    let t := s.modCtx c.no fun c => { c with fins := r }
    t.launchOf c.no t.nextUid (finReq f) none = .ok g → exec .finaliserStart s = .next ((t.startGrid g).setAge c.no (finReq f))) ∧
  (∀ (s : State) (blk no : Nat) (b : Block) (o : CollOp), Works s blk b → (b.coll.ops.find? (·.no == no)) = some o → o.bad = false →
    s.preDone o.pre = true → o.fault = .none →
    (let gots := o.work.filterMap (·.got)
     let d : List Byte × List Bool := (o.data.1 ++ gots.flatMap (·.1), o.data.2 ++ gots.flatMap (·.2))
     o.joined = false → (∀ a ∈ o.work, a.got.isSome = true) →
      (∀ rs, d.1.length < o.srcLen → s.collRuns b false (o.src + d.1.length) (min 512 (o.srcLen - d.1.length)) = .ok rs →
        exec (.collectiveJoin blk (.next no) []) s = .next (modColl blk no (fun x => { x with data := d, work := rs.map fun r => ⟨r, none⟩, tile := x.tile + 1 }) s)) ∧
      (o.srcLen ≤ d.1.length → exec (.collectiveJoin blk (.next no) []) s = .next (modColl blk no (fun o => { o with tile := 0, work := [], data := ([], []), joined := true })
        (s.join b.ctx o.cid o.use [⟨4 * s.pkg + b.core / 48, o.rank, o.params, d.1, d.2⟩])))) ∧
    (∀ k rs, o.joined = false → o.work[k]? = some ⟨rs, none⟩ → s.runsHeld rs = false →
      let gs := (psnGranules s rs).filter fun g => !o.seen.contains g
      exec (.collectiveJoin blk (.piece no k) []) s = .next (modColl blk no (fun o => { o with work := o.work.set k ⟨rs, some (s.engRead rs)⟩, seen := o.seen ++ gs })
        (if gs = [] then s else s.bump b.ctx 3 gs.length))) ∧
    ((∀ d ∈ o.ranks, s.pkgLost (d / 4) = false) → o.joined = true →
      (o.out = none → (∀ d ∈ o.ranks, ∃ p ∈ s.collParts b.ctx o, p.die = d) → collAgree (s.collParts b.ctx o) o = true →
        exec (.collectiveJoin blk (.next no) []) s = .next (modColl blk no (fun x => { x with out := some (collResult b.ctx (s.collParts b.ctx o) o) }) s)) ∧
      (∀ k rs d, o.work[k]? = some ⟨rs, some d⟩ → s.runsHeld rs = false →
        exec (.collectiveJoin blk (.piece no k) []) s = .next (modColl blk no (fun o => { o with work := o.work.eraseIdx k }) (s.engWrite rs d.1 d.2)))) ∧
    (∀ d rs, o.joined = true → o.out = some d → o.work = [] → d.1 ≠ [] → s.collRuns b true (o.dst + 512 * o.tile) (min 512 d.1.length) = .ok rs →
      let n := min 512 d.1.length
      let a := o.dst + 512 * o.tile
      exec (.collectiveJoin blk (.next no) []) s = .next (modColl blk no (fun o => { o with
        work := (rs.zip (lineCuts a n)).map fun x => (⟨x.1, some ((d.1.drop (x.2.1 - a)).take x.2.2, (d.2.drop (x.2.1 - a)).take x.2.2)⟩ : CollAcc)
        tile := o.tile + 1, out := some (d.1.drop n, d.2.drop n) }) s)))

namespace Sys2Proof.Spec

/-- A stale drop (0x100) or an over-drop (0x101) counts in the context that the home serves: the message's own, or the context of its domain on the home's package (R462, R466, R492). -/
def countedAt (m : HMsg) (ix : Nat) (s : State) : State :=
  if m.home / 4 = s.pkg then s.bump m.ctx ix 1 else
    { s with domPeers := s.domPeers.map fun p => if p.dom = (s.ctxD m.ctx).rcd.dom.toNat ∧ p.pkg = m.home / 4 then
        (if ix = 0x100 then { p with stales := p.stales + 1 } else { p with overs := p.overs + 1 }) else p }

end Sys2Proof.Spec

/-- Dropping weight at home: a drop that names no entry, a stale drop and one beyond the weight given count in the context that the home serves and change nothing in the home table; one that completes the weight frees the entry under the next generation, the handle that an indirection entry holds being dropped in turn and the finaliser of an object of this package queued with its record's bytes; any other adds its weight (R462, R466 to R468, R492; the fields that a dead entry keeps, and that the table of another package is reached through the values that firmware exchanged, are the model's reading, log 25 and 35). -/
def Obligations.DropAtHome : Prop :=
  (∀ (s : State) (m : HMsg) (gen : BitVec 8) (e n b : Nat), s.tableOf m.ctx (m.home / 4) = some (b, n) → m.idx = 0 ∨ n ≤ m.idx → s.dropAt m gen e = countedAt m 0x100 s) ∧
  ∀ (s : State) (m : HMsg) (gen : BitVec 8) (e n b : Nat) (k : HomeAt), s.tableOf m.ctx (m.home / 4) = some (b, n) → m.idx ≠ 0 → m.idx < n →
    s.homeAt m.ctx (m.home / 4) (m.home % 4) m.idx = some k →
    let x := s.home k
    ((x.live = false ∨ x.gen ≠ gen.toNat) → s.dropAt m gen e = countedAt m 0x100 s) ∧
    (x.live = true → x.gen = gen.toNat → 2 ^ x.tote < x.sum + 2 ^ e → s.dropAt m gen e = countedAt m 0x101 s) ∧
    (x.live = true → x.gen = gen.toNat → x.sum + 2 ^ e < 2 ^ x.tote → s.dropAt m gen e = s.setHome k { x with sum := x.sum + 2 ^ e }) ∧
    (x.live = true → x.gen = gen.toNat → x.sum + 2 ^ e = 2 ^ x.tote →
      let free (t : State) : State := t.setHome k ⟨0, x.tote, (x.gen + 1) % 256, false, false, false, x.depth, x.base, x.frec⟩
      (x.ind = false → x.fin = false → s.dropAt m gen e = free s) ∧
      (x.ind = true → let h : Handle := ⟨x.base, x.frec⟩
        s.dropAt m gen e = free { s with hc := s.hc ++ [(⟨192 + m.home, 4 * h.dev + h.die, m.ctx, h.idx, .drop (BitVec.ofNat 8 h.gen) h.e, none⟩ : HMsg)] }) ∧
      (x.ind = false → x.fin = true → m.home / 4 = s.pkg → ∀ bs, s.devRead m.ctx (x.frec.toNat % 2 ^ 56) 64 [0, 1] = some bs →
        s.dropAt m gen e = free (s.modCtx m.ctx fun c => { c with fins := c.fins ++ [⟨m.home % 4, m.idx, bs⟩] })))

/-! ## The command processor -/

namespace Sys2Proof.Spec

/-- A packet of a type stands whole at the head of a slot's queue, its slot has the turn, and SER lets it start (R376, R377, R380, R381). -/
def PacketAt (s : State) (slot ty : Nat) (q : SwQ) (b : Buf) (bs : List Byte) : Prop :=
  s.slotQ slot = some q ∧ s.qRuns q = true ∧ q.wait = none ∧ q.bufs.head? = some b ∧ b.packet? = some (some bs) ∧
    (∃ e, (b.fet.find? (·.idx == b.next)) = some e ∧ hdrType e.bytes = ty) ∧ ((isSerial (hdrType bs) = true ∨ hdrF bs 31 1 = 1) → q.alone = true) ∧
    (s.servable slot = true → s.myTurn slot = true)
/-- The `n` fetched entries from `i` on end on a packet boundary (R389). -/
def passes (b : Buf) : Nat → Nat → Nat → Bool
  | 0, _, n => n == 0
  | f + 1, i, n => n == 0 || (b.fet.find? (·.idx == i)).elim false fun e =>
      decide (entsOf (hdrType e.bytes) ≤ n) && passes b f (i + entsOf (hdrType e.bytes)) (n - entsOf (hdrType e.bytes))
/-- The state after the packet of a slot has been served: the next turn goes to the slots behind it (R376). -/
def served (slot : Nat) (t : State) : Host.Outcome State Fault Refusal := .next { t with turn := slot }
/-- An IB is under way: its buffer is the innermost, the packet stays in flight until the buffer ends, and the buffer that holds it stands behind it (R388). -/
def entersBuf (a n : Nat) (x : SwQ) : SwQ :=
  match x.bufs with
  | [] => x
  | b :: r => { x with given := x.given + 1, live := x.live ++ [⟨x.given + 1, b.next, if r = [] then 1 else 0, .ib (r.length + 2)⟩],
                       bufs := ⟨a, false, n, 0, [], none, none⟩ :: { b with next := b.next + 1 } :: r }
/-- A queue whose WAIT is in progress. -/
def WaitsAt (s : State) (q : SwQ) (w : WaitSt) (bs : List Byte) : Prop :=
  s.qRuns q = true ∧ q.wait = some w ∧ ∃ b e, q.bufs.head? = some b ∧ (b.fet.find? (·.idx == b.next)) = some e ∧ bs = e.bytes
/-- The three launches as instructions: slot, type and kind. -/
def launchInstr : GKind → Nat → Instr
  | .index => .launch
  | .page => .launchPages
  | .range => .range
def launchType : GKind → Nat
  | .index => 1
  | .page => 2
  | .range => 3

end Sys2Proof.Spec

/-- Queues complete their events: a notify sets the write index and the queue waits for a slot, a restart clears HALTED, a free slot is given in order, an entry with the ring's tag is kept and one without is read again, retired packets free their entries, a status is written to its completion queue, a timer raises the vector (R376 to R379, R381, R396, R397, R400, R401; unusable table entries are the model's reading, log 39). -/
def Obligations.QueueEventsComplete : Prop :=
  (∀ (s : State) (ctx q idx : Nat) (e : List Byte), q < 4096 → s.cpUp = true → s.ctxOk ctx = true → s.read01 ctx (s.qtabAt ctx q) 32 = some e →
    fieldAt e 0xE 1 % 2 = 1 →
    (s.queue? ctx q = none → pow2In 16 65536 (fieldAt e 8 4) = true → fieldAt e 0 7 % 64 = 0 →
      ∃ t, exec (.queueNotify ctx q idx) s = .next t ∧ (ctx, 8 * q, BitVec.ofNat 64 idx) ∈ t.notifyPg ∧ t.queue? ctx q = some { SwQ.ofEntry ctx q e with widx := idx, halted := (fieldAt e 0xE 1 / 2) % 2 = 1 } ∧
        (ctx, q) ∈ t.slotWait ∧ t.mem = s.mem) ∧
    (∀ x, s.queue? ctx q = some x → (x.stale = true → qentOk e = true) → ∃ t, exec (.queueNotify ctx q idx) s = .next t ∧ (t.queue? ctx q).map (·.widx) = some idx ∧ t.mem = s.mem) ∧
    (∀ x, s.queue? ctx q = some x → x.halted = true →
      exec (.queueRestart ctx q idx) s = .next (((s.notePage ctx (8 * q) idx).devWrite ctx (s.qtabAt ctx q + 0xE) (leBytes 1 (fieldAt e 0xE 1 &&& 0xFD))).notify ctx q idx))) ∧
  (∀ (s : State) (ctx q k : Nat) (r : List (Nat × Nat)), s.cpUp = true → s.slotWait = (ctx, q) :: r → freeHwSlot s = some k →
    exec .queueSlotAssign s = .next (({ s with slotWait := r } : State).modQ ctx q fun x =>
      let x := { x with slot := some k }
      if x.wait.elim false (·.held) then ({ x with wait := none } : SwQ).dispatch 1 .done else if x.idle then { x with slot := none } else x)) ∧
  (∀ (s : State) (slot i : Nat) (q : SwQ) (b : Buf) (bs : List Byte), s.slotQ slot = some q → s.qRuns q = true → fetchOf s q = some (b, i, some bs) →
    ((b.ring = false ∨ fieldAt bs 0 2 = tagOf b.nent i) → q.missNow = 0 → exec (.packetFetch slot) s = .next ((s.modQ q.ctx q.q (·.keep b i bs)).skipOn q.ctx q.q)) ∧
    (b.ring = true → fieldAt bs 0 2 ≠ tagOf b.nent i → q.missNow = 0 → exec (.packetFetch slot) s = .next (s.modQ q.ctx q.q fun x => { x with miss := 1 })) ∧
    (fieldAt bs 0 2 = tagOf b.nent i → q.missNow ≠ 0 → exec (.tagRefetch slot) s = .next ((s.modQ q.ctx q.q (·.keep b i bs)).skipOn q.ctx q.q)) ∧
    (fieldAt bs 0 2 ≠ tagOf b.nent i → q.missNow ≠ 0 → q.miss + 1 < 65536 →
      exec (.tagRefetch slot) s = .next (s.modQ q.ctx q.q fun x => { x with miss := q.miss + 1, tagStall := x.tagStall || false }))) ∧
  (∀ (s : State) (ctx q : Nat) (x : SwQ) (l : Live) (r : List Live), s.cpUp = true → s.queue? ctx q = some x → x.live = l :: r → l.w = .done → (∀ y ∈ r, y.w = .cq ∨ ∃ d, y.w = .ib d ∨ y.w = .loop d) →
    l.ents ≠ 0 → l.idx = x.ridx → exec (.packetRetire ctx q) s = .next ((s.modQ ctx q fun x => { x with live := r, ridx := x.ridx + l.ents }).devWrite ctx (s.qtabAt ctx q + 0x10) (leBytes 8 (x.ridx + l.ents)))) ∧
  (∀ (s : State) (ctx q g : Nat) (x : SwQ) (l : Live), s.cpUp = true → s.queue? ctx q = some x → x.live = [l] → l.w = .grid g → s.gridOver g = true → l.ents ≠ 0 → l.idx = x.ridx →
    exec (.packetRetire ctx q) s = .next (((s.dropGrid g).modQ ctx q fun x => { x with live := [], ridx := x.ridx + l.ents }).devWrite ctx
      (((s.dropGrid g).modQ ctx q fun x => { x with live := [], ridx := x.ridx + l.ents }).qtabAt ctx q + 0x10) (leBytes 8 (x.ridx + l.ents)))) ∧
  (∀ (s : State) (ctx n : Nat) (t : CqTab), s.cpUp = true → s.cqTab ctx n = some t →
    let c := s.cq ctx n
    (∀ e, (s.cqPend.find? fun e => e.ctx == ctx && e.cq == n) = some e → e.counted ≠ 1 → e.live = none → c.wr - c.rd < t.ne →
      let u := s.devWrite ctx (t.base + 16 * (c.wr % t.ne)) (e.bytes (c.wr / t.ne % 2 == 0))
      let full := decide (t.thr ≤ c.cnt + 1)
      let u := u.setCq { c with wr := c.wr + 1, cnt := if full then 0 else c.cnt + 1 }
      let u := if full then u.interrupt t.vec else u
      exec (.completionQueueWrite ctx n) s = .next { u with cqPend := u.cqPend.erase e }) ∧
    (1 ≤ t.timer → 1 ≤ c.cnt → exec (.cqTimerExpiry ctx n) s = .next ((s.setCq { c with cnt := 0 }).interrupt t.vec)))

/-- Control packets complete: NOP, IB, PRED, LOOP, WAIT with its polls, parking and stall, SIGNAL, FETCH_FENCE and COMPLETE have their effects, and the queue goes on past them (R381, R387 to R395; the parking and stall limits, that a failed PRED retires when its compare is made and its skip goes on from there, and that a FETCH_FENCE stays until what it has discarded of every buffer is fetched again, are the model's reading, log 40, 67 and 61). -/
def Obligations.ControlPacketsComplete : Prop :=
  (∀ (s : State) (slot : Nat) (q : SwQ) (b : Buf) (bs : List Byte),
    (PacketAt s slot 0 q b bs → hdrType bs = 0 → exec (.nopPacket slot) s = served slot (s.dispatch q 1 .done)) ∧
    (PacketAt s slot 7 q b bs →
      (s.compare q.ctx bs = some true → exec (.pred slot) s = served slot (s.dispatch q 1 .done)) ∧
      (s.compare q.ctx bs = some false → let n := hdrF bs 40 8
        (b.ring = true ∨ b.next + 1 + n ≤ b.nent → exec (.pred slot) s = served slot ((s.modQ q.ctx q.q fun x =>
          x.recount ((x.setBuf fun y => { y with skip := if n = 0 then none else some (b.next, n) }).dispatch 1 .done)).skipOn q.ctx q.q)) ∧
        (b.ring = true → q.bufs = [b] → (∀ y ∈ s.queues, y.ctx = q.ctx → y.q = q.q → y = q) →
          let leaves (next : Nat) (halted : Bool) : Prop := ∃ t, exec (.pred slot) s = .next t ∧
            (t.queue? q.ctx q.q).map (fun y => (y.bufs.map fun x => (x.next, x.skip), y.halted)) = some ([(next, none)], halted)
          (passes b 256 (b.next + 1) n = true → leaves (b.next + 1 + n) q.halted) ∧
          ((∀ i < n, ∃ e ∈ b.fet, e.idx = b.next + 1 + i) → passes b 256 (b.next + 1) n = false → leaves b.next true)))) ∧
    (PacketAt s slot 8 q b bs → let n := hdrF bs 32 8
      let depth := q.bufs.length
      (b.loop = none → b.ring = false → hdrF bs 48 16 ≠ 0 → 1 ≤ n → n ≤ 32 → n ≤ b.next → b.bodyOk 33 (b.next - n) n = true →
        exec (.loop slot) s = served slot (s.modQ q.ctx q.q fun x =>
          ({ x with given := x.given + 1, live := x.live ++ [(⟨x.given + 1, b.next, 0, .loop depth⟩ : Live)] } : SwQ).setBuf fun b =>
            { b with loop := some (hdrF bs 48 16 - 1, b.next + 1), next := b.next - n })) ∧
      (∀ k a, b.loop = some (k + 1, a) → exec (.loop slot) s = served slot (s.modQ q.ctx q.q (·.setBuf fun b => { b with loop := some (k, a), next := b.next - n }))) ∧
      (∀ a, b.loop = some (0, a) → exec (.loop slot) s = served slot (s.modQ q.ctx q.q fun x =>
        (({ x with live := x.live.map fun l => if l.w = .loop depth then { l with w := .done } else l } : SwQ).setBuf fun b => { b with loop := none }).past 1))) ∧
    (PacketAt s slot 6 q b bs → let n := hdrF bs 32 17
      let a := fieldAt bs 8 7
      1 ≤ n → n ≤ 65536 → a % 64 = 0 → (s.read01 q.ctx a 64).isSome = true → q.bufs.length ≠ 5 →
      exec (.ib slot) s = served slot (s.modQ q.ctx q.q (entersBuf a n))) ∧
    (PacketAt s slot 6 q b bs → q.bufs.length = 5 → 1 ≤ hdrF bs 32 17 → hdrF bs 32 17 ≤ 65536 → fieldAt bs 8 7 % 64 = 0 → (s.read01 q.ctx (fieldAt bs 8 7) 64).isSome = true →
      exec (.ib slot) s = served slot (s.haltQ q 0x0B)) ∧
    (PacketAt s slot 9 q b bs →
      (s.compare q.ctx bs = some true → exec (.wait slot) s = served slot (s.dispatch q 1 .done)) ∧
      (s.compare q.ctx bs = some false → let park := decide ((s.ctxD q.ctx).rcd.srd = 0)
        exec (.wait slot) s = served slot (s.modQ q.ctx q.q fun x => { x with wait := some ⟨0, false, park, false⟩, slot := if park then none else x.slot }))) ∧
    (∀ w, PacketAt s slot 0xA q b bs → s.ctlWord q.ctx (fieldAt bs 8 7) = some w → hdrF bs 32 2 ≠ 3 → let op := hdrF bs 32 2
      let v := fieldAt bs 0x10 8
      exec (.signal slot) s = served slot ((s.devWrite q.ctx (fieldAt bs 8 7) (leBytes 8 (if op = 0 then v else if op = 1 then (w + v) % 2 ^ 64 else (w + 2 ^ 64 - v) % 2 ^ 64))).dispatch q 1 .done)) ∧
    (PacketAt s slot 0xB q b bs → exec (.fetchFence slot) s = served slot (s.modQ q.ctx q.q fun x =>
      let first (y : Buf × Nat) : Nat := if y.2 = 0 then y.1.next + 1 else y.1.next
      let left := x.bufs.zipIdx.flatMap fun y => (y.1.fet.filter fun f => decide (first y ≤ f.idx)).map fun f => (x.bufs.length - y.2, f.idx)
      x.recount (({ x with bufs := x.bufs.zipIdx.map fun y => { y.1 with fet := y.1.fet.filter fun f => decide (f.idx < first y) } } : SwQ).dispatch 1 (.fence left)))) ∧
    (PacketAt s slot 0xC q b bs → fieldAt bs 0x18 2 < (s.ctxD q.ctx).rcd.ncq.toNat →
      (hdrF bs 32 2 = 0 → exec (.complete slot) s = served slot { s.dispatch q 1 .cq with
        cqPend := s.cqPend ++ [(⟨.queue, q.ctx, fieldAt bs 0x18 2, BitVec.ofNat 64 (fieldAt bs 0x10 8), q.q, 0, 0, 0, some (q.q, q.given + 1), 0⟩ : CqEnt)] }) ∧
      (∀ w, hdrF bs 32 2 = 1 → hdrF bs 34 1 = 0 → s.ctlWord q.ctx (fieldAt bs 8 7) = some w →
        exec (.complete slot) s = served slot ((s.devWrite q.ctx (fieldAt bs 8 7) (leBytes 8 ((w + 2 ^ 64 - 1) % 2 ^ 64))).dispatch q 1 .done)))) ∧
  (∀ (s : State) (slot : Nat) (q : SwQ) (w : WaitSt) (bs : List Byte), WaitsAt s q w bs →
    (s.slotQ slot = some q →
      (w.cycles + 256 ≤ (s.ctxD q.ctx).rcd.srd.toNat → s.compare q.ctx bs = some true → exec (.waitPoll slot) s = .next (s.modQ q.ctx q.q fun x => ({ x with wait := none } : SwQ).dispatch 1 .done)) ∧
      (w.cycles + 256 ≤ (s.ctxD q.ctx).rcd.srd.toNat → s.compare q.ctx bs = some false →
        exec (.waitPoll slot) s = .next (s.modQ q.ctx q.q fun x => { x with wait := some { w with cycles := w.cycles + 256 } })) ∧
      ((s.ctxD q.ctx).rcd.srd.toNat < w.cycles + 256 →
        exec (.waitPark slot) s = .next (s.modQ q.ctx q.q fun x => { x with slot := none, wait := some { w with parked := true } }))) ∧
    (∀ ctx n, s.queue? ctx n = some q →
      (w.parked = true → w.held = false →
        (s.compare ctx bs = some true → exec (.parkedWaitPoll ctx n) s = .next ((s.modQ ctx n fun x => { x with wait := some { w with held := true } }).wantSlot ctx n)) ∧
        (s.compare ctx bs = some false → exec (.parkedWaitPoll ctx n) s = .next (s.modQ ctx n fun x => { x with wait := some { w with cycles := w.cycles + 4096 } }))) ∧
      (w.stall = false → w.held = false → 1 ≤ (s.ctxD ctx).rcd.wlim.toNat → (s.ctxD ctx).rcd.wlim.toNat < w.cycles + (if w.parked then 4096 else 256) →
        exec (.waitStall ctx n) s = .next ((s.modQ ctx n fun x => { x with wait := some { w with stall := true } }).postStatus q 0x0C ((q.bufs.head?.map (·.next)).getD 0)))))

/-- Launches, SAVE and RESUME complete: a launch whose checks pass starts its grid (where a pre-emption is owed, frozen once its context has stopped), one that fails a check retires with its status; a SAVE stops its context and then freezes it with its image written, and where the last block of a launch packet retires it is owed; a RESUME restores a saved context: its groups that stopped are ready, the accumulators of its cores hold the image's bytes; frozen or restored, no register changes, and no block of another context (R382 to R386, R404, R405, R428, R430; the checks' details, the image's open layout, how an owed pre-emption takes effect, ageing and bench delay by context, and a RANGE that waits for a free task record are the model's reading, log 34, 41, 42, 70, 62 and 75). -/
def Obligations.LaunchSaveResumeComplete : Prop :=
  (∀ (s : State) (ctx via image : Nat) (g : Grid), let t := s.freeze ctx via image g
    (t.ctxD ctx).saved = .saved image ∧ t.grids = s.grids ∧ t.queues = s.queues ∧ (∀ u l r, reg? t u l r = reg? s u l r) ∧
      ∀ n b, s.blk? n = some b → (∀ x ∈ s.blocks, x.ctx = ctx → x.uid ≠ n) → t.blk? n = some b) ∧
  (∀ (s : State) (via a : Nat) (m : Image), memCanonical s → let t := s.restore via a m
    (t.ctxD m.ctx).saved = .no ∧ (t.ctxD m.ctx).halted = none ∧ t.grids = s.grids ∧ t.queues = s.queues ∧ (∀ u l r, reg? t u l r = reg? s u l r) ∧
      (∀ n b, s.blk? n = some b → (∀ x ∈ s.blocks, x.ctx = m.ctx → x.uid ≠ n) → t.blk? n = some b) ∧
      (∀ n gi b g, s.blk? n = some b → b.ctx = m.ctx → b.groups[gi]? = some g → g.stat = .stopped → (t.grp? (.group n gi)).map (·.stat) = some .ready) ∧
      ∀ c ∈ m.coreList, (m.coreList.filter fun x => 48 * x.1 + x.2.1 == 48 * c.1 + c.2.1) = [c] → ∀ i y, i < 2 ^ 23 → m.bytes[c.2.2 + i]? = some y →
        memGet t.mem (kAcc (48 * c.1 + c.2.1) 0 0 + i) = y) ∧
  (∀ (s : State) (slot : Nat) (q : SwQ) (b : Buf) (bs : List Byte) (kind : GKind), PacketAt s slot (launchType kind) q b bs →
    let r := s.launchOf q.ctx s.nextUid (reqOf kind bs) (some (q.q, q.given + 1))
    let start (g : Grid) : State := ((s.startGrid g).setAge q.ctx (reqOf kind bs)).dispatch q 2 (.grid g.id)
    (∀ g, r = .ok g → (kind = .range → s.tableRoom q.ctx = true) →
      ((s.ctxD q.ctx).preempt = none → exec (launchInstr kind slot) s = served slot (start g)) ∧
      (∀ p, (s.ctxD q.ctx).preempt = some p →
        ((s.ctxD q.ctx).saved = .no → exec (launchInstr kind slot) s = served slot (s.modCtx q.ctx fun c => { c with saved := .stopping })) ∧
        ((s.ctxD q.ctx).saved = .stopping → s.ctxQuiet q.ctx = true → exec (launchInstr kind slot) s = .next ((start g).preemptNow q.ctx g)))) ∧
    (s.judged q bs = true → (∀ st, r = .error st → st ≠ 1 → exec (launchInstr kind slot) s = served slot ((s.postStatus q st b.next).dispatch q 2 .done)) ∧
    (r = .error 1 → exec (launchInstr kind slot) s = served slot (s.haltQ q 1)))) ∧
  (∀ (s : State) (slot : Nat) (q : SwQ) (b : Buf) (bs : List Byte) (g : Grid), PacketAt s slot 5 q b bs →
    let a := fieldAt bs 8 7
    let ctx := fieldAt bs 0x18 2
    let nothing := (s.grids.find? fun g => g.ctx == ctx && !s.gridDone g) = none
    a % 4096 = 0 → ctx < 4096 →
    (nothing → (s.ctxD ctx).saved = .no → exec (.save slot) s = served slot ((s.postStatus q 0x0F b.next).dispatch q 1 .done)) ∧
    let owes : State := (((s.modCtx ctx fun c => { c with saved := .no }).modCtx ctx fun c => { c with preempt := some ⟨q.ctx, q.q, b.next, a, fieldAt bs 0x10 8⟩ }).postStatus q 0x0F b.next).dispatch q 1 .done
    (nothing → (s.ctxD ctx).saved = .stopping → exec (.save slot) s = .next owes) ∧
    ((s.grids.find? fun g => g.ctx == ctx && !s.gridDone g) = some g →
      ((s.ctxD ctx).saved = .no → (s.grids.any fun g => g.ctx == ctx && s.retires g) = false → exec (.save slot) s = served slot (s.modCtx ctx fun c => { c with saved := .stopping })) ∧
      ((s.ctxD ctx).saved = .no → (s.grids.any fun g => g.ctx == ctx && s.retires g) = true → exec (.save slot) s = served slot owes) ∧
      (∀ im, (s.ctxD ctx).saved = .saved im → exec (.save slot) s = served slot ((s.postStatus q 0x0F b.next).dispatch q 1 .done)) ∧
      ((s.ctxD ctx).saved = .stopping → s.ctxQuiet ctx = true → let len := (imageMap g (s.ctxBlocks ctx) s.hmsgs).len
        len ≤ fieldAt bs 0x10 8 → (s.read01 q.ctx a len).isSome = true → exec (.save slot) s = .next ((s.freeze ctx q.ctx a g).dispatch q 1 .done)))) ∧
  (∀ (s : State) (slot : Nat) (q : SwQ) (b : Buf) (bs : List Byte), PacketAt s slot 4 q b bs → fieldAt bs 8 7 % 8 = 0 →
    (∀ m, s.readImage q.ctx (fieldAt bs 8 7) = some m → m.ok s = true →
      exec (.resume slot) s = served slot ((s.restore q.ctx (fieldAt bs 8 7) m).dispatch q 1 (.grid ((s.grids.find? fun g => g.ctx == m.ctx && !s.gridDone g).elim 0 (·.id))))) ∧
    (s.readImage q.ctx (fieldAt bs 8 7) = none → exec (.resume slot) s = served slot ((s.postStatus q 0x12 b.next).dispatch q 1 .done)))

/-! ## Faults, halts, the host and housekeeping -/

namespace Sys2Proof.Spec

/-- An answer that a context's fault record awaits (R419). -/
def AnswerAt (s : State) (ctx idx : Nat) (a : Answer) : Prop :=
  s.hostOk = true ∧ ((s.ctxD ctx).answers.find? (·.1 == idx)).map (·.2) = some a ∧ ∀ im, (s.ctxD ctx).saved ≠ .saved im
/-- The answer is no longer awaited, and the fault-answer word reads as it was written (R419, R491). -/
def answered (ctx idx : Nat) (abandon : Bool) (s : State) : State := (s.noteAnswer ctx idx abandon).modCtx ctx fun c => { c with answers := c.answers.filter (·.1 != idx) }
/-- The 16 bytes of a lane's reply in a ring entry's place (R433). -/
def replyOf (s : State) (ctx slot l : Nat) : List Byte := (s.read01 ctx ((s.ctxD ctx).rcd.svcr.toNat % 2 ^ 56 + 2048 * slot + 0x240 + 16 * l) 16).getD (zerosB 16)
/-- The doorbell is noted and the service call's entry is free. -/
def replied (ctx idx : Nat) (r : SvcReq) (s : State) : State := (s.notePage ctx 0x8808 idx).modCtx ctx fun c => { c with svcs := c.svcs.filter (· != r) }
/-- Each lane's reply in a frame: Q16N is 4 and Q16 the reply (R424, R433). -/
def framesReply (via frame ctx : Nat) (r : SvcReq) (s t : State) : State :=
  (lanesOf r.mask).foldl (fun t l => (t.devWrite via (frame + 0x80 + 128 * l + 0x53) (leBytes 1 4)).devWrite via (frame + 0x80 + 128 * l + 0x70) (replyOf s ctx r.slot l)) t
/-- Each lane's reply in its port 16. -/
def loadsReply (ctx : Nat) (r : SvcReq) (s t : State) : State :=
  (lanesOf r.mask).foldl (fun t l => t.modThread (.group r.blk r.g) l fun x =>
    { x with q16 := (List.range 4).map fun i => ⟨BitVec.ofNat 32 (fieldAt (replyOf s ctx r.slot l) (4 * i) 4), false⟩ }) t
/-- The halt line of a partition. -/
def HaltAt (s : State) (part : Nat) (h : Halt) : Prop := (s.partD part).halt = some h
/-- Heartbeats lie as they do: the window of a core begins anew. -/
def newWindow (core n : Nat) (s : State) : State := s.modCore core fun c => { c with beat := false, missed := n }

end Sys2Proof.Spec

/-- The fault queue, answers, service replies and debug commands complete: a record is written with its last word last and its vector raised; an answer resumes or abandons what its record named; each lane's reply is loaded into its port 16, in the frame of a group that is benched or evicted, in the thread of one that holds its slot (and in its image frame where its context is saved), the entry is free, and the group may return or is ready (R397, R401, R418, R419, R424, R433, R435, R436, R450; a SVCREPLY whose reply cannot be read loads zeros, and the layout of the answer and debug words, is the model's, log 27 and 36). -/
def Obligations.FaultQueueAndAnswersComplete : Prop :=
  (∀ (s : State) (ctx idx : Nat),
    (∀ cq, cq < 256 → ∃ t, exec (.cqread ctx cq idx) s = .next t ∧ t.cq ctx cq = { s.cq ctx cq with rd := idx } ∧ t.mem = s.mem) ∧
    (∃ t, exec (.fqread ctx idx) s = .next t ∧ (t.ctxD ctx).fqr = idx ∧ t.mem = s.mem) ∧
    (∀ r a rest, (s.ctxD ctx).pendF = (r, a) :: rest → 1 ≤ (s.ctxD ctx).rcd.fqn.toNat → (s.ctxD ctx).fqw - (s.ctxD ctx).fqr < (s.ctxD ctx).rcd.fqn.toNat →
      let c := s.ctxD ctx
      let n := c.rcd.fqn.toNat
      let bs := r.bytes (c.fqw / n % 2 == 0)
      let at_ := c.rcd.fq.toNat % 2 ^ 56 + 64 * (c.fqw % n)
      exec (.faultRecordPost ctx) s = .next ((((s.devWrite ctx at_ (bs.take 56)).devWrite ctx (at_ + 56) (bs.drop 56)).bump ctx 6 1).interrupt (c.rcd.fqvec.toNat % 2048)
        |>.modCtx ctx fun x => { x with fqw := c.fqw + 1, pendF := rest, answers := if a = .none then x.answers else x.answers ++ [(c.fqw, a)] })) ∧
    (∀ a, AnswerAt s ctx idx a →
      (∀ blk g va, a = .grp blk g → s.ustat? (.group blk g) = some (.benched 1 va) →
        exec (.faultAnswerResume ctx idx) s = .next { answered ctx idx false s with returns := (answered ctx idx false s).returns ++ [(blk, g)] }) ∧
      (∀ blk g, a = .grp blk g → s.ustat? (.group blk g) = some (.held 1) →
        exec (.faultAnswerResume ctx idx) s = .next ((answered ctx idx false s).modGrp (.group blk g) fun g => { g with stat := .ready, pendRe := g.splitMask })) ∧
      (∀ blk, a = .front blk → s.ustat? (.front blk) = some (.held 1) →
        exec (.faultAnswerResume ctx idx) s = .next ((answered ctx idx false s).modGrp (.front blk) fun g => if g.stat = .held 1 then { g with stat := .ready, pendRe := g.splitMask } else g)) ∧
      (∀ blk, a = .move blk → exec (.faultAnswerResume ctx idx) s = .next ((answered ctx idx false s).modMove blk .none) ∧
        exec (.faultAnswerAbandon ctx idx) s = .next ((answered ctx idx true s).modMove blk .abandon)) ∧
      (∀ blk e no, a = .eop blk e no → exec (.faultAnswerResume ctx idx) s = .next (setFault blk e no .none (answered ctx idx false s))) ∧
      (∀ blk g, a = .grp blk g → exec (.faultAnswerAbandon ctx idx) s = .next ((answered ctx idx true s).haltUnit (.group blk g))) ∧
      (∀ blk, a = .front blk → exec (.faultAnswerAbandon ctx idx) s = .next ((answered ctx idx true s).haltUnit (.front blk))) ∧
      (∀ blk no, a = .eop blk .attention no → (s.blk? blk).isSome = true →
        exec (.faultAnswerAbandon ctx idx) s = .next (setFault blk .attention no .abandon (answered ctx idx true s))) ∧
      (∀ blk k no b o, a = .eop blk (.copy k) no → s.blk? blk = some b → ((b.copies[k]?).bind fun c => c.ops.find? (·.no == no)) = some o →
        exec (.faultAnswerAbandon ctx idx) s = .next ((answered ctx idx true s).abandonCopy b k o))) ∧
    (∀ r : SvcReq, ((s.ctxD ctx).svcs.find? (·.slot == idx)) = some r →
      let u : UnitRef := .group r.blk r.g
      let via := (s.ctxD ctx).via
      let s1 := replied ctx idx r s
      (∀ cause va, s.ustat? u = some (.benched cause va) → cause ≠ 0 →
        exec (.svcreply ctx idx) s = .next { framesReply ctx va.toNat ctx r s s1 with returns := (framesReply ctx va.toNat ctx r s s1).returns ++ [(r.blk, r.g)] }) ∧
      (∀ va, s.ustat? u = some (.benched 0 va) → exec (.svcreply ctx idx) s = .next ((framesReply via va.toNat ctx r s s1).settle ctx u)) ∧
      (s.ustat? u = some (.held 2) →
        let s2 := (s.frozen ctx).elim s1 fun im => framesReply via (s1.imageGrp ctx im r.blk r.g) ctx r s s1
        exec (.svcreply ctx idx) s = .next ((loadsReply ctx r s s2).modGrp u fun g => { g with stat := .ready }))) ∧
    (∀ addrs : List VAddr, s.hostOk = true → addrs.length ≤ 4 → exec (.breakpointSet ctx addrs) s = .next (s.modCtx ctx fun c => { c with bps := addrs }))) ∧
  (∀ (s : State) (u : UnitRef), s.hostOk = true →
    (∀ va, s.ustat? u = some (.benched 4 va) → (u.blk, u.grpNo) ∉ s.returns → exec (.debugResume u) s = .next { s with dbgResumeW := u.word, returns := s.returns ++ [(u.blk, u.grpNo)] }) ∧
    (s.ustat? u = some (.held 4) → exec (.debugResume u) s = .next (({ s with dbgResumeW := u.word } : State).modGrp u fun g =>
      { g with stat := if u.isFront then .ready else (s.blk? u.blk).elim .ready fun b => s.reached b u.grpNo })))

namespace Sys2Proof.Spec

/-- The stop records of a context of the partition, in order of stopping: the faulting units' and the units' and engine contexts' of its blocks on cores, the front-end threads and groups as they stand, by their place, unit and number (R402, R415, R446). -/
def stopsOf (h : Halt) (bs : List Block) (c : Nat) : List FRec :=
  let raised := h.recs.filter (·.ctx == c)
  let key (x : Nat × FRec) : Nat := (x.1 * 2 ^ 16 + x.2.unit) * 2 ^ 32 + x.2.wher
  (sortBy (fun a b => decide (key a ≤ key b)) (raised.map (fun r => (r.place, r.rcd)) ++ (bs.filter (·.ctx == c)).flatMap (·.stopRecs h.late (raised.map (·.who))))).map (·.2)
/-- The lowest code of a context's faults (R416). -/
def lowestCode (h : Halt) (c : Nat) : Nat := ((h.faults.filter (·.1 == c)).map (·.2)).foldl min 0xFF

end Sys2Proof.Spec

/-- The halt sequence completes: once no group is inside a clause every unit has stopped, and the stop records of each context of the partition are set out in order, cut to its stop area with a count of what is left out; they are written one by one; then each faulting context that is not halted yet is halted with the lowest of its codes, every queue of it told, and the halt line falls (R402, R415, R416; the order of later stops is the model's step order, log 43). A fault raised after the units have stopped has the records listed again; the halt line falls once the entries of the management core are written (R397). -/
def Obligations.HaltSequenceCompletes : Prop :=
  ∀ (s : State) (part : Nat) (h : Halt), HaltAt s part h → part < s.parts.length →
    (let bs := s.blocks.filter fun b => (s.partCtxs part).contains b.ctx && b.onCore
     s.mgmtUp = true → h.stopped = false ∨ h.again = true → (∀ b ∈ bs, ∀ g ∈ b.groups, g.runs = 0 ∧ g.isLeaving = false) →
      exec (.haltSequence part) s = .next ((bs.foldl (fun s b => s.endRun (.front b.uid)) s).modPart part fun p => { p with halt := some { h with
        stopped := true, again := false, told := false
        todo := (s.partCtxs part).flatMap fun c => (placeStops (s.ctxD c).rcd.stopn.toNat (stopsOf h bs c)).map fun x => (c, x.1, x.2) } })) ∧
    (∀ (n : Nat) (rs : List FRec), (placeStops n rs).length = min n (rs.length + if 1 ≤ n ∧ n ≤ rs.length then 1 else 0) ∧
      ∀ i r, i + 1 < n → rs[i]? = some r → (placeStops n rs)[i]? = some (i, r)) ∧
    (∀ c i r rest, h.stopped = true → h.again = false → h.todo = (c, i, r) :: rest →
      exec (.stopRecordWrite part) s = .next ((s.devWrite c ((s.ctxD c).rcd.stopa.toNat % 2 ^ 56 + 64 * i) (r.bytes false)).modPart part fun p =>
        { p with halt := some { h with todo := rest } })) ∧
    (s.mgmtUp = true → h.stopped = true → h.again = false → h.todo = [] →
      let cs := (h.faults.map (·.1)).eraseDups
      let open_ (t : State) : Bool := t.cqPend.any fun e => e.writer == .mgmt && cs.contains e.ctx
      (h.told = false → let t := (cs.filter fun c => (s.ctxD c).halted.isNone).foldl (fun s c => s.haltCtx c (lowestCode h c)) s
        exec (.contextHalted part) s = .next (t.modPart part fun p => { p with halt := if open_ t then some { h with told := true } else none }) ∧ t.mem = s.mem ∧
        ∀ c ∈ cs, (t.ctxD c).halted = if (s.ctxD c).halted.isNone then some (lowestCode h c) else (s.ctxD c).halted) ∧
      (h.told = true → open_ s = false → exec (.contextHalted part) s = .next (s.modPart part fun p => { p with halt := none })))

/-- The host's commands complete: an invalidate falls once the accesses made through the translations are done and drops them, flash is written page by page and DONE set after the last, which lets a held life-cycle request be served, a report and a life-cycle move are served, a context is destroyed, registers and the window to HBM are written, a reset wipes the package and releases the processors that verify (R238, R398, R421, R459, R483, R488, R491 to R497; the report's measurements are free values, log 9; the reach of a reset, flash pages modulo 2^29 and the bound of BAR4's base, the words of the invalidate register, the names of counters and the rebuilt parity are the model's choice, log 44, 45, 58, 64, 36 and 66). -/
def Obligations.HostCommandsComplete : Prop :=
  (∀ (s : State) (ctx pages : Nat) (base : VAddr), s.hostOk = true →
    (s.invBusy = none → exec (.translationInvalidate ctx base pages) s = .next
      { s with invReg := [BitVec.ofNat 64 ctx, base.setWidth 64, BitVec.ofNat 64 pages, 0], invBusy := some (ctx, base, pages) }) ∧
    (s.invBusy.isSome = true → exec (.translationInvalidate ctx base pages) s = .next { s with invOvr := true })) ∧
  (∀ (s : State) (ctx pages : Nat) (base : VAddr), s.invBusy = some (ctx, base, pages) → s.accessesOpen ctx = false →
    ∃ t, exec .invalidateComplete s = .next t ∧ t.invBusy = none ∧ t.mem = s.mem ∧
      ∀ c ∈ t.cores, ∀ e ∈ c.tlb ++ c.ahead, e.ctx = ctx → pages ≠ 0 ∧ ¬ (base.toNat / 2 ^ 16 ≤ e.vpage ∧ e.vpage < base.toNat / 2 ^ 16 + pages)) ∧
  (∀ (s : State) (host : Bool) (src page n : Nat),
    (s.hostOk = true → s.flashW = none → exec (.flashWriteRequest host src page n) s = .next { s with flashW := some ⟨host, src, page, n⟩, flashDone := false, flashBox := [BitVec.ofNat 64 src, BitVec.ofNat 64 page, BitVec.ofNat 64 n, if host then 1 else 0] }) ∧
    (s.mgmtUp = true → s.pgUp = true → s.flashW = some ⟨host, src, page, n + 1⟩ →
      let ps := if host then [(kHost src, 16384)] else hbmPieces s.pkg src 16384
      let t := (s.wrPsn (kFlash (16384 * (page % 2 ^ 29))) (ps.flatMap fun p => s.rd p.1 p.2) (ps.flatMap fun p => s.rdPsn p.1 p.2)).rebuildParity (page % 2 ^ 29)
      (1 ≤ n → exec .flashWriteDone s = .next { t with flashW := some ⟨host, src + 16384, page + 1, n⟩ }) ∧
      (n = 0 → exec .flashWriteDone s = .next ({ t with flashW := none, flashDone := true }.serveLife))) ∧
    (s.mgmtUp = true → s.pgUp = true → s.flashW = some ⟨host, src, page, 0⟩ → exec .flashWriteDone s = .next ({ s with flashW := none, flashDone := true }.serveLife)) ∧
    (src + 16384 ≤ hbmBytes → (hbmPieces s.pkg src 16384).flatMap (fun p => s.rd p.1 p.2) = s.rd (kHbm s.pkg src) 16384)) ∧
  (∀ (s : State) (nonce : List Byte), nonce.length = 64 → s.measures.flatten.length = 256 →
    ∃ t, exec (.attestationRequest nonce) s = .next t ∧ t.attReport.take 64 = nonce ∧ (t.attReport.drop 64).take 256 = s.measures.flatten ∧ t.attReport.length = 64 + 256 + 4 + 32 + 4627 ∧ { t with attReport := s.attReport } = s) ∧
  (∀ (s : State) (tgt : Nat), lifeOk s.lifeCycle tgt = true → s.ctxsRun = false → s.flashW = none →
    ∃ t, exec (.lifecycleRequest tgt) s = .next t ∧ t.lifeCycle = tgt ∧ ∀ k, survives s.pkg false k = false → memGet t.mem k = 0#8) ∧
  (∀ (s : State) (ctx : Nat), s.hostOk = true → (s.ctxD ctx).halted.isSome = true → exec (.contextDestroy ctx) s = .next ((s.dropCtx ctx).serveLife)) ∧
  (∀ (s : State) (v : DWord), s.hostOk = true →
    (∀ c o, c < 4096 → exec (.registerWrite (.ctxWord c o) v) s = .next (s.modCtx c fun x => { x with rcd := x.rcd.write o v })) ∧
    (∀ p, s.maskOk p (v.setWidth 8) = true → exec (.registerWrite (.partMask p) v) s = .next (s.modPart p fun x => { x with mask := v.setWidth 8 })) ∧
    (∀ p, exec (.registerWrite (.faultCtl p) v) s = .next (s.modPart p fun x => { x with fcw := v.setWidth 32 &&& 0x00FFFF07 })) ∧
    (v.toNat + 2 ^ 36 ≤ hbmBytes → exec (.registerWrite .bar4Base v) s = .next { s with bar4Base := v }) ∧
    (s.invBusy = none → ∀ i, i < 3 → exec (.registerWrite (.invalidateWord i) v) s = .next { s with invReg := s.invReg.set i v }) ∧
    (∀ i, i < 32 → v = 0 → exec (.registerWrite (.pkgCounter i) v) s = .next (s.modPart (i / 4) fun p => { p with pgc := p.pgc.set (i % 4) 0 }))) ∧
  (∀ (s : State) (ofs : Nat) (bytes : List Byte), ofs + bytes.length ≤ 2 ^ 36 →
    exec (.bar4Write ofs bytes) s = .next (s.wr (kHbm s.pkg (s.bar4Base.toNat + ofs)) bytes).noteEn) ∧
  (∀ (s : State) (good : List Bool), ∃ t, exec (.resetBoot good) s = .next t ∧ t.booted = true ∧ t.released = leading (good.take 3) ∧ t.bootFail = (if leading (good.take 3) < 3 then some (leading (good.take 3)) else none) ∧ t.blocks = [] ∧ t.ctxs = [] ∧ t.grids = [] ∧
    ∀ k, survives s.pkg true k = false → memGet t.mem k = 0#8)

/-- Housekeeping completes: heartbeats and their windows, the watchdog once the package has booted, throttling, scrubbing, links and soft errors (R441 to R445, R460, R461, R494, R498 to R500; the syndrome is a free value, log 7; the register pair as granule, and that the image verified after a missed watchdog is a free outcome on which the release hangs, is the model's reading, log 46 and 65). -/
def Obligations.HousekeepingCompletes : Prop :=
  (∀ (s : State) (core : Nat), exec (.heartbeatSend core) s = .next (s.modCore core fun c => { c with beat := true })) ∧
  (∀ (s : State) (core : Nat), s.mgmtUp = true → s.beatsOn core = true → let c := s.coreD core
    (c.beat = true ∨ c.excuse = true → exec (.heartbeatWindowExpiry core) s = .next ((newWindow core 0 s).modCore core fun c => { c with excuse := false })) ∧
    (c.beat = false → c.excuse = false → c.missed = 0 → exec (.heartbeatWindowExpiry core) s = .next (newWindow core 1 s)) ∧
    (c.beat = false → c.excuse = false → c.missed ≠ 0 →
      exec (.heartbeatWindowExpiry core) s = .next ((((s.resident core).map (·.ctx)).eraseDups).foldl (fun s x => s.raiseHalt x fcBeat none (.core core) (beatRec x core)) (newWindow core 0 s)))) ∧
  (∀ (s : State), s.mgmtUp = true → exec .watchdogReport s = .next { s with wdReported := true }) ∧
  (∀ (s : State), (s.booted = false → exec .watchdogExpiry s = .next s) ∧ (s.booted = true → (s.wdReported = true → exec .watchdogExpiry s = .next { s with wdReported := false, wdMissed := 0 }) ∧
    (s.wdReported = false → s.wdMissed = 0 → exec .watchdogExpiry s = .next { s with wdMissed := 1 }) ∧
    (s.wdReported = false → s.wdMissed ≠ 0 → ∃ t, exec .watchdogExpiry s = .next t ∧ (∀ c ∈ t.cores, c.excuse = true) ∧
      (∀ n, ((∃ g ∈ s.grids, g.ctx = n) ∨ ∃ c ∈ s.ctxs, c.no = n ∧ c.rcd ≠ .init) → (∀ im, (s.ctxD n).saved ≠ .saved im) → (t.ctxD n).halted.isSome = true) ∧
      (s.released ≠ 0 → (Config.imageGood s.tick = true → t.released = s.released) ∧ (Config.imageGood s.tick = false → t.released = 0 ∧ t.bootFail = some 0)) ∧
      (s.released = 0 → t.released = leading [Config.imageGood s.tick, Config.imageGood (s.tick + 1), Config.imageGood (s.tick + 2)])))) ∧
  (∀ (s : State) (core : Nat), s.mgmtUp = true → 1 < (s.coreD core).clock →
    exec (.clockThrottleStep core) s = .next { s.modCore core (fun c => { c with clock := (s.coreD core).clock - 1, beat := false }) with
      throttleLog := (core, (s.coreD core).clock - 1) :: s.throttleLog }) ∧
  (∀ (s : State) (l : Level) (i : Nat), i < (match l with | .slice => s.dieS.length | .hbm => s.hbmS.length | _ => s.cores.length) → ∃ t, exec (.scrubTick l i) s = .next t ∧
    t.scrub l i = (s.scrub l i).tick (levelSize l) ∧ t.mem = s.mem ∧ t.granErr = s.granErr ∧ t.blocks = s.blocks) ∧
  (∀ (s : State) (n : Nat), (n < 24 → exec (.linkFlitReplay n) s = .next { s with linkReplays := assocSet s.linkReplays n (assocGet s.linkReplays n 0 + 1) }) ∧
    (n ≠ s.pkg → s.numbered.contains n = true → exec (.linkRouteLost n) s = .next { s with lost := insRise n s.lost }) ∧
    (s.pkgLost n = true → exec (.linkTimeout n) s = .next { s with timedOut := insRise n s.timedOut })) ∧
  (∀ (s : State) (p : ErrPlace),
    (∃ t, exec (.softError p true) s = .next t ∧ t.mem = s.mem ∧ t.granErr = s.granErr ∧ t.wordErr = s.wordErr ∧ t.blocks = s.blocks) ∧
    exec (.softError p false) s = .next ((s.logErr p (if ErrPlace.parity p then 4 else 2)).uncorrectable p))

/-! ## Encoding, the step, and what holds throughout -/

namespace Sys2Proof.Spec

/-- The opcode of a word (R42). -/
def opcOf (w : DWord) : Nat := (w.extractLsb' 56 8).toNat
/-- Opcodes that the map gives to V-class clauses (R56). -/
def opcodesV : List Nat :=
  List.range 0x16 ++ [0x16, 0x17] ++ (List.range 0x12).map (· + 0x18) ++ (List.range 8).map (· + 0x30) ++ (List.range 11).map (· + 0x40) ++
    (List.range 6).map (· + 0x50) ++ [0x70, 0x71, 0x72] ++ (List.range 11).map (· + 0x80) ++ (List.range 15).map (· + 0xA0) ++ (List.range 6).map (· + 0xB1) ++
    (List.range 6).map (· + 0xC0) ++ (List.range 5).map (· + 0xE0)
/-- Opcodes of the map marked "no" in its column S (R56). -/
def notInS : List Nat :=
  [0x07, 0x08, 0x09, 0x0E, 0x1D, 0x21, 0x22, 0x26, 0x29] ++ (List.range 11).map (· + 0x40) ++ (List.range 6).map (· + 0x50) ++ [0x70, 0x71, 0x72, 0x85] ++
    (List.range 11).map (· + 0xA0)
/-- Opcodes of the M, C and X classes (R58 to R60). -/
def opcodesM : List Nat := [0, 1, 2, 3, 4, 5, 0x20, 0x21, 0x22, 0x23, 0x24, 0x25, 0x40, 0x41, 0x42, 0x43]
def opcodesC : List Nat := [0, 1, 2, 3, 4, 0x20, 0x30, 0x31, 0x32, 0x33, 0x34, 0x35, 0x40, 0x41, 0x50, 0x51]
def opcodesX : List Nat := [0, 1, 2, 3, 4]
/-- A word whose opcode is assigned in its class: LDK and STK are not in an S-class clause (R56). -/
def assigned (cl : Cls) (w : DWord) : Bool :=
  match cl with
  | .V => opcodesV.contains (opcOf w)
  | .S => (opcodesV.contains (opcOf w) || opcOf w == 0xAF || opcOf w == 0xB0) && !notInS.contains (opcOf w) &&
      !((opcOf w == 0xC0 || opcOf w == 0xC1) && spcM w == 2#2)
  | .M => opcodesM.contains (opcOf w)
  | .C => opcodesC.contains (opcOf w)
  | .X => opcodesX.contains (opcOf w)
/-- Opcodes of format I and of format B in the V and S classes (R56). -/
def formatI : List Nat := [0x16, 0x30, 0x31, 0x32, 0x33, 0x34, 0x35, 0x36, 0x37, 0xA9, 0xAA, 0xAC, 0xAE, 0xB0]
def formatB : List Nat := [0x80, 0x82, 0x85, 0x86, 0x87, 0x88]
/-- MOD bits that the layout of an opcode does not list (R54, R56). -/
def spareMod (o : Nat) : BitVec 11 :=
  if [0x02, 0x03].contains o then 0x00F
  else if [0x05, 0x07, 0x08, 0x09, 0x0C, 0x0D, 0x0E, 0x11, 0x27, 0x17, 0x22, 0xB1, 0xB2, 0xA5, 0xA8, 0x89, 0x8A].contains o then 0x7FE
  else if o = 0x12 then 0x01E else if o = 0x47 then 0x019 else if o = 0x13 then 0x000 else if o = 0x14 then 0x07F
  else if [0xA3, 0xAB, 0xB4].contains o then 0x0FF
  else if [0x40, 0x41, 0x42, 0x45, 0x50, 0x52].contains o then 0x7F8
  else if [0x48, 0x49, 0x4A].contains o then 0x7F0
  else if [0x70, 0x71, 0x72, 0xA0].contains o then 0x018
  else if o = 0x1D then 0x700 else if o = 0x0F then 0x7E0
  else if [0xA1, 0xA2].contains o then 0x001
  else if o = 0xA6 then 0x71E else if o = 0xA7 then 0x71C
  else 0x7FF
/-- Reserved bits of an assigned word, by its class and opcode (R44, R47, R48, R54). -/
def reservedBits (cl : Cls) (o : Nat) : DWord :=
  match cl with
  | .V | .S =>
    if formatI.contains o then 1#64 <<< 32
    else if [0x86, 0x87, 0x88].contains o then 0xFFFFFFFFFFFFF
    else if o = 0x82 then 0xFFE00 <<< 32
    else if formatB.contains o then 0xF <<< 48
    else if 0xC0 ≤ o then 0 else (spareMod o).setWidth 64
  | .M => 0
  | .C => 0x1F0
  | .X => if o < 3 then 1#64 <<< 32 else 0x700

/-- Unit `u` is inside clause `c` on its scheduler, nothing stops it, and its next word is `w`: the state once the meetings are released, the cycle is counted and the split has joined, with the unit's view (R16, R62, R156, R159, R162). -/
def AtWord (s : State) (u : UnitRef) (c : ClauseCtx) (w : DWord) (v : View) (s1 : State) : Prop :=
  ∃ g0, s.blk? u.blk = some v.b ∧ v.b.grp? u = some g0 ∧ (s.coreD v.b.core).cur[g0.sched]? = some (some u) ∧ g0.stat = .ready ∧
    s.issueStopped v.b.ctx u.isFront = false ∧ (match v.b.bench with | .none => false | .stopping .. => u.isFront | .out .. => true) = false ∧ (u.isFront && s.halting v.b.ctx) = false ∧ g0.hold < 64 ∧
    v.u = u ∧ v.g = g0.meetings.join ∧ v.g.clauseNow = some c ∧ s1 = ((s.meetAll v.b.core g0.sched).tickCore v.b.core g0.sched (some u)).modGrp u (·.join) ∧
    v.g.atomHeld = false ∧ s1.atBreakpoint v.b v.g = false ∧ s1.fetch v.b.core v.b.ctx v.g.pcOf = some w

end Sys2Proof.Spec

/-- Decoding undoes encoding: every well-formed instruction of the clause classes, with every operand at every value, is what its encoded word decodes to (R35, R42 to R61). -/
def Obligations.EncodedInstructionsDecode : Prop :=
  ∀ (i : Instr) (c : Cls) (w : DWord), wellFormed i = true → encode i = some (c, w) → decode c w = .ok i

/-- What decodes is well formed and has an encoding, which decodes in the same class to the same instruction; the class is the one the word stood in, but that a word of both register classes and a hint are encoded for class V (R55 to R61). -/
def Obligations.DecodedWordsAreWellFormed : Prop :=
  ∀ (c : Cls) (w : DWord) (i : Instr), decode c w = .ok i → wellFormed i = true ∧
    ∃ c' w', encode i = some (c', w') ∧ decode c w' = .ok i ∧ (c' = c ∨ (c = .S ∧ c' = .V) ∨ 0xF0 ≤ opcOf w)

/-- Words written out from the encodings of the spec decode to the instructions they stand for, one for each format. -/
def Obligations.WrittenWordsDecode : Prop :=
  decode .V 0x0070180405FF0000 = .ok (.iadd ⟨⟨false, 7⟩, 3, 1, 2, 511, 0, 0⟩) ∧
  decode .V 0x3070381CFFFFFFFC = .ok (.iaddImm ⟨⟨false, 7⟩, 7, 7, false, 0xFFFFFFFC⟩) ∧
  decode .V 0xC070400808000040 = .ok (.lds ⟨⟨false, 7⟩, 8, 2, .thread, .plain, .w4, 64⟩ false) ∧
  decode .V 0x80100000FFFFFFA0 = .ok (.bra ⟨false, 1⟩ 0xFFFFFFA0) ∧
  decode .M 0x017057FFFE000470 = .ok (.mloop ⟨⟨false, 7⟩, 10, 511, 511, 2, 3, true⟩) ∧
  decode .C 0x0470A06038000200 = .ok (.cpyc ⟨⟨false, 7⟩, 20, 24, 28, 1⟩ .creg) ∧
  decode .X 0x007FF80C00000007 = .ok (.trap ⟨⟨false, 7⟩, 511, 3, false, 7⟩) ∧
  decode .S 0xAF7FF80FFFFF0000 = .ok (.trayw ⟨⟨false, 7⟩, 511, 3, 511, 511, 0, 0⟩)

/-- A step runs the decoded instruction: where the next turn is a unit's and the word at its place decodes to an instruction that its kind may run and whose guard is not p7 negated, the step is that instruction's meaning, at the state in which meetings are released, the cycle is counted and the split has joined; an event on the agenda runs as its meaning (R16, R62; the order of turns is the model's, log 1). -/
def Obligations.StepRunsTheDecodedInstruction : Prop :=
  (∀ (s s1 : State) (r : List Turn) (u : UnitRef) (c : ClauseCtx) (w : DWord) (v : View) (i : Instr), s.agenda = .issue u :: r →
    AtWord { s with agenda := r, cur := none } u c w v s1 → decode c.cls w = .ok i →
    (guardOf w ≠ ⟨true, 7#3⟩ → Instr.forUnit i u.isFront = true → step s = exec i { s1 with cur := some u }) ∧
    (guardOf w = ⟨true, 7#3⟩ → opcOf w < 0xF0 → Instr.forUnit i u.isFront = true → step s = .next (s1.advance v)) ∧
    (Instr.forUnit i u.isFront = false → step s = .next (s1.takeFault u 0x02 0 0 0 v.g.pcOf v.g.runs))) ∧
  (∀ (s : State) (r : List Turn) (i : Instr), s.agenda = .event i :: r → step s = exec i { s with agenda := r, cur := none })

/-- The opcode decides the word's fate, in the class of its clause: opcodes from 0xF0 on only go on, whatever their other bits; every opcode that the map does not assign to the class is an illegal instruction, and so, unless the guard is p7 negated, is a reserved code; reserved fields change nothing (R17, R61, R62). -/
def Obligations.OpcodesDecideTheWord : Prop :=
  (∀ (c : Cls) (w : DWord), decode c w = .error .unassigned ↔ opcOf w < 0xF0 ∧ assigned c w = false) ∧
  (∀ (c : Cls) (w w' : DWord), opcOf w < 0xF0 → opcOf w' = opcOf w → w &&& ~~~(reservedBits c (opcOf w)) = w' &&& ~~~(reservedBits c (opcOf w)) →
    decode c w = decode c w') ∧
  (∀ (s s1 : State) (r : List Turn) (u : UnitRef) (c : ClauseCtx) (w : DWord) (v : View), s.agenda = .issue u :: r →
    AtWord { s with agenda := r, cur := none } u c w v s1 →
    (0xF0 ≤ opcOf w → ∃ s2 v2, s2.view? = some v2 ∧ s2 = { s1 with cur := some u } ∧ step s = .next (s2.advance v2)) ∧
    (decode c.cls w = .error .unassigned → step s = .next (s1.takeFault u 0x02 0 0 0 v.g.pcOf v.g.runs)) ∧
    (∀ g, decode c.cls w = .error (.reserved g) → step s = .next (if g = ⟨true, 7#3⟩ then s1.advance v else s1.takeFault u 0x02 0 0 0 v.g.pcOf v.g.runs)))

/-- From every state the machine goes on, and a step keeps memory in its canonical form: keys strictly rising, no entry equal to what an unlisted byte reads as (an event whose conditions do not hold goes on with the state as it was, log 11). -/
def Obligations.EveryStepGoesOnAndKeepsMemory : Prop := ∀ s : State, ∃ t, step s = .next t ∧ (memCanonical s → memCanonical t)

/-- Reset leaves memory canonical and all zero, nothing resident and nothing queued, no processor released, 192 free cores and 8 partitions without a half-die whose fault-control words hold GWLIM 28, HLIM 28 and HBEN 1 (R1, R421, R493, R496; which values of other registers stand at reset is the model's choice, log 3). -/
def Obligations.ResetLeaves : Prop :=
  let s := State.reset
  memCanonical s ∧ (∀ a, memGet s.mem a = 0#8) ∧ s.blocks = [] ∧ s.grids = [] ∧ s.queues = [] ∧ s.oc = [] ∧ s.hc = [] ∧ s.released = 0 ∧ s.cores.length = 192 ∧
    (∀ c ∈ s.cores, c.tlb = [] ∧ ∀ x ∈ c.cur, x = none) ∧ s.parts.length = 8 ∧ (∀ p ∈ s.parts, p.mask = 0#8 ∧ p.fcw = 0x001C1C04#32 ∧ p.halt = none)

namespace Sys2Proof.Spec

/-- The conditions on which a register instruction of fields `U` with one destination word completes, for clean and poisoned lanes alike. -/
def Issues (g : Guard) (U : Uses) (d : Opnd) (s : State) (v : View) (ins : List LaneIn) (s1 : State) : Prop :=
  s.view? = some v ∧ v.legal U = true ∧ v.active g ≠ [] ∧ readAll v (v.active g) U s = .ok (ins, s1) ∧
    (∀ q, opKind d = .port q → pushBusy s1 v.u q (ins.map (·.lane)) ins.length = false) ∧ memCanonical s
/-- A lane's destination register holds `x`, full and unpoisoned. -/
def LaneGets (s t : State) (v : View) (l : Nat) (d : Opnd) (x : Word) : Prop :=
  ∀ k, opKind d = .reg k → reg? t v.u l k = (reg? s v.u l k).map fun _ => ⟨x, false, .full⟩
/-- The instruction completes and every lane with clean sources gets the value that `f` gives of them. -/
def Computes (i : Instr) (w : WA) (src : List Src) (f : LaneIn → Word) : Prop :=
  ∀ (s s1 : State) (v : View) (ins : List LaneIn), Issues w.g { src := src, dst := some ⟨w.d, 1⟩ } w.d s v ins s1 →
    ∃ t, exec i s = .next t ∧ ∀ x ∈ ins, x.psn = false → LaneGets s t v x.lane w.d (f x)
/-- Bits `lo` to `lo + n - 1` of a word as a number. -/
def field (x : Word) (lo n : Nat) : Nat := x.toNat / 2 ^ lo % 2 ^ n
/-- Position and length of a bit field (R99). -/
def fieldPos (b : Word) : Nat := min (field b 0 8) 32
def fieldLen (b : Word) : Nat := min (field b 8 8) (32 - fieldPos b)

end Sys2Proof.Spec

/-- R92 as it is written: IDIV and IREM, V-class opcodes 0x08 and 0x09 with the sign layout and in no S-class clause, give the quotient rounded toward zero and the remainder that goes with it, all ones and the dividend with IDZ set where the divisor is 0, 0x8000_0000 and 0 without a flag in the one overflow; IDZ is pending where FE[13] is set, and the result is still written. -/
def Obligations.DivisionAndRemainder : Prop :=
  (∀ w : DWord, opcOf w = 0x08 → decode .V w = .ok (.idiv (waOf w) (w.getLsbD 0)) ∧ decode .S w = .error .unassigned) ∧
  (∀ w : DWord, opcOf w = 0x09 → decode .V w = .ok (.irem (waOf w) (w.getLsbD 0)) ∧ decode .S w = .error .unassigned) ∧
  ∀ (w : WA) (sgn : Bool) (s s1 : State) (v : View) (ins : List LaneIn), Issues w.g { src := [srcA w, srcB w], dst := some ⟨w.d, 1⟩ } w.d s v ins s1 →
    ∃ tq tr, exec (.idiv w sgn) s = .next tq ∧ exec (.irem w sgn) s = .next tr ∧ ∀ x ∈ ins, x.psn = false →
      let a := (x.w 0).v
      let b := (x.w 1).v
      let ext (y : Word) : Int := if sgn then y.toInt else y.toNat
      let both (q r : Word) : Prop := LaneGets s tq v x.lane w.d q ∧ LaneGets s tr v x.lane w.d r
      let bits (t : State) : Option (Word × BitVec 7) := (thr? t v.u x.lane).map fun y => (y.sticky, y.pend)
      let same (t : State) : Prop := bits t = bits s
      let idz (t : State) : Prop := bits t = (thr? s v.u x.lane).map fun y =>
        (y.sticky ||| 0x20#32, if y.mode.getLsbD 13 then y.pend ||| 0x20#7 else y.pend)
      (b = 0#32 → both 0xFFFFFFFF#32 a ∧ idz tq ∧ idz tr) ∧
      (b ≠ 0#32 → sgn = true → a = 0x80000000#32 → b = 0xFFFFFFFF#32 → both 0x80000000#32 0#32 ∧ same tq ∧ same tr) ∧
      (b ≠ 0#32 → ¬(sgn = true ∧ a = 0x80000000#32 ∧ b = 0xFFFFFFFF#32) →
        ∃ q r : Int, ext a = q * ext b + r ∧ r.natAbs < (ext b).natAbs ∧ (r = 0 ∨ (0 < r ↔ 0 < ext a)) ∧
          both (BitVec.ofInt 32 q) (BitVec.ofInt 32 r) ∧ same tq ∧ same tr)

/-- R97 and R99 as they are written: the shifts by the whole amount, ROTL by it modulo 32, SHF of the pair by at most 32, and the bit fields cut at bit 31; ROTL and SHF stand in no S-class clause. -/
def Obligations.ShiftsAndBitFields : Prop :=
  (∀ w : DWord,
    (opcOf w = 0x1E → decode .V w = .ok (.shl (waOf w))) ∧ (opcOf w = 0x1F → decode .V w = .ok (.shr (waOf w))) ∧
    (opcOf w = 0x20 → decode .V w = .ok (.sar (waOf w))) ∧ (opcOf w = 0x27 → decode .V w = .ok (.bfx (waOf w) (w.getLsbD 0))) ∧
    (opcOf w = 0x28 → decode .V w = .ok (.bfi (waOf w))) ∧
    (opcOf w = 0x21 → decode .V w = .ok (.rotl (waOf w)) ∧ decode .S w = .error .unassigned) ∧
    (opcOf w = 0x22 → decode .V w = .ok (.shf (waOf w) (w.getLsbD 0)) ∧ decode .S w = .error .unassigned)) ∧
  ∀ w : WA,
    let a (x : LaneIn) : Nat := (x.w 0).v.toNat
    let n (x : LaneIn) : Nat := (x.w 1).v.toNat
    let pair (x : LaneIn) : Nat := (x.w 1).v.toNat * 2 ^ 32 + (x.w 0).v.toNat
    let pos (x : LaneIn) : Nat := fieldPos (x.w 1).v
    let len (x : LaneIn) : Nat := fieldLen (x.w 1).v
    Computes (.shl w) w [srcA w, srcB w] (fun x => if n x < 32 then BitVec.ofNat 32 (a x * 2 ^ n x) else 0) ∧
    Computes (.shr w) w [srcA w, srcB w] (fun x => if n x < 32 then BitVec.ofNat 32 (a x / 2 ^ n x) else 0) ∧
    Computes (.sar w) w [srcA w, srcB w] (fun x => if n x < 32 then BitVec.ofInt 32 ((x.w 0).v.toInt / 2 ^ n x) else if (x.w 0).v.getLsbD 31 then 0xFFFFFFFF else 0) ∧
    Computes (.rotl w) w [srcA w, srcB w] (fun x => if n x % 32 = 0 then (x.w 0).v else
      BitVec.ofNat 32 (a x * 2 ^ (n x % 32)) ||| BitVec.ofNat 32 (a x / 2 ^ (32 - n x % 32))) ∧
    Computes (.shf w false) w [srcA w, srcB w, srcC w] (fun x => BitVec.ofNat 32 (pair x * 2 ^ (min (x.w 2).v.toNat 32) % 2 ^ 64 / 2 ^ 32)) ∧
    Computes (.shf w true) w [srcA w, srcB w, srcC w] (fun x => BitVec.ofNat 32 (pair x / 2 ^ (min (x.w 2).v.toNat 32))) ∧
    Computes (.bfx w false) w [srcA w, srcB w] (fun x => if len x = 0 then 0 else BitVec.ofNat 32 (field (x.w 0).v (pos x) (len x))) ∧
    Computes (.bfx w true) w [srcA w, srcB w] (fun x => if len x = 0 then 0 else
      let f := field (x.w 0).v (pos x) (len x)
      if f < 2 ^ (len x - 1) then BitVec.ofNat 32 f else BitVec.ofInt 32 ((f : Int) - 2 ^ len x)) ∧
    Computes (.bfi w) w [srcA w, srcB w, srcC w] (fun x => if len x = 0 then (x.w 2).v else
      BitVec.ofNat 32 ((x.w 2).v.toNat / 2 ^ (pos x + len x) * 2 ^ (pos x + len x) + field (x.w 0).v 0 (len x) * 2 ^ pos x + field (x.w 2).v 0 (pos x)))

/-- R8 as it is written: as a source, operand 511 gives words that are 0 and unpoisoned, holds and traps nothing and takes nothing, in every half; as a destination it takes nothing, is never on its way, and every other effect of a register instruction takes place as if it named no destination. -/
def Obligations.ZeroRegister : Prop :=
  (∀ (v : View) (l n : Nat) (et ret : Bool) (r : Rd), readSrc v l ⟨511#9, n, et, ret⟩ r = (List.replicate n ⟨0, false⟩, r)) ∧
  (∀ (s : State) (u : UnitRef) (l n : Nat) (ws : List PWord), writeDst s u l ⟨511#9, n⟩ ws = s ∧ dstBusy s u l ⟨511#9, n⟩ = false) ∧
  (∀ (b : Block) (front : Bool) (n : Nat), b.dstOk front ⟨511#9, n⟩ = true) ∧
  (∀ (i : Instr) (R : RegRow) (s s1 : State) (v : View) (ins : List LaneIn) (n : Nat), regRow i = some R → RegReady R s v ins s1 → R.uses.dst = some ⟨511#9, n⟩ →
    exec i s = .next (commitAll v none (R.out s v ins) s1))
end

