-- ==== Sys2Proof/Laws/Exec.lean ====
section
/-! SUPPORT. Equations of attempts: what the monad's steps answer, what runUnit, runEvent and runSplit do with them. -/

namespace Sys2Proof.Machine

/-! ## Steps of an attempt -/

@[simp] theorem act_pure {α : Type} (x : α) (s : State) : (pure x : Act α) s = .ok (x, s) := rfl
@[simp] theorem act_throw {α : Type} (e : Stop) (s : State) : (throw e : Act α) s = .error e := rfl
@[simp] theorem act_get (s : State) : (get : Act State) s = .ok (s, s) := rfl
@[simp] theorem act_set (t s : State) : (set t : Act Unit) s = .ok ((), t) := rfl
@[simp] theorem act_modA (f : State → State) (s : State) : modA f s = .ok ((), f s) := rfl
@[simp] theorem act_modify (f : State → State) (s : State) : (modify f : Act Unit) s = .ok ((), f s) := rfl
@[simp] theorem act_holdA {α : Type} (s : State) : (holdA : Act α) s = .error .hold := rfl
@[simp] theorem act_idleA {α : Type} (s : State) : (idleA : Act α) s = .error .idle := rfl
theorem act_bind {α β : Type} (x : Act α) (f : α → Act β) (s : State) :
    (x >>= f) s = match x s with | .ok (a, t) => f a t | .error e => .error e := by
  show (StateT.bind x f) s = _
  unfold StateT.bind
  show (Except.bind (x s) _) = _
  cases x s <;> rfl
theorem act_bind_ok {α β : Type} {x : Act α} {f : α → Act β} {s t : State} {a : α} (h : x s = .ok (a, t)) : (x >>= f) s = f a t := by
  rw [act_bind, h]
theorem act_bind_error {α β : Type} {x : Act α} {f : α → Act β} {s : State} {e : Stop} (h : x s = .error e) : (x >>= f) s = .error e := by
  rw [act_bind, h]
/-- A check that holds lets the attempt go on; one that fails stops it. -/
@[simp] theorem act_needA (b : Bool) (e : Stop) (s : State) : needA b e s = if b then .ok ((), s) else .error e := by
  cases b <;> rfl
@[simp] theorem act_someA {α : Type} (x : Option α) (e : Stop) (s : State) :
    someA x e s = match x with | some a => .ok (a, s) | none => .error e := by cases x <;> rfl
@[simp] theorem act_faultA {α : Type} (c a l i : Nat) (s : State) : (faultA c a l i : Act α) s = .error (.fault c (BitVec.ofNat 64 a) l i) := rfl
theorem act_ite {α : Type} (c : Prop) [Decidable c] (x y : Act α) (s : State) : (if c then x else y) s = if c then x s else y s := by
  split <;> rfl

/-! ## Instructions of a unit and events -/

/-- Without a unit nothing happens. -/
theorem runUnit_none {a : View → Act Unit} {s : State} (h : s.view? = none) : runUnit a s = .next s := by
  simp [runUnit, h]
/-- An attempt that succeeds gives its state. -/
theorem runUnit_ok {a : View → Act Unit} {s t : State} {v : View} (h : s.view? = some v) (ha : a v s = .ok ((), t)) : runUnit a s = .next t := by
  simp [runUnit, h, ha]
/-- An attempt that stops leaves what its stop does, and nothing else. -/
theorem runUnit_stop {a : View → Act Unit} {s : State} {v : View} {e : Stop} (h : s.view? = some v) (ha : a v s = .error e) :
    runUnit a s = .next (s.stopUnit v e) := by
  simp [runUnit, h, ha]
/-- An instruction always answers a next state. -/
theorem runUnit_next (a : View → Act Unit) (s : State) : ∃ t, runUnit a s = .next t := by
  unfold runUnit
  split
  · exact ⟨_, rfl⟩
  · split <;> exact ⟨_, rfl⟩
theorem runEvent_ok {a : Act Unit} {s t : State} (h : a s = .ok ((), t)) : runEvent a s = .next t := by simp [runEvent, h]
/-- An event that is not enabled changes nothing. -/
theorem runEvent_idle {a : Act Unit} {s : State} {e : Stop} (h : a s = .error e) : runEvent a s = .next s := by simp [runEvent, h]
theorem runEvent_next (a : Act Unit) (s : State) : ∃ t, runEvent a s = .next t := by
  unfold runEvent; split <;> exact ⟨_, rfl⟩

/-! ## Register instructions -/

/-- No active lane: the instruction is over with no effect. -/
theorem runSplit_none {g : Guard} {x : Uses} {f : List LaneIn → List (Nat × LaneOut)} {v : View} {s : State}
    (hl : v.legal x = true) (ha : v.active g = []) : runSplit g x f v s = .ok ((), s.advance v) := by
  simp [runSplit, act_bind, hl, ha]
/-- Active lanes that can be read leave their results. -/
theorem runSplit_ok {g : Guard} {x : Uses} {f : List LaneIn → List (Nat × LaneOut)} {v : View} {s s1 : State} {ins : List LaneIn}
    (hl : v.legal x = true) (ha : v.active g ≠ []) (hr : readAll v (v.active g) x s = .ok (ins, s1))
    (hp : portFree s1 v.u x.dst (f ins) = true) : runSplit g x f v s = .ok ((), commitAll v x.dst (f ins) s1) := by
  simp [runSplit, act_bind, hl, hr, ha, hp]
/-- A field that is not legal faults. -/
theorem runSplit_illegal {g : Guard} {x : Uses} {f : List LaneIn → List (Nat × LaneOut)} {v : View} {s : State}
    (hl : v.legal x = false) : runSplit g x f v s = .error (.fault fcIllOpnd 0 0 0) := by
  simp [runSplit, act_bind, hl]

end Sys2Proof.Machine
end

