-- ==== Sys2Proof/Laws/Issue.lean ====
section
/-! SUPPORT. What the ways of issuing answer when their conditions hold: elected, group-uniform, once per split, and over lanes of memory. -/

namespace Sys2Proof.Machine

/-! ## Elected instructions -/

/-- With clean control operands the body runs after the reads. -/
theorem elected_ok {g : Guard} {x : Uses} {ks : List Nat} {body : List Nat → LaneIn → Act Unit} {s s1 : State} {v : View} {l : Nat} {ls : List Nat} {i : LaneIn}
    (hl : v.legal x = true) (ha : v.active g = l :: ls) (hr : readAll v [l] { x with dst := none } s = .ok ([i], s1))
    (hd : (x.dst.elim false fun d => (l :: ls).any fun k => dstBusy s v.u k d) = false) (hc : (ks.any fun k => (i.src.getD k []).any (·.p)) = false) :
    elected g x ks body v s = body (l :: ls) i s1 := by
  simp only [elected, act_bind, act_needA, hl, if_true, ha, act_get, hr, hd, Bool.not_false, act_set, hc, Bool.false_eq_true, if_false]
/-- A poisoned control operand retires the lowest lane and nothing else happens (R502). -/
theorem elected_poisoned {g : Guard} {x : Uses} {ks : List Nat} {body : List Nat → LaneIn → Act Unit} {s s1 : State} {v : View} {l : Nat} {ls : List Nat} {i : LaneIn}
    (hl : v.legal x = true) (ha : v.active g = l :: ls) (hr : readAll v [l] { x with dst := none } s = .ok ([i], s1))
    (hd : (x.dst.elim false fun d => (l :: ls).any fun k => dstBusy s v.u k d) = false) (hc : (ks.any fun k => (i.src.getD k []).any (·.p)) = true) :
    elected g x ks body v s = .ok ((), ((s1.retire v.u l).afterExit v.u.blk).advance v) := by
  simp only [elected, act_bind, act_needA, hl, if_true, ha, act_get, hr, hd, Bool.not_false, act_set, hc, act_modA]
/-- No active lane: the instruction is over. -/
theorem elected_none {g : Guard} {x : Uses} {ks : List Nat} {body : List Nat → LaneIn → Act Unit} {s : State} {v : View}
    (hl : v.legal x = true) (ha : v.active g = []) : elected g x ks body v s = .ok ((), s.advance v) := by
  simp only [elected, act_bind, act_needA, hl, if_true, ha, act_modA]

@[simp] theorem act_done (v : View) (s : State) : done v s = .ok ((), s.advance v) := rfl
/-- One lane of a result for all lanes. -/
def toLane (v : View) (d : Dest) (ws : List PWord) (s : State) (l : Nat) : State :=
  let s := writeDst s v.u l d ws
  if ws.any (·.p) then s.modThread v.u l (·.setFlags fPSN) else s
/-- With room at its port, a result goes to every lane in rising order. -/
theorem writeAll_ok {v : View} {d : Dest} {ls : List Nat} {ws : List PWord} {s : State}
    (hr : ∀ q, opKind d.f = .port q → pushBusy s v.u q ls (ws.length * ls.length) = false) :
    writeAll v d ls ws s = .ok ((), ls.foldl (toLane v d ws) s) := by
  unfold writeAll
  cases hk : opKind d.f with
  | port q => simp only [act_bind, act_get, act_needA, hr q hk, Bool.not_false, if_true, act_modA]; rfl
  | _ => rfl
theorem predAll_ok (v : View) (pd : PNum) (ls : List Nat) (b : Bool) (s : State) :
    predAll v pd ls b s = .ok ((), ls.foldl (fun s l => s.modThread v.u l (·.setPred pd b)) s) := rfl
theorem released_ok {v : View} {ls : List Nat} {s : State} (h : ∀ l ∈ ls, (v.thread l).elim true (fun t => t.unp == []) = true) :
    released v ls s = .ok ((), s) := by
  unfold released
  rw [act_needA, if_pos]
  simpa [List.all_eq_true] using h
/-- With nothing pending there is nothing to report (R420). -/
theorem arithReport_none {v : View} {ls : List Nat} {s : State} (h : ∀ l ∈ ls, (v.thread l).elim false (fun t => t.pend != 0) = false) :
    arithReport v ls s = .ok (true, s) := by
  have : ls.filter (fun l => (v.thread l).elim false fun t => t.pend != 0) = [] := by
    rw [List.filter_eq_nil_iff]; intro l hl; rw [h l hl]; exact Bool.false_ne_true
  unfold arithReport
  simp only [act_bind, act_get, this, if_true, act_pure]
/-- The group assembled and its guard true: the body runs (R160). -/
theorem uniform_ok {g : Guard} {legal : View → Bool} {body : Nat → Act Unit} {s : State} {v : View} {l : Nat} (ha : v.assembled = true) (hl : legal v = true)
    (hh : v.lanes.head? = some l) (hg : (v.thread l).elim false (Guard.holds g) = true) : uniform g legal body v s = body l s := by
  obtain ⟨r, hr⟩ : ∃ r, v.lanes = l :: r := by cases h : v.lanes <;> simp_all
  simp only [uniform, ha, Bool.not_true, Bool.false_eq_true, if_false, act_bind, act_needA, hl, if_true, hr, hg]
/-- Some thread has not arrived: those that have park (R160). -/
theorem uniform_parks {g : Guard} {legal : View → Bool} {body : Nat → Act Unit} {s : State} {v : View} (ha : v.assembled = false) :
    uniform g legal body v s = .ok ((), s.park v) := by
  simp only [uniform, ha, Bool.not_false, if_true, act_modA]

/-! ## Once per split -/

/-- Fields legal, the guard of the lowest lane true, no waited slot busy, that lane's operands readable: the body runs (R48, R161). -/
theorem perSplit_ok {w : WC} {x : Uses} {legal : Bool} {ks : List Nat} {body : List Nat → LaneIn → Act Unit} {s s1 : State} {v : View} {l : Nat} {i : LaneIn}
    (hl : (v.legal x && legal) = true) (hh : v.lanes.head? = some l) (hg : (v.thread l).elim false (Guard.holds w.g) = true) (hw : v.b.slots &&& w.wait = 0)
    (hr : readAll v [l] { x with dst := none } s = .ok ([i], s1)) (hd : (x.dst.elim false fun d => v.lanes.any fun k => dstBusy s1 v.u k d) = false)
    (hc : (ks.any fun k => (i.src.getD k []).any (·.p)) = false) : perSplit w x legal ks body v s = body v.lanes i s1 := by
  obtain ⟨r, hv⟩ : ∃ r, v.lanes = l :: r := by cases h : v.lanes <;> simp_all
  rw [hv] at hd
  simp only [perSplit, act_bind, act_needA, hl, if_true, hv, hg, Bool.not_true, Bool.false_eq_true, if_false, hw, beq_self_eq_true, act_get, hr, hd, Bool.not_false, act_set, hc]

/-! ## Lanes of memory -/

/-- Fields legal, lanes in order and readable, none with a poisoned address: the body runs on all of them (R242, R243). -/
theorem memIssue_ok {w : WM} {x : Uses} {legal all : Bool} {body : List LaneIn → Act Unit} {s s1 : State} {v : View} {ins : List LaneIn}
    (hl : (v.legal x && legal) = true) (ha : v.active w.g ≠ []) (ho : s.lanesReady v.u (v.active w.g) = true)
    (hr : readAll v (v.active w.g) x s = .ok (ins, s1))
    (hc : ∀ i ∈ ins, (if all then i.psn else ((i.src.getLast?).getD []).any (·.p)) = false) : memIssue w x legal all body v s = body ins s1 := by
  have hp : ins.partition (fun i => if all then i.psn else ((i.src.getLast?).getD []).any (·.p)) = ([], ins) := by
    rw [List.partition_eq_filter_filter]
    congr 1
    · rw [List.filter_eq_nil_iff]; intro i hi; rw [hc i hi]; exact Bool.false_ne_true
    · rw [List.filter_eq_self]; intro i hi; simp only [Function.comp, hc i hi, Bool.not_false]
  simp only [memIssue, act_bind, act_needA, hl, if_true, ha, if_false, act_get, ho, hr, hp, act_set]
/-- No lane fails a check of R242: it lets the access go on. -/
theorem checkLanes_ok {as : List LaneAt} {ok : Nat → Bool} {code : Nat} {s : State} (h : ∀ a ∈ as, ok a.a = true) : checkLanes as ok code s = .ok ((), s) := by
  have : as.find? (fun l => !ok l.a) = none := by rw [List.find?_eq_none]; intro a ha; simp [h a ha]
  unfold checkLanes
  rw [this]; rfl
/-- The first lane that fails a check stops the instruction with its address (R242). -/
theorem checkLanes_fault {as : List LaneAt} {ok : Nat → Bool} {code : Nat} {s : State} {a : LaneAt} (h : as.find? (fun l => !ok l.a) = some a) :
    checkLanes as ok code s = .error (.fault code (BitVec.ofNat 64 a.a) a.x.lane 0) := by
  unfold checkLanes
  rw [h]; rfl
theorem checkShared_ok {v : View} {as : List LaneAt} {n : Nat} {s : State} (ha : ∀ a ∈ as, a.a % n = 0) (hr : ∀ a ∈ as, (v.b.inDecl a.a n || v.b.inShelf a.a n) = true) :
    checkShared v as n s = .ok ((), s) := by
  unfold checkShared
  rw [act_bind_ok (checkLanes_ok (fun a h => by simpa using ha a h))]
  exact checkLanes_ok hr
theorem checkSpill_ok {v : View} {as : List LaneAt} {n : Nat} {s : State} (ha : ∀ a ∈ as, a.a % n = 0) (hr : ∀ a ∈ as, a.a + n ≤ v.b.spill / 32) :
    checkSpill v as n s = .ok ((), s) := by
  unfold checkSpill
  rw [act_bind_ok (checkLanes_ok (fun a h => by simpa using ha a h))]
  exact checkLanes_ok fun a h => by simpa using hr a h
theorem presentAll_ok {v : View} {as : List LaneAt} {n : Nat} {s : State} (h : ∀ a ∈ as, v.b.present a.a n = true) : presentAll v as n s = .ok ((), s) := by
  unfold presentAll
  rw [act_needA, if_pos]
  simpa [List.all_eq_true] using h
theorem portRoom_ok {v : View} {f : Opnd} {ls : List Nat} {n : Nat} {s : State} (h : ∀ q, opKind f = .port q → (n = 0 || !(pushBusy s v.u q ls n)) = true) : portRoom v f ls n s = .ok ((), s) := by
  unfold portRoom
  cases hk : opKind f with
  | port q => simp only [act_bind, act_get, act_needA, h q hk, if_true]
  | _ => rfl
/-- Every lane's address translates to a leaf that the access may take (R236). -/
theorem translate_ok {v : View} {as : List LaneAt} {n : Nat} {write : Bool} {s : State} (lf : LaneAt → Leaf) (ha : ∀ a ∈ as, a.a % n = 0)
    (hx : ∀ a ∈ as, s.xlate v.b.core v.b.ctx (BitVec.ofNat 56 a.a) = some (lf a)) (ht : ∀ a ∈ as, s.tierBad (lf a) = false) (hw : ∀ a ∈ as, (write && !(lf a).w) = false) :
    translate v as n write s = .ok (as.map fun a => (a, lf a), s) := by
  have hm : (as.map fun a => (a, s.xlate v.b.core v.b.ctx (BitVec.ofNat 56 a.a))) = as.map fun a => (a, some (lf a)) :=
    List.map_congr_left fun a h => by rw [hx a h]
  have h1 : ((as.map fun a => (a, some (lf a))).find? fun t => t.2.elim false s.tierBad) = none := by
    rw [List.find?_eq_none]
    intro t ht2
    obtain ⟨a, h, rfl⟩ := List.mem_map.mp ht2
    simp [ht a h]
  have h2 : ((as.map fun a => (a, some (lf a))).find? fun t => t.2.elim false fun l => write && !l.w) = none := by
    rw [List.find?_eq_none]
    intro t ht2
    obtain ⟨a, h, rfl⟩ := List.mem_map.mp ht2
    simp only [Option.elim, hw a h]; exact Bool.false_ne_true
  have h3 : ((as.map fun a => (a, some (lf a))).find? fun t => t.2.isNone) = none := by
    rw [List.find?_eq_none]
    intro t ht2
    obtain ⟨a, h, rfl⟩ := List.mem_map.mp ht2
    simp
  unfold translate
  rw [act_bind_ok (checkLanes_ok (fun a h => by simpa using ha a h))]
  simp only [act_bind, act_get]
  rw [hm]
  simp only [h1, h2, h3, act_pure]
  congr 2
  clear hm h1 h2 h3 ha hx ht hw
  induction as with
  | nil => rfl
  | cons a as ih => simp

end Sys2Proof.Machine
end

