-- ==== Sys2Proof/Laws/Engines.lean ====
section
/-! SUPPORT. What the ways of issuing an engine's instruction answer when their conditions hold. -/

namespace Sys2Proof.Machine

/-- No command before a release fence: an instruction that reads at issue goes on (R278). -/
theorem fenced_ok {v : View} {ls : List Nat} {s : State} (h : v.cmdPre ls = []) : fenced v ls s = .ok ((), s) := by
  unfold fenced; rw [act_needA, h]; rfl
/-- The group assembled, fields legal, slots free, the lowest lane's operands readable and clean: the body runs (R37, R337). -/
theorem engIssue_ok {w : WE} {x : Uses} {slot : Bool} {body : List Nat → LaneIn → Act Unit} {s s1 : State} {v : View} {l : Nat} {i : LaneIn}
    (ha : v.assembled = true) (hl : v.legal x = true) (hh : v.lanes.head? = some l) (hg : (v.thread l).elim false (Guard.holds w.g) = true)
    (hw : v.b.slots &&& w.wait = 0) (hs : (slot && w.sen && v.b.slots.getLsbD w.set.toNat) = false) (hr : readAll v [l] { x with dst := none } s = .ok ([i], s1))
    (hd : (x.dst.elim false fun d => v.g.live.any fun k => dstBusy s1 v.u k d) = false) (hp : i.psn = false) :
    engIssue w x slot body v s = body v.g.live i s1 := by
  unfold engIssue
  rw [uniform_ok ha hl hh hg]
  simp only [act_bind, act_needA, hw, beq_self_eq_true, hs, Bool.not_false, Bool.and_true, Bool.or_true, if_true, act_get, hr, hd, act_set, hp, Bool.false_eq_true, if_false]
/-- A poisoned operand retires the lowest lane and the instruction is over (R337). -/
theorem engIssue_poisoned {w : WE} {x : Uses} {slot : Bool} {body : List Nat → LaneIn → Act Unit} {s s1 : State} {v : View} {l : Nat} {i : LaneIn}
    (ha : v.assembled = true) (hl : v.legal x = true) (hh : v.lanes.head? = some l) (hg : (v.thread l).elim false (Guard.holds w.g) = true)
    (hw : v.b.slots &&& w.wait = 0) (hs : (slot && w.sen && v.b.slots.getLsbD w.set.toNat) = false) (hr : readAll v [l] { x with dst := none } s = .ok ([i], s1))
    (hd : (x.dst.elim false fun d => v.g.live.any fun k => dstBusy s1 v.u k d) = false) (hp : i.psn = true) :
    engIssue w x slot body v s = .ok ((), (((s1.modBlk v.u.blk (·.leaveWait v.u)).retire v.u l).afterExit v.u.blk).uniformEnd v) := by
  unfold engIssue
  rw [uniform_ok ha hl hh hg]
  simp only [act_bind, act_needA, hw, beq_self_eq_true, hs, Bool.not_false, Bool.and_true, Bool.or_true, if_true, act_get, hr, hd, act_set, hp, act_modA]
@[simp] theorem act_uDone (v : View) (s : State) : uDone v s = .ok ((), (s.modBlk v.u.blk (·.leaveWait v.u)).uniformEnd v) := rfl
/-- A check of a descriptor that holds. -/
theorem badDesc_ok {b : Bool} {l : Nat} {s : State} (h : b = false) : badDesc b l s = .ok ((), s) := by subst h; rfl
theorem badRange_ok {b : Bool} {a l : Nat} {s : State} (h : b = false) : badRange b a l s = .ok ((), s) := by subst h; rfl
theorem badAlign_ok {xs : List Nat} {k l : Nat} {s : State} (h : ∀ a ∈ xs, a % k = 0) : badAlign xs k l s = .ok ((), s) := by
  have : xs.find? (fun a => a % k != 0) = none := by rw [List.find?_eq_none]; intro a ha; simp [h a ha]
  unfold badAlign
  rw [this]; rfl
/-- A matrix operation is accepted under the next number and the core's next place (R320, R322). -/
theorem acceptM_ok {v : View} {w : WE} {ls : List Nat} {k : MKind} {f : Block → Block} {s : State} (h : v.b.matrix.ops.length < 64) :
    acceptM v w ls k f s = .ok ((), (((s.modBlk v.u.blk fun b => (f { b with matrix := { b.matrix with
        tl := ⟨v.b.matrix.tl.ctr, v.b.matrix.tl.given + 1⟩
        ops := b.matrix.ops ++ [({ no := v.b.matrix.tl.given + 1, acc := (s.coreD v.b.core).accs, pre := v.cmdPre ls, slot := WE.slot? w, kind := k,
                                   begun := false, step := 0, got := [], hand := [], done := false, bad := false } : MOp)] } }).setSlot (WE.slot? w)).modCore
      v.b.core fun c => { c with accs := (s.coreD v.b.core).accs + 1 }).modBlk v.u.blk (·.leaveWait v.u)).uniformEnd v) := by
  unfold acceptM
  simp only [act_bind, act_needA, h, decide_true, if_true, act_modA, act_uDone]
  rfl
/-- What one access of a slot's move does (R281, R356): a read changes nothing in the machine, a write is one engine write of bytes taken, and neither is made through a package without a route. -/
theorem slotStep_cases {s t : State} {x y : SlotBusy} (h : s.slotStep x = some (t, y)) :
    (∃ r rest, x.reads = r :: rest ∧ s.runsHeld [r.run] = false ∧ t = s ∧ y.reads = rest ∧ y.writes = x.writes) ∨
    (∃ r rest bs ps, x.reads = [] ∧ x.writes = r :: rest ∧ s.runsHeld [r.run] = false ∧ t = s.engWrite [r.run] bs ps ∧ y = { x with writes := rest }) ∨
    (x.reads = [] ∧ x.writes = [] ∧ t = s ∧ y = x) := by
  unfold State.slotStep at h
  split at h
  · rename_i r rest hx
    split at h
    · cases h
    · rename_i hh
      simp only [Option.some.injEq, Prod.mk.injEq] at h
      obtain ⟨rfl, rfl⟩ := h
      exact .inl ⟨r, rest, hx, Bool.eq_false_iff.mpr hh, rfl, by split <;> rfl, by split <;> rfl⟩
  · rename_i r rest hx hw
    split at h
    · cases h
    · rename_i hh
      simp only [Option.some.injEq, Prod.mk.injEq] at h
      obtain ⟨rfl, rfl⟩ := h
      exact .inr (.inl ⟨r, rest, _, _, hx, hw, Bool.eq_false_iff.mpr hh, rfl, rfl⟩)
  · rename_i hx hw
    simp only [Option.some.injEq, Prod.mk.injEq] at h
    exact .inr (.inr ⟨hx, hw, h.1.symm, h.2.symm⟩)

end Sys2Proof.Machine
end

