-- ==== Sys2Proof/Laws/Memory.lean ====
section
/-! SUPPORT. Laws of memory: read after write, the canonical form, and what each named operation does to it. -/

namespace Sys2Proof.Machine

theorem memGet_below : ∀ (m : List Host.Cell) (lo k : Nat), memWfFrom lo m = true → k < lo → memGet m k = unlisted
  | [], _, _, _, _ => rfl
  | (a, b) :: r, lo, k, h, hk => by
    simp only [memWfFrom, Bool.and_eq_true, decide_eq_true_eq] at h
    have : k < a := by omega
    simp [memGet, this]

theorem memWfFrom_mono : ∀ (m : List Host.Cell) (lo lo' : Nat), lo' ≤ lo → memWfFrom lo m = true → memWfFrom lo' m = true
  | [], _, _, _, _ => rfl
  | (a, b) :: r, lo, lo', hl, h => by
    simp only [memWfFrom, Bool.and_eq_true, decide_eq_true_eq] at h ⊢
    exact ⟨⟨by omega, h.1.2⟩, h.2⟩

/-- Writing a byte keeps the canonical form. -/
theorem memSet_wfFrom : ∀ (m : List Host.Cell) (lo k : Nat) (v : Byte), memWfFrom lo m = true → lo ≤ k → memWfFrom lo (memSet m k v) = true
  | [], lo, k, v, _, hk => by
    unfold memSet
    split
    · rfl
    · rename_i hv; simp [memWfFrom, hk, hv]
  | (a, b) :: r, lo, k, v, h, hk => by
    have h' := h
    simp only [memWfFrom, Bool.and_eq_true, decide_eq_true_eq] at h'
    unfold memSet
    split
    · rename_i hka
      split
      · exact h
      · rename_i hv
        simp only [memWfFrom, Bool.and_eq_true, decide_eq_true_eq]
        exact ⟨⟨hk, by simpa using hv⟩, ⟨⟨by omega, h'.1.2⟩, h'.2⟩⟩
    · split
      · split
        · exact memWfFrom_mono _ _ _ (by omega) h'.2
        · rename_i hv
          simp only [memWfFrom, Bool.and_eq_true, decide_eq_true_eq]
          refine ⟨⟨hk, by simpa using hv⟩, ?_⟩
          subst_vars
          exact h'.2
      · simp only [memWfFrom, Bool.and_eq_true, decide_eq_true_eq]
        exact ⟨h'.1, memSet_wfFrom r (a + 1) k v h'.2 (by omega)⟩

theorem memSet_wf (m : List Host.Cell) (k : Nat) (v : Byte) (h : memWf m = true) : memWf (memSet m k v) = true :=
  memSet_wfFrom m 0 k v h (Nat.zero_le k)

/-- Writing bytes keeps the canonical form. -/
theorem memWrite_wf : ∀ (bs : List Byte) (m : List Host.Cell) (k : Nat), memWf m = true → memWf (memWrite m k bs) = true
  | [], _, _, h => h
  | b :: bs, m, k, h => memWrite_wf bs _ _ (memSet_wf m k b h)

/-- A byte reads as what was written last, and every other byte as before. -/
theorem memGet_memSet : ∀ (m : List Host.Cell) (lo k j : Nat) (v : Byte), memWfFrom lo m = true →
    memGet (memSet m k v) j = if j = k then v else memGet m j
  | [], lo, k, j, v, _ => by
    unfold memSet
    split
    · rename_i hv; split <;> simp_all [memGet]
    · simp only [memGet]
      rcases Nat.lt_trichotomy j k with h | h | h
      · rw [if_pos h, if_neg (by omega)]
      · subst h; simp
      · rw [if_neg (by omega), if_neg (by omega)]
  | (a, b) :: r, lo, k, j, v, h => by
    have h' := h
    simp only [memWfFrom, Bool.and_eq_true, decide_eq_true_eq] at h'
    have hb : ∀ i, i ≤ a → memGet r i = unlisted := fun i hi => memGet_below r (a + 1) i h'.2 (by omega)
    unfold memSet
    split
    · rename_i hka
      split
      · rename_i hv
        split
        · rename_i hjk; subst hjk; simp [memGet, hka, hv]
        · rfl
      · simp only [memGet]
        rcases Nat.lt_trichotomy j k with h1 | h1 | h1
        · rw [if_pos h1, if_neg (by omega), if_pos (by omega)]
        · subst h1; simp
        · rw [if_neg (by omega), if_neg (by omega)]
    · rename_i hka
      split
      · rename_i hk
        subst hk
        split
        · rename_i hv
          split
          · rename_i hjk; subst hjk; rw [hb j (Nat.le_refl j), hv]
          · simp only [memGet]
            rcases Nat.lt_trichotomy j k with h1 | h1 | h1
            · rw [if_pos h1, hb j (by omega)]
            · omega
            · rw [if_neg (by omega), if_neg (by omega)]
        · simp only [memGet]
          rcases Nat.lt_trichotomy j k with h1 | h1 | h1
          · rw [if_pos h1, if_neg (by omega), if_pos h1]
          · subst h1; simp
          · rw [if_neg (by omega), if_neg (by omega), if_neg (by omega), if_neg (by omega), if_neg (by omega)]
      · rename_i hk
        simp only [memGet]
        rw [memGet_memSet r (a + 1) k j v h'.2]
        by_cases hja : j < a
        · rw [if_pos hja, if_pos hja, if_neg (by omega)]
        · rw [if_neg hja, if_neg hja]
          by_cases h2 : j = a
          · rw [if_pos h2, if_pos h2, if_neg (by omega)]
          · rw [if_neg h2, if_neg h2]

/-- Bytes read as written within a write, and as before outside it. -/
theorem memGet_memWrite : ∀ (bs : List Byte) (m : List Host.Cell) (k j : Nat), memWf m = true →
    memGet (memWrite m k bs) j = if k ≤ j ∧ j < k + bs.length then bs.getD (j - k) 0 else memGet m j
  | [], m, k, j, _ => by simp [memWrite]
  | b :: bs, m, k, j, h => by
    rw [memWrite, memGet_memWrite bs _ _ _ (memSet_wf m k b h), memGet_memSet m 0 k j b h]
    by_cases h1 : j = k
    · subst h1
      rw [if_neg (by omega), if_pos rfl, if_pos (by simp)]
      simp
    · by_cases h2 : k ≤ j ∧ j < k + (b :: bs).length
      · have h3 : k + 1 ≤ j ∧ j < k + 1 + bs.length := by simp at h2; omega
        rw [if_pos h3, if_pos h2]
        have : j - k = (j - (k + 1)) + 1 := by omega
        rw [this]; simp
      · have h3 : ¬ (k + 1 ≤ j ∧ j < k + 1 + bs.length) := by simp at h2; omega
        rw [if_neg h3, if_neg h2, if_neg h1]

/-- Outside a write nothing changes, whatever the memory's form. -/
theorem memGet_memSet_ne : ∀ (m : List Host.Cell) (k j : Nat) (v : Byte), memWf m = true → j ≠ k → memGet (memSet m k v) j = memGet m j := by
  intro m k j v h hj
  rw [memGet_memSet m 0 k j v h, if_neg hj]

theorem memRead_length : ∀ (n : Nat) (m : List Host.Cell) (k : Nat), (memRead m k n).length = n
  | 0, _, _ => rfl
  | n + 1, m, k => by simp [memRead, memRead_length n]

/-- A read sees only the bytes it covers. -/
theorem memRead_congr : ∀ (n : Nat) (m m' : List Host.Cell) (k : Nat), (∀ j, k ≤ j → j < k + n → memGet m j = memGet m' j) →
    memRead m k n = memRead m' k n
  | 0, _, _, _, _ => rfl
  | n + 1, m, m', k, h => by
    rw [memRead, memRead, h k (Nat.le_refl k) (by omega), memRead_congr n m m' (k + 1) fun j h1 h2 => h j (by omega) (by omega)]

/-- Reading back what was written. -/
theorem memRead_memWrite : ∀ (bs : List Byte) (m : List Host.Cell) (k : Nat), memWf m = true → memRead (memWrite m k bs) k bs.length = bs
  | [], _, _, _ => rfl
  | b :: bs, m, k, h => by
    have hw := memSet_wf m k b h
    rw [List.length_cons, memRead, memGet_memWrite (b :: bs) m k k h, if_pos ⟨Nat.le_refl k, by simp⟩]
    simp only [Nat.sub_self, List.getD_cons_zero]
    rw [show memWrite m k (b :: bs) = memWrite (memSet m k b) (k + 1) bs from rfl, memRead_memWrite bs _ _ hw]

/-- Dropping entries keeps the canonical form. -/
theorem filter_wfFrom (p : Host.Cell → Bool) : ∀ (m : List Host.Cell) (lo : Nat), memWfFrom lo m = true → memWfFrom lo (m.filter p) = true
  | [], _, _ => rfl
  | (a, b) :: r, lo, h => by
    simp only [memWfFrom, Bool.and_eq_true, decide_eq_true_eq] at h
    rw [List.filter_cons]
    split
    · simp only [memWfFrom, Bool.and_eq_true, decide_eq_true_eq]
      exact ⟨h.1, filter_wfFrom p r _ h.2⟩
    · exact memWfFrom_mono _ _ _ (by omega) (filter_wfFrom p r _ h.2)
theorem filter_wf (p : Host.Cell → Bool) (m : List Host.Cell) (h : memWf m = true) : memWf (m.filter p) = true := filter_wfFrom p m 0 h

/-! ## The named operations -/

theorem wr_mem (s : State) (k : Nat) (bs : List Byte) : (s.wr k bs).mem = memWrite s.mem k bs := rfl
theorem wr_wf (s : State) (k : Nat) (bs : List Byte) (h : memWf s.mem = true) : memWf (s.wr k bs).mem = true := memWrite_wf bs s.mem k h
@[simp] theorem markGran_mem (s : State) (k n : Nat) : (s.markGran k n).mem = s.mem := by unfold State.markGran; split <;> rfl
@[simp] theorem markWord_mem (s : State) (k : Nat) : (s.markWord k).mem = s.mem := rfl
@[simp] theorem markErr_mem (s : State) (k : Nat) (ps : List Bool) : (s.markErr k ps).mem = s.mem := rfl
theorem foldl_mem {α : Type} (f : State → α → State) (hf : ∀ s a, (f s a).mem = s.mem) : ∀ (l : List α) (s : State), (l.foldl f s).mem = s.mem
  | [], _ => rfl
  | a :: l, s => by rw [List.foldl_cons, foldl_mem f hf l, hf]
/-- A fold of steps that keep the canonical form keeps it. -/
theorem foldl_wf {α : Type} (f : State → α → State) (hf : ∀ s a, memWf s.mem = true → memWf (f s a).mem = true) :
    ∀ (l : List α) (s : State), memWf s.mem = true → memWf (l.foldl f s).mem = true
  | [], _, h => h
  | a :: l, s, h => foldl_wf f hf l _ (hf s a h)
@[simp] theorem wrPsn_mem (s : State) (k : Nat) (bs : List Byte) (ps : List Bool) : (s.wrPsn k bs ps).mem = memWrite s.mem k bs := rfl
theorem wrPsn_wf (s : State) (k : Nat) (bs : List Byte) (ps : List Bool) (h : memWf s.mem = true) : memWf (s.wrPsn k bs ps).mem = true := by
  rw [wrPsn_mem]; exact memWrite_wf bs s.mem k h
/-- The pieces of one write keep the canonical form. -/
theorem foldl_memWrite_wf : ∀ (ps : List (Nat × List Byte)) (m : List Host.Cell), memWf m = true → memWf (ps.foldl (fun m p => memWrite m p.1 p.2) m) = true
  | [], _, h => h
  | p :: ps, m, h => foldl_memWrite_wf ps _ (memWrite_wf p.2 m p.1 h)
theorem wrMany_wf (s : State) (ps : List (Nat × List Byte)) (h : memWf s.mem = true) : memWf (s.wrMany ps).mem = true := foldl_memWrite_wf ps s.mem h
theorem wrPsnMany_wf (s : State) (ps : List (Nat × List Byte × List Bool)) (h : memWf s.mem = true) : memWf (s.wrPsnMany ps).mem = true := by
  unfold State.wrPsnMany
  rw [foldl_mem _ fun s p => markErr_mem s _ _]
  exact wrMany_wf s _ h
theorem putBytes_wf (s : State) (k : Nat) (bs : List Byte) (h : memWf s.mem = true) : memWf (s.putBytes k bs).mem = true := memWrite_wf bs s.mem k h
theorem takeRegion_wf (s : State) (c : Nat) (h : memWf s.mem = true) : memWf (s.takeRegion c).mem = true := filter_wf _ s.mem h
theorem dropRegion_wf (s : State) (c : Nat) (h : memWf s.mem = true) : memWf (s.dropRegion c).mem = true := filter_wf _ s.mem h
/-- Reading a state's bytes back after a write. -/
theorem rd_wr (s : State) (k : Nat) (bs : List Byte) (h : memWf s.mem = true) : (s.wr k bs).rd k bs.length = bs := memRead_memWrite bs s.mem k h
/-- A write leaves every byte outside it alone. -/
theorem wr_frame (s : State) (k j : Nat) (bs : List Byte) (h : memWf s.mem = true) (hj : j < k ∨ k + bs.length ≤ j) :
    memGet (s.wr k bs).mem j = memGet s.mem j := by
  rw [wr_mem, memGet_memWrite bs s.mem k j h, if_neg (by omega)]

theorem reset_wf : memWf State.reset.mem = true := rfl

/-- No bind waits in a thread: none leaves. -/
theorem bindsLeave_none {s : State} (h : s.hpath = []) : s.bindsLeave = s := by unfold State.bindsLeave; rw [h]; rfl
/-- Binds that leave change the channels and the list of those that wait, and nothing else. -/
theorem bindsLeave_frame (s : State) : ∃ h p, s.bindsLeave = { s with hc := h, hpath := p } := by
  have go : ∀ (l : List PathMsg) (t : State), (∃ h p, t = { s with hc := h, hpath := p }) →
      ∃ h p, l.foldl (fun s q => if s.preDone q.pre && !pathHolds s.hpath q.u q.lanes q.m.home q.id then { s with hc := s.hc ++ [q.m], hpath := s.hpath.filter (·.id != q.id) } else s) t
        = { s with hc := h, hpath := p } := by
    intro l
    induction l with
    | nil => exact fun _ h => h
    | cons q r ih =>
      rintro t ⟨h, p, rfl⟩
      refine ih _ ?_
      dsimp only
      split <;> exact ⟨_, _, rfl⟩
  exact go s.hpath s ⟨s.hc, s.hpath, rfl⟩

end Sys2Proof.Machine
end

