-- ==== Sys2Proof/Laws/State.lean ====
section
/-! SUPPORT. What the updates of a state leave alone: one lemma per field and update. -/

namespace Sys2Proof.Machine

variable (s : State)

@[simp] theorem modBlk_agenda (u : Nat) (f : Block → Block) : (s.modBlk u f).agenda = s.agenda := rfl
@[simp] theorem modBlk_cur (u : Nat) (f : Block → Block) : (s.modBlk u f).cur = s.cur := rfl
@[simp] theorem modBlk_curCore (u : Nat) (f : Block → Block) : (s.modBlk u f).curCore = s.curCore := rfl
@[simp] theorem modBlk_mem (u : Nat) (f : Block → Block) : (s.modBlk u f).mem = s.mem := rfl
@[simp] theorem modBlk_granErr (u : Nat) (f : Block → Block) : (s.modBlk u f).granErr = s.granErr := rfl
@[simp] theorem modBlk_wordPsn (u : Nat) (f : Block → Block) : (s.modBlk u f).wordPsn = s.wordPsn := rfl
@[simp] theorem modBlk_wordErr (u : Nat) (f : Block → Block) : (s.modBlk u f).wordErr = s.wordErr := rfl
@[simp] theorem modBlk_grids (u : Nat) (f : Block → Block) : (s.modBlk u f).grids = s.grids := rfl
@[simp] theorem modBlk_chans (u : Nat) (f : Block → Block) : (s.modBlk u f).chans = s.chans := rfl
@[simp] theorem modBlk_cbars (u : Nat) (f : Block → Block) : (s.modBlk u f).cbars = s.cbars := rfl
@[simp] theorem modBlk_oc (u : Nat) (f : Block → Block) : (s.modBlk u f).oc = s.oc := rfl
@[simp] theorem modBlk_hc (u : Nat) (f : Block → Block) : (s.modBlk u f).hc = s.hc := rfl
@[simp] theorem modBlk_hpath (u : Nat) (f : Block → Block) : (s.modBlk u f).hpath = s.hpath := rfl
@[simp] theorem modBlk_fills (u : Nat) (f : Block → Block) : (s.modBlk u f).fills = s.fills := rfl
@[simp] theorem modBlk_jobs (u : Nat) (f : Block → Block) : (s.modBlk u f).jobs = s.jobs := rfl
@[simp] theorem modBlk_colls (u : Nat) (f : Block → Block) : (s.modBlk u f).colls = s.colls := rfl
@[simp] theorem modBlk_cores (u : Nat) (f : Block → Block) : (s.modBlk u f).cores = s.cores := rfl
@[simp] theorem modBlk_parts (u : Nat) (f : Block → Block) : (s.modBlk u f).parts = s.parts := rfl
@[simp] theorem modBlk_ctxs (u : Nat) (f : Block → Block) : (s.modBlk u f).ctxs = s.ctxs := rfl
@[simp] theorem modBlk_queues (u : Nat) (f : Block → Block) : (s.modBlk u f).queues = s.queues := rfl
@[simp] theorem modBlk_slotWait (u : Nat) (f : Block → Block) : (s.modBlk u f).slotWait = s.slotWait := rfl
@[simp] theorem modBlk_turn (u : Nat) (f : Block → Block) : (s.modBlk u f).turn = s.turn := rfl
@[simp] theorem modBlk_cqPend (u : Nat) (f : Block → Block) : (s.modBlk u f).cqPend = s.cqPend := rfl
@[simp] theorem modBlk_cqs (u : Nat) (f : Block → Block) : (s.modBlk u f).cqs = s.cqs := rfl
@[simp] theorem modBlk_returns (u : Nat) (f : Block → Block) : (s.modBlk u f).returns = s.returns := rfl
@[simp] theorem modBlk_notifyPg (u : Nat) (f : Block → Block) : (s.modBlk u f).notifyPg = s.notifyPg := rfl
@[simp] theorem modBlk_msix (u : Nat) (f : Block → Block) : (s.modBlk u f).msix = s.msix := rfl
@[simp] theorem modBlk_hostErr (u : Nat) (f : Block → Block) : (s.modBlk u f).hostErr = s.hostErr := rfl
@[simp] theorem modBlk_pkg (u : Nat) (f : Block → Block) : (s.modBlk u f).pkg = s.pkg := rfl
@[simp] theorem modBlk_numbered (u : Nat) (f : Block → Block) : (s.modBlk u f).numbered = s.numbered := rfl
@[simp] theorem modBlk_lost (u : Nat) (f : Block → Block) : (s.modBlk u f).lost = s.lost := rfl
@[simp] theorem modBlk_timedOut (u : Nat) (f : Block → Block) : (s.modBlk u f).timedOut = s.timedOut := rfl
@[simp] theorem modBlk_linkReplays (u : Nat) (f : Block → Block) : (s.modBlk u f).linkReplays = s.linkReplays := rfl
@[simp] theorem modBlk_linkDrops (u : Nat) (f : Block → Block) : (s.modBlk u f).linkDrops = s.linkDrops := rfl
@[simp] theorem modBlk_bar4Base (u : Nat) (f : Block → Block) : (s.modBlk u f).bar4Base = s.bar4Base := rfl
@[simp] theorem modBlk_domPeers (u : Nat) (f : Block → Block) : (s.modBlk u f).domPeers = s.domPeers := rfl
@[simp] theorem modBlk_invReg (u : Nat) (f : Block → Block) : (s.modBlk u f).invReg = s.invReg := rfl
@[simp] theorem modBlk_invBusy (u : Nat) (f : Block → Block) : (s.modBlk u f).invBusy = s.invBusy := rfl
@[simp] theorem modBlk_invOvr (u : Nat) (f : Block → Block) : (s.modBlk u f).invOvr = s.invOvr := rfl
@[simp] theorem modBlk_flashBox (u : Nat) (f : Block → Block) : (s.modBlk u f).flashBox = s.flashBox := rfl
@[simp] theorem modBlk_flashW (u : Nat) (f : Block → Block) : (s.modBlk u f).flashW = s.flashW := rfl
@[simp] theorem modBlk_flashDone (u : Nat) (f : Block → Block) : (s.modBlk u f).flashDone = s.flashDone := rfl
@[simp] theorem modBlk_dbgHaltW (u : Nat) (f : Block → Block) : (s.modBlk u f).dbgHaltW = s.dbgHaltW := rfl
@[simp] theorem modBlk_dbgResumeW (u : Nat) (f : Block → Block) : (s.modBlk u f).dbgResumeW = s.dbgResumeW := rfl
@[simp] theorem modBlk_booted (u : Nat) (f : Block → Block) : (s.modBlk u f).booted = s.booted := rfl
@[simp] theorem modBlk_released (u : Nat) (f : Block → Block) : (s.modBlk u f).released = s.released := rfl
@[simp] theorem modBlk_bootFail (u : Nat) (f : Block → Block) : (s.modBlk u f).bootFail = s.bootFail := rfl
@[simp] theorem modBlk_lifeCycle (u : Nat) (f : Block → Block) : (s.modBlk u f).lifeCycle = s.lifeCycle := rfl
@[simp] theorem modBlk_lifeReq (u : Nat) (f : Block → Block) : (s.modBlk u f).lifeReq = s.lifeReq := rfl
@[simp] theorem modBlk_measures (u : Nat) (f : Block → Block) : (s.modBlk u f).measures = s.measures := rfl
@[simp] theorem modBlk_attReport (u : Nat) (f : Block → Block) : (s.modBlk u f).attReport = s.attReport := rfl
@[simp] theorem modBlk_wdReported (u : Nat) (f : Block → Block) : (s.modBlk u f).wdReported = s.wdReported := rfl
@[simp] theorem modBlk_wdMissed (u : Nat) (f : Block → Block) : (s.modBlk u f).wdMissed = s.wdMissed := rfl
@[simp] theorem modBlk_dieS (u : Nat) (f : Block → Block) : (s.modBlk u f).dieS = s.dieS := rfl
@[simp] theorem modBlk_hbmS (u : Nat) (f : Block → Block) : (s.modBlk u f).hbmS = s.hbmS := rfl
@[simp] theorem modBlk_throttleLog (u : Nat) (f : Block → Block) : (s.modBlk u f).throttleLog = s.throttleLog := rfl
@[simp] theorem modBlk_nextId (u : Nat) (f : Block → Block) : (s.modBlk u f).nextId = s.nextId := rfl
@[simp] theorem modBlk_nextUid (u : Nat) (f : Block → Block) : (s.modBlk u f).nextUid = s.nextUid := rfl
@[simp] theorem modBlk_nextAdm (u : Nat) (f : Block → Block) : (s.modBlk u f).nextAdm = s.nextAdm := rfl
@[simp] theorem modBlk_tick (u : Nat) (f : Block → Block) : (s.modBlk u f).tick = s.tick := rfl

@[simp] theorem modGrp_agenda (u : UnitRef) (f : Grp → Grp) : (s.modGrp u f).agenda = s.agenda := rfl
@[simp] theorem modGrp_cur (u : UnitRef) (f : Grp → Grp) : (s.modGrp u f).cur = s.cur := rfl
@[simp] theorem modGrp_curCore (u : UnitRef) (f : Grp → Grp) : (s.modGrp u f).curCore = s.curCore := rfl
@[simp] theorem modGrp_mem (u : UnitRef) (f : Grp → Grp) : (s.modGrp u f).mem = s.mem := rfl
@[simp] theorem modGrp_granErr (u : UnitRef) (f : Grp → Grp) : (s.modGrp u f).granErr = s.granErr := rfl
@[simp] theorem modGrp_wordPsn (u : UnitRef) (f : Grp → Grp) : (s.modGrp u f).wordPsn = s.wordPsn := rfl
@[simp] theorem modGrp_wordErr (u : UnitRef) (f : Grp → Grp) : (s.modGrp u f).wordErr = s.wordErr := rfl
@[simp] theorem modGrp_grids (u : UnitRef) (f : Grp → Grp) : (s.modGrp u f).grids = s.grids := rfl
@[simp] theorem modGrp_chans (u : UnitRef) (f : Grp → Grp) : (s.modGrp u f).chans = s.chans := rfl
@[simp] theorem modGrp_cbars (u : UnitRef) (f : Grp → Grp) : (s.modGrp u f).cbars = s.cbars := rfl
@[simp] theorem modGrp_oc (u : UnitRef) (f : Grp → Grp) : (s.modGrp u f).oc = s.oc := rfl
@[simp] theorem modGrp_hc (u : UnitRef) (f : Grp → Grp) : (s.modGrp u f).hc = s.hc := rfl
@[simp] theorem modGrp_hpath (u : UnitRef) (f : Grp → Grp) : (s.modGrp u f).hpath = s.hpath := rfl
@[simp] theorem modGrp_fills (u : UnitRef) (f : Grp → Grp) : (s.modGrp u f).fills = s.fills := rfl
@[simp] theorem modGrp_jobs (u : UnitRef) (f : Grp → Grp) : (s.modGrp u f).jobs = s.jobs := rfl
@[simp] theorem modGrp_colls (u : UnitRef) (f : Grp → Grp) : (s.modGrp u f).colls = s.colls := rfl
@[simp] theorem modGrp_cores (u : UnitRef) (f : Grp → Grp) : (s.modGrp u f).cores = s.cores := rfl
@[simp] theorem modGrp_parts (u : UnitRef) (f : Grp → Grp) : (s.modGrp u f).parts = s.parts := rfl
@[simp] theorem modGrp_ctxs (u : UnitRef) (f : Grp → Grp) : (s.modGrp u f).ctxs = s.ctxs := rfl
@[simp] theorem modGrp_queues (u : UnitRef) (f : Grp → Grp) : (s.modGrp u f).queues = s.queues := rfl
@[simp] theorem modGrp_slotWait (u : UnitRef) (f : Grp → Grp) : (s.modGrp u f).slotWait = s.slotWait := rfl
@[simp] theorem modGrp_turn (u : UnitRef) (f : Grp → Grp) : (s.modGrp u f).turn = s.turn := rfl
@[simp] theorem modGrp_cqPend (u : UnitRef) (f : Grp → Grp) : (s.modGrp u f).cqPend = s.cqPend := rfl
@[simp] theorem modGrp_cqs (u : UnitRef) (f : Grp → Grp) : (s.modGrp u f).cqs = s.cqs := rfl
@[simp] theorem modGrp_returns (u : UnitRef) (f : Grp → Grp) : (s.modGrp u f).returns = s.returns := rfl
@[simp] theorem modGrp_notifyPg (u : UnitRef) (f : Grp → Grp) : (s.modGrp u f).notifyPg = s.notifyPg := rfl
@[simp] theorem modGrp_msix (u : UnitRef) (f : Grp → Grp) : (s.modGrp u f).msix = s.msix := rfl
@[simp] theorem modGrp_hostErr (u : UnitRef) (f : Grp → Grp) : (s.modGrp u f).hostErr = s.hostErr := rfl
@[simp] theorem modGrp_pkg (u : UnitRef) (f : Grp → Grp) : (s.modGrp u f).pkg = s.pkg := rfl
@[simp] theorem modGrp_numbered (u : UnitRef) (f : Grp → Grp) : (s.modGrp u f).numbered = s.numbered := rfl
@[simp] theorem modGrp_lost (u : UnitRef) (f : Grp → Grp) : (s.modGrp u f).lost = s.lost := rfl
@[simp] theorem modGrp_timedOut (u : UnitRef) (f : Grp → Grp) : (s.modGrp u f).timedOut = s.timedOut := rfl
@[simp] theorem modGrp_linkReplays (u : UnitRef) (f : Grp → Grp) : (s.modGrp u f).linkReplays = s.linkReplays := rfl
@[simp] theorem modGrp_linkDrops (u : UnitRef) (f : Grp → Grp) : (s.modGrp u f).linkDrops = s.linkDrops := rfl
@[simp] theorem modGrp_bar4Base (u : UnitRef) (f : Grp → Grp) : (s.modGrp u f).bar4Base = s.bar4Base := rfl
@[simp] theorem modGrp_domPeers (u : UnitRef) (f : Grp → Grp) : (s.modGrp u f).domPeers = s.domPeers := rfl
@[simp] theorem modGrp_invReg (u : UnitRef) (f : Grp → Grp) : (s.modGrp u f).invReg = s.invReg := rfl
@[simp] theorem modGrp_invBusy (u : UnitRef) (f : Grp → Grp) : (s.modGrp u f).invBusy = s.invBusy := rfl
@[simp] theorem modGrp_invOvr (u : UnitRef) (f : Grp → Grp) : (s.modGrp u f).invOvr = s.invOvr := rfl
@[simp] theorem modGrp_flashBox (u : UnitRef) (f : Grp → Grp) : (s.modGrp u f).flashBox = s.flashBox := rfl
@[simp] theorem modGrp_flashW (u : UnitRef) (f : Grp → Grp) : (s.modGrp u f).flashW = s.flashW := rfl
@[simp] theorem modGrp_flashDone (u : UnitRef) (f : Grp → Grp) : (s.modGrp u f).flashDone = s.flashDone := rfl
@[simp] theorem modGrp_dbgHaltW (u : UnitRef) (f : Grp → Grp) : (s.modGrp u f).dbgHaltW = s.dbgHaltW := rfl
@[simp] theorem modGrp_dbgResumeW (u : UnitRef) (f : Grp → Grp) : (s.modGrp u f).dbgResumeW = s.dbgResumeW := rfl
@[simp] theorem modGrp_booted (u : UnitRef) (f : Grp → Grp) : (s.modGrp u f).booted = s.booted := rfl
@[simp] theorem modGrp_released (u : UnitRef) (f : Grp → Grp) : (s.modGrp u f).released = s.released := rfl
@[simp] theorem modGrp_bootFail (u : UnitRef) (f : Grp → Grp) : (s.modGrp u f).bootFail = s.bootFail := rfl
@[simp] theorem modGrp_lifeCycle (u : UnitRef) (f : Grp → Grp) : (s.modGrp u f).lifeCycle = s.lifeCycle := rfl
@[simp] theorem modGrp_lifeReq (u : UnitRef) (f : Grp → Grp) : (s.modGrp u f).lifeReq = s.lifeReq := rfl
@[simp] theorem modGrp_measures (u : UnitRef) (f : Grp → Grp) : (s.modGrp u f).measures = s.measures := rfl
@[simp] theorem modGrp_attReport (u : UnitRef) (f : Grp → Grp) : (s.modGrp u f).attReport = s.attReport := rfl
@[simp] theorem modGrp_wdReported (u : UnitRef) (f : Grp → Grp) : (s.modGrp u f).wdReported = s.wdReported := rfl
@[simp] theorem modGrp_wdMissed (u : UnitRef) (f : Grp → Grp) : (s.modGrp u f).wdMissed = s.wdMissed := rfl
@[simp] theorem modGrp_dieS (u : UnitRef) (f : Grp → Grp) : (s.modGrp u f).dieS = s.dieS := rfl
@[simp] theorem modGrp_hbmS (u : UnitRef) (f : Grp → Grp) : (s.modGrp u f).hbmS = s.hbmS := rfl
@[simp] theorem modGrp_throttleLog (u : UnitRef) (f : Grp → Grp) : (s.modGrp u f).throttleLog = s.throttleLog := rfl
@[simp] theorem modGrp_nextId (u : UnitRef) (f : Grp → Grp) : (s.modGrp u f).nextId = s.nextId := rfl
@[simp] theorem modGrp_nextUid (u : UnitRef) (f : Grp → Grp) : (s.modGrp u f).nextUid = s.nextUid := rfl
@[simp] theorem modGrp_nextAdm (u : UnitRef) (f : Grp → Grp) : (s.modGrp u f).nextAdm = s.nextAdm := rfl
@[simp] theorem modGrp_tick (u : UnitRef) (f : Grp → Grp) : (s.modGrp u f).tick = s.tick := rfl

@[simp] theorem modThread_agenda (u : UnitRef) (l : Nat) (f : Thread → Thread) : (s.modThread u l f).agenda = s.agenda := rfl
@[simp] theorem modThread_cur (u : UnitRef) (l : Nat) (f : Thread → Thread) : (s.modThread u l f).cur = s.cur := rfl
@[simp] theorem modThread_curCore (u : UnitRef) (l : Nat) (f : Thread → Thread) : (s.modThread u l f).curCore = s.curCore := rfl
@[simp] theorem modThread_mem (u : UnitRef) (l : Nat) (f : Thread → Thread) : (s.modThread u l f).mem = s.mem := rfl
@[simp] theorem modThread_granErr (u : UnitRef) (l : Nat) (f : Thread → Thread) : (s.modThread u l f).granErr = s.granErr := rfl
@[simp] theorem modThread_wordPsn (u : UnitRef) (l : Nat) (f : Thread → Thread) : (s.modThread u l f).wordPsn = s.wordPsn := rfl
@[simp] theorem modThread_wordErr (u : UnitRef) (l : Nat) (f : Thread → Thread) : (s.modThread u l f).wordErr = s.wordErr := rfl
@[simp] theorem modThread_grids (u : UnitRef) (l : Nat) (f : Thread → Thread) : (s.modThread u l f).grids = s.grids := rfl
@[simp] theorem modThread_chans (u : UnitRef) (l : Nat) (f : Thread → Thread) : (s.modThread u l f).chans = s.chans := rfl
@[simp] theorem modThread_cbars (u : UnitRef) (l : Nat) (f : Thread → Thread) : (s.modThread u l f).cbars = s.cbars := rfl
@[simp] theorem modThread_oc (u : UnitRef) (l : Nat) (f : Thread → Thread) : (s.modThread u l f).oc = s.oc := rfl
@[simp] theorem modThread_hc (u : UnitRef) (l : Nat) (f : Thread → Thread) : (s.modThread u l f).hc = s.hc := rfl
@[simp] theorem modThread_hpath (u : UnitRef) (l : Nat) (f : Thread → Thread) : (s.modThread u l f).hpath = s.hpath := rfl
@[simp] theorem modThread_fills (u : UnitRef) (l : Nat) (f : Thread → Thread) : (s.modThread u l f).fills = s.fills := rfl
@[simp] theorem modThread_jobs (u : UnitRef) (l : Nat) (f : Thread → Thread) : (s.modThread u l f).jobs = s.jobs := rfl
@[simp] theorem modThread_colls (u : UnitRef) (l : Nat) (f : Thread → Thread) : (s.modThread u l f).colls = s.colls := rfl
@[simp] theorem modThread_cores (u : UnitRef) (l : Nat) (f : Thread → Thread) : (s.modThread u l f).cores = s.cores := rfl
@[simp] theorem modThread_parts (u : UnitRef) (l : Nat) (f : Thread → Thread) : (s.modThread u l f).parts = s.parts := rfl
@[simp] theorem modThread_ctxs (u : UnitRef) (l : Nat) (f : Thread → Thread) : (s.modThread u l f).ctxs = s.ctxs := rfl
@[simp] theorem modThread_queues (u : UnitRef) (l : Nat) (f : Thread → Thread) : (s.modThread u l f).queues = s.queues := rfl
@[simp] theorem modThread_slotWait (u : UnitRef) (l : Nat) (f : Thread → Thread) : (s.modThread u l f).slotWait = s.slotWait := rfl
@[simp] theorem modThread_turn (u : UnitRef) (l : Nat) (f : Thread → Thread) : (s.modThread u l f).turn = s.turn := rfl
@[simp] theorem modThread_cqPend (u : UnitRef) (l : Nat) (f : Thread → Thread) : (s.modThread u l f).cqPend = s.cqPend := rfl
@[simp] theorem modThread_cqs (u : UnitRef) (l : Nat) (f : Thread → Thread) : (s.modThread u l f).cqs = s.cqs := rfl
@[simp] theorem modThread_returns (u : UnitRef) (l : Nat) (f : Thread → Thread) : (s.modThread u l f).returns = s.returns := rfl
@[simp] theorem modThread_notifyPg (u : UnitRef) (l : Nat) (f : Thread → Thread) : (s.modThread u l f).notifyPg = s.notifyPg := rfl
@[simp] theorem modThread_msix (u : UnitRef) (l : Nat) (f : Thread → Thread) : (s.modThread u l f).msix = s.msix := rfl
@[simp] theorem modThread_hostErr (u : UnitRef) (l : Nat) (f : Thread → Thread) : (s.modThread u l f).hostErr = s.hostErr := rfl
@[simp] theorem modThread_pkg (u : UnitRef) (l : Nat) (f : Thread → Thread) : (s.modThread u l f).pkg = s.pkg := rfl
@[simp] theorem modThread_numbered (u : UnitRef) (l : Nat) (f : Thread → Thread) : (s.modThread u l f).numbered = s.numbered := rfl
@[simp] theorem modThread_lost (u : UnitRef) (l : Nat) (f : Thread → Thread) : (s.modThread u l f).lost = s.lost := rfl
@[simp] theorem modThread_timedOut (u : UnitRef) (l : Nat) (f : Thread → Thread) : (s.modThread u l f).timedOut = s.timedOut := rfl
@[simp] theorem modThread_linkReplays (u : UnitRef) (l : Nat) (f : Thread → Thread) : (s.modThread u l f).linkReplays = s.linkReplays := rfl
@[simp] theorem modThread_linkDrops (u : UnitRef) (l : Nat) (f : Thread → Thread) : (s.modThread u l f).linkDrops = s.linkDrops := rfl
@[simp] theorem modThread_bar4Base (u : UnitRef) (l : Nat) (f : Thread → Thread) : (s.modThread u l f).bar4Base = s.bar4Base := rfl
@[simp] theorem modThread_domPeers (u : UnitRef) (l : Nat) (f : Thread → Thread) : (s.modThread u l f).domPeers = s.domPeers := rfl
@[simp] theorem modThread_invReg (u : UnitRef) (l : Nat) (f : Thread → Thread) : (s.modThread u l f).invReg = s.invReg := rfl
@[simp] theorem modThread_invBusy (u : UnitRef) (l : Nat) (f : Thread → Thread) : (s.modThread u l f).invBusy = s.invBusy := rfl
@[simp] theorem modThread_invOvr (u : UnitRef) (l : Nat) (f : Thread → Thread) : (s.modThread u l f).invOvr = s.invOvr := rfl
@[simp] theorem modThread_flashBox (u : UnitRef) (l : Nat) (f : Thread → Thread) : (s.modThread u l f).flashBox = s.flashBox := rfl
@[simp] theorem modThread_flashW (u : UnitRef) (l : Nat) (f : Thread → Thread) : (s.modThread u l f).flashW = s.flashW := rfl
@[simp] theorem modThread_flashDone (u : UnitRef) (l : Nat) (f : Thread → Thread) : (s.modThread u l f).flashDone = s.flashDone := rfl
@[simp] theorem modThread_dbgHaltW (u : UnitRef) (l : Nat) (f : Thread → Thread) : (s.modThread u l f).dbgHaltW = s.dbgHaltW := rfl
@[simp] theorem modThread_dbgResumeW (u : UnitRef) (l : Nat) (f : Thread → Thread) : (s.modThread u l f).dbgResumeW = s.dbgResumeW := rfl
@[simp] theorem modThread_booted (u : UnitRef) (l : Nat) (f : Thread → Thread) : (s.modThread u l f).booted = s.booted := rfl
@[simp] theorem modThread_released (u : UnitRef) (l : Nat) (f : Thread → Thread) : (s.modThread u l f).released = s.released := rfl
@[simp] theorem modThread_bootFail (u : UnitRef) (l : Nat) (f : Thread → Thread) : (s.modThread u l f).bootFail = s.bootFail := rfl
@[simp] theorem modThread_lifeCycle (u : UnitRef) (l : Nat) (f : Thread → Thread) : (s.modThread u l f).lifeCycle = s.lifeCycle := rfl
@[simp] theorem modThread_lifeReq (u : UnitRef) (l : Nat) (f : Thread → Thread) : (s.modThread u l f).lifeReq = s.lifeReq := rfl
@[simp] theorem modThread_measures (u : UnitRef) (l : Nat) (f : Thread → Thread) : (s.modThread u l f).measures = s.measures := rfl
@[simp] theorem modThread_attReport (u : UnitRef) (l : Nat) (f : Thread → Thread) : (s.modThread u l f).attReport = s.attReport := rfl
@[simp] theorem modThread_wdReported (u : UnitRef) (l : Nat) (f : Thread → Thread) : (s.modThread u l f).wdReported = s.wdReported := rfl
@[simp] theorem modThread_wdMissed (u : UnitRef) (l : Nat) (f : Thread → Thread) : (s.modThread u l f).wdMissed = s.wdMissed := rfl
@[simp] theorem modThread_dieS (u : UnitRef) (l : Nat) (f : Thread → Thread) : (s.modThread u l f).dieS = s.dieS := rfl
@[simp] theorem modThread_hbmS (u : UnitRef) (l : Nat) (f : Thread → Thread) : (s.modThread u l f).hbmS = s.hbmS := rfl
@[simp] theorem modThread_throttleLog (u : UnitRef) (l : Nat) (f : Thread → Thread) : (s.modThread u l f).throttleLog = s.throttleLog := rfl
@[simp] theorem modThread_nextId (u : UnitRef) (l : Nat) (f : Thread → Thread) : (s.modThread u l f).nextId = s.nextId := rfl
@[simp] theorem modThread_nextUid (u : UnitRef) (l : Nat) (f : Thread → Thread) : (s.modThread u l f).nextUid = s.nextUid := rfl
@[simp] theorem modThread_nextAdm (u : UnitRef) (l : Nat) (f : Thread → Thread) : (s.modThread u l f).nextAdm = s.nextAdm := rfl
@[simp] theorem modThread_tick (u : UnitRef) (l : Nat) (f : Thread → Thread) : (s.modThread u l f).tick = s.tick := rfl

@[simp] theorem modGrid_agenda (g : Nat) (f : Grid → Grid) : (s.modGrid g f).agenda = s.agenda := rfl
@[simp] theorem modGrid_cur (g : Nat) (f : Grid → Grid) : (s.modGrid g f).cur = s.cur := rfl
@[simp] theorem modGrid_curCore (g : Nat) (f : Grid → Grid) : (s.modGrid g f).curCore = s.curCore := rfl
@[simp] theorem modGrid_mem (g : Nat) (f : Grid → Grid) : (s.modGrid g f).mem = s.mem := rfl
@[simp] theorem modGrid_granErr (g : Nat) (f : Grid → Grid) : (s.modGrid g f).granErr = s.granErr := rfl
@[simp] theorem modGrid_wordPsn (g : Nat) (f : Grid → Grid) : (s.modGrid g f).wordPsn = s.wordPsn := rfl
@[simp] theorem modGrid_wordErr (g : Nat) (f : Grid → Grid) : (s.modGrid g f).wordErr = s.wordErr := rfl
@[simp] theorem modGrid_blocks (g : Nat) (f : Grid → Grid) : (s.modGrid g f).blocks = s.blocks := rfl
@[simp] theorem modGrid_chans (g : Nat) (f : Grid → Grid) : (s.modGrid g f).chans = s.chans := rfl
@[simp] theorem modGrid_cbars (g : Nat) (f : Grid → Grid) : (s.modGrid g f).cbars = s.cbars := rfl
@[simp] theorem modGrid_oc (g : Nat) (f : Grid → Grid) : (s.modGrid g f).oc = s.oc := rfl
@[simp] theorem modGrid_hc (g : Nat) (f : Grid → Grid) : (s.modGrid g f).hc = s.hc := rfl
@[simp] theorem modGrid_hpath (g : Nat) (f : Grid → Grid) : (s.modGrid g f).hpath = s.hpath := rfl
@[simp] theorem modGrid_fills (g : Nat) (f : Grid → Grid) : (s.modGrid g f).fills = s.fills := rfl
@[simp] theorem modGrid_jobs (g : Nat) (f : Grid → Grid) : (s.modGrid g f).jobs = s.jobs := rfl
@[simp] theorem modGrid_colls (g : Nat) (f : Grid → Grid) : (s.modGrid g f).colls = s.colls := rfl
@[simp] theorem modGrid_cores (g : Nat) (f : Grid → Grid) : (s.modGrid g f).cores = s.cores := rfl
@[simp] theorem modGrid_parts (g : Nat) (f : Grid → Grid) : (s.modGrid g f).parts = s.parts := rfl
@[simp] theorem modGrid_ctxs (g : Nat) (f : Grid → Grid) : (s.modGrid g f).ctxs = s.ctxs := rfl
@[simp] theorem modGrid_queues (g : Nat) (f : Grid → Grid) : (s.modGrid g f).queues = s.queues := rfl
@[simp] theorem modGrid_slotWait (g : Nat) (f : Grid → Grid) : (s.modGrid g f).slotWait = s.slotWait := rfl
@[simp] theorem modGrid_turn (g : Nat) (f : Grid → Grid) : (s.modGrid g f).turn = s.turn := rfl
@[simp] theorem modGrid_cqPend (g : Nat) (f : Grid → Grid) : (s.modGrid g f).cqPend = s.cqPend := rfl
@[simp] theorem modGrid_cqs (g : Nat) (f : Grid → Grid) : (s.modGrid g f).cqs = s.cqs := rfl
@[simp] theorem modGrid_returns (g : Nat) (f : Grid → Grid) : (s.modGrid g f).returns = s.returns := rfl
@[simp] theorem modGrid_notifyPg (g : Nat) (f : Grid → Grid) : (s.modGrid g f).notifyPg = s.notifyPg := rfl
@[simp] theorem modGrid_msix (g : Nat) (f : Grid → Grid) : (s.modGrid g f).msix = s.msix := rfl
@[simp] theorem modGrid_hostErr (g : Nat) (f : Grid → Grid) : (s.modGrid g f).hostErr = s.hostErr := rfl
@[simp] theorem modGrid_pkg (g : Nat) (f : Grid → Grid) : (s.modGrid g f).pkg = s.pkg := rfl
@[simp] theorem modGrid_numbered (g : Nat) (f : Grid → Grid) : (s.modGrid g f).numbered = s.numbered := rfl
@[simp] theorem modGrid_lost (g : Nat) (f : Grid → Grid) : (s.modGrid g f).lost = s.lost := rfl
@[simp] theorem modGrid_timedOut (g : Nat) (f : Grid → Grid) : (s.modGrid g f).timedOut = s.timedOut := rfl
@[simp] theorem modGrid_linkReplays (g : Nat) (f : Grid → Grid) : (s.modGrid g f).linkReplays = s.linkReplays := rfl
@[simp] theorem modGrid_linkDrops (g : Nat) (f : Grid → Grid) : (s.modGrid g f).linkDrops = s.linkDrops := rfl
@[simp] theorem modGrid_bar4Base (g : Nat) (f : Grid → Grid) : (s.modGrid g f).bar4Base = s.bar4Base := rfl
@[simp] theorem modGrid_domPeers (g : Nat) (f : Grid → Grid) : (s.modGrid g f).domPeers = s.domPeers := rfl
@[simp] theorem modGrid_invReg (g : Nat) (f : Grid → Grid) : (s.modGrid g f).invReg = s.invReg := rfl
@[simp] theorem modGrid_invBusy (g : Nat) (f : Grid → Grid) : (s.modGrid g f).invBusy = s.invBusy := rfl
@[simp] theorem modGrid_invOvr (g : Nat) (f : Grid → Grid) : (s.modGrid g f).invOvr = s.invOvr := rfl
@[simp] theorem modGrid_flashBox (g : Nat) (f : Grid → Grid) : (s.modGrid g f).flashBox = s.flashBox := rfl
@[simp] theorem modGrid_flashW (g : Nat) (f : Grid → Grid) : (s.modGrid g f).flashW = s.flashW := rfl
@[simp] theorem modGrid_flashDone (g : Nat) (f : Grid → Grid) : (s.modGrid g f).flashDone = s.flashDone := rfl
@[simp] theorem modGrid_dbgHaltW (g : Nat) (f : Grid → Grid) : (s.modGrid g f).dbgHaltW = s.dbgHaltW := rfl
@[simp] theorem modGrid_dbgResumeW (g : Nat) (f : Grid → Grid) : (s.modGrid g f).dbgResumeW = s.dbgResumeW := rfl
@[simp] theorem modGrid_booted (g : Nat) (f : Grid → Grid) : (s.modGrid g f).booted = s.booted := rfl
@[simp] theorem modGrid_released (g : Nat) (f : Grid → Grid) : (s.modGrid g f).released = s.released := rfl
@[simp] theorem modGrid_bootFail (g : Nat) (f : Grid → Grid) : (s.modGrid g f).bootFail = s.bootFail := rfl
@[simp] theorem modGrid_lifeCycle (g : Nat) (f : Grid → Grid) : (s.modGrid g f).lifeCycle = s.lifeCycle := rfl
@[simp] theorem modGrid_lifeReq (g : Nat) (f : Grid → Grid) : (s.modGrid g f).lifeReq = s.lifeReq := rfl
@[simp] theorem modGrid_measures (g : Nat) (f : Grid → Grid) : (s.modGrid g f).measures = s.measures := rfl
@[simp] theorem modGrid_attReport (g : Nat) (f : Grid → Grid) : (s.modGrid g f).attReport = s.attReport := rfl
@[simp] theorem modGrid_wdReported (g : Nat) (f : Grid → Grid) : (s.modGrid g f).wdReported = s.wdReported := rfl
@[simp] theorem modGrid_wdMissed (g : Nat) (f : Grid → Grid) : (s.modGrid g f).wdMissed = s.wdMissed := rfl
@[simp] theorem modGrid_dieS (g : Nat) (f : Grid → Grid) : (s.modGrid g f).dieS = s.dieS := rfl
@[simp] theorem modGrid_hbmS (g : Nat) (f : Grid → Grid) : (s.modGrid g f).hbmS = s.hbmS := rfl
@[simp] theorem modGrid_throttleLog (g : Nat) (f : Grid → Grid) : (s.modGrid g f).throttleLog = s.throttleLog := rfl
@[simp] theorem modGrid_nextId (g : Nat) (f : Grid → Grid) : (s.modGrid g f).nextId = s.nextId := rfl
@[simp] theorem modGrid_nextUid (g : Nat) (f : Grid → Grid) : (s.modGrid g f).nextUid = s.nextUid := rfl
@[simp] theorem modGrid_nextAdm (g : Nat) (f : Grid → Grid) : (s.modGrid g f).nextAdm = s.nextAdm := rfl
@[simp] theorem modGrid_tick (g : Nat) (f : Grid → Grid) : (s.modGrid g f).tick = s.tick := rfl

@[simp] theorem modCore_agenda (c : Nat) (f : Core → Core) : (s.modCore c f).agenda = s.agenda := rfl
@[simp] theorem modCore_cur (c : Nat) (f : Core → Core) : (s.modCore c f).cur = s.cur := rfl
@[simp] theorem modCore_curCore (c : Nat) (f : Core → Core) : (s.modCore c f).curCore = s.curCore := rfl
@[simp] theorem modCore_mem (c : Nat) (f : Core → Core) : (s.modCore c f).mem = s.mem := rfl
@[simp] theorem modCore_granErr (c : Nat) (f : Core → Core) : (s.modCore c f).granErr = s.granErr := rfl
@[simp] theorem modCore_wordPsn (c : Nat) (f : Core → Core) : (s.modCore c f).wordPsn = s.wordPsn := rfl
@[simp] theorem modCore_wordErr (c : Nat) (f : Core → Core) : (s.modCore c f).wordErr = s.wordErr := rfl
@[simp] theorem modCore_blocks (c : Nat) (f : Core → Core) : (s.modCore c f).blocks = s.blocks := rfl
@[simp] theorem modCore_grids (c : Nat) (f : Core → Core) : (s.modCore c f).grids = s.grids := rfl
@[simp] theorem modCore_chans (c : Nat) (f : Core → Core) : (s.modCore c f).chans = s.chans := rfl
@[simp] theorem modCore_cbars (c : Nat) (f : Core → Core) : (s.modCore c f).cbars = s.cbars := rfl
@[simp] theorem modCore_oc (c : Nat) (f : Core → Core) : (s.modCore c f).oc = s.oc := rfl
@[simp] theorem modCore_hc (c : Nat) (f : Core → Core) : (s.modCore c f).hc = s.hc := rfl
@[simp] theorem modCore_hpath (c : Nat) (f : Core → Core) : (s.modCore c f).hpath = s.hpath := rfl
@[simp] theorem modCore_fills (c : Nat) (f : Core → Core) : (s.modCore c f).fills = s.fills := rfl
@[simp] theorem modCore_jobs (c : Nat) (f : Core → Core) : (s.modCore c f).jobs = s.jobs := rfl
@[simp] theorem modCore_colls (c : Nat) (f : Core → Core) : (s.modCore c f).colls = s.colls := rfl
@[simp] theorem modCore_parts (c : Nat) (f : Core → Core) : (s.modCore c f).parts = s.parts := rfl
@[simp] theorem modCore_ctxs (c : Nat) (f : Core → Core) : (s.modCore c f).ctxs = s.ctxs := rfl
@[simp] theorem modCore_queues (c : Nat) (f : Core → Core) : (s.modCore c f).queues = s.queues := rfl
@[simp] theorem modCore_slotWait (c : Nat) (f : Core → Core) : (s.modCore c f).slotWait = s.slotWait := rfl
@[simp] theorem modCore_turn (c : Nat) (f : Core → Core) : (s.modCore c f).turn = s.turn := rfl
@[simp] theorem modCore_cqPend (c : Nat) (f : Core → Core) : (s.modCore c f).cqPend = s.cqPend := rfl
@[simp] theorem modCore_cqs (c : Nat) (f : Core → Core) : (s.modCore c f).cqs = s.cqs := rfl
@[simp] theorem modCore_returns (c : Nat) (f : Core → Core) : (s.modCore c f).returns = s.returns := rfl
@[simp] theorem modCore_notifyPg (c : Nat) (f : Core → Core) : (s.modCore c f).notifyPg = s.notifyPg := rfl
@[simp] theorem modCore_msix (c : Nat) (f : Core → Core) : (s.modCore c f).msix = s.msix := rfl
@[simp] theorem modCore_hostErr (c : Nat) (f : Core → Core) : (s.modCore c f).hostErr = s.hostErr := rfl
@[simp] theorem modCore_pkg (c : Nat) (f : Core → Core) : (s.modCore c f).pkg = s.pkg := rfl
@[simp] theorem modCore_numbered (c : Nat) (f : Core → Core) : (s.modCore c f).numbered = s.numbered := rfl
@[simp] theorem modCore_lost (c : Nat) (f : Core → Core) : (s.modCore c f).lost = s.lost := rfl
@[simp] theorem modCore_timedOut (c : Nat) (f : Core → Core) : (s.modCore c f).timedOut = s.timedOut := rfl
@[simp] theorem modCore_linkReplays (c : Nat) (f : Core → Core) : (s.modCore c f).linkReplays = s.linkReplays := rfl
@[simp] theorem modCore_linkDrops (c : Nat) (f : Core → Core) : (s.modCore c f).linkDrops = s.linkDrops := rfl
@[simp] theorem modCore_bar4Base (c : Nat) (f : Core → Core) : (s.modCore c f).bar4Base = s.bar4Base := rfl
@[simp] theorem modCore_domPeers (c : Nat) (f : Core → Core) : (s.modCore c f).domPeers = s.domPeers := rfl
@[simp] theorem modCore_invReg (c : Nat) (f : Core → Core) : (s.modCore c f).invReg = s.invReg := rfl
@[simp] theorem modCore_invBusy (c : Nat) (f : Core → Core) : (s.modCore c f).invBusy = s.invBusy := rfl
@[simp] theorem modCore_invOvr (c : Nat) (f : Core → Core) : (s.modCore c f).invOvr = s.invOvr := rfl
@[simp] theorem modCore_flashBox (c : Nat) (f : Core → Core) : (s.modCore c f).flashBox = s.flashBox := rfl
@[simp] theorem modCore_flashW (c : Nat) (f : Core → Core) : (s.modCore c f).flashW = s.flashW := rfl
@[simp] theorem modCore_flashDone (c : Nat) (f : Core → Core) : (s.modCore c f).flashDone = s.flashDone := rfl
@[simp] theorem modCore_dbgHaltW (c : Nat) (f : Core → Core) : (s.modCore c f).dbgHaltW = s.dbgHaltW := rfl
@[simp] theorem modCore_dbgResumeW (c : Nat) (f : Core → Core) : (s.modCore c f).dbgResumeW = s.dbgResumeW := rfl
@[simp] theorem modCore_booted (c : Nat) (f : Core → Core) : (s.modCore c f).booted = s.booted := rfl
@[simp] theorem modCore_released (c : Nat) (f : Core → Core) : (s.modCore c f).released = s.released := rfl
@[simp] theorem modCore_bootFail (c : Nat) (f : Core → Core) : (s.modCore c f).bootFail = s.bootFail := rfl
@[simp] theorem modCore_lifeCycle (c : Nat) (f : Core → Core) : (s.modCore c f).lifeCycle = s.lifeCycle := rfl
@[simp] theorem modCore_lifeReq (c : Nat) (f : Core → Core) : (s.modCore c f).lifeReq = s.lifeReq := rfl
@[simp] theorem modCore_measures (c : Nat) (f : Core → Core) : (s.modCore c f).measures = s.measures := rfl
@[simp] theorem modCore_attReport (c : Nat) (f : Core → Core) : (s.modCore c f).attReport = s.attReport := rfl
@[simp] theorem modCore_wdReported (c : Nat) (f : Core → Core) : (s.modCore c f).wdReported = s.wdReported := rfl
@[simp] theorem modCore_wdMissed (c : Nat) (f : Core → Core) : (s.modCore c f).wdMissed = s.wdMissed := rfl
@[simp] theorem modCore_dieS (c : Nat) (f : Core → Core) : (s.modCore c f).dieS = s.dieS := rfl
@[simp] theorem modCore_hbmS (c : Nat) (f : Core → Core) : (s.modCore c f).hbmS = s.hbmS := rfl
@[simp] theorem modCore_throttleLog (c : Nat) (f : Core → Core) : (s.modCore c f).throttleLog = s.throttleLog := rfl
@[simp] theorem modCore_nextId (c : Nat) (f : Core → Core) : (s.modCore c f).nextId = s.nextId := rfl
@[simp] theorem modCore_nextUid (c : Nat) (f : Core → Core) : (s.modCore c f).nextUid = s.nextUid := rfl
@[simp] theorem modCore_nextAdm (c : Nat) (f : Core → Core) : (s.modCore c f).nextAdm = s.nextAdm := rfl
@[simp] theorem modCore_tick (c : Nat) (f : Core → Core) : (s.modCore c f).tick = s.tick := rfl

@[simp] theorem modPart_agenda (p : Nat) (f : Part → Part) : (s.modPart p f).agenda = s.agenda := rfl
@[simp] theorem modPart_cur (p : Nat) (f : Part → Part) : (s.modPart p f).cur = s.cur := rfl
@[simp] theorem modPart_curCore (p : Nat) (f : Part → Part) : (s.modPart p f).curCore = s.curCore := rfl
@[simp] theorem modPart_mem (p : Nat) (f : Part → Part) : (s.modPart p f).mem = s.mem := rfl
@[simp] theorem modPart_granErr (p : Nat) (f : Part → Part) : (s.modPart p f).granErr = s.granErr := rfl
@[simp] theorem modPart_wordPsn (p : Nat) (f : Part → Part) : (s.modPart p f).wordPsn = s.wordPsn := rfl
@[simp] theorem modPart_wordErr (p : Nat) (f : Part → Part) : (s.modPart p f).wordErr = s.wordErr := rfl
@[simp] theorem modPart_blocks (p : Nat) (f : Part → Part) : (s.modPart p f).blocks = s.blocks := rfl
@[simp] theorem modPart_grids (p : Nat) (f : Part → Part) : (s.modPart p f).grids = s.grids := rfl
@[simp] theorem modPart_chans (p : Nat) (f : Part → Part) : (s.modPart p f).chans = s.chans := rfl
@[simp] theorem modPart_cbars (p : Nat) (f : Part → Part) : (s.modPart p f).cbars = s.cbars := rfl
@[simp] theorem modPart_oc (p : Nat) (f : Part → Part) : (s.modPart p f).oc = s.oc := rfl
@[simp] theorem modPart_hc (p : Nat) (f : Part → Part) : (s.modPart p f).hc = s.hc := rfl
@[simp] theorem modPart_hpath (p : Nat) (f : Part → Part) : (s.modPart p f).hpath = s.hpath := rfl
@[simp] theorem modPart_fills (p : Nat) (f : Part → Part) : (s.modPart p f).fills = s.fills := rfl
@[simp] theorem modPart_jobs (p : Nat) (f : Part → Part) : (s.modPart p f).jobs = s.jobs := rfl
@[simp] theorem modPart_colls (p : Nat) (f : Part → Part) : (s.modPart p f).colls = s.colls := rfl
@[simp] theorem modPart_cores (p : Nat) (f : Part → Part) : (s.modPart p f).cores = s.cores := rfl
@[simp] theorem modPart_ctxs (p : Nat) (f : Part → Part) : (s.modPart p f).ctxs = s.ctxs := rfl
@[simp] theorem modPart_queues (p : Nat) (f : Part → Part) : (s.modPart p f).queues = s.queues := rfl
@[simp] theorem modPart_slotWait (p : Nat) (f : Part → Part) : (s.modPart p f).slotWait = s.slotWait := rfl
@[simp] theorem modPart_turn (p : Nat) (f : Part → Part) : (s.modPart p f).turn = s.turn := rfl
@[simp] theorem modPart_cqPend (p : Nat) (f : Part → Part) : (s.modPart p f).cqPend = s.cqPend := rfl
@[simp] theorem modPart_cqs (p : Nat) (f : Part → Part) : (s.modPart p f).cqs = s.cqs := rfl
@[simp] theorem modPart_returns (p : Nat) (f : Part → Part) : (s.modPart p f).returns = s.returns := rfl
@[simp] theorem modPart_notifyPg (p : Nat) (f : Part → Part) : (s.modPart p f).notifyPg = s.notifyPg := rfl
@[simp] theorem modPart_msix (p : Nat) (f : Part → Part) : (s.modPart p f).msix = s.msix := rfl
@[simp] theorem modPart_hostErr (p : Nat) (f : Part → Part) : (s.modPart p f).hostErr = s.hostErr := rfl
@[simp] theorem modPart_pkg (p : Nat) (f : Part → Part) : (s.modPart p f).pkg = s.pkg := rfl
@[simp] theorem modPart_numbered (p : Nat) (f : Part → Part) : (s.modPart p f).numbered = s.numbered := rfl
@[simp] theorem modPart_lost (p : Nat) (f : Part → Part) : (s.modPart p f).lost = s.lost := rfl
@[simp] theorem modPart_timedOut (p : Nat) (f : Part → Part) : (s.modPart p f).timedOut = s.timedOut := rfl
@[simp] theorem modPart_linkReplays (p : Nat) (f : Part → Part) : (s.modPart p f).linkReplays = s.linkReplays := rfl
@[simp] theorem modPart_linkDrops (p : Nat) (f : Part → Part) : (s.modPart p f).linkDrops = s.linkDrops := rfl
@[simp] theorem modPart_bar4Base (p : Nat) (f : Part → Part) : (s.modPart p f).bar4Base = s.bar4Base := rfl
@[simp] theorem modPart_domPeers (p : Nat) (f : Part → Part) : (s.modPart p f).domPeers = s.domPeers := rfl
@[simp] theorem modPart_invReg (p : Nat) (f : Part → Part) : (s.modPart p f).invReg = s.invReg := rfl
@[simp] theorem modPart_invBusy (p : Nat) (f : Part → Part) : (s.modPart p f).invBusy = s.invBusy := rfl
@[simp] theorem modPart_invOvr (p : Nat) (f : Part → Part) : (s.modPart p f).invOvr = s.invOvr := rfl
@[simp] theorem modPart_flashBox (p : Nat) (f : Part → Part) : (s.modPart p f).flashBox = s.flashBox := rfl
@[simp] theorem modPart_flashW (p : Nat) (f : Part → Part) : (s.modPart p f).flashW = s.flashW := rfl
@[simp] theorem modPart_flashDone (p : Nat) (f : Part → Part) : (s.modPart p f).flashDone = s.flashDone := rfl
@[simp] theorem modPart_dbgHaltW (p : Nat) (f : Part → Part) : (s.modPart p f).dbgHaltW = s.dbgHaltW := rfl
@[simp] theorem modPart_dbgResumeW (p : Nat) (f : Part → Part) : (s.modPart p f).dbgResumeW = s.dbgResumeW := rfl
@[simp] theorem modPart_booted (p : Nat) (f : Part → Part) : (s.modPart p f).booted = s.booted := rfl
@[simp] theorem modPart_released (p : Nat) (f : Part → Part) : (s.modPart p f).released = s.released := rfl
@[simp] theorem modPart_bootFail (p : Nat) (f : Part → Part) : (s.modPart p f).bootFail = s.bootFail := rfl
@[simp] theorem modPart_lifeCycle (p : Nat) (f : Part → Part) : (s.modPart p f).lifeCycle = s.lifeCycle := rfl
@[simp] theorem modPart_lifeReq (p : Nat) (f : Part → Part) : (s.modPart p f).lifeReq = s.lifeReq := rfl
@[simp] theorem modPart_measures (p : Nat) (f : Part → Part) : (s.modPart p f).measures = s.measures := rfl
@[simp] theorem modPart_attReport (p : Nat) (f : Part → Part) : (s.modPart p f).attReport = s.attReport := rfl
@[simp] theorem modPart_wdReported (p : Nat) (f : Part → Part) : (s.modPart p f).wdReported = s.wdReported := rfl
@[simp] theorem modPart_wdMissed (p : Nat) (f : Part → Part) : (s.modPart p f).wdMissed = s.wdMissed := rfl
@[simp] theorem modPart_dieS (p : Nat) (f : Part → Part) : (s.modPart p f).dieS = s.dieS := rfl
@[simp] theorem modPart_hbmS (p : Nat) (f : Part → Part) : (s.modPart p f).hbmS = s.hbmS := rfl
@[simp] theorem modPart_throttleLog (p : Nat) (f : Part → Part) : (s.modPart p f).throttleLog = s.throttleLog := rfl
@[simp] theorem modPart_nextId (p : Nat) (f : Part → Part) : (s.modPart p f).nextId = s.nextId := rfl
@[simp] theorem modPart_nextUid (p : Nat) (f : Part → Part) : (s.modPart p f).nextUid = s.nextUid := rfl
@[simp] theorem modPart_nextAdm (p : Nat) (f : Part → Part) : (s.modPart p f).nextAdm = s.nextAdm := rfl
@[simp] theorem modPart_tick (p : Nat) (f : Part → Part) : (s.modPart p f).tick = s.tick := rfl

@[simp] theorem wr_agenda (k : Nat) (bs : List Byte) : (s.wr k bs).agenda = s.agenda := rfl
@[simp] theorem wr_cur (k : Nat) (bs : List Byte) : (s.wr k bs).cur = s.cur := rfl
@[simp] theorem wr_curCore (k : Nat) (bs : List Byte) : (s.wr k bs).curCore = s.curCore := rfl
@[simp] theorem wr_blocks (k : Nat) (bs : List Byte) : (s.wr k bs).blocks = s.blocks := rfl
@[simp] theorem wr_grids (k : Nat) (bs : List Byte) : (s.wr k bs).grids = s.grids := rfl
@[simp] theorem wr_chans (k : Nat) (bs : List Byte) : (s.wr k bs).chans = s.chans := rfl
@[simp] theorem wr_cbars (k : Nat) (bs : List Byte) : (s.wr k bs).cbars = s.cbars := rfl
@[simp] theorem wr_oc (k : Nat) (bs : List Byte) : (s.wr k bs).oc = s.oc := rfl
@[simp] theorem wr_hc (k : Nat) (bs : List Byte) : (s.wr k bs).hc = s.hc := rfl
@[simp] theorem wr_hpath (k : Nat) (bs : List Byte) : (s.wr k bs).hpath = s.hpath := rfl
@[simp] theorem wr_fills (k : Nat) (bs : List Byte) : (s.wr k bs).fills = s.fills := rfl
@[simp] theorem wr_jobs (k : Nat) (bs : List Byte) : (s.wr k bs).jobs = s.jobs := rfl
@[simp] theorem wr_colls (k : Nat) (bs : List Byte) : (s.wr k bs).colls = s.colls := rfl
@[simp] theorem wr_cores (k : Nat) (bs : List Byte) : (s.wr k bs).cores = s.cores := rfl
@[simp] theorem wr_parts (k : Nat) (bs : List Byte) : (s.wr k bs).parts = s.parts := rfl
@[simp] theorem wr_ctxs (k : Nat) (bs : List Byte) : (s.wr k bs).ctxs = s.ctxs := rfl
@[simp] theorem wr_queues (k : Nat) (bs : List Byte) : (s.wr k bs).queues = s.queues := rfl
@[simp] theorem wr_slotWait (k : Nat) (bs : List Byte) : (s.wr k bs).slotWait = s.slotWait := rfl
@[simp] theorem wr_turn (k : Nat) (bs : List Byte) : (s.wr k bs).turn = s.turn := rfl
@[simp] theorem wr_cqPend (k : Nat) (bs : List Byte) : (s.wr k bs).cqPend = s.cqPend := rfl
@[simp] theorem wr_cqs (k : Nat) (bs : List Byte) : (s.wr k bs).cqs = s.cqs := rfl
@[simp] theorem wr_returns (k : Nat) (bs : List Byte) : (s.wr k bs).returns = s.returns := rfl
@[simp] theorem wr_notifyPg (k : Nat) (bs : List Byte) : (s.wr k bs).notifyPg = s.notifyPg := rfl
@[simp] theorem wr_msix (k : Nat) (bs : List Byte) : (s.wr k bs).msix = s.msix := rfl
@[simp] theorem wr_hostErr (k : Nat) (bs : List Byte) : (s.wr k bs).hostErr = s.hostErr := rfl
@[simp] theorem wr_pkg (k : Nat) (bs : List Byte) : (s.wr k bs).pkg = s.pkg := rfl
@[simp] theorem wr_numbered (k : Nat) (bs : List Byte) : (s.wr k bs).numbered = s.numbered := rfl
@[simp] theorem wr_lost (k : Nat) (bs : List Byte) : (s.wr k bs).lost = s.lost := rfl
@[simp] theorem wr_timedOut (k : Nat) (bs : List Byte) : (s.wr k bs).timedOut = s.timedOut := rfl
@[simp] theorem wr_linkReplays (k : Nat) (bs : List Byte) : (s.wr k bs).linkReplays = s.linkReplays := rfl
@[simp] theorem wr_linkDrops (k : Nat) (bs : List Byte) : (s.wr k bs).linkDrops = s.linkDrops := rfl
@[simp] theorem wr_bar4Base (k : Nat) (bs : List Byte) : (s.wr k bs).bar4Base = s.bar4Base := rfl
@[simp] theorem wr_domPeers (k : Nat) (bs : List Byte) : (s.wr k bs).domPeers = s.domPeers := rfl
@[simp] theorem wr_invReg (k : Nat) (bs : List Byte) : (s.wr k bs).invReg = s.invReg := rfl
@[simp] theorem wr_invBusy (k : Nat) (bs : List Byte) : (s.wr k bs).invBusy = s.invBusy := rfl
@[simp] theorem wr_invOvr (k : Nat) (bs : List Byte) : (s.wr k bs).invOvr = s.invOvr := rfl
@[simp] theorem wr_flashBox (k : Nat) (bs : List Byte) : (s.wr k bs).flashBox = s.flashBox := rfl
@[simp] theorem wr_flashW (k : Nat) (bs : List Byte) : (s.wr k bs).flashW = s.flashW := rfl
@[simp] theorem wr_flashDone (k : Nat) (bs : List Byte) : (s.wr k bs).flashDone = s.flashDone := rfl
@[simp] theorem wr_dbgHaltW (k : Nat) (bs : List Byte) : (s.wr k bs).dbgHaltW = s.dbgHaltW := rfl
@[simp] theorem wr_dbgResumeW (k : Nat) (bs : List Byte) : (s.wr k bs).dbgResumeW = s.dbgResumeW := rfl
@[simp] theorem wr_booted (k : Nat) (bs : List Byte) : (s.wr k bs).booted = s.booted := rfl
@[simp] theorem wr_released (k : Nat) (bs : List Byte) : (s.wr k bs).released = s.released := rfl
@[simp] theorem wr_bootFail (k : Nat) (bs : List Byte) : (s.wr k bs).bootFail = s.bootFail := rfl
@[simp] theorem wr_lifeCycle (k : Nat) (bs : List Byte) : (s.wr k bs).lifeCycle = s.lifeCycle := rfl
@[simp] theorem wr_lifeReq (k : Nat) (bs : List Byte) : (s.wr k bs).lifeReq = s.lifeReq := rfl
@[simp] theorem wr_measures (k : Nat) (bs : List Byte) : (s.wr k bs).measures = s.measures := rfl
@[simp] theorem wr_attReport (k : Nat) (bs : List Byte) : (s.wr k bs).attReport = s.attReport := rfl
@[simp] theorem wr_wdReported (k : Nat) (bs : List Byte) : (s.wr k bs).wdReported = s.wdReported := rfl
@[simp] theorem wr_wdMissed (k : Nat) (bs : List Byte) : (s.wr k bs).wdMissed = s.wdMissed := rfl
@[simp] theorem wr_dieS (k : Nat) (bs : List Byte) : (s.wr k bs).dieS = s.dieS := rfl
@[simp] theorem wr_hbmS (k : Nat) (bs : List Byte) : (s.wr k bs).hbmS = s.hbmS := rfl
@[simp] theorem wr_throttleLog (k : Nat) (bs : List Byte) : (s.wr k bs).throttleLog = s.throttleLog := rfl
@[simp] theorem wr_nextId (k : Nat) (bs : List Byte) : (s.wr k bs).nextId = s.nextId := rfl
@[simp] theorem wr_nextUid (k : Nat) (bs : List Byte) : (s.wr k bs).nextUid = s.nextUid := rfl
@[simp] theorem wr_nextAdm (k : Nat) (bs : List Byte) : (s.wr k bs).nextAdm = s.nextAdm := rfl
@[simp] theorem wr_tick (k : Nat) (bs : List Byte) : (s.wr k bs).tick = s.tick := rfl

@[simp] theorem hostError_agenda : (s.hostError).agenda = s.agenda := rfl
@[simp] theorem hostError_cur : (s.hostError).cur = s.cur := rfl
@[simp] theorem hostError_curCore : (s.hostError).curCore = s.curCore := rfl
@[simp] theorem hostError_mem : (s.hostError).mem = s.mem := rfl
@[simp] theorem hostError_granErr : (s.hostError).granErr = s.granErr := rfl
@[simp] theorem hostError_wordPsn : (s.hostError).wordPsn = s.wordPsn := rfl
@[simp] theorem hostError_wordErr : (s.hostError).wordErr = s.wordErr := rfl
@[simp] theorem hostError_blocks : (s.hostError).blocks = s.blocks := rfl
@[simp] theorem hostError_grids : (s.hostError).grids = s.grids := rfl
@[simp] theorem hostError_chans : (s.hostError).chans = s.chans := rfl
@[simp] theorem hostError_cbars : (s.hostError).cbars = s.cbars := rfl
@[simp] theorem hostError_oc : (s.hostError).oc = s.oc := rfl
@[simp] theorem hostError_hc : (s.hostError).hc = s.hc := rfl
@[simp] theorem hostError_hpath : (s.hostError).hpath = s.hpath := rfl
@[simp] theorem hostError_fills : (s.hostError).fills = s.fills := rfl
@[simp] theorem hostError_jobs : (s.hostError).jobs = s.jobs := rfl
@[simp] theorem hostError_colls : (s.hostError).colls = s.colls := rfl
@[simp] theorem hostError_cores : (s.hostError).cores = s.cores := rfl
@[simp] theorem hostError_parts : (s.hostError).parts = s.parts := rfl
@[simp] theorem hostError_ctxs : (s.hostError).ctxs = s.ctxs := rfl
@[simp] theorem hostError_queues : (s.hostError).queues = s.queues := rfl
@[simp] theorem hostError_slotWait : (s.hostError).slotWait = s.slotWait := rfl
@[simp] theorem hostError_turn : (s.hostError).turn = s.turn := rfl
@[simp] theorem hostError_cqPend : (s.hostError).cqPend = s.cqPend := rfl
@[simp] theorem hostError_cqs : (s.hostError).cqs = s.cqs := rfl
@[simp] theorem hostError_returns : (s.hostError).returns = s.returns := rfl
@[simp] theorem hostError_notifyPg : (s.hostError).notifyPg = s.notifyPg := rfl
@[simp] theorem hostError_msix : (s.hostError).msix = s.msix := rfl
@[simp] theorem hostError_pkg : (s.hostError).pkg = s.pkg := rfl
@[simp] theorem hostError_numbered : (s.hostError).numbered = s.numbered := rfl
@[simp] theorem hostError_lost : (s.hostError).lost = s.lost := rfl
@[simp] theorem hostError_timedOut : (s.hostError).timedOut = s.timedOut := rfl
@[simp] theorem hostError_linkReplays : (s.hostError).linkReplays = s.linkReplays := rfl
@[simp] theorem hostError_linkDrops : (s.hostError).linkDrops = s.linkDrops := rfl
@[simp] theorem hostError_bar4Base : (s.hostError).bar4Base = s.bar4Base := rfl
@[simp] theorem hostError_domPeers : (s.hostError).domPeers = s.domPeers := rfl
@[simp] theorem hostError_invReg : (s.hostError).invReg = s.invReg := rfl
@[simp] theorem hostError_invBusy : (s.hostError).invBusy = s.invBusy := rfl
@[simp] theorem hostError_invOvr : (s.hostError).invOvr = s.invOvr := rfl
@[simp] theorem hostError_flashBox : (s.hostError).flashBox = s.flashBox := rfl
@[simp] theorem hostError_flashW : (s.hostError).flashW = s.flashW := rfl
@[simp] theorem hostError_flashDone : (s.hostError).flashDone = s.flashDone := rfl
@[simp] theorem hostError_dbgHaltW : (s.hostError).dbgHaltW = s.dbgHaltW := rfl
@[simp] theorem hostError_dbgResumeW : (s.hostError).dbgResumeW = s.dbgResumeW := rfl
@[simp] theorem hostError_booted : (s.hostError).booted = s.booted := rfl
@[simp] theorem hostError_released : (s.hostError).released = s.released := rfl
@[simp] theorem hostError_bootFail : (s.hostError).bootFail = s.bootFail := rfl
@[simp] theorem hostError_lifeCycle : (s.hostError).lifeCycle = s.lifeCycle := rfl
@[simp] theorem hostError_lifeReq : (s.hostError).lifeReq = s.lifeReq := rfl
@[simp] theorem hostError_measures : (s.hostError).measures = s.measures := rfl
@[simp] theorem hostError_attReport : (s.hostError).attReport = s.attReport := rfl
@[simp] theorem hostError_wdReported : (s.hostError).wdReported = s.wdReported := rfl
@[simp] theorem hostError_wdMissed : (s.hostError).wdMissed = s.wdMissed := rfl
@[simp] theorem hostError_dieS : (s.hostError).dieS = s.dieS := rfl
@[simp] theorem hostError_hbmS : (s.hostError).hbmS = s.hbmS := rfl
@[simp] theorem hostError_throttleLog : (s.hostError).throttleLog = s.throttleLog := rfl
@[simp] theorem hostError_nextId : (s.hostError).nextId = s.nextId := rfl
@[simp] theorem hostError_nextUid : (s.hostError).nextUid = s.nextUid := rfl
@[simp] theorem hostError_nextAdm : (s.hostError).nextAdm = s.nextAdm := rfl
@[simp] theorem hostError_tick : (s.hostError).tick = s.tick := rfl

@[simp] theorem modCtx_agenda (n : Nat) (f : Ctx → Ctx) : (s.modCtx n f).agenda = s.agenda := by unfold State.modCtx; split <;> rfl
@[simp] theorem modCtx_cur (n : Nat) (f : Ctx → Ctx) : (s.modCtx n f).cur = s.cur := by unfold State.modCtx; split <;> rfl
@[simp] theorem modCtx_curCore (n : Nat) (f : Ctx → Ctx) : (s.modCtx n f).curCore = s.curCore := by unfold State.modCtx; split <;> rfl
@[simp] theorem modCtx_mem (n : Nat) (f : Ctx → Ctx) : (s.modCtx n f).mem = s.mem := by unfold State.modCtx; split <;> rfl
@[simp] theorem modCtx_granErr (n : Nat) (f : Ctx → Ctx) : (s.modCtx n f).granErr = s.granErr := by unfold State.modCtx; split <;> rfl
@[simp] theorem modCtx_wordPsn (n : Nat) (f : Ctx → Ctx) : (s.modCtx n f).wordPsn = s.wordPsn := by unfold State.modCtx; split <;> rfl
@[simp] theorem modCtx_wordErr (n : Nat) (f : Ctx → Ctx) : (s.modCtx n f).wordErr = s.wordErr := by unfold State.modCtx; split <;> rfl
@[simp] theorem modCtx_blocks (n : Nat) (f : Ctx → Ctx) : (s.modCtx n f).blocks = s.blocks := by unfold State.modCtx; split <;> rfl
@[simp] theorem modCtx_grids (n : Nat) (f : Ctx → Ctx) : (s.modCtx n f).grids = s.grids := by unfold State.modCtx; split <;> rfl
@[simp] theorem modCtx_chans (n : Nat) (f : Ctx → Ctx) : (s.modCtx n f).chans = s.chans := by unfold State.modCtx; split <;> rfl
@[simp] theorem modCtx_cbars (n : Nat) (f : Ctx → Ctx) : (s.modCtx n f).cbars = s.cbars := by unfold State.modCtx; split <;> rfl
@[simp] theorem modCtx_oc (n : Nat) (f : Ctx → Ctx) : (s.modCtx n f).oc = s.oc := by unfold State.modCtx; split <;> rfl
@[simp] theorem modCtx_hc (n : Nat) (f : Ctx → Ctx) : (s.modCtx n f).hc = s.hc := by unfold State.modCtx; split <;> rfl
@[simp] theorem modCtx_hpath (n : Nat) (f : Ctx → Ctx) : (s.modCtx n f).hpath = s.hpath := by unfold State.modCtx; split <;> rfl
@[simp] theorem modCtx_fills (n : Nat) (f : Ctx → Ctx) : (s.modCtx n f).fills = s.fills := by unfold State.modCtx; split <;> rfl
@[simp] theorem modCtx_jobs (n : Nat) (f : Ctx → Ctx) : (s.modCtx n f).jobs = s.jobs := by unfold State.modCtx; split <;> rfl
@[simp] theorem modCtx_colls (n : Nat) (f : Ctx → Ctx) : (s.modCtx n f).colls = s.colls := by unfold State.modCtx; split <;> rfl
@[simp] theorem modCtx_cores (n : Nat) (f : Ctx → Ctx) : (s.modCtx n f).cores = s.cores := by unfold State.modCtx; split <;> rfl
@[simp] theorem modCtx_parts (n : Nat) (f : Ctx → Ctx) : (s.modCtx n f).parts = s.parts := by unfold State.modCtx; split <;> rfl
@[simp] theorem modCtx_queues (n : Nat) (f : Ctx → Ctx) : (s.modCtx n f).queues = s.queues := by unfold State.modCtx; split <;> rfl
@[simp] theorem modCtx_slotWait (n : Nat) (f : Ctx → Ctx) : (s.modCtx n f).slotWait = s.slotWait := by unfold State.modCtx; split <;> rfl
@[simp] theorem modCtx_turn (n : Nat) (f : Ctx → Ctx) : (s.modCtx n f).turn = s.turn := by unfold State.modCtx; split <;> rfl
@[simp] theorem modCtx_cqPend (n : Nat) (f : Ctx → Ctx) : (s.modCtx n f).cqPend = s.cqPend := by unfold State.modCtx; split <;> rfl
@[simp] theorem modCtx_cqs (n : Nat) (f : Ctx → Ctx) : (s.modCtx n f).cqs = s.cqs := by unfold State.modCtx; split <;> rfl
@[simp] theorem modCtx_returns (n : Nat) (f : Ctx → Ctx) : (s.modCtx n f).returns = s.returns := by unfold State.modCtx; split <;> rfl
@[simp] theorem modCtx_notifyPg (n : Nat) (f : Ctx → Ctx) : (s.modCtx n f).notifyPg = s.notifyPg := by unfold State.modCtx; split <;> rfl
@[simp] theorem modCtx_msix (n : Nat) (f : Ctx → Ctx) : (s.modCtx n f).msix = s.msix := by unfold State.modCtx; split <;> rfl
@[simp] theorem modCtx_hostErr (n : Nat) (f : Ctx → Ctx) : (s.modCtx n f).hostErr = s.hostErr := by unfold State.modCtx; split <;> rfl
@[simp] theorem modCtx_pkg (n : Nat) (f : Ctx → Ctx) : (s.modCtx n f).pkg = s.pkg := by unfold State.modCtx; split <;> rfl
@[simp] theorem modCtx_numbered (n : Nat) (f : Ctx → Ctx) : (s.modCtx n f).numbered = s.numbered := by unfold State.modCtx; split <;> rfl
@[simp] theorem modCtx_lost (n : Nat) (f : Ctx → Ctx) : (s.modCtx n f).lost = s.lost := by unfold State.modCtx; split <;> rfl
@[simp] theorem modCtx_timedOut (n : Nat) (f : Ctx → Ctx) : (s.modCtx n f).timedOut = s.timedOut := by unfold State.modCtx; split <;> rfl
@[simp] theorem modCtx_linkReplays (n : Nat) (f : Ctx → Ctx) : (s.modCtx n f).linkReplays = s.linkReplays := by unfold State.modCtx; split <;> rfl
@[simp] theorem modCtx_linkDrops (n : Nat) (f : Ctx → Ctx) : (s.modCtx n f).linkDrops = s.linkDrops := by unfold State.modCtx; split <;> rfl
@[simp] theorem modCtx_bar4Base (n : Nat) (f : Ctx → Ctx) : (s.modCtx n f).bar4Base = s.bar4Base := by unfold State.modCtx; split <;> rfl
@[simp] theorem modCtx_domPeers (n : Nat) (f : Ctx → Ctx) : (s.modCtx n f).domPeers = s.domPeers := by unfold State.modCtx; split <;> rfl
@[simp] theorem modCtx_invReg (n : Nat) (f : Ctx → Ctx) : (s.modCtx n f).invReg = s.invReg := by unfold State.modCtx; split <;> rfl
@[simp] theorem modCtx_invBusy (n : Nat) (f : Ctx → Ctx) : (s.modCtx n f).invBusy = s.invBusy := by unfold State.modCtx; split <;> rfl
@[simp] theorem modCtx_invOvr (n : Nat) (f : Ctx → Ctx) : (s.modCtx n f).invOvr = s.invOvr := by unfold State.modCtx; split <;> rfl
@[simp] theorem modCtx_flashBox (n : Nat) (f : Ctx → Ctx) : (s.modCtx n f).flashBox = s.flashBox := by unfold State.modCtx; split <;> rfl
@[simp] theorem modCtx_flashW (n : Nat) (f : Ctx → Ctx) : (s.modCtx n f).flashW = s.flashW := by unfold State.modCtx; split <;> rfl
@[simp] theorem modCtx_flashDone (n : Nat) (f : Ctx → Ctx) : (s.modCtx n f).flashDone = s.flashDone := by unfold State.modCtx; split <;> rfl
@[simp] theorem modCtx_dbgHaltW (n : Nat) (f : Ctx → Ctx) : (s.modCtx n f).dbgHaltW = s.dbgHaltW := by unfold State.modCtx; split <;> rfl
@[simp] theorem modCtx_dbgResumeW (n : Nat) (f : Ctx → Ctx) : (s.modCtx n f).dbgResumeW = s.dbgResumeW := by unfold State.modCtx; split <;> rfl
@[simp] theorem modCtx_booted (n : Nat) (f : Ctx → Ctx) : (s.modCtx n f).booted = s.booted := by unfold State.modCtx; split <;> rfl
@[simp] theorem modCtx_released (n : Nat) (f : Ctx → Ctx) : (s.modCtx n f).released = s.released := by unfold State.modCtx; split <;> rfl
@[simp] theorem modCtx_bootFail (n : Nat) (f : Ctx → Ctx) : (s.modCtx n f).bootFail = s.bootFail := by unfold State.modCtx; split <;> rfl
@[simp] theorem modCtx_lifeCycle (n : Nat) (f : Ctx → Ctx) : (s.modCtx n f).lifeCycle = s.lifeCycle := by unfold State.modCtx; split <;> rfl
@[simp] theorem modCtx_lifeReq (n : Nat) (f : Ctx → Ctx) : (s.modCtx n f).lifeReq = s.lifeReq := by unfold State.modCtx; split <;> rfl
@[simp] theorem modCtx_measures (n : Nat) (f : Ctx → Ctx) : (s.modCtx n f).measures = s.measures := by unfold State.modCtx; split <;> rfl
@[simp] theorem modCtx_attReport (n : Nat) (f : Ctx → Ctx) : (s.modCtx n f).attReport = s.attReport := by unfold State.modCtx; split <;> rfl
@[simp] theorem modCtx_wdReported (n : Nat) (f : Ctx → Ctx) : (s.modCtx n f).wdReported = s.wdReported := by unfold State.modCtx; split <;> rfl
@[simp] theorem modCtx_wdMissed (n : Nat) (f : Ctx → Ctx) : (s.modCtx n f).wdMissed = s.wdMissed := by unfold State.modCtx; split <;> rfl
@[simp] theorem modCtx_dieS (n : Nat) (f : Ctx → Ctx) : (s.modCtx n f).dieS = s.dieS := by unfold State.modCtx; split <;> rfl
@[simp] theorem modCtx_hbmS (n : Nat) (f : Ctx → Ctx) : (s.modCtx n f).hbmS = s.hbmS := by unfold State.modCtx; split <;> rfl
@[simp] theorem modCtx_throttleLog (n : Nat) (f : Ctx → Ctx) : (s.modCtx n f).throttleLog = s.throttleLog := by unfold State.modCtx; split <;> rfl
@[simp] theorem modCtx_nextId (n : Nat) (f : Ctx → Ctx) : (s.modCtx n f).nextId = s.nextId := by unfold State.modCtx; split <;> rfl
@[simp] theorem modCtx_nextUid (n : Nat) (f : Ctx → Ctx) : (s.modCtx n f).nextUid = s.nextUid := by unfold State.modCtx; split <;> rfl
@[simp] theorem modCtx_nextAdm (n : Nat) (f : Ctx → Ctx) : (s.modCtx n f).nextAdm = s.nextAdm := by unfold State.modCtx; split <;> rfl
@[simp] theorem modCtx_tick (n : Nat) (f : Ctx → Ctx) : (s.modCtx n f).tick = s.tick := by unfold State.modCtx; split <;> rfl

end Sys2Proof.Machine
end

