-- ==== Sys2Proof/Laws/Observe.lean ====
section
/-! SUPPORT. What the shared operations of a clause leave alone: the registers and control bits of every thread, the engines of every block, and every part of the state that no unit owns. -/

namespace Sys2Proof.Machine

open Sys2Proof.Spec

/-- What the operations below keep of a thread, of a unit, of a block and of all blocks. -/
def keepT (t : Thread) := (t.regs, ctl t)
def keepG (g : Grp) := g.threads.map keepT
def keepB (b : Block) := (b.uid, engines b, keepG b.fe, b.groups.map keepG)
def keepS (s : State) := fun n => (s.blk? n).map keepB
/-- The parts of the state that no unit owns. -/
def restS (s : State) : State := { s with mem := [], granErr := [], wordPsn := [], wordErr := [], blocks := [], cores := [], parts := [], ctxs := [], cbars := [] }

/-! ## Observations from what is kept -/

/-- The block that an update of one block leaves. -/
theorem blk_modBlk (s : State) (u n : Nat) (f : Block → Block) (hf : ∀ b, (f b).uid = b.uid) :
    (s.modBlk u f).blk? n = if n = u then (s.blk? u).map f else s.blk? n := by
  have key : ∀ l : List Block, (l.map fun b => if b.uid = u then f b else b).find? (fun b => b.uid == n) =
      (l.find? fun b => b.uid == n).map fun b => if b.uid = u then f b else b := by
    intro l
    induction l with
    | nil => rfl
    | cons a l ih =>
      have hu : (if a.uid = u then f a else a).uid = a.uid := by split <;> simp [hf]
      simp only [List.map_cons, List.find?_cons, hu]
      cases a.uid == n
      · exact ih
      · rfl
  unfold State.blk? State.modBlk
  simp only [key]
  by_cases h : n = u
  · subst h
    rw [if_pos rfl]
    cases hx : s.blocks.find? fun b => b.uid == n with
    | none => rfl
    | some x =>
      have : x.uid = n := by have := List.find?_some hx; simpa using this
      simp [this]
  · rw [if_neg h]
    cases hx : s.blocks.find? fun b => b.uid == n with
    | none => rfl
    | some x =>
      have : x.uid = n := by have := List.find?_some hx; simpa using this
      simp [this, h]
theorem blk_keep {s t : State} (h : keepS t = keepS s) (n : Nat) : (t.blk? n).map keepB = (s.blk? n).map keepB := congrFun h n
theorem engines_keep {s t : State} (h : keepS t = keepS s) (n : Nat) : (t.blk? n).map engines = (s.blk? n).map engines := by
  have := congrArg (Option.map fun k => k.2.1) (blk_keep h n)
  simpa [Option.map_map, Function.comp_def, keepB] using this
theorem thr_keep {s t : State} (h : keepS t = keepS s) (u : UnitRef) (l : Nat) : (thr? t u l).map keepT = (thr? s u l).map keepT := by
  have hb := blk_keep h u.blk
  have key : ∀ x : State, (thr? x u l).map keepT = ((x.blk? u.blk).map keepB).bind fun k => match u with
      | .group _ g => (k.2.2.2[g]?).bind (·[l]?)
      | .front _ => k.2.2.1[l]? := by
    intro x
    unfold thr? State.grp?
    cases hx : x.blk? u.blk with
    | none => simp
    | some b =>
      cases u with
      | group n g =>
        simp only [Option.bind_some, Block.grp?, Option.map_some, keepB, List.getElem?_map]
        cases b.groups[g]? <;> simp [keepG]
      | front n => simp [Block.grp?, keepB, keepG]
  rw [key t, key s, hb]
theorem reg_of_keep {s t : State} (h : keepS t = keepS s) (u : UnitRef) (l r : Nat) : reg? t u l r = reg? s u l r := by
  have key : ∀ x : State, reg? x u l r = ((thr? x u l).map keepT).bind fun k => k.1[r]? := by
    intro x; unfold reg?; cases thr? x u l <;> simp [keepT]
  rw [key, key, thr_keep h]
theorem ctl_of_keep {s t : State} (h : keepS t = keepS s) (u : UnitRef) (l : Nat) : (thr? t u l).map ctl = (thr? s u l).map ctl := by
  have := congrArg (Option.map Prod.snd) (thr_keep h u l)
  simpa [Option.map_map, Function.comp_def, keepT] using this
theorem frame_of_rest {s t : State} (h : restS t = restS s) :
    { t with mem := s.mem, granErr := s.granErr, wordPsn := s.wordPsn, wordErr := s.wordErr, blocks := s.blocks, cores := s.cores, parts := s.parts, ctxs := s.ctxs, cbars := s.cbars } = s := by
  have h2 := congrArg (fun x : State => { x with mem := s.mem, granErr := s.granErr, wordPsn := s.wordPsn, wordErr := s.wordErr, blocks := s.blocks, cores := s.cores, parts := s.parts, ctxs := s.ctxs, cbars := s.cbars }) h
  exact h2

/-! ## The updates -/

theorem keepS_modBlk (s : State) (u : Nat) (f : Block → Block) (hf : ∀ b, keepB (f b) = keepB b) : keepS (s.modBlk u f) = keepS s := by
  have hu : ∀ b, (f b).uid = b.uid := fun b => congrArg Prod.fst (hf b)
  funext n
  unfold keepS
  rw [blk_modBlk s u n f hu]
  split
  · subst_vars; cases s.blk? n <;> simp [hf]
  · rfl
theorem keepB_modGrp (b : Block) (u : UnitRef) (f : Grp → Grp) (hf : ∀ g, keepG (f g) = keepG g) : keepB (b.modGrp u f) = keepB b := by
  unfold Block.modGrp
  cases u with
  | group n g =>
    simp only [keepB, engines, Prod.mk.injEq, true_and]
    apply List.ext_getElem?
    intro i
    simp only [List.getElem?_map, List.getElem?_modify]
    cases b.groups[i]? <;> simp; split <;> simp [hf]
  | front n => simp [keepB, engines, hf]
theorem keepS_modGrp (s : State) (u : UnitRef) (f : Grp → Grp) (hf : ∀ g, keepG (f g) = keepG g) : keepS (s.modGrp u f) = keepS s :=
  keepS_modBlk s u.blk _ fun b => keepB_modGrp b u f hf
theorem keepG_modThread (g : Grp) (l : Nat) (f : Thread → Thread) (hf : ∀ t, keepT (f t) = keepT t) : keepG (g.modThread l f) = keepG g := by
  unfold keepG Grp.modThread
  apply List.ext_getElem?
  intro i
  simp only [List.getElem?_map, List.getElem?_modify]
  cases g.threads[i]? <;> simp; split <;> simp [hf]
theorem keepS_modThread (s : State) (u : UnitRef) (l : Nat) (f : Thread → Thread) (hf : ∀ t, keepT (f t) = keepT t) : keepS (s.modThread u l f) = keepS s :=
  keepS_modGrp s u _ fun g => keepG_modThread g l f hf
@[simp] theorem keepS_modCore (s : State) (c : Nat) (f : Core → Core) : keepS (s.modCore c f) = keepS s := rfl
@[simp] theorem keepS_modPart (s : State) (p : Nat) (f : Part → Part) : keepS (s.modPart p f) = keepS s := rfl
@[simp] theorem keepS_modCtx (s : State) (c : Nat) (f : Ctx → Ctx) : keepS (s.modCtx c f) = keepS s := by funext n; unfold keepS State.blk?; rw [modCtx_blocks]
@[simp] theorem restS_modBlk (s : State) (u : Nat) (f : Block → Block) : restS (s.modBlk u f) = restS s := rfl
@[simp] theorem restS_modGrp (s : State) (u : UnitRef) (f : Grp → Grp) : restS (s.modGrp u f) = restS s := rfl
@[simp] theorem restS_modThread (s : State) (u : UnitRef) (l : Nat) (f : Thread → Thread) : restS (s.modThread u l f) = restS s := rfl
@[simp] theorem restS_modCore (s : State) (c : Nat) (f : Core → Core) : restS (s.modCore c f) = restS s := rfl
@[simp] theorem restS_modPart (s : State) (p : Nat) (f : Part → Part) : restS (s.modPart p f) = restS s := rfl
@[simp] theorem restS_modCtx (s : State) (c : Nat) (f : Ctx → Ctx) : restS (s.modCtx c f) = restS s := by unfold State.modCtx; split <;> rfl
@[simp] theorem restS_wr (s : State) (k : Nat) (bs : List Byte) : restS (s.wr k bs) = restS s := rfl
@[simp] theorem restS_markWord (s : State) (k : Nat) : restS (s.markWord k) = restS s := rfl

theorem foldl_keep {α β : Type} (k : State → β) (f : State → α → State) (hf : ∀ s a, k (f s a) = k s) : ∀ (l : List α) (s : State), k (l.foldl f s) = k s
  | [], _ => rfl
  | a :: l, s => by rw [List.foldl_cons, foldl_keep k f hf l, hf]

/-! ## Ends of clauses, halts, exits -/

/-- From `s` to `t` every thread keeps its registers and control bits, every block its engines, and memory, every context record and all that no unit owns stay. -/
structure Quiet (s t : State) : Prop where
  keep : keepS t = keepS s
  rest : restS t = restS s
  mem : t.mem = s.mem
  rcd : ∀ c, (t.ctxD c).rcd = (s.ctxD c).rcd

theorem Quiet.rfl' (s : State) : Quiet s s := ⟨rfl, rfl, rfl, fun _ => rfl⟩
theorem Quiet.trans {a b c : State} (h : Quiet a b) (k : Quiet b c) : Quiet a c :=
  ⟨k.keep.trans h.keep, k.rest.trans h.rest, k.mem.trans h.mem, fun n => (k.rcd n).trans (h.rcd n)⟩
theorem quiet_foldl {α : Type} (f : State → α → State) (hf : ∀ s a, Quiet s (f s a)) : ∀ (l : List α) (s : State), Quiet s (l.foldl f s)
  | [], s => Quiet.rfl' s
  | a :: l, s => (hf s a).trans (quiet_foldl f hf l (f s a))
theorem quiet_modBlk (s : State) (u : Nat) (f : Block → Block) (hf : ∀ b, keepB (f b) = keepB b) : Quiet s (s.modBlk u f) :=
  ⟨keepS_modBlk s u f hf, rfl, rfl, fun _ => rfl⟩
theorem quiet_modGrp (s : State) (u : UnitRef) (f : Grp → Grp) (hf : ∀ g, keepG (f g) = keepG g) : Quiet s (s.modGrp u f) :=
  quiet_modBlk s u.blk _ fun b => keepB_modGrp b u f hf
theorem quiet_modThread (s : State) (u : UnitRef) (l : Nat) (f : Thread → Thread) (hf : ∀ t, keepT (f t) = keepT t) : Quiet s (s.modThread u l f) :=
  quiet_modGrp s u _ fun g => keepG_modThread g l f hf
theorem quiet_modCore (s : State) (c : Nat) (f : Core → Core) : Quiet s (s.modCore c f) := ⟨rfl, rfl, rfl, fun _ => rfl⟩
theorem quiet_modPart (s : State) (p : Nat) (f : Part → Part) : Quiet s (s.modPart p f) := ⟨rfl, rfl, rfl, fun _ => rfl⟩
theorem ctxD_modCtx (s : State) (n c : Nat) (f : Ctx → Ctx) (hn : ∀ x, (f x).no = x.no) : (s.modCtx n f).ctxD c = if c = n then f (s.ctxD n) else s.ctxD c := by
  have hfind : ∀ (l : List Ctx), (l.map fun x => if x.no = n then f x else x).find? (fun x => x.no == c) =
      (l.find? fun x => x.no == c).map fun x => if x.no = n then f x else x := by
    intro l
    induction l with
    | nil => rfl
    | cons a l ih =>
      have hno : (if a.no = n then f a else a).no = a.no := by split <;> simp [hn]
      simp only [List.map_cons, List.find?_cons, hno]
      cases a.no == c
      · exact ih
      · rfl
  unfold State.ctxD State.modCtx
  split
  · rename_i hs
    unfold State.ctx? at hs ⊢
    simp only [hfind]
    by_cases hc : c = n
    · subst hc
      rw [if_pos rfl]
      obtain ⟨x, hx⟩ := Option.isSome_iff_exists.mp hs
      have : x.no = c := by have := List.find?_some hx; simpa using this
      simp [hx, this]
    · rw [if_neg hc]
      cases hx : s.ctxs.find? (fun x => x.no == c) with
      | none => rfl
      | some x =>
        have : x.no = c := by have := List.find?_some hx; simpa using this
        simp [this, hc]
  · rename_i hs
    unfold State.ctx? at hs ⊢
    simp only [List.find?_append]
    by_cases hc : c = n
    · subst hc
      rw [if_pos rfl]
      have hx : s.ctxs.find? (fun x => x.no == c) = none := by simpa using hs
      simp [hx, hn, Ctx.init]
    · rw [if_neg hc]
      cases hx : s.ctxs.find? (fun x => x.no == c) with
      | none => 
        have h2 : ¬ n = c := fun h => hc h.symm
        simp [hn, Ctx.init, h2]
      | some x => rfl
theorem quiet_modCtx (s : State) (n : Nat) (f : Ctx → Ctx) (hn : ∀ x, (f x).no = x.no) (hr : ∀ x, (f x).rcd = x.rcd) : Quiet s (s.modCtx n f) :=
  ⟨keepS_modCtx s n f, restS_modCtx s n f, modCtx_mem s n f, fun c => by rw [ctxD_modCtx s n c f hn]; split <;> simp_all⟩
theorem quiet_bump (s : State) (c i n : Nat) : Quiet s (s.bump c i n) := quiet_modCtx s c _ (fun _ => rfl) (fun _ => rfl)
theorem quiet_noteStop (s : State) (c : Nat) (u : UnitRef) : Quiet s (s.noteStop c u) := by
  unfold State.noteStop; split
  · exact Quiet.rfl' s
  · exact quiet_modPart s _ _
theorem quiet_endRun (s : State) (u : UnitRef) : Quiet s (s.endRun u) := by
  unfold State.endRun
  split
  · exact Quiet.rfl' s
  · refine Quiet.trans ?_ (quiet_modCore _ _ _)
    refine Quiet.trans ?_ (quiet_modGrp _ _ _ fun _ => rfl)
    split
    · exact Quiet.rfl' s
    · exact quiet_noteStop _ _ _
theorem quiet_raiseHalt (s : State) (c code : Nat) (u : Option UnitRef) (w : Who) (r : FRec) : Quiet s (s.raiseHalt c code u w r) := by
  unfold State.raiseHalt
  refine Quiet.trans ?_ (quiet_modPart _ _ _)
  cases u with
  | none => exact Quiet.rfl' s
  | some u => exact (quiet_endRun s u).trans (quiet_modGrp _ _ _ fun _ => rfl)
theorem quiet_takeFault (s : State) (u : UnitRef) (code : Nat) (fa : DWord) (l i : Nat) (pc : VAddr) (m : Mask) : Quiet s (s.takeFault u code fa l i pc m) := by
  unfold State.takeFault
  split
  · exact Quiet.rfl' s
  · split
    · exact Quiet.rfl' s
    · exact quiet_raiseHalt _ _ _ _ _ _
theorem quiet_divergeCheck (s : State) (u : UnitRef) : Quiet s (s.divergeCheck u) := by
  unfold State.divergeCheck
  split
  · split
    · exact quiet_takeFault _ _ _ _ _ _ _ _
    · exact Quiet.rfl' s
  · exact Quiet.rfl' s
theorem quiet_leaveClause (s : State) (u : UnitRef) (r : Role) (y : Bool) : Quiet s (s.leaveClause u r y) :=
  ((quiet_endRun s u).trans (quiet_modGrp _ u (fun g => { g with lastRole := r, yielded := y }) fun _ => rfl)).trans (quiet_divergeCheck _ _)
theorem keepG_foldl {α : Type} (f : Grp → α → Grp) (hf : ∀ g a, keepG (f g a) = keepG g) : ∀ (l : List α) (g : Grp), keepG (l.foldl f g) = keepG g
  | [], _ => rfl
  | a :: l, g => by rw [List.foldl_cons, keepG_foldl f hf l, hf]
theorem keepT_goTo (t : Thread) (a : VAddr) : keepT (t.goTo a) = keepT t := by unfold Thread.goTo; split <;> rfl
theorem keepG_issued (g : Grp) (c : Nat) : keepG (g.issued c) = keepG g := by
  unfold keepG Grp.issued
  apply List.ext_getElem?
  intro i
  simp only [List.getElem?_map, List.getElem?_zipIdx, Nat.zero_add]
  cases g.threads[i]? <;> simp
  split <;> rfl
/-- A unit that is put back with the same registers and control bits. -/
theorem quiet_setGrp (s : State) (u : UnitRef) (g g0 : Grp) (h : s.grp? u = some g0) (hk : keepG g = keepG g0) : Quiet s (s.modGrp u fun _ => g) := by
  refine ⟨?_, rfl, rfl, fun _ => rfl⟩
  have hu : ∀ b : Block, (b.modGrp u fun _ => g).uid = b.uid := fun b => by unfold Block.modGrp; cases u <;> rfl
  funext n
  unfold keepS State.modGrp
  rw [blk_modBlk s u.blk n _ hu]
  split
  · subst_vars
    cases hb : s.blk? u.blk with
    | none => rfl
    | some b =>
      have hg : b.grp? u = some g0 := by simpa [State.grp?, hb] using h
      cases u with
      | front n => simp_all [keepB, engines, Block.modGrp, Block.grp?]
      | group n i =>
        simp only [Block.grp?] at hg
        simp only [Option.map_some, Option.some.injEq, keepB, engines, Block.modGrp, Prod.mk.injEq, true_and]
        apply List.ext_getElem?
        intro j
        simp only [List.getElem?_map, List.getElem?_modify]
        cases hj : b.groups[j]? with
        | none => simp
        | some x =>
          by_cases hij : i = j
          · subst hij; simp_all
          · simp [hij]
  · rfl
theorem grp_of_blk {s : State} {u : UnitRef} {b : Block} {g : Grp} (hb : s.blk? u.blk = some b) (hg : b.grp? u = some g) : s.grp? u = some g := by
  simp [State.grp?, hb, hg]
theorem quiet_setGrp_leave (s : State) (u : UnitRef) (g g0 : Grp) (r : Role) (y : Bool) (h : s.grp? u = some g0) (hk : keepG g = keepG g0) :
    Quiet s ((s.modGrp u fun _ => g).leaveClause u r y) := (quiet_setGrp s u g g0 h hk).trans (quiet_leaveClause _ _ _ _)
/-- Going on to the next word, or out of the clause, changes no register, no control bit, no engine and no memory. -/
theorem quiet_advance (s : State) (v : View) (y : Bool) : Quiet s (s.advance v y) := by
  unfold State.advance
  split
  · exact Quiet.rfl' s
  · rename_i b hb
    split
    · exact Quiet.rfl' s
    · rename_i g0 hg
      have h0 := grp_of_blk hb hg
      have hi := keepG_issued g0 (s.cycleOf b.core).toNat
      dsimp only
      split
      · exact quiet_setGrp_leave _ _ _ g0 _ _ h0 hi
      · split
        · exact Quiet.rfl' s
        · split
          · split
            · exact quiet_setGrp_leave _ _ _ g0 _ _ h0 ((keepG_foldl _ (fun g a => keepG_modThread g a _ fun t => keepT_goTo t _) _ _).trans hi)
            · refine Quiet.trans ?_ (quiet_takeFault _ _ _ _ _ _ _ _)
              exact quiet_setGrp s _ _ g0 h0 hi
          · refine quiet_setGrp s _ _ g0 h0 (Eq.trans ?_ hi)
            change keepG (List.foldl _ _ _) = _
            apply keepG_foldl
            intro g a
            apply keepG_modThread
            intro t
            rfl

/-! ## Barriers and exits -/

theorem keepB_barCheck (b : Block) (id : Nat) : keepB (b.barCheck id) = keepB b := by
  unfold Block.barCheck
  split
  · rfl
  · split
    · simp only [keepB, engines, Prod.mk.injEq, true_and]
      rw [List.map_map]
      refine List.map_congr_left fun g _ => ?_
      simp only [Function.comp]; split <;> rfl
    · rfl
theorem keepB_barsCheck (b : Block) : keepB b.barsCheck = keepB b := by
  unfold Block.barsCheck
  have : ∀ (l : List Nat) (b : Block), keepB (l.foldl (·.barCheck ·) b) = keepB b := by
    intro l
    induction l with
    | nil => intro b; rfl
    | cons a l ih => intro b; rw [List.foldl_cons, ih, keepB_barCheck]
  exact this _ b
theorem keepB_tokenCheck (b : Block) : keepB b.tokenCheck = keepB b := by
  unfold Block.tokenCheck
  split
  · rfl
  · split
    · split <;> split <;> rfl
    · rfl
/-- Blocks changed only in what is not kept. -/
theorem keepS_map (s : State) (f : Block → Block) (cb : List CBar) (hf : ∀ b, keepB (f b) = keepB b) : keepS { s with cbars := cb, blocks := s.blocks.map f } = keepS s := by
  have hu : ∀ b, (f b).uid = b.uid := fun b => congrArg Prod.fst (hf b)
  funext n
  unfold keepS State.blk?
  dsimp only
  induction s.blocks with
  | nil => rfl
  | cons a l ih =>
    simp only [List.map_cons, List.find?_cons, hu]
    cases a.uid == n
    · exact ih
    · simp [hf]
theorem quiet_cbarCheck (s : State) (g c i : Nat) : Quiet s (s.cbarCheck g c i) := by
  unfold State.cbarCheck
  split
  · exact Quiet.rfl' s
  · dsimp only
    split
    · refine ⟨keepS_map s _ _ fun b => ?_, rfl, rfl, fun _ => rfl⟩
      split
      · simp only [keepB, engines, Prod.mk.injEq, true_and]
        rw [List.map_map]
        refine List.map_congr_left fun g _ => ?_
        simp only [Function.comp]; split <;> rfl
      · rfl
    · exact ⟨rfl, rfl, rfl, fun _ => rfl⟩
theorem quiet_cbarsCheck (s : State) (g c : Nat) : Quiet s (s.cbarsCheck g c) := quiet_foldl _ (fun s i => quiet_cbarCheck s g c i) _ s
theorem quiet_afterExit (s : State) (n : Nat) : Quiet s (s.afterExit n) := by
  unfold State.afterExit
  have h1 : Quiet s (s.modBlk n fun b => b.barsCheck.tokenCheck) := quiet_modBlk s n _ fun b => by rw [keepB_tokenCheck, keepB_barsCheck]
  dsimp only
  split
  · exact h1.trans (quiet_cbarsCheck _ _ _)
  · exact h1
theorem quiet_retire (s : State) (u : UnitRef) (l : Nat) : Quiet s (s.retire u l) := by
  unfold State.retire
  split
  · exact Quiet.rfl' s
  · refine Quiet.trans ?_ (quiet_bump _ _ _ _)
    exact quiet_modThread s u l _ fun _ => rfl

/-! ## Reading and pushing -/

theorem quiet_pushDrop (s : State) (u : UnitRef) (l q n : Nat) : Quiet s (portDrop s u l q n) := by
  unfold portDrop
  split
  · exact quiet_modBlk _ _ _ fun _ => rfl
  · split
    · exact quiet_modThread _ _ _ _ fun _ => rfl
    · split <;> exact quiet_modBlk _ _ _ fun _ => rfl
theorem rdEmpty_s (r : Rd) (e : Bool) : (r.empty e).s = r.s := by unfold Rd.empty; split <;> rfl
/-- Reading a source pops at most, and latches the cycle counter. -/
theorem quiet_readSrc (v : View) (l : Nat) (x : Src) (r : Rd) : Quiet r.s (readSrc v l x r).2.s := by
  unfold readSrc
  split
  · split
    · exact Quiet.rfl' _
    · dsimp only
      split <;> split <;> simp [rdEmpty_s, Quiet.rfl']
  · dsimp only
    split
    · simp only [rdEmpty_s, apply_ite Rd.s, ite_self]; exact Quiet.rfl' _
    · split <;> simp only [apply_ite Rd.s, ite_self]
      · exact Quiet.rfl' _
      · exact quiet_pushDrop _ _ _ _ _
  · exact Quiet.rfl' _
  · split
    · exact quiet_modThread _ _ _ _ fun _ => rfl
    · split <;> exact Quiet.rfl' _
  · exact Quiet.rfl' _
theorem quiet_foldAcc {α β : Type} (st : β → State) (f : β → α → β) (hf : ∀ b a, Quiet (st b) (st (f b a))) :
    ∀ (l : List α) (b : β), Quiet (st b) (st (l.foldl f b))
  | [], _ => Quiet.rfl' _
  | a :: l, b => (hf b a).trans (quiet_foldAcc st f hf l (f b a))
theorem quiet_readSrcs (v : View) (l : Nat) (xs : List Src) (r : Rd) : Quiet r.s (readSrcs v l xs r).2.s := by
  unfold readSrcs
  refine Quiet.trans ?_ (quiet_foldAcc (fun acc : List (List PWord) × Rd => acc.2.s) _ ?_ _ _)
  · dsimp only
    split
    · exact quiet_modThread _ _ _ _ fun _ => rfl
    · exact Quiet.rfl' _
  · intro acc x
    exact quiet_readSrc v l x acc.2
theorem quiet_readLanes (v : View) (ls : List Nat) (xs : List Src) (r : Rd) : Quiet r.s (readLanes v ls xs r).2.s := by
  unfold readLanes
  refine quiet_foldAcc (fun acc : List LaneIn × Rd => acc.2.s) _ ?_ ls ([], r)
  intro acc l
  refine Quiet.trans (quiet_readSrcs v l xs acc.2) ?_
  dsimp only
  split <;> exact Quiet.rfl' _
/-- Reading all sources changes no register, no control bit, no engine and no memory. -/
theorem quiet_readAll {v : View} {ls : List Nat} {x : Uses} {s s1 : State} {ins : List LaneIn} (h : readAll v ls x s = .ok (ins, s1)) : Quiet s s1 := by
  unfold readAll at h
  have hq := quiet_readLanes v ls x.src { s := s }
  generalize hr : readLanes v ls x.src { s := s } = p at h hq
  obtain ⟨a, r⟩ := p
  simp only at h hq
  split at h
  · cases h
  · split at h
    · cases h
    · cases h; exact hq
/-- The lanes read are among those asked for, in their order. -/
theorem readAll_lanes {v : View} {ls : List Nat} {x : Uses} {s s1 : State} {ins : List LaneIn} (h : readAll v ls x s = .ok (ins, s1)) :
    ins.map (·.lane) = ls.filter fun l => (v.thread l).isSome := by
  have key : ∀ (f : List LaneIn × Rd → Nat → List LaneIn × Rd),
      (∀ acc l, (f acc l).1.map (·.lane) = acc.1.map (·.lane) ++ if (v.thread l).isSome then [l] else []) →
      ∀ (ls : List Nat) (acc : List LaneIn × Rd), (ls.foldl f acc).1.map (·.lane) = acc.1.map (·.lane) ++ ls.filter fun l => (v.thread l).isSome := by
    intro f hf ls
    induction ls with
    | nil => intro acc; simp
    | cons l ls ih =>
      intro acc
      rw [List.foldl_cons, ih, hf, List.filter_cons]
      split <;> simp
  unfold readAll readLanes at h
  have hq := key (fun acc l =>
    let (ws, r) := readSrcs v l x.src acc.2
    match v.thread l with
    | some t => (acc.1 ++ [⟨l, ws, t.preds8, t.mode, t.sticky⟩], r)
    | none => (acc.1, r)) (fun acc l => by dsimp only; cases v.thread l <;> simp) ls ([], { s := s })
  generalize List.foldl _ _ ls = p at h hq
  obtain ⟨a, r⟩ := p
  simp only at h hq
  split at h
  · cases h
  · split at h
    · cases h
    · cases h; simpa using hq

/-! ## Threads after an update -/

theorem thr_modThread (s : State) (u u' : UnitRef) (l l' : Nat) (f : Thread → Thread) :
    thr? (s.modThread u l f) u' l' = if u' = u ∧ l' = l then (thr? s u l).map f else thr? s u' l' := by
  have hu : ∀ b : Block, (b.modGrp u (·.modThread l f)).uid = b.uid := fun b => by unfold Block.modGrp; cases u <;> rfl
  unfold thr? State.grp? State.modThread State.modGrp
  rw [blk_modBlk s u.blk u'.blk _ hu]
  by_cases hb : u'.blk = u.blk
  · rw [if_pos hb, hb]
    cases s.blk? u.blk with
    | none => simp
    | some b =>
      cases u with
      | front n =>
        cases u' with
        | front n' =>
          have : n' = n := hb
          subst this
          simp only [Option.map_some, Option.bind_some, Block.modGrp, Block.grp?, Grp.modThread, true_and, List.getElem?_modify]
          by_cases hl : l' = l
          · subst hl; simp
          · have hl2 : ¬ l = l' := fun h => hl h.symm
            simp [hl, hl2]
        | group n' g' =>
          have : ¬ (UnitRef.group n' g' = UnitRef.front n ∧ l' = l) := fun h => by cases h.1
          rw [if_neg this]
          simp [Block.modGrp, Block.grp?]
      | group n g =>
        cases u' with
        | front n' =>
          have : ¬ (UnitRef.front n' = UnitRef.group n g ∧ l' = l) := fun h => by cases h.1
          rw [if_neg this]
          simp [Block.modGrp, Block.grp?]
        | group n' g' =>
          have hn : n' = n := hb
          subst hn
          simp only [Option.map_some, Option.bind_some, Block.modGrp, Block.grp?, List.getElem?_modify, UnitRef.group.injEq, true_and]
          by_cases hg : g' = g
          · subst hg
            cases b.groups[g']? with
            | none => simp
            | some x =>
              simp only [if_true, Option.map_some, Option.map_eq_map, Option.bind_some, Grp.modThread, List.getElem?_modify, true_and]
              by_cases hl : l' = l
              · subst hl; simp
              · have hl2 : ¬ l = l' := fun h => hl h.symm
                simp [hl, hl2]
          · have hg2 : ¬ g = g' := fun h => hg h.symm
            simp [hg, hg2]
  · have : ¬ (u' = u ∧ l' = l) := fun h => hb (by rw [h.1])
    rw [if_neg hb, if_neg this]

end Sys2Proof.Machine
end

