-- ==== Sys2Proof/Laws/Lanes.lean ====
section
/-! SUPPORT. What leaving a lane's results does: registers and control bits of that lane, the places of a ring that is pushed, and nothing else. -/

namespace Sys2Proof.Machine

open Sys2Proof.Spec

/-! ## Rings -/

/-- A port of a block of the state. -/
def State.ringAt (s : State) (n q : Nat) : Option Ring := (s.blk? n).bind (·.ring? q)

theorem ringAt_tail (s : State) (n q : Nat) (f : Ring → Ring) :
    State.ringAt (s.modBlk n fun b => { b with rings := b.rings.map fun x => if x.1 = q then (q, f x.2) else x }) n q = (s.ringAt n q).map f := by
  have e := blk_modBlk s n n (fun b : Block => { b with rings := b.rings.map fun x => if x.1 = q then (q, f x.2) else x }) fun _ => rfl
  rw [if_pos rfl] at e
  unfold State.ringAt
  rw [e]
  cases s.blk? n with
  | none => rfl
  | some b =>
    simp only [Option.map_some, Option.bind_some, Block.ring?]
    generalize b.rings = l
    induction l with
    | nil => rfl
    | cons a l ih =>
      simp only [List.map_cons, List.find?_cons]
      by_cases h : a.1 = q
      · simp [h]
      · have h2 : (a.1 == q) = false := by simpa using h
        simp only [h, if_false, h2]
        exact ih
theorem ringAt_wr (s : State) (n q k : Nat) (bs : List Byte) : (s.wr k bs).ringAt n q = s.ringAt n q := rfl
theorem ringAt_markWord (s : State) (n q k : Nat) : (s.markWord k).ringAt n q = s.ringAt n q := rfl

/-- One push. -/
def push1 (blk q : Nat) (s : State) (w : PWord) : State :=
  match s.ringAt blk q with
  | none => s
  | some r =>
    let k := kShared blk (r.place r.tail)
    let s := s.wr k (leBytes 4 w.v.toNat)
    let s := if w.p then s.markWord k else s
    s.modBlk blk fun b => { b with rings := b.rings.map fun x => if x.1 = q then (q, { x.2 with tail := x.2.tail + 1 }) else x }
theorem pushRing_eq (s : State) (blk q : Nat) (ws : List PWord) : pushRing s blk q ws = ws.foldl (push1 blk q) s := rfl
theorem leBytes_length : ∀ (n x : Nat), (leBytes n x).length = n
  | 0, _ => rfl
  | n + 1, x => by simp [leBytes, leBytes_length n]
theorem push1_some (s : State) (blk q : Nat) (w : PWord) (r : Ring) (h : s.ringAt blk q = some r) :
    (push1 blk q s w).mem = memWrite s.mem (kShared blk (r.place r.tail)) (leBytes 4 w.v.toNat) ∧
    (push1 blk q s w).ringAt blk q = some { r with tail := r.tail + 1 } := by
  unfold push1
  rw [h]
  constructor
  · dsimp only; split <;> rfl
  · refine (ringAt_tail _ blk q fun r => { r with tail := r.tail + 1 }).trans ?_
    split
    · rw [ringAt_markWord, ringAt_wr, h]; rfl
    · rw [ringAt_wr, h]; rfl
theorem push1_keep (s : State) (blk q : Nat) (w : PWord) : keepS (push1 blk q s w) = keepS s ∧ restS (push1 blk q s w) = restS s ∧ (push1 blk q s w).ctxs = s.ctxs := by
  unfold push1
  split
  · exact ⟨rfl, rfl, rfl⟩
  · dsimp only
    refine ⟨?_, ?_, ?_⟩
    · refine (keepS_modBlk _ _ _ ?_).trans ?_
      · intro b; rfl
      · split <;> rfl
    · split <;> rfl
    · split <;> rfl
theorem push1_wf (s : State) (blk q : Nat) (w : PWord) (h : memWf s.mem = true) : memWf (push1 blk q s w).mem = true := by
  unfold push1
  split
  · exact h
  · dsimp only; split <;> exact wr_wf s _ _ h

/-- Where `n` pushes on a port of a block go. -/
def ringPlaces (s : State) (blk q n : Nat) : List Nat :=
  match s.ringAt blk q with
  | some r => (List.range n).map fun i => kShared blk (r.place (r.tail + i))
  | none => []
theorem pushRing_ring (blk q : Nat) : ∀ (ws : List PWord) (s : State),
    (pushRing s blk q ws).ringAt blk q = (s.ringAt blk q).map fun r => { r with tail := r.tail + ws.length }
  | [], s => by rw [pushRing_eq]; cases h : s.ringAt blk q <;> simp [h]
  | w :: ws, s => by
    rw [pushRing_eq, List.foldl_cons, ← pushRing_eq, pushRing_ring blk q ws]
    cases h : s.ringAt blk q with
    | none => simp [push1, h]
    | some r => rw [(push1_some s blk q w r h).2]; simp; omega
theorem pushRing_keep (blk q : Nat) : ∀ (ws : List PWord) (s : State),
    keepS (pushRing s blk q ws) = keepS s ∧ restS (pushRing s blk q ws) = restS s ∧ (pushRing s blk q ws).ctxs = s.ctxs
  | [], _ => ⟨rfl, rfl, rfl⟩
  | w :: ws, s => by
    have h1 := push1_keep s blk q w
    have h2 := pushRing_keep blk q ws (push1 blk q s w)
    exact ⟨h2.1.trans h1.1, h2.2.1.trans h1.2.1, h2.2.2.trans h1.2.2⟩
theorem pushRing_wf (blk q : Nat) : ∀ (ws : List PWord) (s : State), memWf s.mem = true → memWf (pushRing s blk q ws).mem = true
  | [], _, h => h
  | w :: ws, s, h => pushRing_wf blk q ws _ (push1_wf s blk q w h)
/-- Pushes store to the ring's next places and to no other byte. -/
theorem pushRing_frame (blk q a : Nat) : ∀ (ws : List PWord) (s : State), memWf s.mem = true →
    (∀ k ∈ ringPlaces s blk q ws.length, a < k ∨ k + 4 ≤ a) → memGet (pushRing s blk q ws).mem a = memGet s.mem a
  | [], _, _, _ => rfl
  | w :: ws, s, hw, h => by
    rw [pushRing_eq, List.foldl_cons, ← pushRing_eq]
    cases hr : s.ringAt blk q with
    | none => 
      have : push1 blk q s w = s := by simp [push1, hr]
      rw [this]
      exact pushRing_frame blk q a ws s hw (by simp [ringPlaces, hr])
    | some r =>
      have hp := push1_some s blk q w r hr
      simp only [ringPlaces, hr, List.mem_map, List.mem_range, forall_exists_index, and_imp, forall_apply_eq_imp_iff₂, List.length_cons] at h
      rw [pushRing_frame blk q a ws _ (push1_wf s blk q w hw)]
      · rw [hp.1]
        have h0 := h 0 (by omega)
        exact wr_frame s _ a (leBytes 4 w.v.toNat) hw (by rw [leBytes_length]; simpa using h0)
      · simp only [ringPlaces, hp.2, List.mem_map, List.mem_range, forall_exists_index, and_imp, forall_apply_eq_imp_iff₂]
        intro i hi
        have := h (i + 1) (by omega)
        have e : Ring.place { r with tail := r.tail + 1 } (r.tail + 1 + i) = r.place (r.tail + (i + 1)) := by
          unfold Ring.place; dsimp only; congr 3; omega
        rw [e]; exact this



/-! ## One lane's results -/

theorem reg_eq (s : State) (u : UnitRef) (l r : Nat) : reg? s u l r = ((thr? s u l).map keepT).bind fun k => k.1[r]? := by
  unfold reg?; cases thr? s u l <;> simp [keepT]
theorem ctl_eq (s : State) (u : UnitRef) (l : Nat) : (thr? s u l).map ctl = ((thr? s u l).map keepT).map (·.2) := by
  cases thr? s u l <;> simp [keepT]
/-- The registers a list of words leaves from `k` on. -/
theorem setRegs_get (t : Thread) (k r : Nat) (ws : List PWord) :
    (t.setRegs k ws).regs[r]? = match (if k ≤ r then ws[r - k]? else none) with
      | some w => (t.regs[r]?).map fun _ => (⟨w.v, w.p, .full⟩ : Reg)
      | none => t.regs[r]? := by
  unfold Thread.setRegs
  dsimp only
  have key : ∀ (ws : List PWord) (n : Nat) (rs : List Reg),
      ((ws.zipIdx n).foldl (fun rs w => rs.set (k + w.2) ⟨w.1.v, w.1.p, .full⟩) rs)[r]? =
        match (if k + n ≤ r then ws[r - (k + n)]? else none) with
        | some w => (rs[r]?).map fun _ => (⟨w.v, w.p, .full⟩ : Reg)
        | none => rs[r]? := by
    intro ws
    induction ws with
    | nil => intro n rs; simp
    | cons w ws ih =>
      intro n rs
      rw [List.zipIdx_cons, List.foldl_cons, ih, List.getElem?_set]
      by_cases h1 : k + n = r
      · subst h1
        have : ¬ (k + (n + 1) ≤ k + n) := by omega
        by_cases hl : k + n < rs.length
        · simp [this, hl]
        · simp [hl]
      · by_cases h2 : k + n ≤ r
        · have h3 : k + (n + 1) ≤ r := by omega
          have h4 : r - (k + n) = (r - (k + (n + 1))) + 1 := by omega
          simp [h1, h2, h3, h4]
        · have h3 : ¬ (k + (n + 1) ≤ r) := by omega
          simp [h1, h2, h3]
  simpa using key ws 0 t.regs



/-- The whole next thread of a lane that a result is left in. -/
def laneT (dst : Option Dest) (o : LaneOut) (t : Thread) : Thread :=
  match dst, o.dst with
  | some d, some ws => (match opKind d.f with | .reg k => (t.setRegs k ws).leave o | _ => t.leave o)
  | _, _ => t.leave o
/-- Entries that a lane's result pushes. -/
def lanePush (dst : Option Dest) (o : LaneOut) : Option (Nat × List PWord) :=
  if o.retire then none else
  match dst, o.dst with
  | some d, some ws => (match opKind d.f with | .port q => some (q, ws) | _ => none)
  | _, _ => none
/-- The state after a lane's pushes, where it makes any. -/
def pushed (s : State) (u : UnitRef) (p : Option (Nat × List PWord)) : State := match p with | some x => pushRing s u.blk x.1 x.2 | none => s

theorem modThread_comp (s : State) (u : UnitRef) (l : Nat) (f g : Thread → Thread) : (s.modThread u l f).modThread u l g = s.modThread u l fun t => g (f t) := by
  unfold State.modThread State.modGrp State.modBlk
  simp only [List.map_map]
  congr 1
  refine List.map_congr_left fun b _ => ?_
  simp only [Function.comp]
  by_cases h : b.uid = u.blk
  · have hu : ∀ (h : Thread → Thread), (b.modGrp u (·.modThread l h)).uid = b.uid := fun h => by unfold Block.modGrp; cases u <;> rfl
    rw [if_pos h, if_pos ((hu f).trans h), if_pos h]
    cases u with
    | front n => simp [Block.modGrp, Grp.modThread, List.modify_modify_eq, Function.comp_def]
    | group n g => simp [Block.modGrp, Grp.modThread, List.modify_modify_eq, Function.comp_def]
  · simp [h]
/-- A result that is left changes its lane as `laneT` says, after the pushes it makes; a retired lane only stops. -/
theorem commitLane_eq (u : UnitRef) (dst : Option Dest) (s : State) (l : Nat) (o : LaneOut) :
    commitLane u dst s l o = if o.retire then s.retire u l else (pushed s u (lanePush dst o)).modThread u l (laneT dst o) := by
  unfold commitLane laneT lanePush
  cases hr : o.retire with
  | true => rfl
  | false =>
    simp only [Bool.false_eq_true, if_false]
    cases dst with
    | none => rfl
    | some d =>
      cases o.dst with
      | none => rfl
      | some ws =>
        simp only [writeDst]
        cases opKind d.f with
        | reg k => exact modThread_comp s u l (·.setRegs k ws) (·.leave o)
        | _ => rfl
theorem keepT_setRegs_ctl (t : Thread) (k : Nat) (ws : List PWord) : ctl (t.setRegs k ws) = ctl t := rfl
theorem pushed_keep (s : State) (u : UnitRef) (p : Option (Nat × List PWord)) : keepS (pushed s u p) = keepS s ∧ restS (pushed s u p) = restS s ∧ (pushed s u p).ctxs = s.ctxs := by
  cases p with
  | none => exact ⟨rfl, rfl, rfl⟩
  | some x => exact pushRing_keep _ _ _ _



/-! ## Threads that stay as they are -/

/-- No thread changes. -/
def Calm (s t : State) : Prop := ∀ u l, thr? t u l = thr? s u l
theorem Calm.trans {a b c : State} (h : Calm a b) (k : Calm b c) : Calm a c := fun u l => (k u l).trans (h u l)
theorem calm_rfl (s : State) : Calm s s := fun _ _ => rfl
theorem calm_foldl {α : Type} (f : State → α → State) (hf : ∀ s a, Calm s (f s a)) : ∀ (l : List α) (s : State), Calm s (l.foldl f s)
  | [], s => calm_rfl s
  | a :: l, s => (hf s a).trans (calm_foldl f hf l (f s a))
/-- The threads of a block. -/
def blkThreads (b : Block) : Nat × List Thread × List (List Thread) := (b.uid, b.fe.threads, b.groups.map (·.threads))
theorem thr_of_blk {s t : State} (h : ∀ n, (t.blk? n).map blkThreads = (s.blk? n).map blkThreads) : Calm s t := by
  intro u l
  have hb := h u.blk
  have key : ∀ x : State, thr? x u l = ((x.blk? u.blk).map blkThreads).bind fun k => match u with
      | .group _ g => (k.2.2[g]?).bind (·[l]?)
      | .front _ => k.2.1[l]? := by
    intro x
    unfold thr? State.grp?
    cases hx : x.blk? u.blk with
    | none => simp
    | some b =>
      cases u with
      | group n g =>
        simp only [Option.bind_some, Block.grp?, Option.map_some, blkThreads, List.getElem?_map]
        cases b.groups[g]? <;> simp
      | front n => simp [Block.grp?, blkThreads]
  rw [key t, key s, hb]
theorem calm_blocks {s t : State} (h : t.blocks = s.blocks) : Calm s t := fun u l => by unfold thr? State.grp? State.blk?; rw [h]
theorem calm_modBlk (s : State) (n : Nat) (f : Block → Block) (hf : ∀ b, blkThreads (f b) = blkThreads b) : Calm s (s.modBlk n f) := by
  have hu : ∀ b, (f b).uid = b.uid := fun b => congrArg Prod.fst (hf b)
  refine thr_of_blk fun m => ?_
  rw [blk_modBlk s n m f hu]
  split
  · subst_vars; cases s.blk? m <;> simp [hf]
  · rfl
theorem calm_modGrp (s : State) (u : UnitRef) (f : Grp → Grp) (hf : ∀ g, (f g).threads = g.threads) : Calm s (s.modGrp u f) := by
  refine calm_modBlk s u.blk _ fun b => ?_
  cases u with
  | front n => simp [Block.modGrp, blkThreads, hf]
  | group n g =>
    simp only [Block.modGrp, blkThreads, Prod.mk.injEq, true_and]
    apply List.ext_getElem?
    intro i
    simp only [List.getElem?_map, List.getElem?_modify]
    cases b.groups[i]? <;> simp; split <;> simp [hf]
theorem calm_modCore (s : State) (c : Nat) (f : Core → Core) : Calm s (s.modCore c f) := calm_blocks rfl
theorem calm_modPart (s : State) (c : Nat) (f : Part → Part) : Calm s (s.modPart c f) := calm_blocks rfl
theorem calm_modCtx (s : State) (c : Nat) (f : Ctx → Ctx) : Calm s (s.modCtx c f) := calm_blocks (by rw [modCtx_blocks])
theorem calm_noteStop (s : State) (c : Nat) (u : UnitRef) : Calm s (s.noteStop c u) := by
  unfold State.noteStop; split
  · exact calm_rfl s
  · exact calm_modPart s _ _
theorem calm_endRun (s : State) (u : UnitRef) : Calm s (s.endRun u) := by
  unfold State.endRun
  split
  · exact calm_rfl s
  · refine Calm.trans ?_ (calm_modCore _ _ _)
    refine Calm.trans ?_ (calm_modGrp _ _ _ fun _ => rfl)
    split
    · exact calm_rfl s
    · exact calm_noteStop _ _ _
theorem calm_raiseHalt (s : State) (c code : Nat) (u : Option UnitRef) (w : Who) (r : FRec) : Calm s (s.raiseHalt c code u w r) := by
  unfold State.raiseHalt
  refine Calm.trans ?_ (calm_modPart _ _ _)
  cases u with
  | none => exact calm_rfl s
  | some u => exact (calm_endRun s u).trans (calm_modGrp _ _ _ fun _ => rfl)
theorem calm_takeFault (s : State) (u : UnitRef) (code : Nat) (fa : DWord) (l i : Nat) (pc : VAddr) (m : Mask) : Calm s (s.takeFault u code fa l i pc m) := by
  unfold State.takeFault
  split
  · exact calm_rfl s
  · split
    · exact calm_rfl s
    · exact calm_raiseHalt _ _ _ _ _ _
theorem calm_divergeCheck (s : State) (u : UnitRef) : Calm s (s.divergeCheck u) := by
  unfold State.divergeCheck
  split
  · split
    · exact calm_takeFault _ _ _ _ _ _ _ _
    · exact calm_rfl s
  · exact calm_rfl s
theorem calm_leaveClause (s : State) (u : UnitRef) (r : Role) (y : Bool) : Calm s (s.leaveClause u r y) :=
  ((calm_endRun s u).trans (calm_modGrp _ u (fun g => { g with lastRole := r, yielded := y }) fun _ => rfl)).trans (calm_divergeCheck _ _)
theorem threads_barCheck (b : Block) (id : Nat) : blkThreads (b.barCheck id) = blkThreads b := by
  unfold Block.barCheck
  split
  · rfl
  · split
    · simp only [blkThreads, Prod.mk.injEq, true_and]
      rw [List.map_map]
      refine List.map_congr_left fun g _ => ?_
      simp only [Function.comp]; split <;> rfl
    · rfl
theorem threads_barsCheck (b : Block) : blkThreads b.barsCheck = blkThreads b := by
  unfold Block.barsCheck
  have : ∀ (l : List Nat) (b : Block), blkThreads (l.foldl (·.barCheck ·) b) = blkThreads b := by
    intro l
    induction l with
    | nil => intro b; rfl
    | cons a l ih => intro b; rw [List.foldl_cons, ih, threads_barCheck]
  exact this _ b
theorem threads_tokenCheck (b : Block) : blkThreads b.tokenCheck = blkThreads b := by
  unfold Block.tokenCheck
  split
  · rfl
  · split
    · split <;> split <;> rfl
    · rfl
theorem calm_map (s : State) (f : Block → Block) (cb : List CBar) (hf : ∀ b, blkThreads (f b) = blkThreads b) :
    Calm s { s with cbars := cb, blocks := s.blocks.map f } := by
  have hu : ∀ b, (f b).uid = b.uid := fun b => congrArg Prod.fst (hf b)
  refine thr_of_blk fun m => ?_
  unfold State.blk?
  dsimp only
  induction s.blocks with
  | nil => rfl
  | cons a l ih =>
    simp only [List.map_cons, List.find?_cons, hu]
    cases a.uid == m
    · exact ih
    · simp [hf]
theorem calm_cbarCheck (s : State) (g c i : Nat) : Calm s (s.cbarCheck g c i) := by
  unfold State.cbarCheck
  split
  · exact calm_rfl s
  · dsimp only
    split
    · refine calm_map s _ _ fun b => ?_
      split
      · simp only [blkThreads, Prod.mk.injEq, true_and]
        rw [List.map_map]
        refine List.map_congr_left fun g _ => ?_
        simp only [Function.comp]; split <;> rfl
      · rfl
    · exact calm_blocks rfl
theorem calm_cbarsCheck (s : State) (g c : Nat) : Calm s (s.cbarsCheck g c) := calm_foldl _ (fun s i => calm_cbarCheck s g c i) _ s
/-- Barriers and the token change no thread. -/
theorem calm_afterExit (s : State) (n : Nat) : Calm s (s.afterExit n) := by
  unfold State.afterExit
  have h1 : Calm s (s.modBlk n fun b => b.barsCheck.tokenCheck) := calm_modBlk s n _ fun b => by rw [threads_tokenCheck, threads_barsCheck]
  dsimp only
  split
  · exact h1.trans (calm_cbarsCheck _ _ _)
  · exact h1
theorem calm_push1 (s : State) (blk q : Nat) (w : PWord) : Calm s (push1 blk q s w) := by
  unfold push1
  split
  · exact calm_rfl s
  · dsimp only
    refine Calm.trans ?_ (calm_modBlk _ _ _ ?_)
    · exact calm_blocks (by split <;> rfl)
    · intro b; rfl
theorem calm_pushed (s : State) (u : UnitRef) (p : Option (Nat × List PWord)) : Calm s (pushed s u p) := by
  cases p with
  | none => exact calm_rfl s
  | some x => exact calm_foldl _ (fun s w => calm_push1 s u.blk x.1 w) _ s



/-! ## Leaving all lanes' results -/

/-- A thread after its lane's result, the retired one stopped. -/
def laneEnd (dst : Option Dest) (o : LaneOut) (t : Thread) : Thread :=
  if o.retire then { t with stat := .retired, cl := none } else laneT dst o t
theorem blk_of_thr {s : State} {u : UnitRef} {l : Nat} {t : Thread} (h : thr? s u l = some t) : ∃ b, s.blk? u.blk = some b := by
  unfold thr? State.grp? at h
  cases hb : s.blk? u.blk with
  | none => simp [hb] at h
  | some b => exact ⟨b, rfl⟩
theorem thr_retire (s : State) (u u' : UnitRef) (l l' : Nat) :
    thr? (s.retire u l) u' l' = if u' = u ∧ l' = l then (thr? s u l).map (fun t => { t with stat := .retired, cl := none }) else thr? s u' l' := by
  unfold State.retire
  cases hb : s.blk? u.blk with
  | none =>
    have : thr? s u l = none := by
      cases h : thr? s u l with
      | none => rfl
      | some t => obtain ⟨b, h2⟩ := blk_of_thr h; rw [hb] at h2; cases h2
    dsimp only
    split
    · rename_i h; rw [h.1, h.2, this]; rfl
    · rfl
  | some b =>
    dsimp only
    unfold State.bump
    rw [calm_modCtx _ _ _ u' l', thr_modThread]
theorem thr_commitLane (u : UnitRef) (dst : Option Dest) (s : State) (l : Nat) (o : LaneOut) (u' : UnitRef) (l' : Nat) :
    thr? (commitLane u dst s l o) u' l' = if u' = u ∧ l' = l then (thr? s u l).map (laneEnd dst o) else thr? s u' l' := by
  rw [commitLane_eq]
  unfold laneEnd
  cases o.retire with
  | true => simp only [if_true]; exact thr_retire s u u' l l'
  | false =>
    simp only [Bool.false_eq_true, if_false]
    rw [thr_modThread, calm_pushed s u _ u l, calm_pushed s u _ u' l']
/-- Results are left lane by lane: each lane has its own, the others stay. -/
theorem thr_commitLanes (u : UnitRef) (dst : Option Dest) (u' : UnitRef) (l' : Nat) : ∀ (outs : List (Nat × LaneOut)) (s : State), (outs.map (·.1)).Nodup →
    thr? (outs.foldl (fun s o => commitLane u dst s o.1 o.2) s) u' l' =
      match (if u' = u then outs.find? (·.1 == l') else none) with
      | some o => (thr? s u' l').map (laneEnd dst o.2)
      | none => thr? s u' l'
  | [], s, _ => by simp
  | o :: outs, s, hn => by
    rw [List.foldl_cons]
    rw [List.map_cons, List.nodup_cons] at hn
    rw [thr_commitLanes u dst u' l' outs _ hn.2, thr_commitLane]
    by_cases hu : u' = u
    · subst hu
      simp only [if_true, true_and, List.find?_cons]
      by_cases hl : l' = o.1
      · subst hl
        have : outs.find? (fun x => x.1 == o.1) = none := by
          rw [List.find?_eq_none]
          intro x hx h
          exact hn.1 (List.mem_map.mpr ⟨x, hx, by simpa using h⟩)
        simp [this]
      · have h2 : (o.1 == l') = false := by simpa using fun h => hl h.symm
        simp [hl, h2]
    · simp [hu]
/-- What stays under one result: engines, records and all that no unit owns. -/
theorem commitLane_rest (u : UnitRef) (dst : Option Dest) (s : State) (l : Nat) (o : LaneOut) :
    (∀ n, ((commitLane u dst s l o).blk? n).map engines = (s.blk? n).map engines) ∧ restS (commitLane u dst s l o) = restS s ∧
      (∀ c, ((commitLane u dst s l o).ctxD c).rcd = (s.ctxD c).rcd) := by
  rw [commitLane_eq]
  split
  · have q := quiet_retire s u l
    exact ⟨engines_keep q.keep, q.rest, q.rcd⟩
  · have hp := pushed_keep s u (lanePush dst o)
    refine ⟨fun n => ?_, ?_, fun c => ?_⟩
    · rw [← engines_keep hp.1 n]
      unfold State.modThread State.modGrp
      have hu : ∀ b : Block, (b.modGrp u (·.modThread l (laneT dst o))).uid = b.uid := fun b => by unfold Block.modGrp; cases u <;> rfl
      rw [blk_modBlk _ u.blk n _ hu]
      split
      · subst_vars
        cases (pushed s u (lanePush dst o)).blk? u.blk with
        | none => rfl
        | some b => simp only [Option.map_some, Option.some.injEq]; unfold Block.modGrp; cases u <;> rfl
      · rfl
    · exact (restS_modThread _ _ _ _).trans hp.2.1
    · unfold State.ctxD State.ctx? State.modThread State.modGrp State.modBlk
      dsimp only
      rw [hp.2.2]
theorem commitLane_mem (u : UnitRef) (dst : Option Dest) (s : State) (l : Nat) (o : LaneOut) :
    (commitLane u dst s l o).mem = (pushed s u (lanePush dst o)).mem := by
  rw [commitLane_eq]
  split
  · rename_i h
    rw [(quiet_retire s u l).mem]
    unfold lanePush; simp [h, pushed]
  · rfl

/-! ## Memory under all lanes' results -/

theorem ringAt_modBlk (s : State) (m n q : Nat) (f : Block → Block) (hu : ∀ b, (f b).uid = b.uid) (hr : ∀ b, (f b).rings = b.rings) :
    (s.modBlk m f).ringAt n q = s.ringAt n q := by
  unfold State.ringAt
  rw [blk_modBlk s m n f hu]
  split
  · subst_vars; cases s.blk? n <;> simp [Block.ring?, hr]
  · rfl
theorem ringAt_modThread (s : State) (u : UnitRef) (l n q : Nat) (f : Thread → Thread) : (s.modThread u l f).ringAt n q = s.ringAt n q :=
  ringAt_modBlk s u.blk n q _ (fun b => by unfold Block.modGrp; cases u <;> rfl) fun b => by unfold Block.modGrp; cases u <;> rfl
theorem ringAt_retire (s : State) (u : UnitRef) (l n q : Nat) : (s.retire u l).ringAt n q = s.ringAt n q := by
  unfold State.retire
  split
  · rfl
  · have : ∀ (x : State) (c : Nat) (f : Ctx → Ctx), (x.modCtx c f).ringAt n q = x.ringAt n q := fun x c f => by
      unfold State.ringAt State.blk?; rw [modCtx_blocks]
    unfold State.bump
    rw [this, ringAt_modThread]
/-- Words that a lane's result pushes on port `q`. -/
def laneWords (dst : Option Dest) (o : LaneOut) : List PWord := match lanePush dst o with | some x => x.2 | none => []
theorem lanePush_port {d : Dest} {q : Nat} (h : opKind d.f = .port q) (o : LaneOut) :
    lanePush (some d) o = if o.retire then none else o.dst.map fun ws => (q, ws) := by
  unfold lanePush; cases o.dst <;> simp [h]
theorem lanePush_other {dst : Option Dest} (h : ∀ d, dst = some d → ∀ q, opKind d.f ≠ .port q) (o : LaneOut) : lanePush dst o = none := by
  unfold lanePush
  split
  · rfl
  · cases dst with
    | none => rfl
    | some d =>
      have := h d rfl
      cases o.dst with
      | none => rfl
      | some ws => dsimp only; cases hk : opKind d.f <;> simp_all
theorem commitLane_ring (u : UnitRef) (d : Dest) (q : Nat) (hq : opKind d.f = .port q) (s : State) (l : Nat) (o : LaneOut) :
    (commitLane u (some d) s l o).ringAt u.blk q = (s.ringAt u.blk q).map fun r => { r with tail := r.tail + (laneWords (some d) o).length } := by
  rw [commitLane_eq]
  have h := lanePush_port hq o
  unfold laneWords
  split
  · rename_i hr
    rw [ringAt_retire, h]
    simp only [hr, if_true, List.length_nil, Nat.add_zero]
    cases s.ringAt u.blk q <;> rfl
  · rename_i hr
    have hr' : o.retire = false := by simpa using hr
    rw [ringAt_modThread, h, hr']
    simp only [Bool.false_eq_true, if_false]
    cases o.dst with
    | none => simp only [Option.map_none, pushed, List.length_nil, Nat.add_zero]; cases s.ringAt u.blk q <;> rfl
    | some ws => exact pushRing_ring u.blk q ws s
theorem commitLane_wf (u : UnitRef) (dst : Option Dest) (s : State) (l : Nat) (o : LaneOut) (h : memWf s.mem = true) : memWf (commitLane u dst s l o).mem = true := by
  rw [commitLane_mem]
  cases lanePush dst o with
  | none => exact h
  | some x => exact pushRing_wf _ _ _ _ h
/-- Leaving results keeps the canonical form of memory. -/
theorem commitLanes_wf (u : UnitRef) (dst : Option Dest) : ∀ (outs : List (Nat × LaneOut)) (s : State), memWf s.mem = true →
    memWf (outs.foldl (fun s o => commitLane u dst s o.1 o.2) s).mem = true
  | [], _, h => h
  | o :: outs, s, h => commitLanes_wf u dst outs _ (commitLane_wf u dst s o.1 o.2 h)
theorem commitLanes_mem_frame (u : UnitRef) (d : Dest) (q : Nat) (hq : opKind d.f = .port q) (a : Nat) : ∀ (outs : List (Nat × LaneOut)) (s : State), memWf s.mem = true →
    (∀ k ∈ ringPlaces s u.blk q ((outs.map fun o => (laneWords (some d) o.2).length).sum), a < k ∨ k + 4 ≤ a) →
    memGet (outs.foldl (fun s o => commitLane u (some d) s o.1 o.2) s).mem a = memGet s.mem a
  | [], _, _, _ => rfl
  | o :: outs, s, hw, h => by
    rw [List.foldl_cons, commitLanes_mem_frame u d q hq a outs _ (commitLane_wf u _ s _ _ hw)]
    · rw [commitLane_mem]
      have hl := lanePush_port hq o.2
      cases hp : lanePush (some d) o.2 with
      | none => rfl
      | some x =>
        have hx : x.1 = q := by
          rw [hp] at hl
          split at hl
          · cases hl
          · cases hd : o.2.dst <;> simp [hd] at hl; rw [hl]
        refine pushRing_frame u.blk x.1 a x.2 s hw ?_
        intro k hk
        apply h k
        rw [hx] at hk
        have e : (laneWords (some d) o.2) = x.2 := by unfold laneWords; rw [hp]
        unfold ringPlaces at hk ⊢
        cases hr : s.ringAt u.blk q with
        | none => simp [hr] at hk
        | some r =>
          simp only [hr, List.mem_map, List.mem_range, List.map_cons, List.sum_cons, e] at hk ⊢
          obtain ⟨i, hi, rfl⟩ := hk
          exact ⟨i, by omega, rfl⟩
    · intro k hk
      apply h k
      unfold ringPlaces at hk ⊢
      rw [commitLane_ring u d q hq] at hk
      cases hr : s.ringAt u.blk q with
      | none => simp [hr] at hk
      | some r =>
        simp only [hr, Option.map_some, List.mem_map, List.mem_range, List.map_cons, List.sum_cons] at hk ⊢
        obtain ⟨i, hi, rfl⟩ := hk
        refine ⟨(laneWords (some d) o.2).length + i, by omega, ?_⟩
        unfold Ring.place
        dsimp only
        rw [Nat.add_assoc]
/-- The bytes that results may store to are the places pushed. -/
theorem commitLanes_frame (u : UnitRef) (dst : Option Dest) (outs : List (Nat × LaneOut)) (s : State) (a : Nat) (hw : memWf s.mem = true)
    (h : ∀ k ∈ pushedAt s u dst outs, a < k ∨ k + 4 ≤ a) : memGet (outs.foldl (fun s o => commitLane u dst s o.1 o.2) s).mem a = memGet s.mem a := by
  by_cases hd : ∃ d q, dst = some d ∧ opKind d.f = .port q
  · obtain ⟨d, q, rfl, hq⟩ := hd
    refine commitLanes_mem_frame u d q hq a outs s hw ?_
    have e : (outs.map fun o => (laneWords (some d) o.2).length).sum = pushCount d outs := by
      unfold pushCount
      rw [hq]
      congr 1
      refine List.map_congr_left fun o _ => ?_
      unfold laneWords
      rw [lanePush_port hq]
      cases o.2.retire <;> cases o.2.dst <;> rfl
    intro k hk
    apply h k
    unfold pushedAt
    dsimp only
    rw [hq]
    unfold ringPlaces State.ringAt at hk
    rw [e] at hk
    dsimp only
    cases hr : (s.blk? u.blk).bind (·.ring? q) with
    | none => simp [hr] at hk
    | some r => simpa [hr] using hk
  · have hn : ∀ d, dst = some d → ∀ q, opKind d.f ≠ .port q := fun d h1 q h2 => hd ⟨d, q, h1, h2⟩
    have key : ∀ (outs : List (Nat × LaneOut)) (s : State), (outs.foldl (fun s o => commitLane u dst s o.1 o.2) s).mem = s.mem := by
      intro outs
      induction outs with
      | nil => intro s; rfl
      | cons o outs ih => intro s; rw [List.foldl_cons, ih, commitLane_mem, lanePush_other hn]; rfl
    rw [key]

/-! ## The end of the instruction -/

/-- A thread that is not in a clause, or does not run, keeps its place and its state when its split goes on; every thread keeps its registers and control bits. -/
theorem thr_setGrp (s : State) (u : UnitRef) (g g0 : Grp) (h : s.grp? u = some g0) (u' : UnitRef) (l : Nat) :
    thr? (s.modGrp u fun _ => g) u' l = if u' = u then g.threads[l]? else thr? s u' l := by
  have hu : ∀ b : Block, (b.modGrp u fun _ => g).uid = b.uid := fun b => by unfold Block.modGrp; cases u <;> rfl
  unfold thr? State.modGrp
  unfold State.grp? at h ⊢
  rw [blk_modBlk s u.blk u'.blk _ hu]
  by_cases hb : u'.blk = u.blk
  · rw [if_pos hb, hb]
    cases hs : s.blk? u.blk with
    | none => simp [hs] at h
    | some b =>
      simp only [hs, Option.bind_some] at h
      simp only [Option.map_some, Option.bind_some]
      cases u with
      | front n =>
        cases u' with
        | front n' => have : n' = n := hb; subst this; simp [Block.modGrp, Block.grp?]
        | group n' g' =>
          have : ¬ (UnitRef.group n' g' = UnitRef.front n) := fun h => by cases h
          rw [if_neg this]
          simp [Block.modGrp, Block.grp?]
      | group n i =>
        cases u' with
        | front n' =>
          have : ¬ (UnitRef.front n' = UnitRef.group n i) := fun h => by cases h
          rw [if_neg this]
          simp [Block.modGrp, Block.grp?]
        | group n' i' =>
          have hn : n' = n := hb
          subst hn
          simp only [Block.grp?] at h
          simp only [Block.modGrp, Block.grp?, List.getElem?_modify, UnitRef.group.injEq, true_and]
          by_cases hi : i' = i
          · subst hi; simp [h]
          · have : ¬ i = i' := fun h => hi h.symm
            simp [hi, this]
  · have : ¬ (u' = u) := fun h => hb (by rw [h])
    rw [if_neg hb, if_neg this]

theorem threads_goFold (f : Thread → Thread) : ∀ (ls : List Nat) (g : Grp) (l : Nat), l ∉ ls → (ls.foldl (fun g l => g.modThread l f) g).threads[l]? = g.threads[l]?
  | [], _, _, _ => rfl
  | a :: ls, g, l, h => by
    rw [List.foldl_cons, threads_goFold f ls _ l (fun hm => h (List.mem_cons_of_mem _ hm))]
    unfold Grp.modThread
    rw [List.getElem?_modify]
    have : ¬ a = l := fun e => h (e ▸ List.mem_cons_self)
    cases g.threads[l]? <;> simp [this]
/-- What a thread outside the clause keeps when its unit goes on: all but the cycle of its last issue. -/
def standing (t : Thread) : Thread := { t with lastIssue := 0 }
theorem issued_standing (g : Grp) (c l : Nat) : ((g.issued c).threads[l]?).map standing = (g.threads[l]?).map standing := by
  unfold Grp.issued
  simp only [List.getElem?_map, List.getElem?_zipIdx, Nat.zero_add, Option.map_map]
  cases g.threads[l]? with
  | none => rfl
  | some t => simp only [Option.map_some, Option.some.injEq, Function.comp]; split <;> rfl
/-- Going on changes no thread that has left the clause. -/
theorem advance_standing (s : State) (v : View) (y : Bool) (u : UnitRef) (l : Nat) (t : Thread) (h : thr? s u l = some t)
    (hc : (t.stat == .run && t.cl.isSome) = false) : (thr? (s.advance v y) u l).map standing = some (standing t) := by
  have hs : (thr? s u l).map standing = some (standing t) := by rw [h]; rfl
  unfold State.advance
  split
  · exact hs
  · rename_i b hb
    split
    · exact hs
    · rename_i g0 hg
      have h0 := grp_of_blk hb hg
      -- the unit's new threads, where they are those issued but for the lanes that stay
      have key : ∀ g : Grp, (u = v.u → (g.threads[l]?).map standing = some (standing t)) →
          (thr? (s.modGrp v.u fun _ => g) u l).map standing = some (standing t) := by
        intro g hgt
        rw [thr_setGrp s v.u g g0 h0]
        split
        · rename_i e; exact hgt e
        · exact hs
      have hi : u = v.u → ((g0.issued (s.cycleOf b.core).toNat).threads[l]?).map standing = some (standing t) := by
        intro e
        rw [issued_standing]
        subst e
        have : g0.threads[l]? = some t := by simpa [thr?, h0] using h
        rw [this]; rfl
      have hout : u = v.u → l ∉ (lanesOf (g0.issued (s.cycleOf b.core).toNat).runs).filter fun l =>
          match (g0.issued (s.cycleOf b.core).toNat).threads[l]? with | some t => t.stat == .run && t.cl.isSome | none => false := by
        intro e hm
        have hm2 := (List.mem_filter.mp hm).2
        have hx := hi e
        cases hq : (g0.issued (s.cycleOf b.core).toNat).threads[l]? with
        | none => rw [hq] at hx; cases hx
        | some x =>
          rw [hq] at hx hm2
          simp only [Option.map_some, Option.some.injEq] at hx
          have e1 := congrArg Thread.stat hx
          have e1 : x.stat = t.stat := e1
          have e2 := congrArg Thread.cl hx
          have e2 : x.cl = t.cl := e2
          simp only [e1, e2, hc, Bool.false_eq_true] at hm2
      dsimp only
      split
      · rw [calm_leaveClause]; exact key _ hi
      · split
        · exact hs
        · split
          · split
            · rw [calm_leaveClause]
              refine key _ fun e => ?_
              exact (congrArg (Option.map standing) (threads_goFold _ _ _ _ (hout e))).trans (hi e)
            · rw [calm_takeFault]; exact key _ hi
          · refine key _ fun e => ?_
            exact (congrArg (Option.map standing) (threads_goFold _ _ _ _ (hout e))).trans (hi e)

/-! ## The whole effect of lanes' results -/

theorem ctl_inj {x y : Thread} (h : ctl x = ctl y) : x.preds = y.preds ∧ x.mode = y.mode ∧ x.sticky = y.sticky ∧ x.pend = y.pend ∧ x.mr = y.mr ∧ x.mstk = y.mstk ∧ x.unp = y.unp := by
  simpa [ctl] using h
theorem ctl_setPred {x y : Thread} (h : ctl x = ctl y) (k : PNum) (b : Bool) : ctl (x.setPred k b) = ctl (y.setPred k b) := by
  obtain ⟨h1, h2, h3, h4, h5, h6, h7⟩ := ctl_inj h
  unfold Thread.setPred
  split
  · exact h
  · simp [ctl, h1, h2, h3, h4, h5, h6, h7]
theorem ctl_setPreds {x y : Thread} (h : ctl x = ctl y) (ps : List (PNum × Bool)) :
    ctl (ps.foldl (fun t p => t.setPred p.1 p.2) x) = ctl (ps.foldl (fun t p => t.setPred p.1 p.2) y) := by
  induction ps generalizing x y with
  | nil => exact h
  | cons p ps ih => exact ih (ctl_setPred h _ _)
theorem ctl_leave {x y : Thread} (h : ctl x = ctl y) (o : LaneOut) : ctl (x.leave o) = ctl (y.leave o) := by
  have h0 := ctl_setPreds h o.preds
  unfold Thread.leave
  generalize o.preds.foldl (fun t p => t.setPred p.1 p.2) x = x at h0
  generalize o.preds.foldl (fun t p => t.setPred p.1 p.2) y = y at h0
  obtain ⟨h1, h2, h3, h4, h5, h6, h7⟩ := ctl_inj h0
  cases o.setPreds <;> cases o.setMode <;> cases o.setSticky <;> simp [ctl, Thread.setFlags, h1, h2, h3, h4, h5, h6, h7]
theorem newCtl_leave (o : LaneOut) (t : Thread) : newCtl o t = if o.retire then t else t.leave o := rfl
theorem ctl_laneEnd (dst : Option Dest) (o : LaneOut) (t : Thread) : ctl (laneEnd dst o t) = ctl (newCtl o t) := by
  rw [newCtl_leave]
  unfold laneEnd laneT
  split
  · rfl
  · split
    · split
      · rename_i k
        exact ctl_leave (keepT_setRegs_ctl t _ _) o
      · rfl
    · rfl
theorem setPreds_regs (ps : List (PNum × Bool)) (t : Thread) : (ps.foldl (fun t p => t.setPred p.1 p.2) t).regs = t.regs := by
  induction ps generalizing t with
  | nil => rfl
  | cons p ps ih => rw [List.foldl_cons, ih]; unfold Thread.setPred; split <;> rfl
theorem leave_regs (o : LaneOut) (t : Thread) : (t.leave o).regs = t.regs := by
  unfold Thread.leave
  rw [← setPreds_regs o.preds t]
  cases o.setPreds <;> cases o.setMode <;> cases o.setSticky <;> rfl
theorem regs_laneEnd (dst : Option Dest) (outs : List (Nat × LaneOut)) (l r : Nat) (o : Nat × LaneOut) (ho : outs.find? (·.1 == l) = some o) (t : Thread) :
    (laneEnd dst o.2 t).regs[r]? = match newReg dst outs l r with | some x => (t.regs[r]?).map fun _ => x | none => t.regs[r]? := by
  unfold newReg laneEnd laneT
  rw [ho]
  simp only [Option.bind_some]
  cases hr : o.2.retire with
  | true =>
    simp only [if_true]
    cases dst with
    | none => rfl
    | some d => simp only [Option.bind_some]; cases opKind d.f <;> cases o.2.dst <;> rfl
  | false =>
    simp only [Bool.false_eq_true, if_false]
    cases dst with
    | none => simp [leave_regs]
    | some d =>
      cases hd : o.2.dst with
      | none => simp only [Option.bind_some]; cases opKind d.f <;> simp [leave_regs]
      | some ws =>
        simp only [Option.bind_some]
        cases opKind d.f with
        | reg k =>
          simp only [leave_regs, setRegs_get]
          by_cases hk : k ≤ r
          · simp only [hk, if_true]; cases ws[r - k]? <;> rfl
          · simp only [hk, if_false]
        | _ => simp [leave_regs]
/-- Lanes' results, the exits they bring about, and the split's going on. -/
theorem commitAll_effect {s s1 : State} {v : View} {dst : Option Dest} {outs : List (Nat × LaneOut)} (hs : Quiet s s1) (hn : (outs.map (·.1)).Nodup)
    (hw : memWf s.mem = true) : Effect s s1 (commitAll v dst outs s1) v.u dst outs := by
  -- all but the lanes' results is quiet
  have hq : Quiet (outs.foldl (fun s o => commitLane v.u dst s o.1 o.2) s1) (commitAll v dst outs s1) := by
    unfold commitAll
    refine Quiet.trans ?_ (quiet_advance _ _ _)
    split
    · exact quiet_afterExit _ _
    · exact Quiet.rfl' _
  have hrest : ∀ (outs : List (Nat × LaneOut)) (s : State),
      (∀ n, ((outs.foldl (fun s o => commitLane v.u dst s o.1 o.2) s).blk? n).map engines = (s.blk? n).map engines) ∧
      restS (outs.foldl (fun s o => commitLane v.u dst s o.1 o.2) s) = restS s ∧
      (∀ c, ((outs.foldl (fun s o => commitLane v.u dst s o.1 o.2) s).ctxD c).rcd = (s.ctxD c).rcd) := by
    intro outs
    induction outs with
    | nil => intro s; exact ⟨fun _ => rfl, rfl, fun _ => rfl⟩
    | cons o outs ih =>
      intro s
      have h1 := commitLane_rest v.u dst s o.1 o.2
      have h2 := ih (commitLane v.u dst s o.1 o.2)
      exact ⟨fun n => (h2.1 n).trans (h1.1 n), h2.2.1.trans h1.2.1, fun c => (h2.2.2 c).trans (h1.2.2 c)⟩
  have hk : ∀ u' l', (thr? (commitAll v dst outs s1) u' l').map keepT =
      match (if u' = v.u then outs.find? (·.1 == l') else none) with
      | some o => (thr? s1 u' l').map fun t => keepT (laneEnd dst o.2 t)
      | none => (thr? s1 u' l').map keepT := by
    intro u' l'
    rw [thr_keep hq.keep, thr_commitLanes v.u dst u' l' outs s1 hn]
    cases (if u' = v.u then outs.find? (·.1 == l') else none) with
    | none => rfl
    | some o => simp [Option.map_map, Function.comp_def]
  have hsk : ∀ u' l', (thr? s1 u' l').map keepT = (thr? s u' l').map keepT := thr_keep hs.keep
  refine ⟨⟨?_, ?_⟩, ?_, ?_, ?_, ?_⟩
  · intro u' l r
    rw [← reg_of_keep hs.keep u' l r, reg_eq, hk]
    by_cases hu : u' = v.u
    · simp only [hu, if_true]
      cases hf : outs.find? (·.1 == l) with
      | none => 
        have : newReg dst outs l r = none := by unfold newReg; rw [hf]; rfl
        rw [this]; exact (reg_eq _ _ _ _).symm
      | some o =>
        have h1 := fun t => regs_laneEnd dst outs l r o hf t
        unfold reg?
        cases thr? s1 v.u l with
        | none => simp; cases newReg dst outs l r <;> rfl
        | some t => simp only [Option.map_some, Option.bind_some, keepT]; exact h1 t
    · simp only [hu, if_false]; exact (reg_eq _ _ _ _).symm
  · intro u' l
    rw [ctl_eq, hk]
    have h1 := hsk u' l
    cases hf : (if u' = v.u then outs.find? (·.1 == l) else none) with
    | none => simp only []; rw [hsk, ← ctl_eq]
    | some o =>
      simp only []
      cases hx : thr? s1 u' l with
      | none => rw [hx] at h1; cases hy : thr? s u' l <;> simp [hy] at h1 ⊢
      | some x =>
        rw [hx] at h1
        cases hy : thr? s u' l with
        | none => simp [hy] at h1
        | some y =>
          rw [hy] at h1
          simp only [Option.map_some, Option.some.injEq, keepT, Prod.mk.injEq] at h1 ⊢
          rw [ctl_laneEnd, newCtl_leave, newCtl_leave]
          split
          · exact h1.2
          · exact ctl_leave h1.2 _
  · intro n
    exact (engines_keep hq.keep n).trans (((hrest outs s1).1 n).trans (engines_keep hs.keep n))
  · intro a ha
    rw [hq.mem, commitLanes_frame v.u dst outs s1 a (by rw [hs.mem]; exact hw) ha, hs.mem]
  · exact fun c => (hq.rcd c).trans (((hrest outs s1).2.2 c).trans (hs.rcd c))
  · exact frame_of_rest (hq.rest.trans ((hrest outs s1).2.1.trans hs.rest))
/-- A retired lane stays retired. -/
theorem commitAll_retired {s1 : State} {v : View} {dst : Option Dest} {outs : List (Nat × LaneOut)} (hn : (outs.map (·.1)).Nodup) {o : Nat × LaneOut} (ho : o ∈ outs)
    (hr : o.2.retire = true) {t : Thread} (ht : thr? s1 v.u o.1 = some t) : (thr? (commitAll v dst outs s1) v.u o.1).map (·.stat) = some .retired := by
  have hf : outs.find? (·.1 == o.1) = some o := by
    clear ht
    induction outs with
    | nil => cases ho
    | cons a outs ih =>
      rw [List.map_cons, List.nodup_cons] at hn
      rw [List.find?_cons]
      rcases List.mem_cons.mp ho with rfl | h
      · simp
      · have : (a.1 == o.1) = false := by
          simp only [beq_eq_false_iff_ne]
          intro e
          exact hn.1 (e ▸ List.mem_map.mpr ⟨o, h, rfl⟩)
        rw [this]; exact ih hn.2 h
  have h1 := thr_commitLanes v.u dst v.u o.1 outs s1 hn
  simp only [if_true, hf, ht, Option.map_some] at h1
  have h2 : thr? (if outs.any (·.2.retire) then (outs.foldl (fun s o => commitLane v.u dst s o.1 o.2) s1).afterExit v.u.blk
      else outs.foldl (fun s o => commitLane v.u dst s o.1 o.2) s1) v.u o.1 = some (laneEnd dst o.2 t) := by
    split
    · rw [calm_afterExit]; exact h1
    · exact h1
  have h3 := advance_standing _ v false v.u o.1 _ h2 (by unfold laneEnd; simp [hr])
  unfold commitAll
  dsimp only
  cases hx : thr? (State.advance _ v) v.u o.1 with
  | none => rw [hx] at h3; cases h3
  | some x =>
    rw [hx] at h3
    simp only [Option.map_some, Option.some.injEq] at h3 ⊢
    have e := congrArg Thread.stat h3
    have e : x.stat = (laneEnd dst o.2 t).stat := e
    rw [e]; unfold laneEnd; simp [hr]

/-! ## The lanes of an instruction -/

theorem active_nodup (v : View) (g : Guard) : (v.active g).Nodup := by
  unfold View.active View.lanes lanesOf
  exact ((List.nodup_range.filter _).filter _).filter _
/-- A unit's view shows its threads as the state holds them. -/
theorem view_thr {s : State} {v : View} (h : s.view? = some v) (l : Nat) : v.thread l = thr? s v.u l := by
  unfold State.view? at h
  simp only [Option.bind_eq_some_iff, Option.map_eq_some_iff] at h
  obtain ⟨u, hu, b, hb, g, hg, rfl⟩ := h
  simp [View.thread, thr?, State.grp?, hb, hg]
end Sys2Proof.Machine
end

