-- ==== Sys2Proof/Tests/Slice0.lean ====
section
/-! SUPPORT. Tests and witnesses: words written from the spec's encodings, ill-formed terms, single steps, and for every statement's hypotheses a state and operands that meet them. -/

namespace Sys2Proof.Tests.Slice0

open Sys2Proof Sys2Proof.Machine Sys2Proof.Spec

set_option Elab.async false

/-! ## Words of the spec's encodings

Each word is laid out from the fields of R42 to R48, the layouts of R54 and the opcodes of R56 to R61: guard !p2, D 8, A 4, B 12, C 16, RET b, ET a and c, WAIT slots 15 and 0. -/

def g : Guard := ⟨true, 2⟩
def wA : WA := ⟨g, 8, 4, 12, 16, 2, 5⟩
def wI : WI := ⟨g, 8, 4, true, 0x89ABCDEF⟩
def wM (sc : Scope) (o : Order) (n : Width) : WM := ⟨g, 8, 4, sc, o, n, 0x80040⟩
def wE : WE := ⟨g, 8, 4, 12, 0x8001, 9, true⟩
def wC : WC := ⟨g, 8, 4, 12, 0x8001⟩

theorem test_words_integer : ∀ r ∈ ([
    (.V, 0x00A040101810A800, .iadd wA),
    (.V, 0x01A040101810A800, .isub wA),
    (.V, 0x04A040101810A800, .imul wA),
    (.V, 0x06A040101810A800, .imad wA),
    (.V, 0x0AA040101810A800, .iabs wA),
    (.V, 0x0BA040101810A800, .ineg wA),
    (.V, 0x10A040101810A800, .iadd64 wA),
    (.V, 0x05A040101810A801, .imulh wA true),
    (.V, 0x07A040101810A801, .imadw wA true),
    (.V, 0x08A040101810A801, .idiv wA true),
    (.V, 0x09A040101810A801, .irem wA true),
    (.V, 0x0CA040101810A801, .imin wA true),
    (.V, 0x0DA040101810A801, .imax wA true),
    (.V, 0x0EA040101810A801, .iclamp wA true),
    (.V, 0x11A040101810A801, .imad64 wA true),
    (.V, 0x02A040101810ABB0, .iaddc wA ⟨3, 5, true⟩),
    (.V, 0x03A040101810ABB0, .isubb wA ⟨3, 5, true⟩),
    (.V, 0x0FA040101810A813, .lea wA 19)] : List (Cls × DWord × Instr)), decode r.1 r.2.1 = .ok r.2.2 := by decide
theorem test_words_select : ∀ r ∈ ([
    (.V, 0x12A040101810AB81, .isetp wA 3 .gt true),
    (.V, 0x13A040101810ABBB, .psetp wA ⟨3, 5, 6, .andn⟩),
    (.V, 0x14A040101810AB80, .sel wA 3 true),
    (.V, 0x15A040101810A800, .mov wA),
    (.V, 0x16A0401289ABCDEF, .movi wI),
    (.V, 0x17A040101810A801, .movp wA true),
    (.V, 0x89A040101810A801, .sread wA true),
    (.V, 0x8AA040101810A800, .swrite wA false)] : List (Cls × DWord × Instr)), decode r.1 r.2.1 = .ok r.2.2 := by decide
theorem test_words_logic_1 : ∀ r ∈ ([
    (.V, 0x18A040101810A800, .and wA),
    (.V, 0x19A040101810A800, .or wA),
    (.V, 0x1AA040101810A800, .xor wA),
    (.V, 0x1BA040101810A800, .andn wA),
    (.V, 0x1CA040101810A800, .not wA),
    (.V, 0x1EA040101810A800, .shl wA),
    (.V, 0x1FA040101810A800, .shr wA),
    (.V, 0x20A040101810A800, .sar wA),
    (.V, 0x21A040101810A800, .rotl wA),
    (.V, 0x23A040101810A800, .popc wA),
    (.V, 0x24A040101810A800, .clz wA),
    (.V, 0x25A040101810A800, .ctz wA),
    (.V, 0x26A040101810A800, .brev wA),
    (.V, 0x28A040101810A800, .bfi wA),
    (.V, 0x29A040101810A800, .bswz wA),
    (.V, 0x1DA040101810A896, .bmix wA 0x96),
    (.V, 0x22A040101810A801, .shf wA true),
    (.V, 0x27A040101810A801, .bfx wA true),
    (.V, 0x30A0401289ABCDEF, .iaddImm wI),
    (.V, 0x31A0401289ABCDEF, .imulImm wI)] : List (Cls × DWord × Instr)), decode r.1 r.2.1 = .ok r.2.2 := by decide
theorem test_words_logic_2 : ∀ r ∈ ([
    (.V, 0x32A0401289ABCDEF, .andImm wI),
    (.V, 0x33A0401289ABCDEF, .orImm wI),
    (.V, 0x34A0401289ABCDEF, .xorImm wI),
    (.V, 0x35A0401289ABCDEF, .shlImm wI),
    (.V, 0x36A0401289ABCDEF, .shrImm wI),
    (.V, 0x37A0401289ABCDEF, .sarImm wI)] : List (Cls × DWord × Instr)), decode r.1 r.2.1 = .ok r.2.2 := by decide
theorem test_words_float : ∀ r ∈ ([
    (.V, 0x40A040101810A803, .fadd wA (some .rd)),
    (.V, 0x41A040101810A803, .fmul wA (some .rd)),
    (.V, 0x42A040101810A803, .ffma wA (some .rd)),
    (.V, 0x45A040101810A803, .frnd wA (some .rd)),
    (.V, 0x50A040101810A803, .frcp wA (some .rd)),
    (.V, 0x52A040101810A803, .fsqrt wA (some .rd)),
    (.V, 0x43A040101810A800, .fmin wA),
    (.V, 0x44A040101810A800, .fmax wA),
    (.V, 0x46A040101810A800, .fclass wA),
    (.V, 0x51A040101810A800, .frsq wA),
    (.V, 0x53A040101810A800, .fexp2 wA),
    (.V, 0x54A040101810A800, .flog2 wA),
    (.V, 0x55A040101810A800, .ftanh wA),
    (.V, 0x47A040101810ABA4, .fsetp wA 3 .ge .bf16),
    (.V, 0x48A040101810A80A, .hadd2 wA true (some .rz)),
    (.V, 0x49A040101810A80A, .hmul2 wA true (some .rz)),
    (.V, 0x4AA040101810A80A, .hfma2 wA true (some .rz)),
    (.V, 0x70A040101810AD44, .cvt wA (.n .t8) (.f .f32) (some .ru)),
    (.V, 0x71A040101810AE60, .ncvt wA .t6 .f16 none),
    (.V, 0x72A040101810ACA1, .ndec wA .bf16 .t8 (some .rn))] : List (Cls × DWord × Instr)), decode r.1 r.2.1 = .ok r.2.2 := by decide
theorem test_words_control : ∀ r ∈ ([
    (.V, 0x80A00000FFFFFFA0, .bra g 0xFFFFFFA0),
    (.V, 0x81A040101810A800, .brx wA),
    (.V, 0x82A0001400000030, .call g 20 0x30),
    (.V, 0x83A040101810A800, .callx wA),
    (.V, 0x84A040101810A800, .ret wA),
    (.V, 0x85A0000000000048, .meet g 0x48),
    (.V, 0x86A0000000000000, .exit g),
    (.V, 0x87A0000000000000, .yield g),
    (.V, 0x88A0000000000000, .nop g),
    (.V, 0xF700123456789ABC, .hint 7 0x00123456789ABC)] : List (Cls × DWord × Instr)), decode r.1 r.2.1 = .ok r.2.2 := by decide
theorem test_words_group_1 : ∀ r ∈ ([
    (.V, 0xA0A040101810AB22, .shfl wA ⟨3, .up, .w8⟩),
    (.V, 0xA1A040101810AB56, .vote wA 3 .uni 5 true),
    (.V, 0xA2A040101810A816, .ballot wA 5 true),
    (.V, 0xA3A040101810AB00, .elect wA 3),
    (.V, 0xA4A040101810A800, .actmask wA),
    (.V, 0xA5A040101810A801, .matchLanes wA true),
    (.V, 0xA6A040101810A841, .redux wA .max true),
    (.V, 0xA7A040101810A8A2, .scan wA .xor true false),
    (.V, 0xA8A040101810A801, .nscale wA true),
    (.V, 0xA9A0401289ABCDEF, .bar wI),
    (.V, 0xAAA0401289ABCDEF, .cbar wI),
    (.V, 0xABA040101810AB00, .qtry wA 3),
    (.V, 0xACA0401289ABCDEF, .qcfg wI),
    (.V, 0xADA040101810A800, .qlen wA),
    (.V, 0xAEA0401289ABCDEF, .ptok wI),
    (.S, 0xAFA040101810A800, .trayw wA),
    (.S, 0xB0A0401289ABCDEF, .ssel wI),
    (.V, 0xB1A040101810A801, .chsend wA true),
    (.V, 0xB2A040101810A800, .chrecv wA false),
    (.V, 0xB3A040101810A800, .rtlaunch wA)] : List (Cls × DWord × Instr)), decode r.1 r.2.1 = .ok r.2.2 := by decide
theorem test_words_group_2 : ∀ r ∈ ([
    (.V, 0xB4A040101810AB00, .rtclaim wA 3),
    (.V, 0xB5A040101810A800, .gsig wA),
    (.V, 0xB6A040101810A800, .gwait wA)] : List (Cls × DWord × Instr)), decode r.1 r.2.1 = .ok r.2.2 := by decide
theorem test_words_memory : ∀ r ∈ ([
    (.V, 0xC0A0401224180040, .lds (wM .die .acquire .w2) true),
    (.V, 0xC0A0401225180040, .ldp (wM .die .acquire .w2) true),
    (.V, 0xC0A0401226180040, .ldk (wM .die .acquire .w2) true),
    (.V, 0xC1A0401350080040, .sts (wM .system .release .w16)),
    (.V, 0xC1A0401351080040, .stp (wM .system .release .w16)),
    (.V, 0xC1A0401352080040, .stk (wM .system .release .w16)),
    (.V, 0xC2A04012ED680040, .atom (wM .device .acqRel .w8) .scratch .or),
    (.V, 0xC3A04011E8080040, .acas (wM .cluster .acqRel .w4) .shared),
    (.V, 0xC4A0401140180040, .presw (wM .block .release .w1) true),
    (.V, 0xC5A04010A0080040, .presq (wM .group .acquire .w1)),
    (.V, 0xE0A0401360080040, .fence (wM .system .acqRel .w1)),
    (.V, 0xE1A040128C080040, .bbinit (wM .thread .plain .w8)),
    (.V, 0xE2A040128C080040, .bbexp (wM .thread .plain .w8)),
    (.V, 0xE3A040128C080040, .bbarv (wM .thread .plain .w8)),
    (.V, 0xE4A040128C080040, .bbwait (wM .thread .plain .w8))] : List (Cls × DWord × Instr)), decode r.1 r.2.1 = .ok r.2.2 := by decide
theorem test_words_engine_c_1 : ∀ r ∈ ([
    (.C, 0x00A0401019000200, .trec wC),
    (.C, 0x30A0401019000200, .hnew wC),
    (.C, 0x31A0401019000200, .hcopy wC),
    (.C, 0x32A0401019000200, .hdrop wC),
    (.C, 0x33A0401019000200, .hbind wC),
    (.C, 0x34A0401019000200, .hderef wC),
    (.C, 0x35A0401019000200, .hwt wC),
    (.C, 0x50A0401019000200, .tlread wC),
    (.C, 0x51A0401019000200, .tlwait wC),
    (.C, 0x01A0401019000200, .cpy wC .creg),
    (.C, 0x02A0401019000201, .cpys wC .cmem),
    (.C, 0x03A0401019000200, .cpyg wC .creg),
    (.C, 0x04A0401019000201, .cpyc wC .cmem),
    (.C, 0x20A0401019000200, .wstreamStart wC),
    (.C, 0x20A0401019000201, .wstreamRel wC),
    (.C, 0x20A0401019000202, .wstreamStop wC),
    (.C, 0x40A0401019000200, .collAr wC),
    (.C, 0x40A0401019000201, .collAg wC),
    (.C, 0x40A0401019000202, .collRs wC),
    (.C, 0x41A0401019000200, .xsigSet wC)] : List (Cls × DWord × Instr)), decode r.1 r.2.1 = .ok r.2.2 := by decide
theorem test_words_engine_c_2 : ∀ r ∈ ([
    (.C, 0x41A0401019000201, .xsigAdd wC)] : List (Cls × DWord × Instr)), decode r.1 r.2.1 = .ok r.2.2 := by decide
theorem test_words_engine_m : ∀ r ∈ ([
    (.M, 0x00A0401019000330, .mwld wE),
    (.M, 0x01A0401019000330, .mloop wE),
    (.M, 0x02A0401019000330, .mrowsc wE),
    (.M, 0x03A0401019000330, .mdrain wE),
    (.M, 0x04A0401019000330, .mzero wE),
    (.M, 0x20A0401019000330, .aseq wE),
    (.M, 0x21A0401019000330, .atile wE),
    (.M, 0x22A0401019000330, .amask wE),
    (.M, 0x23A0401019000330, .svmap wE),
    (.M, 0x24A0401019000330, .svset wE),
    (.M, 0x25A0401019000330, .svclr wE),
    (.M, 0x41A0401019000330, .dscommit wE),
    (.M, 0x05A0401019000331, .mstat wE true),
    (.M, 0x40A0401019000330, .dsread wE .cur),
    (.M, 0x40A0401019000331, .dsread wE .frame),
    (.M, 0x40A0401019000332, .dsread wE .pend),
    (.M, 0x42A0401019000330, .dstruncFrame wE),
    (.M, 0x42A0401019000331, .dstruncPos wE),
    (.M, 0x43A0401019000330, .dsckptSave wE),
    (.M, 0x43A0401019000331, .dsckptRel wE)] : List (Cls × DWord × Instr)), decode r.1 r.2.1 = .ok r.2.2 := by decide
theorem test_words_x : ∀ r ∈ ([
    (.X, 0x00A0401289ABCDEF, .trap wI),
    (.X, 0x01A0401289ABCDEF, .svc wI),
    (.X, 0x02A0401289ABCDEF, .bkpt wI),
    (.X, 0x03A040101810A809, .statrd wA 9),
    (.X, 0x04A040101810A80C, .statclr wA 12)] : List (Cls × DWord × Instr)), decode r.1 r.2.1 = .ok r.2.2 := by decide

/-! ## Ill-formed terms are refused, one for each check -/

def grp0 : UnitRef := .group 0 0
theorem test_ill_formed_words : ∀ i ∈ ([
    .cvt wA .s32 .s32 none, .lds (wM .thread .release .w4) false, .ldp (wM .die .plain .w4) false, .ldk (wM .thread .plain .w4) true,
    .sts (wM .thread .acquire .w4), .stp (wM .block .plain .w4), .stk (wM .block .acqRel .w4), .atom (wM .block .acqRel .w2) .shared .add,
    .acas (wM .block .plain .w8) .scratch, .presw (wM .block .acquire .w1) true, .presq (wM .block .release .w1), .fence (wM .thread .plain .w1),
    .bbinit (wM .thread .plain .w4), .bbexp (wM .block .release .w8), .bbarv (wM .block .plain .w8), .bbwait (wM .thread .acquire .w8),
    .statrd wA 14, .statclr wA 8] : List Instr), wellFormed i = false := by decide
theorem test_ill_formed_events : ∀ i ∈ ([
    .schedulerSelect 192 0, .schedulerSelect 0 5, .fairnessTimerExpiry 0 32, .ageingPromotion 0 32, .meetingRelease 0 32 0, .groupReturn 0 32, .debugGroupHalt 0 32,
    .ocDelivery 192 0, .ocDelivery 0 6144, .tlbWalkComplete (.lanes 192) 0 0, .tlbWalkComplete (.ahead 0) 4096 0, .idleRequest 0 192, .copyTile 0 4 (.next 1), .copyLineLanding 0 4 1 0,
    .engineOperationComplete 0 (.copy 4) 1, .matrixOperationBegin 192 false, .matrixKstep 192, .dropMessageArrival 320 0, .dropMessageArrival 0 128,
    .bindMessageArrival 320 0, .frameWindowWrite 4096 0 [], .frameWindowWrite 0 0x901F [0, 0], .frameWindowWrite 0 31 [0], .queueNotify 4096 0 0, .queueNotify 0 4096 0] : List Instr), wellFormed i = false := by decide
theorem test_ill_formed_packets : ∀ i ∈ ([
    .packetFetch 128, .tagRefetch 128, .nopPacket 128, .launch 128, .launchPages 128, .range 128, .resume 128, .save 128, .ib 128, .pred 128, .loop 128, .wait 128,
    .waitPoll 128, .waitPark 128, .signal 128, .fetchFence 128, .complete 128, .parkedWaitPoll 0 4096, .waitStall 4096 0, .packetRetire 0 4096,
    .completionQueueWrite 0 256, .cqTimerExpiry 4096 0, .cqread 0 256 0] : List Instr), wellFormed i = false := by decide
theorem test_ill_formed_host : ∀ i ∈ ([
    .fqread 4096 0, .faultRecordPost 4096, .svcreply 4096 0, .faultAnswerResume 4096 0, .faultAnswerAbandon 4096 0, .haltSequence 8, .stopRecordWrite 8, .contextHalted 8,
    .breakpointSet 4096 [], .breakpointSet 0 [0, 0, 0, 0, 0], .translationInvalidate 4096 0 1, .translationInvalidate 0 8 1, .translationInvalidate 0 0 4294967296,
    .attestationRequest [], .lifecycleRequest 4, .queueRestart 4096 0 0, .contextDestroy 4096, .heartbeatSend 192, .heartbeatWindowExpiry 192, .clockThrottleStep 192,
    .scrubTick .vrf 192, .scrubTick .slice 4, .scrubTick .hbm 8, .resetBoot [], .linkFlitReplay 24, .linkRouteLost 32, .linkTimeout 32, .bar4Write 68719476736 [0]] : List Instr), wellFormed i = false := by decide
theorem test_well_formed : ∀ i ∈ ([.cvt wA .s32 .u32 none, .lds (wM .die .acquire .w2) true, .statclr wA 13, .schedulerSelect 191 4, .ocDelivery 191 6143,
    .translationInvalidate 4095 65536 4294967295, .bar4Write 68719476735 [0], .frameWindowWrite 0 0x901F [0], .dropMessageArrival 319 0] : List Instr), wellFormed i = true := by decide
/-- Fewer or more than 8 bytes are no word. -/
theorem test_short : decodeBytes .V [0, 0] = .error .short ∧ decodeTableWord 64 0x0070180405FF0000 = some (.iadd ⟨⟨false, 7⟩, 3, 1, 2, 511, 0, 0⟩) := by decide

/-! ## Witnesses: how a check that computes gives a state and operands that meet a statement's hypotheses -/

theorem ex_some {α : Type} {o : Option α} {p : α → Bool} (h : o.elim false p = true) : ∃ a, o = some a ∧ p a = true := by
  cases o with
  | none => cases h
  | some a => exact ⟨a, rfl, h⟩
/-- The value of an answer that is not a stop. -/
def okElim {ε α : Type} (e : Except ε α) (p : α → Bool) : Bool := match e with | .ok a => p a | .error _ => false
theorem ex_ok {ε α : Type} {e : Except ε α} {p : α → Bool} (h : okElim e p = true) : ∃ a, e = .ok a ∧ p a = true := by
  cases e with
  | error _ => cases h
  | ok a => exact ⟨a, rfl, h⟩
/-- What one lane alone reads. -/
def soleElim (e : Except Stop (List LaneIn × State)) (p : LaneIn → State → Bool) : Bool := match e with | .ok ([i], t) => p i t | _ => false
theorem ex_sole {e : Except Stop (List LaneIn × State)} {p : LaneIn → State → Bool} (h : soleElim e p = true) : ∃ i t, e = .ok ([i], t) ∧ p i t = true := by
  unfold soleElim at h
  split at h
  · exact ⟨_, _, rfl, h⟩
  · cases h

/-- The conditions of a register instruction. -/
def regB (R : RegRow) (s : State) (p : View → List LaneIn → State → Bool) : Bool :=
  s.view?.elim false fun v => (v.legal R.uses && v.active R.g != []) && okElim (readAll v (v.active R.g) R.uses s) fun r =>
    portFree r.2 v.u R.uses.dst (R.out s v r.1) && p v r.1 r.2
theorem regB_ok {R : RegRow} {s : State} {p : View → List LaneIn → State → Bool} (h : regB R s p = true) : ∃ v ins s1, RegReady R s v ins s1 ∧ p v ins s1 = true := by
  obtain ⟨v, hv, h⟩ := ex_some h
  simp only [Bool.and_eq_true, bne_iff_ne, ne_eq] at h
  obtain ⟨⟨h1, h2⟩, h⟩ := h
  obtain ⟨⟨ins, s1⟩, hr, h⟩ := ex_ok h
  simp only [Bool.and_eq_true] at h
  exact ⟨v, ins, s1, ⟨hv, h1, h2, hr, h.1⟩, h.2⟩
/-- The conditions of an instruction that its lowest active lane decides. -/
def electedB (g : Guard) (x : Uses) (s : State) (p : View → Nat → List Nat → LaneIn → State → Bool) : Bool :=
  s.view?.elim false fun v => v.legal x && match v.active g with
    | [] => false
    | l :: ls => soleElim (readAll v [l] { x with dst := none } s) fun i s1 => !(x.dst.elim false fun d => (l :: ls).any fun k => dstBusy s v.u k d) && p v l ls i s1
theorem electedB_ok {g : Guard} {x : Uses} {s : State} {p : View → Nat → List Nat → LaneIn → State → Bool} (h : electedB g x s p = true) :
    ∃ v l ls i s1, ElectedReady g x s v l ls i s1 ∧ p v l ls i s1 = true := by
  obtain ⟨v, hv, h⟩ := ex_some h
  simp only [Bool.and_eq_true] at h
  obtain ⟨h1, h⟩ := h
  split at h
  · cases h
  · next l ls ha =>
    obtain ⟨i, s1, hr, h⟩ := ex_sole h
    simp only [Bool.and_eq_true, Bool.not_eq_true'] at h
    exact ⟨v, l, ls, i, s1, ⟨hv, h1, ha, hr, h.1⟩, h.2⟩
/-- The conditions of a memory instruction. -/
def memB (w : WM) (x : Uses) (all : Bool) (s : State) (p : View → List LaneIn → State → Bool) : Bool :=
  s.view?.elim false fun v => (v.legal x && v.active w.g != [] && s.lanesReady v.u (v.active w.g)) &&
    okElim (readAll v (v.active w.g) x s) fun r => (r.1.all fun i => !(if all then i.psn else ((i.src.getLast?).getD []).any (·.p))) && p v r.1 r.2
theorem memB_ok {w : WM} {x : Uses} {all : Bool} {s : State} {p : View → List LaneIn → State → Bool} (h : memB w x all s p = true) :
    ∃ v ins s1, MemReady w x all s v ins s1 ∧ p v ins s1 = true := by
  obtain ⟨v, hv, h⟩ := ex_some h
  simp only [Bool.and_eq_true, bne_iff_ne, ne_eq] at h
  obtain ⟨⟨⟨h1, h2⟩, h3⟩, h⟩ := h
  obtain ⟨⟨ins, s1⟩, hr, h⟩ := ex_ok h
  simp only [Bool.and_eq_true, List.all_eq_true, Bool.not_eq_true'] at h
  exact ⟨v, ins, s1, ⟨hv, h1, h2, h3, hr, h.1⟩, h.2⟩
/-- The conditions of a C-class instruction. -/
def splitB (w : WC) (x : Uses) (ks : List Nat) (s : State) (p : View → Nat → LaneIn → State → Bool) : Bool :=
  s.view?.elim false fun v => v.lanes.head?.elim false fun l => (v.legal x && (v.thread l).elim false (Guard.holds w.g) && v.b.slots &&& w.wait == 0) &&
    soleElim (readAll v [l] { x with dst := none } s) fun i s1 => (!(x.dst.elim false fun d => v.lanes.any fun k => dstBusy s1 v.u k d) &&
      !(ks.any fun k => (i.src.getD k []).any (·.p))) && p v l i s1
theorem splitB_ok {w : WC} {x : Uses} {ks : List Nat} {s : State} {p : View → Nat → LaneIn → State → Bool} (h : splitB w x ks s p = true) :
    ∃ v l i s1, SplitReady w x ks s v l i s1 ∧ p v l i s1 = true := by
  obtain ⟨v, hv, h⟩ := ex_some h
  obtain ⟨l, hl, h⟩ := ex_some h
  simp only [Bool.and_eq_true, beq_iff_eq] at h
  obtain ⟨⟨⟨h1, h2⟩, h3⟩, h⟩ := h
  obtain ⟨i, s1, hr, h⟩ := ex_sole h
  simp only [Bool.and_eq_true, Bool.not_eq_true'] at h
  exact ⟨v, l, i, s1, ⟨hv, h1, hl, h2, h3, hr, h.1.1, h.1.2⟩, h.2⟩
/-- The conditions of a group-uniform instruction. -/
def uniB (g : Guard) (s : State) (p : View → Nat → Bool) : Bool :=
  s.view?.elim false fun v => v.lanes.head?.elim false fun l => (v.assembled && (v.thread l).elim false (Guard.holds g)) && p v l
theorem uniB_ok {g : Guard} {s : State} {p : View → Nat → Bool} (h : uniB g s p = true) : ∃ v l, Assembled s v g l ∧ p v l = true := by
  obtain ⟨v, hv, h⟩ := ex_some h
  obtain ⟨l, hl, h⟩ := ex_some h
  simp only [Bool.and_eq_true] at h
  exact ⟨v, l, ⟨hv, h.1.1, hl, h.1.2⟩, h.2⟩
/-- The conditions of an M-class instruction. -/
def engB (w : WE) (x : Uses) (slot : Bool) (s : State) (p : View → LaneIn → State → Bool) : Bool :=
  uniB w.g s fun v l => (v.legal x && v.b.slots &&& w.wait == 0 && !(slot && w.sen && v.b.slots.getLsbD w.set.toNat)) &&
    soleElim (readAll v [l] { x with dst := none } s) fun i s1 => (!(x.dst.elim false fun d => v.g.live.any fun k => dstBusy s1 v.u k d) && !i.psn) && p v i s1
theorem engB_ok {w : WE} {x : Uses} {slot : Bool} {s : State} {p : View → LaneIn → State → Bool} (h : engB w x slot s p = true) :
    ∃ v i s1, EngReady w x slot s v i s1 ∧ p v i s1 = true := by
  obtain ⟨v, l, ha, h⟩ := uniB_ok h
  simp only [Bool.and_eq_true, beq_iff_eq, Bool.not_eq_true'] at h
  obtain ⟨⟨⟨h1, h2⟩, h3⟩, h⟩ := h
  obtain ⟨i, s1, hr, h⟩ := ex_sole h
  simp only [Bool.and_eq_true, Bool.not_eq_true'] at h
  exact ⟨v, i, s1, ⟨l, ha, h1, .inr ⟨h2, h3⟩, hr, h.1.1, h.1.2⟩, h.2⟩
/-- A range that can be read. -/
def readsB (s : State) (v : View) (a n : Nat) (tiers : List Nat) (p : List Byte × List Bool → Bool) : Bool :=
  okElim (s.engRange v.b.core v.b.ctx a n false) fun rs => (rs.all (fun x => tiers.contains x.leaf.tier) && !s.runsHeld rs) && p (s.engRead rs)
theorem readsB_ok {s : State} {v : View} {a n : Nat} {tiers : List Nat} {p : List Byte × List Bool → Bool} (h : readsB s v a n tiers p = true) :
    ∃ r, Reads s v a n tiers r ∧ p r = true := by
  obtain ⟨rs, hr, h⟩ := ex_ok h
  simp only [Bool.and_eq_true, Bool.not_eq_true'] at h
  exact ⟨s.engRead rs, ⟨rs, hr, h.1.1, h.1.2, rfl⟩, h.2⟩
/-- A range that can be written. -/
def writesB (s : State) (v : View) (a : Nat) (bs : List Byte) (p : State → Bool) : Bool :=
  okElim (s.engRange v.b.core v.b.ctx a bs.length true) fun rs => !s.runsHeld rs && p (s.engWrite rs bs (bs.map fun _ => false))
theorem writesB_ok {s : State} {v : View} {a : Nat} {bs : List Byte} {p : State → Bool} (h : writesB s v a bs p = true) : ∃ t, Writes s v a bs t ∧ p t = true := by
  obtain ⟨rs, hr, h⟩ := ex_ok h
  simp only [Bool.and_eq_true, Bool.not_eq_true'] at h
  exact ⟨_, ⟨rs, hr, h.1, rfl⟩, h.2⟩

/-! ### The state they are shown on -/

/-- A block of one thread that stands at a word of a class, its context with pages of HBM, scratchpad, host memory and flash. -/
def lab (c : Cls) : State :=
  let put (s : State) (a x : Nat) : State := s.wr (kHbm 0 a) (leBytes 8 x)
  let leaf (tier frame : Nat) : Nat := 2 ^ 63 + 2 ^ 62 + 2 ^ 60 + tier * 2 ^ 57 + frame
  { put (put (put (State.reset.place c 0x2000000000000000 0) 0x20008 (leaf 3 0)) 0x20010 (leaf 1 0)) 0x20018 (leaf 2 0) with
    cur := some (if c = .S then .front 0 else .group 0 0), agenda := [] }
/-- Registers 0 on of the executing thread. -/
def regs (s : State) (vs : List Word) : State := s.modThread (s.cur.getD grp0) 0 fun t => t.setRegs 0 (vs.map fun v => ⟨v, false⟩)
/-- Bytes of HBM. -/
def hbm (s : State) (a : Nat) (bs : List Byte) : State := s.wr (kHbm 0 a) bs
def g7 : Guard := ⟨false, 7⟩
def A (d a b c : Opnd) : WA := ⟨g7, d, a, b, c, 0, 0⟩
def I (d a : Opnd) (imm : Word) : WI := ⟨g7, d, a, false, imm⟩
def M (data base : Opnd) (n : Width) (o : Order) : WM := ⟨g7, data, base, if o = .plain then .thread else .device, o, n, 0⟩
def C (a b c : Opnd) : WC := ⟨g7, a, b, c, 0⟩
def E (a b c : Opnd) : WE := ⟨g7, a, b, c, 0, 1, true⟩
/-- The state that an answer goes on with. -/
def after (o : Host.Outcome State Fault Refusal) : State := match o with | .next t => t | _ => State.reset
/-- A destination that is no port, so that room is no question. -/
def plain (f : Opnd) : Bool := match opKind f with | .port _ => false | _ => true
theorem plain_room {s : State} {v : View} {f : Opnd} {k n : Nat} {ls : List Nat} {as : List LaneAt} (h : plain f = true) : RoomFor s v ⟨f, k⟩ ls ∧ LoadRoom s v f as n := by
  refine ⟨fun q e => ?_, fun q e => ?_⟩ <;> · simp only [plain, e] at h; cases h

/-- The control operands named are clean. -/
def clean (ks : List Nat) (i : LaneIn) : Bool := !(ks.any fun k => (i.src.getD k []).any (·.p))

/-! ### Registers -/

def regLab : State := regs (lab .V) [0, 5, 0xFFFFFFFB, 0x3F800000, 7, 9, 0x40490FDB, 0xBF000000]
/-- Every register instruction, on operands it can run on. -/
def regInstrs1 : List Instr :=
  [.iadd (A 10 1 2 511), .isub (A 10 1 2 511), .iaddc (A 10 1 2 511) ⟨1, 7, false⟩, .isubb (A 10 1 2 511) ⟨1, 7, true⟩, .imul (A 10 1 2 511), .imulh (A 10 1 2 511) true,
   .imad (A 10 1 2 4), .imadw (A 10 1 2 4) true, .idiv (A 10 1 0 511) false, .irem (A 10 1 2 511) true, .iabs (A 10 2 511 511), .ineg (A 10 2 511 511),
   .imin (A 10 1 2 511) true, .imax (A 10 1 2 511) false, .iclamp (A 10 1 2 4) true, .lea (A 10 4 5 511) 3, .iadd64 (A 10 4 6 511), .imad64 (A 10 4 5 6) true,
   .isetp (A 511 1 2 511) 1 .lt true, .psetp (A 511 511 511 511) ⟨1, 7, 0, .andn⟩, .sel (A 10 1 2 511) 0 true, .mov (A 10 1 511 511), .movi (I 10 511 77),
   .movp (A 511 1 511 511) true, .movp (A 10 511 511 511) false, .and (A 10 1 2 511), .or (A 10 1 2 511), .xor (A 10 1 2 511), .andn (A 10 1 2 511), .not (A 10 1 511 511),
   .bmix (A 10 1 2 4) 0x96, .shl (A 10 2 1 511), .shr (A 10 2 1 511), .sar (A 10 2 1 511), .rotl (A 10 2 1 511), .shf (A 10 2 1 4) false]
def regInstrs2 : List Instr :=
  [.popc (A 10 2 511 511), .clz (A 10 1 511 511), .ctz (A 10 0 511 511), .brev (A 10 1 511 511), .bfx (A 10 2 5 511) true, .bfi (A 10 2 5 1), .bswz (A 10 1 2 0),
   .iaddImm (I 10 1 3), .imulImm (I 10 1 3), .andImm (I 10 1 3), .orImm (I 10 1 3), .xorImm (I 10 1 3), .shlImm (I 10 1 3), .shrImm (I 10 1 33), .sarImm (I 10 2 3),
   .fadd (A 10 3 6 511) none, .fmul (A 10 3 6 511) (some .rz), .ffma (A 10 3 6 7) none, .fmin (A 10 3 6 511), .fmax (A 10 3 6 511), .frnd (A 10 6 511 511) none,
   .fclass (A 10 6 511 511), .fsetp (A 511 3 6 511) 1 .lt .f32, .hadd2 (A 10 3 6 511) true none, .hmul2 (A 10 3 6 511) false none, .hfma2 (A 10 3 6 7) true none,
   .frcp (A 10 3 511 511) none, .frsq (A 10 3 511 511), .fsqrt (A 10 3 511 511) none, .fexp2 (A 10 3 511 511), .flog2 (A 10 3 511 511), .ftanh (A 10 0 511 511)]
def regInstrs3 : List Instr :=
  [.cvt (A 10 6 511 511) .s32 (.f .f32) none, .ncvt (A 10 4 0 511) .t8 .f32 none, .ndec (A 12 1 0 511) .f32 .t8 none, .sread (A 10 511 511 511) true,
   .swrite (A 511 1 511 511) false, .shfl (A 10 1 0 511) ⟨1, .idx, .w32⟩, .vote (A 511 511 511 511) 1 .all 7 false, .ballot (A 10 511 511 511) 7 false,
   .elect (A 10 511 511 511) 1, .actmask (A 10 511 511 511), .matchLanes (A 10 4 511 511) true, .redux (A 10 1 511 511) .add false, .scan (A 10 1 511 511) .max true true,
   .nscale (A 10 3 0 511) false, .statrd (A 10 511 511 511) 1]
def regReadyB (i : Instr) : Bool := (regRow i).elim false fun R => regB R regLab fun _ _ _ => true
theorem regReadyB_ok {i : Instr} (h : regReadyB i = true) : ∃ R v ins s1, regRow i = some R ∧ RegReady R regLab v ins s1 := by
  obtain ⟨R, hR, h⟩ := ex_some h
  obtain ⟨v, ins, s1, hv, -⟩ := regB_ok h
  exact ⟨R, v, ins, s1, hR, hv⟩
theorem witness_registers_1 : ∀ i ∈ regInstrs1, ∃ R v ins s1, regRow i = some R ∧ RegReady R regLab v ins s1 := fun i h =>
  regReadyB_ok ((by decide : ∀ i ∈ regInstrs1, regReadyB i = true) i h)
theorem witness_registers_2 : ∀ i ∈ regInstrs2, ∃ R v ins s1, regRow i = some R ∧ RegReady R regLab v ins s1 := fun i h =>
  regReadyB_ok ((by decide : ∀ i ∈ regInstrs2, regReadyB i = true) i h)
theorem witness_registers_3 : ∀ i ∈ regInstrs3, ∃ R v ins s1, regRow i = some R ∧ RegReady R regLab v ins s1 := fun i h =>
  regReadyB_ok ((by decide : ∀ i ∈ regInstrs3, regReadyB i = true) i h)
/-- The frame's and the rules' statements, in a state with canonical memory. -/
theorem witness_canonical : memCanonical regLab ∧ memCanonical (lab .S) := by unfold memCanonical; decide
/-- The special operands of the thread, and the two halves of the count of cycles read together. -/
theorem witness_specials : regLab.view?.elim false (fun v => (thr? regLab v.u 0).isSome && [480, 481, 482, 483, 484, 485, 496, 497, 498, 499].all fun k => (specialIs regLab v 0 (BitVec.ofNat 9 k)).isSome) = true ∧
    (∃ x ∈ [srcA (A 10 486 487 511), srcB (A 10 486 487 511)], x.f = 486#9) ∧ ([srcA (A 10 486 487 511), srcB (A 10 486 487 511)][1]?).map (·.f) = some 487#9 := by decide
/-- A field that a thread may not use. -/
theorem witness_illegal_field : ∃ R v, regRow (.iadd (A 10 500 2 511)) = some R ∧ regLab.view? = some v ∧ v.legal R.uses = false := by
  obtain ⟨R, hR, h⟩ := ex_some (o := regRow (.iadd (A 10 500 2 511))) (p := fun R => regLab.view?.elim false fun v => !v.legal R.uses) (by decide)
  obtain ⟨v, hv, h⟩ := ex_some h
  exact ⟨R, v, hR, hv, by simpa using h⟩
/-- A lane with clean operands of two or three registers: of a division by 0, of the overflow and of another. -/
def issuesB (U : Uses) (s : State) : Bool := s.view?.elim false fun v => (v.legal U && v.active g7 != []) && okElim (readAll v (v.active g7) U s) fun r => r.1.any fun x => !x.psn
theorem issuesB_ok {U : Uses} {s : State} (hm : memCanonical s) (h : issuesB U s = true) : ∃ v ins s1, Issues g7 U 10 s v ins s1 ∧ (ins.any fun x => !x.psn) = true := by
  obtain ⟨v, hv, h⟩ := ex_some h
  simp only [Bool.and_eq_true, bne_iff_ne, ne_eq] at h
  obtain ⟨⟨h1, h2⟩, h⟩ := h
  obtain ⟨⟨ins, s1⟩, hr, h⟩ := ex_ok h
  exact ⟨v, ins, s1, ⟨hv, h1, h2, hr, fun q hq => absurd hq (by rw [show opKind 10 = .reg 10 from by decide]; intro e; cases e), hm⟩, h⟩
theorem witness_computes : ∀ src ∈ [[srcA (A 10 1 2 0), srcB (A 10 1 2 0)], [srcA (A 10 1 2 0), srcB (A 10 1 2 0), srcC (A 10 1 2 0)]],
    ∀ xs ∈ ([[0, 5, 0], [0, 0x80000000, 0xFFFFFFFF], [0, 0xFFFFFFF9, 2]] : List (List Word)),
    ∃ v ins s1, Issues g7 { src := src, dst := some ⟨10, 1⟩ } 10 (regs (lab .V) xs) v ins s1 ∧ (ins.any fun x => !x.psn) = true := fun src hs xs hx =>
  issuesB_ok ((by unfold memCanonical; decide : ∀ xs ∈ ([[0, 5, 0], [0, 0x80000000, 0xFFFFFFFF], [0, 0xFFFFFFF9, 2]] : List (List Word)), memCanonical (regs (lab .V) xs)) xs hx)
    ((by decide : ∀ src ∈ [[srcA (A 10 1 2 0), srcB (A 10 1 2 0)], [srcA (A 10 1 2 0), srcB (A 10 1 2 0), srcC (A 10 1 2 0)]],
      ∀ xs ∈ ([[0, 5, 0], [0, 0x80000000, 0xFFFFFFFF], [0, 0xFFFFFFF9, 2]] : List (List Word)), issuesB { src := src, dst := some ⟨10, 1⟩ } (regs (lab .V) xs) = true) src hs xs hx)
/-- An instruction whose destination is the zero register. -/
theorem witness_zero_destination : ∃ R v ins s1, regRow (.iadd (A 511 1 2 511)) = some R ∧ RegReady R regLab v ins s1 := regReadyB_ok (by decide)

/-! ### Control transfer, barriers, queues and tasks -/

/-- The block and the grid changed. -/
def onB (f : Block → Block) (s : State) : State := s.modBlk 0 f
def onG (f : Grid → Grid) (s : State) : State := s.modGrid 0 f
def viewB (s : State) (p : View → Bool) : Bool := s.view?.elim false p
def clauseB (s : State) (p : View → ClauseCtx → Bool) : Bool := viewB s fun v => v.g.clauseNow.elim false (p v)
theorem viewB_ok {s : State} {p : View → Bool} (h : viewB s p = true) : ∃ v, s.view? = some v ∧ p v = true := ex_some h
theorem clauseB_ok {s : State} {p : View → ClauseCtx → Bool} (h : clauseB s p = true) : ∃ v c, InClause s v c ∧ p v c = true := by
  obtain ⟨v, hv, h⟩ := viewB_ok h
  obtain ⟨c, hc, h⟩ := ex_some h
  exact ⟨v, c, ⟨hv, hc⟩, h⟩
/-- Register 4 and 5 hold the address of the clause. -/
def jumpLab : State := regs (lab .V) [0, 1, 0, 0, 0x30000, 0]
def performed (v : View) (ls : List Nat) : Bool := ls.all fun l => (v.thread l).elim true fun t => t.unp == [] && t.pend == 0

/-- BRA, CALL, YIELD and MEET: the clause's own header and the clause after it are targets, a link pair is free, no meeting stack is full. -/
theorem witness_direct_transfers : ∃ v c, InClause jumpLab v c ∧ (jumpLab.clauseOk v.b (c.hdr + (0#32).signExtend 56) && jumpLab.clauseOk v.b (c.hdr + BitVec.ofNat 56 (8 * (c.count + 1))) &&
    v.b.rwOk v.front 12 2 && (v.active g7).all (fun l => !dstBusy jumpLab v.u l ⟨12, 2⟩ && (v.thread l).elim false fun t => t.mstk.length < 8)) = true := clauseB_ok (by decide)
/-- BRX and RET: each lane's pair is a clause. -/
theorem witness_indirect_transfers : ∃ v ins s1, RegReady ⟨g7, { src := [srcA (A 12 4 511 511) 2] }, fun _ _ _ => []⟩ jumpLab v ins s1 ∧
    (v.g.clauseNow.isSome && ins.all fun i => jumpLab.clauseOk v.b ((i.d 0).setWidth 56)) = true := regB_ok (by decide)
theorem witness_callx : ∃ v ins s1, RegReady ⟨g7, { src := [srcA (A 12 4 511 511) 2], dst := some ⟨12, 2⟩ }, fun _ _ _ => []⟩ jumpLab v ins s1 ∧
    (v.g.clauseNow.isSome && v.b.rwOk v.front 12 2 && ins.all fun i => jumpLab.clauseOk v.b ((i.d 0).setWidth 56)) = true := regB_ok (by decide)
/-- The lanes sent and the lanes that exit. -/
theorem witness_lanes_sent : ∃ v, jumpLab.view? = some v ∧ (v.lanes == [0] && performed v (v.active g7)) = true := viewB_ok (by decide)
/-- BAR and CBAR. -/
theorem witness_barriers : ∃ v l, Assembled (lab .V) v g7 l ∧ performed v v.g.live = true := uniB_ok (by decide)
/-- A barrier that completes, and one that waits for a second group. -/
theorem witness_barrier_counts : ∃ b, (lab .V).blk? 0 = some b ∧ (let one : Block := { b with bars := [(3, ⟨1, [0]⟩)] }
    let two : Block := { b with bars := [(3, ⟨2, [0]⟩)] }
    decide (1 ≤ [0].length + one.goneCount) && decide ([0].length + two.goneCount < 2)) = true := ex_some (by decide)

/-- An arithmetic fault pending in the lane; ARITH set, or clear with a full fault queue or with room. -/
def pendLab (x : Bool × Bool) : State :=
  (((lab .V).modThread (.group 0 0) 0 fun t => { t with pend := 0x20 }).modPart 0 fun p => { p with fcw := if x.1 then 1 else 0 }).modCtx 0 fun c =>
    { c with rcd := { c.rcd with fqn := if x.2 then 4 else 0, fq := 0x40000000 } }
def unperformed (v : View) (ls : List Nat) : Bool := ls.all fun l => (v.thread l).elim true fun t => t.unp == []
theorem witness_reports : ∀ x ∈ [(true, false), (false, false), (false, true)], ∃ v l, Assembled (pendLab x) v g7 l ∧ (unperformed v v.g.live && v.g.live == v.active g7 &&
    (v.g.live.filter fun l => (v.thread l).elim false fun t => t.pend != 0) != [] && ((pendLab x).partD ((pendLab x).ctxD v.b.ctx).part).fcw.getLsbD 0 == x.1 && ((pendLab x).ctxD v.b.ctx).fqRoom == x.2) = true := fun x h =>
  uniB_ok ((by decide +kernel : ∀ x ∈ [(true, false), (false, false), (false, true)], uniB g7 (pendLab x) (fun v _ => unperformed v v.g.live && v.g.live == v.active g7 &&
    (v.g.live.filter fun l => (v.thread l).elim false fun t => t.pend != 0) != [] && ((pendLab x).partD ((pendLab x).ctxD v.b.ctx).part).fcw.getLsbD 0 == x.1 && ((pendLab x).ctxD v.b.ctx).fqRoom == x.2) = true) x h)

/-- Port q1 with a ring of 8 places that holds the word 7, port q2 with a full ring of 2, and port q3 with an empty one. -/
def ringLab : State :=
  pushRing (pushRing (onB (fun b => ((b.setRing 1 0 8).setRing 2 64 2).setRing 3 96 2) (regs (lab .V) [0, 128, 3])) 0 1 [⟨7, false⟩]) 0 2 [⟨1, false⟩, ⟨2, false⟩]
/-- Another port that holds nothing, and the first as a retained port. -/
theorem witness_qtry_empty : ∃ v, ringLab.view? = some v ∧ (v.b.canPop v.front 3 && !(ringBusy ringLab v.u 3 (v.active g7)) && (tryPops v 3 false (v.active g7) ringLab).isNone &&
    (srcA { A 10 449 511 511 with ret := 1 }).ret && (tryPops v 1 true (v.active g7) ringLab).isSome && !(portAbsent ringLab v.u 1 (min 1 (v.active g7).length))) = true := viewB_ok (by decide)
theorem witness_qtry_pop : ∃ v, ringLab.view? = some v ∧ (portOf 10#9 == none && portOf 449#9 == some 1 && v.b.canPop v.front 1 && v.b.dstOk v.front ⟨10, 1⟩ &&
    !(ringBusy ringLab v.u 1 (v.active g7)) && (tryPops v 1 false (v.active g7) ringLab).isSome && !(portAbsent ringLab v.u 1 (v.active g7).length) && (v.active g7).all fun l => !dstBusy ringLab v.u l ⟨10, 1⟩) = true := viewB_ok (by decide)
/-- A push with room on q1, and one without on q2. -/
theorem witness_qtry_push : ∃ v ins s1, RegReady ⟨g7, { src := [srcA (A 449 1 511 511)] }, fun _ _ _ => []⟩ ringLab v ins s1 ∧
    (portOf 1#9 == none && v.b.canPush 1 && v.b.canPush 2 && v.b.srcOk v.front (srcA (A 449 1 511 511)) && !(pushBusy s1 v.u 1 (v.active g7) (v.active g7).length) &&
     !(ringBusy s1 v.u 1 (v.active g7)) && !(ringBusy s1 v.u 2 (v.active g7)) &&
     (v.b.ring? 1).elim false (fun r => decide ((v.active g7).length ≤ r.room)) && (v.b.ring? 2).elim false fun r => decide (r.room < (v.active g7).length)) = true := regB_ok (by decide)
/-- A push from an empty register, with its empty-trap bit set. -/
theorem witness_qtry_holds : viewB ((ringLab).modThread grp0 0 fun t => { t with regs := t.regs.set 1 ⟨0, false, .empty⟩ }) (fun v => v.b.canPush 1 && v.b.srcOk v.front (srcA { A 449 1 511 511 with et := 4 }) &&
    (v.active g7).any fun l => match opKind 1#9 with | .reg k => (v.thread l).elim false (fun t => (t.regs[k]?).map (·.av) == some .empty) | _ => false) = true := by decide
theorem witness_qcfg : ∃ v l ls i s1, ElectedReady g7 { src := [⟨1#9, 1, false, false⟩] } ringLab v l ls i s1 ∧
    (clean [0] i && (i.w 0).v.toNat % 4 == 0 && decide ((i.w 0).v.toNat + 4 * 2 ^ 3 ≤ v.b.shared) && !(ringBusy s1 v.u 1 [l])) = true := electedB_ok (by decide)
theorem witness_qlen : ∃ v l ls i s1, ElectedReady g7 { dst := some ⟨10, 1⟩ } ringLab v l ls i s1 ∧
    (v.b.canPop v.front 1 && !(portView s1 v.u i.lane 1).2.2 && plain 10) = true := electedB_ok (by decide)
/-- TRAYW, PTOK by register and SSEL of the front-end thread. -/
theorem witness_trayw : ∃ v l ls i s1, ElectedReady g7 { src := [srcA (A 511 1 511 511)] } (lab .S) v l ls i s1 ∧
    (performed v (l :: ls) && decide (v.b.tray.length < 64) && clean [0] i) = true := electedB_ok (by decide)
theorem witness_ptok : ∃ v l ls i s1, ElectedReady g7 { src := [⟨1#9, 1, false, false⟩] } (lab .V) v l ls i s1 ∧
    (clean [0] i && (!(0#32).getLsbD 5 && (1 : Opnd) != 511#9)) = true := electedB_ok (by decide)
theorem witness_ptok_fixed : ∃ v l ls i s1, ElectedReady g7 {} (lab .V) v l ls i s1 ∧ (clean [0] i && (32#32).getLsbD 5) = true := electedB_ok (by decide)
theorem witness_ssel : ∃ v l ls i s1, ElectedReady g7 { src := [⟨2#9, 2, false, false⟩], dst := some ⟨10, 1⟩ } (lab .S) v l ls i s1 ∧
    (clean [0] i && plain 10) = true := electedB_ok (by decide)

/-- The block's grid has two stages; the block stands at the second one, whose channel from below holds a word. -/
def stageLab (stage : Nat) : State := (onB (fun b => { b with stage := stage }) (onG (fun g => { g with kd := { g.kd with stages := 2 } }) (lab .V))).setChan 0 0 0 false [⟨9, false⟩]
theorem witness_chsend : ∃ v ins s1, RegReady ⟨g7, { src := [srcA (A 511 1 511 511)] }, fun _ _ _ => []⟩ (stageLab 0) v ins s1 ∧
    (chanFor v true false (stageLab 0) == some (0, 0) && performed v (v.active g7) && ins != [] && decide ((s1.chanOf v.b.grid 0 0 false).length + ins.length ≤ 1024) && s1.stageIn v.b 1) = true :=
  regB_ok (by decide)
theorem witness_chrecv : ∃ v, (stageLab 1).view? = some v ∧ (chanFor v false false (stageLab 1) == some (0, 0) && v.b.dstOk v.front ⟨10, 1⟩ && v.active g7 != [] &&
    decide ((v.active g7).length ≤ ((stageLab 1).chanOf v.b.grid 0 0 false).length) && (v.active g7).all (fun l => !dstBusy (stageLab 1) v.u l ⟨10, 1⟩) && plain 10) = true := viewB_ok (by decide)
/-- A range grid whose block has a record of its own, with a result table. -/
def taskLab : State := onG (fun g => { g with kind := .range, grt := 0x50000, nblocks := 2, recs := [⟨0, 5, 9, 1, true, false⟩], results := [(0, .pending), (1, .signalled ⟨7, false⟩)] })
  (regs (lab .V) [1, 2, 3, 0, 4, 0, 8, 0])
theorem witness_rtlaunch : ∃ v l ls i s1, ElectedReady g7 { src := [srcA (A 511 4 6 1) 2, srcB (A 511 4 6 1) 2, srcC (A 511 4 6 1)] } taskLab v l ls i s1 ∧
    (clean [0, 1, 2] i && (s1.grid? v.b.grid).elim false fun g => g.kind == .range && decide ((s1.tasksOf g.ctx).length < 1024)) = true := electedB_ok (by decide)
theorem witness_rtclaim : ∃ v l ls i s1, ElectedReady g7 { src := [srcA (A 8 1 511 511)], dst := some ⟨8, 4⟩ } taskLab v l ls i s1 ∧
    (clean [0] i && plain 8 && (s1.grid? v.b.grid).elim false fun g => g.kind == .range) = true := electedB_ok (by decide)
theorem witness_gsig : ∃ v l ls i s1, ElectedReady g7 { src := [srcA (A 511 1 511 511)] } taskLab v l ls i s1 ∧
    (performed v (l :: ls) && (s1.grid? v.b.grid).elim false fun g => g.grt != 0) = true := electedB_ok (by decide)
theorem witness_gwait : ∃ v l ls i s1, ElectedReady g7 { src := [srcA (A 8 0 511 511)], dst := some ⟨8, 2⟩ } taskLab v l ls i s1 ∧
    (clean [0] i && plain 8 && (s1.grid? v.b.grid).elim false fun g => g.grt != 0 && decide ((i.w 0).v.toNat < g.nblocks) && (i.w 0).v.toNat != v.b.idx &&
      (g.resOf (i.w 0).v.toNat).pair.isSome) = true := electedB_ok (by decide)

/-! ### Memory -/

/-- Registers 0 and 1 hold small numbers, 2 and 3 an address of the scratchpad, 4 and 5 one of no page. -/
def memLab : State := regs (lab .V) [0, 1, 0x20000000, 0, 0x80000000, 0, 3, 4096, 129]
def near (v : View) (as : List LaneAt) (n : Nat) : Bool := as.all fun a => a.a % n == 0 && (v.b.inDecl a.a n || v.b.inShelf a.a n) && v.b.present a.a n && v.sqFree (kShared v.u.blk a.a) n
def spilled (v : View) (as : List LaneAt) (n : Nat) : Bool :=
  as.all fun a => a.a % n == 0 && decide (a.a + n ≤ v.b.spill / 32) && (spillPieces v a.x.lane a.a n).all fun p => v.sqFree p.1 p.2
def mapped (s : State) (v : View) (as : List LaneAt) (n : Nat) : Bool :=
  as.all fun a => a.a % n == 0 && (s.xlate v.b.core v.b.ctx (BitVec.ofNat 56 a.a)).elim false fun f => !s.tierBad f && f.w && !f.ord && v.sqFree (s.leafKey f) n
/-- LDS and LDK; then LDP. -/
theorem witness_loads_near : ∃ v ins s1, MemReady (M 10 0 .w8 .plain) { src := [mSrc 0 1], dst := some ⟨10, 2⟩ } false memLab v ins s1 ∧
    (near v (nearLanes (M 10 0 .w8 .plain) ins) 8 && spilled v (nearLanes (M 10 0 .w8 .plain) ins) 8 && plain 10) = true := memB_ok (by decide)
theorem witness_loads_far : ∃ v ins s1, MemReady (M 10 2 .w4 .acquire) { src := [mSrc 2 2], dst := some ⟨10, 1⟩ } false memLab v ins s1 ∧
    (mapped s1 v (farLanes (M 10 2 .w4 .acquire) ins) 4 && plain 10) = true := memB_ok (by decide)
/-- STS and STK; then STP. -/
theorem witness_stores_near : ∃ v ins s1, MemReady (M 6 0 .w4 .release) { src := [mSrc 6 1, mSrc 0 1] } false memLab v ins s1 ∧
    (near v (nearLanes (M 6 0 .w4 .release) ins) 4 && spilled v (nearLanes (M 6 0 .w4 .release) ins) 4) = true := memB_ok (by decide)
theorem witness_stores_far : ∃ v ins s1, MemReady (M 6 2 .w4 .plain) { src := [mSrc 6 1, mSrc 2 2] } false memLab v ins s1 ∧
    mapped s1 v (farLanes (M 6 2 .w4 .plain) ins) 4 = true := memB_ok (by decide)
/-- ATOM and ACAS in each space. -/
theorem witness_atom_shared : ∃ v ins s1, MemReady (M 6 0 .w4 .acqRel) { src := [mSrc 6 1, mSrc 0 1] } false memLab v ins s1 ∧
    (v.b.rwOk v.front 6 1 && near v (nearLanes (M 6 0 .w4 .acqRel) ins) 4 && v.g.sq == [] && performed v v.lanes) = true := memB_ok (by decide)
theorem witness_atom_far : ∃ v ins s1, MemReady (M 6 2 .w4 .acqRel) { src := [mSrc 6 1, mSrc 2 2] } false memLab v ins s1 ∧
    (v.b.rwOk v.front 6 1 && mapped s1 v (farLanes (M 6 2 .w4 .acqRel) ins) 4 && performed v v.lanes) = true := memB_ok (by decide)
theorem witness_acas_shared : ∃ v ins s1, MemReady (M 8 0 .w8 .acqRel) { src := [mSrc 8 4, mSrc 0 1] } false memLab v ins s1 ∧
    (v.b.rwOk v.front 8 4 && near v (nearLanes (M 8 0 .w8 .acqRel) ins) 8 && v.g.sq == [] && performed v v.lanes) = true := memB_ok (by decide)
theorem witness_acas_far : ∃ v ins s1, MemReady (M 8 2 .w8 .acqRel) { src := [mSrc 8 4, mSrc 2 2] } false memLab v ins s1 ∧
    (v.b.rwOk v.front 8 4 && mapped s1 v (farLanes (M 8 2 .w8 .acqRel) ins) 8 && performed v v.lanes) = true := memB_ok (by decide)
theorem witness_presw : ∃ v ins s1, MemReady (M 511 0 .w1 .plain) { src := [mSrc 0 1] } false memLab v ins s1 ∧
    near v (nearLanes (M 511 0 .w1 .plain) ins) 1 = true := memB_ok (by decide)
theorem witness_presq : ∃ v ins s1, MemReady (M 10 0 .w1 .plain) { src := [mSrc 0 1], dst := some ⟨10, 1⟩ } false memLab v ins s1 ∧
    (near v (nearLanes (M 10 0 .w1 .plain) ins) 1 && v.g.sq == [] && plain 10) = true := memB_ok (by decide)
/-- The four orders of a FENCE, and what each waits for. -/
theorem witness_fence : ∃ v, memLab.view? = some v ∧ (ordOf ⟨g7, 511, 511, .thread, .acquire, .w1, 0⟩ == .plain && ordOf (M 511 511 .w1 .acquire) == .acquire &&
    ordOf (M 511 511 .w1 .release) == .release && ordOf (M 511 511 .w1 .acqRel) == .acqRel && (v.active g7).all fun l => !memLab.loadsOut v.u l && v.unpOf l == [] &&
    v.g.sq.all fun e => e.lane != l) = true := viewB_ok (by decide)
theorem witness_tlread : ∃ v l i s1, SplitReady (C 10 0 511) { src := [mSrc 0 1], dst := some ⟨10, 2⟩ } [0] memLab v l i s1 ∧
    ((v.b.tl? (i.w 0).v.toNat).isSome && plain 10) = true := splitB_ok (by decide)
theorem witness_tlwait : ∃ v l i s1, SplitReady (C 10 0 511) { src := [mSrc 10 2, mSrc 0 1] } [0, 1] memLab v l i s1 ∧
    (v.b.tl? (i.w 1).v.toNat).elim false (fun tl => decide ((i.d 0).toNat ≤ tl.ctr)) = true := splitB_ok (by decide)

/-- A byte barrier at offset 0 with one arrival to come, in its first phase. -/
def bbLab : State := memLab.bbWrite (kShared 0 0) ⟨false, 1, 1, 0⟩
theorem witness_bbinit : ∃ v ins s1, MemReady (M 1 0 .w8 .plain) { src := [mSrc 1 1, mSrc 0 1] } true memLab v ins s1 ∧
    (near v (nearLanes (M 1 0 .w8 .plain) ins) 8 && v.g.sq == [] &&
      (nearLanes (M 1 0 .w8 .plain) ins).all fun a => decide (1 ≤ (a.x.w 0).v.toNat ∧ (a.x.w 0).v.toNat ≤ 32767)) = true := memB_ok (by decide)
theorem witness_bbexp : ∃ v ins s1, MemReady (M 1 0 .w8 .plain) { src := [mSrc 1 1, mSrc 0 1] } true bbLab v ins s1 ∧
    (near v (nearLanes (M 1 0 .w8 .plain) ins) 8 && v.g.sq == [] && (nearLanes (M 1 0 .w8 .plain) ins).all fun a =>
      !s1.psnAt (kShared v.u.blk a.a) 8 && decide (bytesOk ((s1.bbRead (kShared v.u.blk a.a)).bytes + (a.x.w 0).v.toInt))) = true := memB_ok (by decide)
theorem witness_bbwait : ∃ v ins s1, MemReady (M 1 0 .w8 .plain) { src := [mSrc 1 1, mSrc 0 1] } true bbLab v ins s1 ∧
    (near v (nearLanes (M 1 0 .w8 .plain) ins) 8 && v.g.sq == [] && (nearLanes (M 1 0 .w8 .plain) ins).all fun a =>
      !s1.psnAt (kShared v.u.blk a.a) 8 && (s1.bbRead (kShared v.u.blk a.a)).ph != (a.x.w 0).v.getLsbD 0) = true := memB_ok (by decide)
theorem witness_bbarv : ∃ v ins s1, MemReady (M 10 0 .w8 .plain) { src := [mSrc 0 1], dst := some ⟨10, 1⟩ } false bbLab v ins s1 ∧
    (near v (nearLanes (M 10 0 .w8 .plain) ins) 8 && v.g.sq == [] && (nearLanes (M 10 0 .w8 .plain) ins).all fun a =>
      v.unpOf a.x.lane == [] && !s1.psnAt (kShared v.u.blk a.a) 8 && (s1.bbRead (kShared v.u.blk a.a)).arr != 0) = true := memB_ok (by decide)

/-- What an instruction accesses, and that its lanes are ready. -/
def useB (u : View → Instr → Option MemUse) (i : Instr) (s : State) (p : View → MemUse → List LaneIn → State → Bool) : Bool :=
  s.view?.elim false fun v => (u v i).elim false fun m => m.ok && memB m.w m.x m.all s fun _ ins s1 => p v m ins s1
theorem useB_ok {u : View → Instr → Option MemUse} {i : Instr} {s : State} {p : View → MemUse → List LaneIn → State → Bool} (h : useB u i s p = true) :
    ∃ v m ins s1, u v i = some m ∧ m.Ready s v ins s1 ∧ p v m ins s1 = true := by
  obtain ⟨v, hv, h⟩ := ex_some h
  obtain ⟨m, hm, h⟩ := ex_some h
  rw [Bool.and_eq_true] at h
  obtain ⟨v', ins, s1, hr, h'⟩ := memB_ok h.2
  obtain rfl : v' = v := Option.some.inj (hr.1.symm.trans hv)
  exact ⟨v', m, ins, s1, hm, ⟨hr, h.1⟩, h'⟩
/-- Instructions of the shared space with a base: those with a width, and all of them. -/
def nearWide (b : Opnd) : List Instr := [.lds (M 10 b .w4 .plain) false, .sts (M 6 b .w4 .plain), .atom (M 6 b .w4 .plain) .shared .add, .acas (M 8 b .w8 .plain) .shared,
  .bbinit (M 0 b .w8 .plain), .bbexp (M 0 b .w8 .plain), .bbwait (M 0 b .w8 .plain), .bbarv (M 10 b .w8 .plain)]
def nearAll (b : Opnd) : List Instr := [.presw (M 511 b .w1 .plain) true, .presq (M 10 b .w1 .plain)] ++ nearWide b
/-- Lanes that fail a check: offset 1 is misaligned, offset 4096 past the block's space. -/
theorem witness_misaligned : ∀ i ∈ nearWide 1, ∃ v m ins s1, nearUse v i = some m ∧ m.Ready memLab v ins s1 ∧ ((nearLanes m.w ins).find? fun l => !(l.a % m.n == 0)).isSome = true := fun i h =>
  useB_ok ((by decide +kernel : ∀ i ∈ nearWide 1, useB nearUse i memLab (fun _ m ins _ => ((nearLanes m.w ins).find? fun l => !(l.a % m.n == 0)).isSome) = true) i h)
theorem witness_out_of_range : ∀ i ∈ nearAll 7, ∃ v m ins s1, nearUse v i = some m ∧ m.Ready memLab v ins s1 ∧ ((nearLanes m.w ins).all (fun l => l.a % m.n == 0) &&
    ((nearLanes m.w ins).find? fun l => !(v.b.inDecl l.a m.n || v.b.inShelf l.a m.n)).isSome) = true := fun i h =>
  useB_ok ((by decide +kernel : ∀ i ∈ nearAll 7, useB nearUse i memLab (fun v m ins _ => (nearLanes m.w ins).all (fun l => l.a % m.n == 0) &&
    ((nearLanes m.w ins).find? fun l => !(v.b.inDecl l.a m.n || v.b.inShelf l.a m.n)).isSome) = true) i h)
/-- Registers 2 to 9 hold pairs: an address in HBM, one in a page of the scratchpad that is not to be written, a misaligned one, and one of no page. -/
def farLab : State := hbm (regs (lab .V) [0, 1, 0x30000, 0, 0xC0000000, 0, 0x20000001, 0, 0x80000000, 0]) 0x20030 (leBytes 8 (2 ^ 63 + 2 ^ 60 + 3 * 2 ^ 57))
/-- Instructions of the scratchpad with a base, loads and the others. -/
def farAll (b : Opnd) : List Instr := [.ldp (M 10 b .w4 .plain) false, .stp (M 0 b .w4 .plain), .atom (M 0 b .w4 .plain) .scratch .add, .acas (M 12 b .w8 .plain) .scratch]
/-- A lane that fails the first, second, third or last check of R236. -/
def farFails (m : MemUse) (v : View) (ins : List LaneIn) (s1 : State) (k : Nat) : Bool :=
  let as := farLanes m.w ins
  let x (l : LaneAt) : Option Leaf := s1.xlate v.b.core v.b.ctx (BitVec.ofNat 56 l.a)
  let mis := as.any fun l => !(l.a % m.n == 0)
  let bad := as.any fun l => (x l).elim false s1.tierBad
  let barred := as.any fun l => (x l).elim false fun f => !f.w
  if k = 0 then mis else !mis && if k = 1 then bad else !bad && if k = 2 then barred else !barred && as.any fun l => (x l).isNone
def farUse1 (v : View) (i : Instr) : Option MemUse := (farUse v i).map (·.1)
theorem witness_far_checks : ∀ k ∈ [(0, (6 : Opnd)), (1, 2), (2, 4), (3, 8)], ∀ i ∈ (farAll k.2).drop (if k.1 = 2 then 1 else 0), ∃ v m ins s1, farUse1 v i = some m ∧ m.Ready farLab v ins s1 ∧
    farFails m v ins s1 k.1 = true := fun k hk i h =>
  useB_ok ((by decide +kernel : ∀ k ∈ [(0, (6 : Opnd)), (1, 2), (2, 4), (3, 8)], ∀ i ∈ (farAll k.2).drop (if k.1 = 2 then 1 else 0), useB farUse1 i farLab (fun v m ins s1 => farFails m v ins s1 k.1) = true) k hk i h)
/-- Accesses of the scratchpad whose addresses translate; and barriers and atomics on canonical memory, one of them into a port. -/
theorem witness_far_issue : ∀ i ∈ farAll 2, ∃ v m ins s1, farUse1 v i = some m ∧ m.Ready memLab v ins s1 ∧
    ((farLanes m.w ins).all fun a => (s1.xlate v.b.core v.b.ctx (BitVec.ofNat 56 a.a)).isSome) = true := fun i h =>
  useB_ok ((by decide +kernel : ∀ i ∈ farAll 2, useB farUse1 i memLab (fun v m ins s1 => (farLanes m.w ins).all fun a => (s1.xlate v.b.core v.b.ctx (BitVec.ofNat 56 a.a)).isSome) = true) i h)
theorem witness_near_issue : ∀ i ∈ nearAll 0 ++ [.bbarv (M 449 0 .w8 .plain)], ∃ v m ins s1, nearUse v i = some m ∧ m.Ready ringLab v ins s1 ∧ memWf ringLab.mem = true := fun i h =>
  useB_ok (p := fun _ _ _ _ => memWf ringLab.mem) ((by decide +kernel : ∀ i ∈ nearAll 0 ++ [.bbarv (M 449 0 .w8 .plain)], useB nearUse i ringLab (fun _ _ _ _ => memWf ringLab.mem) = true) i h)
/-- An issue that answers a next state with memory as it was, and an atomic that does. -/
theorem witness_issue_answers : (∃ t, exec (.sts (M 6 0 .w4 .plain)) memLab = .next t) ∧ ∃ t, exec (.atom (M 6 0 .w4 .acqRel) .shared .add) memLab = .next t :=
  ⟨by unfold exec execSts; exact runUnit_next _ _, by unfold exec execAtom; exact runUnit_next _ _⟩

/-! ### Fields, guards and holds; page faults -/

/-- Program instructions with a field that no thread may use, and with a guard that no lane meets. -/
def never : Guard := ⟨true, 7⟩
def laneBad : List Instr := [.brx (A 511 500 511 511), .ret (A 511 500 511 511), .callx (A 500 4 511 511), .qtry (A 10 500 511 511) 0, .qtry (A 449 1 511 511) 0, .qcfg (I 10 1 3), .qlen (A 10 1 511 511), .chsend (A 511 1 511 511) true, .chrecv (A 10 511 511 511) false, .iadd (A 10 500 2 511), .lds (M 10 500 .w4 .plain) false, .stp (M 6 500 .w4 .plain), .atom (M 500 0 .w4 .plain) .shared .add, .presq (M 10 500 .w1 .plain), .gwait (A 10 500 511 511), .trap (I 511 500 7), .svc (I 511 500 7)]
def splitBad : List Instr := [.tlread (C 10 500 511), .trec (C 511 500 2), .cpy (C 10 500 8) .creg, .wstreamRel (C 511 511 500), .hnew (C 8 500 2), .hcopy (C 8 8 511), .collAr (C 10 500 511), .xsigSet (C 511 500 2)]
def groupBad : List Instr := [.mzero (E 500 511 2), .mstat (E 500 511 511) false, .aseq (E 511 500 511), .svmap (E 10 500 2), .dsread (E 8 500 2) .cur, .dscommit (E 500 0 1), .dstruncPos (E 500 0 5)]
def laneNever : List Instr := [.brx { A 511 4 511 511 with g := never }, .callx { A 12 4 511 511 with g := never }, .exit never, .nop never, .qtry { A 10 448 511 511 with g := never } 0, .qcfg { I 449 1 3 with g := never }, .qlen { A 10 448 511 511 with g := never }, .iadd { A 10 1 2 511 with g := never }, .lds { M 10 0 .w4 .plain with g := never } false, .fence { M 511 511 .w1 .acquire with g := never }, .bkpt { I 511 511 0 with g := never }]
def splitNever : List Instr := [.tlread { C 10 0 511 with g := never }, .wstreamStop { C 511 511 511 with g := never }, .xsigAdd { C 511 4 2 with g := never }]
def groupNever : List Instr := [.bar { I 511 511 0 with g := never }, .mzero { E 2 511 2 with g := never }, .atile { E 10 511 511 with g := never }]
theorem witness_fields : (∀ i ∈ laneBad, memLab.view?.elim false (fun v => (laneUses memLab v i).elim false fun r => !r.2) = true) ∧ (∀ i ∈ splitBad, memLab.view?.elim false (fun v => (splitUses v i).elim false fun r => !r.2) = true) ∧
    ∀ i ∈ groupBad, memLab.view?.elim false (fun v => (groupUses v i).elim false fun r => !r.2 && v.assembled && v.b.attn.move == none) = true := by decide
theorem witness_false_guards : (∀ i ∈ laneNever, memLab.view?.elim false (fun v => (laneUses memLab v i).elim false fun r => r.2 && v.active r.1 == []) = true) ∧
    (∀ i ∈ splitNever, memLab.view?.elim false (fun v => (splitUses v i).elim false fun r => r.2 && v.lanes.head?.elim false fun l => !((v.thread l).elim false (Guard.holds r.1))) = true) ∧
    ∀ i ∈ groupNever, memLab.view?.elim false (fun v => (groupUses v i).elim false fun r => r.2 && v.assembled && v.lanes.head?.elim false fun l => !((v.thread l).elim false (Guard.holds r.1))) = true := by decide
theorem witness_channel_guards : ∀ i ∈ ([.chsend { A 511 1 511 511 with g := never } false, .chrecv { A 10 511 511 511 with g := never } false] : List Instr), ∃ k : Nat,
    viewB (stageLab k) (fun v => (laneUses (stageLab k) v i).elim false fun r => r.2 && v.active r.1 == []) = true := fun i h => by
  rcases List.mem_cons.mp h with rfl | h
  · exact ⟨0, by decide⟩
  · rcases List.mem_cons.mp h with rfl | h
    · exact ⟨1, by decide⟩
    · cases h
theorem witness_jumps : (memLab.view?.elim false fun v => (jumpUses v (.call g7 500 0)).elim false fun r => !r.2) = true ∧
    ∀ i ∈ ([.bra never 0, .meet never 0, .yield never, .call never 12 0] : List Instr), memLab.view?.elim false (fun v => (jumpUses v i).elim false fun r => r.2 && v.g.clauseNow.isSome && v.active r.1 == []) = true := by decide
/-- Registers 1 and 2 empty, or on their way. -/
def emptyLab (a : Avail) : State := regLab.modThread grp0 0 fun t => { t with regs := (t.regs.set 1 ⟨0, false, a⟩).set 2 ⟨0, false, a⟩ }
def sourceB (s : State) (i : Instr) (et : Bool) (a : Avail) : Bool := (regRow i).elim false fun R => s.view?.elim false fun v => v.legal R.uses && (v.active R.g).any fun l =>
  R.uses.src.any fun x => x.et == et && (match opKind x.f with | .reg k => (reg? s v.u l k).map (·.av) == some a | _ => false)
theorem witness_source_holds : sourceB (emptyLab .empty) (.iadd { A 10 1 2 511 with et := 4 }) true .empty = true ∧ sourceB (emptyLab .empty) (.iadd (A 10 1 2 511)) false .empty = true ∧
    sourceB (emptyLab .inFlight) (.iadd (A 10 1 2 511)) false .inFlight = true ∧ (emptyLab .inFlight).view?.elim false (fun v => dstBusy (emptyLab .inFlight) v.u 0 ⟨1, 1⟩) = true := by decide
/-- A port with too few entries: with its empty-trap bit, and without; and the tray of a block whose front-end thread has exited. -/
def portB (s : State) (i : Instr) (et off : Bool) : Bool := (regRow i).elim false fun R => s.view?.elim false fun v => v.legal R.uses && (v.active R.g).head?.elim false fun l =>
  match R.uses.src with
  | x :: r => x.et == et && r == [] && (match opKind x.f with | .port q => decide ((portView s v.u l q).1.length < x.n) && (portView s v.u l q).2.1 == off | _ => false)
  | [] => false
theorem witness_ports : portB ringLab (.mov { A 10 451 511 511 with et := 4 }) true false = true ∧ portB ringLab (.mov (A 10 451 511 511)) false false = true ∧
    portB ((lab .V).modBlk 0 fun b => { b with fe := { b.fe with threads := b.fe.threads.map fun t => { t with stat := .exited } } }) (.mov (A 10 448 511 511)) false true = true := by decide
theorem witness_full_port : (regRow (.mov (A 450 1 511 511))).elim false (fun R => ringLab.view?.elim false fun v => v.legal R.uses && okElim (readAll v (v.active R.g) R.uses ringLab) fun r =>
    !portFree r.2 v.u R.uses.dst (R.out ringLab v r.1)) = true := by decide

/-- A fault queue and a bench area of `sz` bytes in host memory; accesses of the lane outstanding, or none. -/
def pfLab (c : Cls) (sz : DWord) (unp : List Nat) : State := ((lab c).modThread (if c = .S then .front 0 else grp0) 0 fun t => { t with unp := unp }).modCtx 0 fun x =>
  { x with rcd := { x.rcd with fqn := 4, fq := 0x40000000, bencha := 0x40010000, benchsz := sz } }
theorem witness_page_fault_room : ∀ x ∈ ([(.V, 0, [5]), (.V, 0, []), (.V, 0x20000, []), (.S, 0, [])] : List (Cls × DWord × List Nat)), viewB (pfLab x.1 x.2.1 x.2.2) (fun v => ((pfLab x.1 x.2.1 x.2.2).ctxD v.b.ctx).fqRoom &&
    v.g.stat == .ready && v.front == (x.1 == .S) && (pfLab x.1 x.2.1 x.2.2).drained v.u v.g == (x.2.2 == []) && ((pfLab x.1 x.2.1 x.2.2).benchAlloc v.b.ctx (grpFrameSize v.b.nregs)).isSome == (x.2.1 != 0)) = true := by decide +kernel


/-! ### Engine instructions -/

/-- The turn of an instruction in the attention context's order. -/
def turnB (v : View) : Bool := (v.b.attn.ops.all fun o => decide (attnBefore v < o.no)) && v.b.attn.waits.head?.elim true fun w => w.u == v.u
theorem turnB_ok {v : View} (h : turnB v = true) : AttnTurn v := by
  simp only [turnB, Bool.and_eq_true, List.all_eq_true, decide_eq_true_eq] at h
  exact h
/-- The stream context that an instruction names. -/
def streamB (s : State) (v : View) (b : DWord) (p : SCtx → List Bool → Bool) : Bool :=
  (turnB v && v.cmdPre v.g.live == [] && b.toNat % 2 ^ 56 % 256 == 0) &&
    readsB s v (b.toNat % 2 ^ 56) 256 [0] fun r => (sctxOf (b.toNat % 2 ^ 56) r.1).legal && p (sctxOf (b.toNat % 2 ^ 56) r.1) r.2
theorem streamB_ok {s : State} {v : View} {b : DWord} {p : SCtx → List Bool → Bool} (h : streamB s v b p = true) : ∃ c e, StreamAt s v b c e ∧ p c e = true := by
  simp only [streamB, Bool.and_eq_true, beq_iff_eq] at h
  obtain ⟨⟨⟨h1, h3⟩, h4⟩, h⟩ := h
  obtain ⟨r, hr, h⟩ := readsB_ok h
  simp only [Bool.and_eq_true] at h
  exact ⟨_, _, ⟨turnB_ok h1, h3, h4, r, hr, rfl, h.1, rfl⟩, h.2⟩
/-- A descriptor of `n` bytes with the fields given: offset, bytes, value. -/
def desc (n : Nat) (fs : List (Nat × Nat × Nat)) : List Byte := fs.foldl (fun bs f => bs.take f.1 ++ leBytes f.2.1 f.2.2 ++ bs.drop (f.1 + f.2.1)) (List.replicate n 0)
/-- A class's state with a descriptor at 0x100000, registers 0 and 1 its address, then others; a handle table and 16 KiB of shared space. -/
def engLab (c : Cls) (bs : List Byte) (vs : List Word) : State :=
  onB (fun b => { b with shared := 16384 }) ((hbm (regs (lab c) ([0x100000, 0] ++ vs)) 0x100000 bs).modCtx 0 fun x => { x with rcd := { x.rcd with htab := 0x130000, nobj := 16 } })
/-- The descriptor's first bytes carry an uncorrectable error. -/
def spoiled (s : State) : State := { s with granErr := [kHbm 0 0x100000 / 8] }
def trecBytes : List Byte := desc 128 [(0, 7, 0x110000), (8, 1, 1), (9, 1, 2), (0x10, 4, 32), (0x1A, 2, 32)]
theorem witness_trec : ∃ v l i s1, SplitReady (C 511 0 2) { src := [mSrc 0 2, mSrc 2 1] } [0, 1] (engLab .C trecBytes [3]) v l i s1 ∧
    (v.cmdPre v.lanes == [] && (i.d 0).toNat % 2 ^ 56 % 128 == 0 && readsB s1 v ((i.d 0).toNat % 2 ^ 56) 128 [0, 1, 2, 3, 4, 5] fun r => !r.2.any id && (trecOf r.1).legal) = true :=
  splitB_ok (by decide +kernel)
theorem witness_trec_poisoned : ∃ v l i s1, SplitReady (C 511 0 2) { src := [mSrc 0 2, mSrc 2 1] } [0, 1] (spoiled (engLab .C trecBytes [3])) v l i s1 ∧
    (v.cmdPre v.lanes == [] && readsB s1 v ((i.d 0).toNat % 2 ^ 56) 128 [0, 1, 2, 3, 4, 5] fun r => r.2.any id) = true := splitB_ok (by decide +kernel)
theorem witness_mstat : ∃ v i s1, EngReady (E 10 511 511) { dst := some ⟨10, 1⟩ } false (lab .M) v i s1 ∧ (v.b.matrix.ops == [] && plain 10) = true := engB_ok (by decide +kernel)

/-- A copy's state: record 0 in its slot, words w0 and ofs in registers 4 and 5. -/
def copyLab (w0 : Word) : State := onB (fun b => { b with recs := [.rcd (trecOf trecBytes), .rcd (trecOf trecBytes)] ++ b.recs.drop 2 }) (engLab .C trecBytes [0, 0, w0, 128])
def copyOk (kind : CpyKind) (src : CSrc) (v : View) (i : LaneIn) : Bool :=
  let w0 := (i.w 0 0).v.toNat
  let ofs := (i.w 0 1).v.toNat
  let o := (i.w 1).v.toNat
  let srec := v.b.recs.getD (w0 % 16) .none
  let nb := (srec.shape.map (·.nb)).getD 0
  srec != .none && v.b.recs.getD (w0 / 16 % 16) .none != .none && (kind == .cpyg || ofs % 128 == 0) && (kind == .cpyc || v.b.inDecl ofs nb) && decide (ofs + nb ≤ 2 ^ 21) &&
    (src == .creg || (o % 4 == 0 && v.b.inDecl o 72 && v.g.sq == [])) && v.b.inDecl (w0 / 2 ^ 16 * 8) 8 && (v.b.copies[w0 / 256 % 4]?).elim false (fun c => decide (c.ops.length < 64)) && plain 10
theorem witness_copies_creg : ∃ v l i s1, SplitReady (C 10 4 8) { src := [mSrc 4 4, mSrc 8 4], dst := some ⟨10, 2⟩ } [0, 1] (copyLab 0x8110) v l i s1 ∧
    ([CpyKind.cpy, .cpys, .cpyg, .cpyc].all fun k => copyOk k .creg v i) = true := splitB_ok (by decide +kernel)
theorem witness_copies_cmem : ∃ v l i s1, SplitReady (C 10 4 8) { src := [mSrc 4 4, mSrc 8 1], dst := some ⟨10, 2⟩ } [0, 1] (copyLab 0x0110) v l i s1 ∧
    ([CpyKind.cpy, .cpys, .cpyg, .cpyc].all fun k => copyOk k .cmem v i) = true := splitB_ok (by decide +kernel)

def streamBytes : List Byte := desc 64 [(0, 7, 0x60000000), (8, 7, 0x200000), (0x10, 4, 16384), (0x14, 4, 2), (0x18, 1, 1)]
/-- A start at layer 0: a legal descriptor, and one with an error. -/
theorem witness_wstream_start : ∀ e : Bool, ∃ v l i s1, SplitReady (C 10 0 2) { src := [mSrc 0 2, mSrc 2 1], dst := some ⟨10, 2⟩ } [0, 1]
      ((if e then spoiled else id) (engLab .C streamBytes [0])) v l i s1 ∧
    (v.cmdPre v.lanes == [] && v.b.pagec.stream == none && (i.d 0).toNat % 2 ^ 56 % 64 == 0 && plain 10 && readsB s1 v ((i.d 0).toNat % 2 ^ 56) 64 [0, 1, 2, 3, 4, 5] fun r =>
      if e then r.2.any id else !r.2.any id && (wstreamOf r.1 (i.w 1).v.toNat 1).legal && decide ((i.w 1).v.toNat < (wstreamOf r.1 (i.w 1).v.toNat 1).nlayer)) = true := fun e => by
  cases e <;> exact splitB_ok (by decide +kernel)
/-- A stream whose first layer has arrived. -/
def flowLab : State := onB (fun b => { b with pagec := { b.pagec with stream := some { wstreamOf streamBytes 0 1 with next := 1, arrived := [0] } } }) (engLab .C streamBytes [1])
theorem witness_wstream_rel : ∃ v l i s1, SplitReady (C 511 511 2) { src := [mSrc 2 1] } [0] flowLab v l i s1 ∧
    (v.cmdPre v.lanes == [] && v.b.pagec.stream.elim false fun d => decide (1 ≤ (i.w 0).v.toNat ∧ (i.w 0).v.toNat ≤ 16 ∧ (i.w 0).v.toNat ≤ d.arrived.length)) = true := splitB_ok (by decide +kernel)
theorem witness_wstream_stop : ∃ v l i s1, SplitReady (C 511 511 511) {} [] flowLab v l i s1 ∧ (v.cmdPre v.lanes == [] && v.b.pagec.stream.isSome) = true := splitB_ok (by decide +kernel)

/-- Every matrix instruction, with the latch descriptor in the block and operands that pass its checks. -/
def matrixLab : State := onB (fun b => { b with matrix := { b.matrix with wd := some ⟨0, 128, 0, 2⟩ } }) (engLab .M [] [0, 0, 0, 128, 2, 0, 0, 0, 0, 0])
def matrixB (i : Instr) : Bool := (matrixRow i).elim false fun R => engB R.w R.uses true matrixLab fun v x _ => (R.op x v.b).isSome && decide (v.b.matrix.ops.length < 64)
theorem matrixB_ok {i : Instr} (h : matrixB i = true) : ∃ R v x s1, matrixRow i = some R ∧ EngReady R.w R.uses true matrixLab v x s1 ∧
    ((R.op x v.b).isSome && decide (v.b.matrix.ops.length < 64)) = true := by
  obtain ⟨R, hR, h⟩ := ex_some h
  obtain ⟨v, x, s1, hv, h⟩ := engB_ok h
  exact ⟨R, v, x, s1, hR, hv, h⟩
theorem witness_matrix : ∀ i ∈ ([.mwld (E 511 8 511), .mloop (E 2 4 2), .mrowsc (E 2 2 2), .mdrain (E 2 4 2), .mzero (E 2 511 2), .amask (E 2 2 2)] : List Instr),
    ∃ R v x s1, matrixRow i = some R ∧ EngReady R.w R.uses true matrixLab v x s1 ∧ ((R.op x v.b).isSome && decide (v.b.matrix.ops.length < 64)) = true := fun i h =>
  matrixB_ok ((by decide +kernel : ∀ i ∈ ([.mwld (E 511 8 511), .mloop (E 2 4 2), .mrowsc (E 2 2 2), .mdrain (E 2 4 2), .mzero (E 2 511 2), .amask (E 2 2 2)] : List Instr), matrixB i = true) i h)

def passBytes : List Byte := desc 128 [(0, 7, 0x110000), (8, 7, 0x140000), (0x10, 4, 1), (0x14, 4, 1), (0x18, 1, 1), (0x19, 1, 2), (0x1A, 1, 16), (0x1B, 1, 1), (0x1E, 2, 1000), (0x2C, 4, 12288)]
def attnLab : State := hbm (engLab .M passBytes []) 0x110004 [1, 0, 0, 0]
theorem witness_aseq : ∃ v x s1, EngReady (E 511 0 511) { src := [mSrc 0 2] } true attnLab v x s1 ∧
    (v.cmdPre v.g.live == [] && v.b.attn.ops == [] && readsB s1 v ((x.d 0).toNat % 2 ^ 56) 128 [0, 1, 2, 3, 4, 5] fun r => !r.2.any id && (passOf r.1 []).fieldsOk && fieldAt r.1 0 7 % 4 == 0 &&
      readsB s1 v (fieldAt r.1 0 7) (4 * (fieldAt r.1 0x10 4 + 1)) [0, 1] fun q => !q.2.any id &&
        (passOf r.1 ((List.range (fieldAt r.1 0x10 4 + 1)).map fun i => fieldAt q.1 (4 * i) 4)).areasOk v.b) = true := engB_ok (by decide +kernel)
theorem witness_aseq_poisoned : ∃ v x s1, EngReady (E 511 0 511) { src := [mSrc 0 2] } true (spoiled attnLab) v x s1 ∧
    (v.cmdPre v.g.live == [] && readsB s1 v ((x.d 0).toNat % 2 ^ 56) 128 [0, 1, 2, 3, 4, 5] fun r => r.2.any id) = true := engB_ok (by decide +kernel)
/-- A pass with one tile: the next one is the first, or none is left. -/
theorem witness_atile : ∀ k ∈ [0, 1], ∃ v x s1, EngReady (E 10 511 511) { dst := some ⟨10, 2⟩ } true (onB (fun b => { b with attn := { b.attn with pass := some { passOf passBytes [0, 1] with next := k } } }) attnLab) v x s1 ∧
    (plain 10 && v.b.attn.pass.elim false fun p => (p.plan[p.next]?).isSome == (k == 0)) = true := fun k h => by
  rcases List.mem_cons.mp h with rfl | h
  · exact engB_ok (by decide +kernel)
  · rcases List.mem_cons.mp h with rfl | h
    · exact engB_ok (by decide +kernel)
    · cases h

/-- A handle in registers 4 to 7 on the block at 0x120000, position 3 in register 2; the survivor word is `surv`. -/
def survLab (surv : Byte) : State := (fun s => hbm s 0x13002A [1]) <|
  onB (fun b => { b with attn := { b.attn with pass := some (passOf passBytes [0, 1]) } }) (hbm (engLab .M [] [3, 0, 0x12800, 0, 0x120000, 0, 8, 12, 1, 0]) 0x120000 [surv])
def survOk (s1 : State) (v : View) (x : LaneIn) (p : List Run → Bool) : Bool :=
  turnB v && v.b.attn.move == none && v.cmdPre v.g.live == [] && decide ((x.w 1).v.toNat ≤ 63) && s1.resolve v.b.ctx x.lane (x.handle 0) == .addr 0x120000 &&
    okElim (s1.engRange v.b.core v.b.ctx 0x120000 8 true) fun rs => !s1.runsHeld rs && p rs
theorem witness_svmap : ∃ v x s1, EngReady (E 10 4 2) { src := [mSrc 4 4, mSrc 2 1], dst := some ⟨10, 1⟩ } true (survLab 8) v x s1 ∧
    (survOk s1 v x (fun _ => true) && plain 10 && okElim (s1.engRange v.b.core v.b.ctx 0x120000 8 false) fun _ => true) = true := engB_ok (by decide +kernel)
/-- Position 3 without a slot, alone with one, and with another slot behind it: SVSET adds, keeps or moves, SVCLR keeps, removes or moves. -/
theorem witness_svset_svclr : ∀ y ∈ ([(0, false), (8, true), (0x10, false), (0x18, true)] : List (Byte × Bool)), ∃ v x s1, EngReady (E 511 4 2) { src := [mSrc 4 4, mSrc 2 1] } true (survLab y.1) v x s1 ∧
    (((v.b.waitOf v.u).elim v.b.attn.pass (·.pass)).elim false fun pass => survOk s1 v x fun rs =>
      let surv := leNat (s1.engRead rs).1
      let n := popc64 surv
      let q := popc64 (surv % 2 ^ (x.w 1).v.toNat)
      surv.testBit (x.w 1).v.toNat == y.2 && if y.2 then (if n = 1 then q + 1 == n else q + 1 < n && okElim (s1.slotRuns v.b 0x120000 (2 * pass.hd) (q + 1) q) fun _ => true)
        else if n = 0 then q == n else q < n && okElim (s1.slotRuns v.b 0x120000 (2 * pass.hd) (n - 1) n) fun _ => true) = true := by
  simp only [List.forall_mem_cons, List.not_mem_nil, IsEmpty.forall_iff, implies_true, and_true]
  exact ⟨engB_ok (by decide +kernel), engB_ok (by decide +kernel), engB_ok (by decide +kernel), engB_ok (by decide +kernel)⟩
/-- A later attempt: the slot of position 4 moves down, as far as `m` says. -/
def slotMv (busy : Option SlotBusy) (next : Nat) : SlotMove := ⟨.group 0 0, 0x120000, 0x18, false, 3, 32, next, busy, .none⟩
def slotBusyOf (s : State) : SlotBusy := match s.view? with
  | some v => (match s.slotRuns v.b 0x120000 32 1 0 with | .ok t => t | .error _ => ⟨[], [], ([], []), ([], [])⟩)
  | none => ⟨[], [], ([], []), ([], [])⟩
def moveLab (m : State → SlotMove) : State := let s := survLab 0x18; onB (fun b => { b with attn := { b.attn with move := some (m s) } }) s
def moveB (m : State → SlotMove) (p : State → View → SlotMove → Bool) : Bool :=
  (moveLab m).view?.elim false fun v => let x := m (survLab 0x18)
    v.b.attn.move == some x && x.u == v.u && x.fault == .none && p (moveLab m) v x
theorem witness_slot_read : moveB (fun s => slotMv (some (slotBusyOf s)) 0) (fun s _ m => m.busy.elim false fun t => t.reads.head?.elim false fun r => !s.runsHeld [r.run]) = true := by decide +kernel
theorem witness_slot_write : moveB (fun s => slotMv (some { slotBusyOf s with reads := [] }) 0) (fun s _ m => m.busy.elim false fun t => t.reads == [] && t.writes.head?.elim false fun r => !s.runsHeld [r.run]) = true := by decide +kernel
theorem witness_slot_begin : moveB (fun _ => slotMv none 0) (fun s v m => m.busy == none && ((m.pairs false)[m.next]?).elim false fun x => okElim (s.slotRuns v.b m.base m.size x.1 x.2) fun _ => true) = true := by decide +kernel
theorem witness_slots_moved : moveB (fun _ => slotMv none 1) (fun s v m => m.busy == none && decide ((m.pairs false).length ≤ m.next) &&
    okElim (s.engRange v.b.core v.b.ctx m.base 8 true) fun rs => !s.runsHeld rs) = true := by decide +kernel

/-- A stream's context: position 1, capacity 16, the earliest position to truncate `pmin`, one frame pending, snapshots of `ck` bytes. -/
def sctxBytes (pmin ck : Nat) : List Byte := desc 256 [(0, 4, 1), (4, 4, 1), (0xC, 4, 8), (0x10, 4, pmin), (0x14, 2, 1), (0x16, 2, 4), (0x18, 4, 1), (0x20, 7, 0x113000), (0x40, 7, 0x114000),
  (0x54, 4, 1), (0x58, 4, 1), (0x60, 7, 0x111000), (0x68, 4, 16), (0x70, 7, 0x112000), (0x78, 4, 4), (0x7C, 4, ck)]
def dsLab (pmin ck : Nat) : State := hbm (engLab .M (sctxBytes pmin ck) [0, 0, 0, 1]) 0x113000 [1]
theorem witness_dsread : ∃ v x s1, EngReady (E 8 0 2) { src := [mSrc 0 2, mSrc 2 1], dst := some ⟨8, 4⟩ } true (dsLab 100 128) v x s1 ∧
    (plain 8 && streamB s1 v (x.d 0) fun c _ => readsB s1 v (c.ringAt (x.w 1).v.toNat) 32 [0, 1, 2, 3, 4, 5] fun _ => true) = true := engB_ok (by decide +kernel)
theorem witness_dsread_current : ∃ v x s1, EngReady (E 8 0 2) { src := [mSrc 0 2], dst := some ⟨8, 4⟩ } true (dsLab 100 128) v x s1 ∧
    (plain 8 && streamB s1 v (x.d 0) fun _ _ => true) = true := engB_ok (by decide +kernel)
def commitFails (c : SCtx) : Bool := decide (c.pmin ≤ c.g ∨ c.l < c.g + 1 - min c.p c.g ∨ (c.ckn : Int) < (c.g : Int) + 2 - c.f)
theorem witness_dscommit : ∃ v x s1, EngReady (E 2 0 1) { src := [mSrc 2 1, mSrc 0 2] } true (dsLab 100 128) v x s1 ∧
    (streamB s1 v (x.d 1) fun c _ => !commitFails c && writesB s1 v (c.tlog + 4 * (c.g % c.tlogn)) (leBytes 4 (x.w 0).v.toNat) fun t1 => writesB t1 v c.at_ (leBytes 4 (c.g + 1)) fun t2 =>
      readsB t2 v (c.clt + 4 * (c.seq + 1)) (4 * (c.nseq - c.seq)) [0, 1, 2, 3, 4, 5] fun _ => writesB t2 v (c.clt + 4 * (c.seq + 1)) [0, 0, 0, 0] fun _ => true) = true := engB_ok (by decide +kernel)
theorem witness_dscommit_fails : ∃ v x s1, EngReady (E 2 0 1) { src := [mSrc 2 1, mSrc 0 2] } true (dsLab 0 128) v x s1 ∧
    (streamB s1 v (x.d 1) fun c _ => commitFails c && writesB s1 v (c.at_ + 0x88) (leBytes 4 (c.cfail + 1)) fun _ => true) = true := engB_ok (by decide +kernel)
theorem witness_dsckpt_rel : ∃ v x s1, EngReady (E 511 0 2) { src := [mSrc 0 2, mSrc 2 1] } true (dsLab 100 128) v x s1 ∧
    (streamB s1 v (x.d 0) fun c _ => writesB s1 v (c.at_ + 8) (leBytes 4 0) fun _ => true) = true := engB_ok (by decide +kernel)
theorem witness_dstrunc : ∃ v x s1, EngReady (E 2 0 2) { src := [mSrc 2 1, mSrc 0 2, mSrc 2 1] } true (dsLab 100 128) v x s1 ∧
    (streamB s1 v (x.d 1) fun c _ => (x.w 0).v.toNat % 128 == 0 && v.b.inDecl (x.w 0).v.toNat c.cksz && c.npend != 0 && (x.w 2).v.toNat == c.ftail % c.frn &&
      readsB s1 v (c.ringAt c.ftail) 4 [0, 1, 2, 3, 4, 5] fun r => writesB s1 v (c.at_ + 0x1C) (leBytes 4 (c.ftail + 1)) fun t1 => writesB t1 v (c.at_ + 0x14) (leBytes 2 (c.npend - 1)) fun t2 =>
        okElim (truncAt v x.lane (x.w 0).v.toNat c (leNat r.1) c.pending.tail t2) fun _ => true) = true := engB_ok (by decide +kernel)
theorem witness_dstrunc_pos : ∃ v x s1, EngReady (E 2 0 5) { src := [mSrc 2 1, mSrc 0 2, mSrc 5 1] } true (dsLab 100 128) v x s1 ∧
    (streamB s1 v (x.d 1) fun c _ => (x.w 0).v.toNat % 128 == 0 && v.b.inDecl (x.w 0).v.toNat c.cksz && decide (c.f ≤ (x.w 2).v.toNat ∧ (x.w 2).v.toNat ≤ c.g) &&
      okElim (truncAt v x.lane (x.w 0).v.toNat c (x.w 2).v.toNat c.pending s1) fun _ => true) = true := engB_ok (by decide +kernel)
theorem witness_dsckpt_save : ∀ ck ∈ [0, 128], ∃ v x s1, EngReady (E 2 0 511) { src := [mSrc 2 1, mSrc 0 2] } true (dsLab 100 ck) v x s1 ∧
    (streamB s1 v (x.d 1) fun c _ => c.cksz == ck && (x.w 0).v.toNat % 128 == 0 && v.b.present (x.w 0).v.toNat c.cksz && (c.cksz == 0 || (v.b.inDecl (x.w 0).v.toNat c.cksz &&
      okElim (s1.engRange v.b.core v.b.ctx (c.ckr + c.cksz * (c.g % c.ckn)) c.cksz true) fun rs => !s1.runsHeld rs))) = true := fun k h => by
  rcases List.mem_cons.mp h with rfl | h
  · exact engB_ok (by decide +kernel)
  · rcases List.mem_cons.mp h with rfl | h
    · exact engB_ok (by decide +kernel)
    · cases h

/-- The cut of a block, of a pending frame, and all of a cut, computed. -/
def blockB (v : View) (l : Nat) (c : SCtx) (cut j : Nat) (s : State) (p : State → Bool) : Bool :=
  let ea := c.kvt + 16 * (c.seq * c.maxb + j)
  readsB s v ea 16 anyTier fun e =>
    let h := handleOf e.1
    if h.null then p s else match s.resolve v.b.ctx l h with
    | .addr a => readsB s v a 8 anyTier fun y =>
      if 64 * j < cut then writesB s v a (leBytes 8 (leNat y.1 % 2 ^ (cut - 64 * j))) p
      else writesB s v a (List.replicate 8 0) fun u =>
        writesB { u with hc := u.hc ++ [(⟨v.b.core, 4 * h.dev + h.die, v.b.ctx, h.idx, .drop (BitVec.ofNat 8 h.gen) h.e, none⟩ : HMsg)] } v ea (List.replicate 16 0) p
    | _ => false
theorem blockB_ok {v : View} {l : Nat} {c : SCtx} {cut j : Nat} {s : State} {p : State → Bool} (h : blockB v l c cut j s p = true) : ∃ t, CutBlock v l c cut j s t ∧ p t = true := by
  unfold blockB at h
  obtain ⟨e, he, h⟩ := readsB_ok h
  simp only at h
  split at h
  · next hn => exact ⟨s, ⟨e, he, .inl ⟨hn, rfl⟩⟩, h⟩
  · next hn =>
    split at h
    · next a ha =>
      obtain ⟨y, hy, h⟩ := readsB_ok h
      split at h
      · next hc =>
        obtain ⟨t, ht, h⟩ := writesB_ok h
        exact ⟨t, ⟨e, he, .inr ⟨by simpa using hn, a, y, ha, hy, .inl ⟨hc, ht⟩⟩⟩, h⟩
      · next hc =>
        obtain ⟨u, hu, h⟩ := writesB_ok h
        obtain ⟨t, ht, h⟩ := writesB_ok h
        exact ⟨t, ⟨e, he, .inr ⟨by simpa using hn, a, y, ha, hy, .inr ⟨by omega, u, hu, ht⟩⟩⟩, h⟩
    · cases h
def frameB (v : View) (c : SCtx) (cut x : Nat) (s : State × Nat) (p : State × Nat → Bool) : Bool :=
  readsB s.1 v (c.ringAt x) 12 anyTier fun e =>
    let low := min s.2 (min cut (fieldAt e.1 0 4))
    if fieldAt e.1 0 4 ≤ cut then p (s.1, low)
    else writesB s.1 v (c.ringAt x) (leBytes 4 cut) fun u => writesB u v (c.ringAt x + 8) (leBytes 4 (fieldAt e.1 8 4 ||| 2)) fun t => p (t, low)
theorem frameB_ok {v : View} {c : SCtx} {cut x : Nat} {s : State × Nat} {p : State × Nat → Bool} (h : frameB v c cut x s p = true) : ∃ t, CutFrame v c cut x s t ∧ p t = true := by
  unfold frameB at h
  obtain ⟨e, he, h⟩ := readsB_ok h
  simp only at h
  split at h
  · next hc => exact ⟨(s.1, min s.2 (min cut (fieldAt e.1 0 4))), ⟨e, he, rfl, .inl ⟨hc, rfl⟩⟩, h⟩
  · next hc =>
    obtain ⟨u, hu, h⟩ := writesB_ok h
    obtain ⟨t, ht, h⟩ := writesB_ok h
    exact ⟨(t, min s.2 (min cut (fieldAt e.1 0 4))), ⟨e, he, rfl, .inr ⟨by omega, u, hu, ht⟩⟩, h⟩
def alongB {α β : Type} (f : α → β → (β → Bool) → Bool) : List α → β → (β → Bool) → Bool
  | [], s, p => p s
  | a :: r, s, p => f a s fun u => alongB f r u p
theorem alongB_ok {α β : Type} {R : α → β → β → Prop} {f : α → β → (β → Bool) → Bool} (hf : ∀ a s p, f a s p = true → ∃ t, R a s t ∧ p t = true) :
    ∀ {as : List α} {s : β} {p : β → Bool}, alongB f as s p = true → ∃ t, along R as s t ∧ p t = true
  | [], s, _, h => ⟨s, rfl, h⟩
  | a :: r, s, p, h => by
    obtain ⟨u, hu, h⟩ := hf a s _ h
    obtain ⟨t, ht, h⟩ := alongB_ok hf h
    exact ⟨t, ⟨u, hu, ht⟩, h⟩
def cutB (v : View) (l : Nat) (c : SCtx) (cut : Nat) (pend : List Nat) (s : State) (p : State → Bool) : Bool :=
  writesB s v c.at_ (leBytes 4 cut) fun t1 => readsB t1 v (c.clt + 4 * c.seq) 8 anyTier fun two => readsB t1 v (c.clt + 4 * (c.seq + 1)) (4 * (c.nseq - c.seq)) anyTier fun ws =>
    writesB t1 v (c.clt + 4 * (c.seq + 1)) (let oldLen := fieldAt two.1 4 4 - fieldAt two.1 0 4
        (List.range (c.nseq - c.seq)).flatMap fun i => leBytes 4 (((fieldAt ws.1 (4 * i) 4 : Int) + (cut - oldLen)) % 2 ^ 32).toNat) fun t2 =>
      alongB (blockB v l c cut) ((List.range (c.maxb - cut / 64)).map (cut / 64 + ·)) t2 fun t3 => alongB (frameB v c cut) pend (t3, 2 ^ 32 - 1) fun t4 =>
        writesB t4.1 v (c.at_ + 0x10) (leBytes 4 t4.2) p
theorem cutB_ok {v : View} {l : Nat} {c : SCtx} {cut : Nat} {pend : List Nat} {s : State} {p : State → Bool} (h : cutB v l c cut pend s p = true) : ∃ t, CutMade v l c cut pend s t ∧ p t = true := by
  unfold cutB at h
  obtain ⟨t1, h1, h⟩ := writesB_ok h
  obtain ⟨two, h2, h⟩ := readsB_ok h
  obtain ⟨ws, h3, h⟩ := readsB_ok h
  obtain ⟨t2, h4, h⟩ := writesB_ok h
  obtain ⟨t3, h5, h⟩ := alongB_ok (fun _ _ _ h => blockB_ok h) h
  obtain ⟨⟨t4, low⟩, h6, h⟩ := alongB_ok (fun _ _ _ h => frameB_ok h) h
  obtain ⟨t, h7, h⟩ := writesB_ok h
  exact ⟨t, ⟨t1, t2, t3, t4, low, two, ws, h1, h2, h3, h4, h5, h6, h7⟩, h⟩
/-- A stream of two blocks, both behind the handle on entry 1, with survivors at 0, 1 and 3, and of two pending frames of stamps 1 and 9. -/
def cutBytes : List Byte := ([(0x14, 2, 2), (0x18, 4, 2), (0x48, 7, 0x140000), (0x58, 4, 2)] : List (Nat × Nat × Nat)).foldl (fun bs f => bs.take f.1 ++ leBytes f.2.1 f.2.2 ++ bs.drop (f.1 + f.2.1)) (sctxBytes 100 128)
def cutLab : State :=
  let h := leBytes 8 0x12800 ++ leBytes 8 0x120000
  hbm (hbm (hbm (hbm (hbm (engLab .M cutBytes [0, 0, 0, 1]) 0x113000 [1]) 0x113020 [9]) 0x140000 (h ++ h)) 0x120000 [11]) 0x13002A [1]
theorem witness_cut_frame : ∃ v x s1, EngReady (E 2 0 2) { src := [mSrc 2 1, mSrc 0 2, mSrc 2 1] } true cutLab v x s1 ∧
    (streamB s1 v (x.d 1) fun c _ => (x.w 0).v.toNat % 128 == 0 && v.b.inDecl (x.w 0).v.toNat c.cksz && c.npend != 0 && (x.w 2).v.toNat == c.ftail % c.frn &&
      readsB s1 v (c.ringAt c.ftail) 4 anyTier fun r => writesB s1 v (c.at_ + 0x1C) (leBytes 4 (c.ftail + 1)) fun t1 => writesB t1 v (c.at_ + 0x14) (leBytes 2 (c.npend - 1)) fun t2 =>
        cutB v x.lane c (leNat r.1) c.pending.tail t2 fun u => readsB u v (c.ckr + c.cksz * (leNat r.1 % c.ckn)) c.cksz anyTier fun _ => true) = true := engB_ok (by decide +kernel)
theorem witness_cut_pos : ∃ v x s1, EngReady (E 2 0 5) { src := [mSrc 2 1, mSrc 0 2, mSrc 5 1] } true cutLab v x s1 ∧
    (streamB s1 v (x.d 1) fun c _ => decide (c.f ≤ (x.w 2).v.toNat ∧ (x.w 2).v.toNat ≤ c.g) && cutB v x.lane c (x.w 2).v.toNat c.pending s1 fun u =>
      readsB u v (c.ckr + c.cksz * ((x.w 2).v.toNat % c.ckn)) c.cksz anyTier fun _ => true) = true := engB_ok (by decide +kernel)
theorem witness_single_run : memCanonical cutLab ∧ cutLab.view?.elim false (fun v => okElim (cutLab.engRange v.b.core v.b.ctx 0x113000 [(1 : Byte), 2].length true) fun rs =>
    match rs with | [r] => !cutLab.pkgGone (cutLab.leafPkg r.leaf) && !cutLab.runsHeld rs | _ => false) = true := ⟨by unfold memCanonical; decide +kernel, by decide +kernel⟩

/-- A handle on entry 1, which is live, with exponent 5 in registers 4 to 7. -/
def handleLab : State := hbm (engLab .C [] [5, 0, 0x12800, 0, 0x120000, 0]) 0x130029 [0, 1]
theorem witness_hnew : ∃ v l i s1, SplitReady (C 8 0 2) { src := [mSrc 0 2, mSrc 2 1], dst := some ⟨8, 4⟩ } [0, 1] handleLab v l i s1 ∧
    (v.b.rwOk v.front 8 4 && (s1.ctxD v.b.ctx).rcd.htab != 0 && decide (1 ≤ (i.w 1).v.toNat ∧ (i.w 1).v.toNat ≤ 30) && (s1.freeEntry v.b.ctx v.die).isSome) = true := splitB_ok (by decide +kernel)
theorem witness_hcopy : ∃ v l i s1, SplitReady (C 8 4 511) { src := [mSrc 4 4], dst := some ⟨8, 4⟩ } [0] handleLab v l i s1 ∧
    (v.b.rwOk v.front 8 4 && v.b.rwOk v.front 4 4 && disjointRegs 8 4 && !s1.handleBad v.b.ctx (i.handle 0) && (match s1.splitHandle v.b.ctx v.die i.lane (i.handle 0) with | .ok _ _ => true | _ => false)) = true :=
  splitB_ok (by decide +kernel)
/-- The split of a handle of exponent 5, and of one of exponent 0 where an entry is free. -/
theorem witness_split : (⟨0x12800, 0x120000⟩ : Handle).null = false ∧ 1 ≤ (⟨0x12800, 0x120000⟩ : Handle).e ∧ (let h : Handle := ⟨0x10000, 0x120000⟩
    !h.null && h.e == 0 && !h.ind && (handleLab.ctxD 0).rcd.htab != 0 && (handleLab.freeEntry 0 0).isSome) = true := by decide +kernel
theorem witness_hderef : ∃ v l i s1, SplitReady (C 8 4 511) { src := [mSrc 4 4], dst := some ⟨8, 2⟩ } [0] handleLab v l i s1 ∧
    (plain 8 && s1.resolve v.b.ctx i.lane (i.handle 0) == .addr 0x120000) = true := splitB_ok (by decide +kernel)
theorem witness_hwt : ∃ v l i s1, SplitReady (C 8 4 511) { src := [mSrc 4 4], dst := some ⟨8, 1⟩ } [0] handleLab v l i s1 ∧ plain 8 = true := splitB_ok (by decide +kernel)
theorem witness_hdrop : ∃ v l i s1, SplitReady (C 511 4 511) { src := [mSrc 4 4] } [0] handleLab v l i s1 ∧
    (v.b.rwOk v.front 4 4 && decide (v.b.handle.ops.length < 64) && !s1.handleBad v.b.ctx (i.handle 0)) = true := splitB_ok (by decide +kernel)
theorem witness_hbind : ∃ v l i s1, SplitReady (C 511 4 0) { src := [mSrc 4 4, mSrc 0 2] } [0, 1] handleLab v l i s1 ∧
    (decide (v.b.handle.ops.length < 64) && !s1.handleBad v.b.ctx (i.handle 0) && !(i.handle 0).null && !(i.handle 0).ind && (i.d 1).toNat % 2 ^ 56 % 64 == 0) = true := splitB_ok (by decide +kernel)

def collBytes : List Byte := desc 64 [(0, 7, 0x120000), (8, 7, 0x121000), (0x10, 7, 0x110000), (0x18, 4, 4), (0x1C, 2, 2), (0x24, 4, 9)]
def collLab : State := hbm (engLab .C collBytes [7, 0, 0x40000000, 0]) 0x110000 [0, 0, 1, 0]
theorem witness_coll : ∃ v l i s1, SplitReady (C 10 0 511) { src := [mSrc 0 2], dst := some ⟨10, 2⟩ } [0] collLab v l i s1 ∧
    (v.cmdPre v.lanes == [] && plain 10 && v.b.coll.ops == [] && readsB s1 v ((i.d 0).toNat % 2 ^ 56) 64 [0, 1] fun r =>
      let base := collOf r.1 0 1 [] 0 [] false
      let n := fieldAt r.1 0x1C 2
      !r.2.any id && decide (1 ≤ base.count ∧ base.count ≤ 2 ^ 28 ∧ 2 ≤ n ∧ n ≤ 128 ∧ base.rank < n ∧ base.fmt ≤ 3 ∧ base.op ≤ 2) && base.src % collSize base.fmt == 0 && base.dst % collSize base.fmt == 0 &&
        readsB s1 v (fieldAt r.1 0x10 7) (2 * n) [0, 1, 2, 3, 4, 5] fun q =>
          let ranks := (List.range n).map fun i => fieldAt q.1 (2 * i) 2 % 128
          !q.2.any id && ranks.all (fun r => s1.inDomain v.b.ctx (r / 4)) && noRepeat ranks && ranks.getD base.rank 128 == 4 * s1.pkg + v.die) = true := splitB_ok (by decide +kernel)
theorem witness_coll_poisoned : ∃ v l i s1, SplitReady (C 10 0 511) { src := [mSrc 0 2], dst := some ⟨10, 2⟩ } [0] (spoiled collLab) v l i s1 ∧
    (v.cmdPre v.lanes == [] && plain 10 && readsB s1 v ((i.d 0).toNat % 2 ^ 56) 64 [0, 1] fun r => r.2.any id) = true := splitB_ok (by decide +kernel)
theorem witness_xsig : ∃ v l i s1, SplitReady (C 511 4 2) { src := [mSrc 4 2, mSrc 2 2] } [0] collLab v l i s1 ∧
    ((v.thread i.lane).elim true (s1.memReady ·) && (i.d 0).toNat % 2 ^ 56 % 8 == 0 && (s1.xlate v.b.core v.b.ctx (BitVec.ofNat 56 ((i.d 0).toNat % 2 ^ 56))).elim false fun lf =>
      s1.xsigLegal lf && !lf.ord) = true := splitB_ok (by decide +kernel)

/-! ### Traps, service calls, faults and schedulers -/

theorem ex_some2 {α β : Type} {o : Option α} {f : α → Option β} {p : α → β → Bool} (h : (o.elim false fun a => (f a).elim false (p a)) = true) :
    ∃ a b, o = some a ∧ f a = some b ∧ p a b = true := by
  obtain ⟨a, ha, h⟩ := ex_some h
  obtain ⟨b, hb, h⟩ := ex_some h
  exact ⟨a, b, ha, hb, h⟩
theorem ex_some3 {α β γ : Type} {o : Option α} {f : α → Option β} {f' : α → β → Option γ} {p : α → β → γ → Bool}
    (h : (o.elim false fun a => (f a).elim false fun b => (f' a b).elim false (p a b)) = true) : ∃ a b c, o = some a ∧ f a = some b ∧ f' a b = some c ∧ p a b c = true := by
  obtain ⟨a, ha, h⟩ := ex_some h
  obtain ⟨b, c, hb, hc, h⟩ := ex_some2 h
  exact ⟨a, b, c, ha, hb, hc, h⟩

/-- TRAP with a clean value, and with a poisoned one. -/
theorem witness_trap : ∀ bad : Bool, ∃ v ins s1, RegReady ⟨g7, { src := [iSrc (I 511 1 7) 1 false] }, fun _ _ _ => []⟩
      ((lab .X).modThread (.group 0 0) 0 fun t => t.setRegs 1 [⟨5, bad⟩]) v ins s1 ∧
    (v.g.clauseNow.isSome && ins != [] && ins.all fun i => i.psn == bad) = true := fun bad => by
  cases bad <;> exact regB_ok (by decide +kernel)
/-- TRAP at its clause's end, with a clause behind it and without. -/
def lastLab (next : Bool) : State := if next then lab .X else hbm (lab .X) 0x40000 [1]
theorem witness_trap_last : ∀ next : Bool, clauseB (lastLab next) (fun v c => (v.pc + 8#56).toNat == (c.hdr.toNat + 8 * (c.count + 1)) % 2 ^ 56 && (lastLab next).clauseOk v.b (v.pc + 8#56) == next) = true := by decide +kernel
/-- A service ring of 4 entries in host memory, and a bench area with room for a frame, or none. -/
def svcLab (room : Bool) : State :=
  (lab .X).modCtx 0 fun c => { c with rcd := { c.rcd with svcr := 0x40000000, svcn := 4, bencha := 0x40010000, benchsz := if room then 0x10000 else 0 } }
/-- The state in which the entry is written and the lanes stand at the next word. -/
def svcDone (s s1 : State) (v : View) (w : WI) (ins : List LaneIn) : State :=
  let c := s.ctxD v.b.ctx
  let rn := c.rcd.svcn.toNat
  let slot := c.svcW % rn
  let at_ := (c.rcd.svcr.toNat % 2 ^ 56 + 2048 * slot) % 2 ^ 56
  let t := s1.devWrite v.b.ctx (at_ + 2) (svcEntry w.imm.toNat (v.pc.setWidth 64) v.b.ctx v.u.grpNo v.b.idx (maskOf (v.active w.g)) (c.svcSeq + 1)
    (ins.map fun i => (i.lane, (i.src.headD []).map (·.v))))
  let t := t.devWrite v.b.ctx at_ (leBytes 2 (c.svcW / rn % 65535 + 1))
  let t := t.modCtx v.b.ctx fun c => { c with svcSeq := c.svcSeq + 1, svcW := c.svcW + 1, svcs := c.svcs ++ [⟨slot, v.u.blk, v.u.grpNo, maskOf (v.active w.g)⟩] }
  (t.modGrp v.u fun g => { g with threads := g.threads.map fun t => { t with q16 := [] } }).pastWord v
/-- SVC: the entry's place is free and nothing is outstanding; a bench area with room for the frame, and none. -/
theorem witness_svc : ∀ room : Bool, ∃ v ins s1, RegReady ⟨g7, { src := [iSrc (I 511 0 7) 4 false] }, fun _ _ _ => []⟩ (svcLab room) v ins s1 ∧
    (performed v (v.active g7) && s1.drained v.u v.g && ((svcLab room).ctxD v.b.ctx).rcd.svcn.toNat != 0 && ((svcLab room).ctxD v.b.ctx).svcs == [] &&
      let t := svcDone (svcLab room) s1 v (I 511 0 7) ins
      !((t.grp? v.u).elim true (·.stat == .stopped)) && (t.benchGrp v.u 2).isSome == room) = true := fun room => by
  cases room <;> exact regB_ok (by decide +kernel)
/-- BKPT with debug stops off and on; STATCLR of any item. -/
theorem witness_bkpt : ∀ on : Bool, ∃ v, ((lab .X).modPart 0 fun p => { p with fcw := if on then 2 else 0 }).view? = some v ∧
    (v.active g7 != [] && ((lab .X).modPart 0 fun p => { p with fcw := if on then 2 else 0 }).dbgOn v.b.ctx == on &&
      (lab .X).drained v.u v.g && !((((lab .X).pastWord v).grp? v.u).elim true (·.stat == .stopped))) = true := fun on => by
  cases on <;> exact viewB_ok (by decide +kernel)
theorem witness_fault : ∃ b g, (lab .V).blk? 0 = some b ∧ b.grp? (.group 0 0) = some g ∧ decide (((lab .V).ctxD b.ctx).part < (lab .V).parts.length) = true := ex_some2 (by decide)

def onGrp (f : Grp → Grp) (s : State) : State := s.modGrp (.group 0 0) f
/-- The executing group at a clause start, its scheduler free. -/
def idleLab : State :=
  (onGrp (fun g => { g with runs := 0, threads := g.threads.map fun t => { t with cl := none, pc := 0x30000 } }) (lab .V)).modCore 0 fun c => { c with cur := c.cur.map fun _ => none }
def idleNow : State := (idleLab.unitsOn 0 0).foldl (fun s u => s.debugPend u) (idleLab.meetAll 0 0)
theorem witness_select : ∃ u t x, idleNow.select 0 0 = some (u, t, x) ∧ (match x with | .bad _ => false | _ => (idleLab.coreD 0).cur[0]? == some none) = true := by
  obtain ⟨r, h, h'⟩ := ex_some (o := idleNow.select 0 0) (p := fun r => match r.2.2 with | .bad _ => false | _ => (idleLab.coreD 0).cur[0]? == some none) (by decide +kernel)
  exact ⟨_, _, _, h, h'⟩
/-- A group held for 1024 cycles and not served for as long as its threshold, two lanes at a meeting, a breakpoint at its pc. -/
def heldLab : State := (onGrp (fun g => { g with fair := 1024, hold := 64, age := 2 ^ 40, promoted := none }) (lab .V)).modCtx 0 fun c => { c with bps := [0x30008] }
def dbgLab (f : Grp → Grp) : State := ({ onGrp f heldLab with released := 3 } : State).modPart 0 fun p => { p with fcw := p.fcw ||| 2 }
theorem witness_scheduler : ∃ b x, heldLab.blk? 0 = some b ∧ b.grp? (.group 0 0) = some x ∧
    (decide (1024 ≤ x.fair) && x.promoted == none && decide (2 ^ (6 + (heldLab.ctxD b.ctx).agec) ≤ x.age) && decide (64 ≤ x.hold) && x.runs != 0 && x.stat == .ready) = true := ex_some2 (by decide +kernel)
theorem witness_meeting : ∃ x, (onGrp (fun g => { g with threads := g.threads.map fun t => if t.stat = .run then { t with stat := .meet, mr := t.pc } else t }) (lab .V)).grp? (.group 0 0) = some x ∧
    x.meetReady 0x30008 = true := ex_some (by decide +kernel)
theorem witness_breakpoint : ∃ b g, (dbgLab id).blk? 0 = some b ∧ b.grp? (.group 0 0) = some g ∧ (g.stat == .ready && (dbgLab id).atBreakpoint b g) = true := ex_some2 (by decide +kernel)
/-- A group that is inside a clause, holds or is benched; and one at a boundary, ready or at a barrier. -/
theorem witness_debug_halt : ∀ x ∈ ([(2, .ready), (0, .held 1), (0, .benched 2 64), (0, .ready), (0, .bar 3), (0, .cbar 1)] : List (Mask × UStat)),
    ∃ b g, (dbgLab fun g => { g with runs := x.1, stat := x.2 }).blk? 0 = some b ∧ (dbgLab fun g => { g with runs := x.1, stat := x.2 }).grp? (.group 0 0) = some g ∧
    (g.stat == x.2 && g.runs == x.1 && (dbgLab id).dbgOn b.ctx && (dbgLab id).hostOk && !g.gone && g.owed != 4 && !(dbgLab id).halting b.ctx) = true := fun x h => by
  obtain ⟨b, hb, h⟩ := ex_some ((by decide +kernel : ∀ x ∈ ([(2, .ready), (0, .held 1), (0, .benched 2 64), (0, .ready), (0, .bar 3), (0, .cbar 1)] : List (Mask × UStat)),
    ((dbgLab fun g => { g with runs := x.1, stat := x.2 }).blk? 0).elim false (fun b => ((dbgLab fun g => { g with runs := x.1, stat := x.2 }).grp? (.group 0 0)).elim false fun g =>
      g.stat == x.2 && g.runs == x.1 && (dbgLab id).dbgOn b.ctx && (dbgLab id).hostOk && !g.gone && g.owed != 4 && !(dbgLab id).halting b.ctx) = true) x h)
  obtain ⟨g, hg, h⟩ := ex_some h
  exact ⟨b, g, hb, hg, h⟩

def storeOp : SqOp := .store (kShared 0 64) [1, 2, 3, 4]
/-- A returned value, a store at the head of the queue, a load in a channel, an address with a leaf. -/
def memEvLab : State :=
  { onGrp (fun g => { g with sq := [⟨9, 0, [], storeOp⟩] }) (lab .V) with
    fills := [⟨7, .group 0 0, 0, .regs 3 1 0, [⟨5, false⟩]⟩]
    oc := [⟨8, 0, 0, .group 0 0, 0, .regs 4 1 0, .load (kHbm 0 64) 4, none⟩] }
theorem witness_fill : ∃ f, (memEvLab.fills.find? fun f => f.id == 7) = some f ∧ f.id = 7 := ⟨_, rfl, rfl⟩
theorem witness_departure : ∃ g e r, memEvLab.grp? (.group 0 0) = some g ∧ g.sq = e :: r ∧ HeadReady memEvLab (.group 0 0) g e ∧ e.op = storeOp ∧ memCanonical memEvLab := by
  refine ⟨_, _, _, rfl, rfl, ⟨by decide +kernel, by decide +kernel, by decide +kernel⟩, rfl, ?_⟩
  unfold memCanonical
  decide +kernel
/-- A drop behind a bind of its own lane to the same home, and behind another lane's. -/
theorem witness_drop_waits : (∀ l ∈ [0, 1], ∃ g e, ({ onGrp (fun g => { g with sq := [⟨9, 0, [], .msg ⟨0, 1, 0, 2, .drop 0 3, none⟩⟩] }) (lab .V) with hpath := [⟨7, .group 0 0, [l], [⟨.group 0 0, 0, [5]⟩], ⟨0, 1, 0, 2, .bind 0 0, none⟩⟩] } : State).grp? (.group 0 0) = some g ∧
    g.sq = [e] ∧ pathHolds [⟨7, .group 0 0, [l], [⟨.group 0 0, 0, [5]⟩], ⟨0, 1, 0, 2, .bind 0 0, none⟩⟩] (.group 0 0) [e.lane] 1 e.id = (l == 0)) := fun l h => by
  refine ⟨_, _, rfl, rfl, ?_⟩
  revert l
  decide
theorem witness_delivery : ∃ e, (memEvLab.oc.find? fun e => e.core == 0 && e.slice == 0) = some e ∧ memEvLab.pkgLost (0 / 192) = false ∧ e.after = none := ⟨_, rfl, by decide +kernel, rfl⟩
theorem witness_walk : ∃ l, memEvLab.walkCtx 0 0x20000000 = some l ∧ (l : Leaf).w = true := ex_some (p := fun l : Leaf => l.w) (by decide +kernel)

/-! ### Events of blocks and of the bench area -/

/-- Partition 0 owns every half-die, and every processor of the package is up. -/
def upLab : State := { (lab .V).modPart 0 fun p => { p with mask := 0xFF } with released := 3 }
def runsB (s : State) (p : Block → Grid → Bool) : Bool := (s.blk? 0).elim false fun b => (s.grid? b.grid).elim false fun g => s.mayStart b.ctx && p b g
theorem runsB_ok {s : State} {p : Block → Grid → Bool} (h : runsB s p = true) : ∃ b g, Runs s 0 b g ∧ p b g = true := by
  obtain ⟨b, g, hb, hg, h⟩ := ex_some2 h
  simp only [Bool.and_eq_true] at h
  exact ⟨b, g, ⟨hb, hg, h.1⟩, h.2⟩
/-- A launch whose second cluster has not started; a range task with a waiting record, with one that no block has, and with one that can be split. -/
def indexLab : State := onG (fun g => { g with clusters := 2, nblocks := 2, pmap := [0, 1] }) upLab
def rangeLab (rs : List RangeRec) : State := onG (fun g => { g with kind := .range, pmap := [15], recs := rs, created := 1 }) upLab
theorem witness_stage_starts : ∃ g t, indexLab.grid? 0 = some g ∧ indexLab.admitAll g (indexLab.newCores g g.nextClu) (stageIds g) = some t ∧
    (indexLab.mayStart g.ctx && !indexLab.blockWaits 0 && g.kind == .index && decide (g.nextClu < g.clusters)) = true := ex_some2 (by decide +kernel)
/-- A page that has been delivered whole. -/
theorem witness_page_starts : ∃ g p n, (onG (fun g => { g with kind := .page, pages := [⟨0, 9, 5, 0, ⟨1, 2, 4096, 0⟩, [(0, 1)], 1, some 3⟩] }) upLab).grid? 0 = some g ∧
    g.pages.find? (·.pstat.isSome) = some p ∧ p.pstat = some n ∧ (g.kind == .page && upLab.mayStart g.ctx) = true := ex_some3 (by decide +kernel)
theorem witness_range_starts : ∃ g r t, (rangeLab [⟨1, 4, 9, 1, true, true⟩]).grid? 0 = some g ∧ g.recs.find? (·.waiting) = some r ∧
    (rangeLab [⟨1, 4, 9, 1, true, true⟩]).admitAll g ((rangeLab [⟨1, 4, 9, 1, true, true⟩]).newCores g 0) [rangeId r.idx] = some t ∧
    (g.kind == .range && !(rangeLab [⟨1, 4, 9, 1, true, true⟩]).blockWaits 0) = true := by
  obtain ⟨g, r, t, h⟩ := ex_some3 (o := (rangeLab [⟨1, 4, 9, 1, true, true⟩]).grid? 0) (f := fun g => g.recs.find? (·.waiting))
    (f' := fun g r => (rangeLab [⟨1, 4, 9, 1, true, true⟩]).admitAll g ((rangeLab [⟨1, 4, 9, 1, true, true⟩]).newCores g 0) [rangeId r.idx]) (p := fun g _ _ => g.kind == .range && !(rangeLab [⟨1, 4, 9, 1, true, true⟩]).blockWaits 0) (by decide +kernel)
  exact ⟨g, r, t, h⟩
/-- The new record's block fits on core 5. -/
def fitsB (s : State) (g : Grid) (lo hi grain : Nat) : Bool :=
  ((s.newRange 0 lo hi grain).grid? 0).elim false fun g' => ((s.newRange 0 lo hi grain).admitAll g' [5] [rangeId g.created]).isSome
theorem fitsB_ok {s : State} {g : Grid} {lo hi grain : Nat} (h : fitsB s g lo hi grain = true) : ∃ t, givenTo 0 5 lo hi grain g s t := by
  obtain ⟨g', u, hg, hu, -⟩ := ex_some2 (p := fun _ _ => true) (o := (s.newRange 0 lo hi grain).grid? 0) (f := fun g' => (s.newRange 0 lo hi grain).admitAll g' [5] [rangeId g.created]) (by
    simp only [fitsB] at h
    cases hg : (s.newRange 0 lo hi grain).grid? 0 with
    | none => rw [hg] at h; cases h
    | some g' =>
      rw [hg] at h
      simp only [Option.elim] at h ⊢
      cases hu : (s.newRange 0 lo hi grain).admitAll g' [5] [rangeId g.created] with
      | none => rw [hu] at h; cases h
      | some u => rfl)
  exact ⟨_, g', u, hg, hu, rfl⟩
theorem witness_unowned_record : ∃ g r, (rangeLab [⟨0, 4, 9, 1, false, false⟩]).grid? 0 = some g ∧ (g.recs.find? fun r => !r.owned && decide (r.lo < r.hi)) = some r ∧
    (g.kind == .range && !(rangeLab [⟨0, 4, 9, 1, false, false⟩]).blockWaits 0 && !((rangeLab [⟨0, 4, 9, 1, false, false⟩]).tasksOf g.ctx).any (·.waiting) && decide (((rangeLab [⟨0, 4, 9, 1, false, false⟩]).tasksOf g.ctx).length < 1024) &&
      ((rangeLab [⟨0, 4, 9, 1, false, false⟩]).newCores g 0).contains 5 &&
      fitsB ((rangeLab [⟨0, 4, 9, 1, false, false⟩]).modGrid 0 fun g => { g with recs := g.recs.filter (· != r) }) g r.lo r.hi r.grain) = true := ex_some2 (by decide +kernel)
theorem witness_split_record : ∃ g r, (rangeLab [⟨0, 4, 9, 1, true, false⟩]).grid? 0 = some g ∧ mostLeft g.recs = some r ∧
    (g.kind == .range && !(rangeLab [⟨0, 4, 9, 1, true, false⟩]).blockWaits 0 && !((rangeLab [⟨0, 4, 9, 1, true, false⟩]).tasksOf g.ctx).any (·.waiting) && ((rangeLab [⟨0, 4, 9, 1, true, false⟩]).newCores g 0).contains 5 && (g.recs.find? fun r => !r.owned && decide (r.lo < r.hi)) == none &&
      decide (2 * r.grain ≤ r.hi - r.lo) && decide (((rangeLab [⟨0, 4, 9, 1, true, false⟩]).tasksOf g.ctx).length < 1024) &&
      fitsB ((rangeLab [⟨0, 4, 9, 1, true, false⟩]).modGrid 0 fun g => { g with recs := g.recs.map fun x => if x.idx = r.idx then { x with hi := r.hi - (r.hi - r.lo) / 2 } else x })
        g (r.hi - (r.hi - r.lo) / 2) r.hi r.grain) = true := ex_some2 (by decide +kernel)
/-- Every thread of the block has exited. -/
def gone (s : State) : State := onB (fun b => { b with groups := b.groups.map fun g => { g with threads := g.threads.map fun t => { t with stat := .exited } },
                                                       fe := { b.fe with threads := b.fe.threads.map fun t => { t with stat := .exited } } }) s
theorem witness_block_over : ∃ b g, Runs (gone upLab) 0 b g ∧ ((gone upLab).mayEnd b.ctx && b.onCore && b.over) = true := runsB_ok (by decide +kernel)

/-- Some seconds later on core 0. -/
def later (s : State) : State := s.modCore 0 fun c => { c with cycle := 2 ^ 40 }
/-- The block waits for block 1 of its grid; a bench area of 128 KiB in host memory. -/
def awaitLab (r : Res) (bn : BBench) : State :=
  (later <| onGrp (fun g => { g with waits := [⟨1, 0, false, some 1⟩], runs := 0 }) (onB (fun b => { b with bench := bn }) (onG (fun g => { g with nblocks := 2, results := [(0, .pending), (1, r)] }) upLab))).modCtx 0
    fun c => { c with rcd := { c.rcd with bencha := 0x40010000, benchsz := 0x20000 } }
theorem witness_bench_begins : ∃ b g, Runs (awaitLab .pending .none) 0 b g ∧
    (b.bench == .none && (b.waiter ((awaitLab .pending .none).cycleOf b.core).toNat ((awaitLab .pending .none).ctxD b.ctx).bdly ((awaitLab .pending .none).notAdmitted g)).isSome) = true := runsB_ok (by decide +kernel)
theorem witness_bench_out : ∃ b g, Runs (awaitLab .pending (.stopping 1 (.group 0 0))) 0 b g ∧
    (b.bench == .stopping 1 (.group 0 0) && (awaitLab .pending (.stopping 1 (.group 0 0))).notAdmitted g 1 && b.enginesDone &&
      b.units.all (fun x => (b.grp? x).elim true fun y => (x.isFront || y.runs == 0) && !y.isLeaving && (awaitLab .pending (.stopping 1 (.group 0 0))).drained x y) &&
      ((awaitLab .pending (.stopping 1 (.group 0 0))).benchAlloc b.ctx b.frameSize).isSome) = true := runsB_ok (by decide +kernel)
/-- The awaited block has been admitted meanwhile. -/
theorem witness_bench_given_up : ∃ b g, Runs (awaitLab .ended (.stopping 1 (.group 0 0))) 0 b g ∧
    (b.bench == .stopping 1 (.group 0 0) && !(awaitLab .ended (.stopping 1 (.group 0 0))).notAdmitted g 1) = true := runsB_ok (by decide +kernel)
/-- The same without a place in the bench area. -/
def fullBench : State := (awaitLab .pending (.stopping 1 (.group 0 0))).modCtx 0 fun c => { c with rcd := { c.rcd with benchsz := 0 } }
theorem witness_bench_no_room : ∃ b g, Runs fullBench 0 b g ∧ (b.bench == .stopping 1 (.group 0 0) && fullBench.notAdmitted g 1 && b.enginesDone &&
    b.units.all (fun x => (b.grp? x).elim true fun y => (x.isFront || y.runs == 0) && !y.isLeaving && fullBench.drained x y) && (fullBench.benchAlloc b.ctx b.frameSize).isNone) = true := runsB_ok (by decide +kernel)
theorem witness_bench_back : ∃ b g, Runs (awaitLab .ended (.out 0x40010000 1 (.group 0 0))) 0 b g ∧
    (g.resOf 1 != .pending && !b.shelf && let s := awaitLab .ended (.out 0x40010000 1 (.group 0 0))
      (s.placeFor b.ctx (s.coresFor b.ctx (g.dieOk b.cluster)) { g.needOf b.shelf with
        ng := (b.groups.filter (·.onCore)).length, units := b.nregs / 16, bytes := b.sharedUse, energy := b.groups.length * b.weight }).elim false fun x =>
      (x.1.devRead b.ctx 0x40010000 b.frameSize [0, 1, 2, 3, 4, 5]).isSome) = true := runsB_ok (by decide +kernel)
/-- A wait at its limit, and one on the bench; a hold at its limit. -/
theorem witness_wait_limit : ∃ b g, (awaitLab .pending .none).blk? 0 = some b ∧ b.grp? (.group 0 0) = some g ∧
    ((awaitLab .pending .none).mayStart b.ctx && (g.waits.find? fun w => w.gwait.isSome &&
      decide (w.since + (awaitLab .pending .none).gwLimit b.ctx ≤ ((awaitLab .pending .none).cycleOf b.core).toNat)).isSome) = true := ex_some2 (by decide +kernel)
theorem witness_wait_limit_on_bench : ∃ b g, (awaitLab .pending (.out 0x40010000 1 (.group 0 0))).blk? 0 = some b ∧ b.grp? (.group 0 0) = some g ∧
    ((awaitLab .pending (.out 0x40010000 1 (.group 0 0))).mayStart b.ctx && g.waits.any (·.gwait.isSome) && b.bench == .out 0x40010000 1 (.group 0 0)) = true := ex_some2 (by decide +kernel)
def holdLab : State := (later <| onGrp (fun g => { g with waits := [⟨1, 0, false, none⟩] }) upLab).modCtx 0 fun c => { c with rcd := { c.rcd with fqn := 4, fq := 0x40000000 } }
theorem witness_hold_limit : ∃ b g, holdLab.blk? 0 = some b ∧ b.grp? (.group 0 0) = some g ∧
    (holdLab.mayStart b.ctx && b.onCore && (g.waits.find? fun w => w.gwait.isNone && !w.wlim && decide (w.since + holdLab.hLimit b.ctx ≤ (holdLab.cycleOf b.core).toNat)).isSome && (holdLab.ctxD b.ctx).fqRoom) = true := ex_some2 (by decide +kernel)
/-- A benched group at the head of those that return, benched for a fault or evicted. -/
def returnLab (c : Nat) : State :=
  { onGrp (fun g => { g with stat := .benched c 0x40010000 }) upLab with returns := [(0, 0)] }
def returnsB (c : Nat) (b : Block) (g : Grp) : Bool :=
  (returnLab c).mayStart b.ctx && b.onCore && g.stat == .benched c 0x40010000 && ((returnLab c).returns.find? fun r => ((returnLab c).blk? r.1).elim false fun x =>
      x.core == b.core && x.onCore && (returnLab c).mayStart x.ctx) == some (0, 0) &&
    (placeOne ((returnLab c).slotsUsed b.core) (b.nregs / 16)).isSome && decide ((returnLab c).bytesUsed b.core + alignUp b.spill 128 ≤ 2 ^ 19) &&
    ((returnLab c).devRead b.ctx 0x40010000 (grpFrameSize b.nregs + if c = 0 then b.spill else 0) [0, 1, 2, 3, 4, 5]).isSome
theorem witness_group_return : ∃ b g, (returnLab 1).blk? 0 = some b ∧ b.grp? (.group 0 0) = some g ∧ returnsB 1 b g = true := ex_some2 (by decide +kernel)
theorem witness_evicted_return : ∃ b g, (returnLab 0).blk? 0 = some b ∧ b.grp? (.group 0 0) = some g ∧ ((returnLab 0).ctxD b.ctx).via = b.ctx ∧ returnsB 0 b g = true := by
  obtain ⟨b, g, hb, hg, h⟩ := ex_some2 (o := (returnLab 0).blk? 0) (f := fun b => b.grp? (.group 0 0)) (p := fun b g => ((returnLab 0).ctxD b.ctx).via == b.ctx && returnsB 0 b g) (by decide +kernel)
  rw [Bool.and_eq_true, beq_iff_eq] at h
  exact ⟨b, g, hb, hg, h⟩

/-! ### Events of the engines -/

def worksB (s : State) (p : Block → Bool) : Bool := (s.blk? 0).elim false fun b => s.engineRuns b && p b
theorem worksB_ok {s : State} {p : Block → Bool} (h : worksB s p = true) : ∃ b, Works s 0 b ∧ p b = true := by
  obtain ⟨b, hb, h⟩ := ex_some h
  simp only [Bool.and_eq_true] at h
  exact ⟨b, ⟨hb, h.1⟩, h.2⟩
def copyAtB (s : State) (p : Block → CopyCtx → CopyOp → Bool) : Bool :=
  worksB s fun b => (b.copies[(0 : Nat)]?).elim false fun c => (c.ops.find? (·.no == 1)).elim false (p b c)
theorem copyAtB_ok {s : State} {p : Block → CopyCtx → CopyOp → Bool} (h : copyAtB s p = true) : ∃ b c o, CopyAt s 0 0 1 b c o ∧ p b c o = true := by
  obtain ⟨b, hb, h⟩ := worksB_ok h
  obtain ⟨c, o, hc, ho, h⟩ := ex_some2 h
  exact ⟨b, c, o, ⟨hb, hc, ho⟩, h⟩
/-- A copy of 128 bytes from 0x110000, or from an address of no page, to offset 128. -/
def copyOp (src : Nat) (bb : Option Nat) (hand : List Landing) : CopyOp :=
  { no := 1, cmd := [], pre := [], kind := .cpy, src := some { trecOf trecBytes with base := src }, dst := none, srec := 0, drec := 1, sc := [0], dc := [0], ofs := 128, bb := bb, nb := 128, walked := 0,
    todo := [], hand := hand, landed := 0, pages := [], seen := [], fault := .none, bad := false }
def copyEvLab (o : CopyOp) : State :=
  (onB (fun b => { b with copies := b.copies.set 0 ⟨⟨0, 1⟩, [o]⟩ }) (hbm (lab .V) 0x110000 [1, 2, 3, 4])).modCtx 0 fun c => { c with rcd := { c.rcd with fqn := 4, fq := 0x40000000 } }
/-- A copy whose next tile is to be translated: both ranges, the source's and the destination's answers. -/
def walkB (o : CopyOp) (src dst : Bool) : Bool := copyAtB (copyEvLab o) fun b c o =>
  let s := copyEvLab o
  let runs (r : Option TRec) (cs : List Int) (w : Bool) : Except XErr (List (Option (List Run))) := match r with
    | some r => s.tileRuns b r cs w (o.span o.walked o.esize).1 (o.span o.walked o.esize).2
    | none => .ok []
  (s.preDone o.pre && !o.bad && o.fault == .none && decide (o.walked < o.tiles) && decide (o.walked ≤ o.floor + 8) && c.ops.all (fun e => !s.copyOrd b e)) &&
    okElim (runs o.src o.sc false) (fun _ => true) == src && okElim (runs o.dst o.dc true) (fun _ => true) == dst && (s.ctxD b.ctx).fqRoom
/-- A copy from bytes to a range of no page. -/
def badDst : CopyOp := { copyOp 0x110000 none [] with kind := .cpyg, dst := some { trecOf trecBytes with base := 0x80000000 } }
theorem witness_copy_walk : walkB (copyOp 0x110000 none []) true true = true ∧ walkB (copyOp 0x80000000 none []) false true = true ∧ walkB badDst true false = true := by decide +kernel
/-- A copy whose record or command carries an error, no earlier copy of strongly ordered pages being open; and a copy of such a page that goes alone. -/
theorem witness_copy_bad : ∃ b c o, CopyAt (copyEvLab { copyOp 0x110000 none [] with bad := true }) 0 0 1 b c o ∧
    (o.bad && o.fault == .none && c.ops.all (fun e => decide (o.no ≤ e.no))) = true := copyAtB_ok (by decide +kernel)
def ordLab : State := (copyEvLab (copyOp 0x80110000 none [])).wr (kHbm 0 0x20020) (leBytes 8 (2 ^ 63 + 2 ^ 62 + 2 ^ 60 + 2 ^ 56))
theorem witness_copy_ordered : ∃ b c o, CopyAt ordLab 0 0 1 b c o ∧
    (ordLab.copyOrd b o && c.ops.all (fun e => decide (o.no ≤ e.no)) && o.todo == [] && o.hand == [] && o.fault == .none && decide (o.walked < o.tiles) && decide (o.walked ≤ o.floor + 8) &&
      o.src.elim false fun r => okElim (ordLab.tileRuns b r o.sc false (o.span o.walked o.esize).1 (o.span o.walked o.esize).2) fun _ => true) = true := copyAtB_ok (by decide +kernel)
/-- The tile translated: its line may be read, a CPYS's from a line that is present. -/
def movedLab (o : CopyOp) : State := after (exec (.copyTile 0 0 (.next 1)) (copyEvLab o))
def readLineB (o : CopyOp) : Bool := copyAtB (movedLab o) fun b _ o => (o.todo.find? (·.line == 0)).elim false fun p =>
  (movedLab o).preDone o.pre && !o.bad && o.hand.all (·.line != 0) && !(movedLab o).runsHeld (o.pieceFrom 0 p) && (o.pieceFrom 0 p).all (fun r => r.page == none) && b.present (o.ofs + 128 * 0) (min 128 (o.nb - 128 * 0))
/-- A copy out of shared memory, whose line has been read. -/
def outOp : CopyOp := { copyOp 0 none [] with kind := .cpys, src := none, dst := some (trecOf trecBytes) }
def lineLab : State := after (exec (.copyTile 0 0 (.piece 1 0)) (movedLab outOp))
theorem witness_copy_read : readLineB (copyOp 0x110000 none []) = true ∧ readLineB outOp = true := by decide +kernel
theorem witness_copy_write : ∃ b c o, CopyAt lineLab 0 0 1 b c o ∧ ((o.todo.find? (·.line == 0)).elim false fun p => (o.hand.find? (·.line == 0)).isSome && lineLab.preDone o.pre && !o.bad &&
    !lineLab.runsHeld (p.dst.filterMap id).flatten) = true := copyAtB_ok (by decide +kernel)
/-- A line in hand, without a byte barrier and with one at offset 0. -/
def landLab (bb : Option Nat) : State := (copyEvLab (copyOp 0x110000 bb [⟨0, List.replicate 128 7, List.replicate 128 false⟩])).bbWrite (kShared 0 0) ⟨false, 1, 1, 128⟩
theorem witness_copy_landing : ∃ b c o, CopyAt (landLab none) 0 0 1 b c o ∧ (o.kind == .cpy && (o.hand.find? (·.line == 0)).isSome && o.bb == none) = true := copyAtB_ok (by decide +kernel)
theorem witness_copy_landing_credit : ∃ b c o, CopyAt (landLab (some 0)) 0 0 1 b c o ∧ (o.kind == .cpy && o.bb == some 0 && (o.hand.find? (·.line == 0)).elim false fun h =>
    (((modOp 0 0 1 (fun o => { o with hand := o.hand.filter (·.line != 0), landed := o.landed + 1 })
      (((landLab (some 0)).wrPsn (kShared 0 (o.ofs + 128 * 0)) h.bytes h.psn).modBlk 0 (·.setLine (o.ofs / 128 + 0)))).bbCredit b 0 h.bytes.length).1)) = true := copyAtB_ok (by decide +kernel)
theorem witness_landed_line : memCanonical (landLab none) ∧ ∃ t, exec (.copyLineLanding 0 0 1 0) (landLab none) = .next t := by
  refine ⟨by unfold memCanonical; decide +kernel, ?_⟩
  unfold exec execCopyLineLanding
  exact runEvent_next _ _

/-- An operation at the head of its pipe. -/
def mop (k : MKind) (begun done : Bool) (hand : List Frag) : MOp := { no := 1, acc := 1, pre := [], slot := some 1, kind := k, begun := begun, step := 0, got := [], hand := hand, done := done, bad := false }
def matEvLab (o : MOp) : State := onB (fun b => { b with matrix := { b.matrix with ops := [o], tl := ⟨0, 1⟩ } }) (lab .V)
def wd0 : WDesc := ⟨0, 128, 0, 2⟩
/-- With all the shared lines that it needs in hand. -/
def gotAll (o : MOp) : MOp := { o with got := o.need.map fun l => ⟨l, List.replicate 128 0, List.replicate 128 false⟩ }
def pipeB (o : MOp) (bad : Bool) (p : Block → Bool) : Bool := ((matEvLab o).pipeHead 0 o.kind.drains).elim false fun x =>
  (!x.2.begun && (matEvLab o).preDone x.2.pre && !rowsMeet x.2.kind.rows ((matEvLab o).openRows 0 x.2.acc) && x.2.bad == bad && x.2 == o) && p x.1
theorem pipeB_ok {o : MOp} {p : Block → Bool} (h : pipeB o false p = true) : ∃ b, PipeAt (matEvLab o) 0 o.kind.drains b o ∧ p b = true := by
  obtain ⟨⟨b, x⟩, hb, h⟩ := ex_some h
  simp only [Bool.and_eq_true, Bool.not_eq_true', beq_iff_eq] at h
  obtain ⟨⟨⟨⟨⟨h1, h2⟩, h3⟩, h4⟩, rfl⟩, h5⟩ := h
  exact ⟨b, ⟨hb, h1, h2, h3, h4⟩, h5⟩
def matKinds : List MKind := [.mwld wd0, .mzero 0 2, .mrowsc 0 2 0, .amask 0 2 0, .mdrain 0 2 true 0 512 1 0 4 0, .mloop 0 2 2 true 0 512 0 2 0 wd0]
def kLoop : MKind := .mloop 0 2 2 true 0 512 0 2 0 wd0
theorem witness_matrix_events : ∀ k ∈ matKinds, ∃ b, PipeAt (matEvLab (gotAll (mop k false false []))) 0 k.drains b (gotAll (mop k false false [])) ∧ b.present 0 96 = true := fun k h =>
  pipeB_ok ((by decide +kernel : ∀ k ∈ matKinds, pipeB (gotAll (mop k false false [])) false (fun b => b.present 0 96) = true) k h)
/-- A line that MROWSC or AMASK needs is present; with all in hand none is left. -/
theorem witness_matrix_lines : ∀ k ∈ ([.mrowsc 0 2 0, .amask 0 2 0] : List MKind), (gotAll (mop k false false [])).need = [] ∧ ∃ b, PipeAt (matEvLab (mop k false false [])) 0 k.drains b (mop k false false []) ∧
    ((mop k false false []).need.any fun l => b.present (128 * l) 128) = true := fun k h => ⟨(by decide +kernel : ∀ k ∈ ([.mrowsc 0 2 0, .amask 0 2 0] : List MKind), (gotAll (mop k false false [])).need = []) k h,
  pipeB_ok ((by decide +kernel : ∀ k ∈ ([.mrowsc 0 2 0, .amask 0 2 0] : List MKind), pipeB (mop k false false []) false (fun b => (mop k false false []).need.any fun l => b.present (128 * l) 128) = true) k h)⟩
/-- An MLOOP begun: a line of its next K-step is to be read, or all are in hand; and one whose command carries an error. -/
def loopB (o : MOp) (p : Block → Bool) : Bool := ((matEvLab o).pipeHead 0 false).elim false fun x => x.2 == o && o.begun && p x.1
theorem witness_kstep : loopB (mop kLoop true false []) (fun b => (mop kLoop true false []).need.any fun l => b.present (128 * l) 128) = true ∧
    loopB (gotAll (mop kLoop true false [])) (fun _ => (gotAll (mop kLoop true false [])).need == []) = true ∧ loopB { mop kLoop true false [] with bad := true } (fun _ => true) = true := by decide +kernel
theorem witness_matrix_abandoned : ∀ k ∈ matKinds, pipeB { mop k false false [] with bad := true } true (fun _ => true) = true := by decide +kernel
theorem witness_kstep_canonical : memCanonical (matEvLab (gotAll (mop kLoop true false []))) ∧ 0 + 2 ≤ 16384 := ⟨by unfold memCanonical; decide +kernel, by decide⟩
theorem witness_drained_line : ∃ b, Works (matEvLab (mop (.mzero 0 2) true true [⟨130, [1, 2], [false, false]⟩])) 0 b ∧
    ((b.matrix.ops.find? (·.no == 1)).elim false fun o => o.hand.any fun f => f.ofs / 128 == 1) = true := worksB_ok (by decide +kernel)
theorem witness_drain_abandoned : ∃ b, Works (matEvLab { mop (.mdrain 0 2 true 0 512 1 0 4 0) true false [⟨130, [1, 2], [false, false]⟩] with bad := true }) 0 b ∧
    ((b.matrix.ops.find? (·.no == 1)).elim false fun o => o.bad && o.hand.any fun f => f.ofs / 128 == 1) = true := worksB_ok (by decide +kernel)

/-- An operation of each engine with nothing left to perform. -/
theorem witness_copy_complete : ∃ b c o, CopyAt (copyEvLab { copyOp 0x110000 none [] with walked := 1 }) 0 0 1 b c o ∧ o.complete = true := copyAtB_ok (by decide +kernel)
theorem witness_matrix_complete : ∃ b, Works (matEvLab (mop (.mzero 0 2) true true [])) 0 b ∧ ((b.matrix.ops.find? (·.no == 1)).elim false fun o => o.complete) = true := worksB_ok (by decide +kernel)
def aop (k : AKind) : AOp := { no := 1, acc := 1, pre := [], slot := none, kind := k, pass := passOf passBytes [0, 1], ended := false, hand := [], last := none, fault := .none, bad := false }
def attnEvLab (o : AOp) : State := (onB (fun b => { b with attn := { b.attn with ops := [o] } }) attnLab).modCtx 0 fun c => { c with rcd := { c.rcd with fqn := 4, fq := 0x40000000 } }
theorem witness_attention_complete : ∃ b, Works (attnEvLab { aop .aseq with ended := true }) 0 b ∧ (match b.attn.ops with | o :: _ => o.no == 1 && ((attnEvLab { aop .aseq with ended := true }).attnEnd b o).isSome | [] => false) = true :=
  worksB_ok (by decide +kernel)
def layer (done : Bool) : Layer := { no := 1, layer := 0, src := 0x60000000, dst := 0x200000, back := 0, pages := 1, page := 0, begun := true, fault := .none, done := done, bad := false }
theorem witness_page_complete : ∃ b, Works (onB (fun b => { b with pagec := { b.pagec with fly := [layer true], pend := [1] } }) (lab .V)) 0 b ∧
    ((b.pagec.fly.find? (·.no == 1)).elim false fun l => l.done && !l.bad) = true := worksB_ok (by decide +kernel)
/-- A participant of two dies that sums four FP32 elements. -/
def collOp (joined : Bool) (out : Option (List Byte × List Bool)) : CollOp :=
  { no := 1, pre := [], kind := 0, src := 0x120000, dst := 0x121000, ranks := [0, 1], count := 4, rank := 0, fmt := 0, op := 0, cid := 9, use := 0, tile := 0, work := [], data := ([], []), seen := [],
    joined := joined, out := out, fault := .none, bad := false }
def collPart (die rank : Nat) : CollPart := ⟨die, rank, (collOp true none).params, List.replicate 16 0, List.replicate 16 false⟩
def collLabOf (o : CollOp) : State :=
  { onB (fun b => { b with coll := ⟨⟨0, 1⟩, [o]⟩ }) (lab .V) with colls := [⟨0, 9, 0, [collPart 0 0, collPart 1 1]⟩] }
theorem witness_coll_complete : ∃ b, Works (collLabOf (collOp true (some ([], [])))) 0 b ∧ ((b.coll.ops.find? (·.no == 1)).elim false fun o =>
    (collLabOf (collOp true (some ([], [])))).preDone o.pre && !o.bad && o.fault == .none && o.out == some ([], []) && o.work == []) = true := worksB_ok (by decide +kernel)
theorem witness_handle_complete : ∃ b, Works (onB (fun b => { b with handle := ⟨⟨0, 1⟩, [(1, true)]⟩ }) (lab .V)) 0 b ∧ (b.handle.ops.contains (1, true)) = true := worksB_ok (by decide +kernel)

/-! ### Events of attention, pages, streams, handles and collectives -/

def plan0 : TilePlan := { seq := 0, len := 1, qrow0 := 0, qrows := 1, qpos0 := 0, blk0 := 0, nblk := 1, firstk := true, lastk := true }
/-- A tile whose table entry at `kvt` holds the handle of the block at 0x120000. -/
def gatherLab (kvt : Nat) : State :=
  hbm (hbm (attnEvLab { aop (.atile 0 plan0 [] none) with pass := { passOf passBytes [0, 1] with kvt := kvt } }) 0x13002A [1]) 0x140000 (leBytes 8 0x12800 ++ leBytes 8 0x120000)
def attnB (s : State) (p : Block → AOp → Bool) : Bool := worksB s fun b => b.attn.ops.head?.elim false fun o =>
  (b.attnTurn o && o.fault == .none && !o.bad && s.preDone o.pre) && p b o
theorem attnB_ok {s : State} {p : Block → AOp → Bool} (h : attnB s p = true) : ∃ b o, AttnAt s 0 b o ∧ p b o = true := by
  obtain ⟨b, hb, h⟩ := worksB_ok h
  obtain ⟨o, ho, h⟩ := ex_some h
  simp only [Bool.and_eq_true, beq_iff_eq, Bool.not_eq_true'] at h
  exact ⟨b, o, ⟨hb, ho, h.1.1.1.1, h.1.1.1.2, h.1.1.2, h.1.2⟩, h.2⟩
def gatherB (s : State) (p : Block → AOp → Option KvBusy → Nat → Bool) : Bool := attnB s fun b o => !o.ended && (match o.kind with
  | .atile i pl hand busy => i == 0 && pl == plan0 && hand == [] && p b o busy (o.pass.kvt + 16 * (0 * o.pass.maxb + 0))
  | .aseq => false)
theorem gatherB_ok {s : State} {p : Block → AOp → Option KvBusy → Nat → Bool} (h : gatherB s p = true) :
    ∃ b o busy, GatherAt s 0 b o 0 plan0 [] busy ∧ p b o busy (o.pass.kvt + 16 * (0 * o.pass.maxb + 0)) = true := by
  obtain ⟨b, o, ha, h⟩ := attnB_ok h
  simp only [Bool.and_eq_true, Bool.not_eq_true'] at h
  obtain ⟨he, h⟩ := h
  split at h
  · rename_i hk
    simp only [Bool.and_eq_true, beq_iff_eq] at h
    obtain ⟨⟨⟨rfl, rfl⟩, rfl⟩, h⟩ := h
    exact ⟨b, o, _, ⟨ha, he, hk, by decide⟩, h⟩
  · cases h
/-- The table entry is to be read and written, the survivor word, a line of the slots. -/
def entryB (s : State) (b : Block) (busy : Option KvBusy) (ea : Nat) : Bool :=
  busy == none && okElim (s.engRange b.core b.ctx ea 16 true) fun er => !s.runsHeld er && !((s.engRead er).2.any id) &&
    s.resolve b.ctx 0 (handleOf (s.engRead er).1) == .addr 0x120000 && (match s.splitHandle b.ctx (b.core / 48) 0 (handleOf (s.engRead er).1) with | .ok _ _ => true | _ => false)
theorem witness_gather_entry : ∃ b o busy, GatherAt (gatherLab 0x140000) 0 b o 0 plan0 [] busy ∧ entryB (gatherLab 0x140000) b busy (o.pass.kvt + 16 * (0 * o.pass.maxb + 0)) = true :=
  gatherB_ok (p := fun b _ busy ea => entryB (gatherLab 0x140000) b busy ea) (by decide +kernel)
def kvSurvLab : State := after (exec (.attentionGatherBlock (.next 0)) (gatherLab 0x140000))
def survB (b : Block) (o : AOp) (busy : Option KvBusy) : Bool := match busy with
  | some (.handle _ a) => okElim (kvSurvLab.engRange b.core b.ctx a 8 false) fun sr => !kvSurvLab.runsHeld sr &&
      (let n := 2 * o.pass.hd * (slotsOf (survIn (leNat (kvSurvLab.engRead sr).1) 1 0)).length
       okElim (kvSurvLab.engRange b.core b.ctx (a + 0x80) n false) fun _ => okElim (kvSurvLab.engRange b.core b.ctx (a + 0x80 + 2 * o.pass.hd * 64) n false) fun _ => true)
  | _ => false
theorem witness_gather_survivor : ∃ b o busy, GatherAt kvSurvLab 0 b o 0 plan0 [] busy ∧ survB b o busy = true := gatherB_ok (p := fun b o busy _ => survB b o busy) (by decide +kernel)
def slotLab : State := after (exec (.attentionGatherBlock (.next 0)) (hbm kvSurvLab 0x120000 [1]))
def slotB (busy : Option KvBusy) : Bool := match busy with
  | some (.slots _ left) => (left[(0 : Nat)]?).elim false fun r => !slotLab.runsHeld [r.run]
  | _ => false
theorem witness_gather_slots : ∃ b o busy, GatherAt slotLab 0 b o 0 plan0 [] busy ∧ slotB busy = true := gatherB_ok (p := fun _ _ busy _ => slotB busy) (by decide +kernel)
theorem witness_gather_fault : ∃ b o busy, GatherAt (gatherLab 0x80000000) 0 b o 0 plan0 [] busy ∧
    (busy == none && !okElim ((gatherLab 0x80000000).engRange b.core b.ctx (o.pass.kvt + 16 * (0 * o.pass.maxb + 0)) 16 true) (fun _ => true) && ((gatherLab 0x80000000).ctxD b.ctx).fqRoom) = true :=
  gatherB_ok (p := fun b _ busy ea => busy == none && !okElim ((gatherLab 0x80000000).engRange b.core b.ctx ea 16 true) (fun _ => true) && ((gatherLab 0x80000000).ctxD b.ctx).fqRoom) (by decide +kernel)

/-- A tile with its block in hand, a sequence start, and a line of shared bytes to land. -/
def endLab (k : AKind) (hand : List Frag) : State := attnEvLab { aop k with hand := hand }
def kv0 : KvHand := ⟨1, List.replicate 32 1, List.replicate 32 false, List.replicate 32 2, List.replicate 32 false, none⟩
theorem witness_tile_ends : ∃ b o, AttnAt (endLab (.atile 0 plan0 [kv0] none) []) 0 b o ∧ (!o.ended && o.kind == .atile 0 plan0 [kv0] none) = true := attnB_ok (by decide +kernel)
theorem witness_sequence_ends : ∃ b o, AttnAt (endLab .aseq []) 0 b o ∧
    (!o.ended && o.kind == .aseq && !rowsMeet [(o.pass.orow, o.pass.nrows, true)] ((endLab .aseq []).openRows b.core o.acc)) = true :=
  attnB_ok (p := fun b o => !o.ended && o.kind == .aseq && !rowsMeet [(o.pass.orow, o.pass.nrows, true)] ((endLab .aseq []).openRows b.core o.acc)) (by decide +kernel)
theorem witness_attention_line : ∃ b o, AttnAt (endLab .aseq [⟨130, [1, 2], [false, false]⟩]) 0 b o ∧ (o.hand.any fun f => f.ofs / 128 == 1) = true := attnB_ok (by decide +kernel)

/-- A page grid of two pages, the record of page 0 at 0x150000, and page 1 reserved on core 1. -/
def pageLab (js : List PageJob) (pg : List PgShelf) : State :=
  { hbm (onG (fun g => { g with kind := .page, pmap := [15], nblocks := 2, plist := 0x150000, shelves := 4, pages := pg, nextPage := 0 }) upLab) 0x150000 (leBytes 8 0x60000000 ++ leBytes 8 0x160000) with jobs := js }
theorem witness_shelf : ∃ g r, (pageLab [] []).grid? 0 = some g ∧ (pageLab [] []).placeFor g.ctx ((pageLab [] []).newCores g 0) (g.needOf true) = some r ∧
    (g.kind == .page && (pageLab [] []).mayStart g.ctx && !g.pgStop && !(pageLab [] []).anyWaits g.ctx && decide ((pageLab [] []).shelvesUsed g < g.shelves) && g.nextPg == some 0 &&
      ((({ r.1 with nextUid := r.1.nextUid + 1 } : State).modGrid 0 fun g => { g with
        pages := g.pages ++ [⟨0, r.1.nextUid, r.2.1, g.var, g.needOf true, r.2.2.1, r.2.2.2, none⟩]
        promo := g.promo.filter (· != 0)
        nextPage := if 0 = g.nextPage then 0 + 1 else g.nextPage }).pageRec g 0).isSome) = true := ex_some2 (by decide +kernel)
def shelf1 : PgShelf := ⟨1, 9, 1, 0, ⟨1, 2, 4096, 0⟩, [(0, 1)], 1, none⟩
def job (ph : Phase) (retry : Nat) (left : List (Nat × Nat)) : PageJob :=
  { no := 3, tgt := .grid 0 1, ppage := 0, phase := ph, retry := retry, cbits := 0, left := left, failed := false, back := 0x160000, hand := [⟨127, [1], [false]⟩], pstat := 0 }
def jobLab (ph : Phase) (retry : Nat) (left : List (Nat × Nat)) : State := pageLab [job ph retry left] [shelf1]
def jobB (ph : Phase) (retry : Nat) (left : List (Nat × Nat)) (p : PageJob → State → Bool) : Bool :=
  ((jobLab ph retry left).jobs.find? (·.no == 3)).elim false fun j =>
    ((jobLab ph retry left).pageRuns ((jobLab ph retry left).jobCtx j) && j == job ph retry left) && p j (jobLab ph retry left)
theorem jobB_ok {ph : Phase} {retry : Nat} {left : List (Nat × Nat)} {p : PageJob → State → Bool} (h : jobB ph retry left p = true) :
    ∃ j, JobAt (jobLab ph retry left) 3 j ∧ j = job ph retry left ∧ p j (jobLab ph retry left) = true := by
  obtain ⟨j, hj, h⟩ := ex_some h
  simp only [Bool.and_eq_true, beq_iff_eq] at h
  exact ⟨j, ⟨hj, h.1.1⟩, h.1.2, h.2⟩
/-- A sense that decodes or fails, before and after the seventh retry; the last page of a reconstruction; a backing copy; a line of the page that lands. -/
theorem witness_sense : ∃ j, JobAt (jobLab .sense 0 []) 3 j ∧ j = job .sense 0 [] ∧ (match j.tgt with | .grid .. => true | _ => false) = true :=
  jobB_ok (p := fun j _ => match j.tgt with | .grid .. => true | _ => false) (by decide +kernel)
theorem witness_sense_last : ∃ j, JobAt (jobLab .sense 7 []) 3 j ∧ j = job .sense 7 [] ∧ (j.retry == 7) = true := jobB_ok (p := fun j _ => j.retry == 7) (by decide +kernel)
theorem witness_recon : ∃ j, JobAt (jobLab .recon 0 [(1, 0)]) 3 j ∧ j = job .recon 0 [(1, 0)] ∧ (!j.failed) = true := jobB_ok (p := fun j _ => !j.failed) (by decide +kernel)
theorem witness_landing : ∃ j, JobAt (jobLab .landing 0 []) 3 j ∧ j = job .landing 0 [] ∧ ((jobLab .landing 0 []).grid? 0).elim false (fun g => ((jobLab .landing 0 []).landLine j g 1 127).isSome) = true :=
  jobB_ok (p := fun j s => (s.grid? 0).elim false fun g => (s.landLine j g 1 127).isSome) (by decide +kernel)
theorem witness_backing : ∃ j, JobAt (jobLab .backing 0 []) 3 j ∧ j = job .backing 0 [] ∧
    okElim ((jobLab .backing 0 []).engRange 192 ((jobLab .backing 0 []).jobCtx j) ((jobLab .backing 0 []).jobBack j) 16384 false)
      (fun rs => !(jobLab .backing 0 []).runsHeld rs && !(((jobLab .backing 0 []).engRead rs).2.any id)) = true :=
  jobB_ok (p := fun j s => okElim (s.engRange 192 (s.jobCtx j) (s.jobBack j) 16384 false) fun rs => !s.runsHeld rs && !((s.engRead rs).2.any id)) (by decide +kernel)
/-- A page sensed for a copy and for a stream's window. -/
def askedLab (tgt : JobTgt) : State :=
  { onB (fun b => { b with pagec := { b.pagec with fly := [{ layer false with dst := 0x200000 }] } }) (copyEvLab (copyOp 0x110000 none [])) with jobs := [mkJob 3 tgt 0 0], released := 3 }
theorem witness_sense_for_copy : ∃ j, JobAt (askedLab (.copy 0 0 1)) 3 j ∧ j.phase = .sense ∧ j.tgt = .copy 0 0 1 :=
  ⟨mkJob 3 (.copy 0 0 1) 0 0, ⟨rfl, by decide +kernel⟩, rfl, rfl⟩
theorem witness_sense_for_stream : ∃ j, JobAt (askedLab (.stream 0 1 0)) 3 j ∧ j.phase = .sense ∧ j.tgt = .stream 0 1 0 :=
  ⟨mkJob 3 (.stream 0 1 0) 0 0, ⟨rfl, by decide +kernel⟩, rfl, rfl⟩
/-- The same page sensed: a line of it is to be written into the window. -/
def streamLineLab : State := after (exec (.pageSenseDone 3 (.good 0)) (askedLab (.stream 0 1 0)))
theorem witness_stream_line : ((streamLineLab.jobs.find? (·.no == 3)).elim false fun j => streamLineLab.pageRuns (streamLineLab.jobCtx j) && j.phase == .landing && j.tgt == .stream 0 1 0 &&
    (j.hand.find? (·.line == 5)).isSome && (streamLineLab.blk? 0).elim false fun x => (x.pagec.fly.find? (·.no == 1)).elim false fun l =>
      okElim (streamLineLab.engRange x.core x.ctx (l.dst + 16384 * l.page + 128 * 5) 128 true) fun rs => !streamLineLab.runsHeld rs) = true := by
  decide +kernel
def layerLab : State := onB (fun b => { b with pagec := { b.pagec with stream := some (wstreamOf streamBytes 0 1) } }) (lab .V)
theorem witness_layer : ∃ b, Works layerLab 0 b ∧ (b.pagec.fly == [] && b.pagec.stream.elim false fun d => decide (d.next < d.nlayer) && decide (d.next - d.first < d.nwin) &&
    okElim (layerLab.engRange b.core b.ctx (d.src % 2 ^ 56) 16384 false) (fun rs => (rs.head?.bind (·.page)).isSome) &&
    okElim (layerLab.engRange b.core b.ctx (d.ring % 2 ^ 56) 16384 true) fun _ => true) = true := worksB_ok (by decide +kernel)

/-- A frame of 4 bytes at 0x170000 for the stream context at 0x100000, bound to the block. -/
def frameRec : List Byte := leBytes 8 0x100000 ++ leBytes 4 8 ++ leBytes 4 4 ++ leBytes 8 0x170000 ++ leBytes 8 0
def frameLab : State :=
  (onG (fun g => { g with stream := 0x100000 }) (hbm (lab .V) 0x100000 (sctxBytes 100 128))).modCtx 0 fun c => { c with framesIn := [frameRec] }
/-- The same with payload slots of 128 bytes, a first stamp of `f`, `h` frames pending, and a source at `p`. -/
def frameIs (p : Nat) : List Byte := leBytes 8 0x100000 ++ leBytes 4 8 ++ leBytes 4 4 ++ leBytes 8 p ++ leBytes 8 0
def frameAt (f h p : Nat) : State :=
  (onG (fun g => { g with stream := 0x100000 }) (hbm (lab .V) 0x100000 (desc 256 [(0, 4, 1), (4, 4, 1), (8, 4, f), (0xC, 4, 8), (0x10, 4, 100), (0x16, 2, 4), (0x18, 4, h), (0x20, 7, 0x113000), (0x28, 7, 0x115000),
    (0x30, 4, 128), (0x40, 7, 0x114000), (0x54, 4, 1), (0x58, 4, 1), (0x60, 7, 0x111000), (0x68, 4, 16), (0x70, 7, 0x112000), (0x78, 4, 4), (0x7C, 4, 128)]))).modCtx 0 fun c => { c with framesIn := [frameIs p] }
def arrivalB (s : State) (fr : List Byte) (p : SCtx → Bool) : Bool := (s.devRead 0 (fieldAt fr 0 7) 256 [0]).elim false fun bs =>
  !s.devPsn 0 (fieldAt fr 0 7) 256 && (s.boundBlock 0 (fieldAt fr 0 7)).isSome && p (sctxOf (fieldAt fr 0 7) bs)
theorem arrivalB_ok {s : State} {fr : List Byte} {p : SCtx → Bool} (h : arrivalB s fr p = true) : ∃ c b, FrameAt s 0 fr c b ∧ p c = true := by
  obtain ⟨bs, hb, h⟩ := ex_some h
  simp only [Bool.and_eq_true, Bool.not_eq_true'] at h
  obtain ⟨b, hk⟩ := Option.isSome_iff_exists.mp h.1.2
  exact ⟨_, b, ⟨bs, hb, h.1.1, rfl, hk⟩, h.2⟩
def partsB (s : State) (fr : List Byte) (c : SCtx) : Bool :=
  okElim (s.engRange nCores 0 (c.fring + 32 * (c.fhead % c.frn)) 32 true) (fun _ => true) && okElim (s.engRange nCores 0 (c.fpay + c.fpsz * (c.fhead % c.frn)) c.fpsz true) (fun _ => true) &&
    okElim (s.engRange nCores 0 (fieldAt fr 16 7) (min (fieldAt fr 12 4) c.fpsz) false) fun _ => true
/-- A frame that is late, that waits for room, and that is taken; one whose source does not translate; one whose context is not read. -/
theorem witness_frame_late : ∃ c b, FrameAt (frameAt 9 1 0x170000) 0 (frameIs 0x170000) c b ∧ (c.legal && c.at_ % 256 == 0 && partsB (frameAt 9 1 0x170000) (frameIs 0x170000) c && decide (8 < c.f)) = true := arrivalB_ok (by decide +kernel)
theorem witness_frame_full : ∃ c b, FrameAt (frameAt 8 4 0x170000) 0 (frameIs 0x170000) c b ∧
    (c.legal && c.at_ % 256 == 0 && partsB (frameAt 8 4 0x170000) (frameIs 0x170000) c && decide (c.f ≤ 8) && (c.fhead + 2 ^ 32 - c.ftail) % 2 ^ 32 == c.frn) = true := arrivalB_ok (by decide +kernel)
theorem witness_frame_taken : ∃ c b, FrameAt (frameAt 8 1 0x170000) 0 (frameIs 0x170000) c b ∧
    (c.legal && c.at_ % 256 == 0 && partsB (frameAt 8 1 0x170000) (frameIs 0x170000) c && decide (c.f ≤ 8) && (c.fhead + 2 ^ 32 - c.ftail) % 2 ^ 32 != c.frn) = true := arrivalB_ok (by decide +kernel)
theorem witness_frame_fails : ∃ c b, FrameAt (frameAt 8 1 0x80000000) 0 (frameIs 0x80000000) c b ∧ (!partsB (frameAt 8 1 0x80000000) (frameIs 0x80000000) c) = true := arrivalB_ok (by decide +kernel)
theorem witness_frame_unread : frameLab.devRead 0 (fieldAt (leBytes 8 0x80000000) 0 7) 256 [0] = none := by decide +kernel
theorem witness_window : ∀ n ∈ [4, 8], (List.replicate n (0 : Byte)) ≠ [] ∧ 0x9000 ≤ 0x9018 ∧ 0x9018 + (List.replicate n (0 : Byte)).length ≤ 0x9020 := by decide
theorem witness_frame : ∃ t, frameLab.frameStep 0 frameRec = some t ∧ (match frameLab.ctxs with | c :: _ => frameLab.mayStart c.no && c.no == 0 && c.framesIn == [frameRec] && frameLab.cqPend == [] | [] => false) = true :=
  ex_some (p := fun _ => match frameLab.ctxs with | c :: _ => frameLab.mayStart c.no && c.no == 0 && c.framesIn == [frameRec] && frameLab.cqPend == [] | [] => false) (by decide +kernel)
theorem witness_q17 : ∃ b, (onB (fun b => { b with q17Pend := [5] }) (lab .V)).blk? 0 = some b ∧ (b.q17Pend == [5] && decide (b.q17.length < 64) && b.onCore) = true := ex_some (by decide +kernel)
def msgLab (k : HMsgKind) : State := { lab .V with hc := [⟨0, 0, 0, 1, k, none⟩] }
theorem msgB_ok {s : State} {k : HMsgKind} (h : (s.hcHead 0 0).elim false (fun m => m.kind == k && !s.pkgGone (0 / 4)) = true) : ∃ m, MsgAt s 0 0 m ∧ m.kind = k := by
  obtain ⟨m, hm, h⟩ := ex_some h
  simp only [Bool.and_eq_true, beq_iff_eq, Bool.not_eq_true'] at h
  exact ⟨m, ⟨hm, h.2⟩, h.1⟩
theorem witness_drop_message : ∃ m, MsgAt (msgLab (.drop 0 3)) 0 0 m ∧ m.kind = .drop 0 3 := msgB_ok (by decide +kernel)
theorem witness_bind_message : ∃ m, MsgAt (msgLab (.bind 0 64)) 0 0 m ∧ m.kind = .bind 0 64 := msgB_ok (by decide +kernel)
/-- A kernel descriptor at 0x180000 whose one variant stands at the clause, and a context record that may be used. -/
def kdBytes : List Byte := desc 192 [(0, 4, 0x444B474E), (4, 2, 1), (6, 1, 1), (8, 1, 1), (0x10, 7, 0x30000), (0x18, 4, 64), (0x20, 7, 0x40000), (0x28, 7, 0x30000), (0x30, 4, 64), (0x38, 7, 0x40000),
  (0x40, 8, 1000), (0x50, 2, 32), (0x54, 4, 4096)]
def cpLab : State := (hbm { upLab with agenda := [] } 0x180000 kdBytes).modCtx 0 fun c =>
  { c with rcd := { c.rcd with qtab := 0x190000, fq := 0x40000000, fqn := 16, cqt := 0x1A0000, ncq := 1, htab := 0x130000, nobj := 16, bencha := 0x1000000, benchsz := 0x20000 } }
def finBytes : List Byte := desc 64 [(0, 7, 0x180000), (8, 8, 0), (0x10, 8, 5), (0x18, 4, 1), (0x1C, 2, 1)]
def finLab : State := cpLab.modCtx 0 fun c => { c with fins := [⟨0, 1, finBytes⟩] }
theorem witness_finaliser : ∃ c, (finLab.ctxs.find? fun c => c.fins != [] && finLab.ctxOk c.no && finLab.mayStart c.no && finLab.tableRoom c.no && !(finLab.cqPend.any fun e => e.writer == .fin && e.ctx == c.no)) = some c ∧ (finLab.cpUp && c.fins == [⟨0, 1, finBytes⟩] && finBytes != [] &&
    okElim ((finLab.modCtx c.no fun c => { c with fins := [] }).launchOf c.no finLab.nextUid (finReq ⟨0, 1, finBytes⟩) none) fun _ => true) = true := ex_some (by decide +kernel)
/-- A participant's way: a tile of its source translated, read, joined, its result settled, a tile of its destination translated, written. -/
def collEv (st : EngStep) (s : State) : State := after (exec (.collectiveJoin 0 st []) s)
def collLab0 : State := { collLabOf (collOp false none) with colls := [⟨0, 9, 0, [collPart 1 1]⟩] }
def collLab1 : State := collEv (.next 1) collLab0
def collLab2 : State := collEv (.piece 1 0) collLab1
def collLab3 : State := collEv (.next 1) collLab2
def collLab4 : State := collEv (.next 1) collLab3
def collLab5 : State := collEv (.next 1) collLab4
def collB (s : State) (p : Block → CollOp → Bool) : Bool := worksB s fun b => (b.coll.ops.find? (·.no == 1)).elim false fun o =>
  (!o.bad && s.preDone o.pre && o.fault == .none) && p b o
theorem witness_coll_tile : collB collLab0 (fun b o => !o.joined && o.work == [] && okElim (collLab0.collRuns b false (o.src + o.data.1.length) (min 512 (o.srcLen - o.data.1.length))) fun _ => true) = true := by decide +kernel
theorem witness_coll_read : collB collLab1 (fun _ o => !o.joined && (o.work[(0 : Nat)]?).elim false fun a => a.got == none && !collLab1.runsHeld a.rs) = true := by decide +kernel
theorem witness_coll_join : collB collLab2 (fun _ o => !o.joined && o.work.all (·.got.isSome) && decide (o.srcLen ≤ (o.data.1 ++ (o.work.filterMap (·.got)).flatMap (·.1)).length)) = true := by decide +kernel
theorem witness_collective_settles : collB collLab3 (fun b o => o.joined && o.out == none &&
    o.ranks.all (fun d => !collLab3.pkgLost (d / 4) && (collLab3.collParts b.ctx o).any (·.die == d)) && collAgree (collLab3.collParts b.ctx o) o) = true := by decide +kernel
theorem witness_collective_out : collB collLab4 (fun b o => o.joined && o.work == [] && o.out.elim false fun d => d.1 != [] &&
    okElim (collLab4.collRuns b true (o.dst + 512 * o.tile) (min 512 d.1.length)) fun _ => true) = true := by decide +kernel
theorem witness_collective_write : collB collLab5 (fun _ o => o.joined && o.ranks.all (fun d => !collLab5.pkgLost (d / 4)) && (o.work[(0 : Nat)]?).elim false fun a => a.got.isSome && !collLab5.runsHeld a.rs) = true := by decide +kernel
/-- An integer sum of two sources. -/
theorem witness_integer_sum : ∃ o : CollOp, o.kind ≠ 1 ∧ (o.fmt = 2 ∨ o.fmt = 3) ∧ o.op = 0 ∧ 3 < o.count := ⟨{ collOp true none with fmt := 2 }, by decide⟩

/-- Entry 1 of the home table: live or not, with a total weight of 2^6 of which `sum` is back. -/
def homeLab (live : Bool) (sum : Nat) : State := hbm cpLab 0x130020 (Home.bytes ⟨sum, 6, 0, live, false, false, 0, 0, 0⟩)
def homeMsg : HMsg := ⟨0, 0, 0, 1, .drop 0 3, none⟩
def homeB (s : State) (p : Home → Bool) : Bool := (s.tableOf 0 0).elim false fun t => decide (1 < t.2) && (s.homeAt 0 0 0 1).elim false fun k => p (s.home k)
theorem witness_drops : homeB (homeLab false 0) (fun x => !x.live) = true ∧ homeB (homeLab true 0) (fun x => x.live && x.gen == 0 && decide (x.sum + 2 ^ 3 < 2 ^ x.tote)) = true ∧
    homeB (homeLab true 60) (fun x => x.live && x.gen == 0 && decide (2 ^ x.tote < x.sum + 2 ^ 3)) = true ∧
    homeB (homeLab true 56) (fun x => x.live && x.gen == 0 && x.sum + 2 ^ 3 == 2 ^ x.tote && !x.ind && !x.fin) = true := by decide +kernel
/-- One that dies and is an indirection, or has a finaliser whose record stands at 0x180000. -/
def deathLab (ind fin : Bool) : State := hbm cpLab 0x130020 (Home.bytes ⟨56, 6, 0, true, ind, fin, 0, 0, 0x180000⟩)
def dies (x : Home) : Bool := x.live && x.gen == 0 && x.sum + 2 ^ 3 == 2 ^ x.tote
theorem witness_deaths : homeB (deathLab true false) (fun x => dies x && x.ind) = true ∧
    homeB (deathLab false true) (fun x => dies x && !x.ind && x.fin && (0 / 4 == (deathLab false true).pkg) && ((deathLab false true).devRead 0 (x.frec.toNat % 2 ^ 56) 64 [0, 1]).isSome) = true := by decide +kernel
/-- Package 1, whose context of the same domain has its home table at 0x130000: the live entry 1, of weight `sum`. -/
def peerLab (sum : Nat) : State :=
  { ((((cpLab.wr (kHbm 1 0) (leBytes 8 (2 ^ 63 + 0x10000))).wr (kHbm 1 0x10000) (leBytes 8 (2 ^ 63 + 2 ^ 62 + 2 ^ 60))).wr (kHbm 1 0x130020) (Home.bytes ⟨sum, 6, 0, true, false, false, 0, 0, 0⟩)).modCtx 0 fun c =>
      { c with rcd := { c.rcd with dom := 7 } }) with domPeers := [⟨7, 1, 0, 0x130000, 16, 0, 0⟩], numbered := [0, 1] }
def peerB (sum : Nat) (p : Home → Bool) : Bool := ((peerLab sum).tableOf 0 1).elim false fun t => t == (0x130000, 16) && ((peerLab sum).homeAt 0 1 0 1).elim false fun k => p ((peerLab sum).home k)
theorem witness_peer_drops : peerB 8 (fun x => x.live && x.gen == 0 && decide (x.sum + 2 ^ 3 < 2 ^ x.tote)) = true ∧ peerB 60 (fun x => x.live && x.gen == 0 && decide (2 ^ x.tote < x.sum + 2 ^ 3)) = true := by decide +kernel
theorem witness_no_entry : ((peerLab 8).tableOf 0 1) = some (0x130000, 16) ∧ ((homeLab true 0).tableOf 0 0) = some (0x130000, 16) := by decide +kernel

/-! ### The command processor -/

/-- A packet's 64 bytes. -/
def pkt (ty : Nat) (fs : List (Nat × Nat × Nat)) : List Byte := desc 64 ((2, 1, ty) :: fs)
/-- A ring of 16 entries whose next one is `n`, or an indirect buffer of them, with entries fetched. -/
def buf (ring : Bool) (n : Nat) (fs : List (List Byte)) (lp : Option (Nat × Nat)) : Buf := ⟨0x1B0000, ring, 16, n, fs.zipIdx.map fun f => ⟨f.2, f.1⟩, lp, none⟩
def queueOf (bs : List Buf) (w : Option WaitSt) : SwQ :=
  { ctx := 0, q := 2, cq := 0, nq := 16, widx := 8, ridx := 0, slot := some 5, bufs := bs, live := [], wait := w, miss := 0, tagStall := false, halted := false, stale := false, given := 0 }
/-- The queue in slot 5, with the word 7 at 0x1C0000 and the table entries of queues 2 and 3 and of completion queue 0. -/
def qLab (q : SwQ) : State :=
  { (hbm (hbm (hbm cpLab 0x190040 (desc 32 [(0, 7, 0x1B0000), (8, 4, 16), (0xE, 1, 1)])) 0x190060 (desc 32 [(0, 7, 0x1B8000), (8, 4, 16), (0xE, 1, 1)])) 0x1C0000 [7]).wr (kHbm 0 0x1A0000)
      (desc 32 [(0, 7, 0x1A8000), (8, 4, 16), (0xC, 2, 1), (0xE, 2, 1), (0x10, 4, 1)]) with queues := [q] }
def packetB (s : State) (ty : Nat) (p : SwQ → Buf → List Byte → Bool) : Bool :=
  (s.slotQ 5).elim false fun q => q.bufs.head?.elim false fun b => b.packet?.elim false fun r => r.elim false fun bs => (b.fet.find? (·.idx == b.next)).elim false fun e =>
    (s.qRuns q && q.wait == none && q.alone && hdrType e.bytes == ty && s.myTurn 5) && p q b bs
theorem packetB_ok {s : State} {ty : Nat} {p : SwQ → Buf → List Byte → Bool} (h : packetB s ty p = true) : ∃ q b bs, PacketAt s 5 ty q b bs ∧ p q b bs = true := by
  obtain ⟨q, b, r, hq, hb, hr, h⟩ := ex_some3 h
  obtain ⟨bs, e, hbs, he, h⟩ := ex_some2 h
  simp only [Bool.and_eq_true, beq_iff_eq] at h
  obtain ⟨⟨⟨⟨⟨h1, h2⟩, h3⟩, h4⟩, h5⟩, h⟩ := h
  exact ⟨q, b, bs, ⟨hq, h1, h2, hb, hbs ▸ hr, ⟨e, he, h4⟩, fun _ => h3, fun _ => h5⟩, h⟩
def onRing (f : List Byte) : State := qLab (queueOf [buf true 0 [f]  none] none)

theorem witness_notify : (let s := qLab (queueOf [] none)
    s.cpUp && s.ctxOk 0 && (s.queue? 0 3 == none) && (s.queue? 0 2).isSome && (s.read01 0 (s.qtabAt 0 3) 32).elim false fun e =>
      fieldAt e 0xE 1 % 2 == 1 && pow2In 16 65536 (fieldAt e 8 4) && fieldAt e 0 7 % 64 == 0) = true := by decide +kernel
theorem witness_notify_known : ∃ x, (qLab { queueOf [] none with halted := true }).queue? 0 2 = some x ∧ (x.halted && ((qLab { queueOf [] none with halted := true }).read01 0
    ((qLab { queueOf [] none with halted := true }).qtabAt 0 2) 32).elim false fun e => fieldAt e 0xE 1 % 2 == 1) = true := ex_some (by decide +kernel)
/-- A known queue whose EN was cleared and set again. -/
theorem witness_notify_stale : ∃ x, (qLab { queueOf [] none with stale := true }).queue? 0 2 = some x ∧ (x.stale && ((qLab { queueOf [] none with stale := true }).read01 0
    ((qLab { queueOf [] none with stale := true }).qtabAt 0 2) 32).elim false fun e => fieldAt e 0xE 1 % 2 == 1 && qentOk e) = true := ex_some (by decide +kernel)
theorem witness_slot : ∃ k, freeHwSlot { qLab (queueOf [] none) with slotWait := [(0, 2)] } = some k ∧ (k == 0) = true := ex_some (by decide +kernel)
/-- The entry wanted next, in the ring with its tag or without, and in an indirect buffer. -/
def fetchLab (ring : Bool) (tag miss : Nat) : State := hbm (qLab { queueOf [buf ring 0 [] none] none with miss := miss }) 0x1B0000 (leBytes 2 tag)
def fetchB (s : State) (p : SwQ → Buf → List Byte → Bool) : Bool := (s.slotQ 5).elim false fun q => s.qRuns q && (fetchOf s q).elim false fun r => r.2.2.elim false fun bs => r.2.1 == 0 && p q r.1 bs
theorem witness_fetch : fetchB (fetchLab true 1 0) (fun q b bs => b.ring && fieldAt bs 0 2 == tagOf b.nent 0 && q.missNow == 0) = true ∧ fetchB (fetchLab false 0 0) (fun q b _ => !b.ring && q.missNow == 0) = true ∧
    fetchB (fetchLab true 9 0) (fun q b bs => b.ring && fieldAt bs 0 2 != tagOf b.nent 0 && q.missNow == 0) = true ∧
    fetchB (fetchLab true 1 4) (fun q b bs => fieldAt bs 0 2 == tagOf b.nent 0 && q.missNow == 4) = true ∧ fetchB (fetchLab true 9 4) (fun q b bs => fieldAt bs 0 2 != tagOf b.nent 0 && q.missNow == 4) = true := by
  decide +kernel
theorem witness_retire : ∃ x, (qLab { queueOf [buf true 1 [] none] none with live := [⟨1, 0, 1, .done⟩] }).queue? 0 2 = some x ∧ (x.live == [⟨1, 0, 1, .done⟩]) = true := ex_some (by decide +kernel)
/-- A launch whose grid is over. -/
def overLab : State := { qLab { queueOf [buf true 2 [] none] none with live := [⟨1, 0, 2, .grid 0⟩] } with blocks := [] }
theorem witness_grid_retires : ∃ x, overLab.queue? 0 2 = some x ∧ (x.live == [⟨1, 0, 2, .grid 0⟩] && (overLab.grid? 0).isSome && overLab.gridOver 0 && overLab.cpUp) = true := ex_some (by decide +kernel)
def cqLab : State := { qLab (queueOf [] none) with cqPend := [⟨.queue, 0, 0, 5, 2, 1, 0, 0, none, 0⟩], cqs := [⟨0, 0, 3, 0, 3⟩] }
theorem witness_completion : ∃ t, cqLab.cqTab 0 0 = some t ∧ ((cqLab.cqPend.find? fun e => e.ctx == 0 && e.cq == 0).elim false (fun e => e.counted != 1 && e.live == none) &&
    decide ((cqLab.cq 0 0).wr - (cqLab.cq 0 0).rd < t.ne) && decide (1 ≤ t.timer) && decide (1 ≤ (cqLab.cq 0 0).cnt)) = true := ex_some (by decide +kernel)

/-- Fields that name the word at 0x1C0000 and compare it with 7. -/
def atWord (more : List (Nat × Nat × Nat)) : List (Nat × Nat × Nat) := [(8, 7, 0x1C0000), (0x10, 8, 7)] ++ more
theorem witness_nop : ∃ q b bs, PacketAt (onRing (pkt 0 [])) 5 0 q b bs ∧ (hdrType bs == 0) = true := packetB_ok (p := fun _ _ bs => hdrType bs == 0) (by decide +kernel)
/-- PRED that goes on, and one that passes over the NOP behind it. -/
theorem witness_pred : ∃ q b bs, PacketAt (onRing (pkt 7 (atWord [(5, 1, 1)]))) 5 7 q b bs ∧ ((onRing (pkt 7 (atWord [(5, 1, 1)]))).compare q.ctx bs == some true) = true :=
  packetB_ok (p := fun q _ bs => (onRing (pkt 7 (atWord [(5, 1, 1)]))).compare q.ctx bs == some true) (by decide +kernel)
def predLab : State := qLab (queueOf [buf true 0 [pkt 7 (atWord [(0x10, 8, 8), (5, 1, 1)]), pkt 0 []] none] none)
/-- The same with a launch of two entries behind it, of which it would pass over one. -/
def predCutLab : State := qLab (queueOf [buf true 0 [pkt 7 (atWord [(0x10, 8, 8), (5, 1, 1)]), pkt 1 [], pkt 0 []] none] none)
def predB (s : State) (ends : Bool) (q : SwQ) (b : Buf) (bs : List Byte) : Bool :=
  s.compare q.ctx bs == some false && b.ring && q.bufs == [b] && s.queues == [q] && (List.range (hdrF bs 40 8)).all (fun i => b.fet.any fun e => e.idx == b.next + 1 + i) &&
    passes b 256 (b.next + 1) (hdrF bs 40 8) == ends
theorem witness_pred_skips : ∃ q b bs, PacketAt predLab 5 7 q b bs ∧ predB predLab true q b bs = true := packetB_ok (p := predB predLab true) (by decide +kernel)
theorem witness_pred_cuts : ∃ q b bs, PacketAt predCutLab 5 7 q b bs ∧ predB predCutLab false q b bs = true := packetB_ok (p := predB predCutLab false) (by decide +kernel)
/-- A PRED that leaves its boundary, in the machine: its queue halts at it. -/
theorem test_pred_halts : ((after (exec (.pred 5) predCutLab)).queue? 0 2).map (fun y => (y.bufs.map (·.next), y.halted)) = some ([0], true) := by decide +kernel
/-- LOOP over the entry before it, met first, again, and for the last time. -/
def loopLab (lp : Option (Nat × Nat)) : State := qLab (queueOf [buf false 1 [pkt 0 [], pkt 8 [(4, 1, 1), (6, 2, 3)]] lp] none)
theorem witness_loop : ∃ q b bs, PacketAt (loopLab none) 5 8 q b bs ∧ (b.loop == none && !b.ring && hdrF bs 48 16 != 0 &&
    decide (1 ≤ hdrF bs 32 8 ∧ hdrF bs 32 8 ≤ 32 ∧ hdrF bs 32 8 ≤ b.next) && b.bodyOk 33 (b.next - hdrF bs 32 8) (hdrF bs 32 8)) = true :=
  packetB_ok (p := fun q b bs => b.loop == none && !b.ring && hdrF bs 48 16 != 0 &&
    decide (1 ≤ hdrF bs 32 8 ∧ hdrF bs 32 8 ≤ 32 ∧ hdrF bs 32 8 ≤ b.next) && b.bodyOk 33 (b.next - hdrF bs 32 8) (hdrF bs 32 8)) (by decide +kernel)
theorem witness_loop_again : ∀ k ∈ [0, 1], ∃ q b bs, PacketAt (loopLab (some (k, 2))) 5 8 q b bs ∧ (b.loop == some (k, 2)) = true := fun k h =>
  packetB_ok (p := fun _ b _ => b.loop == some (k, 2)) ((by decide +kernel : ∀ k ∈ [0, 1], packetB (loopLab (some (k, 2))) 8 (fun _ b _ => b.loop == some (k, 2)) = true) k h)
theorem witness_ib : ∃ q b bs, PacketAt (onRing (pkt 6 [(4, 1, 4), (8, 7, 0x1D0000)])) 5 6 q b bs ∧ (decide (1 ≤ hdrF bs 32 17 ∧ hdrF bs 32 17 ≤ 65536) && fieldAt bs 8 7 % 64 == 0 &&
    ((onRing (pkt 6 [(4, 1, 4), (8, 7, 0x1D0000)])).read01 q.ctx (fieldAt bs 8 7) 64).isSome && q.bufs.length != 5) = true :=
  packetB_ok (p := fun q _ bs => decide (1 ≤ hdrF bs 32 17 ∧ hdrF bs 32 17 ≤ 65536) && fieldAt bs 8 7 % 64 == 0 &&
    ((onRing (pkt 6 [(4, 1, 4), (8, 7, 0x1D0000)])).read01 q.ctx (fieldAt bs 8 7) 64).isSome && q.bufs.length != 5) (by decide +kernel)
/-- An IB in a buffer under which four stand. -/
def ibDeep : State := qLab (queueOf ([buf false 0 [pkt 6 [(4, 1, 4), (8, 7, 0x1D0000)]] none] ++ List.replicate 3 (buf false 1 [] none) ++ [buf true 1 [] none]) none)
theorem witness_ib_deep : ∃ q b bs, PacketAt ibDeep 5 6 q b bs ∧ (q.bufs.length == 5 && decide (1 ≤ hdrF bs 32 17 ∧ hdrF bs 32 17 ≤ 65536) && fieldAt bs 8 7 % 64 == 0 &&
    (ibDeep.read01 q.ctx (fieldAt bs 8 7) 64).isSome) = true := packetB_ok (by decide +kernel)
/-- WAIT for the word to be 7, and for it to be 8, where a failed compare parks and where it polls. -/
def firstLab (x : Nat × Word) : State := (onRing (pkt 9 (atWord [(0x10, 8, x.1)]))).modCtx 0 fun c => { c with rcd := { c.rcd with srd := x.2 } }
theorem witness_wait : ∀ x ∈ [(7, 0), (8, 0), (8, 100)], ∃ q b bs, PacketAt (firstLab x) 5 9 q b bs ∧ ((firstLab x).compare q.ctx bs == some (x.1 == 7) && ((firstLab x).ctxD q.ctx).rcd.srd == x.2) = true := fun x h =>
  packetB_ok (p := fun q _ bs => (firstLab x).compare q.ctx bs == some (x.1 == 7) && ((firstLab x).ctxD q.ctx).rcd.srd == x.2)
    ((by decide +kernel : ∀ x ∈ ([(7, 0), (8, 0), (8, 100)] : List (Nat × Word)), packetB (firstLab x) 9
      (fun q _ bs => (firstLab x).compare q.ctx bs == some (x.1 == 7) && ((firstLab x).ctxD q.ctx).rcd.srd == x.2) = true) x h)
theorem witness_signal : ∀ op ∈ [0, 1, 2], ∃ q b bs, PacketAt (onRing (pkt 0xA (atWord [(4, 1, op)]))) 5 0xA q b bs ∧
    (((onRing (pkt 0xA (atWord [(4, 1, op)]))).ctlWord q.ctx (fieldAt bs 8 7)).isSome && hdrF bs 32 2 == op) = true := fun op h =>
  packetB_ok (p := fun q _ bs => ((onRing (pkt 0xA (atWord [(4, 1, op)]))).ctlWord q.ctx (fieldAt bs 8 7)).isSome && hdrF bs 32 2 == op)
    ((by decide +kernel : ∀ op ∈ [0, 1, 2], packetB (onRing (pkt 0xA (atWord [(4, 1, op)]))) 0xA
      (fun q _ bs => ((onRing (pkt 0xA (atWord [(4, 1, op)]))).ctlWord q.ctx (fieldAt bs 8 7)).isSome && hdrF bs 32 2 == op) = true) op h)
theorem witness_fetch_fence : ∃ q b bs, PacketAt (onRing (pkt 0xB [])) 5 0xB q b bs ∧ (hdrType bs == 0xB) = true := packetB_ok (p := fun _ _ bs => hdrType bs == 0xB) (by decide +kernel)
theorem witness_complete : ∀ op ∈ [0, 1], ∃ q b bs, PacketAt (onRing (pkt 0xC (atWord [(4, 1, op)]))) 5 0xC q b bs ∧ (hdrF bs 32 2 == op && hdrF bs 34 1 == 0 &&
    decide (fieldAt bs 0x18 2 < ((onRing (pkt 0xC (atWord [(4, 1, op)]))).ctxD q.ctx).rcd.ncq.toNat) && ((onRing (pkt 0xC (atWord [(4, 1, op)]))).ctlWord q.ctx (fieldAt bs 8 7)).isSome) = true := fun op h =>
  packetB_ok (p := fun q _ bs => hdrF bs 32 2 == op && hdrF bs 34 1 == 0 && decide (fieldAt bs 0x18 2 < ((onRing (pkt 0xC (atWord [(4, 1, op)]))).ctxD q.ctx).rcd.ncq.toNat) &&
      ((onRing (pkt 0xC (atWord [(4, 1, op)]))).ctlWord q.ctx (fieldAt bs 8 7)).isSome)
    ((by decide +kernel : ∀ op ∈ [0, 1], packetB (onRing (pkt 0xC (atWord [(4, 1, op)]))) 0xC (fun q _ bs => hdrF bs 32 2 == op && hdrF bs 34 1 == 0 &&
      decide (fieldAt bs 0x18 2 < ((onRing (pkt 0xC (atWord [(4, 1, op)]))).ctxD q.ctx).rcd.ncq.toNat) && ((onRing (pkt 0xC (atWord [(4, 1, op)]))).ctlWord q.ctx (fieldAt bs 8 7)).isSome) = true) op h)

/-- A WAIT in progress for the word to be `n`. -/
def waitLab (n : Nat) (w : WaitSt) : State := (qLab (queueOf [buf true 0 [pkt 9 (atWord [(0x10, 8, n)])] none] (some w))).modCtx 0 fun c => { c with rcd := { c.rcd with srd := 300, wlim := 1000 } }
def waitB (s : State) (p : SwQ → WaitSt → List Byte → Bool) : Bool :=
  (s.slotQ 5).elim false fun q => q.wait.elim false fun w => q.bufs.head?.elim false fun b => s.qRuns q && s.queue? 0 2 == some q && (b.fet.find? (·.idx == b.next)).elim false fun e => p q w e.bytes
theorem waitB_ok {s : State} {p : SwQ → WaitSt → List Byte → Bool} (h : waitB s p = true) : ∃ q w bs, WaitsAt s q w bs ∧ s.slotQ 5 = some q ∧ s.queue? 0 2 = some q ∧ p q w bs = true := by
  obtain ⟨q, w, b, hq, hw, hb, h⟩ := ex_some3 h
  simp only [Bool.and_eq_true, beq_iff_eq] at h
  obtain ⟨e, he, hp⟩ := ex_some h.2
  exact ⟨q, w, e.bytes, ⟨h.1.1, hw, b, e, hb, he, rfl⟩, hq, h.1.2, hp⟩
/-- Polls within SRD, a poll past it, and one past the context's wait limit. -/
def pollOk (late : Bool) (n : Nat) (w : WaitSt) (bs : List Byte) : Bool :=
  let s := waitLab n w
  s.compare 0 bs == some (n == 7) && !w.stall && !w.parked && !w.held && (decide ((s.ctxD 0).rcd.srd.toNat < w.cycles + 256) == late) && (decide ((s.ctxD 0).rcd.wlim.toNat < w.cycles + 256) == late)
theorem witness_poll : ∀ n ∈ [7, 8], ∀ x ∈ [(false, 0), (true, 1024)], ∃ q w bs, WaitsAt (waitLab n ⟨x.2, false, false, false⟩) q w bs ∧ (waitLab n ⟨x.2, false, false, false⟩).slotQ 5 = some q ∧
    (waitLab n ⟨x.2, false, false, false⟩).queue? 0 2 = some q ∧ pollOk x.1 n w bs = true := fun n hn x hx =>
  waitB_ok (p := fun _ => pollOk x.1 n)
    ((by decide +kernel : ∀ n ∈ [7, 8], ∀ x ∈ [(false, 0), (true, 1024)], waitB (waitLab n ⟨x.2, false, false, false⟩) (fun _ => pollOk x.1 n) = true) n hn x hx)
theorem witness_parked : ∀ n ∈ [7, 8], ∃ q w bs, WaitsAt (waitLab n ⟨0, false, true, false⟩) q w bs ∧ (waitLab n ⟨0, false, true, false⟩).slotQ 5 = some q ∧
    (waitLab n ⟨0, false, true, false⟩).queue? 0 2 = some q ∧ ((waitLab n ⟨0, false, true, false⟩).compare 0 bs == some (n == 7) && w.parked && !w.held) = true := fun n h =>
  waitB_ok (p := fun _ w bs => (waitLab n ⟨0, false, true, false⟩).compare 0 bs == some (n == 7) && w.parked && !w.held)
    ((by decide +kernel : ∀ n ∈ [7, 8], waitB (waitLab n ⟨0, false, true, false⟩) (fun _ w bs => (waitLab n ⟨0, false, true, false⟩).compare 0 bs == some (n == 7) && w.parked && !w.held) = true) n h)

/-! ### Launches, SAVE and RESUME -/

/-- A launch's two entries: the kernel at `kd`, its size word and placement map at 0x1E0000, one block of 32 threads; of a range task, iterations 0 to 4. -/
def launchPkt (ty kd tpb : Nat) : List (List Byte) :=
  let bs := desc 128 ([(2, 1, ty), (8, 7, kd), (0x10, 7, 0x1E0000), (0x18, 7, 0x1E0008), (0x30, 2, tpb)] ++
    (if ty = 1 then [(0x28, 2, 1), (0x2A, 2, 1), (0x2C, 2, 1), (0x2E, 2, 1)] else if ty = 2 then [(0x48, 7, 0x1F0000), (0x50, 4, 1)] else [(0x50, 8, 5), (0x58, 4, 1)]))
  [bs.take 64, bs.drop 64]
def launchLab (ty kd tpb : Nat) : State := hbm (qLab (queueOf [buf true 0 (launchPkt ty kd tpb) none] none)) 0x1E0008 (leBytes 4 1 ++ [if ty = 1 then 0 else 1])
def launchB (kind : GKind) (kd tpb : Nat) (p : Except Nat Grid → Bool) : Bool := packetB (launchLab (launchType kind) kd tpb) (launchType kind) fun q _ bs =>
  p ((launchLab (launchType kind) kd tpb).launchOf q.ctx (launchLab (launchType kind) kd tpb).nextUid (reqOf kind bs) (some (q.q, q.given + 1)))
theorem launchB_ok {kind : GKind} {kd tpb : Nat} {p : Except Nat Grid → Bool} (h : launchB kind kd tpb p = true) : ∃ q b bs, PacketAt (launchLab (launchType kind) kd tpb) 5 (launchType kind) q b bs ∧
    p ((launchLab (launchType kind) kd tpb).launchOf q.ctx (launchLab (launchType kind) kd tpb).nextUid (reqOf kind bs) (some (q.q, q.given + 1))) = true := by
  exact packetB_ok (s := launchLab (launchType kind) kd tpb) (ty := launchType kind) (p := fun q _ bs =>
    p ((launchLab (launchType kind) kd tpb).launchOf q.ctx (launchLab (launchType kind) kd tpb).nextUid (reqOf kind bs) (some (q.q, q.given + 1)))) h
def startsB (r : Except Nat Grid) : Bool := okElim r fun _ => true
def refusedB (st : Nat) (r : Except Nat Grid) : Bool := match r with | .error x => x == st | .ok _ => false
/-- Launches that start, that fail a check, and that halt their queue. -/
theorem witness_launch : launchB .index 0x180000 32 startsB = true ∧ launchB .page 0x180000 32 startsB = true ∧ launchB .range 0x180000 32 startsB = true := by decide +kernel
theorem witness_launch_limits : launchB .index 0x180000 0 (refusedB 4) = true ∧ launchB .page 0x180000 0 (refusedB 4) = true ∧ launchB .range 0x180000 0 (refusedB 4) = true := by decide +kernel
theorem witness_launch_halts : launchB .index 0x180008 32 (refusedB 1) = true ∧ launchB .page 0x180008 32 (refusedB 1) = true ∧ launchB .range 0x180008 32 (refusedB 1) = true := by decide +kernel
/-- The same launch where a pre-emption of its context is owed: before the context has begun to stop, and once it is quiet. -/
def owedLab (sv : Saved) : State := (onGrp (fun g => { g with runs := 0 }) (launchLab 1 0x180000 32)).modCtx 0 fun c => { c with saved := sv, preempt := some ⟨0, 2, 0, 0x1000000, 0x1000000⟩ }
theorem witness_launch_owed : ∀ sv ∈ [Saved.no, Saved.stopping], packetB (owedLab sv) 1 (fun q _ bs => okElim ((owedLab sv).launchOf q.ctx (owedLab sv).nextUid (reqOf .index bs) (some (q.q, q.given + 1))) (fun _ => true) &&
    ((owedLab sv).ctxD q.ctx).preempt.isSome && ((owedLab sv).ctxD q.ctx).saved == sv && (owedLab sv).ctxQuiet q.ctx) = true := by decide +kernel
/-- SAVE of context 0, which has an unfinished grid, or of context 7, which has none; the image goes to 0x1000000. -/
def saveLab (ctx : Nat) (sv : Saved) : State :=
  (onGrp (fun g => { g with runs := 0 }) (qLab (queueOf [buf true 0 [pkt 5 [(8, 7, 0x1000000), (0x10, 4, 0x1000000), (0x18, 2, ctx)]] none] none))).modCtx 0 fun c => { c with saved := sv }
theorem witness_save_nothing : ∃ q b bs, PacketAt (saveLab 7 .no) 5 5 q b bs ∧ (fieldAt bs 8 7 % 4096 == 0 && fieldAt bs 0x18 2 == 7 &&
    ((saveLab 7 .no).grids.find? fun g => g.ctx == 7 && !(saveLab 7 .no).gridDone g) == none && ((saveLab 7 .no).ctxD 7).saved == .no) = true :=
  packetB_ok (p := fun _ _ bs => fieldAt bs 8 7 % 4096 == 0 && fieldAt bs 0x18 2 == 7 &&
    ((saveLab 7 .no).grids.find? fun g => g.ctx == 7 && !(saveLab 7 .no).gridDone g) == none && ((saveLab 7 .no).ctxD 7).saved == .no) (by decide +kernel)
/-- The last block retired as the pre-emption arrived. -/
def lateLab : State := { saveLab 0 .stopping with blocks := [] }
theorem witness_save_late : ∃ q b bs, PacketAt lateLab 5 5 q b bs ∧ (fieldAt bs 8 7 % 4096 == 0 && fieldAt bs 0x18 2 == 0 &&
    (lateLab.grids.find? fun g => g.ctx == 0 && !lateLab.gridDone g) == none && (lateLab.ctxD 0).saved == .stopping) = true :=
  packetB_ok (p := fun _ _ bs => fieldAt bs 8 7 % 4096 == 0 && fieldAt bs 0x18 2 == 0 &&
    (lateLab.grids.find? fun g => g.ctx == 0 && !lateLab.gridDone g) == none && (lateLab.ctxD 0).saved == .stopping) (by decide +kernel)
/-- The last block of its launch packet's grid is over. -/
def retireLab : State := onG (fun g => { g with owner := some (2, 0) }) (gone (saveLab 0 .no))
theorem witness_save_retires : packetB retireLab 5 (fun _ _ bs => fieldAt bs 8 7 % 4096 == 0 && fieldAt bs 0x18 2 == 0 &&
    (retireLab.grids.find? fun g => g.ctx == 0 && !retireLab.gridDone g).isSome && (retireLab.ctxD 0).saved == .no && retireLab.grids.any fun g => g.ctx == 0 && retireLab.retires g) = true := by decide +kernel
theorem witness_save : ∃ q b bs, PacketAt (saveLab 0 .no) 5 5 q b bs ∧ (fieldAt bs 8 7 % 4096 == 0 && fieldAt bs 0x18 2 == 0 &&
    ((saveLab 0 .no).grids.find? fun g => g.ctx == 0 && !(saveLab 0 .no).gridDone g).isSome && ((saveLab 0 .no).ctxD 0).saved == .no && !((saveLab 0 .no).grids.any fun g => g.ctx == 0 && (saveLab 0 .no).retires g)) = true :=
  packetB_ok (p := fun _ _ bs => fieldAt bs 8 7 % 4096 == 0 && fieldAt bs 0x18 2 == 0 &&
    ((saveLab 0 .no).grids.find? fun g => g.ctx == 0 && !(saveLab 0 .no).gridDone g).isSome && ((saveLab 0 .no).ctxD 0).saved == .no && !((saveLab 0 .no).grids.any fun g => g.ctx == 0 && (saveLab 0 .no).retires g)) (by decide +kernel)
theorem witness_save_freezes : ∃ q b bs, PacketAt (saveLab 0 .stopping) 5 5 q b bs ∧ (fieldAt bs 8 7 % 4096 == 0 && fieldAt bs 0x18 2 == 0 && ((saveLab 0 .stopping).ctxD 0).saved == .stopping &&
    (saveLab 0 .stopping).ctxQuiet 0 && ((saveLab 0 .stopping).grids.find? fun g => g.ctx == 0 && !(saveLab 0 .stopping).gridDone g).elim false fun g =>
      let len := (imageMap g ((saveLab 0 .stopping).ctxBlocks 0) (saveLab 0 .stopping).hc).len
      decide (len ≤ fieldAt bs 0x10 8) && ((saveLab 0 .stopping).read01 q.ctx (fieldAt bs 8 7) len).isSome) = true :=
  packetB_ok (p := fun q _ bs => fieldAt bs 8 7 % 4096 == 0 && fieldAt bs 0x18 2 == 0 && ((saveLab 0 .stopping).ctxD 0).saved == .stopping &&
    (saveLab 0 .stopping).ctxQuiet 0 && ((saveLab 0 .stopping).grids.find? fun g => g.ctx == 0 && !(saveLab 0 .stopping).gridDone g).elim false fun g =>
      let len := (imageMap g ((saveLab 0 .stopping).ctxBlocks 0) (saveLab 0 .stopping).hc).len
      decide (len ≤ fieldAt bs 0x10 8) && ((saveLab 0 .stopping).read01 q.ctx (fieldAt bs 8 7) len).isSome) (by decide +kernel)
/-- RESUME of a saved context from an image's header at 0x1000000, or from an address of no image. -/
def resumeLab (a : Nat) : State :=
  (hbm (qLab (queueOf [buf true 0 [pkt 4 [(8, 7, a)]] none] none)) 0x1000000 (desc 0xE0 [(0, 4, 0x4D494B43), (4, 4, 1), (0xC0, 2, 0x100), (0xC8, 2, 0x108), (0xD0, 2, 0x200), (0xD8, 2, 0x300)])).modCtx 0
    fun c => { c with saved := .saved 0x1000000 }
theorem witness_resume : ∃ q b bs, PacketAt (resumeLab 0x1000000) 5 4 q b bs ∧ (fieldAt bs 8 7 % 8 == 0 && ((resumeLab 0x1000000).readImage q.ctx (fieldAt bs 8 7)).elim false fun m =>
    m.ok (resumeLab 0x1000000)) = true := packetB_ok (p := fun q _ bs => fieldAt bs 8 7 % 8 == 0 && ((resumeLab 0x1000000).readImage q.ctx (fieldAt bs 8 7)).elim false fun m => m.ok (resumeLab 0x1000000)) (by decide +kernel)
theorem witness_resume_no_image : ∃ q b bs, PacketAt (resumeLab 0x1000008) 5 4 q b bs ∧ (fieldAt bs 8 7 % 8 == 0 && (resumeLab 0x1000008).readImage q.ctx (fieldAt bs 8 7) == none) = true :=
  packetB_ok (p := fun q _ bs => fieldAt bs 8 7 % 8 == 0 && (resumeLab 0x1000008).readImage q.ctx (fieldAt bs 8 7) == none) (by decide +kernel)
/-- An image of one core, and a context whose group stopped. -/
def image0 : Image := ⟨1024, 0, 0, 0, 0, 0, 0, leBytes 8 1 ++ leBytes 4 0 ++ leBytes 4 0 ++ [7, 8]⟩
theorem witness_restore : memCanonical (resumeLab 0x1000000) ∧ ((onGrp (fun g => { g with stat := .stopped }) (resumeLab 0x1000000)).blk? 0).elim false (fun b => b.ctx == image0.ctx && (b.groups[(0 : Nat)]?).elim false (·.stat == .stopped)) = true ∧
    image0.coreList.filter (fun x => 48 * x.1 + x.2.1 == 0) = [(0, 0, 16)] ∧ image0.bytes[16 + 1]? = some 8 := ⟨by unfold memCanonical; decide +kernel, by decide +kernel⟩

/-! ### Faults, halts, the host and housekeeping -/

def ctx0 (f : Ctx → Ctx) (s : State) : State := s.modCtx 0 f
/-- A record to post, and answers that a benched group, a copy, an attention operation and a survivor move await. -/
def fqLab : State := { ctx0 (fun c => { c with pendF := [(FRec.mk 0 0 0 0 0 0 0 0 0 0 0 0 0, .none)], answers := [(0, .grp 0 0), (1, .eop 0 (.copy 0) 1), (2, .eop 0 .attention 1), (3, .move 0)] })
  (onGrp (fun g => { g with stat := .benched 1 0x40010000 }) (copyEvLab (copyOp 0x80000000 none []))) with released := 3 }
theorem witness_post : ((match (fqLab.ctxD 0).pendF with | [_] => true | _ => false) && decide (1 ≤ (fqLab.ctxD 0).rcd.fqn.toNat) &&
    decide ((fqLab.ctxD 0).fqw - (fqLab.ctxD 0).fqr < (fqLab.ctxD 0).rcd.fqn.toNat)) = true := by decide +kernel
theorem witness_answers : ∀ x ∈ ([(0, .grp 0 0), (1, .eop 0 (.copy 0) 1), (2, .eop 0 .attention 1), (3, .move 0)] : List (Nat × Answer)), AnswerAt fqLab 0 x.1 x.2 := fun x h =>
  ⟨by decide +kernel, (by decide +kernel : ∀ x ∈ ([(0, .grp 0 0), (1, .eop 0 (.copy 0) 1), (2, .eop 0 .attention 1), (3, .move 0)] : List (Nat × Answer)), ((fqLab.ctxD 0).answers.find? (·.1 == x.1)).map (·.2) = some x.2) x h, fun im e =>
    absurd e (by rw [show (fqLab.ctxD 0).saved = .no from by decide +kernel]; intro h; cases h)⟩
theorem witness_answered_units : fqLab.ustat? (.group 0 0) = some (.benched 1 0x40010000) ∧ (onGrp (fun g => { g with stat := .held 1 }) fqLab).ustat? (.group 0 0) = some (.held 1) ∧
    (fqLab.blk? 0).isSome = true ∧ ((fqLab.blk? 0).bind fun b => (b.copies[(0 : Nat)]?).bind fun c => c.ops.find? (·.no == 1)).isSome = true := by decide +kernel
def replyLab : State := onGrp (fun g => { g with stat := .benched 2 0x40010000 }) (ctx0 (fun c => { c with svcs := [⟨3, 0, 0, 1⟩] }) upLab)
theorem witness_reply : ((replyLab.ctxD 0).svcs.find? (·.slot == 3)) = some ⟨3, 0, 0, 1⟩ ∧ replyLab.ustat? (.group 0 0) = some (.benched 2 0x40010000) ∧ replyLab.mgmtUp = true := by decide +kernel
theorem witness_reply_others : (onGrp (fun g => { g with stat := .benched 0 0x40010000 }) replyLab).ustat? (.group 0 0) = some (.benched 0 0x40010000) ∧
    (onGrp (fun g => { g with stat := .held 2 }) replyLab).ustat? (.group 0 0) = some (.held 2) := by decide +kernel
theorem witness_debug_resume : upLab.hostOk = true ∧ (onGrp (fun g => { g with stat := .benched 4 0x40010000 }) upLab).ustat? (.group 0 0) = some (.benched 4 0x40010000) ∧ (0, 0) ∉ upLab.returns ∧
    (onGrp (fun g => { g with stat := .held 4 }) upLab).ustat? (.group 0 0) = some (.held 4) := by decide +kernel

/-- A halt line up: no group inside a clause, one stop record to write, and none. -/
def haltLab (h : Halt) : State := (onGrp (fun g => { g with runs := 0 }) upLab).modPart 0 fun p => { p with halt := some h }
def stopRec : FRec := ⟨0, 0, 0, 0, 0, 0, 0, 0, 0, 0, 0, 0, 0⟩
def haltUp : Halt := ⟨[(0, 0x02)], [], [], false, [], false, false⟩
def haltRec : Halt := { haltUp with stopped := true, todo := [(0, 0, stopRec)] }
def haltEnd : Halt := { haltUp with stopped := true }
/-- A fault raised since the units stopped, and the entries of the management core written. -/
theorem witness_halt_later : HaltAt (haltLab { haltEnd with again := true }) 0 { haltEnd with again := true } ∧ HaltAt (haltLab { haltEnd with told := true }) 0 { haltEnd with told := true } ∧
    (haltLab { haltEnd with told := true }).cqPend = [] ∧ (haltLab haltEnd).cqPend = [] ∧ ((haltLab haltEnd).ctxD 0).halted = none := by
  unfold HaltAt
  decide +kernel
theorem witness_halt : HaltAt (haltLab haltUp) 0 haltUp ∧ (haltLab haltUp).mgmtUp = true ∧
    (∀ b ∈ (haltLab haltUp).blocks, ((haltLab haltUp).partCtxs 0).contains b.ctx = true → ∀ g ∈ b.groups, g.runs = 0 ∧ g.isLeaving = false) ∧
    HaltAt (haltLab haltRec) 0 haltRec ∧
    HaltAt (haltLab haltEnd) 0 haltEnd ∧ 0 < (haltLab haltEnd).parts.length := by
  unfold HaltAt
  decide +kernel

/-- The host's conditions: its commands are taken, an invalidate is busy with nothing open, flash is written, the life cycle may move, a halted context. -/
theorem witness_host : upLab.hostOk = true ∧ upLab.invBusy = none ∧ upLab.flashW = none ∧ upLab.accessesOpen 0 = false ∧ ({ upLab with invBusy := some (0, 0, 0) } : State).accessesOpen 0 = false ∧
    upLab.mgmtUp = true ∧ upLab.pgUp = true ∧ (∀ n ∈ [0, 1, 2], ({ upLab with flashW := some ⟨true, 0, 7, n⟩ } : State).flashW = some ⟨true, 0, 7, n⟩) ∧ (List.replicate 64 (0 : Byte)).length = 64 ∧
    (∃ tgt, lifeOk State.reset.lifeCycle tgt = true ∧ State.reset.ctxsRun = false ∧ State.reset.flashW = none) ∧ ((ctx0 (fun c => { c with halted := some 2 }) upLab).ctxD 0).halted.isSome = true ∧
    ({ State.reset with released := 3 } : State).maskOk 0 ((0xFF : DWord).setWidth 8) = true ∧ ({ State.reset with released := 3 } : State).hostOk = true ∧ upLab.bootFail = none ∧ upLab.measures.flatten.length = 256 ∧
    (0xFF : DWord).toNat + 2 ^ 36 ≤ hbmBytes ∧ upLab.invReg.length = 4 ∧ (1 : Nat) + 1 ≤ 2 ^ 36 := by
  refine ⟨by decide +kernel, by decide +kernel, by decide +kernel, by decide +kernel, by decide +kernel, by decide +kernel, by decide +kernel, fun _ _ => rfl, by decide +kernel, ⟨1, by decide +kernel, by decide +kernel, by decide +kernel⟩,
    by decide +kernel, by decide +kernel, by decide +kernel, by decide +kernel, by decide +kernel, by decide +kernel, by decide +kernel, by decide +kernel⟩
/-- Heartbeat windows of a core with work: with a beat, excused, without a beat, and without two; the watchdog; a clock that can fall; a lost route. -/
def beatLab (x : Bool × Bool × Nat) : State := upLab.modCore 0 fun c => { c with beat := x.1, excuse := x.2.1, missed := x.2.2 }
theorem witness_beats : ∀ x ∈ ([(true, false, 0), (false, true, 0), (false, false, 0), (false, false, 1)] : List (Bool × Bool × Nat)), ((beatLab x).mgmtUp && (beatLab x).beatsOn 0 &&
    ((beatLab x).coreD 0).beat == x.1 && ((beatLab x).coreD 0).excuse == x.2.1 && ((beatLab x).coreD 0).missed == x.2.2) = true := by decide +kernel
theorem witness_housekeeping : upLab.mgmtUp = true ∧ 1 < (upLab.coreD 0).clock ∧ 0 < upLab.cores.length ∧ (∀ n ∈ [0, 1], (({ upLab with booted := true, wdMissed := n } : State).booted && !upLab.wdReported) = true) ∧ (upLab.grids.length = 1 ∧ (upLab.ctxD 0).saved = .no) ∧ (0 < upLab.dieS.length ∧ 0 < upLab.hbmS.length) ∧
    ({ upLab with numbered := [0, 1] } : State).numbered.contains 1 = true ∧ (1 : Nat) ≠ upLab.pkg ∧ ({ upLab with numbered := [0, 1], lost := [1] } : State).pkgLost 1 = true := by
  refine ⟨by decide +kernel, by decide +kernel, by decide +kernel, by decide +kernel, by decide +kernel, by decide +kernel, by decide +kernel, by decide +kernel⟩

/-! ### Encoding and the step -/

theorem witness_encodings : ∀ i ∈ ([.iadd (A 3 1 2 511), .movi (I 10 511 77), .lds (M 10 0 .w2 .plain) true, .mloop (E 2 4 2), .cpyc (C 10 4 8) .cmem, .trap (I 511 1 7)] : List Instr),
    wellFormed i = true ∧ (encode i).isSome = true := by decide
theorem witness_decoded : ∃ i, decode .V 0x0070180405FF0000 = .ok i ∧ encode i = some (.V, 0x0070180405FF0000) := ⟨.iadd ⟨g7, 3, 1, 2, 511, 0, 0⟩, by decide, by decide⟩
/-- The written words as the statement has them: a sanity check of the statement itself. -/
theorem test_written_words : decode .V 0xC070400808000040 = .ok (.lds ⟨g7, 8, 2, .thread, .plain, .w4, 64⟩ false) ∧ decode .M 0x017057FFFE000470 = .ok (.mloop ⟨g7, 10, 511, 511, 2, 3, true⟩) := by decide

/-- The placed block at a word, the turn taken. -/
def placed (c : Cls) (w : Nat) : State := { State.reset.place c 0x2000000000000000 w with agenda := [], cur := none }
/-- A front-end thread at SVC in a clause of class X. -/
def svcFront : State := onB (fun b => { b with fe := b.fe.modThread 0 fun t => { t with cl := some ⟨0x30000, .X, 1, .computer, false⟩ } }) (placed .S 0x017FF80C00000007)
def atB (s : State) (u : UnitRef) (c : ClauseCtx) (w : DWord) (p : View → Bool) : Bool :=
  (s.blk? u.blk).elim false fun b => (b.grp? u).elim false fun g0 =>
    ((s.coreD b.core).cur[g0.sched]? == some (some u) && g0.stat == .ready && !s.issueStopped b.ctx u.isFront && !(match b.bench with | .none => false | .stopping .. => u.isFront | .out .. => true) && !(u.isFront && s.halting b.ctx) && decide (g0.hold < 64) &&
      g0.meetings.join.clauseNow == some c && let s1 := ((s.meetAll b.core g0.sched).tickCore b.core g0.sched (some u)).modGrp u (·.join)
      !g0.meetings.join.atomHeld && !s1.atBreakpoint b g0.meetings.join && s1.fetch b.core b.ctx g0.meetings.join.pcOf == some w) && p ⟨u, b, g0.meetings.join⟩
theorem atB_ok {s : State} {u : UnitRef} {c : ClauseCtx} {w : DWord} {p : View → Bool} (h : atB s u c w p = true) : ∃ v s1, AtWord s u c w v s1 ∧ p v = true := by
  obtain ⟨b, g0, hb, hg, h⟩ := ex_some2 h
  simp only [Bool.and_eq_true, beq_iff_eq, Bool.not_eq_true', decide_eq_true_eq] at h
  obtain ⟨⟨⟨⟨⟨⟨⟨⟨h1, h2⟩, h3⟩, h4⟩, hf⟩, h5⟩, h6⟩, ⟨ha, h7⟩, h8⟩, h⟩ := h
  exact ⟨⟨u, b, g0.meetings.join⟩, _, ⟨g0, hb, hg, h1, h2, h3, h4, hf, h5, rfl, rfl, h6, rfl, ha, h7, h8⟩, h⟩
/-- A word that runs, the same with guard !p7, an unassigned opcode, a reserved code, and a hint. -/
def fateWords : List Nat := [0x0070180405FF0000, 0x00F0180405FF0000, 0x2B70000000000000, 0x12700000000007FF, 0xF000000000000000]
theorem witness_at_word : ∀ w ∈ fateWords, ∃ v s1, AtWord (placed .V w) (.group 0 0) ⟨0x30000, .V, 1, .computer, false⟩ (BitVec.ofNat 64 w) v s1 ∧ (v.g.runs != 0) = true := fun w h =>
  atB_ok ((by decide +kernel : ∀ w ∈ fateWords, atB (placed .V w) (.group 0 0) ⟨0x30000, .V, 1, .computer, false⟩ (BitVec.ofNat 64 w) (fun v => v.g.runs != 0) = true) w h)
theorem witness_fates : (decode .V 0x0070180405FF0000 = .ok (.iadd (A 3 1 2 511)) ∧ guardOf 0x0070180405FF0000 = g7) ∧ guardOf 0x00F0180405FF0000 = ⟨true, 7⟩ ∧
    decode .V 0x2B70000000000000 = .error .unassigned ∧ decode .V 0x12700000000007FF = .error (.reserved g7) ∧ 0xF0 ≤ opcOf 0xF000000000000000 := by decide
theorem witness_not_for_unit : (∃ v s1, AtWord svcFront (.front 0) ⟨0x30000, .X, 1, .computer, false⟩ 0x017FF80C00000007 v s1 ∧ (v.g.runs != 0) = true) ∧
    ∃ i, decode .X 0x017FF80C00000007 = .ok i ∧ Instr.forUnit i true = false :=
  ⟨atB_ok (by decide +kernel), .svc ⟨⟨false, 7⟩, 511, 3, false, 7⟩, by decide, by decide⟩
/-- The turn that a placed word is run in. -/
theorem witness_turn : (State.reset.withFetchWord 64 0x0070180405FF0000).agenda = [.issue (.group 0 0)] := by decide

/-! ## Single steps, the results by hand from the spec's rules -/

/-- The value of a register of the placed thread after one step from reset with a word of class V, its registers 1 and 2 set. -/
def stepReg (w : Nat) (a b : Word) (r : Nat) : Option Word :=
  (thr? (after (step (onGrp (fun g => { g with threads := g.threads.map fun t => t.setRegs 1 [⟨a, false⟩, ⟨b, false⟩] }) (State.reset.withFetchWord 64 w)))) (.group 0 0) 0).bind fun t => (t.regs[r]?).map (·.v)
/-- IADD wraps (R91). -/
theorem test_iadd_wraps : stepReg 0x0070180405FF0000 0xFFFFFFFF 2 3 = some 1 := by decide +kernel
theorem test_isub_wraps : stepReg 0x0170180405FF0000 0 1 3 = some 0xFFFFFFFF := by decide +kernel
/-- IMUL keeps the low word (R91). -/
theorem test_imul_low : stepReg 0x0470180405FF0000 0x10000 0x10001 3 = some 0x10000 := by decide +kernel
/-- FADD of 1.0 and 2^-24 is 1.0, a tie to even (R107). -/
theorem test_fadd_ties : stepReg 0x4070180405FF0000 0x3F800000 0x33800000 3 = some 0x3F800000 := by decide +kernel
/-- FMUL of 1.5 and 1.5 is 2.25. -/
theorem test_fmul : stepReg 0x4170180405FF0000 0x3FC00000 0x3FC00000 3 = some 0x40100000 := by decide +kernel

end Sys2Proof.Tests.Slice0
end

section
/-! SUPPORT. A register instruction's meaning is its row, run over the active lanes; the zero register. -/

namespace Sys2Proof.Machine

open Sys2Proof.Spec

/-- Two attempts that agree at the executing unit's view are one instruction. -/
theorem runUnit_congr {a a' : View → Act Unit} {s : State} {v : View} (hv : s.view? = some v) (h : a v s = a' v s) : runUnit a s = runUnit a' s := by
  simp only [runUnit, hv, h]

theorem ofInt_sub_toNat (a b : Word) : BitVec.ofInt 32 ((a.toNat : Int) - b.toNat) = a - b := by
  rw [Int.sub_eq_add_neg, BitVec.ofInt_add, BitVec.ofInt_neg, BitVec.ofInt_natCast, BitVec.ofInt_natCast, BitVec.ofNat_toNat, BitVec.ofNat_toNat,
    BitVec.setWidth_eq, BitVec.setWidth_eq, BitVec.sub_eq_add_neg]

/-- The row of a register instruction is what `exec` runs: its guard, its fields and its lanes' results (R161). -/
theorem exec_eq_runSplit {i : Instr} {R : RegRow} {s : State} {v : View} (hr : regRow i = some R) (hv : s.view? = some v) :
    exec i s = runUnit (runSplit R.g R.uses (R.out s v)) s := by
  cases i with
  | iadd _ | iaddc _ _ | isubb _ _ | imul _ | imulh _ _ | imadw _ _ | idiv _ _ | irem _ _ | iabs _ | ineg _ | imin _ _ | imax _ _ | iclamp _ _
  | lea _ _ | iadd64 _ | imad64 _ _ | isetp _ _ _ _ | psetp _ _ | sel _ _ _ | mov _ | movi _
  | and _ | or _ | xor _ | andn _ | not _ | bmix _ _ | shl _ | shr _ | sar _ | rotl _ | shf _ _ | popc _ | clz _ | ctz _ | brev _ | bfx _ _ | bfi _ | bswz _
  | iaddImm _ | imulImm _ | andImm _ | orImm _ | xorImm _ | shlImm _ | shrImm _ | sarImm _
  | fadd _ _ | fmul _ _ | ffma _ _ | fmin _ | fmax _ | frnd _ _ | fclass _ | fsetp _ _ _ _ | hadd2 _ _ _ | hmul2 _ _ _ | hfma2 _ _ _
  | frcp _ _ | frsq _ | fsqrt _ _ | fexp2 _ | flog2 _ | ftanh _ | ncvt _ _ _ _ | ndec _ _ _ _
  | sread _ _ | swrite _ _ | shfl _ _ | vote _ _ _ _ _ | ballot _ _ _ | elect _ _ | actmask _ | matchLanes _ _ | redux _ _ _ | scan _ _ _ _ | nscale _ _ =>
    cases hr; rfl
  | isub w =>
    cases hr
    show runUnit (alu2 w fun a b => a - b) s = runUnit (alu2 w fun a b => BitVec.ofInt 32 ((a.toNat : Int) - b.toNat)) s
    simp only [ofInt_sub_toNat]
  | imad w =>
    cases hr
    show runUnit (alu3 w fun a b c => a * b + c) s = runUnit (alu3 w fun a b c => BitVec.ofNat 32 (a.toNat * b.toNat + c.toNat)) s
    simp only [BitVec.ofNat_add, BitVec.ofNat_mul, BitVec.ofNat_toNat, BitVec.setWidth_eq]
  | movp _ toPred => cases toPred <;> (cases hr; rfl)
  | cvt w d k r =>
    obtain ⟨hne, hR⟩ : d ≠ k ∧ aRow w 1 1 0 0 (fun x => ([(cvtOf d k (roundOf r x.mode) (x.w 0).v).1], (cvtOf d k (roundOf r x.mode) (x.w 0).v).2)) = some R := by
      simpa only [regRow, Option.ite_none_left_eq_some] using hr
    cases hR
    refine runUnit_congr hv ?_
    rw [act_bind, act_needA, if_pos (bne_iff_ne.mpr hne)]
    rfl
  | statrd w ix =>
    obtain ⟨-, hR⟩ := Option.ite_none_left_eq_some.mp hr
    cases hR
    exact runUnit_congr hv rfl
  | _ => cases hr

/-- Where its fields are legal and its lanes can be read, a register instruction leaves its row's results (R62, R161). -/
theorem exec_regReady {i : Instr} {R : RegRow} {s s1 : State} {v : View} {ins : List LaneIn} (hr : regRow i = some R) (h : RegReady R s v ins s1) :
    exec i s = .next (commitAll v R.uses.dst (R.out s v ins) s1) := by
  obtain ⟨hv, hl, ha, hread, hp⟩ := h
  rw [exec_eq_runSplit hr hv]
  exact runUnit_ok hv (runSplit_ok hl ha hread hp)

/-! ## Operand 511 (R8) -/

@[simp] theorem opKind_zero : opKind 511#9 = .zero := by decide
theorem readSrc_zero (v : View) (l n : Nat) (et ret : Bool) (r : Rd) : readSrc v l ⟨511#9, n, et, ret⟩ r = (List.replicate n ⟨0, false⟩, r) := by
  simp only [readSrc, opKind_zero]
@[simp] theorem writeDst_zero (s : State) (u : UnitRef) (l n : Nat) (ws : List PWord) : writeDst s u l ⟨511#9, n⟩ ws = s := by
  simp only [writeDst, opKind_zero]
theorem dstBusy_zero (s : State) (u : UnitRef) (l n : Nat) : dstBusy s u l ⟨511#9, n⟩ = false := by
  simp only [dstBusy, opKind_zero]
theorem dstOk_zero (b : Block) (front : Bool) (n : Nat) : b.dstOk front ⟨511#9, n⟩ = true := by
  simp only [Block.dstOk, opKind_zero]
/-- A lane's result for operand 511 leaves what it leaves without a destination: its predicates, flags and retirement. -/
theorem commitLane_zero (u : UnitRef) (n : Nat) (s : State) (l : Nat) (o : LaneOut) : commitLane u (some ⟨511#9, n⟩) s l o = commitLane u none s l o := by
  unfold commitLane
  cases o.dst with
  | none => rfl
  | some ws => simp only [writeDst_zero]
theorem commitAll_zero (v : View) (n : Nat) (outs : List (Nat × LaneOut)) (s : State) : commitAll v (some ⟨511#9, n⟩) outs s = commitAll v none outs s := by
  simp only [commitAll, commitLane_zero]

end Sys2Proof.Machine
end

section
open Sys2Proof Sys2Proof.Machine Sys2Proof.Spec

/-- Settles O60: operand 511 has a kind of its own, which every read, write and check answers by doing nothing; a register instruction is its row, and a row's results for 511 are those without a destination. -/
theorem zeroRegister : Obligations.ZeroRegister := by
  unfold Obligations.ZeroRegister
  refine ⟨readSrc_zero, fun s u l n ws => ⟨writeDst_zero s u l n ws, dstBusy_zero s u l n⟩, dstOk_zero, ?_⟩
  intro i R s s1 v ins n hr hready hd
  rw [exec_regReady hr hready, hd, commitAll_zero]
end

section
/-! SUPPORT. What an opcode decides of a word: the rows of the map, hints, and reserved bits. -/

namespace Sys2Proof

open Sys2Proof.Spec

/-! ## Which words are unassigned (R17, R56 to R62) -/

theorem opcOf_def (w : DWord) : (w.extractLsb' 56 8).toNat = opcOf w := rfl

theorem both_ne_unassigned (cl : Cls) (w : DWord) (r : Option Instr) : both cl w r ≠ .error .unassigned := by
  unfold both
  cases r <;> simp
theorem onlyV_unassigned_iff (cl : Cls) (w : DWord) (r : Option Instr) : onlyV cl w r = .error .unassigned ↔ cl ≠ .V := by
  unfold onlyV
  split <;> simp_all [both_ne_unassigned]
theorem onlyS_unassigned_iff (cl : Cls) (w : DWord) (r : Option Instr) : onlyS cl w r = .error .unassigned ↔ cl ≠ .S := by
  unfold onlyS
  split <;> simp_all [both_ne_unassigned]
theorem subs_ne_unassigned (w : DWord) (forms : List Instr) : subs w forms ≠ .error .unassigned := both_ne_unassigned _ _ _

/-- The V-class and S-class map, row by row; in the rows 0xC0 and 0xC1 (`h_105`, `h_106`) the space decides, and `h_116` is no row (R56). -/
theorem decodeVS_unassigned_iff {cl : Cls} (hcl : cl = .V ∨ cl = .S) (w : DWord) : decodeVS cl w = .error .unassigned ↔ assigned cl w = false := by
  unfold decodeVS
  rw [opcOf_def]
  split
  case h_116 =>
    simp only [imp_false] at *
    rcases hcl with rfl | rfl <;> simp [assigned, opcodesV, List.range, List.range.loop, *]
  case h_105 h | h_106 h =>
    have hs : ∀ x : BitVec 2, (x == 2#2) = (x.toNat == 2) := by decide
    rcases hcl with rfl | rfl
    all_goals
      simp only [assigned, h, hs]
      split <;> simp_all [both_ne_unassigned, onlyV_unassigned_iff, opcodesV, notInS, List.range, List.range.loop]
  all_goals
    rename_i h
    rcases hcl with rfl | rfl
    all_goals
      simp only [both_ne_unassigned, onlyV_unassigned_iff, onlyS_unassigned_iff, assigned, h]
      generalize (spcM w == 2#2) = constSpace
      revert constSpace
      decide
theorem decodeM_unassigned_iff (w : DWord) : decodeM w = .error .unassigned ↔ assigned .M w = false := by
  unfold decodeM
  rw [opcOf_def]
  split
  case h_17 =>
    simp only [imp_false] at *
    simp [assigned, opcodesM, *]
  all_goals
    rename_i h
    simp only [subs_ne_unassigned, assigned, h]
    decide
theorem decodeC_unassigned_iff (w : DWord) : decodeC w = .error .unassigned ↔ assigned .C w = false := by
  unfold decodeC
  rw [opcOf_def]
  split
  case h_17 =>
    simp only [imp_false] at *
    simp [assigned, opcodesC, *]
  all_goals
    rename_i h
    simp only [subs_ne_unassigned, assigned, h]
    decide
theorem decodeX_unassigned_iff (w : DWord) : decodeX w = .error .unassigned ↔ assigned .X w = false := by
  unfold decodeX
  rw [opcOf_def]
  split
  case h_6 =>
    simp only [imp_false] at *
    simp [assigned, opcodesX, *]
  all_goals
    rename_i h
    simp only [assigned, h]
  case h_4 | h_5 => split <;> simp [opcodesX]
  all_goals simp [opcodesX]

/-- The top four bits of the opcode tell hints apart (R17, R61). -/
theorem hintBits_iff (w : DWord) : w.extractLsb' 60 4 = 0xF#4 ↔ 0xF0 ≤ opcOf w := by
  have h := w.isLt
  simp only [opcOf, ← BitVec.toNat_inj, BitVec.extractLsb'_toNat, BitVec.toNat_ofNat, Nat.shiftRight_eq_div_pow]
  omega
theorem decode_hint {w : DWord} (c : Cls) (h : 0xF0 ≤ opcOf w) : decode c w = .ok (.hint (w.extractLsb' 56 4) (w.extractLsb' 0 56)) := by
  unfold decode
  rw [if_pos ((hintBits_iff w).mpr h)]
theorem decode_unassigned_iff (c : Cls) (w : DWord) : decode c w = .error .unassigned ↔ opcOf w < 0xF0 ∧ assigned c w = false := by
  by_cases h : 0xF0 ≤ opcOf w
  · simp [decode_hint c h, Nat.not_lt.mpr h]
  · unfold decode
    rw [if_neg (mt (hintBits_iff w).mp h), and_iff_right (Nat.lt_of_not_le h)]
    cases c with
    | V => exact decodeVS_unassigned_iff (.inl rfl) w
    | S => exact decodeVS_unassigned_iff (.inr rfl) w
    | M => exact decodeM_unassigned_iff w
    | C => exact decodeC_unassigned_iff w
    | X => exact decodeX_unassigned_iff w

/-! ## Reserved fields (R17, R44, R47, R48, R54) -/

/-- Two words that differ at most in the bits of a mask. -/
def SameBut (m w w' : DWord) : Prop := w &&& ~~~m = w' &&& ~~~m

namespace SameBut

theorem eq_of_zero {w w' : DWord} (h : SameBut 0#64 w w') : w = w' := by
  simpa only [SameBut, BitVec.not_zero, BitVec.and_allOnes] using h

section
variable {m w w' : DWord} (h : SameBut m w w')
include h
theorem bit {k : Nat} (hm : m.getLsbD k = false) : w.getLsbD k = w'.getLsbD k := by
  by_cases hk : k < 64
  · have hb := congrArg (·.getLsbD k) h
    simpa only [BitVec.getLsbD_and, BitVec.getLsbD_not, hm, hk, decide_true, Bool.not_false, Bool.and_true] using hb
  · rw [BitVec.getLsbD_of_ge _ _ (Nat.le_of_not_lt hk), BitVec.getLsbD_of_ge _ _ (Nat.le_of_not_lt hk)]
/-- A field inside a stretch of the word that the mask leaves alone. -/
theorem slice_in {lo n : Nat} (hm : m.extractLsb' lo n = 0#n) (lo' n' : Nat) (hlo : lo ≤ lo') (hn : lo' + n' ≤ lo + n) :
    w.extractLsb' lo' n' = w'.extractLsb' lo' n' := by
  apply BitVec.eq_of_getLsbD_eq
  intro i hi
  have hb : m.getLsbD (lo' + i) = false := by
    have := congrArg (·.getLsbD (lo' - lo + i)) hm
    simpa [BitVec.getLsbD_extractLsb', show lo' - lo + i < n by omega, show lo + (lo' - lo + i) = lo' + i by omega] using this
  simp only [BitVec.getLsbD_extractLsb', hi, decide_true, Bool.true_and, h.bit hb]
theorem slice {lo n : Nat} (hm : m.extractLsb' lo n = 0#n) : w.extractLsb' lo n = w'.extractLsb' lo n :=
  h.slice_in hm lo n (Nat.le_refl _) (Nat.le_refl _)
theorem guardOf_eq (hm : m.extractLsb' 52 4 = 0#4) : guardOf w = guardOf w' := by
  have hneg : w.getLsbD 55 = w'.getLsbD 55 := by
    simpa [BitVec.getLsbD_extractLsb'] using congrArg (·.getLsbD 3) (h.slice hm)
  rw [guardOf, guardOf, hneg, h.slice_in hm 52 3 (by decide) (by decide)]
theorem both_eq (hg : m.extractLsb' 52 4 = 0#4) (cl : Cls) (r : Option Instr) : both cl w r = both cl w' r := by
  simp only [both, h.guardOf_eq hg]
theorem subB_eq (hm : m.extractLsb' 32 16 = 0#16) : subB w = subB w' := h.slice hm
theorem ofsB_eq (hm : m.extractLsb' 0 32 = 0#32) : ofsB w = ofsB w' := h.slice hm
/-- The link field of CALL is bits 8:0 of SUB (R47). -/
theorem link_eq (hm : m.extractLsb' 32 9 = 0#9) : (subB w).setWidth 9 = (subB w').setWidth 9 := by
  have hl (x : DWord) : (subB x).setWidth 9 = x.extractLsb' 32 9 := BitVec.setWidth_extractLsb'_of_le (by decide)
  rw [hl, hl, h.slice hm]
theorem waOf_eq (hg : m.extractLsb' 52 4 = 0#4) (hm : m.extractLsb' 11 41 = 0#41) : waOf w = waOf w' := by
  simp only [waOf, h.guardOf_eq hg, h.slice_in hm 43 9 (by decide) (by decide), h.slice_in hm 34 9 (by decide) (by decide),
    h.slice_in hm 25 9 (by decide) (by decide), h.slice_in hm 16 9 (by decide) (by decide), h.slice_in hm 14 2 (by decide) (by decide),
    h.slice_in hm 11 3 (by decide) (by decide)]
theorem wiOf_eq (hg : m.extractLsb' 52 4 = 0#4) (hm : m.extractLsb' 33 19 = 0#19) (hi : m.extractLsb' 0 32 = 0#32) : wiOf w = wiOf w' := by
  have heta : w.getLsbD 33 = w'.getLsbD 33 := by
    simpa [BitVec.getLsbD_extractLsb'] using congrArg (·.getLsbD 0) (h.slice hm)
  rw [wiOf, wiOf, heta, h.guardOf_eq hg, h.slice_in hm 43 9 (by decide) (by decide), h.slice_in hm 34 9 (by decide) (by decide), h.slice hi]
theorem wcOf_eq (hg : m.extractLsb' 52 4 = 0#4) (hm : m.extractLsb' 9 43 = 0#43) : wcOf w = wcOf w' := by
  simp only [wcOf, h.guardOf_eq hg, h.slice_in hm 43 9 (by decide) (by decide), h.slice_in hm 34 9 (by decide) (by decide),
    h.slice_in hm 25 9 (by decide) (by decide), h.slice_in hm 9 16 (by decide) (by decide)]
end

end SameBut

/-- Format M has no reserved bits (R45). -/
theorem reservedBits_of_formatM {o : Nat} (h : 0xC0 ≤ o) : reservedBits .V o = 0#64 := by
  have hI : formatI.contains o = false := by simp [formatI]; omega
  have hB : formatB.contains o = false := by simp [formatB]; omega
  have hX : [0x86, 0x87, 0x88].contains o = false := by simp; omega
  simp only [reservedBits, hI, hB, hX, if_pos h, if_neg (show o ≠ 0x82 by omega), Bool.false_eq_true, if_false]
  rfl

/-- Each row of the V-class and S-class map reads only fields that its opcode's reserved bits leave out; in the rows of format M nothing is left out and the words are one (R45, R54). -/
theorem decodeVS_congr {w w' : DWord} (cl : Cls) (ho : opcOf w' = opcOf w) (h : SameBut (reservedBits .V (opcOf w)) w w') : decodeVS cl w = decodeVS cl w' := by
  have hM : 0xC0 ≤ opcOf w → w = w' := fun hC => (reservedBits_of_formatM hC ▸ h).eq_of_zero
  unfold decodeVS
  rw [opcOf_def, opcOf_def, ho]
  generalize opcOf w = o at *
  split
  all_goals
    simp (disch := decide) only [hM, h.waOf_eq, h.wiOf_eq, h.guardOf_eq, h.both_eq, h.subB_eq, h.link_eq, h.ofsB_eq, h.slice, h.bit, onlyV, onlyS]
theorem decodeC_congr {w w' : DWord} (ho : opcOf w' = opcOf w) (h : SameBut 0x1F0 w w') : decodeC w = decodeC w' := by
  have hsub : w.extractLsb' 0 4 = w'.extractLsb' 0 4 := h.slice (by decide)
  simp only [decodeC, opcOf_def, ho, subs, h.both_eq (by decide), hsub, h.wcOf_eq (by decide) (by decide)]
theorem decodeX_congr {w w' : DWord} (ho : opcOf w' = opcOf w) (h : SameBut (reservedBits .X (opcOf w)) w w') : decodeX w = decodeX w' := by
  unfold decodeX
  rw [opcOf_def, opcOf_def, ho]
  generalize opcOf w = o at *
  split
  all_goals
    simp (disch := decide) only [h.waOf_eq, h.wiOf_eq, h.guardOf_eq, h.slice]
/-- Two words of one opcode that differ in reserved bits only decode to the same (R17). -/
theorem decode_congr_reserved {c : Cls} {w w' : DWord} (hw : opcOf w < 0xF0) (ho : opcOf w' = opcOf w) (h : SameBut (reservedBits c (opcOf w)) w w') :
    decode c w = decode c w' := by
  unfold decode
  rw [if_neg (mt (hintBits_iff w).mp (Nat.not_le.mpr hw)), if_neg (mt (hintBits_iff w').mp (ho ▸ Nat.not_le.mpr hw))]
  cases c with
  | V => exact decodeVS_congr .V ho h
  | S => exact decodeVS_congr .S ho h
  | M => rw [h.eq_of_zero]
  | C => exact decodeC_congr ho h
  | X => exact decodeX_congr ho h

end Sys2Proof
end

section
/-! SUPPORT. An issue attempt at a word (R62), and the unit that its instruction finds. -/

namespace Sys2Proof.Machine

open Sys2Proof.Spec

/-! ## A word's fate before it executes (R62 steps 1 to 4) -/

theorem aheadOf_unassigned {c : Cls} {front : Bool} {w : DWord} (h : decode c w = .error .unassigned) : aheadOf c front w = .fault fcIllInstr := by
  simp only [aheadOf, h]
theorem aheadOf_reserved {c : Cls} {front : Bool} {w : DWord} {g : Guard} (h : decode c w = .error (.reserved g)) :
    aheadOf c front w = if g = ⟨true, 7#3⟩ then .skip else .fault fcIllInstr := by
  simp only [aheadOf, h]
theorem aheadOf_hint {c : Cls} {front : Bool} {w : DWord} (h : 0xF0 ≤ opcOf w) :
    aheadOf c front w = .run (.hint (w.extractLsb' 56 4) (w.extractLsb' 0 56)) := by
  simp only [aheadOf, decode_hint c h]

/-- What an issue attempt at a word leaves: the state, and the instruction where one is to execute. -/
def Ahead.attempt (s : State) (v : View) : Ahead → State × Option Instr
  | .fault code => (s.takeFault v.u code 0 0 0 v.g.pcOf v.g.runs, none)
  | .skip => (s.advance v, none)
  | .run i => ({ s with cur := some v.u }, some i)
/-- An issue attempt of a unit at a word comes to the word's fate. -/
theorem preIssue_atWord {s s1 : State} {u : UnitRef} {c : ClauseCtx} {w : DWord} {v : View} (h : AtWord s u c w v s1) :
    s.preIssue u = (aheadOf c.cls u.isFront w).attempt s1 v := by
  obtain ⟨g0, hb, hg, hcur, hst, hstop, hbench, hhalt, hhold, hu, hvg, hcl, rfl, hatom, hbp, hw⟩ := h
  obtain ⟨vu, b, vg⟩ := v
  obtain rfl : vu = u := hu
  obtain rfl : vg = g0.meetings.join := hvg
  dsimp only at hb hg hcur hstop hbench hhalt hcl hatom hbp hw
  unfold State.preIssue
  simp only [hb, hg]
  have hheld : (!((s.coreD b.core).cur[g0.sched]? == some (some vu))) = false := by rw [hcur, beq_self_eq_true, Bool.not_true]
  have hready : (g0.stat != .ready) = false := by rw [hst, bne_self_eq_false]
  refine (if_neg (Bool.eq_false_iff.mp ?_)).trans ?_
  · exact Bool.or_eq_false_iff.mpr ⟨Bool.or_eq_false_iff.mpr ⟨Bool.or_eq_false_iff.mpr ⟨Bool.or_eq_false_iff.mpr ⟨hheld, hready⟩, hstop⟩, hbench⟩, hhalt⟩
  · simp only [if_neg (Nat.not_le.mpr hhold), hcl, hatom, hbp, hw, Bool.false_eq_true, if_false]
    cases aheadOf c.cls vu.isFront w with
    | fault code => rfl
    | skip => rfl
    | run i => rfl

section
variable {s s1 : State} {r : List Turn} {u : UnitRef} {c : ClauseCtx} {w : DWord} {v : View}
variable (hturn : s.agenda = .issue u :: r) (h : AtWord { s with agenda := r, cur := none } u c w v s1)
include hturn h
theorem step_atWord_fault {code : Nat} (ha : aheadOf c.cls u.isFront w = .fault code) :
    step s = .next (s1.takeFault v.u code 0 0 0 v.g.pcOf v.g.runs) := by
  simp only [step, hturn, turn, issue, preIssue_atWord h, ha, Ahead.attempt]
theorem step_atWord_skip (ha : aheadOf c.cls u.isFront w = .skip) : step s = .next (s1.advance v) := by
  simp only [step, hturn, turn, issue, preIssue_atWord h, ha, Ahead.attempt]
theorem step_atWord_run {i : Instr} (ha : aheadOf c.cls u.isFront w = .run i) : step s = exec i { s1 with cur := some v.u } := by
  simp only [step, hturn, turn, issue, preIssue_atWord h, ha, Ahead.attempt]
end

theorem exec_hint {s : State} {v : View} {n : BitVec 4} {payload : BitVec 56} (hv : s.view? = some v) : exec (.hint n payload) s = .next (s.advance v) :=
  runUnit_ok (a := fun v => modA (·.advance v)) hv rfl

/-! ## Units stay where they are -/

/-- The number of groups of every block. -/
def unitsS (s : State) : Nat → Option Nat := fun n => (s.blk? n).map (·.groups.length)

theorem unitsS_of_keep {s t : State} (h : keepS t = keepS s) : unitsS t = unitsS s := by
  funext n
  have := congrArg (Option.map fun k => k.2.2.2.length) (blk_keep h n)
  simpa [unitsS, Option.map_map, Function.comp_def, keepB] using this
theorem unitsS_of_blocks {s t : State} (h : t.blocks = s.blocks) : unitsS t = unitsS s := by
  unfold unitsS State.blk?
  rw [h]
theorem unitsS_modGrp (s : State) (u : UnitRef) (f : Grp → Grp) : unitsS (s.modGrp u f) = unitsS s := by
  funext n
  unfold unitsS State.modGrp
  rw [blk_modBlk _ _ _ _ (fun b => by cases u <;> rfl)]
  split
  · subst n
    cases s.blk? u.blk with
    | none => rfl
    | some b => cases u <;> simp [Block.modGrp]
  · rfl
/-- Blocks with as many groups have the same units. -/
theorem grp_isSome_of_length {a b : Block} (h : a.groups.length = b.groups.length) (u : UnitRef) : (a.grp? u).isSome = (b.grp? u).isSome := by
  cases u with
  | front n => rfl
  | group n g => exact Bool.eq_iff_iff.mpr (by simp only [Block.grp?, isSome_getElem?, h])
/-- A unit that a state holds, every state with the same units holds. -/
theorem grp_isSome_of_units {s t : State} (h : unitsS t = unitsS s) (u : UnitRef) : (t.grp? u).isSome = (s.grp? u).isSome := by
  have hu : (t.blk? u.blk).map (·.groups.length) = (s.blk? u.blk).map (·.groups.length) := congrFun h u.blk
  unfold State.grp?
  cases ht : t.blk? u.blk <;> cases hs : s.blk? u.blk <;> rw [ht, hs] at hu
  case some.some => exact grp_isSome_of_length (Option.some.inj hu) u
  all_goals cases hu
theorem unitsS_foldl {α : Type} (f : State → α → State) (hf : ∀ s a, unitsS (f s a) = unitsS s) (l : List α) (s : State) : unitsS (l.foldl f s) = unitsS s :=
  foldl_keep unitsS f hf l s
theorem wrRuns_blocks (s : State) (rs : List Run) (bs : List Byte) : (s.wrRuns rs bs).blocks = s.blocks := by
  unfold State.wrRuns
  induction rs generalizing s bs with
  | nil => rfl
  | cons r rs ih => exact ih _ _
theorem devWrite_blocks (s : State) (c va : Nat) (bs : List Byte) : (s.devWrite c va bs).blocks = s.blocks := by
  unfold State.devWrite
  split
  · split
    · rfl
    · exact wrRuns_blocks _ _ _
  · rfl
theorem unitsS_devWrite (s : State) (c va : Nat) (bs : List Byte) : unitsS (s.devWrite c va bs) = unitsS s := unitsS_of_blocks (devWrite_blocks s c va bs)
theorem unitsS_noteWait (s : State) (u : UnitRef) (m : Mask) (gw : Option Nat) : unitsS (s.noteWait u m gw) = unitsS s := unitsS_modGrp _ _ _
theorem unitsS_endRun (s : State) (u : UnitRef) : unitsS (s.endRun u) = unitsS s := unitsS_of_keep (quiet_endRun s u).1
theorem unitsS_modCtx (s : State) (n : Nat) (f : Ctx → Ctx) : unitsS (s.modCtx n f) = unitsS s := unitsS_of_blocks (modCtx_blocks s n f)
theorem unitsS_stand (s : State) (u : UnitRef) (k : Nat) : unitsS (s.stand u k) = unitsS s := by
  unfold State.stand
  split
  · rfl
  · rw [unitsS_modGrp, unitsS_endRun, unitsS_noteWait]
theorem unitsS_stopRecord0 (s : State) (c : Nat) (r : FRec) : unitsS (s.stopRecord0 c r) = unitsS s := by
  unfold State.stopRecord0
  dsimp only
  split
  · rfl
  · exact unitsS_devWrite _ _ _ _
theorem unitsS_benchGrp {s t : State} {u : UnitRef} {k va : Nat} (h : s.benchGrp u k = some (va, t)) : unitsS t = unitsS s := by
  unfold State.benchGrp State.benchAlloc at h
  simp only [Option.bind_eq_some_iff, Option.map_eq_some_iff, Prod.mk.injEq] at h
  obtain ⟨b, -, g, -, p, ⟨o, -, rfl⟩, rfl, rfl⟩ := h
  rw [unitsS_of_keep (keepS_modBlk _ _ _ keepB_tokenCheck), unitsS_modGrp]
  have hrun (x : State) : unitsS ((x.endRun u).bump b.ctx 7 1) = unitsS x := (unitsS_modCtx _ _ _).trans (unitsS_endRun x u)
  dsimp only
  split
  · rw [unitsS_of_keep (quiet_noteStop _ _ _).1, hrun, unitsS_devWrite, unitsS_modCtx]
  · rw [hrun, unitsS_devWrite, unitsS_modCtx]
theorem unitsS_leavePage (s : State) (u : UnitRef) (b : Block) (g : Grp) (va : VAddr) (l : Nat) : unitsS (s.leavePage u b g va l) = unitsS s := by
  unfold State.leavePage
  dsimp only
  split
  · rename_i h
    split at h
    · cases h
    · rw [State.post, unitsS_modCtx, unitsS_benchGrp h, unitsS_modGrp]
  · rw [State.post, unitsS_modCtx, unitsS_stand, unitsS_modGrp]
theorem unitsS_leaveStop (s : State) (u : UnitRef) (b : Block) (g : Grp) (code : Nat) (m : Mask) (i : Nat) (pc : VAddr) (sk : Bool) :
    unitsS (s.leaveStop u b g code m i pc sk) = unitsS s := by
  unfold State.leaveStop
  dsimp only
  split
  · rename_i h
    split at h
    · cases h
    · rw [unitsS_stopRecord0, unitsS_benchGrp h, unitsS_modGrp]
  · rw [unitsS_stopRecord0, unitsS_stand, unitsS_modGrp]
theorem unitsS_leaveNow (s : State) (u : UnitRef) : unitsS (s.leaveNow u) = unitsS s := by
  unfold State.leaveNow
  split
  · rfl
  split
  · rfl
  split
  · split
    · rfl
    split
    · exact unitsS_leavePage _ _ _ _ _ _
    · exact unitsS_leaveStop _ _ _ _ _ _ _ _ _
  · rfl
theorem unitsS_meetAll (s : State) (core sched : Nat) : unitsS (s.meetAll core sched) = unitsS s := by
  unfold State.meetAll
  rw [unitsS_foldl _ unitsS_leaveNow, unitsS_foldl _ fun s u => unitsS_modGrp s u _]
theorem unitsS_tickCore (s : State) (core sched : Nat) (served : Option UnitRef) : unitsS (s.tickCore core sched served) = unitsS s := by
  unfold State.tickCore
  extract_lets us counted noted idle aged old
  have hnoted : unitsS noted = unitsS s := unitsS_foldl _ (fun s u => by
    split
    · exact unitsS_noteWait _ _ _ _
    · rfl) us counted
  have haged : unitsS aged = unitsS s := (unitsS_foldl _ (fun s u => unitsS_modGrp s u _) idle noted).trans hnoted
  split
  · exact haged
  · exact (unitsS_foldl _ (fun t u => unitsS_modGrp t u _) old aged).trans haged

theorem unit_of_atWord {s s1 : State} {u : UnitRef} {c : ClauseCtx} {w : DWord} {v : View} (h : AtWord s u c w v s1) : v.u = u := by
  obtain ⟨_, _, _, _, _, _, _, _, _, hu, _⟩ := h
  exact hu
/-- The unit at a word is one of the state that its instruction gets. -/
theorem view_of_atWord {s s1 : State} {u : UnitRef} {c : ClauseCtx} {w : DWord} {v : View} (h : AtWord s u c w v s1) :
    ∃ v2, State.view? { s1 with cur := some u } = some v2 := by
  obtain ⟨g0, hb, hg, -, -, -, -, -, -, -, -, -, rfl, -⟩ := h
  have hunits : unitsS (((s.meetAll v.b.core g0.sched).tickCore v.b.core g0.sched (some u)).modGrp u (·.join)) = unitsS s := by
    rw [unitsS_modGrp, unitsS_tickCore, unitsS_meetAll]
  have hsome := grp_isSome_of_units hunits u
  rw [grp_of_blk hb hg] at hsome
  generalize ((s.meetAll v.b.core g0.sched).tickCore v.b.core g0.sched (some u)).modGrp u (·.join) = t at hsome ⊢
  obtain ⟨g, hg⟩ := Option.isSome_iff_exists.mp hsome
  obtain ⟨b, hb, hg⟩ := Option.bind_eq_some_iff.mp hg
  refine ⟨⟨u, b, g⟩, ?_⟩
  show ((t.blk? u.blk).bind fun b => (b.grp? u).map fun g => (⟨u, b, g⟩ : View)) = _
  rw [hb, Option.bind_some, hg, Option.map_some]

end Sys2Proof.Machine
end

section
open Sys2Proof Sys2Proof.Machine Sys2Proof.Spec

/-- Settles O55: each opcode has one row or none in its class, each row reads no reserved bit, and an issue attempt at a word comes to what its decoding says. -/
theorem opcodesDecideTheWord : Obligations.OpcodesDecideTheWord := by
  unfold Obligations.OpcodesDecideTheWord
  refine ⟨decode_unassigned_iff, fun c w w' hw ho h => decode_congr_reserved hw ho h, ?_⟩
  intro s s1 r u c w v hturn h
  obtain rfl := unit_of_atWord h
  refine ⟨fun hhint => ?_, fun hd => step_atWord_fault hturn h (aheadOf_unassigned hd), fun g hd => ?_⟩
  · obtain ⟨v2, hv2⟩ := view_of_atWord h
    refine ⟨_, v2, hv2, rfl, ?_⟩
    rw [step_atWord_run hturn h (aheadOf_hint hhint)]
    exact exec_hint hv2
  · by_cases hg : g = ⟨true, 7#3⟩
    · rw [if_pos hg]
      exact step_atWord_skip hturn h (by rw [aheadOf_reserved hd, if_pos hg])
    · rw [if_neg hg]
      exact step_atWord_fault (code := fcIllInstr) hturn h (by rw [aheadOf_reserved hd, if_neg hg])
end

section
/-! SUPPORT. A register instruction of one result word: what its word decodes to and what it leaves in a lane. -/

namespace Sys2Proof

open Sys2Proof.Spec

theorem decode_registerClass {cl : Cls} (hcl : cl = .V ∨ cl = .S) {w : DWord} (h : opcOf w < 0xF0) : decode cl w = decodeVS cl w := by
  unfold decode
  rw [if_neg (mt (hintBits_iff w).mp (Nat.not_le.mpr h))]
  rcases hcl with rfl | rfl <;> rfl
/-- An opcode marked "no" in column S of the map is none of an S-class clause (R56). -/
theorem decode_S_unassigned {w : DWord} {o : Nat} (h : opcOf w = o) (hlt : o < 0xF0) (ho : notInS.contains o = true) : decode .S w = .error .unassigned := by
  rw [decode_unassigned_iff]
  refine ⟨h ▸ hlt, ?_⟩
  simp only [assigned, h, ho, Bool.not_true, Bool.and_false, Bool.false_and]

/-- The rows of IDIV and IREM in a V-class clause (R56, R92). -/
theorem decode_V_divisions (w : DWord) :
    (opcOf w = 0x08 → decode .V w = .ok (.idiv (waOf w) (w.getLsbD 0))) ∧ (opcOf w = 0x09 → decode .V w = .ok (.irem (waOf w) (w.getLsbD 0))) := by
  refine ⟨fun h => ?_, fun h => ?_⟩
  all_goals
    rw [decode_registerClass (.inl rfl) (by omega), decodeVS, opcOf_def, h]
    rfl
/-- The rows of the shifts and of the bit fields in a V-class clause (R56, R97, R99). -/
theorem decode_V_shiftsAndFields (w : DWord) :
    (opcOf w = 0x1E → decode .V w = .ok (.shl (waOf w))) ∧ (opcOf w = 0x1F → decode .V w = .ok (.shr (waOf w))) ∧
    (opcOf w = 0x20 → decode .V w = .ok (.sar (waOf w))) ∧ (opcOf w = 0x27 → decode .V w = .ok (.bfx (waOf w) (w.getLsbD 0))) ∧
    (opcOf w = 0x28 → decode .V w = .ok (.bfi (waOf w))) ∧ (opcOf w = 0x21 → decode .V w = .ok (.rotl (waOf w))) ∧
    (opcOf w = 0x22 → decode .V w = .ok (.shf (waOf w) (w.getLsbD 0))) := by
  refine ⟨fun h => ?_, fun h => ?_, fun h => ?_, fun h => ?_, fun h => ?_, fun h => ?_, fun h => ?_⟩
  all_goals
    rw [decode_registerClass (.inl rfl) (by omega), decodeVS, opcOf_def, h]
    rfl

end Sys2Proof

namespace Sys2Proof.Machine

open Sys2Proof.Spec

/-! ## Results of one word under R26 -/

/-- A lane's result of one word: `f` gives the word and its sticky bits where no source is poisoned. -/
def wordOut (f : LaneIn → Word × Flg) (x : LaneIn) : LaneOut :=
  if x.psn then { dst := some [⟨0, true⟩], flags := fPSN } else { dst := some [⟨(f x).1, false⟩], flags := (f x).2 }
/-- The row of an instruction that computes one word from the sources given. -/
def wordRow (w : WA) (src : List Src) (f : LaneIn → Word × Flg) : RegRow :=
  ⟨w.g, { src := src, dst := some ⟨w.d, 1⟩ }, fun _ _ ins => perLane (wordOut f) ins⟩

theorem wordOut_clean {f : LaneIn → Word × Flg} {x : LaneIn} (h : x.psn = false) :
    wordOut f x = { dst := some [⟨(f x).1, false⟩], flags := (f x).2 } := by simp [wordOut, h]
@[simp] theorem wordOut_retire (f : LaneIn → Word × Flg) (x : LaneIn) : (wordOut f x).retire = false := by
  unfold wordOut; split <;> rfl
theorem wordOut_dst (f : LaneIn → Word × Flg) (x : LaneIn) : ∃ y, (wordOut f x).dst = some [y] := by
  unfold wordOut; split <;> exact ⟨_, rfl⟩

/-- The results of a list of lanes are in the lanes' order. -/
theorem perLane_lanes (f : LaneIn → LaneOut) (ins : List LaneIn) : (perLane f ins).map (·.1) = ins.map (·.lane) := by
  simp [perLane]
theorem perLane_find {f : LaneIn → LaneOut} {ins : List LaneIn} (hn : (ins.map (·.lane)).Nodup) {x : LaneIn} (hx : x ∈ ins) :
    (perLane f ins).find? (·.1 == x.lane) = some (x.lane, f x) := by
  induction ins with
  | nil => cases hx
  | cons y ys ih =>
    rw [List.map_cons, List.nodup_cons] at hn
    obtain ⟨hy, hn⟩ := hn
    rw [perLane, List.map_cons, List.find?_cons]
    rcases List.mem_cons.mp hx with rfl | hx
    · simp
    · have hne : (y.lane == x.lane) = false := beq_eq_false_iff_ne.mpr fun e => hy (e ▸ List.mem_map_of_mem hx)
      rw [hne]
      exact ih hn hx

/-- Every lane of a one-word instruction pushes one entry where its destination is a port. -/
theorem pushes_wordOut {f : LaneIn → Word × Flg} {ins : List LaneIn} {d : Opnd} {q : Nat} (hq : opKind d = .port q) :
    pushCount ⟨d, 1⟩ (perLane (wordOut f) ins) = ins.length ∧ pushLanes (perLane (wordOut f) ins) = ins.map (·.lane) := by
  have hlen (x : LaneIn) : (wordOut f x).dst.elim 0 List.length = 1 := by obtain ⟨y, hy⟩ := wordOut_dst f x; rw [hy]; rfl
  have hsome (x : LaneIn) : (wordOut f x).dst.isSome = true := by obtain ⟨y, hy⟩ := wordOut_dst f x; rw [hy]; rfl
  constructor
  · simp only [pushCount, hq, perLane, List.map_map, Function.comp_def, wordOut_retire, Bool.false_eq_true, if_false, hlen]
    simp
  · simp only [pushLanes, perLane, List.filter_map, Function.comp_def, wordOut_retire, Bool.not_false, hsome, Bool.and_self, List.filter_true, List.map_map]

section
variable {w : WA} {src : List Src} {f : LaneIn → Word × Flg} {s s1 : State} {v : View} {ins : List LaneIn}
variable (h : Issues w.g { src := src, dst := some ⟨w.d, 1⟩ } w.d s v ins s1)
include h

theorem regReady_wordRow : RegReady (wordRow w src f) s v ins s1 := by
  obtain ⟨hv, hl, ha, hread, hport, -⟩ := h
  refine ⟨hv, hl, ha, hread, ?_⟩
  show portFree s1 v.u (some ⟨w.d, 1⟩) (perLane (wordOut f) ins) = true
  unfold portFree
  cases hk : opKind w.d with
  | port q => simp [(pushes_wordOut hk).1, (pushes_wordOut hk).2, hk, hport q hk]
  | _ => simp only [hk]
theorem lanes_nodup_of_issues : (ins.map (·.lane)).Nodup := by
  obtain ⟨-, -, -, hread, -⟩ := h
  rw [readAll_lanes hread]
  exact (active_nodup v w.g).filter _
/-- The effect of a one-word instruction is that of its lanes' results (R26, R161). -/
theorem exec_wordRow {i : Instr} (hr : regRow i = some (wordRow w src f)) :
    ∃ t, exec i s = .next t ∧ Effect s s1 t v.u (some ⟨w.d, 1⟩) (perLane (wordOut f) ins) := by
  refine ⟨_, exec_regReady hr (regReady_wordRow h), ?_⟩
  have hn := lanes_nodup_of_issues h
  obtain ⟨-, -, -, hread, -, hmem⟩ := h
  rw [← perLane_lanes (wordOut f) ins] at hn
  exact commitAll_effect (quiet_readAll hread) hn hmem
end

/-- Sticky and pending bits of a lane. -/
def stickyPend (s : State) (u : UnitRef) (l : Nat) : Option (Word × BitVec 7) := (thr? s u l).map fun y => (y.sticky, y.pend)
/-- The same once the flags given are set: sticky, and pending where FE enables them (R14, R15). -/
def stickyPendWith (s : State) (u : UnitRef) (l : Nat) (fl : Flg) : Option (Word × BitVec 7) :=
  (thr? s u l).map fun y => (y.sticky ||| fl.setWidth 32, y.pend ||| (fl.setWidth 7 &&& modeFE y.mode))

theorem stickyPend_of_ctl {s t : State} {u : UnitRef} {l : Nat} {fl : Flg} (h : (thr? t u l).map ctl = (thr? s u l).map fun y => ctl (y.setFlags fl)) :
    stickyPend t u l = stickyPendWith s u l fl := by
  have hbits := congrArg (Option.map fun c => (c.2.2.1, c.2.2.2.1)) h
  simpa only [stickyPend, stickyPendWith, Option.map_map, Function.comp_def, ctl, Thread.setFlags] using hbits
theorem stickyPendWith_zero (s : State) (u : UnitRef) (l : Nat) : stickyPendWith s u l 0 = stickyPend s u l := by
  simp [stickyPendWith, stickyPend]
theorem and_modeFE_idz (m : Word) : 0x20#7 &&& modeFE m = if m.getLsbD 13 then 0x20#7 else 0#7 := by
  rw [show (0x20#7) = BitVec.twoPow 7 5 from rfl, BitVec.twoPow_and, modeFE, BitVec.getLsbD_extractLsb']
  rfl
/-- IDZ is bit 5 of the sticky word, and FE[13] enables it (R14, R15). -/
theorem stickyPendWith_idz (s : State) (u : UnitRef) (l : Nat) : stickyPendWith s u l fIDZ =
    (thr? s u l).map fun y => (y.sticky ||| 0x20#32, if y.mode.getLsbD 13 then y.pend ||| 0x20#7 else y.pend) := by
  unfold stickyPendWith
  congr 1
  funext y
  rw [show fIDZ.setWidth 7 = 0x20#7 from rfl, show fIDZ.setWidth 32 = 0x20#32 from rfl, and_modeFE_idz]
  split
  · rfl
  · rw [BitVec.or_zero]

section
variable {s s1 t : State} {u : UnitRef} {d : Opnd} {f : LaneIn → Word × Flg} {ins : List LaneIn}
variable (h : Effect s s1 t u (some ⟨d, 1⟩) (perLane (wordOut f) ins)) (hn : (ins.map (·.lane)).Nodup) {x : LaneIn} (hx : x ∈ ins) (hc : x.psn = false)
include h hn hx hc
theorem reg_of_wordEffect {k : Nat} (hk : opKind d = .reg k) : reg? t u x.lane k = (reg? s u x.lane k).map fun _ => ⟨(f x).1, false, .full⟩ := by
  obtain ⟨⟨hreg, -⟩, -⟩ := h
  have hnew : newReg (some ⟨d, 1⟩) (perLane (wordOut f) ins) x.lane k = some ⟨(f x).1, false, .full⟩ := by
    simp [newReg, perLane_find hn hx, wordOut_clean hc, hk]
  rw [hreg, if_pos rfl, hnew]
theorem stickyPend_of_wordEffect : stickyPend t u x.lane = stickyPendWith s u x.lane (f x).2 := by
  obtain ⟨⟨-, hctl⟩, -⟩ := h
  refine stickyPend_of_ctl ?_
  rw [hctl, if_pos rfl, perLane_find hn hx, wordOut_clean hc]
  rfl
end

/-- A one-word instruction completes; each clean lane's register takes its word, and its sticky and pending bits its flags (R14, R15, R161). -/
theorem exec_wordRow_clean {i : Instr} {w : WA} {src : List Src} {f : LaneIn → Word × Flg} {s s1 : State} {v : View} {ins : List LaneIn}
    (h : Issues w.g { src := src, dst := some ⟨w.d, 1⟩ } w.d s v ins s1) (hr : regRow i = some (wordRow w src f)) :
    ∃ t, exec i s = .next t ∧ ∀ x ∈ ins, x.psn = false → LaneGets s t v x.lane w.d (f x).1 ∧ stickyPend t v.u x.lane = stickyPendWith s v.u x.lane (f x).2 := by
  obtain ⟨t, ht, heff⟩ := exec_wordRow h hr
  have hn := lanes_nodup_of_issues h
  exact ⟨t, ht, fun x hx hc => ⟨fun _ hk => reg_of_wordEffect heff hn hx hc hk, stickyPend_of_wordEffect heff hn hx hc⟩⟩
/-- An instruction whose row gives a clean lane the word `(f x).1` computes it. -/
theorem computes_of_wordRow {i : Instr} {w : WA} {src : List Src} {f : LaneIn → Word × Flg} {g : LaneIn → Word} (hr : regRow i = some (wordRow w src f))
    (hfg : ∀ x, (f x).1 = g x) : Computes i w src g := by
  intro s s1 v ins h
  obtain ⟨t, ht, hlane⟩ := exec_wordRow_clean h hr
  exact ⟨t, ht, fun x hx hc => hfg x ▸ (hlane x hx hc).1⟩
theorem computes_of_aRow2 {i : Instr} {w : WA} {f : Word → Word → Word} {g : LaneIn → Word} (hr : regRow i = aRow2 w f)
    (hfg : ∀ x, f (x.w 0).v (x.w 1).v = g x) : Computes i w [srcA w, srcB w] g :=
  computes_of_wordRow (f := fun x => (f (x.w 0).v (x.w 1).v, 0)) hr hfg
theorem computes_of_aRow3 {i : Instr} {w : WA} {f : Word → Word → Word → Word} {g : LaneIn → Word} (hr : regRow i = aRow3 w f)
    (hfg : ∀ x, f (x.w 0).v (x.w 1).v (x.w 2).v = g x) : Computes i w [srcA w, srcB w, srcC w] g :=
  computes_of_wordRow (f := fun x => (f (x.w 0).v (x.w 1).v (x.w 2).v, 0)) hr hfg

end Sys2Proof.Machine
end

section
/-! SUPPORT. The words of divisions, shifts and bit fields as numbers. -/

namespace Sys2Proof.Machine

open Sys2Proof.Spec

/-! ## Division (R92) -/

theorem extI_ne_zero {sgn : Bool} {b : Word} (h : b ≠ 0#32) : extI sgn b ≠ 0 := by
  unfold extI
  cases sgn with
  | true => simpa using fun e => h (BitVec.toInt_inj.mp (e.trans BitVec.toInt_zero.symm))
  | false => simpa using fun e => h (BitVec.eq_of_toNat_eq e)

theorem divRem_zero (sgn : Bool) (a : Word) : divRem sgn a 0#32 = (0xFFFFFFFF#32, a, fIDZ) := if_pos rfl
theorem divRem_overflow : divRem true 0x80000000#32 0xFFFFFFFF#32 = (0x80000000#32, 0#32, 0) := by decide
/-- Everywhere else: the quotient rounded toward zero, its remainder, and no flag. -/
theorem divRem_quotient {sgn : Bool} {a b : Word} (hb : b ≠ 0#32) (ho : ¬(sgn = true ∧ a = 0x80000000#32 ∧ b = 0xFFFFFFFF#32)) :
    divRem sgn a b = (BitVec.ofInt 32 ((extI sgn a).tdiv (extI sgn b)), BitVec.ofInt 32 ((extI sgn a).tmod (extI sgn b)), 0) := by
  rw [Int.tmod_def, Int.mul_comm (extI sgn b)]
  exact (if_neg hb).trans (if_neg ho)

/-- A nonzero remainder of a division rounded toward zero has the sign of the dividend. -/
theorem tmod_zero_or_pos_iff (x y : Int) : x.tmod y = 0 ∨ (0 < x.tmod y ↔ 0 < x) := by
  have h := Int.sign_tmod x y
  split at h
  · exact .inl (Int.sign_eq_zero_iff_zero.mp h)
  · exact .inr (by rw [← Int.sign_eq_one_iff_pos, h, Int.sign_eq_one_iff_pos])

theorem natAbs_tmod_lt {y : Int} (hy : y ≠ 0) (x : Int) : (x.tmod y).natAbs < y.natAbs := by
  rw [Int.natAbs_tmod]
  exact Nat.mod_lt _ (Int.natAbs_pos.mpr hy)
/-- IDIV and IREM complete and leave in each clean lane what `divRem` gives: quotient, remainder, and the flags of both. -/
theorem exec_divisions_clean {w : WA} {sgn : Bool} {s s1 : State} {v : View} {ins : List LaneIn}
    (h : Issues w.g { src := [srcA w, srcB w], dst := some ⟨w.d, 1⟩ } w.d s v ins s1) :
    ∃ tq tr, exec (.idiv w sgn) s = .next tq ∧ exec (.irem w sgn) s = .next tr ∧ ∀ x ∈ ins, x.psn = false →
      ∀ q r fl, divRem sgn (x.w 0).v (x.w 1).v = (q, r, fl) → (LaneGets s tq v x.lane w.d q ∧ LaneGets s tr v x.lane w.d r) ∧
        stickyPend tq v.u x.lane = stickyPendWith s v.u x.lane fl ∧ stickyPend tr v.u x.lane = stickyPendWith s v.u x.lane fl := by
  obtain ⟨tq, hexq, hq⟩ := exec_wordRow_clean (i := .idiv w sgn)
    (f := fun x => ((divRem sgn (x.w 0).v (x.w 1).v).1, (divRem sgn (x.w 0).v (x.w 1).v).2.2)) h rfl
  obtain ⟨tr, hexr, hr⟩ := exec_wordRow_clean (i := .irem w sgn)
    (f := fun x => ((divRem sgn (x.w 0).v (x.w 1).v).2.1, (divRem sgn (x.w 0).v (x.w 1).v).2.2)) h rfl
  refine ⟨tq, tr, hexq, hexr, fun x hx hc q r fl hd => ?_⟩
  obtain ⟨hqReg, hqBits⟩ := hq x hx hc
  obtain ⟨hrReg, hrBits⟩ := hr x hx hc
  rw [hd] at hqReg hqBits hrReg hrBits
  exact ⟨⟨hqReg, hrReg⟩, hqBits, hrBits⟩

/-! ## Shifts (R97) -/

theorem shiftLeft_eq_ofNat (a : Word) (n : Nat) : a <<< n = BitVec.ofNat 32 (a.toNat * 2 ^ n) :=
  BitVec.eq_of_toNat_eq (by rw [BitVec.toNat_shiftLeft, Nat.shiftLeft_eq, BitVec.toNat_ofNat])
theorem ushiftRight_eq_ofNat (a : Word) (n : Nat) : a >>> n = BitVec.ofNat 32 (a.toNat / 2 ^ n) := by
  rw [← Nat.shiftRight_eq_div_pow, ← BitVec.toNat_ushiftRight, BitVec.ofNat_toNat, BitVec.setWidth_eq]
theorem toNat_pairOf (lo hi : Word) : (pairOf lo hi).toNat = hi.toNat * 2 ^ 32 + lo.toNat := by
  rw [pairOf, BitVec.toNat_append, ← Nat.shiftLeft_add_eq_or_of_lt lo.isLt, Nat.shiftLeft_eq]
theorem lo32_eq_ofNat (x : DWord) : lo32 x = BitVec.ofNat 32 x.toNat := (BitVec.ofNat_toNat 32 x).symm
theorem hi32_eq_ofNat (x : DWord) : hi32 x = BitVec.ofNat 32 (x.toNat / 2 ^ 32) := by
  rw [hi32, ← BitVec.ofNat_toNat, BitVec.toNat_ushiftRight, Nat.shiftRight_eq_div_pow]

theorem shlW_eq (a n : Word) : shlW a n = if n.toNat < 32 then BitVec.ofNat 32 (a.toNat * 2 ^ n.toNat) else 0 := by
  rw [← shiftLeft_eq_ofNat]; rfl
theorem shrW_eq (a n : Word) : shrW a n = if n.toNat < 32 then BitVec.ofNat 32 (a.toNat / 2 ^ n.toNat) else 0 := by
  rw [← ushiftRight_eq_ofNat]; rfl
theorem sarW_eq (a n : Word) :
    sarW a n = if n.toNat < 32 then BitVec.ofInt 32 (a.toInt / 2 ^ n.toNat) else if a.getLsbD 31 then 0xFFFFFFFF else 0 := by
  rw [sarW, BitVec.sshiftRight_eq, Int.shiftRight_eq_div_pow, Nat.cast_pow, Nat.cast_ofNat]
/-- By an amount that is a multiple of 32 nothing rotates; any other amount joins two shifts. -/
theorem rotateLeft_mod_eq (a : Word) (n : Nat) : a.rotateLeft (n % 32) =
    if n % 32 = 0 then a else BitVec.ofNat 32 (a.toNat * 2 ^ (n % 32)) ||| BitVec.ofNat 32 (a.toNat / 2 ^ (32 - n % 32)) := by
  rw [BitVec.rotateLeft_def, Nat.mod_mod, ← shiftLeft_eq_ofNat, ← ushiftRight_eq_ofNat]
  split
  · next h => rw [h, BitVec.shiftLeft_zero, Nat.sub_zero, BitVec.ushiftRight_eq_zero (Nat.le_refl 32), BitVec.or_zero]
  · rfl
theorem shfW_left_eq (a b c : Word) :
    shfW false a b c = BitVec.ofNat 32 ((b.toNat * 2 ^ 32 + a.toNat) * 2 ^ (min c.toNat 32) % 2 ^ 64 / 2 ^ 32) := by
  rw [← toNat_pairOf, ← Nat.shiftLeft_eq, ← BitVec.toNat_shiftLeft, ← hi32_eq_ofNat]; rfl
theorem shfW_right_eq (a b c : Word) : shfW true a b c = BitVec.ofNat 32 ((b.toNat * 2 ^ 32 + a.toNat) / 2 ^ (min c.toNat 32)) := by
  rw [← toNat_pairOf, ← Nat.shiftRight_eq_div_pow, ← BitVec.toNat_ushiftRight, ← lo32_eq_ofNat]; rfl

/-! ## Bit fields (R99) -/

theorem fieldOf_eq (b : Word) : fieldOf b = (fieldPos b, fieldLen b) := by
  simp [fieldOf, fieldPos, fieldLen, field]
theorem fieldLen_le (b : Word) : fieldLen b ≤ 32 := by unfold fieldLen; omega

/-- The top bit of a number of `n + 1` bits. -/
theorem testBit_top {f n : Nat} (h : f < 2 ^ (n + 1)) : f.testBit n = decide (2 ^ n ≤ f) := by
  rw [Nat.pow_succ] at h
  rcases Nat.lt_or_ge f (2 ^ n) with hf | hf
  · rw [Nat.testBit_lt_two_pow hf, decide_eq_false (Nat.not_le.mpr hf)]
  · have hdiv : f / 2 ^ n = 1 := Nat.div_eq_of_lt_le (by omega) (by omega)
    rw [Nat.testBit_eq_decide_div_mod_eq, hdiv, decide_eq_true hf]
    rfl
/-- Sign extension of a field of `n` bits whose top bit is set. -/
theorem ofNat_signFill (f : Nat) {n : Nat} (hn : n ≤ 32) : BitVec.ofNat 32 (2 ^ 32 - 2 ^ n + f) = BitVec.ofInt 32 ((f : Int) - 2 ^ n) := by
  have hle : 2 ^ n ≤ 2 ^ 32 := Nat.pow_le_pow_right (by decide) hn
  have hcast : ((2 ^ 32 - 2 ^ n + f : Nat) : Int) = (f - 2 ^ n) + 2 ^ 32 := by
    rw [Nat.cast_add, Nat.cast_sub hle]; push_cast; omega
  have hwrap : BitVec.ofInt 32 (2 ^ 32) = 0#32 := by decide
  rw [← BitVec.ofInt_natCast, hcast, BitVec.ofInt_add, hwrap, BitVec.add_zero]
theorem bfxW_eq (sgn : Bool) (a b : Word) : bfxW sgn a b =
    let f := field a (fieldPos b) (fieldLen b)
    if fieldLen b = 0 then 0 else
      if sgn && f.testBit (fieldLen b - 1) then BitVec.ofNat 32 (2 ^ 32 - 2 ^ fieldLen b + f) else BitVec.ofNat 32 f := by
  rw [bfxW, fieldOf_eq]; rfl
theorem bfxW_unsigned_eq (a b : Word) :
    bfxW false a b = if fieldLen b = 0 then 0 else BitVec.ofNat 32 (field a (fieldPos b) (fieldLen b)) := by
  rw [bfxW_eq]; rfl
theorem bfxW_signed_eq (a b : Word) :
    bfxW true a b = if fieldLen b = 0 then 0 else
      let f := field a (fieldPos b) (fieldLen b)
      if f < 2 ^ (fieldLen b - 1) then BitVec.ofNat 32 f else BitVec.ofInt 32 ((f : Int) - 2 ^ fieldLen b) := by
  rw [bfxW_eq]
  by_cases h : fieldLen b = 0
  · simp only [h, if_true]
  · have hlt : field a (fieldPos b) (fieldLen b) < 2 ^ (fieldLen b - 1 + 1) := by
      rw [Nat.sub_add_cancel (Nat.pos_of_ne_zero h)]
      exact Nat.mod_lt _ (Nat.two_pow_pos _)
    simp only [h, if_false, testBit_top hlt, ofNat_signFill _ (fieldLen_le b), Bool.true_and, decide_eq_true_eq, ← Nat.not_lt, ite_not]

/-- The part of a number under a mask of `n` bits from bit `p` on. -/
theorem and_fieldMask (c p n : Nat) : c &&& (2 ^ n - 1) * 2 ^ p = c / 2 ^ p % 2 ^ n * 2 ^ p := by
  apply Nat.eq_of_testBit_eq
  intro i
  simp only [Nat.testBit_and, Nat.testBit_mul_two_pow, Nat.testBit_two_pow_sub_one, Nat.testBit_mod_two_pow, Nat.testBit_div_two_pow]
  by_cases h : p ≤ i
  · simp [h, Bool.and_comm]
  · simp [h]
/-- A number with the field of `n` bits from bit `p` on cleared: what is above it, and what is below. -/
theorem sub_fieldMask (c p n : Nat) : c - (c &&& (2 ^ n - 1) * 2 ^ p) = c / 2 ^ (p + n) * 2 ^ (p + n) + c % 2 ^ p := by
  have hlow : c / 2 ^ p * 2 ^ p + c % 2 ^ p = c := Nat.div_add_mod' _ _
  have hhigh : c / 2 ^ (p + n) * 2 ^ n + c / 2 ^ p % 2 ^ n = c / 2 ^ p := by
    rw [Nat.pow_add, ← Nat.div_div_eq_div_mul, Nat.div_add_mod']
  have hsplit : c / 2 ^ (p + n) * 2 ^ (p + n) + c / 2 ^ p % 2 ^ n * 2 ^ p + c % 2 ^ p = c := by
    conv_rhs => rw [← hlow, ← hhigh]
    ring
  rw [and_fieldMask]
  omega
theorem bfiW_eq (a b c : Word) :
    bfiW a b c = if fieldLen b = 0 then c else
      BitVec.ofNat 32 (c.toNat / 2 ^ (fieldPos b + fieldLen b) * 2 ^ (fieldPos b + fieldLen b) + field a 0 (fieldLen b) * 2 ^ fieldPos b + field c 0 (fieldPos b)) := by
  simp only [bfiW, fieldOf_eq, field, Nat.pow_zero, Nat.div_one]
  split
  · next h => simp [h, Nat.mod_one]
  · rw [sub_fieldMask, Nat.add_right_comm]

end Sys2Proof.Machine
end

section
open Sys2Proof Sys2Proof.Machine Sys2Proof.Spec

/-- Settles O59: each opcode has its row, each row is one word of the lane's sources, and that word is the number of R97 or R99. -/
theorem shiftsAndBitFields : Obligations.ShiftsAndBitFields := by
  unfold Obligations.ShiftsAndBitFields
  refine ⟨fun w => ?_, fun w => ?_⟩
  · obtain ⟨hshl, hshr, hsar, hbfx, hbfi, hrotl, hshf⟩ := decode_V_shiftsAndFields w
    exact ⟨hshl, hshr, hsar, hbfx, hbfi, fun h => ⟨hrotl h, decode_S_unassigned h (by decide) (by decide)⟩,
      fun h => ⟨hshf h, decode_S_unassigned h (by decide) (by decide)⟩⟩
  · refine ⟨?_, ?_, ?_, ?_, ?_, ?_, ?_, ?_, ?_⟩
    · exact computes_of_aRow2 rfl fun x => shlW_eq _ _
    · exact computes_of_aRow2 rfl fun x => shrW_eq _ _
    · exact computes_of_aRow2 rfl fun x => sarW_eq _ _
    · exact computes_of_aRow2 (f := fun a b => a.rotateLeft (b.toNat % 32)) rfl fun x => rotateLeft_mod_eq _ _
    · exact computes_of_aRow3 rfl fun x => shfW_left_eq _ _ _
    · exact computes_of_aRow3 rfl fun x => shfW_right_eq _ _ _
    · exact computes_of_aRow2 rfl fun x => bfxW_unsigned_eq _ _
    · exact computes_of_aRow2 rfl fun x => bfxW_signed_eq _ _
    · exact computes_of_aRow3 rfl fun x => bfiW_eq _ _ _
end

section
open Sys2Proof Sys2Proof.Machine Sys2Proof.Spec

/-- Settles O58: IDIV and IREM are rows of one word each, which `divRem` gives with its flag; the quotient rounded toward zero and its remainder are `Int.tdiv` and `Int.tmod`. -/
theorem divisionAndRemainder : Obligations.DivisionAndRemainder := by
  unfold Obligations.DivisionAndRemainder
  refine ⟨fun w h => ⟨(decode_V_divisions w).1 h, decode_S_unassigned h (by decide) (by decide)⟩,
    fun w h => ⟨(decode_V_divisions w).2 h, decode_S_unassigned h (by decide) (by decide)⟩, ?_⟩
  intro w sgn s s1 v ins h
  obtain ⟨tq, tr, hexq, hexr, hlane⟩ := exec_divisions_clean (sgn := sgn) h
  refine ⟨tq, tr, hexq, hexr, fun x hx hc => ?_⟩
  intro a b ext both bits same idz
  have hout : ∀ q r fl, divRem sgn a b = (q, r, fl) → both q r ∧ bits tq = stickyPendWith s v.u x.lane fl ∧ bits tr = stickyPendWith s v.u x.lane fl :=
    hlane x hx hc
  refine ⟨fun hb => ?_, fun _ hs ha hb => ?_, fun hb ho => ?_⟩
  · have hd : divRem sgn a b = (0xFFFFFFFF#32, a, fIDZ) := hb ▸ divRem_zero sgn a
    have h := hout _ _ _ hd
    rwa [stickyPendWith_idz] at h
  · have hd : divRem sgn a b = (0x80000000#32, 0#32, 0) := by rw [hs, ha, hb, divRem_overflow]
    have h := hout _ _ _ hd
    rwa [stickyPendWith_zero] at h
  · have h := hout _ _ _ (divRem_quotient hb ho)
    rw [stickyPendWith_zero] at h
    exact ⟨(ext a).tdiv (ext b), (ext a).tmod (ext b), (Int.tdiv_mul_add_tmod _ _).symm, natAbs_tmod_lt (extI_ne_zero hb) _, tmod_zero_or_pos_iff _ _, h⟩
end

section
/-! SUPPORT. The fields of an encoded word, format by format, and what the codes of its fields decode to (R42 to R48, R54). -/

namespace Sys2Proof

open Sys2Proof.Spec

/-! ## Slices of words laid out side by side -/

theorem toNat_append_add {n m : Nat} (x : BitVec n) (y : BitVec m) : (x ++ y).toNat = x.toNat * 2 ^ m + y.toNat := by
  rw [BitVec.toNat_append, ← Nat.shiftLeft_add_eq_or_of_lt y.isLt, Nat.shiftLeft_eq]
theorem slice_of_toNat {w : DWord} {lo n : Nat} {x : BitVec n} (h : w.toNat / 2 ^ lo % 2 ^ n = x.toNat) : w.extractLsb' lo n = x := by
  apply BitVec.eq_of_toNat_eq
  rw [BitVec.extractLsb'_toNat, Nat.shiftRight_eq_div_pow, h]
theorem bit_of_slice {w : DWord} {k : Nat} {b : Bool} (h : w.extractLsb' k 1 = BitVec.ofBool b) : w.getLsbD k = b := by
  have := congrArg (·.getLsbD 0) h
  simpa [BitVec.getLsbD_extractLsb'] using this
/-- A part of a field of a word is the word's slice there. -/
theorem slice_sub {w : DWord} {lo n : Nat} {x : BitVec n} (h : w.extractLsb' lo n = x) {k m : Nat} (hk : k + m ≤ n) : w.extractLsb' (lo + k) m = x.extractLsb' k m := by
  subst h
  apply BitVec.eq_of_getLsbD_eq
  intro i hi
  simp [hi, show k + i < n by omega, Nat.add_assoc]
theorem encG_low (g : Guard) : (encG g).extractLsb' 0 3 = g.p := by
  obtain ⟨neg, p⟩ := g
  revert neg p
  decide
theorem encG_high (g : Guard) : (encG g).extractLsb' 3 1 = BitVec.ofBool g.neg := by
  obtain ⟨neg, p⟩ := g
  revert neg p
  decide
theorem guardOf_of_slice {w : DWord} {g : Guard} (h : w.extractLsb' 52 4 = encG g) : guardOf w = g := by
  have hp : w.extractLsb' 52 3 = g.p := by
    rw [show (52 : Nat) = 52 + 0 from rfl, slice_sub h (by decide)]
    exact encG_low g
  have hn : w.getLsbD 55 = g.neg := by
    refine bit_of_slice ?_
    rw [show (55 : Nat) = 52 + 3 from rfl, slice_sub h (by decide)]
    exact encG_high g
  rw [guardOf, hp, hn]
theorem opcOf_of_slice {w : DWord} {o : BitVec 8} (h : w.extractLsb' 56 8 = o) : opcOf w = o.toNat := by rw [opcOf, h]

/-! ## Format A (R43) -/

section
variable (o : BitVec 8) (w : WA) (md : BitVec 11)
theorem toNat_encA : (encA o w md).toNat = o.toNat * 2 ^ 56 + (encG w.g).toNat * 2 ^ 52 + w.d.toNat * 2 ^ 43 + w.a.toNat * 2 ^ 34 + w.b.toNat * 2 ^ 25 +
    w.c.toNat * 2 ^ 16 + w.ret.toNat * 2 ^ 14 + w.et.toNat * 2 ^ 11 + md.toNat := by
  unfold encA
  rw [toNat_append_add, toNat_append_add, toNat_append_add, toNat_append_add, toNat_append_add, toNat_append_add, toNat_append_add, toNat_append_add]
  omega
theorem encA_fields : (encA o w md).extractLsb' 56 8 = o ∧ guardOf (encA o w md) = w.g ∧ (encA o w md).extractLsb' 43 9 = w.d ∧ (encA o w md).extractLsb' 34 9 = w.a ∧
    (encA o w md).extractLsb' 25 9 = w.b ∧ (encA o w md).extractLsb' 16 9 = w.c ∧ (encA o w md).extractLsb' 14 2 = w.ret ∧ (encA o w md).extractLsb' 11 3 = w.et ∧
    (encA o w md).extractLsb' 0 11 = md := by
  have hg := (encG w.g).isLt
  refine ⟨slice_of_toNat ?_, guardOf_of_slice (slice_of_toNat ?_), slice_of_toNat ?_, slice_of_toNat ?_, slice_of_toNat ?_, slice_of_toNat ?_, slice_of_toNat ?_,
    slice_of_toNat ?_, slice_of_toNat ?_⟩
  all_goals
    rw [toNat_encA]
    omega
@[simp] theorem opcOf_encA : opcOf (encA o w md) = o.toNat := opcOf_of_slice (encA_fields o w md).1
@[simp] theorem waOf_encA : waOf (encA o w md) = w := by
  obtain ⟨-, hg, hd, ha, hb, hc, hret, het, -⟩ := encA_fields o w md
  rw [waOf, hg, hd, ha, hb, hc, hret, het]
theorem slice_encA {lo n : Nat} (h : lo + n ≤ 11) : (encA o w md).extractLsb' lo n = md.extractLsb' lo n := by
  obtain ⟨-, -, -, -, -, -, -, -, hmd⟩ := encA_fields o w md
  simpa using slice_sub hmd (k := lo) h
theorem bit_encA {k : Nat} (h : k < 11) : (encA o w md).getLsbD k = md.getLsbD k := by
  have := congrArg (·.getLsbD 0) (slice_encA o w md (lo := k) (n := 1) h)
  simpa [BitVec.getLsbD_extractLsb'] using this
end

/-! ## Format I (R44) -/

section
variable (o : BitVec 8) (w : WI)
theorem toNat_encI : (encI o w).toNat = o.toNat * 2 ^ 56 + (encG w.g).toNat * 2 ^ 52 + w.d.toNat * 2 ^ 43 + w.a.toNat * 2 ^ 34 + (BitVec.ofBool w.eta).toNat * 2 ^ 33 + w.imm.toNat := by
  unfold encI
  rw [toNat_append_add, toNat_append_add, toNat_append_add, toNat_append_add, toNat_append_add, toNat_append_add]
  simp only [BitVec.toNat_ofNat]
  omega
theorem encI_fields : (encI o w).extractLsb' 56 8 = o ∧ guardOf (encI o w) = w.g ∧ (encI o w).extractLsb' 43 9 = w.d ∧ (encI o w).extractLsb' 34 9 = w.a ∧
    (encI o w).getLsbD 33 = w.eta ∧ (encI o w).extractLsb' 0 32 = w.imm := by
  have hg := (encG w.g).isLt
  have he := (BitVec.ofBool w.eta).isLt
  refine ⟨slice_of_toNat ?_, guardOf_of_slice (slice_of_toNat ?_), slice_of_toNat ?_, slice_of_toNat ?_, bit_of_slice (slice_of_toNat ?_), slice_of_toNat ?_⟩
  all_goals
    rw [toNat_encI]
    omega
@[simp] theorem opcOf_encI : opcOf (encI o w) = o.toNat := opcOf_of_slice (encI_fields o w).1
@[simp] theorem wiOf_encI : wiOf (encI o w) = w := by
  obtain ⟨-, hg, hd, ha, he, hi⟩ := encI_fields o w
  rw [wiOf, hg, hd, ha, he, hi]
end

/-! ## Format B (R47) -/

section
variable (o : BitVec 8) (g : Guard) (sub : BitVec 16) (ofs : Word)
theorem toNat_encB : (encB o g sub ofs).toNat = o.toNat * 2 ^ 56 + (encG g).toNat * 2 ^ 52 + sub.toNat * 2 ^ 32 + ofs.toNat := by
  unfold encB
  rw [toNat_append_add, toNat_append_add, toNat_append_add, toNat_append_add]
  simp only [BitVec.toNat_ofNat]
  omega
theorem encB_fields : (encB o g sub ofs).extractLsb' 56 8 = o ∧ guardOf (encB o g sub ofs) = g ∧ subB (encB o g sub ofs) = sub ∧ ofsB (encB o g sub ofs) = ofs := by
  have hg := (encG g).isLt
  refine ⟨slice_of_toNat ?_, guardOf_of_slice (slice_of_toNat ?_), slice_of_toNat ?_, slice_of_toNat ?_⟩
  all_goals
    rw [toNat_encB]
    omega
@[simp] theorem opcOf_encB : opcOf (encB o g sub ofs) = o.toNat := opcOf_of_slice (encB_fields o g sub ofs).1
@[simp] theorem guardOf_encB : guardOf (encB o g sub ofs) = g := (encB_fields o g sub ofs).2.1
@[simp] theorem subB_encB : subB (encB o g sub ofs) = sub := (encB_fields o g sub ofs).2.2.1
@[simp] theorem ofsB_encB : ofsB (encB o g sub ofs) = ofs := (encB_fields o g sub ofs).2.2.2
end

/-! ## Format M (R45, R46) -/

@[simp] theorem widthOf_code (x : Width) : widthOf (widthCode x) = some x := by cases x <;> rfl
@[simp] theorem scopeOf_code (x : Scope) : scopeOf (scopeCode x) = some x := by cases x <;> rfl
@[simp] theorem orderOf_code (x : Order) : orderOf (orderCode x) = x := by cases x <;> rfl

section
variable (o : BitVec 8) (w : WM) (spc : BitVec 2) (sub : BitVec 4)
theorem toNat_encM : (encM o w spc sub).toNat = o.toNat * 2 ^ 56 + (encG w.g).toNat * 2 ^ 52 + w.data.toNat * 2 ^ 43 + w.base.toNat * 2 ^ 34 + (scopeCode w.scope).toNat * 2 ^ 31 +
    (orderCode w.ord).toNat * 2 ^ 29 + (widthCode w.wid).toNat * 2 ^ 26 + spc.toNat * 2 ^ 24 + sub.toNat * 2 ^ 20 + w.ofs.toNat := by
  unfold encM
  rw [toNat_append_add, toNat_append_add, toNat_append_add, toNat_append_add, toNat_append_add, toNat_append_add, toNat_append_add, toNat_append_add, toNat_append_add]
  omega
theorem encM_fields : (encM o w spc sub).extractLsb' 56 8 = o ∧ guardOf (encM o w spc sub) = w.g ∧ (encM o w spc sub).extractLsb' 43 9 = w.data ∧
    (encM o w spc sub).extractLsb' 34 9 = w.base ∧ (encM o w spc sub).extractLsb' 31 3 = scopeCode w.scope ∧ (encM o w spc sub).extractLsb' 29 2 = orderCode w.ord ∧
    (encM o w spc sub).extractLsb' 26 3 = widthCode w.wid ∧ spcM (encM o w spc sub) = spc ∧ subM (encM o w spc sub) = sub ∧ (encM o w spc sub).extractLsb' 0 20 = w.ofs := by
  have hg := (encG w.g).isLt
  have hs := (scopeCode w.scope).isLt
  have ho := (orderCode w.ord).isLt
  have hw := (widthCode w.wid).isLt
  refine ⟨slice_of_toNat ?_, guardOf_of_slice (slice_of_toNat ?_), slice_of_toNat ?_, slice_of_toNat ?_, slice_of_toNat ?_, slice_of_toNat ?_, slice_of_toNat ?_,
    slice_of_toNat ?_, slice_of_toNat ?_, slice_of_toNat ?_⟩
  all_goals
    rw [toNat_encM]
    omega
@[simp] theorem opcOf_encM : opcOf (encM o w spc sub) = o.toNat := opcOf_of_slice (encM_fields o w spc sub).1
@[simp] theorem spcM_encM : spcM (encM o w spc sub) = spc := by
  obtain ⟨-, -, -, -, -, -, -, h, -, -⟩ := encM_fields o w spc sub
  exact h
@[simp] theorem subM_encM : subM (encM o w spc sub) = sub := by
  obtain ⟨-, -, -, -, -, -, -, -, h, -⟩ := encM_fields o w spc sub
  exact h
/-- A word of format M is read back; a plain one had no scope (R46). -/
theorem wmOf_encM (h : w.scopeOk = true) : wmOf (encM o w spc sub) = some w := by
  obtain ⟨-, hg, hd, hb, hs, ho, hw, -, -, hofs⟩ := encM_fields o w spc sub
  have hsc : (if w.ord = .plain then some .thread else scopeOf (scopeCode w.scope)) = some w.scope := by
    simp only [WM.scopeOk, Bool.or_eq_true, bne_iff_ne, beq_iff_eq] at h
    split
    · next hp => rw [h.resolve_left (not_not_intro hp)]
    · exact scopeOf_code _
  simp only [wmOf, hg, hd, hb, hs, ho, hw, hofs, widthOf_code, orderOf_code, Option.bind_some, hsc, Option.map_some]
end

/-! ## Format E (R48) -/

section
variable (o : BitVec 8) (w : WE) (sub : BitVec 4)
theorem toNat_encE : (encE o w sub).toNat = o.toNat * 2 ^ 56 + (encG w.g).toNat * 2 ^ 52 + w.a.toNat * 2 ^ 43 + w.b.toNat * 2 ^ 34 + w.c.toNat * 2 ^ 25 + w.wait.toNat * 2 ^ 9 +
    w.set.toNat * 2 ^ 5 + (BitVec.ofBool w.sen).toNat * 2 ^ 4 + sub.toNat := by
  unfold encE
  rw [toNat_append_add, toNat_append_add, toNat_append_add, toNat_append_add, toNat_append_add, toNat_append_add, toNat_append_add, toNat_append_add]
  omega
theorem encE_fields : (encE o w sub).extractLsb' 56 8 = o ∧ guardOf (encE o w sub) = w.g ∧ (encE o w sub).extractLsb' 43 9 = w.a ∧ (encE o w sub).extractLsb' 34 9 = w.b ∧
    (encE o w sub).extractLsb' 25 9 = w.c ∧ (encE o w sub).extractLsb' 9 16 = w.wait ∧ (encE o w sub).extractLsb' 5 4 = w.set ∧ (encE o w sub).getLsbD 4 = w.sen ∧
    (encE o w sub).extractLsb' 0 4 = sub := by
  have hg := (encG w.g).isLt
  have hs := (BitVec.ofBool w.sen).isLt
  refine ⟨slice_of_toNat ?_, guardOf_of_slice (slice_of_toNat ?_), slice_of_toNat ?_, slice_of_toNat ?_, slice_of_toNat ?_, slice_of_toNat ?_, slice_of_toNat ?_,
    bit_of_slice (slice_of_toNat ?_), slice_of_toNat ?_⟩
  all_goals
    rw [toNat_encE]
    omega
@[simp] theorem opcOf_encE : opcOf (encE o w sub) = o.toNat := opcOf_of_slice (encE_fields o w sub).1
@[simp] theorem weOf_encE : weOf (encE o w sub) = w := by
  obtain ⟨-, hg, ha, hb, hc, hw, hset, hsen, -⟩ := encE_fields o w sub
  rw [weOf, hg, ha, hb, hc, hw, hset, hsen]
theorem sub_encE : (encE o w sub).extractLsb' 0 4 = sub := by
  obtain ⟨-, -, -, -, -, -, -, -, h⟩ := encE_fields o w sub
  exact h
end

section
variable (o : BitVec 8) (w : WC) (sub : BitVec 4)
/-- In the C class the bits of SET and SEN are 0 (R48). -/
theorem encC_eq : encC o w sub = encE o ⟨w.g, w.a, w.b, w.c, w.wait, 0#4, false⟩ sub := by
  apply BitVec.eq_of_toNat_eq
  rw [toNat_encE]
  unfold encC
  rw [toNat_append_add, toNat_append_add, toNat_append_add, toNat_append_add, toNat_append_add, toNat_append_add, toNat_append_add]
  simp only [BitVec.toNat_ofNat, show (BitVec.ofBool false).toNat = 0 from rfl]
  omega
@[simp] theorem opcOf_encC : opcOf (encC o w sub) = o.toNat := by rw [encC_eq, opcOf_encE]
@[simp] theorem wcOf_encC : wcOf (encC o w sub) = w := by
  have h := weOf_encE o ⟨w.g, w.a, w.b, w.c, w.wait, 0#4, false⟩ sub
  rw [← encC_eq] at h
  simp only [weOf, WE.mk.injEq] at h
  obtain ⟨hg, ha, hb, hc, hw, -, -⟩ := h
  rw [wcOf, hg, ha, hb, hc, hw]
theorem sub_encC : (encC o w sub).extractLsb' 0 4 = sub := by rw [encC_eq, sub_encE]
end

/-! ## Codes in MOD (R54) -/

theorem slice_at11_same {n : Nat} (k : Nat) (x : BitVec n) (h : k + n ≤ 11) : (at11 k x).extractLsb' k n = x := by
  apply BitVec.eq_of_getLsbD_eq
  intro i hi
  simp [at11, hi, show k + i < 11 by omega]
theorem slice_at11_off {n : Nat} (k : Nat) (x : BitVec n) {lo m : Nat} (h : lo + m ≤ k ∨ k + n ≤ lo) : (at11 k x).extractLsb' lo m = 0#m := by
  apply BitVec.eq_of_getLsbD_eq
  intro i hi
  have : lo + i < k ∨ k + n ≤ lo + i := by omega
  rcases this with h | h
  · simp [at11, BitVec.getLsbD_shiftLeft, hi, h]
  · simp [at11, BitVec.getLsbD_shiftLeft, hi, BitVec.getLsbD_of_ge x (lo + i - k) (by omega)]
theorem bbit_eq (k : Nat) (b : Bool) : bbit k b = at11 k (BitVec.ofBool b) := by cases b <;> simp [bbit, at11]
theorem setWidth_eq_at11 {n : Nat} (x : BitVec n) : x.setWidth 11 = at11 0 x := by simp [at11]
/-- A bit is a field of one bit. -/
theorem bit_eq_slice (x : BitVec 11) (k : Nat) : x.getLsbD k = (x.extractLsb' k 1).getLsbD 0 := by simp

@[simp] theorem cmpOf_code (x : Cmp) : cmpOf (cmpCode x) = some x := by cases x <;> rfl
@[simp] theorem fFmtOf_code (x : FFmt) : fFmtOf (fFmtCode x) = some x := by cases x <;> rfl
@[simp] theorem rndOf_code (x : Option Rnd) : rndOf (rndCode x) = some x := by rcases x with _ | _ | _ <;> rfl
@[simp] theorem cFmtOf_code (x : CFmt) : cFmtOf (cFmtCode x) = some x := by rcases x with _ | _ | (_ | _ | _) | (_ | _) <;> rfl
@[simp] theorem iFmtOf_code (x : FFmt) : iFmtOf (cFmtCode (.f x)) = some x := by cases x <;> rfl
@[simp] theorem nFmtOf_code (x : NFmt) : nFmtOf (cFmtCode (.n x)) = some x := by cases x <;> rfl
@[simp] theorem pOpOf_code (x : POp) : pOpOf (pOpCode x) = x := by cases x <;> rfl
@[simp] theorem shModeOf_code (x : ShMode) : shModeOf (shModeCode x) = some x := by cases x <;> rfl
@[simp] theorem segOf_code (x : Seg) : segOf (segCode x) = some x := by cases x <;> rfl
@[simp] theorem voteOf_code (x : VoteOp) : voteOf (voteCode x) = some x := by cases x <;> rfl
@[simp] theorem redOf_code (x : RedOp) : redOf (redCode x) = some x := by cases x <;> rfl
@[simp] theorem atomOpOf_code (x : AtomOp) : atomOpOf (atomCode x) = some x := by cases x <;> rfl
@[simp] theorem aSpaceOf_code (x : ASpace) : aSpaceOf (aSpaceCode x) = some x := by cases x <;> rfl

/-! ## Which map reads an encoded word -/

theorem decode_M {w : DWord} (h : opcOf w < 0xF0) : decode .M w = decodeM w := by
  rw [decode, if_neg (mt (hintBits_iff w).mp (Nat.not_le.mpr h))]
theorem decode_C {w : DWord} (h : opcOf w < 0xF0) : decode .C w = decodeC w := by
  rw [decode, if_neg (mt (hintBits_iff w).mp (Nat.not_le.mpr h))]
theorem decode_X {w : DWord} (h : opcOf w < 0xF0) : decode .X w = decodeX w := by
  rw [decode, if_neg (mt (hintBits_iff w).mp (Nat.not_le.mpr h))]
end Sys2Proof
end

section
/-! SUPPORT. Decoding undoes encoding: each row of the encoder is read by the row of the map with its opcode. -/
namespace Sys2Proof
open Sys2Proof.Spec

/-! ## Rows that decode -/

theorem both_ok {cl : Cls} {w : DWord} {r : Option Instr} {i : Instr} (h : r = some i) : both cl w r = .ok i := by rw [h, both]
theorem onlyV_ok {w : DWord} {r : Option Instr} {i : Instr} (h : r = some i) : onlyV .V w r = .ok i := by rw [onlyV, if_pos rfl, both_ok h]
theorem onlyS_ok {w : DWord} {r : Option Instr} {i : Instr} (h : r = some i) : onlyS .S w r = .ok i := by rw [onlyS, if_pos rfl, both_ok h]
theorem subs_ok {w : DWord} {sub : BitVec 4} {forms : List Instr} {i : Instr} (hs : w.extractLsb' 0 4 = sub) (h : forms[sub.toNat]? = some i) : subs w forms = .ok i := by
  rw [subs, hs, both_ok h]

/-- A word of format M that passes a check of its order codes passes that of its scope (R46). -/
theorem scopeOk_of_order {w : WM} (h : w.ordLoad = true ∨ w.ordStore = true ∨ w.ordBB = true ∨ w.atomWidth = true ∨ (w.ord != .plain) = true) : w.scopeOk = true := by
  rcases h with h | h | h | h | h
  · exact (Bool.and_eq_true_iff.mp h).1
  · exact (Bool.and_eq_true_iff.mp h).1
  · exact (Bool.and_eq_true_iff.mp (Bool.and_eq_true_iff.mp h).1).1
  · exact (Bool.and_eq_true_iff.mp h).1
  · rw [WM.scopeOk, h, Bool.true_or]
theorem loadOf_encM {o : BitVec 8} {w : WM} {spc : BitVec 2} {sx : Bool} (h : (w.ordLoad && w.sxOk sx) = true) :
    loadOf (encM o w spc (if sx then 1 else 0)) = some (w, sx) := by
  obtain ⟨ho, hx⟩ := Bool.and_eq_true_iff.mp h
  cases sx <;> simp [loadOf, wmOf_encM _ _ _ _ (scopeOk_of_order (.inl ho)), ho, hx]
theorem storeOf_encM {o : BitVec 8} {w : WM} {spc : BitVec 2} (h : w.ordStore = true) : storeOf (encM o w spc 0) = some w := by
  simp [storeOf, wmOf_encM _ _ _ _ (scopeOk_of_order (.inr (.inl h))), h]
theorem bbOf_encM {o : BitVec 8} {w : WM} (h : w.ordBB = true) : bbOf (encM o w 0 0) = some w := by
  simp [bbOf, wmOf_encM _ _ _ _ (scopeOk_of_order (.inr (.inr (.inl h)))), h]
theorem atomOf_encM {o : BitVec 8} {w : WM} {sp : ASpace} {op : AtomOp} (h : w.atomWidth = true) : atomOf (encM o w (aSpaceCode sp) (atomCode op)) = some (.atom w sp op) := by
  simp [atomOf, wmOf_encM _ _ _ _ (scopeOk_of_order (.inr (.inr (.inr (.inl h))))), h]
theorem acasOf_encM {o : BitVec 8} {w : WM} {sp : ASpace} (h : w.atomWidth = true) : acasOf (encM o w (aSpaceCode sp) 0) = some (.acas w sp) := by
  simp [acasOf, wmOf_encM _ _ _ _ (scopeOk_of_order (.inr (.inr (.inr (.inl h))))), h]
theorem preswOf_encM {o : BitVec 8} {w : WM} {b : Bool} (h : w.ordStore = true) : preswOf (encM o w 0 (if b then 1 else 0)) = some (.presw w b) := by
  cases b <;> simp [preswOf, wmOf_encM _ _ _ _ (scopeOk_of_order (.inr (.inl h))), h]
theorem presqOf_encM {o : BitVec 8} {w : WM} (h : w.ordLoad = true) : presqOf (encM o w 0 0) = some (.presq w) := by
  simp [presqOf, wmOf_encM _ _ _ _ (scopeOk_of_order (.inl h)), h]
theorem fenceOf_encM {o : BitVec 8} {w : WM} (h : (w.ord != .plain) = true) : fenceOf (encM o w 0 0) = some (.fence w) := by
  simp only [fenceOf, wmOf_encM _ _ _ _ (scopeOk_of_order (.inr (.inr (.inr (.inr h))))), Option.bind_some, spcM_encM, h]
  rfl
theorem hintWord_fields (n : BitVec 4) (p : BitVec 56) : 0xF0 ≤ opcOf ((0xF#4 ++ n) ++ p) ∧ ((0xF#4 ++ n) ++ p).extractLsb' 56 4 = n ∧ ((0xF#4 ++ n) ++ p).extractLsb' 0 56 = p := by
  have hw : ((0xF#4 ++ n) ++ p).toNat = 15 * 2 ^ 60 + n.toNat * 2 ^ 56 + p.toNat := by
    rw [toNat_append_add, toNat_append_add]
    simp only [BitVec.toNat_ofNat]
    omega
  refine ⟨?_, slice_of_toNat ?_, slice_of_toNat ?_⟩
  · rw [opcOf, BitVec.extractLsb'_toNat, Nat.shiftRight_eq_div_pow, hw]
    omega
  all_goals
    rw [hw]
    omega

/-- Every well-formed instruction is what its word decodes to: the word's opcode finds its row, and the row reads the fields back (R35, R42 to R61). -/
theorem decode_encode {i : Instr} {c : Cls} {w : DWord} (hwf : wellFormed i = true) (h : encode i = some (c, w)) : decode c w = .ok i := by
  cases i
  all_goals
    simp only [encode, Option.some.injEq, Prod.mk.injEq, reduceCtorEq] at h
  all_goals obtain ⟨rfl, rfl⟩ := h
  case iadd | isub | iaddc | isubb | imul | imulh | imad | iabs | ineg | imin | imax | lea | iadd64 | imad64 | isetp | psetp | sel | mov | movp | and | or | xor | andn |
      not | shl | shr | sar | popc | clz | ctz | bfx | bfi | brx | callx | ret | sread | swrite | qtry | qlen | chsend | chrecv | rtlaunch | rtclaim | gsig | gwait =>
    rw [decode_registerClass (.inl rfl) (by rw [opcOf_encA]; decide), decodeVS, opcOf_def, opcOf_encA]
    refine both_ok ?_
    simp (disch := decide) only [waOf_encA, slice_encA, bit_encA, encCarry, encPLogic, BitVec.extractLsb'_or, slice_at11_same, slice_at11_off, bbit_eq, setWidth_eq_at11,
      bit_eq_slice, BitVec.zero_or, BitVec.or_zero, BitVec.getLsbD_ofBool, cmpOf_code, pOpOf_code, Option.map_some, decide_true, Bool.true_and]
  case imadw | idiv | irem | iclamp | bmix | rotl | shf | brev | bswz | fadd | fmul | ffma | fmin | fmax | frnd | fclass | fsetp | hadd2 | hmul2 | hfma2 | frcp | frsq |
      fsqrt | fexp2 | flog2 | ftanh | ncvt | ndec | shfl | vote | ballot | elect | actmask | matchLanes | redux | scan | nscale =>
    rw [decode_registerClass (.inl rfl) (by rw [opcOf_encA]; decide), decodeVS, opcOf_def, opcOf_encA]
    refine onlyV_ok ?_
    simp (disch := decide) only [waOf_encA, slice_encA, bit_encA, BitVec.extractLsb'_or, slice_at11_same, slice_at11_off, bbit_eq, setWidth_eq_at11,
      bit_eq_slice, BitVec.zero_or, BitVec.or_zero, BitVec.getLsbD_ofBool, cmpOf_code, fFmtOf_code, rndOf_code, iFmtOf_code, nFmtOf_code, shModeOf_code, segOf_code, voteOf_code,
      redOf_code, Option.map_some, Option.bind_some, decide_true, Bool.true_and]
  case cvt =>
    rw [decode_registerClass (.inl rfl) (by rw [opcOf_encA]; decide), decodeVS, opcOf_def, opcOf_encA]
    refine onlyV_ok ?_
    simp only [wellFormed, bne_iff_ne] at hwf
    simp (disch := decide) only [waOf_encA, slice_encA, BitVec.extractLsb'_or, slice_at11_same, slice_at11_off, setWidth_eq_at11,
      BitVec.zero_or, BitVec.or_zero, rndOf_code, cFmtOf_code, Option.bind_some, hwf, if_false]
  case trayw =>
    rw [decode_registerClass (.inr rfl) (by rw [opcOf_encA]; decide), decodeVS, opcOf_def, opcOf_encA]
    exact onlyS_ok (by rw [waOf_encA])
  case movi | iaddImm | imulImm | andImm | orImm | xorImm | shlImm | shrImm | sarImm | qcfg | ptok =>
    rw [decode_registerClass (.inl rfl) (by rw [opcOf_encI]; decide), decodeVS, opcOf_def, opcOf_encI]
    exact both_ok (by rw [wiOf_encI])
  case bar | cbar =>
    rw [decode_registerClass (.inl rfl) (by rw [opcOf_encI]; decide), decodeVS, opcOf_def, opcOf_encI]
    exact onlyV_ok (by rw [wiOf_encI])
  case ssel =>
    rw [decode_registerClass (.inr rfl) (by rw [opcOf_encI]; decide), decodeVS, opcOf_def, opcOf_encI]
    exact onlyS_ok (by rw [wiOf_encI])
  case bra | call | exit | yield | nop =>
    rw [decode_registerClass (.inl rfl) (by rw [opcOf_encB]; decide), decodeVS, opcOf_def, opcOf_encB]
    exact both_ok (by simp)
  case meet =>
    rw [decode_registerClass (.inl rfl) (by rw [opcOf_encB]; decide), decodeVS, opcOf_def, opcOf_encB]
    exact onlyV_ok (by simp)
  case lds sx | ldp sx =>
    rw [decode_registerClass (.inl rfl) (by rw [opcOf_encM]; decide), decodeVS, opcOf_def, opcOf_encM, spcM_encM]
    exact both_ok (by rw [loadOf_encM hwf]; rfl)
  case ldk =>
    rw [decode_registerClass (.inl rfl) (by rw [opcOf_encM]; decide), decodeVS, opcOf_def, opcOf_encM, spcM_encM]
    exact onlyV_ok (by rw [loadOf_encM hwf]; rfl)
  case sts | stp =>
    rw [decode_registerClass (.inl rfl) (by rw [opcOf_encM]; decide), decodeVS, opcOf_def, opcOf_encM, spcM_encM]
    exact both_ok (by rw [storeOf_encM hwf]; rfl)
  case stk =>
    rw [decode_registerClass (.inl rfl) (by rw [opcOf_encM]; decide), decodeVS, opcOf_def, opcOf_encM, spcM_encM]
    exact onlyV_ok (by rw [storeOf_encM hwf]; rfl)
  case' atom | acas | presw | presq | fence | bbinit | bbexp | bbarv | bbwait =>
    rw [decode_registerClass (.inl rfl) (by rw [opcOf_encM]; decide), decodeVS, opcOf_def, opcOf_encM]
    refine both_ok ?_
  case atom => exact atomOf_encM hwf
  case acas => exact acasOf_encM hwf
  case presw => exact preswOf_encM hwf
  case presq => exact presqOf_encM hwf
  case fence => exact fenceOf_encM hwf
  case bbinit | bbexp | bbarv | bbwait => rw [bbOf_encM hwf]; rfl
  case mwld | mloop | mrowsc | mdrain | mzero | aseq | atile | amask | svmap | svset | svclr | dscommit | dstruncFrame | dstruncPos | dsckptSave | dsckptRel =>
    rw [decode_M (by rw [opcOf_encE]; decide), decodeM, opcOf_def, opcOf_encE]
    exact subs_ok (sub_encE _ _ _) (by rw [weOf_encE]; rfl)
  case mstat w b | dsread w b =>
    rw [decode_M (by rw [opcOf_encE]; decide), decodeM, opcOf_def, opcOf_encE]
    refine subs_ok (sub_encE _ _ _) ?_
    rw [weOf_encE]
    cases b <;> rfl
  case trec | hnew | hcopy | hdrop | hbind | hderef | hwt | tlread | tlwait | wstreamStart | wstreamRel | wstreamStop | collAr | collAg | collRs | xsigSet | xsigAdd =>
    rw [decode_C (by rw [opcOf_encC]; decide), decodeC, opcOf_def, opcOf_encC]
    exact subs_ok (sub_encC _ _ _) (by rw [wcOf_encC]; rfl)
  case cpy w k | cpys w k | cpyg w k | cpyc w k =>
    rw [decode_C (by rw [opcOf_encC]; decide), decodeC, opcOf_def, opcOf_encC]
    refine subs_ok (sub_encC _ _ _) ?_
    rw [wcOf_encC]
    cases k <;> rfl
  case trap | svc | bkpt =>
    rw [decode_X (by rw [opcOf_encI]; decide), decodeX, opcOf_def, opcOf_encI, wiOf_encI]
    rfl
  case statrd | statclr =>
    rw [decode_X (by rw [opcOf_encA]; decide), decodeX, opcOf_def, opcOf_encA]
    simp only [wellFormed] at hwf
    simp (disch := decide) only [waOf_encA, slice_encA, setWidth_eq_at11, slice_at11_same, hwf, if_true]
    rfl
  case hint n p =>
    obtain ⟨hopc, hn, hp⟩ := hintWord_fields n p
    rw [decode_hint .V hopc, hn, hp]
end Sys2Proof
end

section
open Sys2Proof Sys2Proof.Machine Sys2Proof.Spec

/-- Settles O51: the encoder writes each field where the row of its opcode reads it, and each code is read back as what it stands for. -/
theorem encodedInstructionsDecode : Obligations.EncodedInstructionsDecode := by
  unfold Obligations.EncodedInstructionsDecode
  exact fun _ _ _ => decode_encode
end

section
/-! SUPPORT. What a row of the maps decodes to is well formed and has a word of the same opcode. -/

namespace Sys2Proof

open Sys2Proof.Spec

/-- Instruction `i` is well formed and has a word with the opcode of `w`, and in the rows that a space decides with its space; the word is given in class `cl`, or for a word of both register classes in V (R56, R89). -/
def HasWord (cl : Cls) (w : DWord) (i : Instr) : Prop :=
  wellFormed i = true ∧ ∃ c' w', encode i = some (c', w') ∧ opcOf w' = opcOf w ∧ (opcOf w = 0xC0 ∨ opcOf w = 0xC1 → spcM w' = spcM w) ∧ (c' = cl ∨ cl = .S ∧ c' = .V)
theorem HasWord.intro {cl c' : Cls} {w w' : DWord} {i : Instr} {o : Nat} (ho : opcOf w = o) (hwf : wellFormed i = true) (he : encode i = some (c', w')) (ho' : opcOf w' = o)
    (hs : o = 0xC0 ∨ o = 0xC1 → spcM w' = spcM w) (hc : c' = cl ∨ cl = .S ∧ c' = .V) : HasWord cl w i := by
  subst ho
  exact ⟨hwf, c', w', he, ho', hs, hc⟩
/-- What a row of the map decodes to, where it decodes. -/
def Row (P : Instr → Prop) (r : Except DecodeError Instr) : Prop := ∀ i, r = .ok i → P i
section
variable {P : Instr → Prop} {cl : Cls} {w : DWord}
theorem forall_mem_some {i : Instr} : (∀ j ∈ some i, P j) ↔ P i := by simp
theorem forall_mem_none : (∀ j ∈ (none : Option Instr), P j) ↔ True := by simp
theorem forall_mem_map {α : Type} {x : Option α} {f : α → Instr} : (∀ j ∈ x.map f, P j) ↔ ∀ a ∈ x, P (f a) := by simp
theorem forall_mem_bind {α : Type} {x : Option α} {f : α → Option Instr} : (∀ j ∈ x.bind f, P j) ↔ ∀ a ∈ x, ∀ j ∈ f a, P j := by
  cases x <;> simp
theorem forall_mem_ite {c : Prop} [Decidable c] {x y : Option Instr} : (∀ j ∈ if c then x else y, P j) ↔ (c → ∀ j ∈ x, P j) ∧ (¬ c → ∀ j ∈ y, P j) := by
  split <;> simp [*]
theorem row_both {r : Option Instr} : Row P (both cl w r) ↔ ∀ i ∈ r, P i := by
  cases r <;> simp [Row, both]
theorem row_onlyV {r : Option Instr} : Row P (onlyV cl w r) ↔ cl = .V → ∀ i ∈ r, P i := by
  unfold onlyV
  split
  · next h => simp [row_both, h]
  · next h => simp [Row, h]
theorem row_onlyS {r : Option Instr} : Row P (onlyS cl w r) ↔ cl = .S → ∀ i ∈ r, P i := by
  unfold onlyS
  split
  · next h => simp [row_both, h]
  · next h => simp [Row, h]
end
theorem loadOf_ok {w : DWord} {m : WM} {sx : Bool} (h : loadOf w = some (m, sx)) : (m.ordLoad && m.sxOk sx) = true := by
  simp only [loadOf, Option.bind_eq_some_iff] at h
  obtain ⟨m', -, h⟩ := h
  split at h
  · split at h
    · next ho => simp only [Option.some.injEq, Prod.mk.injEq] at h; obtain ⟨rfl, rfl⟩ := h; simp [ho, WM.sxOk]
    · cases h
  · split at h
    · next ho => simp only [Option.some.injEq, Prod.mk.injEq] at h; obtain ⟨rfl, rfl⟩ := h; exact ho
    · cases h
  · cases h
theorem storeOf_ok {w : DWord} {m : WM} (h : storeOf w = some m) : m.ordStore = true := by
  simp only [storeOf, Option.bind_eq_some_iff] at h
  obtain ⟨m', -, h⟩ := h
  split at h
  · next ho => simp only [Option.some.injEq] at h; subst h; exact (Bool.and_eq_true_iff.mp ho).2
  · cases h
theorem bbOf_ok {w : DWord} {m : WM} (h : bbOf w = some m) : m.ordBB = true := by
  simp only [bbOf, Option.bind_eq_some_iff] at h
  obtain ⟨m', -, h⟩ := h
  split at h
  · next ho => simp only [Option.some.injEq] at h; subst h; exact (Bool.and_eq_true_iff.mp ho).2
  · cases h
theorem atomOf_ok {w : DWord} {i : Instr} (h : atomOf w = some i) : ∃ m sp op, i = .atom m sp op ∧ m.atomWidth = true := by
  simp only [atomOf, Option.bind_eq_some_iff, Option.ite_none_right_eq_some, Option.some.injEq] at h
  obtain ⟨m, -, sp, -, op, -, hm, rfl⟩ := h
  exact ⟨m, sp, op, rfl, hm⟩
theorem acasOf_ok {w : DWord} {i : Instr} (h : acasOf w = some i) : ∃ m sp, i = .acas m sp ∧ m.atomWidth = true := by
  simp only [acasOf, Option.bind_eq_some_iff, Option.ite_none_right_eq_some, Option.some.injEq, Bool.and_eq_true] at h
  obtain ⟨m, -, sp, -, ⟨-, hm⟩, rfl⟩ := h
  exact ⟨m, sp, rfl, hm⟩
theorem preswOf_ok {w : DWord} {i : Instr} (h : preswOf w = some i) : ∃ m b, i = .presw m b ∧ m.ordStore = true := by
  simp only [preswOf, Option.bind_eq_some_iff, Option.ite_none_right_eq_some, Bool.and_eq_true] at h
  obtain ⟨m, -, ⟨-, hm⟩, h⟩ := h
  split at h <;> simp only [Option.some.injEq, reduceCtorEq] at h
  · exact ⟨m, false, h.symm, hm⟩
  · exact ⟨m, true, h.symm, hm⟩
theorem presqOf_ok {w : DWord} {i : Instr} (h : presqOf w = some i) : ∃ m, i = .presq m ∧ m.ordLoad = true := by
  simp only [presqOf, Option.bind_eq_some_iff, Option.ite_none_right_eq_some, Option.some.injEq, Bool.and_eq_true] at h
  obtain ⟨m, -, ⟨-, hm⟩, rfl⟩ := h
  exact ⟨m, rfl, hm⟩
theorem fenceOf_ok {w : DWord} {i : Instr} (h : fenceOf w = some i) : ∃ m, i = .fence m ∧ (m.ord != .plain) = true := by
  simp only [fenceOf, Option.bind_eq_some_iff, Option.ite_none_right_eq_some, Option.some.injEq, Bool.and_eq_true] at h
  obtain ⟨m, -, ⟨-, hm⟩, rfl⟩ := h
  exact ⟨m, rfl, hm⟩
/-- The V-class and S-class map, row by row; rows 0xC0 to 0xC5 and 0xE0 (`h_105` to `h_111`) check their order codes, CVT (`h_59`) its two formats, and `h_78` and `h_98` stand in class S only (R56). -/
theorem decodeVS_hasWord {cl : Cls} (hcl : cl = .V ∨ cl = .S) (w : DWord) : Row (HasWord cl w) (decodeVS cl w) := by
  have hV : Cls.V = cl ∨ cl = .S ∧ Cls.V = .V := by rcases hcl with rfl | rfl <;> simp
  unfold decodeVS
  rw [opcOf_def]
  split
  case h_116 => intro i h; cases h
  all_goals rename_i hopc
  case h_105 =>
    have hw (a : WM × Bool) (ha : a ∈ loadOf w) : (a.1.ordLoad && a.1.sxOk a.2) = true := loadOf_ok ha
    split
    all_goals
      rename_i hsp
      simp only [row_both, row_onlyV, forall_mem_map, forall_mem_none]
    · exact fun a ha => .intro hopc (hw a ha) rfl (opcOf_encM ..) (fun _ => (spcM_encM ..).trans (BitVec.eq_of_toNat_eq hsp.symm)) hV
    · exact fun a ha => .intro hopc (hw a ha) rfl (opcOf_encM ..) (fun _ => (spcM_encM ..).trans (BitVec.eq_of_toNat_eq hsp.symm)) hV
    · exact fun _ a ha => .intro hopc (hw a ha) rfl (opcOf_encM ..) (fun _ => (spcM_encM ..).trans (BitVec.eq_of_toNat_eq hsp.symm)) hV
  case h_106 =>
    have hw (m : WM) (hm : m ∈ storeOf w) : m.ordStore = true := storeOf_ok hm
    split
    all_goals
      rename_i hsp
      simp only [row_both, row_onlyV, forall_mem_map, forall_mem_none]
    · exact fun a ha => .intro hopc (hw a ha) rfl (opcOf_encM ..) (fun _ => (spcM_encM ..).trans (BitVec.eq_of_toNat_eq hsp.symm)) hV
    · exact fun a ha => .intro hopc (hw a ha) rfl (opcOf_encM ..) (fun _ => (spcM_encM ..).trans (BitVec.eq_of_toNat_eq hsp.symm)) hV
    · exact fun _ a ha => .intro hopc (hw a ha) rfl (opcOf_encM ..) (fun _ => (spcM_encM ..).trans (BitVec.eq_of_toNat_eq hsp.symm)) hV
  case h_107 =>
    rw [row_both]
    intro i hi
    obtain ⟨m, sp, op, rfl, hm⟩ := atomOf_ok hi
    exact .intro hopc hm rfl (opcOf_encM ..) (by simp) hV
  case h_108 =>
    rw [row_both]
    intro i hi
    obtain ⟨m, sp, rfl, hm⟩ := acasOf_ok hi
    exact .intro hopc hm rfl (opcOf_encM ..) (by simp) hV
  case h_109 =>
    rw [row_both]
    intro i hi
    obtain ⟨m, b, rfl, hm⟩ := preswOf_ok hi
    exact .intro hopc hm rfl (opcOf_encM ..) (by simp) hV
  case h_110 =>
    rw [row_both]
    intro i hi
    obtain ⟨m, rfl, hm⟩ := presqOf_ok hi
    exact .intro hopc hm rfl (opcOf_encM ..) (by simp) hV
  case h_111 =>
    rw [row_both]
    intro i hi
    obtain ⟨m, rfl, hm⟩ := fenceOf_ok hi
    exact .intro hopc hm rfl (opcOf_encM ..) (by simp) hV
  case h_112 | h_113 | h_114 | h_115 =>
    simp only [row_both, forall_mem_map]
    exact fun m hm => .intro hopc (bbOf_ok hm) rfl (opcOf_encM ..) (by simp) hV
  case h_59 =>
    simp only [row_onlyV, forall_mem_some, forall_mem_bind, forall_mem_ite, forall_mem_none, implies_true, true_and]
    exact fun _ _ _ d _ k _ hdk => .intro hopc (bne_iff_ne.mpr hdk) rfl (opcOf_encA ..) (by simp) hV
  case h_78 | h_98 =>
    simp only [row_onlyS, forall_mem_some]
    rintro rfl
    refine .intro hopc rfl rfl ?_ (by simp) (.inl rfl)
    simp only [opcOf_encA, opcOf_encI]
    rfl
  all_goals
    simp only [row_both, row_onlyV, forall_mem_some, forall_mem_map, forall_mem_bind, forall_mem_ite, forall_mem_none, implies_true, and_true]
    intros
    refine HasWord.intro hopc rfl rfl ?_ (by simp) hV
    simp only [opcOf_encA, opcOf_encI, opcOf_encB]
    rfl

theorem subs_hasWord {P : Instr → Prop} {w : DWord} {forms : List Instr} (h : ∀ i ∈ forms, P i) : Row P (subs w forms) := by
  unfold subs
  rw [row_both]
  exact fun i hi => h i (List.mem_of_getElem? hi)
theorem decodeM_hasWord (w : DWord) : Row (HasWord .M w) (decodeM w) := by
  unfold decodeM
  rw [opcOf_def]
  split
  case h_17 => intro i h; cases h
  all_goals
    rename_i hopc
    refine subs_hasWord ?_
    simp only [List.forall_mem_cons, List.not_mem_nil, false_imp_iff, implies_true, and_true]
  case h_13 | h_15 | h_16 => exact ⟨.intro hopc rfl rfl (opcOf_encE ..) (by simp) (.inl rfl), .intro hopc rfl rfl (opcOf_encE ..) (by simp) (.inl rfl)⟩
  case h_14 =>
    exact ⟨.intro hopc rfl rfl (opcOf_encE ..) (by simp) (.inl rfl), .intro hopc rfl rfl (opcOf_encE ..) (by simp) (.inl rfl),
      .intro hopc rfl rfl (opcOf_encE ..) (by simp) (.inl rfl)⟩
  all_goals exact .intro hopc rfl rfl (opcOf_encE ..) (by simp) (.inl rfl)
theorem decodeC_hasWord (w : DWord) : Row (HasWord .C w) (decodeC w) := by
  unfold decodeC
  rw [opcOf_def]
  split
  case h_17 => intro i h; cases h
  all_goals
    rename_i hopc
    refine subs_hasWord ?_
    simp only [List.forall_mem_cons, List.not_mem_nil, false_imp_iff, implies_true, and_true]
  case h_10 | h_11 | h_12 | h_13 | h_16 =>
    exact ⟨.intro hopc rfl rfl (opcOf_encC ..) (by simp) (.inl rfl), .intro hopc rfl rfl (opcOf_encC ..) (by simp) (.inl rfl)⟩
  case h_14 | h_15 =>
    exact ⟨.intro hopc rfl rfl (opcOf_encC ..) (by simp) (.inl rfl), .intro hopc rfl rfl (opcOf_encC ..) (by simp) (.inl rfl),
      .intro hopc rfl rfl (opcOf_encC ..) (by simp) (.inl rfl)⟩
  all_goals exact .intro hopc rfl rfl (opcOf_encC ..) (by simp) (.inl rfl)
theorem row_ok {P : Instr → Prop} {i : Instr} : Row P (.ok i) ↔ P i := by simp [Row]
theorem row_error {P : Instr → Prop} {e : DecodeError} : Row P (.error e) := by simp [Row]
theorem decodeX_hasWord (w : DWord) : Row (HasWord .X w) (decodeX w) := by
  unfold decodeX
  rw [opcOf_def]
  split
  case h_6 => exact row_error
  all_goals rename_i hopc
  case h_4 | h_5 =>
    dsimp only
    split
    · next hix => exact row_ok.mpr (.intro hopc hix rfl (opcOf_encA ..) (by simp) (.inl rfl))
    · exact row_error
  all_goals exact row_ok.mpr (.intro hopc rfl rfl (opcOf_encI ..) (by simp) (.inl rfl))
theorem decode_hasWord {c : Cls} {w : DWord} (hw : opcOf w < 0xF0) : Row (HasWord c w) (decode c w) := by
  cases c with
  | V => rw [decode_registerClass (.inl rfl) hw]; exact decodeVS_hasWord (.inl rfl) w
  | S => rw [decode_registerClass (.inr rfl) hw]; exact decodeVS_hasWord (.inr rfl) w
  | M => rw [decode_M hw]; exact decodeM_hasWord w
  | C => rw [decode_C hw]; exact decodeC_hasWord w
  | X => rw [decode_X hw]; exact decodeX_hasWord w
theorem both_S_eq (w : DWord) (r : Option Instr) : both .S w r = both .V w r := rfl
theorem onlyV_S (w : DWord) (r : Option Instr) : onlyV .S w r = .error .unassigned := (onlyV_unassigned_iff .S w r).mpr (by decide)
theorem onlyS_V (w : DWord) (r : Option Instr) : onlyS .V w r = .error .unassigned := (onlyS_unassigned_iff .V w r).mpr (by decide)
/-- A word that both register classes assign is the same in both (R56). -/
theorem decodeVS_agrees {w : DWord} : decodeVS .S w ≠ .error .unassigned → decodeVS .V w ≠ .error .unassigned → decodeVS .S w = decodeVS .V w := by
  unfold decodeVS
  rw [opcOf_def]
  split
  case h_105 | h_106 => split <;> simp only [both_S_eq, onlyV_S, ne_eq, not_true_eq_false, false_imp_iff, implies_true]
  all_goals simp only [both_S_eq, onlyV_S, onlyS_V, ne_eq, not_true_eq_false, false_imp_iff, implies_true]
/-- Whether the S class assigns a word is a matter of its opcode, and in two rows of its space (R56). -/
theorem assigned_S_congr {w w' : DWord} (ho : opcOf w' = opcOf w) (hs : opcOf w = 0xC0 ∨ opcOf w = 0xC1 → spcM w' = spcM w) : assigned .S w' = assigned .S w := by
  simp only [assigned, ho]
  by_cases h : opcOf w = 0xC0 ∨ opcOf w = 0xC1
  · rw [hs h]
  · simp only [beq_eq_false_iff_ne.mpr (fun e => h (.inl e)), beq_eq_false_iff_ne.mpr (fun e => h (.inr e)), Bool.false_or, Bool.false_and]
theorem assigned_of_decode {c : Cls} {w : DWord} {i : Instr} (hw : opcOf w < 0xF0) (h : decode c w = .ok i) : assigned c w = true := by
  by_contra hn
  rw [(decode_unassigned_iff c w).mpr ⟨hw, Bool.eq_false_iff.mpr hn⟩] at h
  cases h
/-- What an S-class word decodes to is what its V-class word decodes to in an S-class clause, where it has one (R56, R89). -/
theorem decode_S_of_V {w w' : DWord} {i : Instr} (hw : opcOf w < 0xF0) (h : decode .S w = .ok i) (ho : opcOf w' = opcOf w)
    (hs : opcOf w = 0xC0 ∨ opcOf w = 0xC1 → spcM w' = spcM w) (h' : decode .V w' = .ok i) : decode .S w' = .ok i := by
  have hw' : opcOf w' < 0xF0 := ho ▸ hw
  have hS : decode .S w' ≠ .error .unassigned := fun hu => by
    have hf := ((decode_unassigned_iff .S w').mp hu).2
    rw [assigned_S_congr ho hs, assigned_of_decode hw h] at hf
    cases hf
  rw [decode_registerClass (.inr rfl) hw'] at hS ⊢
  rw [decode_registerClass (.inl rfl) hw'] at h'
  rw [decodeVS_agrees hS (by rw [h']; simp), h']

end Sys2Proof
end

section
open Sys2Proof Sys2Proof.Machine Sys2Proof.Spec

/-- Settles O52: what a row decodes to has a word of the same opcode, which decodes to it; a word that both register classes assign is the same in both. -/
theorem decodedWordsAreWellFormed : Obligations.DecodedWordsAreWellFormed := by
  unfold Obligations.DecodedWordsAreWellFormed
  intro c w i h
  by_cases hw : 0xF0 ≤ opcOf w
  · rw [decode_hint c hw, Except.ok.injEq] at h
    subst h
    obtain ⟨hopc, hn, hp⟩ := hintWord_fields (w.extractLsb' 56 4) (w.extractLsb' 0 56)
    refine ⟨rfl, _, _, rfl, ?_, .inr (.inr hw)⟩
    rw [decode_hint c hopc, hn, hp]
  · obtain ⟨hwf, c', w', he, ho, hs, hc⟩ := decode_hasWord (Nat.lt_of_not_le hw) i h
    have hd := decode_encode hwf he
    rcases hc with rfl | ⟨rfl, rfl⟩
    · exact ⟨hwf, _, _, he, hd, .inl rfl⟩
    · exact ⟨hwf, _, _, he, decode_S_of_V (Nat.lt_of_not_le hw) h ho hs hd, .inr (.inl ⟨rfl, rfl⟩)⟩
end

section
/-! SUPPORT. What comes of a word that decodes (R62). -/

namespace Sys2Proof.Machine

open Sys2Proof.Spec

/-- Only words from opcode 0xF0 on are hints (R61). -/
theorem hint_opc {c : Cls} {w : DWord} {n : BitVec 4} {p : BitVec 56} (h : decode c w = .ok (.hint n p)) : 0xF0 ≤ opcOf w := by
  by_contra hw
  obtain ⟨-, c', w', he, ho, -, -⟩ := decode_hasWord (Nat.lt_of_not_le hw) _ h
  simp only [encode, Option.some.injEq, Prod.mk.injEq] at he
  obtain ⟨-, rfl⟩ := he
  exact hw (ho ▸ (hintWord_fields n p).1)
theorem aheadOf_decoded {c : Cls} {front : Bool} {w : DWord} {i : Instr} (h : decode c w = .ok i) : aheadOf c front w =
    if 0xF0 ≤ opcOf w then .run i else if Instr.forUnit i front = false then .fault fcIllInstr else if guardOf w = ⟨true, 7#3⟩ then .skip else .run i := by
  by_cases hw : 0xF0 ≤ opcOf w
  · have hi : i = .hint (w.extractLsb' 56 4) (w.extractLsb' 0 56) := by rw [decode_hint c hw, Except.ok.injEq] at h; exact h.symm
    rw [if_pos hw, aheadOf_hint hw, hi]
  · rw [if_neg hw]
    have hn : ∀ n p, i ≠ .hint n p := fun n p e => hw (hint_opc (e ▸ h))
    simp only [aheadOf, h, Bool.not_eq_true']
theorem forUnit_hint {c : Cls} {front : Bool} {w : DWord} {i : Instr} (h : decode c w = .ok i) (hw : 0xF0 ≤ opcOf w) : Instr.forUnit i front = true := by
  rw [decode_hint c hw, Except.ok.injEq] at h
  rw [← h]
  rfl
section
variable {c : Cls} {front : Bool} {w : DWord} {i : Instr} (h : decode c w = .ok i)
include h
theorem aheadOf_run (hu : Instr.forUnit i front = true) (hg : guardOf w ≠ ⟨true, 7#3⟩) : aheadOf c front w = .run i := by
  simp only [aheadOf_decoded h, hu, hg, if_false, Bool.true_eq_false, ite_self]
theorem aheadOf_skip (hu : Instr.forUnit i front = true) (hg : guardOf w = ⟨true, 7#3⟩) (hw : opcOf w < 0xF0) : aheadOf c front w = .skip := by
  simp only [aheadOf_decoded h, hu, hg, if_true, if_false, Bool.true_eq_false, Nat.not_le.mpr hw]
theorem aheadOf_notForUnit (hu : Instr.forUnit i front = false) : aheadOf c front w = .fault fcIllInstr := by
  have hw : ¬ 0xF0 ≤ opcOf w := fun hw => by rw [forUnit_hint h hw] at hu; cases hu
  rw [aheadOf_decoded h, if_neg hw, if_pos hu]
end

end Sys2Proof.Machine
end

section
open Sys2Proof Sys2Proof.Machine Sys2Proof.Spec

/-- Settles O54: an issue attempt at a word comes to what its decoding says, and an event's turn is its meaning. -/
theorem stepRunsTheDecodedInstruction : Obligations.StepRunsTheDecodedInstruction := by
  unfold Obligations.StepRunsTheDecodedInstruction
  refine ⟨?_, fun s r i h => by simp only [step, h, turn]⟩
  intro s s1 r u c w v i hturn h hd
  obtain rfl := unit_of_atWord h
  exact ⟨fun hg hu => step_atWord_run hturn h (aheadOf_run hd hu hg), fun hg hw hu => step_atWord_skip hturn h (aheadOf_skip hd hu hg hw),
    fun hu => step_atWord_fault (code := fcIllInstr) hturn h (aheadOf_notForUnit hd hu)⟩

/-- Settles O53: each word is read field by field. -/
theorem writtenWordsDecode : Obligations.WrittenWordsDecode := by
  unfold Obligations.WrittenWordsDecode
  decide

/-- Settles O57: the reset state's fields are what they are defined to be; 192 cores and 8 partitions are copies of one. -/
theorem resetLeaves : Obligations.ResetLeaves := by
  unfold Obligations.ResetLeaves
  refine ⟨reset_wf, fun _ => rfl, rfl, rfl, rfl, rfl, rfl, rfl, ?_, ?_, ?_, ?_⟩
  · exact List.length_replicate
  · intro c hc
    rw [List.eq_of_mem_replicate hc]
    exact ⟨rfl, by decide⟩
  · exact List.length_replicate
  · intro p hp
    rw [List.eq_of_mem_replicate hp]
    exact ⟨rfl, rfl, rfl⟩
end

section
/-! SUPPORT. What special and broadcast operands read, and the latch of the core's cycle count behind %tlo and %thi. -/

namespace Sys2Proof.Machine

open Sys2Proof.Spec

theorem opKind_special {f : Opnd} (h : 480 ≤ f.toNat ∧ f.toNat < 488 ∨ 496 ≤ f.toNat ∧ f.toNat < 500) : opKind f = .special f.toNat := by
  unfold opKind
  dsimp only
  rcases h with h | h
  · rw [if_neg (by omega), if_neg (by omega), if_pos (by omega)]
  · rw [if_neg (by omega), if_neg (by omega), if_neg (by omega), if_neg (by omega), if_pos (by omega)]
theorem opKind_bcast {k : Nat} (h : k < 8) : opKind (BitVec.ofNat 9 (488 + k)) = .bcast k := by
  have e : (BitVec.ofNat 9 (488 + k)).toNat = 488 + k := by rw [BitVec.toNat_ofNat]; omega
  unfold opKind
  rw [e]
  dsimp only
  rw [if_neg (by omega), if_neg (by omega), if_neg (by omega), if_pos (by omega), Nat.add_sub_cancel_left]

/-- What `specialIs` names is what `specialVal` reads, and the latch operands are not among it. -/
theorem specialIs_some {s : State} {v : View} {l : Nat} {f : Opnd} {x : Word} (h : specialIs s v l f = some x) :
    (480 ≤ f.toNat ∧ f.toNat < 486 ∨ 496 ≤ f.toNat ∧ f.toNat < 500) ∧ specialVal s v l f.toNat = x := by
  unfold specialIs at h
  split at h
  case h_11 => cases h
  case h_9 e =>
    rw [e]
    obtain ⟨g, hg, rfl⟩ := Option.map_eq_some_iff.mp h
    exact ⟨by omega, by simp [specialVal, hg]⟩
  all_goals
    rename_i e
    rw [e]
    exact ⟨by omega, Option.some.inj h⟩
theorem readSrc_special {v : View} {l : Nat} {f : Opnd} {et ret : Bool} {r : Rd} {x : Word} (h : specialIs r.s v l f = some x) :
    readSrc v l ⟨f, 1, et, ret⟩ r = ([⟨x, false⟩], r) := by
  obtain ⟨hf, hx⟩ := specialIs_some h
  have hk : opKind f = .special f.toNat := opKind_special (by omega)
  unfold readSrc
  simp only [hk]
  rw [if_neg (by omega), if_neg (by omega), hx]
theorem readSrc_bcast {k n : Nat} (h : k < 8) (v : View) (l : Nat) (et ret : Bool) (r : Rd) :
    readSrc v l ⟨BitVec.ofNat 9 (488 + k), n, et, ret⟩ r = ((List.range n).map fun i => v.b.bcast[k + i]?.getD ⟨0, false⟩, r) := by
  simp only [readSrc, opKind_bcast h]
theorem readSrc_thi {v : View} {l n : Nat} {et ret : Bool} {r : Rd} {t : Thread} (h : thr? r.s v.u l = some t) :
    readSrc v l ⟨487#9, n, et, ret⟩ r = ([⟨hi32 t.tlat, false⟩], r) := by
  have h' : (r.s.grp? v.u).bind (·.threads[l]?) = some t := h
  simp only [readSrc, opKind_special (f := 487#9) (by decide), h']
  rfl

/-- A lane's latch holds the cycle count `c` of its core, which stands still. -/
def Latched (v : View) (l : Nat) (c : DWord) (s : State) : Prop := s.cycleOf v.b.core = c ∧ (thr? s v.u l).map (·.tlat) = some c

theorem latched_set {v : View} {l : Nat} {s : State} (h : (thr? s v.u l).isSome = true) :
    Latched v l (s.cycleOf v.b.core) (s.modThread v.u l fun t => { t with tlat := s.cycleOf v.b.core }) := by
  refine ⟨rfl, ?_⟩
  obtain ⟨t, ht⟩ := Option.isSome_iff_exists.mp h
  rw [thr_modThread, if_pos ⟨rfl, rfl⟩, ht]
  rfl
theorem latched_modBlk {v : View} {l : Nat} {c : DWord} {s : State} (h : Latched v l c s) (n : Nat) (f : Block → Block) (hf : ∀ b, blkThreads (f b) = blkThreads b) :
    Latched v l c (s.modBlk n f) := ⟨h.1, by rw [calm_modBlk s n f hf]; exact h.2⟩
theorem latched_portDrop {v : View} {l : Nat} {c : DWord} {s : State} (h : Latched v l c s) (q n : Nat) : Latched v l c (portDrop s v.u l q n) := by
  unfold portDrop
  split
  · exact latched_modBlk h _ _ fun _ => rfl
  split
  · refine ⟨h.1, ?_⟩
    rw [thr_modThread, if_pos ⟨rfl, rfl⟩, Option.map_map]
    exact h.2
  split <;> exact latched_modBlk h _ _ fun _ => rfl
/-- Reading a source keeps the latch of its lane at the core's count. -/
theorem latched_readSrc {v : View} {l : Nat} {c : DWord} {r : Rd} (h : Latched v l c r.s) (x : Src) : Latched v l c (readSrc v l x r).2.s := by
  unfold readSrc
  split
  case h_1 =>
    split
    · exact h
    · dsimp only
      split <;> split <;> simpa only [rdEmpty_s] using h
  case h_2 =>
    dsimp only
    split
    · simpa only [rdEmpty_s, apply_ite Rd.s, ite_self] using h
    · split <;> simp only [apply_ite Rd.s, ite_self]
      · exact h
      · exact latched_portDrop h _ _
  case h_4 =>
    split
    · have e := latched_set (v := v) (l := l) (s := r.s) (by rw [← Option.isSome_map, h.2]; rfl)
      rwa [h.1] at e ⊢
    · split <;> exact h
  all_goals exact h

theorem readFold_length (v : View) (l : Nat) : ∀ (xs : List Src) (acc : List (List PWord) × Rd),
    ∃ ws, (xs.foldl (fun acc x => let (w, r) := readSrc v l x acc.2; (acc.1 ++ [w], r)) acc).1 = acc.1 ++ ws
  | [], acc => ⟨[], by simp⟩
  | x :: xs, acc => by
    obtain ⟨ws, h⟩ := readFold_length v l xs (acc.1 ++ [(readSrc v l x acc.2).1], (readSrc v l x acc.2).2)
    exact ⟨(readSrc v l x acc.2).1 :: ws, by rw [List.foldl_cons]; exact h.trans (by simp)⟩
/-- Behind the latch, a source %thi reads the latched count's upper half, whatever was read before it. -/
theorem readFold_thi {v : View} {l : Nat} {c : DWord} : ∀ (xs : List Src) (acc : List (List PWord) × Rd) (i : Nat), Latched v l c acc.2.s →
    (xs[i]?).map (·.f) = some 487#9 →
    (xs.foldl (fun acc x => let (w, r) := readSrc v l x acc.2; (acc.1 ++ [w], r)) acc).1[acc.1.length + i]? = some [⟨hi32 c, false⟩]
  | [], _, i, _, hi => by simp at hi
  | x :: xs, acc, 0, h, hi => by
    obtain ⟨f, n, et, ret⟩ := x
    obtain rfl : f = 487#9 := by simpa using hi
    obtain ⟨t, ht, hc⟩ := Option.map_eq_some_iff.mp h.2
    obtain ⟨ws, hw⟩ := readFold_length v l xs (acc.1 ++ [(readSrc v l ⟨487#9, n, et, ret⟩ acc.2).1], (readSrc v l ⟨487#9, n, et, ret⟩ acc.2).2)
    rw [List.foldl_cons]
    refine (congrArg (·[acc.1.length + 0]?) hw).trans ?_
    simp [readSrc_thi ht, hc]
  | x :: xs, acc, i + 1, h, hi => by
    rw [List.foldl_cons]
    have e := readFold_thi xs (acc.1 ++ [(readSrc v l x acc.2).1], (readSrc v l x acc.2).2) i (latched_readSrc h x) (by simpa using hi)
    rw [List.length_append, List.length_singleton, Nat.add_assoc, Nat.add_comm 1 i] at e
    exact e
theorem readSrcs_thi {v : View} {l i : Nat} {xs : List Src} {r : Rd} (hx : ∃ x ∈ xs, x.f = 486#9) (hi : (xs[i]?).map (·.f) = some 487#9)
    (ht : (thr? r.s v.u l).isSome = true) : (readSrcs v l xs r).1[i]? = some [⟨hi32 (r.s.cycleOf v.b.core), false⟩] := by
  have ha : xs.any (·.f == 486#9) = true := by simpa [List.any_eq_true] using hx
  unfold readSrcs
  rw [if_pos ha]
  have e := readFold_thi xs ([], { r with s := r.s.modThread v.u l fun t => { t with tlat := r.s.cycleOf v.b.core } }) i (latched_set ht) hi
  simpa using e

end Sys2Proof.Machine
end

section
open Sys2Proof Sys2Proof.Machine Sys2Proof.Spec

/-- Settles O1: the shared law of register instructions, then each special operand by its number; for %thi behind %tlo, that the lane's latch stands through the reads. -/
theorem registerInstructionsComplete : Obligations.RegisterInstructionsComplete := by
  unfold Obligations.RegisterInstructionsComplete
  refine ⟨fun i R s s1 v ins hR h => exec_regReady hR h, fun v l et ret r => ⟨?_, ?_, ?_, ?_, ?_⟩⟩
  · exact fun f x h => readSrc_special h
  · exact fun k n h => readSrc_bcast h v l et ret r
  · rfl
  · exact fun t h => readSrc_thi h
  · exact fun xs i hx hi ht => readSrcs_thi hx hi ht

end

section
/-! SUPPORT. A register instruction leaves one result in each active lane, in the lanes' order. -/

namespace Sys2Proof.Machine

open Sys2Proof.Spec

theorem scanLanes_lanes (op : RedOp) (sgn excl : Bool) : ∀ (acc : PWord) (ins : List LaneIn), (scanLanes op sgn excl acc ins).map (·.1) = ins.map (·.lane)
  | _, [] => rfl
  | _, x :: r => by rw [scanLanes, List.map_cons, List.map_cons, scanLanes_lanes op sgn excl _ r]
theorem map_lane_fst (f : LaneIn → LaneOut) (ins : List LaneIn) : (ins.map fun x => (x.lane, f x)).map (·.1) = ins.map (·.lane) := by
  rw [List.map_map]
  rfl
/-- The results of a register instruction are those of its lanes, in their order: lane by lane, but for SCAN, which goes along them. -/
theorem regRow_lanes {i : Instr} {R : RegRow} (h : regRow i = some R) (s : State) (v : View) (ins : List LaneIn) :
    (R.out s v ins).map (·.1) = ins.map (·.lane) := by
  cases i
  case scan w op excl g =>
    cases h
    exact scanLanes_lanes op g excl _ ins
  case cvt w d k r =>
    simp only [regRow] at h
    split at h
    · cases h
    · cases h
      exact map_lane_fst _ ins
  case statrd w ix =>
    simp only [regRow] at h
    split at h
    · cases h
    · cases h
      exact map_lane_fst _ ins
  case movp w k => cases k <;> cases h <;> exact map_lane_fst _ ins
  all_goals cases h
  all_goals exact map_lane_fst _ ins
theorem active_lanes_nodup {v : View} {g : Guard} {x : Uses} {s s1 : State} {ins : List LaneIn} (h : readAll v (v.active g) x s = .ok (ins, s1)) :
    (ins.map (·.lane)).Nodup := by
  rw [readAll_lanes h]
  exact (active_nodup v g).filter _
/-- A lane that is read has a thread, after the reads too. -/
theorem thr_of_readAll {v : View} {ls : List Nat} {x : Uses} {s s1 : State} {ins : List LaneIn} (hv : s.view? = some v) (h : readAll v ls x s = .ok (ins, s1))
    {i : LaneIn} (hi : i ∈ ins) : ∃ t, thr? s1 v.u i.lane = some t := by
  have hm : i.lane ∈ ls.filter fun l => (v.thread l).isSome := readAll_lanes h ▸ List.mem_map_of_mem hi
  have hs : (thr? s v.u i.lane).isSome = true := view_thr hv i.lane ▸ (List.mem_filter.mp hm).2
  have e := congrArg Option.isSome (thr_keep (quiet_readAll h).keep v.u i.lane)
  rw [Option.isSome_map, Option.isSome_map, hs] at e
  exact Option.isSome_iff_exists.mp e

end Sys2Proof.Machine
end

section
open Sys2Proof Sys2Proof.Machine Sys2Proof.Spec

/-- Settles O2: the reads leave registers, engines and memory alone, and the lanes' results have their own lanes each. -/
theorem registerInstructionEffectAndFrame : Obligations.RegisterInstructionEffectAndFrame := by
  unfold Obligations.RegisterInstructionEffectAndFrame
  intro i R s s1 v ins hR h hw
  obtain ⟨hv, -, -, hread, -⟩ := id h
  have hl := regRow_lanes hR s v ins
  have hn : ((R.out s v ins).map (·.1)).Nodup := hl ▸ active_lanes_nodup hread
  refine ⟨_, exec_regReady hR h, commitAll_effect (quiet_readAll hread) hn hw, fun o ho hr => ?_⟩
  obtain ⟨x, hx, hxo⟩ := List.mem_map.mp (show o.1 ∈ ins.map (·.lane) from hl ▸ List.mem_map_of_mem ho)
  obtain ⟨t, ht⟩ := thr_of_readAll hv hread hx
  exact commitAll_retired hn ho hr (hxo ▸ ht)

end

section
/-! SUPPORT. Control transfer: what the clause, the target check and the moves of lanes answer. -/

namespace Sys2Proof.Machine

open Sys2Proof.Spec

theorem clause_ok {v : View} {c : ClauseCtx} {s : State} (h : v.g.clauseNow = some c) : v.clause s = .ok (c, s) := by
  simp only [View.clause, act_someA, h]
theorem checkTargets_ok {v : View} {ts : List (Nat × VAddr)} {s : State} (h : ∀ t ∈ ts, s.clauseOk v.b t.2 = true) : checkTargets v ts s = .ok ((), s) := by
  have : ts.find? (fun t => !s.clauseOk v.b t.2) = none := List.find?_eq_none.mpr fun t ht => by simp [h t ht]
  unfold checkTargets
  simp only [act_bind, act_get, this, act_pure]
/-- One legal target for all active lanes. -/
theorem checkTargets_all {v : View} {g : Guard} {a : VAddr} {s : State} (h : TargetOk s v g a) : checkTargets v (allTo v g a) s = .ok ((), s) := by
  refine checkTargets_ok fun t ht => ?_
  obtain ⟨l, hl, rfl⟩ := List.mem_map.mp ht
  exact h.resolve_left (List.ne_nil_of_mem hl)
theorem linked_map (v : View) (link : Opnd) (c : ClauseCtx) (ts : List (Nat × VAddr)) (s : State) :
    linked v link c (ts.map (·.1)) s =
      ts.foldl (fun s t => writeDst s v.u t.1 ⟨link, 2⟩ ((words2 ((afterClause c).setWidth 64)).map fun w => ⟨w, false⟩)) s := by
  rw [linked, List.foldl_map]
theorem all_false_any {α : Type} {l : List α} {f : α → Bool} (h : ∀ x ∈ l, f x = false) : l.any f = false := by
  rw [List.any_eq_false]
  exact fun x hx => by simp [h x hx]
/-- The lanes that a transfer to a pair sends, and to where. -/
def pairTargets (ins : List LaneIn) : List (Nat × VAddr) := (ins.filter fun i => !i.psn).map fun i => (i.lane, (i.d 0).setWidth 56)
/-- Lanes with a poisoned pair stop. -/
def retirePoisoned (v : View) (ins : List LaneIn) (s : State) : State := (ins.filter (·.psn)).foldl (fun s i => s.retire v.u i.lane) s
/-- What the end of a transfer to a pair is: exits tested where a lane was retired, the lanes sent, the rest gone on. -/
def pairEnd (v : View) (ins : List LaneIn) (s : State) : State :=
  (goAll v (pairTargets ins) (if ins.any (·.psn) then s.afterExit v.u.blk else s)).advance v
theorem indirect_ok {w : WA} {link : Option Opnd} {v : View} {c : ClauseCtx} {s s1 : State} {ins : List LaneIn} (hc : v.g.clauseNow = some c)
    (hl : v.legal { src := [srcA w 2], dst := link.map fun f => ⟨f, 2⟩ } = true) (hk : (link.elim true fun f => v.b.rwOk v.front f 2) = true)
    (ha : v.active w.g ≠ []) (hr : readAll v (v.active w.g) { src := [srcA w 2], dst := link.map fun f => ⟨f, 2⟩ } s = .ok (ins, s1))
    (ht : ∀ i ∈ ins, i.psn = false → s.clauseOk v.b ((i.d 0).setWidth 56) = true) :
    indirect w link v s = .ok ((), pairEnd v ins (link.elim (retirePoisoned v ins s1) fun f =>
      linked v f c ((pairTargets ins).map (·.1)) (retirePoisoned v ins s1))) := by
  have hp : ins.partition (·.psn) = (ins.filter (·.psn), ins.filter fun i => !i.psn) := List.partition_eq_filter_filter
  have hts : ∀ t ∈ pairTargets ins, s.clauseOk v.b t.2 = true := by
    intro t h
    obtain ⟨i, hi, rfl⟩ := List.mem_map.mp h
    obtain ⟨hi, hps⟩ := List.mem_filter.mp hi
    exact ht i hi (by simpa using hps)
  have hbad : (if ins.filter (·.psn) = [] then false else true) = ins.any (·.psn) := by
    cases h : ins.any (·.psn) <;> simp_all
  have hfin : ∀ t : State, (if ins.filter (·.psn) = [] then t else t.afterExit v.u.blk) = if ins.any (·.psn) then t.afterExit v.u.blk else t := by
    intro t
    rw [← hbad]
    split <;> rfl
  unfold indirect
  simp only [act_bind, act_needA, hl, hk, Bool.and_self, if_true, ha, if_false, clause_ok hc, act_get, hr, hp]
  rw [show ((ins.filter fun i => !i.psn).map fun i => (i.lane, (i.d 0).setWidth 56)) = pairTargets ins from rfl, checkTargets_ok hts]
  simp only [act_set, hfin]
  cases link with
  | none => rfl
  | some f => simp only [Option.elim, linked_map]; rfl

/-- The lanes of an exit stop. -/
def exitLanes (v : View) (ls : List Nat) (s : State) : State := ls.foldl (fun s l => s.modThread v.u l fun t => { t with stat := .exited, cl := none }) s
/-- With nothing pending to report, the active lanes of an EXIT stop and the rest go on. -/
theorem exec_exit_clean {s : State} {v : View} {g : Guard} (hv : s.view? = some v) (hp : NothingPending v (v.active g)) :
    exec (.exit g) s = .next ((if v.active g = [] then exitLanes v (v.active g) s else (exitLanes v (v.active g) s).afterExit v.u.blk).advance v) := by
  refine runUnit_ok hv ?_
  exact act_bind_ok (arithReport_none hp)

end Sys2Proof.Machine
end

section
open Sys2Proof Sys2Proof.Machine Sys2Proof.Spec

/-- Settles O3: the clause and the targets answer, and each transfer's moves are those said. -/
theorem transfersComplete : Obligations.TransfersComplete := by
  unfold Obligations.TransfersComplete
  refine ⟨fun s v c g ⟨hv, hc⟩ => ⟨fun ofs ht => ?_, fun link ofs ht hk hd => ?_, fun ht => ?_⟩, fun s s1 v c w ins ⟨hv, hc⟩ ha ht => ⟨fun hl hr => ⟨?_, ?_⟩, fun hl hk hr => ?_⟩⟩
  · refine runUnit_ok hv ?_
    rw [act_bind_ok (clause_ok hc)]
    exact act_bind_ok (checkTargets_all ht)
  · refine runUnit_ok hv ?_
    rw [act_bind, act_needA, if_pos hk]
    dsimp only
    rw [act_bind_ok (clause_ok hc)]
    simp only [act_bind, act_get, act_needA, all_false_any hd, Bool.not_false, if_true]
    rw [show checkTargets v ((v.active g).map fun l => (l, relTarget c ofs)) s = .ok ((), s) from checkTargets_all ht]
    rfl
  · refine runUnit_ok hv ?_
    rw [act_bind_ok (clause_ok hc)]
    exact act_bind_ok (checkTargets_all ht)
  · exact runUnit_ok hv (indirect_ok (link := none) hc hl rfl ha hr ht)
  · exact runUnit_ok hv (indirect_ok (link := none) hc hl rfl ha hr ht)
  · exact runUnit_ok hv (indirect_ok (link := some w.d) hc hl hk ha hr ht)

/-- Settles O5: nothing of the four waits or stops where its conditions hold. -/
theorem meetExitNopHintComplete : Obligations.MeetExitNopHintComplete := by
  unfold Obligations.MeetExitNopHintComplete
  intro s v g hv
  refine ⟨fun c ofs ⟨_, hc⟩ ht hm => ?_, exec_exit_clean hv, runUnit_ok (a := fun v => modA (·.advance v)) hv rfl, fun n p => runUnit_ok (a := fun v => modA (·.advance v)) hv rfl⟩
  · refine runUnit_ok hv ?_
    have hf : (v.active g).find? (fun l => (v.thread l).elim false fun t => decide (8 ≤ t.mstk.length)) = none :=
      List.find?_eq_none.mpr fun l hl => by rw [hm l hl]; exact Bool.false_ne_true
    rw [act_bind_ok (clause_ok hc)]
    refine (act_bind_ok (checkTargets_all ht)).trans ?_
    simp only [hf, act_modA]
    rfl

end

section
/-! SUPPORT. Threads moved one by one, and what a quiet change leaves in the terms of the statements. -/

namespace Sys2Proof.Machine

open Sys2Proof.Spec

theorem sameData_of_quiet {s t : State} (h : Quiet s t) : SameData s t := by
  refine ⟨⟨fun u l r => ?_, fun u l => ?_⟩, engines_keep h.keep, h.mem, h.rcd⟩
  · have : (if u = UnitRef.front 0 then newReg none [] l r else none) = none := by split <;> rfl
    rw [this, reg_of_keep h.keep]
  · have : (if u = UnitRef.front 0 then ([] : List (Nat × LaneOut)).find? (·.1 == l) else none) = none := by split <;> rfl
    rw [this, ctl_of_keep h.keep]
theorem sameRest_of_quiet {s t : State} (h : Quiet s t) : SameRest s t := frame_of_rest h.rest

/-- A lane that is not among those moved keeps its thread. -/
theorem thr_foldThreads_ne {α : Type} (u : UnitRef) (k : α → Nat) (f : α → Thread → Thread) (l : Nat) : ∀ (xs : List α) (s : State), (∀ x ∈ xs, k x ≠ l) →
    thr? (xs.foldl (fun s x => s.modThread u (k x) (f x)) s) u l = thr? s u l
  | [], _, _ => rfl
  | x :: xs, s, h => by
    rw [List.foldl_cons, thr_foldThreads_ne u k f l xs _ fun y hy => h y (List.mem_cons_of_mem _ hy), thr_modThread]
    exact if_neg fun e => h x List.mem_cons_self e.2.symm
/-- Of lanes each changed once, each is what its own change makes of it. -/
theorem thr_foldThreads {α : Type} (u : UnitRef) (k : α → Nat) (f : α → Thread → Thread) : ∀ (xs : List α) (s : State), (xs.map k).Nodup → ∀ x ∈ xs,
    thr? (xs.foldl (fun s x => s.modThread u (k x) (f x)) s) u (k x) = (thr? s u (k x)).map (f x)
  | [], _, _, x, hx => nomatch hx
  | y :: ys, s, hn, x, hx => by
    rw [List.map_cons, List.nodup_cons] at hn
    rw [List.foldl_cons]
    rcases List.mem_cons.mp hx with rfl | hx
    · rw [thr_foldThreads_ne u k f _ ys _ fun z hz e => hn.1 (List.mem_map.mpr ⟨z, hz, e⟩), thr_modThread, if_pos ⟨rfl, rfl⟩]
    · rw [thr_foldThreads u k f ys _ hn.2 x hx, thr_modThread]
      have : k x ≠ k y := fun e => hn.1 (List.mem_map.mpr ⟨x, hx, e⟩)
      rw [if_neg fun e => this e.2]
theorem quiet_foldThreads {α : Type} (u : UnitRef) (k : α → Nat) (f : α → Thread → Thread) (hf : ∀ x t, keepT (f x t) = keepT t) (xs : List α) (s : State) :
    Quiet s (xs.foldl (fun s x => s.modThread u (k x) (f x)) s) :=
  quiet_foldl _ (fun s x => quiet_modThread s u (k x) _ (hf x)) xs s

/-- A thread of the running split runs. -/
theorem run_of_lane {s : State} {v : View} (hv : s.view? = some v) {l : Nat} (hl : l ∈ v.lanes) : ∃ t, thr? s v.u l = some t ∧ t.stat = .run := by
  have h2 := (List.mem_filter.mp hl).2
  have ht : v.g.threads[l]? = thr? s v.u l := view_thr hv l
  rw [ht] at h2
  cases hx : thr? s v.u l with
  | none => simp [hx] at h2
  | some t => exact ⟨t, rfl, by simpa [hx] using h2⟩
theorem active_lane {v : View} {g : Guard} {l : Nat} (h : l ∈ v.active g) : l ∈ v.lanes := (List.mem_filter.mp h).1
/-- A thread that has left the clause is the same after its split goes on, but for the cycle of its last issue. -/
theorem thr_advance_left {α : Type} {s : State} {v : View} {y : Bool} {u : UnitRef} {l : Nat} {t : Thread} (h : thr? s u l = some t)
    (hc : (t.stat == .run && t.cl.isSome) = false) (obs : Thread → α) (ho : ∀ t, obs (standing t) = obs t) : (thr? (s.advance v y) u l).map obs = some (obs t) := by
  have e := congrArg (Option.map obs) (advance_standing s v y u l t h hc)
  rw [Option.map_map, Option.map_some, ho] at e
  rw [← e]
  exact congrArg (fun f => Option.map f _) (funext fun t => (ho t).symm)

end Sys2Proof.Machine
end

section
open Sys2Proof Sys2Proof.Machine Sys2Proof.Spec

/-- Settles O4: each lane is moved once, out of the clause, and what follows leaves it; moves and exits are quiet. -/
theorem transferredAndExitedLanes : Obligations.TransferredAndExitedLanes := by
  unfold Obligations.TransferredAndExitedLanes
  refine ⟨fun s v ts y hv hn hl => ?_, fun s v g hv hp => ?_⟩
  · have hg : Quiet s (goAll v ts s) := quiet_foldThreads v.u Prod.fst (fun x t => t.goTo x.2) (fun x t => keepT_goTo t x.2) ts s
    have hq : Quiet s ((goAll v ts s).advance v y) := hg.trans (quiet_advance _ v y)
    refine ⟨fun x hx => ?_, sameData_of_quiet hq, sameRest_of_quiet hq⟩
    obtain ⟨t, ht, hrun⟩ := run_of_lane hv (hl x hx)
    have hgo : thr? (goAll v ts s) v.u x.1 = some (t.goTo x.2) := by
      rw [goAll, thr_foldThreads v.u Prod.fst (fun x t => t.goTo x.2) ts s hn x hx, ht]
      rfl
    have hcl : ((t.goTo x.2).stat == .run && (t.goTo x.2).cl.isSome) = false := by unfold Thread.goTo; split <;> simp
    rw [thr_advance_left hgo hcl (fun t => (t.pc, t.cl, t.stat)) (fun _ => rfl), ht, Option.map_some]
    unfold Thread.goTo
    split <;> simp [hrun]
  · have hx : Quiet s (exitLanes v (v.active g) s) := quiet_foldThreads v.u id (fun _ t => { t with stat := .exited, cl := none }) (fun _ _ => rfl) (v.active g) s
    have hq : Quiet s ((if v.active g = [] then exitLanes v (v.active g) s else (exitLanes v (v.active g) s).afterExit v.u.blk).advance v) := by
      refine Quiet.trans ?_ (quiet_advance _ v false)
      split
      · exact hx
      · exact hx.trans (quiet_afterExit _ _)
    refine ⟨_, exec_exit_clean hv hp, fun l hl => ?_, sameData_of_quiet hq, sameRest_of_quiet hq⟩
    obtain ⟨t, ht, -⟩ := run_of_lane hv (active_lane hl)
    have hne : v.active g ≠ [] := List.ne_nil_of_mem hl
    have hout : thr? ((exitLanes v (v.active g) s).afterExit v.u.blk) v.u l = some { t with stat := .exited, cl := none } := by
      have e := thr_foldThreads v.u id (fun _ t => { t with stat := .exited, cl := none }) (v.active g) s (by simpa using active_nodup v g) l hl
      rw [calm_afterExit]
      exact e.trans (congrArg (Option.map _) ht)
    rw [if_neg hne, thr_advance_left hout rfl (fun t => (t.stat, t.pc)) (fun _ => rfl), ht]
    rfl

end

section
/-! SUPPORT. Barriers: the report of pending arithmetic faults in its three outcomes, and what completes a barrier. -/

namespace Sys2Proof.Machine

open Sys2Proof.Spec

/-- The unit, its block and its own state in the view are those of the state. -/
theorem view_parts {s : State} {v : View} (h : s.view? = some v) : s.cur = some v.u ∧ s.blk? v.u.blk = some v.b ∧ s.grp? v.u = some v.g := by
  unfold State.view? at h
  simp only [Option.bind_eq_some_iff, Option.map_eq_some_iff] at h
  obtain ⟨u, hu, b, hb, g, hg, rfl⟩ := h
  exact ⟨hu, hb, grp_of_blk hb hg⟩
theorem stopUnit_hold {s : State} {v : View} (hv : s.view? = some v) : s.stopUnit v .hold = heldNow v s := by
  obtain ⟨-, -, hg⟩ := view_parts hv
  unfold State.stopUnit State.holdStep
  rw [hg]
  rfl

/-- Lanes that have arithmetic faults pending, and the union of their bits. -/
def pendingOf (v : View) (ls : List Nat) : List Nat := ls.filter fun l => (v.thread l).elim false fun t => t.pend != 0
def pendBits (v : View) (rep : List Nat) : BitVec 7 := rep.foldl (fun m l => m ||| ((v.thread l).elim 0 (·.pend))) 0
section
variable {v : View} {ls : List Nat} {s : State} (hp : pendingOf v ls ≠ [])
include hp
theorem arithReport_halts (ha : (s.partD (s.ctxD v.b.ctx).part).fcw.getLsbD 0 = true) :
    arithReport v ls s = .ok (false, s.takeFault v.u fcArith 0 ((pendingOf v ls).headD 0) (pendBits v (pendingOf v ls)).toNat v.pc (maskOf (pendingOf v ls))) := by
  unfold pendingOf at hp
  unfold arithReport
  simp only [act_bind, act_get, hp, if_false, ha, if_true, act_set, act_pure]
  rfl
theorem arithReport_full (ha : (s.partD (s.ctxD v.b.ctx).part).fcw.getLsbD 0 = false) (hf : (s.ctxD v.b.ctx).fqRoom = false) :
    arithReport v ls s = .error .hold := by
  unfold pendingOf at hp
  unfold arithReport
  simp only [act_bind, act_get, hp, if_false, ha, Bool.false_eq_true, act_needA, hf]
theorem arithReport_posts (ha : (s.partD (s.ctxD v.b.ctx).part).fcw.getLsbD 0 = false) (hf : (s.ctxD v.b.ctx).fqRoom = true) :
    arithReport v ls s = .ok (true, ((pendingOf v ls).foldl (fun s l => s.modThread v.u l fun t => { t with pend := 0 }) s).post v.b.ctx
      (mkRec v.b v.u v.g fcArith 1 (v.pc.setWidth 64) 0 (maskOf (pendingOf v ls)) ((pendingOf v ls).headD 0 + 256 * (pendBits v (pendingOf v ls)).toNat)) .none) := by
  unfold pendingOf at hp
  unfold arithReport
  simp only [act_bind, act_get, hp, if_false, ha, Bool.false_eq_true, act_needA, hf, if_true, act_set, act_pure]
  rfl
end
theorem uniform_assembled {s : State} {v : View} {g : Guard} {l : Nat} (h : Assembled s v g l) (body : Nat → Act Unit) (t : State) :
    uniform g (fun _ => true) body v t = body l t := by
  obtain ⟨-, ha, hh, hg⟩ := h
  exact uniform_ok ha rfl hh hg

/-- An instruction of the three that report: what its report answers decides what it does. -/
theorem exec_reports {s : State} {v : View} {i : Instr} {ls : List Nat} {fin : State → State} (hv : s.view? = some v) (h : ReportsAt s v i ls fin) (hne : ls ≠ []) :
    exec i s = match arithReport v ls s with
      | .ok (true, t) => .next (fin t)
      | .ok (false, t) => .next t
      | .error e => .next (s.stopUnit v e) := by
  rcases h with ⟨g, rfl, rfl, rfl⟩ | ⟨w, l, rfl, rfl, ha, hp, rfl⟩ | ⟨w, l, rfl, rfl, ha, hp, rfl⟩
  · show runUnit _ s = _
    unfold runUnit
    rw [hv]
    dsimp only
    rw [act_bind]
    cases arithReport v (v.active g) s with
    | error e => rfl
    | ok p =>
      obtain ⟨b, t⟩ := p
      cases b
      · rfl
      · simp only [if_true, act_modA, hne, if_false]
  all_goals
    show runUnit _ s = _
    unfold runUnit
    rw [hv]
    dsimp only
    rw [uniform_assembled ha, act_bind_ok (released_ok hp), act_bind]
    cases arithReport v v.g.live s with
    | error e => rfl
    | ok p =>
      obtain ⟨b, t⟩ := p
      cases b <;> rfl

end Sys2Proof.Machine
end

section
open Sys2Proof Sys2Proof.Machine Sys2Proof.Spec

/-- Settles O6: arrivals by the law of group-uniform instructions, completion by the test of a barrier, reports by the outcomes of the arithmetic report. -/
theorem barriersComplete : Obligations.BarriersComplete := by
  unfold Obligations.BarriersComplete
  refine ⟨fun s v w l ha hp hn => ?_, fun b id r hr => ⟨fun h => ?_, fun h => ?_⟩, fun s v i ls fin hv h => ?_⟩
  · have he : ∀ i fin, ReportsAt s v i v.g.live fin → exec i s = .next (fin s) := by
      intro i fin h
      have hne : v.g.live ≠ [] := by
        obtain ⟨-, hal, hh, -⟩ := ha
        rw [← eq_of_beq hal]
        intro e
        rw [e] at hh
        cases hh
      rw [exec_reports ha.1 h hne, arithReport_none hn]
    exact ⟨he _ _ (.inr (.inl ⟨w, l, rfl, rfl, ha, hp, rfl⟩)), he _ _ (.inr (.inr ⟨w, l, rfl, rfl, ha, hp, rfl⟩))⟩
  · unfold Block.barCheck
    rw [hr]
    dsimp only
    rw [if_pos h]
    refine ⟨fun x hx => by simpa using (List.mem_filter.mp hx).2, fun g hg => ?_⟩
    obtain ⟨g0, -, rfl⟩ := List.mem_map.mp hg
    split
    · exact fun e => nomatch e
    · assumption
  · unfold Block.barCheck
    rw [hr]
    exact if_neg (Nat.not_le.mpr h)
  · intro rep hrep bits ctx
    have hne : ls ≠ [] := fun e => hrep (by simp only [rep, e, List.filter_nil])
    rw [exec_reports hv h hne]
    refine ⟨fun ha => ?_, fun ha hf => ?_, fun ha hf => ?_⟩
    · rw [arithReport_halts hrep ha]
      rfl
    · rw [arithReport_full hrep ha hf]
      exact congrArg Host.Outcome.next (stopUnit_hold hv)
    · rw [arithReport_posts hrep ha hf]
      rfl

end

section
/-! SUPPORT. Reading: when a source traps, when it holds, and that neither is undone by what is read after it. -/

namespace Sys2Proof.Machine

open Sys2Proof.Spec

/-! ## Holds and traps along the reads -/

/-- What is kept along a fold, with what one of its elements brings about and the others do not undo. -/
theorem foldl_reaches {α β : Type} {f : β → α → β} {I P : β → Prop} (hI : ∀ b a, I b → I (f b a)) (hP : ∀ b a, P b → P (f b a)) {x : α} (hx : ∀ b, I b → P (f b x)) :
    ∀ {xs : List α} {b : β}, x ∈ xs → I b → P (xs.foldl f b)
  | y :: ys, b, hm, hb => by
    rw [List.foldl_cons]
    rcases List.mem_cons.mp hm with rfl | hm
    · exact foldl_inv hP ys (hx b hb)
    · exact foldl_reaches hI hP hx hm (hI b y hb)
where
  foldl_inv {α β : Type} {f : β → α → β} {P : β → Prop} (hP : ∀ b a, P b → P (f b a)) : ∀ (xs : List α) {b : β}, P b → P (xs.foldl f b)
    | [], _, h => h
    | y :: ys, b, h => foldl_inv hP ys (hP b y h)

/-- Holds and traps noted stay noted. -/
structure Rd.Le (r t : Rd) : Prop where
  hold : r.hold = true → t.hold = true
  trap : r.trap = true → t.trap = true
theorem Rd.Le.refl (r : Rd) : r.Le r := ⟨id, id⟩
theorem Rd.Le.trans {a b c : Rd} (h : a.Le b) (k : b.Le c) : a.Le c := ⟨fun x => k.hold (h.hold x), fun x => k.trap (h.trap x)⟩
theorem rdEmpty_le (r : Rd) (et : Bool) : r.Le (r.empty et) := by
  unfold Rd.empty
  split
  · exact ⟨id, fun _ => rfl⟩
  · exact ⟨fun _ => rfl, id⟩
theorem rdHold_le (r : Rd) (c : Bool) : r.Le (if c then { r with hold := true } else r) := by
  split
  · exact ⟨fun _ => rfl, id⟩
  · exact Rd.Le.refl r
theorem rdEmptyIf_le (r : Rd) (et c : Bool) : r.Le (if c then r.empty et else r) := by
  split
  · exact rdEmpty_le r et
  · exact Rd.Le.refl r
theorem rdState_le (r : Rd) (s : State) : r.Le { r with s := s } := ⟨id, id⟩
theorem readSrc_le (v : View) (l : Nat) (x : Src) (r : Rd) : r.Le (readSrc v l x r).2 := by
  unfold readSrc
  split
  case h_1 =>
    split
    · exact ⟨fun _ => rfl, id⟩
    · dsimp only
      exact Rd.Le.trans (rdEmptyIf_le r x.et _) (rdHold_le _ _)
  case h_2 =>
    dsimp only
    split
    · exact (rdHold_le r _).trans (rdEmpty_le _ _)
    · cases x.ret with
      | true => exact Rd.Le.trans (rdHold_le r _) (rdHold_le _ _)
      | false => exact Rd.Le.trans (Rd.Le.trans (rdHold_le r _) (rdHold_le _ _)) (rdState_le _ _)
  case h_4 =>
    split
    · exact rdState_le r _
    · split <;> exact Rd.Le.refl r
  all_goals exact Rd.Le.refl r

/-- One source read behind others. -/
def readStep (v : View) (l : Nat) (acc : List (List PWord) × Rd) (x : Src) : List (List PWord) × Rd := (acc.1 ++ [(readSrc v l x acc.2).1], (readSrc v l x acc.2).2)
/-- The reading before the first source: the latch, where %tlo is among the sources. -/
def latchIf (v : View) (l : Nat) (xs : List Src) (r : Rd) : Rd :=
  if xs.any (·.f == 486#9) then { r with s := r.s.modThread v.u l fun t => { t with tlat := r.s.cycleOf v.b.core } } else r
theorem readSrcs_eq (v : View) (l : Nat) (xs : List Src) (r : Rd) : readSrcs v l xs r = xs.foldl (readStep v l) ([], latchIf v l xs r) := rfl
/-- One lane read behind others. -/
def laneStep (v : View) (xs : List Src) (acc : List LaneIn × Rd) (l : Nat) : List LaneIn × Rd :=
  match v.thread l with
  | some t => (acc.1 ++ [⟨l, (readSrcs v l xs acc.2).1, t.preds8, t.mode, t.sticky⟩], (readSrcs v l xs acc.2).2)
  | none => (acc.1, (readSrcs v l xs acc.2).2)
theorem readLanes_eq (v : View) (ls : List Nat) (xs : List Src) (r : Rd) : readLanes v ls xs r = ls.foldl (laneStep v xs) ([], r) := rfl
theorem laneStep_rd (v : View) (xs : List Src) (acc : List LaneIn × Rd) (l : Nat) : (laneStep v xs acc l).2 = (readSrcs v l xs acc.2).2 := by
  unfold laneStep; split <;> rfl
theorem latchIf_le (v : View) (l : Nat) (xs : List Src) (r : Rd) : r.Le (latchIf v l xs r) := by
  unfold latchIf
  split
  · exact rdState_le r _
  · exact Rd.Le.refl r
theorem latchIf_flags (v : View) (l : Nat) (xs : List Src) (r : Rd) : (latchIf v l xs r).hold = r.hold ∧ (latchIf v l xs r).trap = r.trap := by
  unfold latchIf; split <;> exact ⟨rfl, rfl⟩
theorem quiet_latchIf (v : View) (l : Nat) (xs : List Src) (r : Rd) : Quiet r.s (latchIf v l xs r).s := by
  unfold latchIf
  split
  · exact quiet_modThread _ _ _ _ fun _ => rfl
  · exact Quiet.rfl' _
theorem readSteps_le (v : View) (l : Nat) : ∀ (xs : List Src) (acc : List (List PWord) × Rd), acc.2.Le (xs.foldl (readStep v l) acc).2
  | [], acc => Rd.Le.refl acc.2
  | x :: xs, acc => (readSrc_le v l x acc.2).trans (readSteps_le v l xs (readStep v l acc x))
theorem readSrcs_le (v : View) (l : Nat) (xs : List Src) (r : Rd) : r.Le (readSrcs v l xs r).2 :=
  (latchIf_le v l xs r).trans (readSteps_le v l xs ([], latchIf v l xs r))
theorem laneStep_le (v : View) (xs : List Src) (acc : List LaneIn × Rd) (l : Nat) : acc.2.Le (laneStep v xs acc l).2 := by
  rw [laneStep_rd]
  exact readSrcs_le v l xs acc.2

/-- A source that, wherever in the reading it comes, notes what `P` says, notes it in the reading of all lanes. -/
theorem readLanes_reaches {v : View} {ls : List Nat} {xs : List Src} {s : State} {P : Rd → Prop} (hP : ∀ {r t : Rd}, r.Le t → P r → P t) {l : Nat} {x : Src}
    (hl : l ∈ ls) (hx : x ∈ xs) (h : ∀ r : Rd, Quiet s r.s → P (readSrc v l x r).2) : P (readLanes v ls xs { s := s }).2 := by
  rw [readLanes_eq]
  refine foldl_reaches (f := laneStep v xs) (I := fun acc => Quiet s acc.2.s) (P := fun acc => P acc.2) ?_ ?_ ?_ hl (Quiet.rfl' s)
  · intro acc k hq
    rw [laneStep_rd]
    exact hq.trans (quiet_readSrcs v k xs acc.2)
  · exact fun acc k => hP (laneStep_le v xs acc k)
  · intro acc hq
    rw [laneStep_rd, readSrcs_eq]
    refine foldl_reaches (f := readStep v l) (I := fun acc => Quiet s acc.2.s) (P := fun acc => P acc.2) ?_ ?_ ?_ hx (hq.trans (quiet_latchIf v l xs acc.2))
    · exact fun acc y hq => hq.trans (quiet_readSrc v l y acc.2)
    · exact fun acc y => hP (readSrc_le v l y acc.2)
    · exact fun acc hq => h acc.2 hq
/-- What no source undoes stays through the reading of all lanes. -/
theorem readLanes_inv {v : View} {ls : List Nat} {xs : List Src} {s : State} {P : Rd → Prop} (h0 : P { s := s }) (hlatch : ∀ l ∈ ls, ∀ r, P r → P (latchIf v l xs r))
    (hread : ∀ l ∈ ls, ∀ x ∈ xs, ∀ r, P r → P (readSrc v l x r).2) : P (readLanes v ls xs { s := s }).2 := by
  have hsrcs : ∀ l ∈ ls, ∀ (ys : List Src), (∀ x ∈ ys, x ∈ xs) → ∀ acc : List (List PWord) × Rd, P acc.2 → P (ys.foldl (readStep v l) acc).2 := by
    intro l hl ys
    induction ys with
    | nil => exact fun _ acc h => h
    | cons y ys ih =>
      intro hy acc h
      exact ih (fun x hx => hy x (List.mem_cons_of_mem _ hx)) (readStep v l acc y) (hread l hl y (hy y List.mem_cons_self) acc.2 h)
  have hlanes : ∀ ks : List Nat, (∀ l ∈ ks, l ∈ ls) → ∀ acc : List LaneIn × Rd, P acc.2 → P (ks.foldl (laneStep v xs) acc).2 := by
    intro ks
    induction ks with
    | nil => exact fun _ acc h => h
    | cons k ks ih =>
      intro hk acc h
      refine ih (fun l hl => hk l (List.mem_cons_of_mem _ hl)) (laneStep v xs acc k) ?_
      rw [laneStep_rd]
      exact hsrcs k (hk k List.mem_cons_self) xs (fun _ h => h) ([], latchIf v k xs acc.2) (hlatch k (hk k List.mem_cons_self) acc.2 h)
  exact hlanes ls (fun _ h => h) ([], { s := s }) h0

/-! ## What the reading of a register notes -/

/-- The register file shows a source register as `SourceIs` says, also in a state that differs quietly. -/
theorem sourceIs_regs {s : State} {v : View} {x : Src} {l : Nat} {a : Avail} {r : Rd} (h : SourceIs s v x l a) (hq : Quiet s r.s) :
    ∃ k t, opKind x.f = .reg k ∧ (r.s.grp? v.u).bind (·.threads[l]?) = some t ∧
      ((List.range x.n).map fun i => t.regs[k + i]?.getD ⟨0, false, .full⟩).any (·.av == a) = true := by
  obtain ⟨k, i, hk, hi, hr⟩ := h
  rw [← reg_of_keep hq.keep] at hr
  obtain ⟨g, hg, hga⟩ := Option.map_eq_some_iff.mp hr
  obtain ⟨t, ht, htg⟩ := Option.bind_eq_some_iff.mp hg
  refine ⟨k, t, hk, ht, List.any_eq_true.mpr ⟨t.regs[k + i]?.getD ⟨0, false, .full⟩, List.mem_map.mpr ⟨i, List.mem_range.mpr hi, rfl⟩, ?_⟩⟩
  rw [htg]
  exact beq_iff_eq.mpr hga
theorem readSrc_reg {v : View} {l k : Nat} {x : Src} {r : Rd} {t : Thread} (hk : opKind x.f = .reg k) (ht : (r.s.grp? v.u).bind (·.threads[l]?) = some t) :
    (readSrc v l x r).2 =
      let rs := (List.range x.n).map fun i => t.regs[k + i]?.getD ⟨0, false, .full⟩
      let r := if rs.any (·.av == .empty) then r.empty x.et else r
      if rs.any (·.av == .inFlight) then { r with hold := true } else r := by
  simp only [readSrc, hk, ht]
theorem rdEmpty_trap (r : Rd) : (r.empty true).trap = true := rfl
theorem rdEmpty_hold (r : Rd) : (r.empty false).hold = true := rfl
theorem readSrc_empty_trap {s : State} {v : View} {x : Src} {l : Nat} {r : Rd} (h : SourceIs s v x l .empty) (hq : Quiet s r.s) (he : x.et = true) :
    (readSrc v l x r).2.trap = true := by
  obtain ⟨k, t, hk, ht, ha⟩ := sourceIs_regs h hq
  rw [readSrc_reg hk ht]
  dsimp only
  rw [if_pos ha, he]
  exact (rdHold_le _ _).trap (rdEmpty_trap r)
theorem readSrc_empty_hold {s : State} {v : View} {x : Src} {l : Nat} {r : Rd} (h : SourceIs s v x l .empty) (hq : Quiet s r.s) (he : x.et = false) :
    (readSrc v l x r).2.hold = true := by
  obtain ⟨k, t, hk, ht, ha⟩ := sourceIs_regs h hq
  rw [readSrc_reg hk ht]
  dsimp only
  rw [if_pos ha, he]
  exact (rdHold_le _ _).hold (rdEmpty_hold r)
theorem readSrc_inFlight_hold {s : State} {v : View} {x : Src} {l : Nat} {r : Rd} (h : SourceIs s v x l .inFlight) (hq : Quiet s r.s) :
    (readSrc v l x r).2.hold = true := by
  obtain ⟨k, t, hk, ht, ha⟩ := sourceIs_regs h hq
  rw [readSrc_reg hk ht]
  dsimp only
  rw [if_pos ha]
/-- A source without an empty-trap bit that is no port traps nothing. -/
theorem readSrc_noTrap {v : View} {l : Nat} {x : Src} {r : Rd} (he : x.et = false) (hp : ∀ q, opKind x.f ≠ .port q) (h : r.trap = false) : (readSrc v l x r).2.trap = false := by
  unfold readSrc
  split
  case h_1 =>
    split
    · exact h
    · have hr : (r.empty x.et).trap = false := by rw [he]; exact h
      dsimp only
      split <;> split <;> assumption
  case h_2 q hq => exact absurd hq (hp q)
  case h_4 =>
    split
    · exact h
    · split <;> exact h
  all_goals exact h

/-! ## What the reading of all lanes answers -/

section
variable {v : View} {ls : List Nat} {x : Uses} {s : State}
theorem readAll_trap (h : (readLanes v ls x.src { s := s }).2.trap = true) : readAll v ls x s = .error (.fault fcEmpty 0 (ls.headD 0) 0) := by
  unfold readAll
  dsimp only
  rw [if_pos h]
theorem readAll_hold (ht : (readLanes v ls x.src { s := s }).2.trap = false)
    (hh : (readLanes v ls x.src { s := s }).2.hold = true ∨ x.dst.elim false (fun d => ls.any fun l => dstBusy s v.u l d) = true) : readAll v ls x s = .error .hold := by
  unfold readAll
  dsimp only
  rw [if_neg (by rw [ht]; exact Bool.false_ne_true), if_pos (by rcases hh with h | h <;> rw [h] <;> simp)]
theorem readLanes_noTrap (h : ∀ y ∈ x.src, y.et = false ∧ ∀ q, opKind y.f ≠ .port q) : (readLanes v ls x.src { s := s }).2.trap = false :=
  readLanes_inv (P := fun r => r.trap = false) rfl (fun l _ _ hr => (latchIf_flags v l x.src _).2.trans hr) fun _ _ y hy _ hr => readSrc_noTrap (h y hy).1 (h y hy).2 hr
/-- An empty source with its empty-trap bit set traps (R22). -/
theorem readAll_emptyTrap (h : ∃ l ∈ ls, ∃ y ∈ x.src, y.et = true ∧ SourceIs s v y l .empty) : readAll v ls x s = .error (.fault fcEmpty 0 (ls.headD 0) 0) := by
  obtain ⟨l, hl, y, hy, he, hs⟩ := h
  exact readAll_trap (readLanes_reaches (P := fun r => r.trap = true) (fun h => h.trap) hl hy fun r hq => readSrc_empty_trap hs hq he)
/-- Where nothing traps, a source that is not full or a destination on its way holds (R22, R23). -/
theorem readAll_notFull (hn : ∀ y ∈ x.src, y.et = false ∧ ∀ q, opKind y.f ≠ .port q)
    (h : ∃ l ∈ ls, (∃ y ∈ x.src, SourceIs s v y l .empty ∨ SourceIs s v y l .inFlight) ∨ ∃ d, x.dst = some d ∧ dstBusy s v.u l d = true) : readAll v ls x s = .error .hold := by
  refine readAll_hold (readLanes_noTrap hn) ?_
  obtain ⟨l, hl, ⟨y, hy, hs⟩ | ⟨d, hd, hb⟩⟩ := h
  · refine .inl (readLanes_reaches (P := fun r => r.hold = true) (fun h => h.hold) hl hy fun r hq => ?_)
    rcases hs with hs | hs
    · exact readSrc_empty_hold hs hq (hn y hy).1
    · exact readSrc_inFlight_hold hs hq
  · refine .inr ?_
    rw [hd]
    exact List.any_eq_true.mpr ⟨l, hl, hb⟩
end
end Sys2Proof.Machine
end
section
/-! SUPPORT. Queue instructions: a QTRY that pops, one that pushes, and results for all lanes. -/

namespace Sys2Proof.Machine

open Sys2Proof.Spec

/-- With room at its port, a result of the destination's width goes to all lanes (R180). -/
theorem writeAll_toAll {v : View} {d : Dest} {ls : List Nat} {ws : List PWord} {s : State} (hn : ws.length = d.n) (hr : RoomFor s v d ls) :
    writeAll v d ls ws s = .ok ((), toAll v d ls ws s) := writeAll_ok fun q hq => hn ▸ hr q hq
theorem taken_ite {α : Type} (w : PWord) (f : List PWord → α) (g : α → α) :
    (if w.p then g (f [w.taken]) else f [w.taken]) = if w.p then g (f [⟨0, true⟩]) else f [w] := by
  unfold PWord.taken
  split <;> rfl

section
variable {w : WA} {pd : PNum} {q : Nat} {v : View} {s : State}

section
variable (hl : (v.b.canPop v.front q && v.b.dstOk v.front ⟨w.d, 1⟩ && (portOf w.d).isNone) = true)
variable (hb : ((v.active w.g != [] && ringBusy s v.u q (v.active w.g)) || (v.active w.g).any fun l => dstBusy s v.u l ⟨w.d, 1⟩) = false)
include hl hb
theorem qtryPop_some {es : List (Nat × PWord)} {t : State} (ht : tryPops v q (srcA w).ret (v.active w.g) s = some (es, t))
    (ha : portAbsent s v.u q (tryCount (srcA w).ret (v.active w.g)) = false) :
    qtryPop w pd q v s = .ok ((), (predTo v pd true (v.active w.g) (es.foldl (fun s e =>
      if e.2.p then (writeDst s v.u e.1 ⟨w.d, 1⟩ [⟨0, true⟩]).modThread v.u e.1 (·.setFlags fPSN) else writeDst s v.u e.1 ⟨w.d, 1⟩ [e.2]) t)).advance v) := by
  have hf : (fun (s : State) (e : Nat × PWord) => if e.2.p then (writeDst s v.u e.1 ⟨w.d, 1⟩ [e.2.taken]).modThread v.u e.1 (·.setFlags fPSN) else writeDst s v.u e.1 ⟨w.d, 1⟩ [e.2.taken]) =
      fun s e => if e.2.p then (writeDst s v.u e.1 ⟨w.d, 1⟩ [⟨0, true⟩]).modThread v.u e.1 (·.setFlags fPSN) else writeDst s v.u e.1 ⟨w.d, 1⟩ [e.2] :=
    funext fun s => funext fun e => taken_ite e.2 (fun ws => writeDst s v.u e.1 ⟨w.d, 1⟩ ws) fun s => s.modThread v.u e.1 (·.setFlags fPSN)
  unfold qtryPop
  simp only [act_bind, act_needA, hl, if_true, act_get, hb, Bool.not_false, ht, ha, act_set, predAll_ok, act_done]
  rw [hf]
  rfl
theorem qtryPop_none (ht : tryPops v q (srcA w).ret (v.active w.g) s = none) :
    qtryPop w pd q v s = .ok ((), (predTo v pd false (v.active w.g) s).advance v) := by
  unfold qtryPop
  simp only [act_bind, act_needA, hl, if_true, act_get, hb, Bool.not_false, ht, predAll_ok, act_done]
  rfl
end

section
variable (hl : (v.b.canPush q && v.b.srcOk v.front (srcA w)) = true)
include hl
section
variable {ins : List LaneIn} {s1 : State} {r : Ring} (hr : v.b.ring? q = some r)
  (hread : readAll v (v.active w.g) { src := [{ srcA w with et := false }] } s = .ok (ins, s1)) (hb : v.active w.g ≠ [] → ringBusy s1 v.u q (v.active w.g) = false)
include hr hread hb
theorem qtryPush_room (hroom : (v.active w.g).length ≤ r.room) (hp : v.active w.g ≠ [] → pushBusy s1 v.u q (v.active w.g) (v.active w.g).length = false) :
    qtryPush w pd q v s = .ok ((), (predTo v pd true (v.active w.g) (ins.foldl (fun s x =>
      let t := pushRing s v.u.blk q [if (x.w 0).p then ⟨0, true⟩ else x.w 0]
      if x.psn then t.modThread v.u x.lane (·.setFlags fPSN) else t) s1)).advance v) := by
  have hb' : (decide (v.active w.g = []) || !ringBusy s1 v.u q (v.active w.g)) = true := by
    by_cases h : v.active w.g = []
    · simp [h]
    · simp [hb h]
  have hp' : (decide (v.active w.g = []) || !pushBusy s1 v.u q (v.active w.g) (v.active w.g).length) = true := by
    by_cases h : v.active w.g = []
    · simp [h]
    · simp [hp h]
  unfold qtryPush
  simp only [act_bind, act_needA, hl, if_true, act_get, hread, hr, Option.map_some, Option.getD_some, hb', hroom, hp', act_set, predAll_ok, act_done]
  rfl
theorem qtryPush_full (hroom : r.room < (v.active w.g).length) : qtryPush w pd q v s = .ok ((), (predTo v pd false (v.active w.g) s).advance v) := by
  have hne : v.active w.g ≠ [] := fun e => by rw [e] at hroom; exact absurd hroom (Nat.not_lt_zero _)
  have hb' : (decide (v.active w.g = []) || !ringBusy s1 v.u q (v.active w.g)) = true := by simp [hb hne]
  unfold qtryPush
  simp only [act_bind, act_needA, hl, if_true, act_get, hread, hr, Option.map_some, Option.getD_some, hb', Nat.not_le.mpr hroom, if_false, predAll_ok, act_done]
  rfl
end
theorem qtryPush_stop {e : Stop} (hread : readAll v (v.active w.g) { src := [{ srcA w with et := false }] } s = .error e) : qtryPush w pd q v s = .error e := by
  unfold qtryPush
  simp only [act_bind, act_needA, hl, if_true, act_get, hread, act_throw]
end
theorem exec_qtryPop (hv : s.view? = some v) (hd : portOf w.d = none) (ha : portOf w.a = some q) {t : State} (h : qtryPop w pd q v s = .ok ((), t)) :
    exec (.qtry w pd) s = .next t := by
  refine runUnit_ok hv ?_
  simp only [hd, ha, h]
theorem exec_qtryPush (hv : s.view? = some v) (hd : portOf w.d = some q) (ha : portOf w.a = none) {t : State} (h : qtryPush w pd q v s = .ok ((), t)) :
    exec (.qtry w pd) s = .next t := by
  refine runUnit_ok hv ?_
  simp only [hd, ha, h]
end

end Sys2Proof.Machine
end

section
open Sys2Proof Sys2Proof.Machine Sys2Proof.Spec

/-- Settles O7: QTRY by the direction that its port gives it, QCFG and QLEN as elected instructions. -/
theorem queueInstructionsComplete : Obligations.QueueInstructionsComplete := by
  unfold Obligations.QueueInstructionsComplete
  refine fun s v hv => ⟨?_, ?_, ?_, ?_, ?_⟩
  · intro w pd q hd ha hpop hdst hbusy hdb
    have hl : (v.b.canPop v.front q && v.b.dstOk v.front ⟨w.d, 1⟩ && (portOf w.d).isNone) = true := by rw [hpop, hdst, hd]; rfl
    have hb : ((v.active w.g != [] && ringBusy s v.u q (v.active w.g)) || (v.active w.g).any fun l => dstBusy s v.u l ⟨w.d, 1⟩) = false := by
      rw [all_false_any hdb, Bool.or_false]
      by_cases h : v.active w.g = []
      · simp [h]
      · simp [hbusy h]
    exact ⟨fun es t ht hab => exec_qtryPop hv hd ha (qtryPop_some hl hb ht hab), fun ht => exec_qtryPop hv hd ha (qtryPop_none hl hb ht)⟩
  · intro w pd q ins s1 r hd ha hpush hsrc hr hread hb
    have hl : (v.b.canPush q && v.b.srcOk v.front (srcA w)) = true := by rw [hpush, hsrc]; rfl
    exact ⟨fun hroom hp => exec_qtryPush hv hd ha (qtryPush_room hl hr hread hb hroom hp), fun hroom => exec_qtryPush hv hd ha (qtryPush_full hl hr hread hb hroom)⟩
  · intro w pd q hd ha hpush hsrc ⟨l, hl, hs⟩
    have hlegal : (v.b.canPush q && v.b.srcOk v.front (srcA w)) = true := by rw [hpush, hsrc]; rfl
    have hport : ∀ p, opKind w.a ≠ .port p := fun p hp => by unfold portOf at ha; rw [hp] at ha; cases ha
    have hread : readAll v (v.active w.g) { src := [{ srcA w with et := false }] } s = .error .hold :=
      readAll_notFull (fun y hy => by rw [List.mem_singleton.mp hy]; exact ⟨rfl, hport⟩) ⟨l, hl, .inl ⟨_, List.mem_cons_self, hs⟩⟩
    refine (runUnit_stop hv (e := .hold) ?_).trans (congrArg _ (stopUnit_hold hv))
    simp only [hd, ha, qtryPush_stop hlegal hread]
  · intro w q l ls i s1 hd h1 h15 ⟨_, hl, ha, hread, hdb⟩ hc halign hfit hk1 hk10 hb
    refine runUnit_ok hv ?_
    have hq : ((decide (1 ≤ q)) && decide (q ≤ 15)) = true := by simp [h1, h15]
    have hok : ((i.w 0).v.toNat % 4 == 0 && decide ((i.w 0).v.toNat + 4 * 2 ^ (w.imm.toNat % 16) ≤ v.b.shared) && decide (1 ≤ w.imm.toNat % 16) &&
        decide (w.imm.toNat % 16 ≤ 10)) = true := by simp [halign, hfit, hk1, hk10]
    simp only [act_bind, act_needA, hd, Option.getD_some, hq, if_true]
    rw [elected_ok hl ha hread hdb hc]
    simp only [act_bind, act_needA, hok, if_true, act_get, List.take_succ_cons, List.take_zero, hb, Bool.not_false, act_modA, act_done]
  · intro w q l ls i s1 ha hpop ⟨_, hl, hact, hread, hdb⟩ hb hroom
    refine runUnit_ok hv ?_
    simp only [act_bind, act_needA, ha, Option.elim, hpop, if_true]
    rw [elected_ok hl hact hread hdb rfl]
    simp only [act_bind, act_get, Option.getD_some, act_needA, hb, Bool.not_false, if_true]
    rw [writeAll_toAll (d := ⟨w.d, 1⟩) (by rfl) hroom]
    rfl

end

section
/-! SUPPORT. Elected instructions by their readiness, and results in the grid's tables. -/

namespace Sys2Proof.Machine

open Sys2Proof.Spec

/-- An elected instruction that is ready with clean control operands runs its body over the active lanes. -/
theorem elected_ready {g : Guard} {x : Uses} {ks : List Nat} {body : List Nat → LaneIn → Act Unit} {s s1 : State} {v : View} {l : Nat} {ls : List Nat} {i : LaneIn}
    (h : ElectedReady g x s v l ls i s1) (hc : Clean ks i) : elected g x ks body v s = body (l :: ls) i s1 := by
  obtain ⟨-, hl, ha, hr, hd⟩ := h
  exact elected_ok hl ha hr hd hc
theorem clean_nil (i : LaneIn) : Clean [] i := rfl
/-- Which stages are in is no unit's own. -/
theorem stageIn_quiet {s t : State} (h : Quiet s t) (b : Block) (k : Nat) : t.stageIn b k = s.stageIn b k := by
  have hg := congrArg State.grids h.rest
  unfold State.stageIn State.grid?
  rw [show t.grids = s.grids from hg]

end Sys2Proof.Machine
end

section
open Sys2Proof Sys2Proof.Machine Sys2Proof.Spec

/-- Settles O8: elected instructions run their bodies on what the lowest lane read; channels go lane by lane. -/
theorem trayTokenAndTaskInstructionsComplete : Obligations.TrayTokenAndTaskInstructionsComplete := by
  unfold Obligations.TrayTokenAndTaskInstructionsComplete
  refine ⟨fun s s1 v l ls i => ⟨fun w h hp ht => ?_, fun w reg hreg h hc => ?_, fun w h hc hroom => ?_⟩, ?_, ?_, ?_⟩
  · refine runUnit_ok h.1 ((elected_ready h (clean_nil i)).trans ?_)
    rw [act_bind_ok (released_ok hp)]
    simp only [act_bind, act_needA, ht, decide_true, if_true, act_modA, act_done]
  · subst hreg
    exact runUnit_ok h.1 ((elected_ready h hc).trans rfl)
  · refine runUnit_ok h.1 ((elected_ready h hc).trans ?_)
    simp only [act_bind, act_get]
    cases (s1.grid? v.b.grid).bind fun g => g.kd.pick (i.d 0).toNat with
    | some k =>
      refine (act_bind_ok (act_set _ _)).trans ?_
      exact act_bind_ok (writeAll_toAll (d := ⟨w.d, 1⟩) (ws := [⟨BitVec.ofNat 32 k, false⟩]) rfl (s := s1.modGrid v.b.grid fun g => { g with var := k }) hroom)
    | none =>
      exact act_bind_ok (writeAll_toAll (d := ⟨w.d, 1⟩) (ws := [⟨0xFFFFFFFF, false⟩]) rfl hroom)
  · intro s s1 v w up sp k ins hv hch hl hp hread hne hlen hin
    refine runUnit_ok hv ?_
    simp only [act_bind, act_get, hch, act_needA, hl, if_true]
    rw [released_ok hp]
    rw [stageIn_quiet (quiet_readAll hread)] at hin
    simp only [hread, hne, decide_false, Bool.false_or, hlen, decide_true, hin, Bool.and_self, if_false]
    rfl
  · intro s v w up sp k hv hch hd hne hlen hdb hroom
    refine runUnit_ok hv ?_
    have hf : (fun (s : State) (e : Nat × PWord) => if e.2.p then (writeDst s v.u e.1 ⟨w.d, 1⟩ [e.2.taken]).modThread v.u e.1 (·.setFlags fPSN) else writeDst s v.u e.1 ⟨w.d, 1⟩ [e.2.taken]) =
        fun s e => if e.2.p then (writeDst s v.u e.1 ⟨w.d, 1⟩ [⟨0, true⟩]).modThread v.u e.1 (·.setFlags fPSN) else writeDst s v.u e.1 ⟨w.d, 1⟩ [e.2] :=
      funext fun s => funext fun e => taken_ite e.2 (fun ws => writeDst s v.u e.1 ⟨w.d, 1⟩ ws) fun s => s.modThread v.u e.1 (·.setFlags fPSN)
    rw [← hf]
    simp only [act_bind, act_get, hch, act_needA, hd, if_true, hlen, decide_true, all_false_any hdb, Bool.not_false, Bool.and_self]
    unfold RoomFor at hroom
    cases hk : opKind w.d with
    | port q =>
      have hq := hroom q hk
      rw [Nat.one_mul] at hq
      simp only [act_bind, act_needA, hq, Bool.not_false, Bool.or_true, if_true, hne, if_false, act_set, act_done]
    | _ => simp only [hne, if_false, act_bind, act_set, act_done]
  · intro s s1 v l ls i g w hg
    refine ⟨fun hk h hc ht => ?_, fun pd hk h hc hroom => ?_, fun hgrt h hp => ?_, fun ws hgrt ha hne hws h hc hroom => ?_⟩
    · refine runUnit_ok h.1 ((elected_ready h hc).trans ?_)
      simp only [act_bind, act_get, hg, act_needA, hk, beq_self_eq_true, if_true]
      split
      · simp only [act_bind, act_needA, ht, decide_true, if_true, act_set, act_done]
      · rfl
    · refine runUnit_ok h.1 ((elected_ready h hc).trans ?_)
      simp only [act_bind, act_get, hg, act_needA, hk, beq_self_eq_true, if_true]
      cases g.recs.find? fun r => r.idx == v.b.idx && decide (r.lo < r.hi) with
      | none => rfl
      | some r =>
        dsimp only
        rw [act_bind_ok (writeAll_toAll (d := ⟨w.d, 4⟩) (by rfl) hroom)]
        rfl
    · refine runUnit_ok h.1 ((elected_ready h (clean_nil i)).trans ?_)
      have hgrt' : (g.grt != 0) = true := bne_iff_ne.mpr hgrt
      simp only [act_bind, act_get, hg, act_needA, hgrt', if_true]
      rw [released_ok hp]
      generalize i.w 0 = a
      obtain ⟨x, p⟩ := a
      cases p <;> rfl
    · refine runUnit_ok h.1 ((elected_ready h hc).trans ?_)
      have hok : (g.grt != 0 && decide ((i.w 0).v.toNat < g.nblocks) && (i.w 0).v.toNat != v.b.idx) = true := by simp [hgrt, ha, hne]
      have hlen : ws.length = 2 := by
        cases hr : g.resOf (i.w 0).v.toNat <;> rw [hr] at hws <;> cases hws <;> rfl
      simp only [act_bind, act_get, hg, act_needA, hok, if_true, hws]
      rw [writeAll_toAll (d := ⟨w.d, 2⟩) hlen hroom]
      rfl

end

section
/-! SUPPORT. Memory instructions by their readiness: the lanes that a body gets, the checks it passes, chains of accesses. -/

namespace Sys2Proof.Machine

open Sys2Proof.Spec

section
variable {w : WM} {x : Uses} {s s1 : State} {v : View} {ins : List LaneIn}
/-- A memory instruction that is ready runs its body on the lanes read. -/
theorem memIssue_ready {legal all : Bool} {body : List LaneIn → Act Unit} (h : MemReady w x all s v ins s1) (hl : legal = true) : memIssue w x legal all body v s = body ins s1 := by
  obtain ⟨-, hlegal, ha, ho, hr, hc⟩ := h
  exact memIssue_ok (by rw [hlegal, hl]; rfl) ha ho hr hc
theorem checkShared_ready {as : List LaneAt} {n : Nat} (h : SharedOk v as n) : checkShared v as n s = .ok ((), s) := checkShared_ok h.1 h.2
theorem checkSpill_ready {as : List LaneAt} {n : Nat} (h : SpillOk v as n) : checkSpill v as n s = .ok ((), s) := checkSpill_ok h.1 h.2
theorem sharedPresent_ready {as : List LaneAt} {n : Nat} (h : SharedOk v as n) (hp : Present v as n) :
    (do checkShared v as n; presentAll v as n : Act Unit) s = .ok ((), s) := by
  rw [act_bind_ok (checkShared_ready h)]
  exact presentAll_ok hp
theorem portRoom_ready {f : Opnd} {as : List LaneAt} {n : Nat} (h : LoadRoom s v f as n) : portRoom v f (as.map (·.x.lane)) (n * as.length) s = .ok ((), s) := by
  refine portRoom_ok fun q hq => ?_
  rcases h q hq with rfl | rfl | hb
  · simp
  · simp
  · simp [hb]
theorem translate_ready {as : List LaneAt} {n : Nat} {write : Bool} {lf : LaneAt → Leaf} (h : Mapped s v as n write lf) :
    translate v as n write s = .ok (as.map fun a => (a, lf a), s) :=
  translate_ok lf h.1 (fun a ha => (h.2 a ha).1) (fun a ha => (h.2 a ha).2.1) fun a ha => (h.2 a ha).2.2
end

/-- Accesses in a chain, each lane with the leaf it translates to. -/
theorem laneChain_leaf (as : List LaneAt) (lf : LaneAt → Leaf) (f : State → LaneAt × Leaf → Option Nat → State) (s : State) :
    laneChain (as.map fun a => (a, lf a)) f s = laneChain (as.map fun a => (a, lf a)) (fun s p prev => f s (p.1, lf p.1) prev) s := by
  unfold laneChain
  rw [List.foldl_map, List.foldl_map]
theorem all_map_leaf (as : List LaneAt) (lf : LaneAt → Leaf) {p : LaneAt × Leaf → Bool} (h : ∀ a ∈ as, p (a, lf a) = true) : (as.map fun a => (a, lf a)).all p = true := by
  rw [List.all_map, List.all_eq_true]
  exact h

/-! ## Loads -/

/-- A load of the shared or spill space that passes its checks, with its queue storing nothing it reads and room at its port. -/
theorem loadNow_ok {w : WM} {sx : Bool} {check : List LaneAt → Act Unit} {key : LaneAt → List (Nat × Nat)} {s s1 : State} {v : View} {ins : List LaneIn}
    (h : MemReady w { src := [mSrc w.base 1], dst := some ⟨w.data, Width.words w.wid⟩ } false s v ins s1) (hc : check (nearLanes w ins) s1 = .ok ((), s1))
    (hf : ∀ a ∈ nearLanes w ins, ∀ p ∈ key a, v.sqFree p.1 p.2 = true) (hr : LoadRoom s1 v w.data (nearLanes w ins) (Width.words w.wid)) :
    loadNow w sx check key v s = .ok ((), ((nearLanes w ins).foldl (fun s a => s.deliverAt v.u a.x.lane w.data
      (if Width.n w < 4 then s.loadWords ((key a).headD (0, 0)).1 (Width.n w) (sxCode w sx) else (key a).flatMap fun p => s.loadWords p.1 p.2 0) (acqs (ordOf w))) s1).advance v) := by
  have hall : ((nearLanes w ins).all fun a => (key a).all fun p => v.sqFree p.1 p.2) = true :=
    List.all_eq_true.mpr fun a ha => List.all_eq_true.mpr (hf a ha)
  unfold loadNow
  refine (memIssue_ready h rfl).trans ?_
  refine (act_bind_ok hc).trans ?_
  rw [show (ins.map fun x => (⟨x, laneAddr w false x⟩ : LaneAt)) = nearLanes w ins from rfl, hall]
  refine (act_bind_ok (act_needA true _ _)).trans ?_
  exact act_bind_ok (portRoom_ready hr)

end Sys2Proof.Machine
end

section
open Sys2Proof Sys2Proof.Machine Sys2Proof.Spec

/-- Settles O9: the loads of the near spaces by their common law; a scratchpad load by the leaves that its lanes translate to. -/
theorem loadsComplete : Obligations.LoadsComplete := by
  unfold Obligations.LoadsComplete
  intro s s1 v w sx ins n nw
  refine ⟨fun h => ⟨fun hs hp hf hr => ?_, fun hs hf hr => ?_⟩, fun lf h hm hord hr => ?_⟩
  · have e := loadNow_ok (sx := sx) (check := fun as => do checkShared v as (Width.n w); presentAll v as (Width.n w)) (key := fun a => [(kShared v.u.blk a.a, Width.n w)]) h (sharedPresent_ready hs hp) (fun a ha p hp => List.mem_singleton.mp hp ▸ hf a ha) hr
    refine (show exec (.lds w sx) s = _ from runUnit_ok h.1 e).trans ?_
    refine congrArg (fun f => Host.Outcome.next (State.advance ((nearLanes w ins).foldl f s1) v)) (funext fun s => funext fun a => ?_)
    congr 1
    show _ = s.loadWords _ (Width.n w) (if Width.n w < 4 then sxCode w sx else 0)
    split <;> simp
  · exact runUnit_ok h.1 (loadNow_ok h (checkSpill_ready hs) hf hr)
  · refine runUnit_ok h.1 ((memIssue_ready h rfl).trans ?_)
    refine (act_bind_ok (translate_ready hm)).trans ?_
    have hall := all_map_leaf (farLanes w ins) lf (p := fun t => (!t.2.ord || v.unpOf t.1.x.lane == []) && v.sqFree (s1.leafKey t.2) (Width.n w)) fun a ha => by
      obtain ⟨h1, h2⟩ := hord a ha
      have h2 : v.sqFree (s1.leafKey (lf a)) (Width.n w) = true := h2
      cases ho : (lf a).ord with
      | false => simpa [ho] using h2
      | true => simpa [ho, h1 ho] using h2
    have hroom : portRoom v w.data (((farLanes w ins).map fun a => (a, lf a)).map (·.1.x.lane)) (Width.words w.wid * ((farLanes w ins).map fun a => (a, lf a)).length) s1 = .ok ((), s1) := by
      rw [List.map_map, List.length_map]
      exact portRoom_ready hr
    refine (act_bind_ok (act_get s1)).trans ?_
    rw [hall]
    refine (act_bind_ok (act_needA true _ s1)).trans ?_
    refine (act_bind_ok hroom).trans ?_
    refine (act_bind_ok (act_modA _ s1)).trans ?_
    rw [laneChain_leaf]
    rfl

end

section
/-! SUPPORT. Stores and atomics by their readiness. -/

namespace Sys2Proof.Machine

open Sys2Proof.Spec

/-- A store of the shared or spill space that passes its checks. -/
theorem storeNow_ok {w : WM} {check : List LaneAt → Act Unit} {op : LaneAt → List Byte → SqOp} {s s1 : State} {v : View} {ins : List LaneIn}
    (h : MemReady w { src := [mSrc w.data (Width.words w.wid), mSrc w.base 1] } false s v ins s1) (hc : check (nearLanes w ins) s1 = .ok ((), s1)) :
    storeNow w check op v s = .ok ((), ((nearLanes w ins).foldl (fun s a => if dataPsn a.x then s.dropStore v a.x.lane
      else s.enqueue v.u a.x.lane (rels (ordOf w)) false fun _ => op a (dataBytes a.x (Width.n w))) s1).advance v) := by
  unfold storeNow
  refine (memIssue_ready h rfl).trans ?_
  exact act_bind_ok hc
/-- Whether lanes with strongly ordered leaves, or all under acquire-release, have nothing on its way. -/
theorem all_ordered {as : List LaneAt} {lf : LaneAt → Leaf} {v : View} (c : Bool) (h : ∀ a ∈ as, (lf a).ord = true ∨ c = true → v.unpOf a.x.lane = []) :
    ((as.map fun a => (a, lf a)).all fun t => !(t.2.ord || c) || v.unpOf t.1.x.lane == []) = true :=
  all_map_leaf as lf fun a ha => by
    cases ho : (lf a).ord || c with
    | false => simp
    | true => simp [h a ha (by simpa using ho)]

/-- An atomic of the shared space: on an empty store queue, each lane's operation in order (R250). -/
theorem atomic_shared {w : WM} {nd nr : Nat} {op : Nat → LaneIn → OcOp} {s s1 : State} {v : View} {ins : List LaneIn} (hk : v.b.rwOk v.front w.data nd = true)
    (h : MemReady w { src := [mSrc w.data nd, mSrc w.base 1] } false s v ins s1) (hs : SharedOk v (nearLanes w ins) (Width.n w)) (hp : Present v (nearLanes w ins) (Width.n w))
    (hq : v.g.sq = []) (ho : ∀ a ∈ nearLanes w ins, (rels (ordOf w) = true → v.unpOf a.x.lane = []) ∧ s1.preOf v.u a.x.lane false = []) :
    atomic w .shared nd nr op v s = .ok ((), ((nearLanes w ins).foldl (fun s a => if dataPsn a.x then s.dropAtom v a.x.lane w.data nr
        else writeDst ((op (kShared v.u.blk a.a) a.x).perform 0 s).2 v.u a.x.lane ⟨w.data, nr⟩ ((op (kShared v.u.blk a.a) a.x).perform 0 s).1) s1).advance v) := by
  have hall : (v.g.sq == [] && (nearLanes w ins).all fun a => (!rels (ordOf w) || v.unpOf a.x.lane == []) && s1.preOf v.u a.x.lane false == []) = true := by
    rw [hq, Bool.and_eq_true, List.all_eq_true]
    refine ⟨rfl, fun a ha => ?_⟩
    obtain ⟨h1, h2⟩ := ho a ha
    cases hr : rels (ordOf w) with
    | false => simp [h2]
    | true => simp [h2, h1 hr]
  unfold atomic
  refine (memIssue_ready h hk).trans ?_
  dsimp only
  rw [show (ins.map fun x => (⟨x, laneAddr w (ASpace.shared == ASpace.scratch) x⟩ : LaneAt)) = nearLanes w ins from rfl]
  rw [act_bind_ok (checkShared_ready hs), act_bind_ok (act_get s1), hall, act_bind_ok (act_needA true _ s1), act_bind_ok (presentAll_ok hp)]
  rfl
/-- An atomic of the scratchpad: queued to the slices that its lanes translate to (R226, R275). -/
theorem atomic_scratch {w : WM} {nd nr : Nat} {op : Nat → LaneIn → OcOp} {s s1 : State} {v : View} {ins : List LaneIn} {lf : LaneAt → Leaf} (hk : v.b.rwOk v.front w.data nd = true)
    (h : MemReady w { src := [mSrc w.data nd, mSrc w.base 2] } false s v ins s1) (hm : Mapped s1 v (farLanes w ins) (Width.n w) true lf)
    (ho : ∀ a ∈ farLanes w ins, (lf a).ord = true ∨ ordOf w = .acqRel → v.unpOf a.x.lane = []) :
    atomic w .scratch nd nr op v s = .ok ((), (laneChain ((farLanes w ins).map fun a => (a, lf a)) (fun s p prev =>
        let a := p.1
        if dataPsn a.x then s.dropAtom v a.x.lane w.data nr
        else
          let (d, t) := s.destFor v.u a.x.lane w.data nr 0 .empty
          let x := t.enqueue v.u a.x.lane (rels (ordOf w)) (lf a).ord fun id =>
            .chan ⟨id, v.b.core, t.leafSlice (lf a), v.u, a.x.lane, d, op (t.leafKey (lf a)) a.x, prev⟩
          let y := if acqs (ordOf w) then x.acquire v.u a.x.lane t.nextId else x
          if ordOf w = .acqRel then y.atomHolds v.u a.x.lane t.nextId else y) s1).advance v) := by
  have hall := all_ordered (v := v) (lf := lf) (as := farLanes w ins) (ordOf w == .acqRel) fun a ha h => ho a ha (by simpa using h)
  unfold atomic
  refine (memIssue_ready h hk).trans ?_
  dsimp only
  rw [show (ins.map fun x => (⟨x, laneAddr w (ASpace.scratch == ASpace.scratch) x⟩ : LaneAt)) = farLanes w ins from rfl]
  rw [act_bind_ok (translate_ready hm), hall, act_bind_ok (act_needA true _ s1)]
  refine (act_bind_ok (act_modA _ s1)).trans ?_
  rw [laneChain_leaf]
  rfl

end Sys2Proof.Machine
end

section
open Sys2Proof Sys2Proof.Machine Sys2Proof.Spec

/-- Settles O10: the stores of the near spaces by their common law, a scratchpad store by the leaves of its lanes. -/
theorem storesComplete : Obligations.StoresComplete := by
  unfold Obligations.StoresComplete
  intro s s1 v w ins n
  refine ⟨fun h => ⟨fun hs hp => ?_, fun hs => ?_⟩, fun lf h hm ho => ?_⟩
  · exact runUnit_ok h.1 (storeNow_ok h (check := fun as => do checkShared v as (Width.n w); presentAll v as (Width.n w)) (sharedPresent_ready hs hp))
  · exact runUnit_ok h.1 (storeNow_ok h (check := fun as => checkSpill v as (Width.n w)) (checkSpill_ready hs))
  · refine runUnit_ok h.1 ((memIssue_ready h rfl).trans ?_)
    refine (act_bind_ok (translate_ready hm)).trans ?_
    have hall := all_ordered (v := v) (lf := lf) (as := farLanes w ins) false fun a ha h => ho a ha (by simpa using h)
    simp only [Bool.or_false] at hall
    rw [hall]
    refine (act_bind_ok (act_needA true _ s1)).trans ?_
    refine (act_bind_ok (act_modA _ s1)).trans ?_
    rw [laneChain_leaf]
    rfl

/-- Settles O11: both instructions are one operation, in the shared space at issue, in the scratchpad in the queue. -/
theorem atomicsComplete : Obligations.AtomicsComplete := by
  unfold Obligations.AtomicsComplete
  intro s s1 v w ins i nd op n nr hi hk
  have hexec : ∀ sp, exec (i sp) s = runUnit (fun v => atomic w sp nd nr op v) s := by
    intro sp
    rcases hi with ⟨a, rfl, rfl, rfl⟩ | ⟨rfl, rfl, rfl⟩ <;> rfl
  refine ⟨fun h hs hp hq ho => ?_, fun lf h hm ho => ?_⟩
  · rw [hexec]
    exact runUnit_ok h.1 (atomic_shared hk h hs hp hq ho)
  · rw [hexec]
    exact runUnit_ok h.1 (atomic_scratch hk h hm ho)

end

section
/-! SUPPORT. Instructions once per split by their readiness, lane by lane effects, and the checks of the shared space that fail. -/

namespace Sys2Proof.Machine

open Sys2Proof.Spec

theorem perSplit_ready {w : WC} {x : Uses} {ks : List Nat} {legal : Bool} {body : List Nat → LaneIn → Act Unit} {s s1 : State} {v : View} {l : Nat} {i : LaneIn}
    (h : SplitReady w x ks s v l i s1) (hk : legal = true) : perSplit w x legal ks body v s = body v.lanes i s1 := by
  obtain ⟨-, hl, hh, hg, hw, hr, hd, hc⟩ := h
  exact perSplit_ok (by rw [hl, hk]; rfl) hh hg hw hr hd hc

/-- A loop over lanes that each may fault, where none does. -/
theorem eachLane_loop {f : LaneAt → State → Option State} {e : LaneAt → Stop} : ∀ {as : List LaneAt} {s t : State}, eachLane f as s = some t →
    (forIn as PUnit.unit fun a (_ : PUnit) => (do
      let s ← get
      match f a s with
      | some t => set t
      | none => throw (e a)
      pure (ForInStep.yield PUnit.unit) : Act (ForInStep PUnit))) s = .ok (PUnit.unit, t)
  | [], s, t, h => by
    cases h
    rfl
  | a :: as, s, t, h => by
    obtain ⟨m, hm, ht⟩ := Option.bind_eq_some_iff.mp h
    rw [List.forIn_cons, act_bind_ok (a := ForInStep.yield PUnit.unit) (t := m)]
    · exact eachLane_loop ht
    · simp only [act_bind, act_get, hm, act_set, act_pure]
/-- A byte-barrier instruction that is ready: each lane's update in order, and on (R261). -/
theorem bbOp_ok {w : WM} {x : Uses} {pre : LaneAt → Bool} {upd : Nat → LaneAt → State → Option State} {s s1 t : State} {v : View} {ins : List LaneIn}
    (h : MemReady w x x.dst.isNone s v ins s1) (hs : SharedOk v (nearLanes w ins) 8) (hp : Present v (nearLanes w ins) 8) (hq : v.g.sq = [])
    (hpre : ∀ a ∈ nearLanes w ins, pre a = true) (hr : LoadRoom s1 v (x.dst.elim 511#9 (·.f)) (nearLanes w ins) 1)
    (he : eachLane (fun a => upd (kShared v.u.blk a.a) a) (nearLanes w ins) s1 = some t) : bbOp w x pre upd v s = .ok ((), t.advance v) := by
  have hall : (v.g.sq == [] && (nearLanes w ins).all pre) = true := by
    rw [hq, Bool.and_eq_true, List.all_eq_true]
    exact ⟨rfl, hpre⟩
  have hroom := portRoom_ready hr
  rw [Nat.one_mul] at hroom
  unfold bbOp
  refine (memIssue_ready h rfl).trans ?_
  rw [show (ins.map fun x => (⟨x, laneAddr w false x⟩ : LaneAt)) = nearLanes w ins from rfl]
  rw [act_bind_ok (checkShared_ready hs), hall, act_bind_ok (act_needA true _ s1), act_bind_ok (presentAll_ok hp), act_bind_ok hroom]
  exact act_bind_ok (eachLane_loop (e := fun a => .fault fcBarrier (BitVec.ofNat 64 a.a) a.x.lane 0) he)
theorem loadRoom_zero (s : State) (v : View) (as : List LaneAt) (n : Nat) : LoadRoom s v 511#9 as n := fun _ hq => nomatch opKind_zero.symm.trans hq

/-! ## Failing checks of the shared space -/

/-- A memory instruction whose body stops on the lanes read stops so. -/
theorem memIssue_stop {w : WM} {x : Uses} {legal all : Bool} {body : List LaneIn → Act Unit} {s s1 : State} {v : View} {ins : List LaneIn} {e : Stop}
    (h : MemReady w x all s v ins s1) (hl : legal = true) (hb : body ins s1 = .error e) : memIssue w x legal all body v s = .error e :=
  (memIssue_ready h hl).trans hb
theorem atomic_stop {w : WM} {nd nr : Nat} {op : Nat → LaneIn → OcOp} {s s1 : State} {v : View} {ins : List LaneIn} {e : Stop} (hk : v.b.rwOk v.front w.data nd = true)
    (h : MemReady w { src := [mSrc w.data nd, mSrc w.base 1] } false s v ins s1) (hc : checkShared v (nearLanes w ins) (Width.n w) s1 = .error e) :
    atomic w .shared nd nr op v s = .error e := by
  unfold atomic
  exact memIssue_stop h hk (act_bind_error hc)
/-- A shared-space instruction checks its lanes first: whatever stops the check stops it. -/
theorem exec_near_stop {i : Instr} {s s1 : State} {v : View} {m : MemUse} {ins : List LaneIn} {e : Stop} (hm : nearUse v i = some m) (h : m.Ready s v ins s1)
    (hc : checkShared v (nearLanes m.w ins) m.n s1 = .error e) : exec i s = .next (s.stopUnit v e) := by
  obtain ⟨h, hk⟩ := h
  cases i
  case atom w sp a =>
    cases sp <;> cases hm
    exact runUnit_stop h.1 (atomic_stop hk h hc)
  case acas w sp =>
    cases sp <;> cases hm
    exact runUnit_stop h.1 (atomic_stop hk h hc)
  case lds =>
    cases hm
    refine runUnit_stop h.1 ?_
    unfold loadNow
    exact memIssue_stop h rfl (act_bind_error (act_bind_error hc))
  case sts =>
    cases hm
    refine runUnit_stop h.1 ?_
    unfold storeNow
    exact memIssue_stop h rfl (act_bind_error (act_bind_error hc))
  all_goals cases hm
  all_goals refine runUnit_stop h.1 ?_
  all_goals exact memIssue_stop h rfl (act_bind_error hc)

end Sys2Proof.Machine
end

section
open Sys2Proof Sys2Proof.Machine Sys2Proof.Spec

/-- Settles O12: the presence instructions over their lanes, fences by their order, counters once per split. -/
theorem presenceFenceTimelineComplete : Obligations.PresenceFenceTimelineComplete := by
  unfold Obligations.PresenceFenceTimelineComplete
  refine ⟨⟨fun s s1 v w b ins h hs => ?_, fun s s1 v w ins h hs hf hr => ?_, fun s v w hv => ⟨fun ho => ?_, fun ho hl => ?_, fun ho => ?_, fun ho hl => ?_⟩⟩,
    fun s s1 v w l i tl => ⟨fun h ht hr => ?_, fun h ht hc => ?_⟩⟩
  · refine runUnit_ok h.1 ((memIssue_ready h rfl).trans ?_)
    exact act_bind_ok (checkShared_ready hs)
  · refine runUnit_ok h.1 ((memIssue_ready h rfl).trans ?_)
    have hroom := portRoom_ready hr
    rw [Nat.one_mul] at hroom
    refine (act_bind_ok (checkShared_ready hs)).trans ?_
    rw [show (ins.map fun x => (⟨x, laneAddr w false x⟩ : LaneAt)) = nearLanes w ins from rfl, all_false_any hf]
    refine (act_bind_ok (act_needA true _ s1)).trans ?_
    exact act_bind_ok hroom
  · refine runUnit_ok hv ?_
    simp only [act_bind, act_get, ho, act_done]
  · refine runUnit_ok hv ?_
    simp only [act_bind, act_get, ho, all_false_any hl, Bool.not_false, act_needA, if_true, act_done]
  · refine runUnit_ok hv ?_
    simp only [act_bind, act_get, ho, act_set, act_done]
  · have hall : ((v.active w.g).all fun l => v.unpOf l == [] && v.g.sq.all fun e => e.lane != l) = true := by
      rw [List.all_eq_true]
      intro l hl'
      obtain ⟨h1, h2⟩ := hl l hl'
      simpa [h1] using h2
    refine runUnit_ok hv ?_
    simp only [act_bind, act_get, ho, hall, act_needA, if_true, act_done]
  · refine runUnit_ok h.1 ((perSplit_ready h rfl).trans ?_)
    simp only [ht]
    exact act_bind_ok (writeAll_toAll (d := ⟨w.a, 2⟩) (by rfl) hr)
  · refine runUnit_ok h.1 ((perSplit_ready h rfl).trans ?_)
    simp only [ht, act_bind, act_needA, hc, decide_true, if_true, act_done]

/-- Settles O13: each of the four is the barrier operation with its own update. -/
theorem byteBarriersComplete : Obligations.ByteBarriersComplete := by
  unfold Obligations.ByteBarriersComplete
  intro s s1 t v w ins hs hp hq
  refine ⟨fun h => ⟨fun he => ?_, fun he => ?_, fun hph hps => ?_⟩, fun h hu hr he => ?_⟩
  · exact runUnit_ok h.1 (bbOp_ok h hs hp hq (fun _ _ => rfl) (loadRoom_zero s1 v _ 1) he)
  · exact runUnit_ok h.1 (bbOp_ok h hs hp hq (fun _ _ => rfl) (loadRoom_zero s1 v _ 1) he)
  · refine runUnit_ok h.1 (bbOp_ok (t := s1) h hs hp hq (fun a ha => ?_) (loadRoom_zero s1 v _ 1) ?_)
    · obtain ⟨h1, h2⟩ := hph a ha
      dsimp only
      rw [h1, Bool.false_or]
      exact bne_iff_ne.mpr h2
    · generalize nearLanes w ins = as at hps
      induction as with
      | nil => rfl
      | cons a as ih =>
        unfold eachLane
        rw [hps a List.mem_cons_self]
        exact ih fun b hb => hps b (List.mem_cons_of_mem _ hb)
  · exact runUnit_ok h.1 (bbOp_ok h hs hp hq (fun a ha => by simp [hu a ha]) hr he)

/-- Settles O14: every instruction of the shared space checks its lanes first, alignment before range. -/
theorem sharedAccessFaults : Obligations.SharedAccessFaults := by
  unfold Obligations.SharedAccessFaults
  intro i s s1 v m ins a hm h first
  refine ⟨fun hf => exec_near_stop hm h (act_bind_error (checkLanes_fault hf)), fun ha hf => ?_⟩
  exact exec_near_stop hm h ((act_bind_ok (checkLanes_ok fun x hx => by simpa using ha x hx)).trans (checkLanes_fault hf))

end

section
/-! SUPPORT. What an attempt keeps whichever way it ends: a predicate of the state it leaves, or one of the stop it ends in. -/

namespace Sys2Proof.Machine

open Sys2Proof.Spec

/-- An attempt's answer leaves a state with `P`, or is a stop with `E`. -/
def Post {α : Type} (P : State → Prop) (E : Stop → Prop) : Except Stop (α × State) → Prop
  | .ok p => P p.2
  | .error e => E e
/-- From every state with `P` the attempt leaves one with `P`, or stops with a stop that satisfies `E`. -/
def Keeps {α : Type} (P : State → Prop) (E : Stop → Prop) (a : Act α) : Prop := ∀ s, P s → Post P E (a s)

section
variable {α β : Type} {P : State → Prop} {E : Stop → Prop}
theorem Keeps.ok {a : Act α} {s t : State} {x : α} (h : Keeps P E a) (hs : P s) (ha : a s = .ok (x, t)) : P t := by
  have := h s hs
  rw [ha] at this
  exact this
theorem Keeps.stop {a : Act α} {s : State} {e : Stop} (h : Keeps P E a) (hs : P s) (ha : a s = .error e) : E e := by
  have := h s hs
  rw [ha] at this
  exact this
theorem keeps_pure (x : α) : Keeps P E (pure x) := fun _ h => h
theorem keeps_throw {e : Stop} (h : E e) : Keeps P E (throw e : Act α) := fun _ _ => h
theorem keeps_set {t : State} (h : P t) : Keeps P E (set t : Act Unit) := fun _ _ => h
theorem keeps_modA {f : State → State} (h : ∀ s, P s → P (f s)) : Keeps P E (modA f) := h
theorem keeps_bind {a : Act α} {f : α → Act β} (ha : Keeps P E a) (hf : ∀ x, Keeps P E (f x)) : Keeps P E (a >>= f) := by
  intro s hs
  rw [act_bind]
  cases h : a s with
  | error e => exact ha.stop hs h
  | ok p => exact hf p.1 p.2 (ha.ok hs h)
theorem keeps_get {f : State → Act β} (h : ∀ s, P s → Keeps P E (f s)) : Keeps P E (get >>= f) := fun s hs => h s hs s hs
theorem keeps_needA {b : Bool} {e : Stop} (h : E e) : Keeps P E (needA b e) := by
  intro s hs
  rw [act_needA]
  cases b
  · exact h
  · exact hs
theorem keeps_someA {x : Option α} {e : Stop} (h : E e) : Keeps P E (someA x e) := by
  intro s hs
  rw [act_someA]
  cases x
  · exact h
  · exact hs
theorem keeps_faultA {c a l i : Nat} (h : E (.fault c (BitVec.ofNat 64 a) l i)) : Keeps P E (faultA c a l i : Act α) := keeps_throw h
theorem keeps_ite {c : Prop} [Decidable c] {a b : Act α} (ha : Keeps P E a) (hb : Keeps P E b) : Keeps P E (if c then a else b) := by
  split
  · exact ha
  · exact hb
theorem keeps_forIn {γ : Type} {xs : List γ} {f : γ → β → Act (ForInStep β)} (hf : ∀ x b, Keeps P E (f x b)) : ∀ b : β, Keeps P E (forIn xs b f) := by
  induction xs with
  | nil => exact fun b => keeps_pure b
  | cons x xs ih =>
    intro b
    rw [List.forIn_cons]
    refine keeps_bind (hf x b) fun r => ?_
    cases r with
    | done c => exact keeps_pure c
    | yield c => exact ih c
theorem foldl_keeps {γ : Type} {f : State → γ → State} (hf : ∀ s x, P s → P (f s x)) (xs : List γ) {s : State} (h : P s) : P (xs.foldl f s) := by
  induction xs generalizing s with
  | nil => exact h
  | cons x xs ih => exact ih (hf s x h)
/-- An instruction of a unit, from what its attempt answers and what its stops do. -/
theorem runUnit_post {a : View → Act Unit} {s t : State} {v : View} (hv : s.view? = some v) (ha : Post P E (a v s)) (hE : ∀ e, E e → P (s.stopUnit v e))
    (h : runUnit a s = .next t) : P t := by
  cases hr : a v s with
  | error e =>
    rw [hr] at ha
    rw [runUnit_stop hv hr] at h
    cases h
    exact hE e ha
  | ok p =>
    rw [hr] at ha
    rw [runUnit_ok hv hr] at h
    cases h
    exact ha
/-- An instruction of a unit, where its attempt and what its stops do keep a predicate. -/
theorem runUnit_keeps {a : View → Act Unit} {s t : State} (hs : P s) (ha : ∀ v, s.view? = some v → Keeps P E (a v)) (hE : ∀ v e, E e → P (s.stopUnit v e))
    (h : runUnit a s = .next t) : P t := by
  cases hv : s.view? with
  | none =>
    rw [runUnit_none hv] at h
    cases h
    exact hs
  | some v => exact runUnit_post hv (ha v hv s hs) (hE v) h
/-- An attempt that answers from a read of lanes: the read keeps what is quiet, and stops by a hold or a fault. -/
theorem readAll_stops {v : View} {ls : List Nat} {x : Uses} {s : State} {e : Stop} (h : readAll v ls x s = .error e) : e = .hold ∨ e = .fault fcEmpty 0 (ls.headD 0) 0 := by
  unfold readAll at h
  dsimp only at h
  split at h
  · cases h
    exact .inr rfl
  · split at h
    · cases h
      exact .inl rfl
    · cases h
end

end Sys2Proof.Machine
end

section
/-! SUPPORT. Memory, engines and records that stand still while an instruction issues. -/

namespace Sys2Proof.Machine

open Sys2Proof.Spec

/-- Memory is as it was, and every engine register and context record. -/
structure Still (s t : State) : Prop where
  mem : t.mem = s.mem
  eng : SameEngines s t
  rcd : SameRecords s t
theorem Still.refl (s : State) : Still s s := ⟨rfl, fun _ => rfl, fun _ => rfl⟩
theorem Still.trans {a b c : State} (h : Still a b) (k : Still b c) : Still a c :=
  ⟨k.mem.trans h.mem, fun n => (k.eng n).trans (h.eng n), fun n => (k.rcd n).trans (h.rcd n)⟩
theorem Quiet.still {s t : State} (h : Quiet s t) : Still s t := ⟨h.mem, engines_keep h.keep, h.rcd⟩
theorem still_modBlk (s : State) (n : Nat) (f : Block → Block) (hu : ∀ b, (f b).uid = b.uid) (hf : ∀ b, engines (f b) = engines b) : Still s (s.modBlk n f) := by
  refine ⟨rfl, fun m => ?_, fun _ => rfl⟩
  rw [blk_modBlk s n m f hu]
  split
  · subst_vars
    cases s.blk? m <;> simp [hf]
  · rfl
theorem still_modGrp (s : State) (u : UnitRef) (f : Grp → Grp) : Still s (s.modGrp u f) :=
  still_modBlk s u.blk _ (fun b => by unfold Block.modGrp; cases u <;> rfl) fun b => by unfold Block.modGrp; cases u <;> rfl
theorem still_modThread (s : State) (u : UnitRef) (l : Nat) (f : Thread → Thread) : Still s (s.modThread u l f) := still_modGrp s u _
theorem still_enqueue (s : State) (u : UnitRef) (l : Nat) (rel so : Bool) (op : Nat → SqOp) : Still s (s.enqueue u l rel so op) := by
  have h0 : Still s s.fresh.2 := ⟨rfl, fun _ => rfl, fun _ => rfl⟩
  unfold State.enqueue
  dsimp only
  have h1 : Still s (if (rel && !so) = true then s.fresh.2.modThread u l fun t => { t with relf := t.unp } else s.fresh.2) := by
    split
    · exact h0.trans (still_modThread _ _ _ _)
    · exact h0
  have h2 (pre : List Nat) := (h1.trans (still_modGrp _ u fun g => { g with sq := sqInsert so ⟨s.fresh.1, l, pre, op s.fresh.1⟩ g.sq })).trans
    (still_modThread _ u l fun t => { t with unp := t.unp ++ [s.fresh.1] })
  cases so with
  | false => exact h2 _
  | true => exact (h2 _).trans (still_modThread _ u l fun t => { t with sow := t.sow ++ [s.fresh.1] })
theorem still_dropStore (s : State) (v : View) (l : Nat) : Still s (s.dropStore v l) := (still_modThread s v.u l _).trans (quiet_bump _ _ _ _).still
/-- A destination that is no port is written in registers only. -/
theorem still_writeDst {d : Dest} (hd : ∀ q, opKind d.f ≠ .port q) (s : State) (u : UnitRef) (l : Nat) (ws : List PWord) : Still s (writeDst s u l d ws) := by
  unfold writeDst
  split
  · exact still_modThread _ _ _ _
  · rename_i q hq
    exact absurd hq (hd q)
  · exact Still.refl s
theorem still_reserve (s : State) (b q n : Nat) : Still s (s.modBlk b (·.reserve q n)) := still_modBlk s b _ (fun _ => rfl) fun _ => rfl
theorem still_destFor (s : State) (u : UnitRef) (l : Nat) (f : Opnd) (n sx : Nat) (av : Avail) : Still s (s.destFor u l f n sx av).2 := by
  unfold State.destFor
  split
  · exact still_modThread _ _ _ _
  · exact still_reserve _ _ _ _
  · exact Still.refl s
theorem still_acquire (s : State) (u : UnitRef) (l id : Nat) : Still s (s.acquire u l id) := still_modThread _ _ _ _
theorem still_deliverAt (s : State) (u : UnitRef) (l : Nat) (f : Opnd) (ws : List PWord) (acq : Bool) : Still s (s.deliverAt u l f ws acq) := by
  unfold State.deliverAt
  split
  · have h0 : Still s s.fresh.2 := ⟨rfl, fun _ => rfl, fun _ => rfl⟩
    have h1 := h0.trans (still_destFor s.fresh.2 u l f ws.length 0 .full)
    dsimp only
    split
    · exact (h1.trans (still_acquire _ _ _ _)).trans ⟨rfl, fun _ => rfl, fun _ => rfl⟩
    · exact h1.trans ⟨rfl, fun _ => rfl, fun _ => rfl⟩
  · rename_i hk
    exact still_writeDst hk s u l ws
theorem quiet_noteWait (s : State) (u : UnitRef) (m : Mask) (gw : Option Nat) : Quiet s (s.noteWait u m gw) :=
  quiet_modGrp s u _ fun g => by
    unfold Grp.noteWait
    split
    · rfl
    · split <;> rfl
theorem quiet_holdStep (s : State) (u : UnitRef) (gw : Option Nat) : Quiet s (s.holdStep u gw) := by
  unfold State.holdStep
  split
  · exact Quiet.rfl' s
  · exact (quiet_modGrp s u (fun g => { g with hold := g.hold + 1 }) fun _ => rfl).trans (quiet_noteWait _ _ _ _)
/-- Stops that no page fault is. -/
def NoPage : Stop → Prop
  | .page .. => False
  | .queued .. => False
  | _ => True
theorem quiet_stopUnit (s : State) (v : View) {e : Stop} (h : NoPage e) : Quiet s (s.stopUnit v e) := by
  unfold State.stopUnit
  cases e with
  | hold => exact quiet_holdStep _ _ _
  | gwait => exact quiet_holdStep _ _ _
  | idle => exact Quiet.rfl' s
  | fault => exact quiet_takeFault _ _ _ _ _ _ _ _
  | queued => exact h.elim
  | page => exact h.elim

end Sys2Proof.Machine
end
section
/-! SUPPORT. Ways of issuing keep what quiet changes and their bodies keep. -/

namespace Sys2Proof.Machine

open Sys2Proof.Spec

section
variable {P : State → Prop} {E : Stop → Prop} (hq : ∀ s t, P s → Quiet s t → P t) (hE : ∀ e, NoPage e → E e)
include hq hE
theorem keeps_readAll {β : Type} {v : View} {ls : List Nat} {x : Uses} {s : State} {f : List LaneIn → State → Act β} (hs : P s)
    (hf : ∀ ins t, P t → Keeps P E (f ins t)) :
    Keeps P E (match readAll v ls x s with | .error e => throw e | .ok (ins, t) => f ins t) := by
  cases h : readAll v ls x s with
  | error e =>
    refine keeps_throw (hE e ?_)
    rcases readAll_stops h with rfl | rfl <;> trivial
  | ok p => exact hf p.1 p.2 (hq s p.2 hs (quiet_readAll h))
omit hE in
theorem keeps_done (v : View) : Keeps P E (done v) := keeps_modA fun s h => hq s _ h (quiet_advance s v false)
theorem keeps_memIssue {w : WM} {x : Uses} {legal all : Bool} {body : List LaneIn → Act Unit} {v : View} (hb : ∀ ins, Keeps P E (body ins)) :
    Keeps P E (memIssue w x legal all body v) := by
  unfold memIssue
  refine keeps_bind (keeps_needA (hE _ trivial)) fun _ => ?_
  refine keeps_ite (keeps_done hq v) ?_
  refine keeps_get fun s hs => keeps_bind (keeps_needA (hE _ trivial)) fun _ => ?_
  cases h : readAll v (v.active w.g) x s with
  | error e =>
    refine keeps_throw (hE e ?_)
    rcases readAll_stops h with rfl | rfl <;> trivial
  | ok p =>
    have hp := hq s p.2 hs (quiet_readAll h)
    dsimp only
    generalize p.1.partition (fun i => if all = true then i.psn else ((i.src.getLast?).getD []).any fun x => x.p) = parts
    obtain ⟨bad, good⟩ := parts
    dsimp only
    refine keeps_ite (keeps_bind (keeps_set hp) fun _ => hb good) ?_
    -- lanes with a poisoned address are retired first
    have hout (r : State) (l : List LaneIn) : Quiet r ((l.foldl (fun s i => s.retire v.u i.lane) r).afterExit v.u.blk) := by
      have h1 : Quiet r (l.foldl (fun s i => s.retire v.u i.lane) r) := quiet_foldl _ (fun s i => quiet_retire s v.u i.lane) l r
      exact h1.trans (quiet_afterExit _ _)
    have hr := hb good _ (hq _ _ hp (hout p.2 bad))
    generalize body good ((bad.foldl (fun s i => s.retire v.u i.lane) p.2).afterExit v.u.blk) = r at hr
    cases r with
    | ok p => exact keeps_set hr
    | error e =>
      cases e with
      | fault => exact keeps_set (hq _ _ (hq _ _ hs (hout s bad)) (quiet_stopUnit _ v trivial))
      | _ => exact keeps_throw hr
omit hq in
theorem keeps_checkLanes (as : List LaneAt) (ok : Nat → Bool) (c : Nat) : Keeps P E (checkLanes as ok c) := by
  unfold checkLanes
  cases as.find? fun l => !ok l.a with
  | some l => exact keeps_faultA (hE _ trivial)
  | none => exact keeps_pure ()
omit hq in
theorem keeps_checkShared (v : View) (as : List LaneAt) (n : Nat) : Keeps P E (checkShared v as n) :=
  keeps_bind (keeps_checkLanes hE _ _ _) fun _ => keeps_checkLanes hE _ _ _
omit hq in
theorem keeps_checkSpill (v : View) (as : List LaneAt) (n : Nat) : Keeps P E (checkSpill v as n) :=
  keeps_bind (keeps_checkLanes hE _ _ _) fun _ => keeps_checkLanes hE _ _ _
omit hq in
theorem keeps_presentAll (v : View) (as : List LaneAt) (n : Nat) : Keeps P E (presentAll v as n) := keeps_needA (hE _ trivial)
omit hq in
theorem keeps_portRoom (v : View) (f : Opnd) (ls : List Nat) (n : Nat) : Keeps P E (portRoom v f ls n) := by
  unfold portRoom
  split
  · exact keeps_get fun s _ => keeps_needA (hE _ trivial)
  · exact keeps_pure ()
theorem keeps_loadNow {w : WM} {sx : Bool} {check : List LaneAt → Act Unit} {key : LaneAt → List (Nat × Nat)} {v : View} (hc : ∀ as, Keeps P E (check as))
    (hd : ∀ s u l f ws acq, P s → P (s.deliverAt u l f ws acq)) : Keeps P E (loadNow w sx check key v) := by
  unfold loadNow
  refine keeps_memIssue hq hE fun ins => keeps_bind (hc _) fun _ => keeps_bind (keeps_needA (hE _ trivial)) fun _ => ?_
  refine keeps_bind (keeps_portRoom hE _ _ _ _) fun _ => keeps_bind (keeps_modA fun s hs => ?_) fun _ => keeps_done hq v
  exact foldl_keeps (fun s a h => hd s _ _ _ _ _ h) _ hs
theorem keeps_storeNow {w : WM} {check : List LaneAt → Act Unit} {op : LaneAt → List Byte → SqOp} {v : View} (hc : ∀ as, Keeps P E (check as))
    (hd : ∀ s l, P s → P (s.dropStore v l)) (he : ∀ s u l rel so op, P s → P (s.enqueue u l rel so op)) : Keeps P E (storeNow w check op v) := by
  unfold storeNow
  refine keeps_memIssue hq hE fun ins => keeps_bind (hc _) fun _ => keeps_bind (keeps_modA fun s hs => ?_) fun _ => keeps_done hq v
  refine foldl_keeps (fun s a h => ?_) _ hs
  split
  · exact hd s _ h
  · exact he s _ _ _ _ _ h
theorem keeps_bbOp {w : WM} {x : Uses} {pre : LaneAt → Bool} {upd : Nat → LaneAt → State → Option State} {v : View}
    (hu : ∀ k a s t, P s → upd k a s = some t → P t) : Keeps P E (bbOp w x pre upd v) := by
  unfold bbOp
  refine keeps_memIssue hq hE fun ins => keeps_bind (keeps_checkShared hE _ _ _) fun _ => keeps_bind (keeps_needA (hE _ trivial)) fun _ => ?_
  refine keeps_bind (keeps_presentAll hE _ _ _) fun _ => keeps_bind (keeps_portRoom hE _ _ _ _) fun _ => ?_
  refine keeps_bind (keeps_forIn (fun a b => keeps_get fun s hs => ?_) _) fun _ => keeps_done hq v
  cases h : upd (kShared v.u.blk a.a) a s with
  | some t => exact keeps_bind (keeps_set (hu _ _ _ _ hs h)) fun _ => keeps_pure _
  | none => exact keeps_bind (keeps_faultA (hE _ trivial)) fun _ => keeps_pure _
theorem keeps_perSplit {w : WC} {x : Uses} {legal : Bool} {ks : List Nat} {body : List Nat → LaneIn → Act Unit} {v : View} (hb : ∀ ls i, Keeps P E (body ls i)) :
    Keeps P E (perSplit w x legal ks body v) := by
  unfold perSplit
  refine keeps_bind (keeps_needA (hE _ trivial)) fun _ => ?_
  cases v.lanes with
  | nil => exact keeps_throw (hE _ trivial)
  | cons l r =>
    refine keeps_ite (keeps_done hq v) (keeps_bind (keeps_needA (hE _ trivial)) fun _ => keeps_get fun s hs => ?_)
    cases h : readAll v [l] { x with dst := none } s with
    | error e =>
      refine keeps_throw (hE e ?_)
      rcases readAll_stops h with rfl | rfl <;> trivial
    | ok p =>
      refine keeps_bind (keeps_needA (hE _ trivial)) fun _ => keeps_bind (keeps_set (hq _ _ hs (quiet_readAll h))) fun _ => ?_
      cases p.1 with
      | nil => exact keeps_throw (hE _ trivial)
      | cons i is =>
        refine keeps_ite (keeps_modA fun s hs => ?_) (hb _ i)
        exact hq _ _ hs (((quiet_retire s v.u l).trans (quiet_afterExit _ _)).trans (quiet_advance _ v false))
end

end Sys2Proof.Machine
end

section
/-! SUPPORT. The frames of memory instructions at issue. -/

namespace Sys2Proof.Machine

open Sys2Proof.Spec

theorem Still.quiet {s t u : State} (h : Still s t) (q : Quiet t u) : Still s u := h.trans q.still
theorem Still.ifThen {s t u : State} {c : Prop} [Decidable c] (h : Still s t) (k : Still t u) : Still s (if c then u else t) := by
  split
  · exact h.trans k
  · exact h
theorem still_oc (s : State) (e : OcEnt) : Still s { s with oc := s.oc ++ [e] } := ⟨rfl, fun _ => rfl, fun _ => rfl⟩
theorem still_of_run {a : View → Act Unit} {s t : State} (ha : ∀ v, Keeps (Still s) NoPage (a v)) (h : runUnit a s = .next t) : Still s t :=
  runUnit_keeps (P := Still s) (E := NoPage) (Still.refl s) (fun v _ => ha v) (fun v _ he => (quiet_stopUnit s v he).still) h
/-- Instructions of the near spaces, fences and waits leave memory, engines and records alone, whatever they answer. -/
theorem still_nearIssue {i : Instr} {s t : State}
    (hi : match i with | .lds .. | .ldk .. | .sts _ | .stk _ | .presw .. | .presq _ | .fence _ | .bbwait _ | .tlwait _ => True | _ => False)
    (h : exec i s = .next t) : Still s t := by
  have hq : ∀ a b, Still s a → Quiet a b → Still s b := fun a b h q => h.quiet q
  have hE : ∀ e, NoPage e → NoPage e := fun _ h => h
  have hd : ∀ a u l f ws acq, Still s a → Still s (a.deliverAt u l f ws acq) := fun a u l f ws acq h => h.trans (still_deliverAt a u l f ws acq)
  have hs : ∀ v a l, Still s a → Still s (a.dropStore v l) := fun v a l h => h.trans (still_dropStore a v l)
  have he : ∀ a u l rel so op, Still s a → Still s (a.enqueue u l rel so op) := fun a u l rel so op h => h.trans (still_enqueue a u l rel so op)
  have hc (v : View) (n : Nat) (as : List LaneAt) : Keeps (Still s) NoPage (do checkShared v as n; presentAll v as n) :=
    keeps_bind (keeps_checkShared hE _ _ _) fun _ => keeps_presentAll hE _ _ _
  cases i
  case lds => exact still_of_run (fun v => keeps_loadNow hq hE (hc v _) hd) h
  case ldk => exact still_of_run (fun v => keeps_loadNow hq hE (keeps_checkSpill hE v · _) hd) h
  case sts => exact still_of_run (fun v => keeps_storeNow hq hE (hc v _) (hs v) he) h
  case stk => exact still_of_run (fun v => keeps_storeNow hq hE (keeps_checkSpill hE v · _) (hs v) he) h
  case presw =>
    refine still_of_run (fun v => keeps_memIssue hq hE fun ins => keeps_bind (keeps_checkShared hE _ _ _) fun _ => keeps_bind (keeps_modA fun a ha => ?_) fun _ => keeps_done hq v) h
    exact foldl_keeps (fun a x h => he a _ _ _ _ _ h) _ ha
  case presq =>
    refine still_of_run (fun v => keeps_memIssue hq hE fun ins => keeps_bind (keeps_checkShared hE _ _ _) fun _ => keeps_bind (keeps_needA (hE .hold trivial)) fun _ =>
      keeps_bind (keeps_portRoom hE _ _ _ _) fun _ => keeps_bind (keeps_modA fun a ha => ?_) fun _ => keeps_done hq v) h
    exact foldl_keeps (fun a x h => hd a _ _ _ _ _ h) _ ha
  case fence w =>
    refine still_of_run (fun v => keeps_get fun a ha => ?_) h
    cases ordOf w with
    | plain => exact keeps_done hq v
    | acquire => exact keeps_bind (keeps_needA trivial) fun _ => keeps_done hq v
    | release => exact keeps_bind (keeps_set (foldl_keeps (fun a l h => h.trans (still_modThread _ _ _ _)) _ ha)) fun _ => keeps_done hq v
    | acqRel => exact keeps_bind (keeps_needA trivial) fun _ => keeps_done hq v
  case bbwait =>
    refine still_of_run (fun v => keeps_bbOp hq hE fun k a x y hx hy => ?_) h
    cases hy
    split
    · exact hx.quiet (quiet_modCore _ _ _)
    · exact hx
  case tlwait =>
    refine still_of_run (fun v => keeps_perSplit hq hE fun ls i => ?_) h
    split
    · exact keeps_faultA trivial
    · exact keeps_bind (keeps_needA trivial) fun _ => keeps_done hq v
  all_goals exact hi.elim

/-! ## Accesses of the scratchpad -/

theorem laneChain_keeps {P : State → Prop} {f : State → LaneAt × Leaf → Option Nat → State} (hf : ∀ s t prev, P s → P (f s t prev)) (ts : List (LaneAt × Leaf)) {s : State}
    (h : P s) : P (laneChain ts f s) := by
  unfold laneChain
  suffices h2 : ∀ a : State × Option Nat, P a.1 → P (ts.foldl (fun (a : State × Option Nat) t =>
      let r := f a.1 t (if t.2.ord then a.2 else none)
      (r, if t.2.ord && a.1.nextId < r.nextId then some a.1.nextId else a.2)) a).1 from h2 (s, none) h
  induction ts with
  | nil => exact fun _ h => h
  | cons t ts ih => exact fun a h => ih _ (hf _ _ _ h)
theorem reg_or_zero_of_rwOk {b : Block} {front : Bool} {f : Opnd} {n : Nat} (h : b.rwOk front f n = true) (q : Nat) : opKind f ≠ .port q := by
  intro hq
  unfold Block.rwOk at h
  rw [hq] at h
  cases h
theorem still_dropAtom {f : Opnd} (hf : ∀ q, opKind f ≠ .port q) (s : State) (v : View) (l n : Nat) : Still s (s.dropAtom v l f n) :=
  (still_dropStore s v l).trans (still_writeDst hf _ _ _ _)
/-- Where every lane's address translates, a translation changes nothing and stops by a halting fault only. -/
theorem translate_post {v : View} {as : List LaneAt} {n : Nat} {wr : Bool} {s : State} (hx : ∀ a ∈ as, (s.xlate v.b.core v.b.ctx (BitVec.ofNat 56 a.a)).isSome = true) :
    Post (· = s) NoPage (translate v as n wr s) := by
  unfold translate
  rw [act_bind]
  cases h : checkLanes as (fun a => a % n == 0) fcMisalign s with
  | error e => exact (keeps_checkLanes (P := fun _ => True) (E := NoPage) (fun _ h => h) _ _ _).stop trivial h
  | ok p =>
    obtain rfl : p.2 = s := (keeps_checkLanes (P := (· = s)) (E := NoPage) (fun _ h => h) _ _ _).ok rfl h
    dsimp only
    rw [act_bind_ok (act_get p.2)]
    have hnone : (as.map fun a => (a, p.2.xlate v.b.core v.b.ctx (BitVec.ofNat 56 a.a))).find? (fun t => t.2.isNone) = none := by
      rw [List.find?_eq_none]
      intro t ht
      obtain ⟨a, ha, rfl⟩ := List.mem_map.mp ht
      obtain ⟨l, hl⟩ := Option.isSome_iff_exists.mp (hx a ha)
      simp [hl]
    simp only [hnone]
    cases (as.map fun a => (a, p.2.xlate v.b.core v.b.ctx (BitVec.ofNat 56 a.a))).find? fun t => t.2.elim false p.2.tierBad with
    | some t => trivial
    | none =>
      cases (as.map fun a => (a, p.2.xlate v.b.core v.b.ctx (BitVec.ofNat 56 a.a))).find? fun t => t.2.elim false fun l => wr && !l.w with
      | some t => trivial
      | none => rfl
theorem still_of_post {a : View → Act Unit} {s t : State} {v : View} (hv : s.view? = some v) (ha : Post (Still s) NoPage (a v s)) (ht : runUnit a s = .next t) : Still s t :=
  runUnit_post (P := Still s) (E := NoPage) hv ha (fun _ he => (quiet_stopUnit s v he).still) ht
/-- A scratchpad access that is ready, with addresses that translate, whose chain leaves memory, engines and records alone. -/
theorem still_far {w : WM} {x : Uses} {n : Nat} {wr legal : Bool} {rest : List LaneIn → List (LaneAt × Leaf) → Act Unit} {s s1 : State} {v : View} {ins : List LaneIn}
    (h : MemReady w x false s v ins s1) (hl : legal = true) (hx : ∀ a ∈ farLanes w ins, (s1.xlate v.b.core v.b.ctx (BitVec.ofNat 56 a.a)).isSome = true)
    (hr : ∀ ts, Keeps (Still s) NoPage (rest ins ts)) : Post (Still s) NoPage (memIssue w x legal false (fun ins => translate v (farLanes w ins) n wr >>= rest ins) v s) := by
  rw [memIssue_ready h hl, act_bind]
  have hp := translate_post (n := n) (wr := wr) hx
  cases hr2 : translate v (farLanes w ins) n wr s1 with
  | error e =>
    rw [hr2] at hp
    exact hp
  | ok p =>
    rw [hr2] at hp
    obtain ⟨-, -, -, -, hread, -⟩ := h
    refine hr p.1 p.2 ?_
    rw [show p.2 = s1 from hp]
    exact (quiet_readAll hread).still
theorem still_atomicScratch {w : WM} {nd nr : Nat} {op : Nat → LaneIn → OcOp} {s s1 t : State} {v : View} {ins : List LaneIn} (hk : v.b.rwOk v.front w.data nd = true)
    (h : MemReady w { src := [mSrc w.data nd, mSrc w.base 2] } false s v ins s1)
    (hx : ∀ a ∈ farLanes w ins, (s1.xlate v.b.core v.b.ctx (BitVec.ofNat 56 a.a)).isSome = true) (ht : runUnit (fun v => atomic w .scratch nd nr op v) s = .next t) : Still s t := by
  refine still_of_post h.1 ?_ ht
  unfold atomic
  refine still_far h hk hx fun ts => ?_
  refine keeps_bind (keeps_needA trivial) fun _ => keeps_bind (keeps_modA fun a ha => ?_) fun _ => keeps_done (fun a b h q => h.quiet q) v
  refine laneChain_keeps (fun a p prev h => ?_) _ ha
  dsimp only
  split
  · exact h.trans (still_dropAtom (reg_or_zero_of_rwOk hk) _ _ _ _)
  · have h1 (op : Nat → SqOp) := (h.trans (still_destFor a v.u p.1.x.lane w.data nr 0 .empty)).trans (still_enqueue _ v.u p.1.x.lane (rels (ordOf w)) p.2.ord op)
    exact Still.ifThen (Still.ifThen (h1 _) (still_acquire _ _ _ _)) (still_modThread _ _ _ _)
/-- Loads, stores and atomics of the scratchpad whose addresses translate leave memory, engines and records alone. -/
theorem still_farIssue {i : Instr} {s s1 t : State} {v : View} {m : MemUse} {wr : Bool} {ins : List LaneIn} (hm : farUse v i = some (m, wr)) (h : m.Ready s v ins s1)
    (hx : ∀ a ∈ farLanes m.w ins, (s1.xlate v.b.core v.b.ctx (BitVec.ofNat 56 a.a)).isSome = true) (ht : exec i s = .next t) : Still s t := by
  have hq : ∀ a b, Still s a → Quiet a b → Still s b := fun a b h q => h.quiet q
  obtain ⟨h, hk⟩ := h
  cases i
  case atom w sp op =>
    cases sp <;> cases hm
    exact still_atomicScratch hk h hx ht
  case acas w sp =>
    cases sp <;> cases hm
    exact still_atomicScratch hk h hx ht
  case ldp w sx =>
    cases hm
    refine still_of_post h.1 ?_ ht
    refine still_far h rfl hx fun ts => ?_
    refine keeps_get fun a ha => keeps_bind (keeps_needA trivial) fun _ => keeps_bind (keeps_portRoom (fun _ h => h) _ _ _ _) fun _ => keeps_bind (keeps_modA fun a ha => ?_) fun _ => keeps_done hq v
    refine laneChain_keeps (fun a p prev h => ?_) _ ha
    have h0 : Still s a.fresh.2 := h.trans ⟨rfl, fun _ => rfl, fun _ => rfl⟩
    have h1 := h0.trans (still_destFor a.fresh.2 v.u p.1.x.lane w.data (Width.words w.wid) (sxCode w sx) (if v.local p.2 then .inFlight else .empty))
    have h2 (e : OcEnt) := h1.trans (still_oc _ e)
    exact Still.trans (Still.ifThen (Still.ifThen (h2 _) (still_acquire _ _ _ _)) (still_modThread _ _ _ _)) (still_modThread _ _ _ _)
  case stp w =>
    cases hm
    refine still_of_post h.1 ?_ ht
    refine still_far h rfl hx fun ts => ?_
    refine keeps_bind (keeps_needA trivial) fun _ => keeps_bind (keeps_modA fun a ha => ?_) fun _ => keeps_done hq v
    refine laneChain_keeps (fun a p prev h => ?_) _ ha
    dsimp only
    split
    · exact h.trans (still_dropStore _ _ _)
    · exact h.trans (still_enqueue _ _ _ _ _ _)
  all_goals cases hm

end Sys2Proof.Machine
end

section
/-! SUPPORT. The frames of instructions that change memory at issue: atomics of the shared space, and byte barriers. -/

namespace Sys2Proof.Machine

open Sys2Proof.Spec

/-- Memory stays canonical and keeps the bytes that `Q` names; engines and records stay. -/
structure Framed (s : State) (Q : Nat → Prop) (t : State) : Prop where
  wf : memWf t.mem = true
  mem : ∀ a, Q a → memGet t.mem a = memGet s.mem a
  eng : SameEngines s t
  rcd : SameRecords s t
theorem Still.framed {s t : State} (h : Still s t) (hw : memWf s.mem = true) (Q : Nat → Prop) : Framed s Q t :=
  ⟨by rw [h.mem]; exact hw, fun a _ => by rw [h.mem], h.eng, h.rcd⟩
theorem Framed.still {s t u : State} {Q : Nat → Prop} (h : Framed s Q t) (k : Still t u) : Framed s Q u :=
  ⟨by rw [k.mem]; exact h.wf, fun a ha => by rw [k.mem]; exact h.mem a ha, fun n => (k.eng n).trans (h.eng n), fun c => (k.rcd c).trans (h.rcd c)⟩
theorem Framed.wr {s t : State} {Q : Nat → Prop} (h : Framed s Q t) {k : Nat} {bs : List Byte} (hk : ∀ a, Q a → a < k ∨ k + bs.length ≤ a) : Framed s Q (t.wr k bs) :=
  ⟨wr_wf t k bs h.wf, fun a ha => (wr_frame t k a bs h.wf (hk a ha)).trans (h.mem a ha), h.eng, h.rcd⟩
theorem Framed.pushRing {s t : State} {Q : Nat → Prop} (h : Framed s Q t) {blk q : Nat} {ws : List PWord}
    (hk : ∀ a, Q a → ∀ k ∈ ringPlaces t blk q ws.length, a < k ∨ k + 4 ≤ a) : Framed s Q (Machine.pushRing t blk q ws) := by
  obtain ⟨hkeep, -, hctx⟩ := pushRing_keep blk q ws t
  refine ⟨pushRing_wf blk q ws t h.wf, fun a ha => (pushRing_frame blk q a ws t h.wf (hk a ha)).trans (h.mem a ha), fun n => (engines_keep hkeep n).trans (h.eng n), fun c => ?_⟩
  rw [← h.rcd c]
  unfold State.ctxD State.ctx?
  rw [hctx]

/-! ## Lanes in order, the rest of them in view -/

theorem foldl_inv {α : Type} {G : List α → State → Prop} {f : State → α → State} (hf : ∀ x xs s, G (x :: xs) s → G xs (f s x)) : ∀ (xs : List α) {s : State}, G xs s → G [] (xs.foldl f s)
  | [], _, h => h
  | x :: xs, _, h => foldl_inv hf xs (hf x xs _ h)
/-- A loop over lanes whose updates may fail, each judged with the lanes still to come. -/
theorem eachLane_post {G : List LaneAt → State → Prop} {E : Stop → Prop} {f : LaneAt → State → Option State} {e : LaneAt → Stop} (he : ∀ a, E (e a))
    (hf : ∀ a as s t, G (a :: as) s → f a s = some t → G as t) : ∀ (as : List LaneAt) {s : State}, G as s →
    Post (G []) E ((forIn as PUnit.unit fun a (_ : PUnit) => (do
      let s ← get
      match f a s with
      | some t => set t
      | none => throw (e a)
      pure (ForInStep.yield PUnit.unit) : Act (ForInStep PUnit))) s)
  | [], _, h => h
  | a :: as, s, h => by
    rw [List.forIn_cons]
    cases hm : f a s with
    | some t =>
      rw [act_bind_ok (a := ForInStep.yield PUnit.unit) (t := t) (by simp only [act_bind, act_get, hm, act_set, act_pure])]
      exact eachLane_post he hf as (hf a as s t h hm)
    | none =>
      rw [act_bind_error (e := e a) (by simp only [act_bind, act_get, hm, act_throw])]
      exact he a

section
variable {P : State → Prop} {E : Stop → Prop}
theorem post_bind {α β : Type} {a : Act α} {f : α → Act β} {s : State} (ha : Post P E (a s)) (hf : ∀ x, Keeps P E (f x)) : Post P E ((a >>= f) s) := by
  rw [act_bind]
  cases h : a s with
  | error e =>
    rw [h] at ha
    exact ha
  | ok p =>
    rw [h] at ha
    exact hf p.1 p.2 ha
/-- A check or a wait that leaves the state lets what follows start from it. -/
theorem post_check {α β : Type} {a : Act α} {f : α → Act β} {s : State} (ha : Post (· = s) E (a s)) (hf : ∀ x, Post P E (f x s)) : Post P E ((a >>= f) s) := by
  rw [act_bind]
  cases h : a s with
  | error e =>
    rw [h] at ha
    exact ha
  | ok p =>
    rw [h] at ha
    have hx := hf p.1
    rw [← show p.2 = s from ha] at hx
    exact hx
theorem Post.mono {α : Type} {P' : State → Prop} {r : Except Stop (α × State)} (h : Post P E r) (hP : ∀ t, P t → P' t) : Post P' E r := by
  cases r with
  | error e => exact h
  | ok p => exact hP p.2 h
theorem memIssue_post {w : WM} {x : Uses} {legal all : Bool} {body : List LaneIn → Act Unit} {s s1 : State} {v : View} {ins : List LaneIn} (h : MemReady w x all s v ins s1)
    (hl : legal = true) (hb : Post P E (body ins s1)) : Post P E (memIssue w x legal all body v s) := by
  rw [memIssue_ready h hl]
  exact hb
end
theorem check_needA {E : Stop → Prop} {b : Bool} {e : Stop} (h : E e) (s : State) : Post (· = s) E (needA b e s) := keeps_needA h s rfl

/-! ## Atomics of the shared space -/

/-- An operation that writes at most `n` bytes from `k` on. -/
def OcOp.Within (o : OcOp) (k n : Nat) : Prop := ∀ {s t : State} {Q : Nat → Prop} (sx : Nat), Framed s Q t → (∀ a, Q a → a < k ∨ k + n ≤ a) → Framed s Q (o.perform sx t).2
theorem framed_atomAt {s t : State} {Q : Nat → Prop} {k n : Nat} {f : Nat → Nat} (h : Framed s Q t) (hk : ∀ a, Q a → a < k ∨ k + n ≤ a) : Framed s Q (t.atomAt k n f).2 :=
  h.wr (bs := leBytes n _) (by rw [leBytes_length]; exact hk)
theorem atomOf_within (op : AtomOp) (n k : Nat) (x : LaneIn) : (atomOf op n k x).Within k n := fun _ h hk => framed_atomAt h hk
theorem casOf_within (n k : Nat) (x : LaneIn) : (casOf n k x).Within k n := by
  intro s t Q sx h hk
  unfold casOf OcOp.perform
  dsimp only
  split
  · exact framed_atomAt h hk
  · exact h
section
variable {s s1 : State} {v : View} {ins : List LaneIn}
theorem framed_atomicShared {w : WM} {nd nr : Nat} {op : Nat → LaneIn → OcOp} {Q : Nat → Prop} (hw : memWf s.mem = true) (hk : v.b.rwOk v.front w.data nd = true)
    (h : MemReady w { src := [mSrc w.data nd, mSrc w.base 1] } false s v ins s1) (ho : ∀ k x, (op k x).Within k (Width.n w))
    (hQ : ∀ a, Q a → ∀ x ∈ nearLanes w ins, a < kShared v.u.blk x.a ∨ kShared v.u.blk x.a + Width.n w ≤ a) :
    Post (Framed s Q) NoPage (atomic w .shared nd nr op v s) := by
  have hE : ∀ e, NoPage e → NoPage e := fun _ h => h
  have hs1 : Framed s Q s1 := by
    obtain ⟨-, -, -, -, hread, -⟩ := h
    exact (quiet_readAll hread).still.framed hw Q
  have hport := reg_or_zero_of_rwOk hk
  unfold atomic
  refine memIssue_post h hk ?_
  refine post_check (keeps_checkShared hE _ _ _ s1 rfl) fun _ => ?_
  refine post_check (a := get) rfl fun r => post_check (check_needA trivial s1) fun _ => post_check (keeps_presentAll hE _ _ _ s1 rfl) fun _ => ?_
  refine post_bind ?_ fun _ => keeps_done (fun a b h q => h.still q.still) v
  refine foldl_inv (G := fun as t => (∀ x ∈ as, x ∈ nearLanes w ins) ∧ Framed s Q t) ?_ (nearLanes w ins) ⟨fun _ h => h, hs1⟩ |>.2
  intro x xs t ⟨hmem, ht⟩
  refine ⟨fun y hy => hmem y (List.mem_cons_of_mem _ hy), ?_⟩
  split
  · exact ht.still (still_dropAtom hport t v _ _)
  · exact Framed.still (ho _ _ 0 ht fun a ha => hQ a ha x (hmem x List.mem_cons_self)) (still_writeDst hport _ _ _ _)

/-! ## Byte barriers -/

/-- A byte-barrier instruction whose updates keep a frame. -/
theorem framed_bbOp {w : WM} {x : Uses} {pre : LaneAt → Bool} {upd : Nat → LaneAt → State → Option State} {Q : Nat → Prop} {G : List LaneAt → State → Prop}
    (h : MemReady w x x.dst.isNone s v ins s1) (h0 : G (nearLanes w ins) s1) (hG : ∀ t, G [] t → Framed s Q t)
    (hu : ∀ a as r t, G (a :: as) r → upd (kShared v.u.blk a.a) a r = some t → G as t) : Post (Framed s Q) NoPage (bbOp w x pre upd v s) := by
  have hE : ∀ e, NoPage e → NoPage e := fun _ h => h
  unfold bbOp
  refine memIssue_post h rfl ?_
  refine post_check (keeps_checkShared hE _ _ _ s1 rfl) fun _ => post_check (check_needA trivial s1) fun _ => ?_
  refine post_check (keeps_presentAll hE _ _ _ s1 rfl) fun _ => post_check (keeps_portRoom hE _ _ _ _ s1 rfl) fun _ => ?_
  refine post_bind ?_ fun _ => keeps_done (fun a b h q => h.still q.still) v
  exact (eachLane_post (E := NoPage) (e := fun a => .fault fcBarrier (BitVec.ofNat 64 a.a) a.x.lane 0) (fun _ => trivial) hu (nearLanes w ins) h0).mono hG

theorem framed_bbWrite {t : State} {Q : Nat → Prop} (h : Framed s Q t) {k : Nat} (b : ByteBar) (hk : ∀ a, Q a → a < k ∨ k + 8 ≤ a) : Framed s Q (t.bbWrite k b) :=
  h.wr (by rw [leBytes_length]; exact hk)
theorem framed_uncorrAt {t : State} {Q : Nat → Prop} (h : Framed s Q t) (c : Nat) : Framed s Q (t.uncorrAt c) := h.still (quiet_modCore t c _).still
/-- The places of a ring that the lanes still to come push on are none that `Q` names. -/
def PlacesFree (Q : Nat → Prop) (blk : Nat) (f : Opnd) (n : Nat) (t : State) : Prop :=
  ∀ q r, opKind f = .port q → t.ringAt blk q = some r → ∀ k < n, ∀ a, Q a → a < kShared blk (r.place (r.tail + k)) ∨ kShared blk (r.place (r.tail + k)) + 4 ≤ a
theorem framed_writeWord {t : State} {Q : Nat → Prop} (h : Framed s Q t) {u : UnitRef} {f : Opnd} {n : Nat} (hp : PlacesFree Q u.blk f (n + 1) t) (l : Nat) (y : PWord) :
    Framed s Q (writeDst t u l ⟨f, 1⟩ [y]) ∧ PlacesFree Q u.blk f n (writeDst t u l ⟨f, 1⟩ [y]) := by
  by_cases hf : ∃ q, opKind f = .port q
  · obtain ⟨q, hq⟩ := hf
    have hw : writeDst t u l ⟨f, 1⟩ [y] = Machine.pushRing t u.blk q [y] := by simp only [writeDst, hq]
    rw [hw]
    constructor
    · refine h.pushRing fun a ha k hk => ?_
      unfold ringPlaces at hk
      cases hr : t.ringAt u.blk q with
      | none => simp [hr] at hk
      | some r =>
        rw [hr] at hk
        obtain ⟨i, hi, rfl⟩ := List.mem_map.mp hk
        have hi : i < 1 := List.mem_range.mp hi
        exact hp q r hq hr i (by omega) a ha
    · intro q' r hq' hr k hk a ha
      obtain rfl : q' = q := by rw [hq] at hq'; cases hq'; rfl
      rw [pushRing_ring] at hr
      obtain ⟨r0, hr0, rfl⟩ := Option.map_eq_some_iff.mp hr
      have e := hp q' r0 hq hr0 (k + 1) (by omega) a ha
      rwa [show r0.tail + (k + 1) = r0.tail + [y].length + k by simp; omega] at e
  · have hn : ∀ q, opKind f ≠ .port q := fun q hq => hf ⟨q, hq⟩
    exact ⟨h.still (still_writeDst (d := ⟨f, 1⟩) hn _ _ _ _), fun q r hq => absurd hq (hn q)⟩

variable {w : WM} {Q : Nat → Prop} (hw : memWf s.mem = true) (hQ : ∀ a, Q a → ∀ x ∈ nearLanes w ins, a < kShared v.u.blk x.a ∨ kShared v.u.blk x.a + 8 ≤ a)
include hw hQ
/-- BBINIT and BBEXP: each lane writes its own barrier word at most. -/
theorem framed_bbWrites {x : Uses} {pre : LaneAt → Bool} {upd : Nat → LaneAt → State → Option State} (h : MemReady w x x.dst.isNone s v ins s1)
    (hu : ∀ k a r t, upd k a r = some t → t = r.uncorrAt v.b.core ∨ ∃ b, t = r.bbWrite k b) : Post (Framed s Q) NoPage (bbOp w x pre upd v s) := by
  have hs1 : Framed s Q s1 := by
    obtain ⟨-, -, -, -, hread, -⟩ := h
    exact (quiet_readAll hread).still.framed hw Q
  refine framed_bbOp (G := fun as t => (∀ x ∈ as, x ∈ nearLanes w ins) ∧ Framed s Q t) h ⟨fun _ h => h, hs1⟩ (fun t h => h.2) fun a as r t hr ht => ?_
  obtain ⟨hmem, hr⟩ := hr
  refine ⟨fun y hy => hmem y (List.mem_cons_of_mem _ hy), ?_⟩
  rcases hu _ _ _ _ ht with rfl | ⟨b, rfl⟩
  · exact framed_uncorrAt hr _
  · exact framed_bbWrite hr b fun c hc => hQ c hc a (hmem a List.mem_cons_self)
/-- BBARV: each lane its own barrier word, and one place of the ring its token goes to. -/
theorem framed_bbarv {pre : LaneAt → Bool} (h : MemReady w { src := [mSrc w.base 1], dst := some ⟨w.data, 1⟩ } false s v ins s1)
    (hp : PlacesFree Q v.u.blk w.data ins.length s1) :
    Post (Framed s Q) NoPage (bbOp w { src := [mSrc w.base 1], dst := some ⟨w.data, 1⟩ } pre (fun k a s =>
      if s.psnAt k 8 then some (writeDst (s.uncorrAt v.b.core) v.u a.x.lane ⟨w.data, 1⟩ [⟨0, true⟩]) else
      let b := s.bbRead k
      if b.arr = 0 then none
      else some (writeDst (s.bbWrite k ({ b with arr := b.arr - 1 }).test) v.u a.x.lane ⟨w.data, 1⟩ [⟨if b.ph then 1 else 0, false⟩])) v s) := by
  have hs1 : Framed s Q s1 := by
    obtain ⟨-, -, -, -, hread, -⟩ := h
    exact (quiet_readAll hread).still.framed hw Q
  refine framed_bbOp (G := fun as t => (∀ x ∈ as, x ∈ nearLanes w ins) ∧ Framed s Q t ∧ PlacesFree Q v.u.blk w.data as.length t) h
    ⟨fun _ h => h, hs1, by rwa [nearLanes, List.length_map]⟩ (fun t h => h.2.1) fun a as r t hr ht => ?_
  obtain ⟨hmem, hr, hfree⟩ := hr
  refine ⟨fun y hy => hmem y (List.mem_cons_of_mem _ hy), ?_⟩
  dsimp only at ht
  split at ht
  · cases ht
    exact framed_writeWord (framed_uncorrAt hr _) hfree _ _
  · split at ht
    · cases ht
    · cases ht
      exact framed_writeWord (framed_bbWrite hr _ fun c hc => hQ c hc a (hmem a List.mem_cons_self)) hfree _ _
end

/-- Bytes outside the lanes' own and outside the places that their results take in the destination's ring. -/
def Untouched (v : View) (m : MemUse) (ins : List LaneIn) (s1 : State) (a : Nat) : Prop :=
  (∀ x ∈ nearLanes m.w ins, a < kShared v.u.blk x.a ∨ kShared v.u.blk x.a + m.n ≤ a) ∧
    ∀ d q r, m.x.dst = some d → opKind d.f = .port q → (s1.blk? v.u.blk).bind (·.ring? q) = some r →
      ∀ k < ins.length, a < kShared v.u.blk (r.place (r.tail + k)) ∨ kShared v.u.blk (r.place (r.tail + k)) + 4 ≤ a
theorem framed_nearWrites {i : Instr} {s s1 t : State} {v : View} {m : MemUse} {ins : List LaneIn} (hw : memWf s.mem = true)
    (hi : match i with | .atom _ .shared _ | .acas _ .shared | .bbinit _ | .bbexp _ | .bbarv _ => True | _ => False) (hm : nearUse v i = some m)
    (h : MemReady m.w m.x m.all s v ins s1) (hk : m.ok = true) (ht : exec i s = .next t) : Framed s (Untouched v m ins s1) t := by
  have hstop : ∀ e, NoPage e → Framed s (Untouched v m ins s1) (s.stopUnit v e) := fun e he => (quiet_stopUnit s v he).still.framed hw _
  have hQ : ∀ a, Untouched v m ins s1 a → ∀ x ∈ nearLanes m.w ins, a < kShared v.u.blk x.a ∨ kShared v.u.blk x.a + m.n ≤ a := fun a ha => ha.1
  cases i
  case atom w sp op =>
    cases sp <;> cases hm
    refine runUnit_post h.1 ?_ hstop ht
    exact framed_atomicShared hw hk h (atomOf_within op _) hQ
  case acas w sp =>
    cases sp <;> cases hm
    refine runUnit_post h.1 ?_ hstop ht
    exact framed_atomicShared hw hk h (casOf_within _) hQ
  case bbinit w =>
    cases hm
    refine runUnit_post h.1 ?_ hstop ht
    refine framed_bbWrites hw hQ h fun k a r t hr => ?_
    dsimp only at hr
    split at hr
    · cases hr
      exact .inr ⟨_, rfl⟩
    · cases hr
  case bbexp w =>
    cases hm
    refine runUnit_post h.1 ?_ hstop ht
    refine framed_bbWrites hw hQ h fun k a r t hr => ?_
    dsimp only at hr
    split at hr
    · cases hr
      exact .inl rfl
    · split at hr
      · cases hr
        exact .inr ⟨_, rfl⟩
      · cases hr
  case bbarv w =>
    cases hm
    refine runUnit_post h.1 ?_ hstop ht
    exact framed_bbarv hw hQ h fun q r hq hr k hk a ha => ha.2 _ q r rfl hq hr k hk
  all_goals exact hi.elim


end Sys2Proof.Machine
end

section
open Sys2Proof Sys2Proof.Machine Sys2Proof.Spec

/-- Settles O15: near accesses only queue, deliver and mark; far ones too, where their addresses translate; the others write at their lanes' addresses, and BBARV on its ring. -/
theorem memoryIssueFrames : Obligations.MemoryIssueFrames := by
  unfold Obligations.MemoryIssueFrames
  refine ⟨fun i s t hi h => ?_, fun i s s1 t v m wr ins hm h hx ht => ?_, fun i s s1 t v m ins hw hi hm h ht => ?_⟩
  · obtain ⟨h1, h2, h3⟩ := still_nearIssue hi h
    exact ⟨h1, h2, h3⟩
  · obtain ⟨h1, h2, h3⟩ := still_farIssue hm h hx ht
    exact ⟨h1, h2, h3⟩
  · obtain ⟨h, hk⟩ := h
    have hf := framed_nearWrites hw hi hm h hk ht
    exact ⟨fun a h1 h2 => hf.mem a ⟨h1, h2⟩, hf.eng, hf.rcd⟩

end

section
/-! SUPPORT. The issue of a copy: the checks of R300 one by one. -/

namespace Sys2Proof.Machine

open Sys2Proof.Spec

/-- The records of a copy agree where both are given, or the copy has no second one. -/
theorem recsAgree_ok {a : RSlot} {b : Option RSlot} {e : Stop} {f : Unit → Act Unit} {s : State} (h : ∀ r d, a = .rcd r → b = some (.rcd d) → r.esz = d.esz ∧ r.n = d.n) :
    (match a, b with
      | .rcd r, some (.rcd d) => needA (r.esz == d.esz && r.n == d.n) e >>= f
      | _, _ => f ()) s = f () s := by
  split
  · rename_i r d
    obtain ⟨h1, h2⟩ := h r d rfl rfl
    simp only [act_bind, act_needA, h1, h2, beq_self_eq_true, Bool.and_self, if_true]
  · rfl
theorem twoChecks_ok {c : Bool} {a b : Bool} {e e' : Stop} {f : Unit → Act Unit} {s : State} (h : c = true → a = true ∧ b = true) :
    (if c = true then (needA a e >>= fun _ => needA b e' >>= f) else f ()) s = f () s := by
  split
  · obtain ⟨rfl, rfl⟩ := h ‹_›
    rfl
  · rfl
/-- The coordinate words of a copy, from its registers or from the shared array (R298). -/
theorem copyWords_ok (src : CSrc) (i : LaneIn) (v : View) (o nw : Nat) (cw : List PWord) (s : State) (f : List PWord → Act Unit) :
    (src = .creg → cw = i.src.getD 1 []) →
    (src = .cmem → o % 4 = 0 ∧ v.b.inDecl o (4 * nw) = true ∧ v.g.sq = [] ∧ cw = s.cmemWords v.u.blk o nw) →
    (match src with
      | .creg => pure ((i.src.getD 1 []).map fun w => w) >>= f
      | .cmem => do
        needA (o % 4 == 0) (.fault fcMisalign (BitVec.ofNat 64 o) i.lane 0)
        needA (v.b.inDecl o (4 * nw)) (.fault fcRange (BitVec.ofNat 64 o) i.lane 0)
        needA (v.g.sq == []) .hold
        pure (s.cmemWords v.u.blk o nw) >>= f : Act Unit) s = f cw s := by
  intro hreg hmem
  cases src with
  | creg => rw [hreg rfl, List.map_id']; rfl
  | cmem =>
    obtain ⟨ha, hd, hq, he⟩ := hmem rfl
    simp only [act_bind, act_needA, ha, hd, hq, beq_self_eq_true, if_true, he, act_pure]
theorem exec_copyInstr (kind : CpyKind) (w : WC) (src : CSrc) (s : State) : exec (copyInstr kind w src) s = runUnit (copyIssue kind w src) s := by
  cases kind <;> rfl

end Sys2Proof.Machine
end

section
open Sys2Proof Sys2Proof.Machine Sys2Proof.Spec

/-- Settles O16: each check of R300 passes in turn, and the copy joins its context. -/
theorem copiesComplete : Obligations.CopiesComplete := by
  unfold Obligations.CopiesComplete
  intro s s1 v w l i kind src cw c h w0 ofs srec drec nb nw o bb hsrec hdrec hagree hofs hreg hmem hbb hc hlen cs op t hroom
  rw [exec_copyInstr]
  refine runUnit_ok h.1 ((perSplit_ready h rfl).trans ?_)
  have h1 : (srec != .none && drec != some .none) = true := by simp [hsrec, hdrec]
  have h2 : (kind != .cpyg) = true → (ofs % 128 == 0) = true ∧ (if kind = .cpyc then decide (ofs + nb ≤ 2 ^ 21) else v.b.inDecl ofs nb || v.b.inShelf ofs nb) = true := by
    intro hk
    obtain ⟨ha, hb⟩ := hofs (bne_iff_ne.mp hk)
    refine ⟨by simpa using ha, ?_⟩
    split at hb <;> simp_all
  have h4 : (bb.elim true fun o => v.b.inDecl o 8) = true := by
    cases hx : bb with
    | none => rfl
    | some x => exact hbb x hx
  refine (act_bind_ok (act_get s1)).trans ?_
  refine (act_bind_ok ((act_needA _ _ s1).trans (if_pos h1))).trans ?_
  refine (recsAgree_ok hagree).trans ?_
  refine (twoChecks_ok h2).trans ?_
  beta_reduce
  refine (copyWords_ok src i v _ _ cw s1 _ hreg hmem).trans ?_
  refine (act_bind_ok ((act_needA _ _ s1).trans (if_pos h4))).trans ?_
  refine (act_bind_ok (a := c) (t := s1) (by rw [act_someA, hc])).trans ?_
  refine (act_bind_ok ((act_needA _ _ s1).trans (if_pos (decide_eq_true hlen)))).trans ?_
  have hfin := writeAll_toAll (d := ⟨w.a, 2⟩) (ws := numWords (c.tl.given + 1)) (s := t) rfl hroom
  cases kind <;> cases src <;> exact (act_bind_ok (act_modA _ s1)).trans (act_bind_ok hfin)

end

section
/-! SUPPORT. A change of an engine context of a block leaves the room at its ports; the issue of an M-class word and of a read at issue. -/

namespace Sys2Proof.Machine

open Sys2Proof.Spec

/-- A change of a block that keeps its rings, its absent lines and its units. -/
structure KeepsPorts (f : Block → Block) : Prop where
  uid : ∀ b, (f b).uid = b.uid
  rings : ∀ b, (f b).rings = b.rings
  absent : ∀ b, (f b).absent = b.absent
  units : ∀ b u, (f b).grp? u = b.grp? u

theorem grp?_modBlk_of_units {f : Block → Block} (hf : KeepsPorts f) (s : State) (n : Nat) (u : UnitRef) : (s.modBlk n f).grp? u = s.grp? u := by
  unfold State.grp?
  rw [blk_modBlk s n u.blk f hf.uid]
  split
  · subst n
    cases s.blk? u.blk with
    | none => rfl
    | some b => exact hf.units b u
  · rfl
theorem pushBusy_modBlk {f : Block → Block} (hf : KeepsPorts f) (s : State) (n : Nat) (u : UnitRef) (q : Nat) (ls : List Nat) (k : Nat) :
    pushBusy (s.modBlk n f) u q ls k = pushBusy s u q ls k := by
  have hring : ∀ b : Block, (f b).ring? q = b.ring? q := fun b => by rw [Block.ring?, hf.rings]; rfl
  have hpres : ∀ (b : Block) (o m : Nat), (f b).present o m = b.present o m := fun b o m => by rw [Block.present, hf.absent]; rfl
  have hbusy : ringBusy (s.modBlk n f) u q ls = ringBusy s u q ls := by
    unfold ringBusy State.lanesReady
    rw [grp?_modBlk_of_units hf]
    rfl
  unfold pushBusy
  rw [blk_modBlk s n u.blk f hf.uid, hbusy]
  by_cases h : u.blk = n
  · rw [if_pos h, ← h]
    cases s.blk? u.blk with
    | none => rfl
    | some b => simp only [Option.map_some, hring, hpres]
  · rw [if_neg h]
/-- Room at a port is not taken by a change that keeps the rings, the presence bits and the units. -/
theorem roomFor_modBlk {f : Block → Block} (hf : KeepsPorts f) {s : State} {n : Nat} {v : View} {d : Dest} {ls : List Nat} (h : RoomFor s v d ls) :
    RoomFor (s.modBlk n f) v d ls :=
  fun q hq => (pushBusy_modBlk hf s n v.u q ls _).trans (h q hq)
theorem keepsPorts_pagec (f : PCtx → PCtx) : KeepsPorts fun b => { b with pagec := f b.pagec } where
  uid _ := rfl
  rings _ := rfl
  absent _ := rfl
  units _ u := by cases u <;> rfl

/-- The group assembled and the word's conditions met: its body runs. -/
theorem engIssue_ready {w : WE} {x : Uses} {slot : Bool} {body : List Nat → LaneIn → Act Unit} {s s1 : State} {v : View} {i : LaneIn} (h : EngReady w x slot s v i s1) :
    engIssue w x slot body v s = body v.g.live i s1 := by
  obtain ⟨l, ⟨-, ha, hh, hg⟩, hl, hw, hr, hd, hp⟩ := h
  have hslots : ((v.b.waitOf v.u).isSome || (v.b.slots &&& w.wait == 0 && !(slot && w.sen && v.b.slots.getLsbD w.set.toNat))) = true := by
    rcases hw with hw | ⟨hw, hs⟩
    · rw [hw, Bool.true_or]
    · rw [hw, hs]; simp
  unfold engIssue
  rw [uniform_ok ha hl hh hg]
  simp only [act_bind, act_needA, hslots, if_true, act_get, hr, hd, Bool.not_false, act_set, hp, Bool.false_eq_true, if_false]
theorem engReady_view {w : WE} {x : Uses} {slot : Bool} {s s1 : State} {v : View} {i : LaneIn} (h : EngReady w x slot s v i s1) : s.view? = some v := by
  obtain ⟨l, ⟨hv, -⟩, -⟩ := h
  exact hv

end Sys2Proof.Machine
end

section
open Sys2Proof Sys2Proof.Machine Sys2Proof.Spec

/-- Settles O17: a start with a clean or a poisoned descriptor, a release of arrived windows, and a stop. -/
theorem weightStreamInstructionsComplete : Obligations.WeightStreamInstructionsComplete := by
  unfold Obligations.WeightStreamInstructionsComplete
  intro s s1 v w l i
  refine ⟨?_, fun d h hf hst h1 h2 h3 => ?_, fun d h hf hst => ?_⟩
  · intro r h hf hst hal hr n0 d fin hroom
    obtain ⟨rs, hrs, -, hheld, hread⟩ := hr
    have hfin : ∀ f : PCtx → PCtx, (writeAll v ⟨w.a, 2⟩ v.lanes (numWords n0) >>= fun _ => done v) (modPage v.u.blk f s1) = .ok ((), fin f) := fun f =>
      act_bind_ok (writeAll_toAll rfl (roomFor_modBlk (keepsPorts_pagec f) hroom))
    have hbad : (!(v.b.pagec.stream.isSome || (i.d 0).toNat % 2 ^ 56 % 64 != 0)) = true := by rw [hst, hal]; rfl
    refine ⟨fun hp => runUnit_ok h.1 ((perSplit_ready h rfl).trans ?_), fun hp hleg hlt => runUnit_ok h.1 ((perSplit_ready h rfl).trans ?_)⟩
    · refine (act_bind_ok (fenced_ok hf)).trans ?_
      simp only [act_bind, act_needA, hbad, if_true, act_get, hrs, hheld, Bool.not_false, hread, hp, act_modA]
      exact (act_bind _ _ _).symm.trans (hfin _)
    · have hok : (!(!(wstreamOf r.1 (i.w 1).v.toNat n0).legal || decide ((wstreamOf r.1 (i.w 1).v.toNat n0).nlayer ≤ (i.w 1).v.toNat))) = true := by
        simp only [d] at hleg hlt
        simp [hleg, hlt]
      refine (act_bind_ok (fenced_ok hf)).trans ?_
      simp only [act_bind, act_needA, hbad, if_true, act_get, hrs, hheld, Bool.not_false, hread, hp, Bool.false_eq_true, if_false]
      simp only [n0] at hok
      simp only [hok, if_true, act_modA]
      exact (act_bind _ _ _).symm.trans (hfin _)
  · refine runUnit_ok h.1 ((perSplit_ready h rfl).trans ((act_bind_ok (fenced_ok hf)).trans ?_))
    simp only [hst, act_bind, act_needA, decide_eq_true (And.intro h1 (And.intro h2 h3)), if_true, act_modA]
    rfl
  · refine runUnit_ok h.1 ((perSplit_ready h rfl).trans ((act_bind_ok (fenced_ok hf)).trans ?_))
    simp only [hst, act_bind, act_modA]
    rfl

end

section
/-! SUPPORT. The acceptance of a matrix operation, instruction by instruction. -/

namespace Sys2Proof.Machine

open Sys2Proof.Spec

/-- The last step of each: the operation is accepted and the instruction is over. -/
theorem acceptM_accepted {v : View} {w : WE} {k : MKind} {f : Block → Block} {s : State} (h : v.b.matrix.ops.length < 64) :
    acceptM v w v.g.live k f s = .ok ((), engOver v (acceptedM v w k f s)) := acceptM_ok h
theorem badAlign_pair {a b k l : Nat} {s : State} (ha : a % k = 0) (hb : b % k = 0) : badAlign [a, b] k l s = .ok ((), s) :=
  badAlign_ok fun x hx => by rcases List.mem_cons.mp hx with rfl | hx <;> simp_all
theorem badAlign_one {a k l : Nat} {s : State} (ha : a % k = 0) : badAlign [a] k l s = .ok ((), s) :=
  badAlign_ok fun x hx => by rw [List.mem_singleton.mp hx]; exact ha
theorem badAttn_ok {b : Bool} {a l : Nat} {s : State} (h : b = false) : badAttn b a l s = .ok ((), s) := by
  subst h
  rfl
/-- A range that ends within the bound. -/
theorem badRange_le {n m a l : Nat} {s : State} (h : m ≤ n) : badRange (decide (n < m)) a l s = .ok ((), s) := badRange_ok (decide_eq_false (Nat.not_lt.mpr h))
/-- With every range in bounds there is no first one out of bounds. -/
theorem find_none_of_all {α : Type} {p : α → Bool} {l : List α} (h : l.all p = true) : l.find? (fun x => !p x) = none := by
  rw [List.find?_eq_none]
  intro x hx
  rw [List.all_eq_true.mp h x hx]
  exact Bool.false_ne_true

/-- The fields of a row descriptor that R339 and R342 check. -/
theorem rowDesc_ok {m fmt k scb need : Nat} (hf : fmt < m) (hk : k % 32 = 0) (hs : fmt < 2 → scb % 4 = 0 ∧ need ≤ scb) :
    (decide (m ≤ fmt) || k % 32 != 0 || (isNarrow fmt && (scb % 4 != 0 || decide (scb < need)))) = false := by
  have h1 : decide (m ≤ fmt) = false := decide_eq_false (Nat.not_le.mpr hf)
  unfold isNarrow
  rw [h1, hk]
  by_cases h : fmt < 2
  · obtain ⟨h2, h3⟩ := hs h
    rw [h2, decide_eq_false (Nat.not_lt.mpr h3)]
    simp
  · simp [h]
/-- The format pairs of R330. -/
theorem pairOk_of {wf af : Nat} (h : if wf < 2 then af < 2 else wf = af) : pairOk wf af = true := by
  unfold pairOk isNarrow
  split at h <;> simp_all

theorem exec_mwld {s s1 : State} {v : View} {w : WE} {x : LaneIn} {k : MKind} {f : Block → Block} {R : MRow} (hR : matrixRow (.mwld w) = some R)
    (h : EngReady R.w R.uses true s v x s1) (ho : R.op x v.b = some (k, f)) (hlen : v.b.matrix.ops.length < 64) :
    exec (.mwld w) s = .next (engOver v (acceptedM v R.w k f s1)) := by
  have hv := engReady_view h
  cases hR
  simp only at ho
  obtain ⟨hc, ho⟩ := Option.ite_none_right_eq_some.mp ho
  obtain ⟨h1, h2, h3, h4, h5⟩ := hc
  cases ho
  refine runUnit_ok hv ((engIssue_ready h).trans ?_)
  refine (act_bind_ok (badDesc_ok (by simp [h1, h2]))).trans ?_
  refine (act_bind_ok (badAlign_pair h3 h4)).trans ?_
  refine (act_bind_ok (badRange_le h5)).trans ?_
  exact acceptM_accepted hlen
theorem exec_mrowsc {s s1 : State} {v : View} {w : WE} {x : LaneIn} {k : MKind} {f : Block → Block} {R : MRow} (hR : matrixRow (.mrowsc w) = some R)
    (h : EngReady R.w R.uses true s v x s1) (ho : R.op x v.b = some (k, f)) (hlen : v.b.matrix.ops.length < 64) :
    exec (.mrowsc w) s = .next (engOver v (acceptedM v R.w k f s1)) := by
  have hv := engReady_view h
  cases hR
  simp only at ho
  obtain ⟨hc, ho⟩ := Option.ite_none_right_eq_some.mp ho
  obtain ⟨h1, h2, h3⟩ := hc
  cases ho
  refine runUnit_ok hv ((engIssue_ready h).trans ?_)
  refine (act_bind_ok (badAlign_one h1)).trans ?_
  refine (act_bind_ok (badRange_le h2)).trans ?_
  refine (act_bind_ok (badRange_ok (congrArg not h3))).trans ?_
  exact acceptM_accepted hlen
theorem exec_mzero {s s1 : State} {v : View} {w : WE} {x : LaneIn} {k : MKind} {f : Block → Block} {R : MRow} (hR : matrixRow (.mzero w) = some R)
    (h : EngReady R.w R.uses true s v x s1) (ho : R.op x v.b = some (k, f)) (hlen : v.b.matrix.ops.length < 64) :
    exec (.mzero w) s = .next (engOver v (acceptedM v R.w k f s1)) := by
  have hv := engReady_view h
  cases hR
  simp only at ho
  obtain ⟨hc, ho⟩ := Option.ite_none_right_eq_some.mp ho
  cases ho
  refine runUnit_ok hv ((engIssue_ready h).trans ?_)
  refine (act_bind_ok (badRange_le hc)).trans ?_
  exact acceptM_accepted hlen
theorem exec_amask {s s1 : State} {v : View} {w : WE} {x : LaneIn} {k : MKind} {f : Block → Block} {R : MRow} (hR : matrixRow (.amask w) = some R)
    (h : EngReady R.w R.uses true s v x s1) (ho : R.op x v.b = some (k, f)) (hlen : v.b.matrix.ops.length < 64) :
    exec (.amask w) s = .next (engOver v (acceptedM v R.w k f s1)) := by
  have hv := engReady_view h
  cases hR
  simp only at ho
  obtain ⟨hc, ho⟩ := Option.ite_none_right_eq_some.mp ho
  obtain ⟨h1, h2, h3, h4⟩ := hc
  cases ho
  refine runUnit_ok hv ((engIssue_ready h).trans ?_)
  refine (act_bind_ok (badAttn_ok (decide_eq_false (not_or.mpr ⟨Nat.not_lt.mpr h1, Nat.not_lt.mpr h2⟩)))).trans ?_
  refine (act_bind_ok (badAlign_one h3)).trans ?_
  refine (act_bind_ok (badRange_ok (congrArg not h4))).trans ?_
  exact acceptM_accepted hlen
theorem exec_mloop {s s1 : State} {v : View} {w : WE} {x : LaneIn} {k : MKind} {f : Block → Block} {R : MRow} (hR : matrixRow (.mloop w) = some R)
    (h : EngReady R.w R.uses true s v x s1) (ho : R.op x v.b = some (k, f)) (hlen : v.b.matrix.ops.length < 64) :
    exec (.mloop w) s = .next (engOver v (acceptedM v R.w k f s1)) := by
  have hv := engReady_view h
  cases hR
  simp only at ho
  obtain ⟨d, hd, ho⟩ := Option.bind_eq_some_iff.mp ho
  obtain ⟨hc, ho⟩ := Option.ite_none_right_eq_some.mp ho
  obtain ⟨h1, h2, h3, h4, h5, h6, h7, h8, h9⟩ := hc
  cases ho
  refine runUnit_ok hv ((engIssue_ready h).trans ?_)
  refine (act_bind_ok (badDesc_ok (rowDesc_ok h1 h2 h3))).trans ?_
  simp only [hd]
  refine (act_bind_ok ((act_needA _ _ s1).trans (if_pos (pairOk_of h4)))).trans ?_
  refine (act_bind_ok (badAlign_pair h5 h6)).trans ?_
  refine (act_bind_ok (badRange_le h7)).trans ?_
  simp only [rowOf, mOf, sOf, zOf, find_none_of_all (p := fun r : Nat × Nat => v.b.inDecl r.1 r.2 || v.b.inShelf r.1 r.2) h8]
  refine (act_bind_ok (badRange_le h9)).trans ?_
  exact acceptM_accepted hlen
theorem exec_mdrain {s s1 : State} {v : View} {w : WE} {x : LaneIn} {k : MKind} {f : Block → Block} {R : MRow} (hR : matrixRow (.mdrain w) = some R)
    (h : EngReady R.w R.uses true s v x s1) (ho : R.op x v.b = some (k, f)) (hlen : v.b.matrix.ops.length < 64) :
    exec (.mdrain w) s = .next (engOver v (acceptedM v R.w k f s1)) := by
  have hv := engReady_view h
  cases hR
  simp only at ho
  obtain ⟨hc, ho⟩ := Option.ite_none_right_eq_some.mp ho
  obtain ⟨h1, h2, h3, h4, h5, h6, h7⟩ := hc
  cases ho
  refine runUnit_ok hv ((engIssue_ready h).trans ?_)
  refine (act_bind_ok (badDesc_ok (rowDesc_ok h1 h2 h3))).trans ?_
  refine (act_bind_ok (badAlign_pair h4 h5)).trans ?_
  refine (act_bind_ok (badRange_le h6)).trans ?_
  simp only [rowOf, mOf, zOf, find_none_of_all (p := fun r : Nat × Nat => v.b.inDecl r.1 r.2) h7]
  exact acceptM_accepted hlen

end Sys2Proof.Machine
end

section
open Sys2Proof Sys2Proof.Machine Sys2Proof.Spec

/-- Settles O18: one acceptance for each of the six instructions that give the array an operation. -/
theorem matrixInstructionsComplete : Obligations.MatrixInstructionsComplete := by
  unfold Obligations.MatrixInstructionsComplete
  intro i R s s1 v x k f hR h ho hlen
  cases i with
  | mwld w => exact exec_mwld hR h ho hlen
  | mloop w => exact exec_mloop hR h ho hlen
  | mrowsc w => exact exec_mrowsc hR h ho hlen
  | mdrain w => exact exec_mdrain hR h ho hlen
  | mzero w => exact exec_mzero hR h ho hlen
  | amask w => exact exec_amask hR h ho hlen
  | _ => cases hR

end

section
/-! SUPPORT. Reads while an instruction holds its group, the acceptance of an attention operation, and instructions in an engine context's order. -/

namespace Sys2Proof.Machine

open Sys2Proof.Spec

/-- A read of bytes that translate, in their tiers, over links that are up, gives them and changes nothing (R349). -/
theorem heldRead_ok {v : View} {code lane a n : Nat} {tiers : List Nat} {r : List Byte × List Bool} {s : State} (h : Reads s v a n tiers r) :
    heldRead v code lane a n tiers s = .ok (r, s) := by
  obtain ⟨rs, hrs, ht, hheld, rfl⟩ := h
  unfold heldRead
  simp only [act_bind, act_get, hrs, act_needA, ht, if_true, hheld, Bool.not_false, act_pure]
/-- An attention operation is accepted under the next number (R347). -/
theorem acceptA_ok {v : View} {w : WE} {k : AKind} {p : Pass} {bad : Bool} {next : Option Pass} {s : State} (h : v.b.attn.ops.length < 64) :
    acceptA v w v.g.live k p bad next s = .ok (v.b.attn.tl.given + 1, acceptedA v w k p bad next s) := by
  unfold acceptA
  simp only [act_bind, act_needA, h, decide_true, if_true, act_modA, act_pure]
  rfl
/-- What completes in an engine context's order completes. -/
theorem inOrder_ok {α : Type} {attn : Bool} {sl : Option Nat} {a : Act α} {s t : State} {x : α} (h : a s = .ok (x, t)) : inOrder attn sl a s = .ok (x, t) := by
  unfold inOrder
  rw [h]

end Sys2Proof.Machine
end

section
open Sys2Proof Sys2Proof.Machine Sys2Proof.Spec

/-- Settles O19: MSTAT behind the operations before it, TREC with a clean or a poisoned record. -/
theorem tensorRecordAndMatrixStatusComplete : Obligations.TensorRecordAndMatrixStatusComplete := by
  unfold Obligations.TensorRecordAndMatrixStatusComplete
  refine ⟨fun s s1 v w i clr h hall hroom => ?_, ?_⟩
  · refine runUnit_ok (engReady_view h) ((engIssue_ready h).trans (inOrder_ok ?_))
    have hb : (v.b.matrix.ops.all fun o => decide (((v.b.waitOf v.u).map (·.after)).getD v.b.matrix.tl.given < o.no)) = true :=
      List.all_eq_true.mpr fun o ho => decide_eq_true (hall o ho)
    refine (act_bind_ok ((act_needA _ _ s1).trans (if_pos hb))).trans ?_
    refine (act_bind_ok (writeAll_toAll (d := ⟨w.a, 1⟩) rfl hroom)).trans ?_
    cases clr <;> rfl
  · intro s s1 v w l i r h hf hal hr k
    obtain ⟨rs, hrs, -, hheld, hread⟩ := hr
    refine ⟨fun hp => runUnit_ok h.1 ((perSplit_ready h rfl).trans ?_), fun hp hleg => runUnit_ok h.1 ((perSplit_ready h rfl).trans ?_)⟩
    · refine (act_bind_ok (fenced_ok hf)).trans ?_
      simp only [act_bind, act_needA, hal, beq_self_eq_true, if_true, act_get, hrs, hheld, Bool.not_false, hread, hp, act_modA, act_done]
      rfl
    · refine (act_bind_ok (fenced_ok hf)).trans ?_
      simp only [act_bind, act_needA, hal, beq_self_eq_true, if_true, act_get, hrs, hheld, Bool.not_false, hread, hp, Bool.false_eq_true, if_false, hleg, act_modA, act_done]
      rfl

/-- Settles O20: a pass starts, clean or marked bad; a tile is taken, or there is none. -/
theorem attentionInstructionsComplete : Obligations.AttentionInstructionsComplete := by
  unfold Obligations.AttentionInstructionsComplete
  intro s s1 v w x hlen
  refine ⟨fun r q h hf hal hr => ⟨fun hp => ?_, fun hp hfields hca hq hqp hareas => ?_⟩, fun h hroom => ⟨fun p hpass hplan => ?_, fun p pl hpass hplan hroom' => ?_⟩⟩
  · refine runUnit_ok (engReady_view h) ((engIssue_ready h).trans ?_)
    refine (act_bind_ok (fenced_ok hf)).trans ?_
    refine (act_bind_ok (badAttn_ok (by rw [hal]; rfl))).trans ?_
    refine (act_bind_ok (heldRead_ok hr)).trans ?_
    simp only [hp, if_true]
    exact act_bind_ok (acceptA_ok hlen)
  · refine runUnit_ok (engReady_view h) ((engIssue_ready h).trans ?_)
    refine (act_bind_ok (fenced_ok hf)).trans ?_
    refine (act_bind_ok (badAttn_ok (by rw [hal]; rfl))).trans ?_
    refine (act_bind_ok (heldRead_ok hr)).trans ?_
    simp only [hp, Bool.false_eq_true, if_false]
    refine (act_bind_ok (badAttn_ok (by rw [hfields, hca]; rfl))).trans ?_
    refine (act_bind_ok (heldRead_ok hq)).trans ?_
    simp only [hqp, Bool.false_eq_true, if_false]
    refine (act_bind_ok (badAttn_ok (congrArg not hareas))).trans ?_
    exact act_bind_ok (acceptA_ok hlen)
  · refine runUnit_ok (engReady_view h) ((engIssue_ready h).trans ?_)
    simp only [hpass, hplan]
    refine (act_bind_ok (act_pure _ s1)).trans ?_
    exact act_bind_ok (writeAll_toAll (d := ⟨w.a, 2⟩) (ws := numWords 0) rfl hroom)
  · refine runUnit_ok (engReady_view h) ((engIssue_ready h).trans ?_)
    simp only [hpass, hplan]
    refine (act_bind_ok (acceptA_ok hlen)).trans ?_
    exact act_bind_ok (writeAll_toAll (d := ⟨w.a, 2⟩) (ws := numWords (v.b.attn.tl.given + 1)) rfl hroom')

end

section
/-! SUPPORT. Little-endian bytes see a value modulo their range; survivor words; the attempts of an instruction whose slots move. -/

namespace Sys2Proof.Machine

open Sys2Proof.Spec

/-- The bytes of a value are those of its residue. -/
theorem leBytes_mod : ∀ n x : Nat, leBytes n (x % 2 ^ (8 * n)) = leBytes n x
  | 0, _ => rfl
  | n + 1, x => by
    have hpow : 2 ^ (8 * (n + 1)) = 256 * 2 ^ (8 * n) := by rw [Nat.mul_add, Nat.pow_add, Nat.mul_comm]
    have hlow : x % 2 ^ (8 * (n + 1)) % 256 = x % 256 := by rw [hpow, Nat.mod_mul_right_mod]
    have hhigh : x % 2 ^ (8 * (n + 1)) / 256 = x / 256 % 2 ^ (8 * n) := by rw [hpow, Nat.mod_mul_right_div_self]
    have hbyte : BitVec.ofNat 8 (x % 2 ^ (8 * (n + 1))) = BitVec.ofNat 8 x := BitVec.eq_of_toNat_eq (by simpa using hlow)
    rw [leBytes, leBytes, hbyte, hhigh, leBytes_mod n]
theorem leBytes_congr {n x y : Nat} (h : x % 2 ^ (8 * n) = y % 2 ^ (8 * n)) : leBytes n x = leBytes n y := by
  rw [← leBytes_mod n x, h, leBytes_mod]
/-- A survivor word has 64 positions. -/
theorem popc64_mod (x : Nat) : popc64 (x % 2 ^ 64) = popc64 x := by
  unfold popc64
  congr 1
  refine List.filter_congr fun i hi => ?_
  rw [Nat.testBit_mod_two_pow, decide_eq_true (List.mem_range.mp hi), Bool.true_and]
/-- The unit's turn in the attention context's order has come (R347). -/
theorem attnFree_ok {v : View} {s : State} (h : AttnTurn v) : attnFree v s = .ok ((), s) := by
  obtain ⟨hops, hwait⟩ := h
  have hb : (v.b.attn.ops.all fun o => decide ((v.b.waitOf v.u).elim v.b.attn.tl.given (·.after) < o.no)) = true :=
    List.all_eq_true.mpr fun o ho => decide_eq_true (hops o ho)
  unfold attnFree
  rw [act_needA, hb, hwait]
  rfl
theorem survivor_ok {v : View} {ls : List Nat} {x : LaneIn} {write : Bool} {a : Nat} {rs : List Run} {s : State} (ht : AttnTurn v) (hf : v.cmdPre ls = [])
    (hr : s.resolve v.b.ctx x.lane (x.handle 0) = .addr a) (hrs : s.engRange v.b.core v.b.ctx a 8 write = .ok rs) (hh : s.runsHeld rs = false) :
    survivor v ls x write s = .ok (some ⟨a, leNat (s.engRead rs).1, (s.engRead rs).2.any id⟩, s) := by
  unfold survivor
  refine (act_bind_ok (attnFree_ok ht)).trans ((act_bind_ok (fenced_ok hf)).trans ?_)
  simp only [act_bind, act_get, hr, hrs, act_needA, hh, Bool.not_false, if_true, act_pure]
theorem survPos_ok {x : LaneIn} {s : State} (h : (x.w 1).v.toNat ≤ 63) : survPos x s = .ok ((x.w 1).v.toNat, s) := by
  unfold survPos
  exact act_bind_ok (badAttn_ok (decide_eq_false (Nat.not_lt.mpr h)))
theorem exec_survEdit (up : Bool) (w : WE) (s : State) : exec (if up then .svset w else .svclr w) s = runUnit (survEdit up w) s := by
  cases up <;> rfl

variable {up : Bool} {w : WE} {v : View} {m : SlotMove} {s : State}

/-- An access of the slot on its way is made. -/
theorem survMove_step {t y : SlotBusy} {u : State} (hf : m.fault = .none) (hb : m.busy = some t) (h : s.slotStep t = some (u, y)) :
    survMove up w v m s = .ok ((), slotsGoOn v w u (if y.reads = [] ∧ y.writes = [] then { m with busy := none, next := m.next + 1 } else { m with busy := some y })) := by
  refine inOrder_ok ?_
  simp only [hf, act_bind, act_get, hb, h, act_set, slotsGoOn]
/-- The next slot's move is translated. -/
theorem survMove_next {i j : Nat} {t : SlotBusy} (hf : m.fault = .none) (hb : m.busy = none) (hp : (m.pairs up)[m.next]? = some (i, j))
    (h : s.slotRuns v.b m.base m.size i j = .ok t) : survMove up w v m s = .ok ((), slotsGoOn v w s { m with busy := some t }) := by
  refine inOrder_ok ?_
  simp only [hf, act_bind, act_get, hb, hp, h, act_set, slotsGoOn]
/-- After the last slot the survivor word is rewritten. -/
theorem survMove_last {rs : List Run} (hf : m.fault = .none) (hb : m.busy = none) (hp : (m.pairs up).length ≤ m.next)
    (hrs : s.engRange v.b.core v.b.ctx m.base 8 true = .ok rs) (hh : s.runsHeld rs = false) :
    survMove up w v m s = .ok ((), engOver v (setMove v.u.blk none (s.engWrite rs
      (leBytes 8 (if up then m.surv.toNat ||| 2 ^ m.pos else m.surv.toNat ^^^ 2 ^ m.pos)) (List.replicate 8 m.psn)))) := by
  refine inOrder_ok ?_
  simp only [hf, act_bind, act_get, hb, List.getElem?_eq_none hp, hrs, hh, Bool.false_eq_true, if_false, act_set, act_uDone, engOver]
/-- An instruction whose slots move goes on with what it took when it issued. -/
theorem survEdit_goesOn {t : State} (hm : v.b.attn.move = some m) (hu : m.u = v.u) (h : survMove up w v m s = .ok ((), t)) : survEdit up w v s = .ok ((), t) := by
  unfold survEdit
  rw [hm, Option.filter_some, hu, beq_self_eq_true]
  exact h
/-- An instruction that issues: its survivor word read, it is over where the position stands as asked, else its slots begin to move. -/
theorem survEdit_issues {x : LaneIn} {s1 : State} {a : Nat} {rs : List Run} {pass : Pass} (hm : v.b.attn.move = none) (ht : AttnTurn v) (hf : Fenced v v.g.live)
    (hx : (x.w 1).v.toNat ≤ 63) (hr : s1.resolve v.b.ctx x.lane (x.handle 0) = .addr a) (h : EngReady w { src := [mSrc w.b 4, mSrc w.c 1] } true s v x s1)
    (hpass : (v.b.waitOf v.u).elim v.b.attn.pass (·.pass) = some pass) (hrs : s1.engRange v.b.core v.b.ctx a 8 true = .ok rs) (hh : s1.runsHeld rs = false) :
    survEdit up w v s = (if (leNat (s1.engRead rs).1).testBit (x.w 1).v.toNat == up then uDone v
      else survMove up w v ⟨v.u, a, BitVec.ofNat 64 (leNat (s1.engRead rs).1), (s1.engRead rs).2.any id, (x.w 1).v.toNat, 2 * pass.hd, 0, none, .none⟩) s1 := by
  unfold survEdit
  rw [hm]
  refine (engIssue_ready h).trans ?_
  refine (act_bind_ok (survPos_ok hx)).trans ?_
  refine (act_bind_ok (a := pass) (t := s1) (by rw [act_someA, hpass])).trans ?_
  exact act_bind_ok (inOrder_ok (survivor_ok ht hf hr hrs hh))
/-- The move that an instruction begins with at its issue. -/
def firstMove (v : View) (a surv : Nat) (psn : Bool) (p size : Nat) : SlotMove := ⟨v.u, a, BitVec.ofNat 64 surv, psn, p, size, 0, none, .none⟩
theorem firstMove_counts {a surv p size : Nat} {psn : Bool} (hp : p ≤ 63) :
    popc64 (firstMove v a surv psn p size).surv.toNat = popc64 surv ∧ popc64 ((firstMove v a surv psn p size).surv.toNat % 2 ^ (firstMove v a surv psn p size).pos) = popc64 (surv % 2 ^ p) := by
  have hdvd : 2 ^ p ∣ 2 ^ 64 := Nat.pow_dvd_pow 2 (by omega)
  have hn : (firstMove v a surv psn p size).surv.toNat = surv % 2 ^ 64 := BitVec.toNat_ofNat surv 64
  rw [hn]
  exact ⟨popc64_mod surv, congrArg popc64 (Nat.mod_mod_of_dvd surv hdvd)⟩
/-- The slots that move where a position is set: those behind it, the last one first. -/
theorem firstMove_pairs_set {a surv p size : Nat} {psn : Bool} (hp : p ≤ 63) :
    (firstMove v a surv psn p size).pairs true = (List.range (popc64 surv - popc64 (surv % 2 ^ p))).map fun i => (popc64 surv - 1 - i, popc64 surv - i) := by
  obtain ⟨hn, hq⟩ := firstMove_counts (v := v) (a := a) (surv := surv) (psn := psn) (size := size) hp
  unfold SlotMove.pairs
  rw [hn, hq]
  rfl
/-- The slots that move where a position is cleared: those behind it, the first one first. -/
theorem firstMove_pairs_clr {a surv p size : Nat} {psn : Bool} (hp : p ≤ 63) :
    (firstMove v a surv psn p size).pairs false = (List.range (popc64 surv - 1 - popc64 (surv % 2 ^ p))).map fun i => (popc64 (surv % 2 ^ p) + 1 + i, popc64 (surv % 2 ^ p) + i) := by
  obtain ⟨hn, hq⟩ := firstMove_counts (v := v) (a := a) (surv := surv) (psn := psn) (size := size) hp
  unfold SlotMove.pairs
  rw [hn, hq]
  rfl
/-- The bytes of a survivor word with one position changed. -/
theorem leBytes_or (x y : Nat) : leBytes 8 ((BitVec.ofNat 64 x).toNat ||| y) = leBytes 8 (x ||| y) :=
  leBytes_congr (by rw [BitVec.toNat_ofNat, Nat.or_mod_two_pow, Nat.or_mod_two_pow, Nat.mod_mod])
theorem leBytes_xor (x y : Nat) : leBytes 8 ((BitVec.ofNat 64 x).toNat ^^^ y) = leBytes 8 (x ^^^ y) :=
  leBytes_congr (by rw [BitVec.toNat_ofNat, Nat.xor_mod_two_pow, Nat.xor_mod_two_pow, Nat.mod_mod])

end Sys2Proof.Machine
end

section
open Sys2Proof Sys2Proof.Machine Sys2Proof.Spec

/-- Settles O21: what each of the three does at its issue, and each way in which one whose slots move goes on. -/
theorem survivorInstructionsComplete : Obligations.SurvivorInstructionsComplete := by
  unfold Obligations.SurvivorInstructionsComplete
  refine ⟨?_, ?_⟩
  · intro s s1 v w x a rs hturn hmove hf hx hr hh p surv psn
    refine ⟨fun h hrs hroom => ?_, fun pass h hpass hrs => ?_⟩
    · refine runUnit_ok (engReady_view h) ((engIssue_ready h).trans ?_)
      refine (act_bind_ok (survPos_ok hx)).trans (inOrder_ok ?_)
      refine (act_bind_ok (survivor_ok hturn hf hr hrs hh)).trans ?_
      exact act_bind_ok (writeAll_toAll (d := ⟨w.a, 1⟩) rfl hroom)
    · have hissue := fun up => survEdit_issues (up := up) hmove hturn hf hx hr h hpass hrs hh
      have hv := engReady_view h
      refine ⟨fun hb => ?_, fun hb => ?_, fun hb => ⟨fun hq => ?_, fun t hq ht => ?_⟩, fun hb => ⟨fun hq => ?_, fun t hq ht => ?_⟩⟩
      · exact runUnit_ok hv ((hissue true).trans (by rw [show (leNat (s1.engRead rs).1).testBit (x.w 1).v.toNat = true from hb]; rfl))
      · exact runUnit_ok hv ((hissue false).trans (by rw [show (leNat (s1.engRead rs).1).testBit (x.w 1).v.toNat = false from hb]; rfl))
      · refine runUnit_ok hv ((hissue true).trans ?_)
        rw [show (leNat (s1.engRead rs).1).testBit (x.w 1).v.toNat = false from hb]
        have hp : ((firstMove v a surv psn p (2 * pass.hd)).pairs true).length ≤ 0 := by
          rw [firstMove_pairs_set hx, List.length_map, List.length_range, hq, Nat.sub_self]
        refine (survMove_last rfl rfl hp hrs hh).trans ?_
        rw [if_pos rfl]
        exact congrArg (fun b => Except.ok ((), engOver v (setMove v.u.blk none (s1.engWrite rs b (List.replicate 8 psn))))) (leBytes_or surv (2 ^ p))
      · refine runUnit_ok hv ((hissue true).trans ?_)
        rw [show (leNat (s1.engRead rs).1).testBit (x.w 1).v.toNat = false from hb]
        have hp : ((firstMove v a surv psn p (2 * pass.hd)).pairs true)[0]? = some (popc64 surv - 1, popc64 surv) := by
          rw [firstMove_pairs_set hx, List.getElem?_map, List.getElem?_range (Nat.sub_pos_of_lt hq)]
          rfl
        exact survMove_next rfl rfl hp ht
      · refine runUnit_ok hv ((hissue false).trans ?_)
        rw [show (leNat (s1.engRead rs).1).testBit (x.w 1).v.toNat = true from hb]
        have hp : ((firstMove v a surv psn p (2 * pass.hd)).pairs false).length ≤ 0 := by
          rw [firstMove_pairs_clr (p := p) hx, List.length_map, List.length_range]
          omega
        refine (survMove_last rfl rfl hp hrs hh).trans ?_
        exact congrArg (fun b => Except.ok ((), engOver v (setMove v.u.blk none (s1.engWrite rs b (List.replicate 8 psn))))) (leBytes_xor surv (2 ^ p))
      · refine runUnit_ok hv ((hissue false).trans ?_)
        rw [show (leNat (s1.engRead rs).1).testBit (x.w 1).v.toNat = true from hb]
        have hp : ((firstMove v a surv psn p (2 * pass.hd)).pairs false)[0]? = some (popc64 (surv % 2 ^ p) + 1, popc64 (surv % 2 ^ p)) := by
          rw [firstMove_pairs_clr (p := p) hx, List.getElem?_map, List.getElem?_range (by omega)]
          rfl
        exact survMove_next rfl rfl hp ht
  · intro s v w up m hv hm hu hf again moved
    have goes : ∀ t, survMove up w v m s = .ok ((), t) → again t := fun t h => (exec_survEdit up w s).trans (runUnit_ok hv (survEdit_goesOn hm hu h))
    refine ⟨fun t r rest hb hreads hheld => ?_, fun t r rest hb hreads hwrites hheld => ?_, fun i j t hb hp ht => goes _ (survMove_next hf hb hp ht),
      fun rs hb hp hrs hh => goes _ (survMove_last hf hb hp hrs hh)⟩
    · refine goes _ (survMove_step hf hb ?_)
      simp only [State.slotStep, hreads, hheld, Bool.false_eq_true, if_false]
    · refine goes _ (survMove_step hf hb ?_)
      simp only [State.slotStep, hreads, hwrites, hheld, Bool.false_eq_true, if_false]

end

section
/-! SUPPORT. Reads and writes of the stream instructions, and the stream context they name. -/

namespace Sys2Proof.Machine

open Sys2Proof.Spec

variable {v : View} {l : Nat} {s t : State}

theorem sRead_ok {a n : Nat} {r : List Byte × List Bool} (h : Reads s v a n anyTier r) : sRead v l a n s = .ok (r.1, s) := act_bind_ok (heldRead_ok h)
theorem sWrite_ok {a : Nat} {bs : List Byte} (h : Writes s v a bs t) : sWrite v l a bs s = .ok ((), t) := by
  obtain ⟨rs, hrs, hh, rfl⟩ := h
  unfold sWrite
  simp only [act_bind, act_get, hrs, act_needA, hh, Bool.not_false, if_true, act_set]
theorem badStream_ok {b : Bool} (h : b = false) : badStream b l s = .ok ((), s) := by
  subst h
  rfl
/-- The stream context that a stream instruction names is read, legal, and the instruction's turn has come (R347, R367, R370). -/
theorem streamCtx_ok {b : DWord} {c : SCtx} {ps : List Bool} (h : StreamAt s v b c ps) : streamCtx v v.g.live l b s = .ok ((c, ps), s) := by
  obtain ⟨hturn, hf, hal, r, hr, rfl, hleg, rfl⟩ := h
  unfold streamCtx
  refine (act_bind_ok (badStream_ok (by rw [hal]; rfl))).trans ?_
  refine (act_bind_ok (attnFree_ok hturn)).trans ?_
  refine (act_bind_ok (fenced_ok hf)).trans ?_
  refine (act_bind_ok (heldRead_ok hr)).trans ?_
  exact act_bind_ok (badStream_ok (congrArg not hleg))
/-- The lengths of the later sequences are read and written again (R371, R372). -/
theorem cltAdd_ok {c : SCtx} {d : Int} {r : List Byte × List Bool} (hr : Reads s v (c.clt + 4 * (c.seq + 1)) (4 * (c.nseq - c.seq)) anyTier r)
    (hw : Writes s v (c.clt + 4 * (c.seq + 1)) ((List.range (c.nseq - c.seq)).flatMap fun i => leBytes 4 (((fieldAt r.1 (4 * i) 4 : Nat) + d) % 2 ^ 32).toNat) t) :
    cltAdd v l c d s = .ok ((), t) := by
  unfold cltAdd
  exact (act_bind_ok (sRead_ok hr)).trans (sWrite_ok hw)
/-- A stream instruction whose context is at hand: what its body does after the read of the context is what it does. -/
theorem stream_issues {w : WE} {x : Uses} {y : LaneIn} {s1 : State} {b : DWord} {c : SCtx} {ps : List Bool} {f : SCtx × List Bool → Act Unit}
    (h : EngReady w x true s v y s1) (hc : StreamAt s1 v b c ps) (hf : f (c, ps) s1 = .ok ((), t)) {body : List Nat → LaneIn → Act Unit}
    (hb : body v.g.live y = inOrder true (WE.slot? w) (streamCtx v v.g.live y.lane b >>= f)) : engIssue w x true body v s = .ok ((), t) := by
  rw [engIssue_ready h, hb]
  exact inOrder_ok ((act_bind_ok (streamCtx_ok hc)).trans hf)

end Sys2Proof.Machine
end

section
open Sys2Proof Sys2Proof.Machine Sys2Proof.Spec

/-- Settles O22: the three reads, a commit that fails and one that is made, and a floor release. -/
theorem streamReadAndCommitComplete : Obligations.StreamReadAndCommitComplete := by
  unfold Obligations.StreamReadAndCommitComplete
  intro s s1 v w x c ps
  refine ⟨fun sel h hc hroom => ⟨fun hsel => ?_, fun hsel => ?_, fun r hsel hr => ?_⟩, fun h hc => ⟨fun t hfail hw => ?_, fun t1 t2 r t hfail hw1 hw2 hr hw => ?_⟩,
    fun t h hc hw => ?_⟩
  · subst hsel
    refine runUnit_ok (engReady_view h) (stream_issues h hc ?_ rfl)
    refine (act_bind_ok (act_pure _ s1)).trans ?_
    refine act_bind_ok (writeAll_toAll (d := ⟨w.a, 4⟩) ?_ hroom)
    rfl
  · subst hsel
    refine runUnit_ok (engReady_view h) (stream_issues h hc ?_ rfl)
    refine (act_bind_ok (act_pure _ s1)).trans ?_
    refine act_bind_ok (writeAll_toAll (d := ⟨w.a, 4⟩) ?_ hroom)
    rfl
  · subst hsel
    refine runUnit_ok (engReady_view h) (stream_issues h hc ?_ rfl)
    refine (act_bind_ok (heldRead_ok hr)).trans ?_
    refine (act_bind_ok (act_pure _ s1)).trans ?_
    refine act_bind_ok (writeAll_toAll (d := ⟨w.a, 4⟩) ?_ hroom)
    rfl
  · refine runUnit_ok (engReady_view h) (stream_issues h hc ?_ rfl)
    simp only [if_pos hfail]
    refine (act_bind_ok (sWrite_ok hw)).trans ?_
    exact act_bind_ok (predAll_ok v _ _ false t)
  · refine runUnit_ok (engReady_view h) (stream_issues h hc ?_ rfl)
    simp only [if_neg hfail]
    refine (act_bind_ok (sWrite_ok hw1)).trans ?_
    refine (act_bind_ok (sWrite_ok hw2)).trans ?_
    refine (act_bind_ok (cltAdd_ok (d := 1) hr hw)).trans ?_
    exact act_bind_ok (predAll_ok v _ _ true t)
  · refine runUnit_ok (engReady_view h) (stream_issues h hc ?_ rfl)
    exact act_bind_ok (sWrite_ok hw)

end

section
/-! SUPPORT. How many bytes an engine's read gives, what its writes keep, and what a range landed line by line leaves. -/

namespace Sys2Proof.Machine

open Sys2Proof.Spec

/-- The runs of a range are as long as the range, where the fuel reaches its end. -/
theorem engRuns_length {s : State} {core ctx : Nat} {write : Bool} : ∀ {fuel va n : Nat} {rs : List Run}, n = 0 ∨ va % 65536 + n ≤ 65536 * fuel →
    s.engRuns core ctx write fuel va n = .ok rs → (rs.map (·.len)).sum = n
  | 0, va, n, rs, hfuel, h => by
    cases h
    simp
    omega
  | fuel + 1, va, n, rs, hfuel, h => by
    unfold State.engRuns at h
    split at h
    · cases h
      simp_all
    · simp only at h
      split at h
      · cases h
      · split at h
        · split at h
          · rename_i r hr
            cases h
            have hmod : va % 2 ^ 56 % 65536 = va % 65536 := Nat.mod_mod_of_dvd va (by decide)
            have ih := engRuns_length (by omega) hr
            simp only [List.map_cons, List.sum_cons, ih]
            omega
          · cases h
        · cases h
theorem engRange_length {s : State} {core ctx va n : Nat} {write : Bool} {rs : List Run} (h : s.engRange core ctx va n write = .ok rs) : (rs.map (·.len)).sum = n :=
  engRuns_length (.inr (by omega)) h
theorem engRead_length (s : State) (rs : List Run) : (s.engRead rs).1.length = (rs.map (·.len)).sum := by
  unfold State.engRead
  rw [List.length_flatMap]
  congr 1
  refine List.map_congr_left fun r _ => ?_
  split
  · exact List.length_replicate
  · exact memRead_length r.len s.mem r.key
theorem reads_length {s : State} {v : View} {a n : Nat} {tiers : List Nat} {r : List Byte × List Bool} (h : Reads s v a n tiers r) : r.1.length = n := by
  obtain ⟨rs, hrs, -, -, rfl⟩ := h
  rw [engRead_length, engRange_length hrs]
theorem reads_unique {s : State} {v : View} {a n : Nat} {tiers tiers' : List Nat} {r q : List Byte × List Bool} (h : Reads s v a n tiers r)
    (k : Reads s v a n tiers' q) : r = q := by
  obtain ⟨rs, hrs, -, -, rfl⟩ := h
  obtain ⟨qs, hqs, -, -, rfl⟩ := k
  cases hrs.symm.trans hqs
  rfl
/-- An engine's write keeps memory canonical. -/
theorem engWrite_wf {s : State} (rs : List Run) (bs : List Byte) (ps : List Bool) (h : memWf s.mem = true) : memWf (s.engWrite rs bs ps).mem = true := by
  unfold State.engWrite
  generalize hx : (s, bs, ps) = x
  replace h : memWf x.1.mem = true := by rw [← hx]; exact h
  clear hx
  induction rs generalizing x with
  | nil => exact h
  | cons r rs ih =>
    refine ih _ ?_
    dsimp only
    split
    · exact h
    · exact wrPsn_wf _ _ _ _ h
theorem writes_wf {s t : State} {v : View} {a : Nat} {bs : List Byte} (h : Writes s v a bs t) (hw : memWf s.mem = true) : memWf t.mem = true := by
  obtain ⟨rs, -, -, rfl⟩ := h
  exact engWrite_wf rs bs _ hw

/-- What bytes landed in a block's shared space from an offset on leave: they are there, with their lines present, and no other byte, no thread and no context changes. -/
structure Landed (blk a : Nat) (bs : List Byte) (s t : State) : Prop where
  wf : memWf t.mem = true
  mem : ∀ j, memGet t.mem j = if kShared blk a ≤ j ∧ j < kShared blk a + bs.length then bs.getD (j - kShared blk a) 0 else memGet s.mem j
  ctxs : t.ctxs = s.ctxs
  calm : Calm s t
  absent : ∀ b, t.blk? blk = some b → ∃ b0, s.blk? blk = some b0 ∧ ∀ l ∈ b.absent, l ∈ b0.absent
  present : ∀ b, t.blk? blk = some b → ∀ k, 128 * k < bs.length → a / 128 + k ∉ b.absent

theorem blkThreads_setLine (b : Block) (l : Nat) : blkThreads (b.setLine l) = blkThreads b := rfl
theorem landed_one {s : State} (blk : Nat) {f : Frag} (hlen : f.bytes.length ≤ 128) (hw : memWf s.mem = true) :
    Landed blk f.ofs f.bytes s (s.landFrags blk (f.ofs / 128) [f]) := by
  have hblk : (s.landFrags blk (f.ofs / 128) [f]).blk? blk = (s.blk? blk).map (·.setLine (f.ofs / 128)) := by
    unfold State.landFrags
    rw [blk_modBlk _ blk blk (·.setLine (f.ofs / 128)) fun _ => rfl, if_pos rfl]
    rfl
  refine ⟨memWrite_wf f.bytes s.mem _ hw, fun j => memGet_memWrite f.bytes s.mem _ j hw, rfl, (calm_blocks rfl : Calm s (s.wrPsnMany _)).trans (calm_modBlk _ _ _ fun b => rfl), fun b hb => ?_,
    fun b hb k hk => ?_⟩
  · rw [hblk] at hb
    obtain ⟨b0, hb0, rfl⟩ := Option.map_eq_some_iff.mp hb
    exact ⟨b0, hb0, fun l hl => (List.mem_filter.mp hl).1⟩
  · rw [hblk] at hb
    obtain ⟨b0, hb0, rfl⟩ := Option.map_eq_some_iff.mp hb
    intro hmem
    have hne := (List.mem_filter.mp hmem).2
    have hk0 : k = 0 := by omega
    subst hk0
    simp at hne
/-- Two ranges landed one behind the other are one range. -/
theorem Landed.append {blk a : Nat} {xs ys : List Byte} {s u t : State} (hal : a % 128 = 0) (hx : xs.length = 128) (h : Landed blk a xs s u) (k : Landed blk (a + 128) ys u t) :
    Landed blk a (xs ++ ys) s t := by
  refine ⟨k.wf, fun j => ?_, k.ctxs.trans h.ctxs, h.calm.trans k.calm, fun b hb => ?_, fun b hb n hn => ?_⟩
  · have hkey : kShared blk (a + 128) = kShared blk a + 128 := by rw [kShared, region, kShared, region, Nat.add_assoc]
    rw [k.mem j, h.mem j, hkey, List.length_append, hx]
    generalize kShared blk a = key
    by_cases h1 : key + 128 ≤ j ∧ j < key + 128 + ys.length
    · rw [if_pos h1, if_pos (by omega), List.getD_append_right _ _ _ _ (by omega), hx, Nat.sub_sub]
    · rw [if_neg h1]
      by_cases h2 : key ≤ j ∧ j < key + 128
      · rw [if_pos h2, if_pos (by omega), List.getD_append _ _ _ _ (by omega)]
      · rw [if_neg h2, if_neg (by omega)]
  · obtain ⟨b1, hb1, h1⟩ := k.absent b hb
    obtain ⟨b0, hb0, h0⟩ := h.absent b1 hb1
    exact ⟨b0, hb0, fun l hl => h0 l (h1 l hl)⟩
  · cases n with
    | zero =>
      obtain ⟨b1, hb1, h1⟩ := k.absent b hb
      exact fun hm => h.present b1 hb1 0 (by omega) (h1 _ hm)
    | succ n =>
      have := k.present b hb n (by rw [List.length_append, hx] at hn; omega)
      rwa [show (a + 128) / 128 + n = a / 128 + (n + 1) by omega] at this
theorem landed_nil {blk a : Nat} {s : State} (hw : memWf s.mem = true) : Landed blk a [] s s :=
  ⟨hw, fun j => by rw [if_neg (by simp only [List.length_nil]; omega)], rfl, calm_rfl s, fun b hb => ⟨b, hb, fun _ h => h⟩, fun b hb k hk => absurd hk (by simp)⟩
/-- A range cut into its lines, each of which lands, has landed. -/
theorem landed_cutLines (blk : Nat) : ∀ (fuel : Nat) (f : Frag) (s : State), f.ofs % 128 = 0 → f.bytes.length < 128 * fuel + 1 → memWf s.mem = true →
    Landed blk f.ofs f.bytes s ((cutLines fuel f).foldl (fun t f => t.landFrags blk (f.ofs / 128) [f]) s)
  | 0, f, s, _, hlen, hw => by
    have h0 : f.bytes = [] := List.length_eq_zero_iff.mp (by omega)
    rw [h0]
    exact landed_nil hw
  | fuel + 1, f, s, hal, hlen, hw => by
    unfold cutLines
    split
    · rename_i h0
      rw [h0]
      exact landed_nil hw
    · rename_i h0
      have hn : 128 - f.ofs % 128 = 128 := by omega
      simp only [hn, List.foldl_cons]
      have h1 := landed_one (s := s) blk (f := ⟨f.ofs, f.bytes.take 128, f.psn.take 128⟩) (by simp) hw
      by_cases hlong : 128 ≤ f.bytes.length
      · have h2 := landed_cutLines blk fuel ⟨f.ofs + 128, f.bytes.drop 128, f.psn.drop 128⟩ _ (by simp only; omega) (by simp only [List.length_drop]; omega) h1.wf
        have h3 := h1.append hal (by simp only [List.length_take]; omega) h2
        rwa [List.take_append_drop] at h3
      · have hrest : cutLines fuel ⟨f.ofs + 128, f.bytes.drop 128, f.psn.drop 128⟩ = [] := by
          rw [List.drop_eq_nil_of_le (by omega)]
          cases fuel <;> simp [cutLines]
        rw [hrest]
        rw [List.take_of_length_le (show f.bytes.length ≤ 128 by omega)] at h1 ⊢
        exact h1

end Sys2Proof.Machine
end

section
/-! SUPPORT. The cut of a stream, step by step (R372). -/

namespace Sys2Proof.Machine

open Sys2Proof.Spec

variable {v : View} {l : Nat} {c : SCtx} {cut : Nat}

theorem cutBlock_ok {j : Nat} {s t : State} (h : CutBlock v l c cut j s t) : cutBlock v l c cut j s = .ok ((), t) := by
  obtain ⟨e, he, h⟩ := h
  refine (act_bind_ok (sRead_ok he)).trans ?_
  rcases h with ⟨hnull, rfl⟩ | ⟨hnull, a, y, hres, hy, h⟩
  · simp only [hnull, if_true, act_pure]
  · simp only [hnull, Bool.false_eq_true, if_false]
    refine (act_bind_ok (act_get s)).trans ?_
    simp only [hres]
    refine (act_bind_ok (sRead_ok hy)).trans ?_
    rcases h with ⟨hj, hw⟩ | ⟨hj, u, hu, hw⟩
    · simp only [hj, if_true]
      exact sWrite_ok hw
    · simp only [Nat.not_lt.mpr hj, if_false]
      exact (act_bind_ok (sWrite_ok hu)).trans (act_bind_ok (act_modA _ u) |>.trans (sWrite_ok hw))
theorem cutBlock_wf {j : Nat} {s t : State} (h : CutBlock v l c cut j s t) (hw : memWf s.mem = true) : memWf t.mem = true := by
  obtain ⟨e, -, ⟨-, rfl⟩ | ⟨-, a, y, -, -, ⟨-, h⟩ | ⟨-, u, hu, ht⟩⟩⟩ := h
  · exact hw
  · exact writes_wf h hw
  · have huw := writes_wf hu hw
    exact writes_wf ht huw
theorem cutFrame_wf {x : Nat} {s t : State × Nat} (h : CutFrame v c cut x s t) (hw : memWf s.1.mem = true) : memWf t.1.mem = true := by
  obtain ⟨e, -, -, ⟨-, h⟩ | ⟨-, u, hu, ht⟩⟩ := h
  · rw [h]
    exact hw
  · exact writes_wf ht (writes_wf hu hw)
/-- What every step of a chain keeps, the chain keeps. -/
theorem along_keeps {α β : Type} {R : α → β → β → Prop} {P : β → Prop} (h : ∀ a s t, R a s t → P s → P t) : ∀ {xs : List α} {s t : β}, along R xs s t → P s → P t
  | [], s, t, hst, hs => by
    cases hst
    exact hs
  | a :: r, s, t, ⟨u, hu, hr⟩, hs => along_keeps h hr (h a s u hu hs)
/-- A loop whose passes complete along a chain completes. -/
theorem forIn_along {α : Type} {R : α → State → State → Prop} {f : α → Act Unit} (h : ∀ a s t, R a s t → f a s = .ok ((), t)) :
    ∀ {xs : List α} {s t : State}, along R xs s t →
      (forIn xs PUnit.unit fun a (_ : PUnit) => (do f a; pure (ForInStep.yield PUnit.unit) : Act (ForInStep PUnit))) s = .ok (PUnit.unit, t)
  | [], s, t, hst => by
    cases hst
    rfl
  | a :: r, s, t, ⟨u, hu, hr⟩ => by
    rw [List.forIn_cons]
    refine (act_bind_ok (act_bind_ok (h a s u hu))).trans ?_
    exact forIn_along h hr
/-- One pass over the pending frames: the stamp is cut, and the least one kept (R372). -/
def framePass (v : View) (l : Nat) (c : SCtx) (cut x low : Nat) : Act (ForInStep Nat) := do
  let e ← sRead v l (c.ringAt x) 12
  if cut < fieldAt e 0 4 then
    sWrite v l (c.ringAt x) (leBytes 4 cut)
    sWrite v l (c.ringAt x + 8) (leBytes 4 (fieldAt e 8 4 ||| 2))
    pure (.yield (min low (min cut (fieldAt e 0 4))))
  else pure (.yield (min low (min cut (fieldAt e 0 4))))
theorem framePass_ok {x low : Nat} {s : State} {t : State × Nat} (h : CutFrame v c cut x (s, low) t) : framePass v l c cut x low s = .ok (.yield t.2, t.1) := by
  obtain ⟨e, he, hlow, h⟩ := h
  unfold framePass
  refine (act_bind_ok (sRead_ok he)).trans ?_
  rcases h with ⟨hle, ht⟩ | ⟨hlt, u, hu, ht⟩
  · simp only [Nat.not_lt.mpr hle, if_false, act_pure, hlow, ht]
  · simp only [hlt, if_true]
    refine (act_bind_ok (sWrite_ok hu)).trans ((act_bind_ok (sWrite_ok ht)).trans ?_)
    rw [hlow]
    rfl
theorem forIn_frames : ∀ {xs : List Nat} {s : State} {low : Nat} {t : State × Nat}, along (CutFrame v c cut) xs (s, low) t →
    (forIn xs low (framePass v l c cut)) s = .ok (t.2, t.1)
  | [], s, low, t, h => by
    cases h
    rfl
  | x :: xs, s, low, t, ⟨u, hu, hr⟩ => by
    rw [List.forIn_cons]
    refine (act_bind_ok (framePass_ok hu)).trans ?_
    exact forIn_frames hr

theorem restored_of_landed {ofs : Nat} {s t : State} {q : List Byte × List Bool} (hk : c.cksz ≠ 0) (hq : Reads s v (c.ckr + c.cksz * (cut % c.ckn)) c.cksz anyTier q)
    (h : Landed v.u.blk ofs q.1 s t) : Restored v c cut ofs s t := by
  have hlen := reads_length hq
  refine ⟨fun h0 => absurd h0 hk, fun _ r hr => ?_⟩
  cases reads_unique hq hr
  have hkey : ∀ i, kShared v.u.blk (ofs + i) = kShared v.u.blk ofs + i := fun i => by rw [kShared, region, kShared, region, Nat.add_assoc]
  refine ⟨fun i b hb => ?_, fun k hk => ?_, fun k hk b hb => h.present b hb k (by omega), fun n => ?_, fun u n k => ?_⟩
  · have hi : i < q.1.length := (List.getElem?_eq_some_iff.mp hb).1
    rw [h.mem, hkey, if_pos ⟨Nat.le_add_right _ _, Nat.add_lt_add_left hi _⟩, Nat.add_sub_cancel_left, List.getD_eq_getElem?_getD, hb]
    rfl
  · rw [hkey] at hk
    rw [h.mem, hlen, if_neg fun hin => hk.elim (Nat.not_lt.mpr hin.1) (Nat.not_le.mpr hin.2)]
  · unfold State.ctxD State.ctx?
    rw [h.ctxs]
  · unfold reg?
    rw [h.calm]
/-- The end of a cut: the snapshot at the cut goes back to the shared area (R372). -/
def snapBack (v : View) (l a : Nat) (c : SCtx) (cut : Nat) : Act Unit :=
  if c.cksz != 0 then do
    let (bs, ps) ← heldRead v fcDuplex l (c.ckr + c.cksz * (cut % c.ckn)) c.cksz allTiers
    modA fun t => (cutLines (bs.length / 128 + 1) ⟨a, bs, ps⟩).foldl (fun t f => t.landFrags v.u.blk (f.ofs / 128) [f]) t
  else pure ()
/-- The lines of R372 down to PMIN. -/
theorem truncAt_cut (a : Nat) {pend : List Nat} {s t1 t2 t3 t4 u : State} {low : Nat} {two ws : List Byte × List Bool} (h1 : Writes s v c.at_ (leBytes 4 cut) t1)
    (htwo : Reads t1 v (c.clt + 4 * c.seq) 8 anyTier two) (hws : Reads t1 v (c.clt + 4 * (c.seq + 1)) (4 * (c.nseq - c.seq)) anyTier ws)
    (h2 : Writes t1 v (c.clt + 4 * (c.seq + 1)) ((List.range (c.nseq - c.seq)).flatMap fun i =>
      leBytes 4 (((fieldAt ws.1 (4 * i) 4 : Int) + (cut - (fieldAt two.1 4 4 - fieldAt two.1 0 4 : Nat))) % 2 ^ 32).toNat) t2)
    (h3 : along (CutBlock v l c cut) ((List.range (c.maxb - cut / 64)).map (cut / 64 + ·)) t2 t3)
    (h4 : along (CutFrame v c cut) pend (t3, 2 ^ 32 - 1) (t4, low)) (h5 : Writes t4 v (c.at_ + 0x10) (leBytes 4 low) u) :
    truncAt v l a c cut pend s = snapBack v l a c cut u := by
  unfold truncAt
  refine (act_bind_ok (sWrite_ok h1)).trans ?_
  refine (act_bind_ok (sRead_ok htwo)).trans ?_
  refine (act_bind_ok (cltAdd_ok hws h2)).trans ?_
  have hblocks := forIn_along (R := CutBlock v l c cut) (f := cutBlock v l c cut) (fun _ _ _ => cutBlock_ok) h3
  refine (act_bind_ok hblocks).trans ?_
  have hframes := forIn_frames (l := l) (t := (t4, low)) h4
  refine (act_bind_ok hframes).trans ?_
  exact act_bind_ok (sWrite_ok h5)
/-- The whole cut: its lines are made, and with a snapshot the shared area takes it (R372). -/
theorem truncAt_ok {a : Nat} {pend : List Nat} {s u : State} (h : CutMade v l c cut pend s u) (hw : memWf s.mem = true) (hal : c.cksz ≠ 0 → a % 128 = 0)
    (hq : c.cksz ≠ 0 → ∃ q, Reads u v (c.ckr + c.cksz * (cut % c.ckn)) c.cksz anyTier q) :
    ∃ t, truncAt v l a c cut pend s = .ok ((), t) ∧ Restored v c cut a u t := by
  obtain ⟨t1, t2, t3, t4, low, two, ws, h1, htwo, hws, h2, h3, h4, h5⟩ := h
  have hw2 : memWf t2.mem = true := writes_wf h2 (writes_wf h1 hw)
  have hw3 : memWf t3.mem = true := along_keeps (P := fun s : State => memWf s.mem = true) (fun _ _ _ => cutBlock_wf) h3 hw2
  have hw4 : memWf t4.mem = true := along_keeps (P := fun s : State × Nat => memWf s.1.mem = true) (fun _ _ _ => cutFrame_wf) h4 hw3
  have hu : memWf u.mem = true := writes_wf h5 hw4
  have hcut := truncAt_cut a h1 htwo hws h2 h3 h4 h5
  by_cases hk : c.cksz = 0
  · refine ⟨u, hcut.trans ?_, fun _ => rfl, fun h => absurd hk h⟩
    unfold snapBack
    rw [hk]
    rfl
  · obtain ⟨q, hq⟩ := hq hk
    have hl := landed_cutLines v.u.blk (q.1.length / 128 + 1) ⟨a, q.1, q.2⟩ u (hal hk) (by simp only; omega) hu
    refine ⟨_, hcut.trans ?_, restored_of_landed hk hq hl⟩
    unfold snapBack
    rw [if_pos (bne_iff_ne.mpr hk)]
    exact act_bind_ok (heldRead_ok hq)

end Sys2Proof.Machine
end

section
/-! SUPPORT. The check of the shared area, and one write over a single run. -/

namespace Sys2Proof.Machine

open Sys2Proof.Spec

theorem snapArea_ok {v : View} {l a n : Nat} {s : State} (h : n ≠ 0 → a % 128 = 0 ∧ v.b.inDecl a n = true) : snapArea v l a n s = .ok ((), s) := by
  unfold snapArea
  by_cases hn : n = 0
  · subst hn
    rfl
  · obtain ⟨ha, hd⟩ := h hn
    simp only [bne_iff_ne.mpr hn, if_true, act_bind, act_needA, ha, beq_self_eq_true, hd]
/-- A write whose range is one run, of a package that is there, leaves its bytes and no others. -/
theorem writes_oneRun {s t : State} {v : View} {a : Nat} {bs : List Byte} {r : Run} (hw : memWf s.mem = true)
    (hr : s.engRange v.b.core v.b.ctx a bs.length true = .ok [r]) (hg : s.pkgGone (s.leafPkg r.leaf) = false) (h : Writes s v a bs t) :
    (∀ i b, bs[i]? = some b → memGet t.mem (r.key + i) = b) ∧ ∀ k, k < r.key ∨ r.key + bs.length ≤ k → memGet t.mem k = memGet s.mem k := by
  obtain ⟨rs, hrs, -, rfl⟩ := h
  cases hr.symm.trans hrs
  have hlen : r.len = bs.length := by simpa using engRange_length hr
  have hmem : (s.engWrite [r] bs (bs.map fun _ => false)).mem = memWrite s.mem r.key bs := by
    simp only [State.engWrite, List.foldl_cons, List.foldl_nil, hg, Bool.false_eq_true, if_false, wrPsn_mem, hlen, List.take_length]
  rw [hmem]
  refine ⟨fun i b hb => ?_, fun k hk => ?_⟩
  · have hi : i < bs.length := (List.getElem?_eq_some_iff.mp hb).1
    rw [memGet_memWrite _ _ _ _ hw, if_pos ⟨Nat.le_add_right _ _, Nat.add_lt_add_left hi _⟩, Nat.add_sub_cancel_left, List.getD_eq_getElem?_getD, hb]
    rfl
  · rw [memGet_memWrite _ _ _ _ hw, if_neg fun hin => hk.elim (Nat.not_lt.mpr hin.1) (Nat.not_le.mpr hin.2)]

end Sys2Proof.Machine
end

section
open Sys2Proof Sys2Proof.Machine Sys2Proof.Spec

/-- Settles O23: both cuts, what they leave line by line, a write over one run, and a snapshot. -/
theorem streamTruncateAndCheckpointComplete : Obligations.StreamTruncateAndCheckpointComplete := by
  unfold Obligations.StreamTruncateAndCheckpointComplete
  intro s s1 v w x c ps hc harea
  have hal : c.cksz ≠ 0 → (x.w 0).v.toNat % 128 = 0 := fun h => (harea h).1
  refine ⟨fun h => ?_, fun h => ⟨fun h0 => ?_, fun rs h0 hpres hrs hh => ?_⟩⟩
  · have hframe : ∀ r t1 t2 t, c.npend ≠ 0 → (x.w 2).v.toNat = c.ftail % c.frn → Reads s1 v (c.ringAt c.ftail) 4 anyTier r →
        Writes s1 v (c.at_ + 0x1C) (leBytes 4 (c.ftail + 1)) t1 → Writes t1 v (c.at_ + 0x14) (leBytes 2 (c.npend - 1)) t2 →
        truncAt v x.lane (x.w 0).v.toNat c (leNat r.1) c.pending.tail t2 = .ok ((), t) → exec (.dstruncFrame w) s = .next (engOver v t) := by
      intro r t1 t2 t hp hx hr h1 h2 ht
      refine runUnit_ok (engReady_view h) (stream_issues h hc ?_ rfl)
      refine (act_bind_ok (badStream_ok (decide_eq_false (not_or.mpr ⟨hp, not_not.mpr hx⟩)))).trans ?_
      refine (act_bind_ok (snapArea_ok harea)).trans ?_
      refine (act_bind_ok (sRead_ok hr)).trans ?_
      refine (act_bind_ok (sWrite_ok h1)).trans ((act_bind_ok (sWrite_ok h2)).trans ?_)
      exact act_bind_ok ht
    have hpos : ∀ t, c.f ≤ (x.w 2).v.toNat → (x.w 2).v.toNat ≤ c.g → truncAt v x.lane (x.w 0).v.toNat c (x.w 2).v.toNat c.pending s1 = .ok ((), t) →
        exec (.dstruncPos w) s = .next (engOver v t) := by
      intro t hf hg ht
      refine runUnit_ok (engReady_view h) (stream_issues h hc ?_ rfl)
      refine (act_bind_ok (badStream_ok (decide_eq_false (not_or.mpr ⟨Nat.not_lt.mpr hf, Nat.not_lt.mpr hg⟩)))).trans ?_
      refine (act_bind_ok (snapArea_ok harea)).trans ?_
      exact act_bind_ok ht
    refine ⟨hframe, hpos, fun u hw => ⟨fun r t1 t2 hp hx hr h1 h2 hcut hq => ?_, fun hf hg hcut hq => ?_⟩, fun a bs r t hw hr hg ht => writes_oneRun hw hr hg ht⟩
    · obtain ⟨t, ht, hrest⟩ := truncAt_ok hcut (writes_wf h2 (writes_wf h1 hw)) hal hq
      exact ⟨t, hframe r t1 t2 t hp hx hr h1 h2 ht, hrest⟩
    · obtain ⟨t, ht, hrest⟩ := truncAt_ok hcut hw hal hq
      exact ⟨t, hpos t hf hg ht, hrest⟩
  · refine runUnit_ok (engReady_view h) (stream_issues h hc ?_ rfl)
    refine (act_bind_ok (snapArea_ok harea)).trans ?_
    simp only [h0, bne_self_eq_false, Bool.false_eq_true, if_false]
    rfl
  · refine runUnit_ok (engReady_view h) (stream_issues h hc ?_ rfl)
    refine (act_bind_ok (snapArea_ok harea)).trans ?_
    simp only [bne_iff_ne.mpr h0, if_true]
    refine (act_bind_ok ((act_needA _ _ s1).trans (if_pos hpres))).trans ?_
    simp only [act_bind, act_get, hrs, act_needA, hh, Bool.not_false, if_true, act_set]
    rfl

end

section
/-! SUPPORT. The fields of a handle with another exponent, numbers of the handle context, and binds on their way. -/

namespace Sys2Proof.Machine

open Sys2Proof.Spec

theorem testBit_field (h : Handle) (lo n i : Nat) : (h.field lo n).testBit i = (decide (i < n) && h.w0.getLsbD (lo + i)) := by
  unfold Handle.field
  rw [Nat.testBit_mod_two_pow, Nat.testBit_div_two_pow, Nat.add_comm i lo]
  rfl
/-- A bit of a handle with another exponent: the exponent's within its field, the handle's own outside. -/
theorem getLsbD_withE (h : Handle) {e : Nat} (he : e < 32) (j : Nat) (hj : j < 64) :
    (h.withE e).w0.getLsbD j = if 11 ≤ j ∧ j < 16 then e.testBit (j - 11) else h.w0.getLsbD j := by
  have hmask : ∀ k, (0x1F#64).getLsbD k = decide (k < 5) := fun k => by
    show (BitVec.ofNat 64 (2 ^ 5 - 1)).getLsbD k = _
    rw [BitVec.getLsbD_ofNat, Nat.testBit_two_pow_sub_one]
    by_cases hk : k < 5
    · simp [hk, show k < 64 by omega]
    · simp [hk]
  simp only [Handle.withE, BitVec.getLsbD_or, BitVec.getLsbD_and, BitVec.getLsbD_not, BitVec.getLsbD_shiftLeft, hmask, BitVec.getLsbD_ofNat, hj, decide_true, Bool.true_and]
  by_cases h1 : j < 11
  · rw [if_neg (by omega)]
    simp [h1]
  · by_cases h2 : j < 16
    · rw [if_pos (by omega)]
      simp [h1, show j - 11 < 5 by omega, show j - 11 < 64 by omega]
    · have hlow : e.testBit (j - 11) = false := Nat.testBit_lt_two_pow (Nat.lt_of_lt_of_le he (Nat.pow_le_pow_right (n := 2) (i := 5) (by decide) (by omega)))
      rw [if_neg (by omega), hlow]
      simp [h1, show ¬ j - 11 < 5 by omega]
/-- A field beside the exponent is as it was. -/
theorem field_withE (h : Handle) {e lo n : Nat} (he : e < 32) (hn : lo + n ≤ 64) (ho : lo + n ≤ 11 ∨ 16 ≤ lo) : (h.withE e).field lo n = h.field lo n := by
  refine Nat.eq_of_testBit_eq fun i => ?_
  rw [testBit_field, testBit_field]
  by_cases hi : i < n
  · rw [getLsbD_withE h he _ (by omega), if_neg (by omega)]
  · simp [hi]
theorem withE_e (h : Handle) {e : Nat} (he : e < 32) : (h.withE e).e = e := by
  refine Nat.eq_of_testBit_eq fun i => ?_
  rw [Handle.e, testBit_field]
  by_cases hi : i < 5
  · rw [getLsbD_withE h he _ (by omega), if_pos (by omega), Nat.add_sub_cancel_left]
    simp [hi]
  · have hlow : e.testBit i = false := Nat.testBit_lt_two_pow (Nat.lt_of_lt_of_le he (Nat.pow_le_pow_right (n := 2) (i := 5) (by decide) (by omega)))
    simp [hi, hlow]
theorem handle_e_lt (h : Handle) : h.e < 32 := Nat.mod_lt _ (by decide)
/-- Half the weight of a handle with an exponent is the handle with the exponent less one (R472). -/
theorem splitHandle_exp {s : State} {ctx die lane : Nat} {h : Handle} (hn : h.null = false) (he : 1 ≤ h.e) :
    s.splitHandle ctx die lane h = .ok (h.withE (h.e - 1)) s := by
  unfold State.splitHandle
  rw [hn, if_neg Bool.false_ne_true, if_pos he]
/-- A handle whose exponent is 0 goes behind a new indirection (R472). -/
theorem splitHandle_indirection {s : State} {ctx die lane n : Nat} {k : HomeAt} {h : Handle} (hn : h.null = false) (he : h.e = 0) (hi : h.ind = false)
    (ht : (s.ctxD ctx).rcd.htab ≠ 0) (hf : s.freeEntry ctx die = some (n, k)) :
    s.splitHandle ctx die lane h = .ok (mkHandle s.pkg die (s.home k).gen n 29 true ((s.ctxD ctx).rcd.htab.toNat % 2 ^ 56 + 32 * ((s.ctxD ctx).rcd.nobj.toNat * die + n)))
      (s.setHome k ⟨0, 30, (s.home k).gen, true, true, false, 1, h.w0, h.w1⟩) := by
  unfold State.splitHandle
  simp only [hn, he, hi, ht, hf, Bool.false_eq_true, if_false, Bool.false_and, Bool.not_false, if_true, Nat.not_lt.mpr (show 1 ≤ 15 by decide), show ¬ 1 ≤ 0 by decide]
theorem handleFault_ok {b : Bool} {l : Nat} {s : State} (h : b = false) : handleFault b l s = .ok ((), s) := by
  subst h
  rfl
/-- The next number of the block's handle context, given to an operation. -/
def givenHandle (v : View) (now : Bool) (s : State) : State := s.modBlk v.u.blk fun b =>
  let ops := if now then b.handle.ops else b.handle.ops ++ [(v.b.handle.tl.given + 1, false)]
  { b with handle := { tl := tlRaise ⟨v.b.handle.tl.ctr, v.b.handle.tl.given + 1⟩ (ops.map (·.1)), ops := ops } }
theorem giveHandle_ok {v : View} {now : Bool} {s : State} (h : v.b.handle.ops.length < 64) :
    giveHandle v now s = .ok (v.b.handle.tl.given + 1, givenHandle v now s) := by
  unfold giveHandle
  simp only [act_bind, act_needA, h, decide_true, if_true, act_modA, act_pure]
  rfl
theorem preDone_givenHandle (v : View) (now : Bool) (s : State) (ps : List CmdPre) : (givenHandle v now s).preDone ps = s.preDone ps := by
  have hk : KeepsPorts fun b : Block =>
      let ops := if now then b.handle.ops else b.handle.ops ++ [(v.b.handle.tl.given + 1, false)]
      { b with handle := { tl := tlRaise ⟨v.b.handle.tl.ctr, v.b.handle.tl.given + 1⟩ (ops.map (·.1)), ops := ops } } :=
    ⟨fun _ => rfl, fun _ => rfl, fun _ => rfl, fun _ u => by cases u <;> rfl⟩
  unfold State.preDone givenHandle
  simp only [grp?_modBlk_of_units hk]
/-- A bind that awaits nothing leaves its threads at once (R278, R474). -/
theorem sendBind_leaves {v : View} {ls : List Nat} {m : HMsg} {s : State} (hp : s.hpath = []) (hf : v.cmdPre ls = []) :
    s.sendBind v ls m = { s with nextId := s.nextId + 1, hc := s.hc ++ [m] } := by
  have hself : ∀ q : PathMsg, pathHolds [q] q.u q.lanes q.m.home q.id = false := fun q => by simp [pathHolds]
  simp only [State.sendBind, State.fresh, hp, hf, List.nil_append, State.bindsLeave, List.foldl_cons, List.foldl_nil, hself, State.preDone, List.all_nil, Bool.not_false, Bool.and_self, if_true,
    List.filter_cons, List.filter_nil, bne_self_eq_false, Bool.false_eq_true, if_false]
/-- A bind that awaits accesses stays with its threads. -/
theorem sendBind_stays {v : View} {ls : List Nat} {m : HMsg} {s : State} (hp : s.hpath = []) (hf : s.preDone (v.cmdPre ls) = false) :
    s.sendBind v ls m = { s with nextId := s.nextId + 1, hpath := [⟨s.nextId, v.u, ls, v.cmdPre ls, m⟩] } := by
  have hf' : ({ s with nextId := s.nextId + 1, hpath := [⟨s.nextId, v.u, ls, v.cmdPre ls, m⟩] } : State).preDone (v.cmdPre ls) = false := hf
  simp only [State.sendBind, State.fresh, hp, List.nil_append, State.bindsLeave, List.foldl_cons, List.foldl_nil, hf', Bool.false_and, Bool.false_eq_true, if_false]

end Sys2Proof.Machine
end

section
open Sys2Proof Sys2Proof.Machine Sys2Proof.Spec

/-- Settles O24: the split of a handle's weight, then each of the six instructions. -/
theorem handleInstructionsComplete : Obligations.HandleInstructionsComplete := by
  unfold Obligations.HandleInstructionsComplete
  refine ⟨fun s ctx die lane h hn => ⟨fun he => ?_, fun n k he hi ht hf => splitHandle_indirection hn he hi ht hf⟩, ?_⟩
  · have hlt : h.e - 1 < 32 := Nat.lt_of_le_of_lt (Nat.sub_le _ _) (handle_e_lt h)
    refine ⟨_, splitHandle_exp hn he, ?_, ?_⟩
    · rw [withE_e h hlt]
      omega
    · have hind : (h.withE (h.e - 1)).ind = h.ind := getLsbD_withE h hlt 10 (by decide)
      rw [hind]
      unfold Handle.dev Handle.die Handle.gen Handle.idx
      rw [field_withE h hlt (by decide) (by decide), field_withE h hlt (by decide) (by decide), field_withE h hlt (by decide) (by decide), field_withE h hlt (by decide) (by decide)]
      rfl
  · intro s s1 v w l i
    refine ⟨fun n k hok h ht h1 h30 hf => ?_, fun g t hok h hbad hg => ?_, fun a h hres hroom => ?_, fun h hroom => ?_, fun hlen hbad => ⟨fun hok h => ?_, fun h hnull hind hal => ⟨fun hpre hp => ?_, fun hpre hp => ?_⟩⟩⟩
    · refine runUnit_ok h.1 ((perSplit_ready h hok).trans ?_)
      refine (act_bind_ok (act_get s1)).trans ?_
      refine (act_bind_ok (handleFault_ok (by simp [show ¬ (s1.ctxD v.b.ctx).rcd.htab = 0#64 from ht, show ¬ 30 < (i.w 1).v.toNat by omega, show ¬ (i.w 1).v.toNat = 0 by omega]))).trans ?_
      refine (act_bind_ok (a := (n, k)) (t := s1) (by rw [act_someA, hf])).trans ?_
      rfl
    · refine runUnit_ok h.1 ((perSplit_ready h hok).trans ?_)
      refine (act_bind_ok (act_get s1)).trans ?_
      refine (act_bind_ok (handleFault_ok hbad)).trans ?_
      simp only [hg]
      rfl
    · refine runUnit_ok h.1 ((perSplit_ready h rfl).trans ?_)
      refine (act_bind_ok (act_get s1)).trans ?_
      simp only [hres]
      exact act_bind_ok (writeAll_toAll (d := ⟨w.a, 2⟩) (ws := numWords a) rfl hroom)
    · refine runUnit_ok h.1 ((perSplit_ready h rfl).trans ?_)
      exact act_bind_ok (writeAll_toAll (d := ⟨w.a, 1⟩) rfl hroom)
    · refine runUnit_ok h.1 ((perSplit_ready h hok).trans ?_)
      refine (act_bind_ok (act_get s1)).trans ?_
      refine (act_bind_ok (handleFault_ok hbad)).trans ?_
      refine (act_bind_ok (giveHandle_ok hlen)).trans ?_
      cases hnull : (i.handle 0).null <;> rfl
    · refine runUnit_ok h.1 ((perSplit_ready h rfl).trans ?_)
      refine (act_bind_ok (act_get s1)).trans ?_
      refine (act_bind_ok (handleFault_ok (by simp [hnull, hbad, hind]))).trans ?_
      refine (act_bind_ok ((act_needA _ _ s1).trans (if_pos (beq_iff_eq.mpr hal)))).trans ?_
      refine (act_bind_ok (giveHandle_ok hlen)).trans ?_
      refine (act_bind_ok (act_modA _ _)).trans ?_
      rw [sendBind_leaves (s := givenHandle v false s1) hp hpre]
      rfl
    · refine runUnit_ok h.1 ((perSplit_ready h rfl).trans ?_)
      refine (act_bind_ok (act_get s1)).trans ?_
      refine (act_bind_ok (handleFault_ok (by simp [hnull, hbad, hind]))).trans ?_
      refine (act_bind_ok ((act_needA _ _ s1).trans (if_pos (beq_iff_eq.mpr hal)))).trans ?_
      refine (act_bind_ok (giveHandle_ok hlen)).trans ?_
      refine (act_bind_ok (act_modA _ _)).trans ?_
      rw [sendBind_stays (s := givenHandle v false s1) hp ((preDone_givenHandle v false s1 _).trans hpre)]
      rfl

end

section
/-! SUPPORT. The issue of a collective and of a signal. -/

namespace Sys2Proof.Machine

open Sys2Proof.Spec

/-- The instruction of a collective's form. -/
def collInstr (kind : Nat) (w : WC) : Instr := match kind with | 0 => .collAr w | 1 => .collAg w | _ => .collRs w
theorem exec_collInstr {kind : Nat} (h : kind < 3) (w : WC) (s : State) : exec (collInstr kind w) s = runUnit (collIssue kind w) s := by
  match kind, h with
  | 0, _ => rfl
  | 1, _ => rfl
  | 2, _ => rfl
/-- The fields of a descriptor that R477 checks. -/
theorem collFields_ok {count n rank fmt op src dst e kind : Nat} (h1 : 1 ≤ count) (h2 : count ≤ 2 ^ 28) (h3 : 2 ≤ n) (h4 : n ≤ 128) (h5 : rank < n) (h6 : fmt ≤ 3)
    (h7 : kind = 1 ∨ op ≤ 2) (hs : src % e = 0) (hd : dst % e = 0) :
    (!(decide (count < 1 ∨ 2 ^ 28 < count ∨ n < 2 ∨ 128 < n ∨ n ≤ rank ∨ 3 < fmt ∨ (kind ≠ 1 ∧ 2 < op)) || src % e != 0 || dst % e != 0)) = true := by
  rw [hs, hd, decide_eq_false (by omega)]
  rfl
/-- The ranks lie in the domain, without repeats, and the executing die stands at its own. -/
theorem collRanks_ok {inDom rep : Bool} {x die : Nat} (hd : inDom = true) (hr : rep = true) (hx : x = die) : (!(!inDom || !rep || x != die)) = true := by
  rw [hd, hr, hx, bne_self_eq_false]
  rfl
/-- A page that is not strongly ordered, or a lane with nothing outstanding. -/
theorem unordered_or_alone {o : Bool} {l : List Nat} (h : o = true → l = []) : (!o || l == []) = true := by
  cases o with
  | false => rfl
  | true => rw [h rfl]; rfl
/-- The collective context gives the operation its number, which every lane receives. -/
theorem acceptColl_ok {v : View} {f : Opnd} {ls : List Nat} {op : Nat → CollOp} {s t : State}
    (ht : t = s.modBlk v.u.blk fun b => { b with coll := ⟨⟨v.b.coll.tl.ctr, v.b.coll.tl.given + 1⟩, b.coll.ops ++ [op (v.b.coll.tl.given + 1)]⟩ })
    (h : RoomFor t v ⟨f, 2⟩ ls) : acceptColl v f ls op s = .ok ((), (toAll v ⟨f, 2⟩ ls (numWords (v.b.coll.tl.given + 1)) t).advance v) := by
  subst ht
  unfold acceptColl
  refine (act_bind_ok (act_modA _ s)).trans ?_
  exact act_bind_ok (writeAll_toAll (d := ⟨f, 2⟩) (ws := numWords (v.b.coll.tl.given + 1)) rfl h)

end Sys2Proof.Machine
end

section
open Sys2Proof Sys2Proof.Machine Sys2Proof.Spec

/-- Settles O25: a collective with a clean or a poisoned descriptor, and a signal with a clean or a poisoned value. -/
theorem collectivesAndSignalsComplete : Obligations.CollectivesAndSignalsComplete := by
  unfold Obligations.CollectivesAndSignalsComplete
  refine ⟨?_, ?_⟩
  · intro s s1 v w l i kind r q h hkind hf hal hr hlen instr no n die ranks base accept fin bad
    have hissue : ∀ t, collIssue kind w v s = .ok ((), t) → exec instr s = .next t := fun t ht => (exec_collInstr hkind w s).trans (runUnit_ok h.1 ht)
    have hlen' : decide (v.b.coll.ops.length < 64) = true := decide_eq_true hlen
    refine ⟨fun hp hroom => hissue _ ((perSplit_ready h rfl).trans ?_), fun hp h1 h2 h3 h4 h5 h6 h7 h8 h9 hq hqp hdom hrep hrank hroom => hissue _ ((perSplit_ready h rfl).trans ?_)⟩
    · refine (act_bind_ok (fenced_ok hf)).trans ?_
      refine (act_bind_ok ((act_needA _ _ s1).trans (if_pos (by rw [hal]; rfl)))).trans ?_
      refine (act_bind_ok (heldRead_ok hr)).trans ?_
      simp only [hp, if_true]
      refine (act_bind_ok ((act_needA _ _ s1).trans (if_pos hlen'))).trans ?_
      exact acceptColl_ok rfl hroom
    · refine (act_bind_ok (fenced_ok hf)).trans ?_
      refine (act_bind_ok ((act_needA _ _ s1).trans (if_pos (by rw [hal]; rfl)))).trans ?_
      refine (act_bind_ok (heldRead_ok hr)).trans ?_
      simp only [hp, Bool.false_eq_true, if_false]
      refine (act_bind_ok ((act_needA _ _ s1).trans (if_pos (collFields_ok h1 h2 h3 h4 h5 h6 h7 h8 h9)))).trans ?_
      refine (act_bind_ok (heldRead_ok hq)).trans ?_
      refine (act_bind_ok (act_get s1)).trans ?_
      simp only [hqp, Bool.false_eq_true, if_false]
      refine (act_bind_ok ((act_needA _ _ s1).trans (if_pos (collRanks_ok hdom hrep hrank)))).trans ?_
      refine (act_bind_ok ((act_needA _ _ s1).trans (if_pos hlen'))).trans ?_
      refine (act_bind_ok (act_modA _ s1)).trans ?_
      exact acceptColl_ok rfl hroom
  · intro s s1 v w l i add lf h hmem hal hx hleg hord
    have hexec : exec (if add then .xsigAdd w else .xsigSet w) s = runUnit (xsig add w) s := by cases add <;> rfl
    rw [hexec]
    refine runUnit_ok h.1 ((perSplit_ready h rfl).trans ?_)
    refine (act_bind_ok (act_get s1)).trans ?_
    refine (act_bind_ok ((act_needA _ _ s1).trans (if_pos hmem))).trans ?_
    refine (act_bind_ok ((act_needA _ _ s1).trans (if_pos (beq_iff_eq.mpr hal)))).trans ?_
    simp only [hx]
    refine (act_bind_ok ((act_needA _ _ s1).trans (if_pos hleg))).trans ?_
    refine (act_bind_ok ((act_needA _ _ s1).trans (if_pos (unordered_or_alone hord)))).trans ?_
    exact act_bind_ok (act_modA _ s1)

end

section
/-! SUPPORT. What taking a halting fault leaves in the unit, its scheduler and its partition. -/

namespace Sys2Proof.Machine

open Sys2Proof.Spec

theorem modGrp_uid (b : Block) (u : UnitRef) (f : Grp → Grp) : (b.modGrp u f).uid = b.uid := by cases u <;> rfl
theorem block_grp?_modGrp (b : Block) (u : UnitRef) (f : Grp → Grp) : (b.modGrp u f).grp? u = (b.grp? u).map f := by
  cases u with
  | front n => rfl
  | group n g =>
    unfold Block.modGrp Block.grp?
    simp only [List.getElem?_modify, if_true, Option.map_eq_map]
/-- A unit after an update of it. -/
theorem grp?_modGrp (s : State) (u : UnitRef) (f : Grp → Grp) : (s.modGrp u f).grp? u = (s.grp? u).map f := by
  unfold State.grp? State.modGrp
  rw [blk_modBlk s u.blk u.blk _ fun b => modGrp_uid b u f, if_pos rfl]
  cases s.blk? u.blk with
  | none => rfl
  | some b => exact block_grp?_modGrp b u f
/-- The state in which a unit's clause is over, written out. -/
theorem endRun_eq {s : State} {u : UnitRef} {b : Block} (hb : s.blk? u.blk = some b) :
    s.endRun u = ((if ((s.grp? u).elim 0 (·.runs)) = 0 then s else s.noteStop b.ctx u).modGrp u fun g =>
      { g with runs := 0, hold := 0, lastRole := (g.clauseNow.map (·.role)).getD g.lastRole }).modCore b.core fun c => { c with cur := c.cur.map fun o => if o = some u then none else o } := by
  unfold State.endRun
  rw [hb]
/-- Noting a stop changes nothing but its partition's halt line. -/
theorem noteStop_eq (s : State) (c : Nat) (u : UnitRef) : ∃ f : Part → Part, s.noteStop c u = s.modPart (s.ctxD c).part f := by
  unfold State.noteStop
  split
  · refine ⟨id, ?_⟩
    unfold State.modPart
    rw [List.modify_id]
  · exact ⟨_, rfl⟩
theorem endRun_parts_length {s : State} {u : UnitRef} {b : Block} (hb : s.blk? u.blk = some b) : (s.endRun u).parts.length = s.parts.length := by
  rw [endRun_eq hb]
  split
  · rfl
  · obtain ⟨f, hf⟩ := noteStop_eq s b.ctx u
    rw [hf]
    exact List.length_modify _ _ _
theorem endRun_ctxs {s : State} {u : UnitRef} {b : Block} (hb : s.blk? u.blk = some b) : (s.endRun u).ctxs = s.ctxs := by
  rw [endRun_eq hb]
  split
  · rfl
  · obtain ⟨f, hf⟩ := noteStop_eq s b.ctx u
    rw [hf]
    rfl
theorem endRun_grp? {s : State} {u : UnitRef} {b : Block} (hb : s.blk? u.blk = some b) : ((s.endRun u).grp? u).isSome = (s.grp? u).isSome := by
  have hmod : ∀ (t : State) (f : Grp → Grp) (h : Core → Core), (((t.modGrp u f).modCore b.core h).grp? u).isSome = (t.grp? u).isSome := fun t f h => by
    show ((t.modGrp u f).grp? u).isSome = _
    rw [grp?_modGrp, Option.isSome_map]
  rw [endRun_eq hb, hmod]
  split
  · rfl
  · obtain ⟨f, hf⟩ := noteStop_eq s b.ctx u
    rw [hf]
    rfl
/-- The unit's scheduler is free once its clause is over. -/
theorem endRun_cur {s : State} {u : UnitRef} {b : Block} (hb : s.blk? u.blk = some b) (k : Nat) : ((s.endRun u).coreD b.core).cur[k]? ≠ some (some u) := by
  rw [endRun_eq hb]
  generalize (if ((s.grp? u).elim 0 (·.runs)) = 0 then s else s.noteStop b.ctx u).modGrp u _ = t
  unfold State.coreD State.modCore
  rw [List.getElem?_modify]
  cases hc : t.cores[b.core]? with
  | none =>
    intro h
    rcases k with _ | _ | _ | _ | _ | k <;> simp [Core.init] at h
  | some c =>
    intro h
    simp only [if_true, Option.map_eq_map, Option.map_some, Option.getD_some, List.getElem?_map] at h
    obtain ⟨o, -, ho⟩ := Option.map_eq_some_iff.mp h
    split at ho
    · cases ho
    · exact absurd ho ‹_›
theorem partD_modPart {s : State} {p : Nat} (h : p < s.parts.length) (f : Part → Part) : (s.modPart p f).partD p = f (s.partD p) := by
  unfold State.partD State.modPart
  rw [List.getElem?_modify, List.getElem?_eq_getElem h]
  simp

/-- A halt line with one more fault and its record. -/
def addFault (ctx code : Nat) (who : Who) (r : FRec) (h : Option Halt) : Halt :=
  match h with
  | none => ⟨[(ctx, code)], [⟨ctx, 0, who, r⟩], [], false, [], false, false⟩
  | some h => { h with faults := h.faults ++ [(ctx, code)], recs := h.recs ++ [⟨ctx, h.late.length, who, r⟩], again := h.stopped }
theorem addFault_last (ctx code : Nat) (who : Who) (r : FRec) (h : Option Halt) :
    (addFault ctx code who r h).faults.getLast? = some (ctx, code) ∧ ((addFault ctx code who r h).recs.getLast?).map (fun r => (r.ctx, r.who, r.rcd)) = some (ctx, who, r) := by
  cases h <;> simp [addFault]
theorem takeFault_eq {s : State} {u : UnitRef} {b : Block} {g : Grp} (hb : s.blk? u.blk = some b) (hg : b.grp? u = some g) (code lane info : Nat) (fa : DWord) (pc : VAddr) (mask : Mask) :
    s.takeFault u code fa lane info pc mask = ((s.endRun u).modGrp u fun g => { g with stat := .stopped }).modPart (s.ctxD b.ctx).part fun x =>
      { x with halt := some (addFault b.ctx code (.unit u) (faultRec b u g code lane info fa pc mask) x.halt) } := by
  unfold State.takeFault
  simp only [hb, hg]
  rfl

end Sys2Proof.Machine
end

section
/-! SUPPORT. Which lanes a trap finds poisoned, and what it does with the lane it takes; the bench of a service call. -/

namespace Sys2Proof.Machine

open Sys2Proof.Spec

theorem takeWhile_append_all {α : Type} {p : α → Bool} {xs ys : List α} (hx : ∀ x ∈ xs, p x = true) (hy : ∀ y, ys.head? = some y → p y = false) : (xs ++ ys).takeWhile p = xs := by
  rw [List.takeWhile_append_of_pos hx]
  cases ys with
  | nil => simp
  | cons y ys => rw [List.takeWhile_cons_of_neg (by rw [hy y rfl]; exact Bool.false_ne_true), List.append_nil]

/-- A group whose service call is written is benched, or stands where the bench area has no place (R432). -/
theorem benched_ok {v : View} {s t : State} (h : (t.grp? v.u).elim true (·.stat == .stopped) = false) :
    (if (t.grp? v.u).elim true (·.stat == .stopped) then set t else
      match t.benchGrp v.u 2 with
      | some (_, t') => set t'
      | none => set (t.stand v.u 2) : Act Unit) s = .ok ((), (t.benchGrp v.u 2).elim (t.stand v.u 2) Prod.snd) := by
  rw [h, if_neg Bool.false_ne_true]
  cases t.benchGrp v.u 2 <;> rfl
/-- A status item cleared: the lanes' own bits, or the context's counter (R440). -/
def clearedItem (v : View) (ls : List Nat) (k : Nat) (s : State) : State :=
  match k with
  | 0x05 => ls.foldl (fun (s : State) l => s.modThread v.u l fun t => { t with pend := 0 }) s
  | 0x0D => ls.foldl (fun (s : State) l => s.modThread v.u l fun t => { t with sticky := 0 }) s
  | k => if ls = [] then s else s.modCtx v.b.ctx fun c => { c with ctrs := assocSet c.ctrs k 0 }
theorem clearedItem_ctr {v : View} {ls : List Nat} {k : Nat} {s : State} (h5 : k ≠ 5) (h13 : k ≠ 13) (hne : ls ≠ []) :
    clearedItem v ls k s = s.modCtx v.b.ctx fun c => { c with ctrs := assocSet c.ctrs k 0 } := by
  unfold clearedItem
  split
  · exact absurd rfl h5
  · exact absurd rfl h13
  · rw [if_neg hne]
theorem exec_statclr {v : View} {w : WA} {ix : BitVec 8} {s : State} (hv : s.view? = some v) :
    exec (.statclr w ix) s = .next ((clearedItem v (v.active w.g) ix.toNat s).advance v) := by
  refine runUnit_ok (a := fun v => modA fun s => (clearedItem v (v.active w.g) ix.toNat s).advance v) hv ?_
  rfl
/-- What a TRAP does with the lane whose value it takes, once the poisoned lanes below it are retired (R20, R40, R439). -/
def trapTaken (v : View) (c : ClauseCtx) (w : WI) (stay : List Nat) (i : LaneIn) (s : State) : State :=
  let next := v.pc + 8#56
  let atEnd := next.toNat == (c.hdr.toNat + 8 * (c.count + 1)) % 2 ^ 56
  let off := atEnd && !s.clauseOk v.b next
  let t := if off then s else stay.foldl (fun s l => s.modThread v.u l fun t => if atEnd then t.goTo next else { t with pc := next }) s
  let t := t.takeFault v.u fcTrap ((i.w 0).v.setWidth 64) i.lane (w.imm.toNat % 2 ^ 24) next (maskOf ((v.active w.g).filter stay.contains))
  if off then t.takeFault v.u fcTarget (next.setWidth 64) (stay.headD 0) 0 v.pc (maskOf stay) else t
theorem trapTaken_goesOn {v : View} {c : ClauseCtx} {w : WI} {stay : List Nat} {i : LaneIn} {s : State}
    (h : ¬ ((v.pc + 8#56).toNat = (c.hdr.toNat + 8 * (c.count + 1)) % 2 ^ 56 ∧ s.clauseOk v.b (v.pc + 8#56) = false)) :
    trapTaken v c w stay i s = (pastTrap v c stay s).takeFault v.u 0x1F ((i.w 0).v.setWidth 64) i.lane (w.imm.toNat % 2 ^ 24) (v.pc + 8#56) (maskOf ((v.active w.g).filter stay.contains)) := by
  have hoff : ((v.pc + 8#56).toNat == (c.hdr.toNat + 8 * (c.count + 1)) % 2 ^ 56 && !s.clauseOk v.b (v.pc + 8#56)) = false := by
    rw [Bool.and_eq_false_iff, beq_eq_false_iff_ne, Bool.not_eq_false']
    by_cases he : (v.pc + 8#56).toNat = (c.hdr.toNat + 8 * (c.count + 1)) % 2 ^ 56
    · exact .inr (Bool.not_eq_false _ ▸ fun hn => h ⟨he, hn⟩)
    · exact .inl he
  unfold trapTaken pastTrap
  simp only [hoff, Bool.false_eq_true, if_false, beq_iff_eq]
  rfl
theorem trapTaken_off {v : View} {c : ClauseCtx} {w : WI} {stay : List Nat} {i : LaneIn} {s : State} (h1 : (v.pc + 8#56).toNat = (c.hdr.toNat + 8 * (c.count + 1)) % 2 ^ 56)
    (h2 : s.clauseOk v.b (v.pc + 8#56) = false) :
    trapTaken v c w stay i s = (s.takeFault v.u 0x1F ((i.w 0).v.setWidth 64) i.lane (w.imm.toNat % 2 ^ 24) (v.pc + 8#56) (maskOf ((v.active w.g).filter stay.contains))).takeFault
      v.u 0x04 ((v.pc + 8#56).setWidth 64) (stay.headD 0) 0 v.pc (maskOf stay) := by
  unfold trapTaken
  simp only [h1, beq_self_eq_true, h2, Bool.not_false, Bool.and_self, if_true]
  rfl

end Sys2Proof.Machine
end

section
open Sys2Proof Sys2Proof.Machine Sys2Proof.Spec

/-- Settles O28: the unit, its scheduler, its partition's halt line, and that nothing else changes. -/
theorem haltingFaultIsTaken : Obligations.HaltingFaultIsTaken := by
  unfold Obligations.HaltingFaultIsTaken
  intro s u b g code lane info fa pc mask hb hg hp t
  have ht := takeFault_eq hb hg code lane info fa pc mask
  have hlen : (s.ctxD b.ctx).part < ((s.endRun u).modGrp u fun g => { g with stat := .stopped }).parts.length := by
    show _ < (s.endRun u).parts.length
    rwa [endRun_parts_length hb]
  have hpart : t.partD (s.ctxD b.ctx).part = _ := (congrArg (·.partD (s.ctxD b.ctx).part) ht).trans (partD_modPart hlen _)
  have hctx : t.ctxD b.ctx = s.ctxD b.ctx := by
    show (s.takeFault u code fa lane info pc mask).ctxD b.ctx = _
    rw [ht]
    unfold State.ctxD State.ctx?
    show (((s.endRun u).ctxs.find? _).getD _) = _
    rw [endRun_ctxs hb]
  obtain ⟨hlast, hrec⟩ := addFault_last b.ctx code (.unit u) (faultRec b u g code lane info fa pc mask)
    (((s.endRun u).modGrp u fun g => { g with stat := .stopped }).partD (s.ctxD b.ctx).part).halt
  refine ⟨?_, ?_, fun k => ?_, ⟨_, congrArg Part.halt hpart, hlast, hrec⟩, sameData_of_quiet (quiet_takeFault s u code fa lane info pc mask)⟩
  · show ((s.takeFault u code fa lane info pc mask).grp? u).map _ = _
    rw [ht]
    show (((s.endRun u).modGrp u _).grp? u).map _ = _
    rw [grp?_modGrp]
    have hsome := (endRun_grp? hb).trans (congrArg Option.isSome (grp_of_blk hb hg))
    obtain ⟨x, hx⟩ := Option.isSome_iff_exists.mp hsome
    rw [hx]
    rfl
  · unfold State.halting
    rw [hctx, hpart]
    rfl
  · show ((s.takeFault u code fa lane info pc mask).coreD b.core).cur[k]? ≠ _
    rw [ht]
    exact endRun_cur hb k

/-- Settles O26: every value poisoned, or a trap with its value, whose lanes go on or stand at the end of their clause. -/
theorem trapTakesItsFault : Obligations.TrapTakesItsFault := by
  unfold Obligations.TrapTakesItsFault
  intro s s1 v c w bad ins hcl hlegal hne hbad hread stay
  have hsplit : (∀ y, ins.head? = some y → y.psn = false) → (bad ++ ins).takeWhile (·.psn) = bad := fun h => takeWhile_append_all hbad h
  have hstart : ∀ u, (match ins with
      | [] => (retired v bad s1).advance v
      | i :: _ => trapTaken v c w stay i (retired v bad s1)) = u → (∀ y, ins.head? = some y → y.psn = false) → exec (.trap w) s = .next u := by
    intro u hu hp
    refine runUnit_ok hcl.1 ?_
    refine (act_bind_ok ((act_needA _ _ s).trans (if_pos hlegal))).trans ?_
    simp only [if_neg hne]
    refine (act_bind_ok (act_get s)).trans ?_
    simp only [hread, hsplit hp, List.drop_left, hcl.2, Option.elim_some]
    subst hu
    cases ins <;> rfl
  refine ⟨fun h0 => hstart _ (by rw [h0]) (by rw [h0]; intro y hy; cases hy), fun i r hi hp => ?_⟩
  have hfirst : ∀ y, ins.head? = some y → y.psn = false := by
    rw [hi]
    intro y hy
    cases hy
    exact hp
  refine ⟨fun hon => hstart _ ?_ hfirst, fun hoff => hstart _ ?_ hfirst⟩
  · rw [hi]
    exact trapTaken_goesOn hon
  · rw [hi]
    exact trapTaken_off hoff.1 hoff.2

/-- Settles O27: a service call benched or held, a breakpoint that counts or stops, and the three kinds of items. -/
theorem serviceBreakpointStatusClearComplete : Obligations.ServiceBreakpointStatusClearComplete := by
  unfold Obligations.ServiceBreakpointStatusClearComplete
  refine ⟨?_, fun s v w hv hne => ⟨fun hd => ?_, fun hd hst => ?_⟩, fun s v w ix hv hne hix => ⟨fun h => ?_, fun h => ?_, fun h5 h13 => ?_⟩⟩
  · intro s s1 v w ins hv hlegal hne c rn slot hrn hslot hunp hread hdr at_ t0 t1 t2 t hst
    have hfree : (!(c.svcs.any (·.slot == slot)) && (v.active w.g).all fun l => v.unpOf l == []) = true := by
      rw [hslot, Bool.not_false, Bool.true_and]
      exact List.all_eq_true.mpr fun l hl => beq_iff_eq.mpr (hunp l hl)
    have hgo : exec (.svc w) s = .next ((t.benchGrp v.u 2).elim (t.stand v.u 2) Prod.snd) := by
      refine runUnit_ok hv ?_
      refine (act_bind_ok ((act_needA _ _ s).trans (if_pos hlegal))).trans ?_
      simp only [if_neg hne]
      refine (act_bind_ok (act_get s)).trans ?_
      refine (act_bind_ok ((act_needA _ _ s).trans (if_pos (bne_iff_ne.mpr hrn)))).trans ?_
      refine (act_bind_ok ((act_needA _ _ s).trans (if_pos hfree))).trans ?_
      simp only [hread]
      refine (act_bind_ok ((act_needA _ _ s).trans (if_pos hdr))).trans ?_
      generalize hT : State.pastWord _ v = T
      have hTt : T = t := hT.symm
      clear hT
      clear_value t
      subst hTt
      exact benched_ok hst
    clear_value t
    exact ⟨fun va t' h => hgo.trans (by rw [h, Option.elim_some]), fun h => hgo.trans (by rw [h, Option.elim_none])⟩
  · refine runUnit_ok hv ?_
    simp only [if_neg hne, act_bind, act_get, hd, Bool.not_false, if_true, act_modA, act_done]
  · refine runUnit_ok hv ?_
    simp only [if_neg hne, act_bind, act_get, hd, Bool.not_true, Bool.false_eq_true, if_false, hst, act_set]
    rfl
  · rw [exec_statclr hv, h]
    rfl
  · rw [exec_statclr hv, h]
    rfl
  · rw [exec_statclr hv, clearedItem_ctr (fun h => h5 (BitVec.eq_of_toNat_eq h)) (fun h => h13 (BitVec.eq_of_toNat_eq h)) hne]

end

section
/-! # Illegal fields, false guards, and what holds or traps a register instruction (spec/01 R22 to R24, R30; spec/02 R62 steps 5 to 7) -/

namespace Sys2Proof.Machine
open Sys2Proof.Spec

/-! ## The two gates in front of an instruction's own work -/

/-- An action refuses fields that are not legal, and where its guard lets nothing run it ends in `fin`. -/
structure Gate (a : Act Unit) (s : State) (ok : Bool) (idle : Prop) (fin : State) : Prop where
  refuses : ok = false → a s = .error (.fault fcIllOpnd 0 0 0)
  idles : ok = true → idle → a s = .ok ((), fin)
/-- The same of an instruction. -/
def Gated (i : Instr) (v : View) (s : State) (ok : Bool) (idle : Prop) (fin : State) : Prop :=
  (ok = false → exec i s = .next (illegal v s)) ∧ (ok = true → idle → exec i s = .next fin)
/-- The lowest lane of the split does not pass the guard. -/
def HeadOut (v : View) (g : Guard) : Prop := ∃ l, v.lanes.head? = some l ∧ (v.thread l).elim false (Guard.holds g) = false

section
variable {v : View} {s : State} {g : Guard} {x : Uses}

theorem gated_of {a : View → Act Unit} {ok : Bool} {idle : Prop} {fin : State} {i : Instr} (hv : s.view? = some v) (hi : exec i s = runUnit a s)
    (h : Gate (a v) s ok idle fin) : Gated i v s ok idle fin :=
  ⟨fun hok => hi.trans (runUnit_stop hv (h.refuses hok)), fun hok hg => hi.trans (runUnit_ok hv (h.idles hok hg))⟩
theorem readAll_noLanes : readAll v [] x s = .ok ([], s) := by
  unfold readAll
  cases x.dst <;> rfl
/-- An action behind a check of its fields. -/
theorem gate_needA {ok : Bool} {idle : Prop} {fin : State} {f : Unit → Act Unit} (h : ok = true → idle → f () s = .ok ((), fin)) :
    Gate (needA ok (.fault fcIllOpnd 0 0 0) >>= f) s ok idle fin :=
  ⟨fun hok => by rw [act_bind, act_needA, hok]; rfl, fun hok hg => by rw [act_bind, act_needA, hok]; exact h hok hg⟩
/-- One behind two checks. -/
theorem Gate.behind {p ok : Bool} {idle : Prop} {fin : State} {a : Act Unit} (h : Gate a s ok idle fin) :
    Gate (needA p (.fault fcIllOpnd 0 0 0) >>= fun _ => a) s (p && ok) idle fin := by
  cases p with
  | false => exact ⟨fun _ => by rw [act_bind, act_needA]; rfl, fun hok => Bool.noConfusion hok⟩
  | true => exact ⟨fun hok => (act_bind_ok (act_needA _ _ s)).trans (h.refuses hok), fun hok hg => (act_bind_ok (act_needA _ _ s)).trans (h.idles hok hg)⟩
theorem gate_free {idle : Prop} {fin : State} {a : Act Unit} (h : idle → a s = .ok ((), fin)) : Gate a s true idle fin :=
  ⟨fun hok => Bool.noConfusion hok, fun _ => h⟩
theorem gate_runSplit (f : List LaneIn → List (Nat × LaneOut)) : Gate (runSplit g x f v) s (v.legal x) (v.active g = []) (s.advance v) := by
  unfold runSplit
  exact gate_needA fun _ hg => by rw [if_pos hg]; rfl
theorem gate_elected {ctl : List Nat} {body : List Nat → LaneIn → Act Unit} : Gate (elected g x ctl body v) s (v.legal x) (v.active g = []) (s.advance v) := by
  unfold elected
  exact gate_needA fun _ hg => by rw [hg]; rfl
theorem gate_memIssue {w : WM} {legal all : Bool} {body : List LaneIn → Act Unit} :
    Gate (memIssue w x legal all body v) s (v.legal x && legal) (v.active w.g = []) (s.advance v) := by
  unfold memIssue
  exact gate_needA fun _ hg => by rw [if_pos hg]; rfl
theorem gate_memOnly {w : WM} {all : Bool} {body : List LaneIn → Act Unit} : Gate (memIssue w x true all body v) s (v.legal x) (v.active w.g = []) (s.advance v) :=
  Bool.and_true (v.legal x) ▸ gate_memIssue
theorem gate_loadNow {w : WM} {sx : Bool} {check : List LaneAt → Act Unit} {key : LaneAt → List (Nat × Nat)} :
    Gate (loadNow w sx check key v) s (v.legal { src := [mSrc w.base 1], dst := some ⟨w.data, Width.words w.wid⟩ }) (v.active w.g = []) (s.advance v) := by
  unfold loadNow
  exact gate_memOnly
theorem gate_storeNow {w : WM} {check : List LaneAt → Act Unit} {op : LaneAt → List Byte → SqOp} :
    Gate (storeNow w check op v) s (v.legal { src := [mSrc w.data (Width.words w.wid), mSrc w.base 1] }) (v.active w.g = []) (s.advance v) := by
  unfold storeNow
  exact gate_memOnly
theorem gate_atomic {w : WM} {sp : ASpace} {nd nr : Nat} {op : Nat → LaneIn → OcOp} :
    Gate (atomic w sp nd nr op v) s (v.legal { src := [mSrc w.data nd, mSrc w.base (if sp = .scratch then 2 else 1)] } && v.b.rwOk v.front w.data nd)
      (v.active w.g = []) (s.advance v) := by
  have hx : (if sp = .scratch then 2 else 1) = if (sp == .scratch) = true then 2 else 1 := by cases sp <;> rfl
  rw [hx]
  unfold atomic
  exact gate_memIssue
theorem gate_bbOp {w : WM} {pre : LaneAt → Bool} {upd : Nat → LaneAt → State → Option State} : Gate (bbOp w x pre upd v) s (v.legal x) (v.active w.g = []) (s.advance v) := by
  unfold bbOp
  exact gate_memOnly
theorem gate_indirect (w : WA) (link : Option Opnd) :
    Gate (indirect w link v) s (v.legal { src := [srcA w 2], dst := link.map fun f => ⟨f, 2⟩ } && link.elim true fun f => v.b.rwOk v.front f 2)
      (v.active w.g = []) (s.advance v) := by
  unfold indirect
  exact gate_needA fun _ hg => by rw [if_pos hg]; rfl
theorem gate_direct (w : WA) : Gate (indirect w none v) s (v.legal { src := [srcA w 2] }) (v.active w.g = []) (s.advance v) :=
  Bool.and_true (v.legal { src := [srcA w 2] }) ▸ gate_indirect w none
theorem gate_perSplit {w : WC} {legal : Bool} {ctl : List Nat} {body : List Nat → LaneIn → Act Unit} :
    Gate (perSplit w x legal ctl body v) s (v.legal x && legal) (HeadOut v w.g) (s.advance v) := by
  unfold perSplit
  refine gate_needA fun _ ⟨l, hl, hg⟩ => ?_
  obtain ⟨ls, hls⟩ := List.head?_eq_some_iff.mp hl
  rw [hls]
  simp only [hg, Bool.not_false, if_true, act_done]
theorem gate_splitOnly {w : WC} {ctl : List Nat} {body : List Nat → LaneIn → Act Unit} :
    Gate (perSplit w x true ctl body v) s (v.legal x) (HeadOut v w.g) (s.advance v) :=
  Bool.and_true (v.legal x) ▸ gate_perSplit
theorem gate_uniform {legal : View → Bool} {body : Nat → Act Unit} (ha : v.assembled = true) :
    Gate (uniform g legal body v) s (legal v) (HeadOut v g) (s.uniformEnd v) := by
  unfold uniform
  simp only [ha, Bool.not_true, Bool.false_eq_true, if_false]
  refine gate_needA fun _ ⟨l, hl, hg⟩ => ?_
  obtain ⟨ls, hls⟩ := List.head?_eq_some_iff.mp hl
  simp only [hls, hg, Bool.false_eq_true, if_false, act_modA]
theorem gate_engIssue {w : WE} {slot : Bool} {body : List Nat → LaneIn → Act Unit} (ha : v.assembled = true) :
    Gate (engIssue w x slot body v) s (v.legal x) (HeadOut v w.g) (s.uniformEnd v) :=
  gate_uniform ha

/-! ## Instructions with a shape of their own -/

theorem portAbsent_zero {ret : Bool} (q : Nat) : portAbsent s v.u q (tryCount ret []) = false := by
  have hc : tryCount ret [] = 0 := by cases ret <;> rfl
  unfold portAbsent
  rw [hc]
  cases (s.blk? v.u.blk).bind fun b => (b.ring? q).map fun r => (b, r) with
  | none => rfl
  | some x => exact Bool.and_false _
theorem gate_qtryPop (w : WA) (pd : PNum) (q : Nat) (hd : portOf w.d = none) :
    Gate (qtryPop w pd q v) s (v.b.canPop v.front q && v.b.dstOk v.front ⟨w.d, 1⟩) (v.active w.g = []) (s.advance v) := by
  have hl : (v.b.canPop v.front q && v.b.dstOk v.front ⟨w.d, 1⟩ && (portOf w.d).isNone) = (v.b.canPop v.front q && v.b.dstOk v.front ⟨w.d, 1⟩) := by
    rw [hd, Option.isNone_none, Bool.and_true]
  refine ⟨fun hok => ?_, fun hok hg => ?_⟩
  · unfold qtryPop
    rw [hl, hok]
    rfl
  · have h := qtryPop_some (w := w) (pd := pd) (s := s) (es := []) (t := s) (hl.trans hok) (by rw [hg]; rfl) (by rw [hg]; rfl)
      (by rw [hg]; exact portAbsent_zero q)
    rw [hg] at h
    exact h
theorem gate_qtryPush (w : WA) (pd : PNum) (q : Nat) : Gate (qtryPush w pd q v) s (v.b.canPush q && v.b.srcOk v.front (srcA w)) (v.active w.g = []) (s.advance v) := by
  unfold qtryPush
  refine gate_needA fun _ hg => ?_
  simp only [act_bind, act_needA, if_true, hg, act_get, readAll_noLanes, List.length_nil, Nat.zero_le, decide_true, Bool.true_or, act_set, List.foldl_nil,
    predAll, act_modA, act_done]
theorem gated_qtry (hv : s.view? = some v) (w : WA) (pd : PNum) :
    Gated (.qtry w pd) v s (match portOf w.d, portOf w.a with
      | none, some q => v.b.canPop v.front q && v.b.dstOk v.front ⟨w.d, 1⟩
      | some q, none => v.b.canPush q && v.b.srcOk v.front (srcA w)
      | _, _ => false) (v.active w.g = []) (s.advance v) := by
  refine gated_of hv rfl ?_
  cases hd : portOf w.d <;> cases ha : portOf w.a
  case none.none | some.some => exact ⟨fun _ => rfl, fun h => Bool.noConfusion h⟩
  case none.some q => exact gate_qtryPop w pd q hd
  case some.none q => exact gate_qtryPush w pd q
theorem gated_qcfg (hv : s.view? = some v) (w : WI) :
    Gated (.qcfg w) v s ((portOf w.d).elim false (fun q => decide (1 ≤ q ∧ q ≤ 15)) && v.legal { src := [⟨w.a, 1, w.eta, false⟩] })
      (v.active w.g = []) (s.advance v) := by
  have hp : (portOf w.d).elim false (fun q => decide (1 ≤ q ∧ q ≤ 15)) = (decide (1 ≤ (portOf w.d).getD 0) && decide ((portOf w.d).getD 0 ≤ 15)) := by
    cases portOf w.d with
    | none => rfl
    | some q => exact Bool.decide_and _ _
  rw [hp]
  exact gated_of hv rfl gate_elected.behind
theorem gated_qlen (hv : s.view? = some v) (w : WA) :
    Gated (.qlen w) v s ((portOf w.a).elim false (v.b.canPop v.front) && v.legal { dst := some ⟨w.d, 1⟩ }) (v.active w.g = []) (s.advance v) :=
  gated_of hv rfl gate_elected.behind
theorem gated_ptok (hv : s.view? = some v) (w : WI) :
    Gated (.ptok w) v s (v.legal { src := if w.imm.getLsbD 5 || w.a == 511#9 then [] else [⟨w.a, 1, w.eta, false⟩] }) (v.active w.g = []) (s.advance v) := by
  have hx : (if w.imm.getLsbD 5 || w.a == 511#9 then [] else [⟨w.a, 1, w.eta, false⟩] : List Src) =
      if (!w.imm.getLsbD 5 && w.a != 511#9) = true then [⟨w.a, 1, w.eta, false⟩] else [] := by
    cases w.imm.getLsbD 5 <;> cases h : w.a == 511#9 <;> simp only [bne, h] <;> rfl
  rw [hx]
  exact gated_of hv rfl gate_elected
theorem gated_chsend (hv : s.view? = some v) (w : WA) (up : Bool) :
    Gated (.chsend w up) v s ((chanFor v true up s).isSome && v.legal { src := [srcA w] }) (v.active w.g = []) (s.advance v) := by
  refine gated_of hv rfl ?_
  cases hc : chanFor v true up s with
  | none =>
    refine ⟨fun _ => ?_, fun hok => Bool.noConfusion hok⟩
    simp only [act_bind, act_get, hc, act_faultA]
    rfl
  | some c =>
    refine ⟨fun hok => ?_, fun hok hg => ?_⟩ <;> rw [Option.isSome_some, Bool.true_and] at hok
    · simp only [act_bind, act_get, hc, act_needA, hok, Bool.false_eq_true, if_false]
    · simp only [act_bind, act_get, hc, act_needA, hok, if_true, hg, released, List.all_nil, readAll_noLanes, decide_true, Bool.true_or, List.foldl_nil, act_set,
        act_done]
theorem gated_chrecv (hv : s.view? = some v) (w : WA) (up : Bool) :
    Gated (.chrecv w up) v s ((chanFor v false up s).isSome && v.b.dstOk v.front ⟨w.d, 1⟩) (v.active w.g = []) (s.advance v) := by
  refine gated_of hv rfl ?_
  cases hc : chanFor v false up s with
  | none =>
    refine ⟨fun _ => ?_, fun hok => Bool.noConfusion hok⟩
    simp only [act_bind, act_get, hc, act_faultA]
    rfl
  | some c =>
    refine ⟨fun hok => ?_, fun hok hg => ?_⟩ <;> rw [Option.isSome_some, Bool.true_and] at hok
    · simp only [act_bind, act_get, hc, act_needA, hok, Bool.false_eq_true, if_false]
    · simp only [act_bind, act_get, hc, act_needA, hok, if_true, hg, List.length_nil, Nat.zero_le, decide_true, List.any_nil, Bool.not_false, Bool.and_true]
      cases opKind w.d <;> rfl
theorem gated_fence (hv : s.view? = some v) (w : WM) : Gated (.fence w) v s true (v.active w.g = []) (s.advance v) := by
  refine gated_of hv rfl (gate_free fun hg => ?_)
  rw [hg]
  cases ho : ordOf w <;> rfl
theorem gated_exit (hv : s.view? = some v) (g : Guard) : Gated (.exit g) v s true (v.active g = []) (s.advance v) := by
  refine gated_of hv rfl (gate_free fun hg => ?_)
  rw [hg]
  rfl
theorem gated_trap (hv : s.view? = some v) (w : WI) :
    Gated (.trap w) v s (v.legal { src := [⟨w.a, 1, w.eta, false⟩] }) (v.active w.g = []) (s.advance v) := by
  refine gated_of hv rfl ?_
  exact gate_needA fun _ hg => by rw [if_pos hg]; rfl
theorem gated_svc (hv : s.view? = some v) (w : WI) : Gated (.svc w) v s (v.legal { src := [⟨w.a, 4, false, false⟩] }) (v.active w.g = []) (s.advance v) := by
  refine gated_of hv rfl ?_
  exact gate_needA fun _ hg => by rw [if_pos hg]; rfl
theorem gated_bkpt (hv : s.view? = some v) (w : WI) : Gated (.bkpt w) v s true (v.active w.g = []) (s.advance v) :=
  gated_of hv rfl (gate_free fun hg => by rw [if_pos hg]; rfl)
theorem gated_statclr (hv : s.view? = some v) (w : WA) (ix : BitVec 8) : Gated (.statclr w ix) v s true (v.active w.g = []) (s.advance v) := by
  refine ⟨fun hok => Bool.noConfusion hok, fun _ hg => (exec_statclr hv).trans ?_⟩
  rw [hg]
  unfold clearedItem
  split <;> rfl

/-! ## The families of instructions (R161, R160) -/

theorem gated_row {i : Instr} {ok : Bool} (hv : s.view? = some v) (h : (regRow i).map (fun R => (R.g, v.legal R.uses)) = some (g, ok)) :
    Gated i v s ok (v.active g = []) (s.advance v) := by
  obtain ⟨R, hr, he⟩ := Option.map_eq_some_iff.mp h
  cases he
  exact gated_of hv (exec_eq_runSplit hr hv) (gate_runSplit _)
/-- An instruction whose guard is each lane's own. -/
theorem gated_laneUses {i : Instr} {ok : Bool} (hv : s.view? = some v) (h : laneUses s v i = some (g, ok)) : Gated i v s ok (v.active g = []) (s.advance v) := by
  cases i with
  | brx w | ret w => cases h; exact gated_of hv rfl (gate_direct w)
  | callx w => cases h; exact gated_of hv rfl (gate_indirect w (some w.d))
  | exit g => cases h; exact gated_exit hv _
  | nop g => cases h; exact gated_of (a := fun v => modA (·.advance v)) hv rfl (gate_free fun _ => rfl)
  | qtry w pd => cases h; exact gated_qtry hv w pd
  | qcfg w => cases h; exact gated_qcfg hv w
  | qlen w => cases h; exact gated_qlen hv w
  | chsend w up => cases h; exact gated_chsend hv w up
  | chrecv w up => cases h; exact gated_chrecv hv w up
  | lds w | ldk w => cases h; exact gated_of hv rfl gate_loadNow
  | sts w | stk w => cases h; exact gated_of hv rfl gate_storeNow
  | ldp w | stp w | presw w | presq w =>
    cases h
    refine gated_of hv rfl ?_
    exact gate_memOnly
  | bbarv w | bbinit w | bbexp w | bbwait w => cases h; exact gated_of hv rfl gate_bbOp
  | atom w sp | acas w sp => cases h; exact gated_of hv rfl gate_atomic
  | fence w => cases h; exact gated_fence hv w
  | trayw | gsig | ssel | rtlaunch | rtclaim | gwait => cases h; exact gated_of hv rfl gate_elected
  | ptok w => cases h; exact gated_ptok hv w
  | trap w => cases h; exact gated_trap hv w
  | svc w => cases h; exact gated_svc hv w
  | bkpt w => cases h; exact gated_bkpt hv w
  | statclr w ix => cases h; exact gated_statclr hv w ix
  | _ => exact gated_row hv h
/-- A transfer whose target is at a distance from its clause's header. -/
theorem gated_jumpUses {i : Instr} {ok : Bool} (hv : s.view? = some v) (h : jumpUses v i = some (g, ok)) :
    Gated i v s ok (v.g.clauseNow.isSome = true ∧ v.active g = []) (s.advance v) := by
  cases i <;> cases h
  case bra | meet | yield =>
    refine gated_of hv rfl (gate_free fun ⟨hc, hg⟩ => ?_)
    obtain ⟨c, hc⟩ := Option.isSome_iff_exists.mp hc
    rw [hg]
    refine (act_bind_ok (a := c) (t := s) (by rw [View.clause, act_someA, hc])).trans ?_
    rfl
  case call link ofs =>
    refine gated_of hv rfl ?_
    refine gate_needA fun _ ⟨hc, hg⟩ => ?_
    obtain ⟨c, hc⟩ := Option.isSome_iff_exists.mp hc
    rw [hg]
    refine (act_bind_ok (a := c) (t := s) (by rw [View.clause, act_someA, hc])).trans ?_
    rfl
/-- An instruction of a whole split. -/
theorem gated_splitUses {i : Instr} {ok : Bool} (hv : s.view? = some v) (h : splitUses v i = some (g, ok)) : Gated i v s ok (HeadOut v g) (s.advance v) := by
  cases i <;> cases h
  case tlread | tlwait | trec | cpy | cpys | cpyg | cpyc | wstreamStart | wstreamRel | hbind | hderef | hwt | collAr | collAg | collRs | xsigSet | xsigAdd =>
    exact gated_of hv rfl gate_splitOnly
  case wstreamStop => exact gated_of hv rfl gate_splitOnly
  case hnew | hdrop => exact gated_of hv rfl gate_perSplit
  case hcopy => rw [Bool.and_assoc, Bool.and_assoc, ← Bool.and_assoc (v.b.rwOk _ _ _)]; exact gated_of hv rfl gate_perSplit
/-- An instruction of a whole group. -/
theorem gated_groupUses {i : Instr} {ok : Bool} (hv : s.view? = some v) (h : groupUses v i = some (g, ok)) (ha : v.assembled = true) (hm : v.b.attn.move = none) :
    Gated i v s ok (HeadOut v g) (s.uniformEnd v) := by
  cases i <;> cases h
  case bar | cbar => exact gated_of hv rfl (gate_uniform ha)
  case svset | svclr =>
    refine gated_of hv rfl ?_
    unfold survEdit
    rw [hm]
    exact gate_engIssue ha
  all_goals exact gated_of hv rfl (gate_engIssue ha)

end

end Sys2Proof.Machine
end

section
/-! ## Register instructions that trap or hold (R22, R23, R32) -/

namespace Sys2Proof.Machine
open Sys2Proof.Spec

section
variable {v : View} {s : State} {R : RegRow} {f : List LaneIn → List (Nat × LaneOut)}

/-- A reading that stops, stops the instruction. -/
theorem runSplit_stop {e : Stop} (hl : v.legal R.uses = true) (hn : v.active R.g ≠ []) (h : readAll v (v.active R.g) R.uses s = .error e) :
    runSplit R.g R.uses f v s = .error e := by
  unfold runSplit
  simp only [act_bind, act_needA, hl, if_true, hn, if_false, act_get, h, act_throw]
theorem runSplit_noRoom {ins : List LaneIn} {s1 : State} (hl : v.legal R.uses = true) (hn : v.active R.g ≠ [])
    (h : readAll v (v.active R.g) R.uses s = .ok (ins, s1)) (hp : portFree s1 v.u R.uses.dst (f ins) = false) : runSplit R.g R.uses f v s = .error .hold := by
  unfold runSplit
  simp only [act_bind, act_needA, hl, if_true, hn, if_false, act_get, h, hp, Bool.false_eq_true]

end

end Sys2Proof.Machine
end
section
/-! ## A port with too few entries (R32, R154) -/

namespace Sys2Proof.Machine
open Sys2Proof.Spec

/-- What decides an underfull port: its entries, and whether it traps whatever the empty-trap bit holds. -/
def portLen (s : State) (u : UnitRef) (l q : Nat) : Nat × Bool := ((portView s u l q).1.length, (portView s u l q).2.1)

section
variable {v : View} {s : State} {l q : Nat} {x : Src}

theorem readSrc_short {r : Rd} (hk : opKind x.f = .port q) (hs : (portLen r.s v.u l q).1 < x.n) :
    ∃ t : Rd, r.Le t ∧ t.s = r.s ∧ t.trap = r.trap ∧ (readSrc v l x r).2 = t.empty (x.et || (portLen r.s v.u l q).2) := by
  have hs' : (portView r.s v.u l q).1.length < x.n := hs
  refine ⟨if (portView r.s v.u l q).2.2 then { r with hold := true } else r, rdHold_le r _, ?_, ?_, ?_⟩
  · split <;> rfl
  · split <;> rfl
  · unfold readSrc
    rw [hk]
    dsimp only
    rw [if_pos hs']
    rfl
theorem gone_modThread (g : Grp) (l : Nat) {f : Thread → Thread} (hf : ∀ t, (f t).live = t.live) : (g.modThread l f).gone = g.gone := by
  unfold Grp.gone Grp.modThread
  rw [Bool.eq_iff_iff, List.all_eq_true, List.all_eq_true]
  simp only [List.mem_iff_getElem?, List.getElem?_modify]
  constructor
  · intro h t ⟨k, hk⟩
    have := h (if l = k then f t else t) ⟨k, by rw [hk]; split <;> rfl⟩
    split at this
    · rwa [hf] at this
    · exact this
  · rintro h t ⟨k, hk⟩
    obtain ⟨t0, ht0, rfl⟩ := Option.map_eq_some_iff.mp hk
    have := h t0 ⟨k, ht0⟩
    split
    · rwa [hf]
    · exact this
/-- An update of a thread that leaves its liveness and its port 16 alone leaves what its ports hold. -/
theorem portLen_modThread (u : UnitRef) (k : Nat) {f : Thread → Thread} (hl : ∀ t, (f t).live = t.live) (hq : ∀ t, (f t).q16 = t.q16) :
    portLen (s.modThread u k f) u l q = portLen s u l q := by
  unfold portLen portView State.modThread State.modGrp
  rw [blk_modBlk s u.blk u.blk _ fun b => modGrp_uid b u _, if_pos rfl]
  cases s.blk? u.blk with
  | none => rfl
  | some b =>
    have htray : (b.modGrp u (·.modThread k f)).tray = b.tray := by cases u <;> rfl
    have hfe : (b.modGrp u (·.modThread k f)).fe.gone = b.fe.gone := by
      cases u with
      | front n => exact gone_modThread b.fe k hl
      | group n g => rfl
    have hq16 : (((b.modGrp u (·.modThread k f)).grp? u).bind (·.threads[l]?)).elim [] (·.q16) = ((b.grp? u).bind (·.threads[l]?)).elim [] (·.q16) := by
      rw [block_grp?_modGrp]
      cases b.grp? u with
      | none => rfl
      | some g =>
        show ((g.threads.modify k f)[l]?).elim [] (·.q16) = (g.threads[l]?).elim [] (·.q16)
        rw [List.getElem?_modify]
        cases g.threads[l]? with
        | none => rfl
        | some t =>
          show (if k = l then f t else t).q16 = t.q16
          split
          · exact hq t
          · rfl
    have hq17 : (b.modGrp u (·.modThread k f)).q17 = b.q17 := by cases u <;> rfl
    have hring : (b.modGrp u (·.modThread k f)).ring? q = b.ring? q := by cases u <;> rfl
    rw [Option.map_some]
    dsimp only
    rw [htray, hfe, hq16, hq17, hring]
    by_cases h0 : q = 0
    · rw [if_pos h0, if_pos h0]
    by_cases h16 : q = 16
    · rw [if_neg h0, if_neg h0, if_pos h16, if_pos h16]
    by_cases h17 : q = 17
    · rw [if_neg h0, if_neg h0, if_neg h16, if_neg h16, if_pos h17, if_pos h17]
    rw [if_neg h0, if_neg h0, if_neg h16, if_neg h16, if_neg h17, if_neg h17]
    cases b.ring? q with
    | none => rfl
    | some r => simp only [List.length_map]
theorem portLen_latchIf (xs : List Src) (k : Nat) (r : Rd) : portLen (latchIf v k xs r).s v.u l q = portLen r.s v.u l q := by
  unfold latchIf
  split
  · exact portLen_modThread v.u k (fun _ => rfl) fun _ => rfl
  · rfl
/-- Every port but 16 is one port for all lanes of a unit; port 16 always traps. -/
theorem portLen_lanes (h : (portLen s v.u l q).2 = false) (k : Nat) : portLen s v.u k q = portLen s v.u l q := by
  revert h
  unfold portLen portView
  cases s.blk? v.u.blk with
  | none => exact fun _ => rfl
  | some b =>
    dsimp only
    intro h
    by_cases h0 : q = 0
    · rw [if_pos h0, if_pos h0]
    by_cases h16 : q = 16
    · rw [if_neg h0, if_pos h16] at h
      exact Bool.noConfusion h
    rw [if_neg h0, if_neg h0, if_neg h16, if_neg h16]
    by_cases h17 : q = 17
    · rw [if_pos h17, if_pos h17]
    rw [if_neg h17, if_neg h17]
    cases b.ring? q with
    | none => rfl
    | some r => simp only [List.length_map]

variable {ls : List Nat} {d : Option Dest} {xs : List Src}

/-- The lowest lane's first source is a port with too few entries, with its empty-trap bit set, or one that always traps. -/
theorem readAll_shortTrap (hk : opKind x.f = .port q) (hs : (portLen s v.u l q).1 < x.n) (ht : x.et = true ∨ (portLen s v.u l q).2 = true) :
    readAll v (l :: ls) { src := x :: xs, dst := d } s = .error (.fault fcEmpty 0 l 0) := by
  refine readAll_trap (x := { src := x :: xs, dst := d }) ?_
  have hlen := portLen_latchIf (v := v) (l := l) (q := q) (x :: xs) l { s := s }
  obtain ⟨t, _, _, _, hread⟩ := readSrc_short (r := latchIf v l (x :: xs) { s := s }) hk (hlen ▸ hs)
  have hfirst : (readSrc v l x (latchIf v l (x :: xs) { s := s })).2.trap = true := by
    rw [hread, hlen, Bool.or_eq_true_iff.mpr ht]
    rfl
  have hlane : (laneStep v (x :: xs) ([], { s := s }) l).2.trap = true := by
    rw [laneStep_rd, readSrcs_eq, List.foldl_cons]
    exact (readSteps_le v l xs _).trap hfirst
  rw [readLanes_eq, List.foldl_cons]
  exact foldl_reaches.foldl_inv (P := fun acc : List LaneIn × Rd => acc.2.trap = true) (fun acc k => (laneStep_le v (x :: xs) acc k).trap) ls hlane
/-- The only source is such a port, and nothing makes it trap. -/
theorem readAll_shortHold (hk : opKind x.f = .port q) (hs : (portLen s v.u l q).1 < x.n) (he : x.et = false) (ha : (portLen s v.u l q).2 = false) :
    readAll v (l :: ls) { src := [x], dst := d } s = .error .hold := by
  have hshort : ∀ (k : Nat) (r : Rd), r.s = s → ∃ t : Rd, r.Le t ∧ t.s = r.s ∧ t.trap = r.trap ∧ (readSrc v k x r).2 = { t with hold := true } := by
    intro k r hr
    have hlen : portLen r.s v.u k q = portLen s v.u l q := (congrArg (portLen · v.u k q) hr).trans (portLen_lanes ha k)
    obtain ⟨t, h1, h2, h3, h4⟩ := readSrc_short (v := v) (l := k) (r := r) hk (hlen ▸ hs)
    exact ⟨t, h1, h2, h3, h4.trans (by rw [hlen, he, ha]; rfl)⟩
  have hlatch : ∀ k (r : Rd), latchIf v k [x] r = r := by
    intro k r
    have hx : ([x].any (·.f == 486#9)) = false := by
      rw [List.any_cons, List.any_nil, Bool.or_false, beq_eq_false_iff_ne]
      rintro hf
      rw [hf] at hk
      cases hk
    unfold latchIf
    rw [hx]
    rfl
  refine readAll_hold (x := { src := [x], dst := d }) ?_ (.inl ?_)
  · refine (readLanes_inv (P := fun r => r.s = s ∧ r.trap = false) ⟨rfl, rfl⟩ (fun k _ r hr => by rw [hlatch]; exact hr) fun k _ y hy r ⟨hr, ht⟩ => ?_).2
    rw [List.mem_singleton.mp hy]
    obtain ⟨t, _, h2, h3, h4⟩ := hshort k r hr
    rw [h4]
    exact ⟨h2.trans hr, h3.trans ht⟩
  · have hlane : (laneStep v [x] ([], { s := s }) l).2.hold = true := by
      rw [laneStep_rd, readSrcs_eq, hlatch]
      obtain ⟨t, _, _, _, h4⟩ := hshort l { s := s } rfl
      show (readSrc v l x { s := s }).2.hold = true
      rw [h4]
    rw [readLanes_eq, List.foldl_cons]
    exact foldl_reaches.foldl_inv (P := fun acc : List LaneIn × Rd => acc.2.hold = true) (fun acc k => (laneStep_le v [x] acc k).hold) ls hlane

end

end Sys2Proof.Machine
end

section
open Sys2Proof Sys2Proof.Machine Sys2Proof.Spec

/-- Settles O29: each family of instructions by the gate in front of it; a register instruction by what its reading notes. -/
theorem illegalFieldFaults : Obligations.IllegalFieldFaults := by
  unfold Obligations.IllegalFieldFaults
  refine ⟨fun i R s v hr hv hl => ?_, fun i g ok s v hv => ⟨fun h => ?_, fun h => ?_, fun h => ?_, fun h ha hm => ?_⟩, fun i R s v hr hv hl hn => ⟨?_, ?_, ?_, ?_⟩⟩
  · rw [exec_eq_runSplit hr hv]
    exact runUnit_stop hv ((gate_runSplit _).refuses hl)
  · exact gated_laneUses hv h
  · obtain ⟨h1, h2⟩ := gated_jumpUses hv h
    exact ⟨h1, fun hok hc hg => h2 hok ⟨hc, hg⟩⟩
  · obtain ⟨h1, h2⟩ := gated_splitUses hv h
    exact ⟨h1, fun l hok hl hg => h2 hok ⟨l, hl, hg⟩⟩
  · obtain ⟨h1, h2⟩ := gated_groupUses hv h ha hm
    exact ⟨h1, fun l hok hl hg => h2 hok ⟨l, hl, hg⟩⟩
  · intro h
    rw [exec_eq_runSplit hr hv]
    exact runUnit_stop hv (runSplit_stop hl hn (readAll_emptyTrap h))
  · intro hnt h
    rw [exec_eq_runSplit hr hv]
    exact (runUnit_stop hv (runSplit_stop hl hn (readAll_notFull hnt h))).trans (congrArg _ (stopUnit_hold hv))
  · intro x r q l hsrc hk hhead hshort
    obtain ⟨ls, hls⟩ := List.head?_eq_some_iff.mp hhead
    have huses : R.uses = { src := x :: r, dst := R.uses.dst } := by rw [← hsrc]
    rw [exec_eq_runSplit hr hv]
    refine ⟨fun ht => ?_, fun he ha hnil => ?_⟩
    · have hread : readAll v (v.active R.g) R.uses s = .error (.fault fcEmpty 0 ((v.active R.g).headD 0) 0) := by
        rw [huses, hls]
        exact readAll_shortTrap hk hshort ht
      exact runUnit_stop hv (runSplit_stop hl hn hread)
    · have hread : readAll v (v.active R.g) R.uses s = .error .hold := by
        rw [huses, hls, hnil]
        exact readAll_shortHold hk hshort he ha
      exact (runUnit_stop hv (runSplit_stop hl hn hread)).trans (congrArg _ (stopUnit_hold hv))
  · intro ins s1 hread hp
    rw [exec_eq_runSplit hr hv]
    exact (runUnit_stop hv (runSplit_noRoom hl hn hread hp)).trans (congrArg _ (stopUnit_hold hv))

end

section
/-! # The page fault of a unit and the bench (spec/17 R237, R403, R418, R422, R423) -/

namespace Sys2Proof.Machine
open Sys2Proof.Spec

/-! ## The device's own writes -/

/-- Writing runs changes memory and its error lists, and nothing else. -/
theorem wrRuns_eq (s : State) (rs : List Run) (bs : List Byte) :
    ∃ m g p e, s.wrRuns rs bs = { s with mem := m, granErr := g, wordPsn := p, wordErr := e } := by
  unfold State.wrRuns
  induction rs generalizing s bs with
  | nil => exact ⟨_, _, _, _, rfl⟩
  | cons r rs ih =>
    obtain ⟨m, g, p, e, h⟩ := ih (s.wr r.key (bs.take r.len)) (bs.drop r.len)
    exact ⟨m, g, p, e, h⟩
theorem devWrite_eq (s : State) (c va : Nat) (bs : List Byte) :
    ∃ m g p e, s.devWrite c va bs = { s with mem := m, granErr := g, wordPsn := p, wordErr := e } := by
  unfold State.devWrite
  split
  · split
    · exact ⟨_, _, _, _, rfl⟩
    · exact wrRuns_eq _ _ _
  · exact ⟨_, _, _, _, rfl⟩
/-- What an engine's translation looks at: memory, the package, its numbered peers, the table roots and the cores' walk-ahead TLBs. -/
structure SeesAlike (s t : State) : Prop where
  mem : t.mem = s.mem
  pkg : t.pkg = s.pkg
  num : t.numbered = s.numbered
  rcd : ∀ c, (t.ctxD c).rcd = (s.ctxD c).rcd
  ahead : ∀ k, (t.coreD k).ahead = (s.coreD k).ahead
theorem SeesAlike.trans {a b c : State} (h : SeesAlike a b) (k : SeesAlike b c) : SeesAlike a c :=
  ⟨k.mem.trans h.mem, k.pkg.trans h.pkg, k.num.trans h.num, fun n => (k.rcd n).trans (h.rcd n), fun n => (k.ahead n).trans (h.ahead n)⟩
theorem SeesAlike.symm {a b : State} (h : SeesAlike a b) : SeesAlike b a :=
  ⟨h.mem.symm, h.pkg.symm, h.num.symm, fun n => (h.rcd n).symm, fun n => (h.ahead n).symm⟩
/-- A quiet change that leaves the cores alone. -/
theorem seesAlike_of_quiet {s t : State} (h : Quiet s t) (hc : ∀ k, (t.coreD k).ahead = (s.coreD k).ahead) : SeesAlike s t :=
  ⟨h.mem, (congrArg (fun x : State => x.pkg) h.rest : (restS t).pkg = (restS s).pkg), (congrArg (fun x : State => x.numbered) h.rest : (restS t).numbered = (restS s).numbered), h.rcd, hc⟩
section
variable {s t : State} (h : SeesAlike s t)
include h
theorem SeesAlike.xlateEng (core ctx : Nat) (va : VAddr) : t.xlateEng core ctx va = s.xlateEng core ctx va := by
  have hread : ∀ p a, t.read8 p a = s.read8 p a := fun p a => by unfold State.read8 State.rd; rw [h.mem]
  unfold State.xlateEng State.xlateBy State.walkCtx State.walk
  simp only [hread, h.ahead, h.rcd, h.pkg]
theorem SeesAlike.leafKey (l : Leaf) : t.leafKey l = s.leafKey l := by
  unfold State.leafKey
  rw [h.pkg]
theorem SeesAlike.engRuns (core ctx : Nat) (write : Bool) : ∀ fuel va n : Nat, t.engRuns core ctx write fuel va n = s.engRuns core ctx write fuel va n
  | 0, _, _ => rfl
  | fuel + 1, va, n => by
    unfold State.engRuns
    simp only [h.xlateEng, h.leafKey, SeesAlike.engRuns core ctx write fuel, State.engLegal, h.num]
    rfl
theorem SeesAlike.engRange (core ctx va n : Nat) (write : Bool) : t.engRange core ctx va n write = s.engRange core ctx va n write := h.engRuns core ctx write _ va n
theorem SeesAlike.wrRuns (rs : List Run) (bs : List Byte) : (t.wrRuns rs bs).mem = (s.wrRuns rs bs).mem := by
  have go : ∀ (rs : List Run) (bs : List Byte) (s t : State), t.mem = s.mem → (t.wrRuns rs bs).mem = (s.wrRuns rs bs).mem := by
    intro rs
    induction rs with
    | nil => exact fun _ _ _ h => h
    | cons r rs ih => exact fun bs s t h => ih (bs.drop r.len) (s.wr r.key (bs.take r.len)) (t.wr r.key (bs.take r.len)) (by rw [wr_mem, wr_mem, h])
  exact go rs bs s t h.mem
theorem SeesAlike.devWrite (c va : Nat) (bs : List Byte) : (t.devWrite c va bs).mem = (s.devWrite c va bs).mem := by
  unfold State.devWrite
  rw [h.engRange]
  split
  · split
    · exact h.mem
    · exact h.wrRuns _ _
  · exact h.mem
end

/-! ## Units, engines, records and the fault queue along the bench -/

/-- Registers, control bits, engines and records are kept, and the reports that wait. -/
structure Kept (s t : State) : Prop where
  keep : keepS t = keepS s
  rcd : ∀ c, (t.ctxD c).rcd = (s.ctxD c).rcd
  pend : ∀ c, (t.ctxD c).pendF = (s.ctxD c).pendF
theorem Kept.trans {a b c : State} (h : Kept a b) (k : Kept b c) : Kept a c :=
  ⟨k.keep.trans h.keep, fun n => (k.rcd n).trans (h.rcd n), fun n => (k.pend n).trans (h.pend n)⟩
theorem kept_refl (s : State) : Kept s s := ⟨rfl, fun _ => rfl, fun _ => rfl⟩
theorem kept_of_quiet {s t : State} (h : Quiet s t) (hc : t.ctxs = s.ctxs) : Kept s t :=
  ⟨h.keep, h.rcd, fun c => by unfold State.ctxD State.ctx?; rw [hc]⟩
theorem kept_modGrp {s : State} {u : UnitRef} {f : Grp → Grp} (hf : ∀ g, keepG (f g) = keepG g) : Kept s (s.modGrp u f) := kept_of_quiet (quiet_modGrp s u f hf) rfl
theorem kept_modCtx {s : State} {n : Nat} {f : Ctx → Ctx} (hn : ∀ x, (f x).no = x.no) (hr : ∀ x, (f x).rcd = x.rcd) (hp : ∀ x, (f x).pendF = x.pendF) : Kept s (s.modCtx n f) := by
  have hq := quiet_modCtx s n f hn hr
  refine ⟨hq.keep, hq.rcd, fun c => ?_⟩
  rw [ctxD_modCtx s n c f hn]
  split
  · subst_vars
    exact hp _
  · rfl
theorem kept_bump (s : State) (c i n : Nat) : Kept s (s.bump c i n) := kept_modCtx (fun _ => rfl) (fun _ => rfl) fun _ => rfl
theorem noteStop_ctxs (s : State) (c : Nat) (u : UnitRef) : (s.noteStop c u).ctxs = s.ctxs := by
  obtain ⟨f, hf⟩ := noteStop_eq s c u
  rw [hf]
  rfl
theorem kept_noteStop (s : State) (c : Nat) (u : UnitRef) : Kept s (s.noteStop c u) := kept_of_quiet (quiet_noteStop s c u) (noteStop_ctxs s c u)
theorem kept_endRun (s : State) (u : UnitRef) : Kept s (s.endRun u) := by
  refine kept_of_quiet (quiet_endRun s u) ?_
  cases hb : s.blk? u.blk with
  | none => unfold State.endRun; rw [hb]
  | some b => exact endRun_ctxs hb
theorem kept_devWrite (s : State) (c va : Nat) (bs : List Byte) : Kept s (s.devWrite c va bs) := by
  obtain ⟨m, g, p, e, h⟩ := devWrite_eq s c va bs
  rw [h]
  exact ⟨rfl, fun _ => rfl, fun _ => rfl⟩
/-- A post leaves everything but the reports that wait, to which it adds its own. -/
theorem post_pend (s : State) (c : Nat) (r : FRec) (a : Answer) : ((s.post c r a).ctxD c).pendF = (s.ctxD c).pendF ++ [(r, a)] := by
  unfold State.post
  rw [ctxD_modCtx s c c (fun x => { x with pendF := x.pendF ++ [(r, a)] }) fun _ => rfl, if_pos rfl]
theorem quiet_post (s : State) (c : Nat) (r : FRec) (a : Answer) : Quiet s (s.post c r a) := quiet_modCtx s c _ (fun _ => rfl) fun _ => rfl
theorem post_cores (s : State) (c : Nat) (r : FRec) (a : Answer) : (s.post c r a).cores = s.cores := modCtx_cores s c _
theorem post_grp? (s : State) (c : Nat) (r : FRec) (a : Answer) (u : UnitRef) : (s.post c r a).grp? u = s.grp? u := by
  unfold State.grp? State.blk? State.post
  rw [modCtx_blocks]
theorem post_mem (s : State) (c : Nat) (r : FRec) (a : Answer) : (s.post c r a).mem = s.mem := modCtx_mem s c _

/-- Where registers, control bits, engines and records are kept, they are as the statements observe them. -/
theorem wrote_nothing {s t : State} (h : keepS t = keepS s) : Wrote s t (.front 0) none [] := by
  refine ⟨fun u l r => ?_, fun u l => ?_⟩
  · have : (if u = UnitRef.front 0 then newReg none [] l r else none) = none := by split <;> rfl
    rw [this, reg_of_keep h]
  · have : (if u = UnitRef.front 0 then ([] : List (Nat × LaneOut)).find? (·.1 == l) else none) = none := by split <;> rfl
    rw [this, ctl_of_keep h]

end Sys2Proof.Machine
end
section
/-! ## A group on the bench (R422, R423), and the page fault in its three forms -/

namespace Sys2Proof.Machine
open Sys2Proof.Spec

/-- What remains of putting a group on the bench once its frame is written. -/
def onBench (u : UnitRef) (cause ctx fr : Nat) (late : Prop) [Decidable late] (s : State) : State :=
  let s := (s.endRun u).bump ctx 7 1
  let s := if late then s.noteStop ctx u else s
  (s.modGrp u fun g => { g with stat := .benched cause (BitVec.ofNat 56 fr), waits := [] }).modBlk u.blk (·.tokenCheck)
theorem tokenCheck_keeps (b : Block) : b.tokenCheck.uid = b.uid ∧ b.tokenCheck.fe = b.fe ∧ b.tokenCheck.groups = b.groups ∧ keepB b.tokenCheck = keepB b := by
  unfold Block.tokenCheck
  split
  · exact ⟨rfl, rfl, rfl, rfl⟩
  · split
    · split <;> split <;> exact ⟨rfl, rfl, rfl, rfl⟩
    · exact ⟨rfl, rfl, rfl, rfl⟩
theorem grp?_modBlk (s : State) (u : UnitRef) {f : Block → Block} (hu : ∀ b, (f b).uid = b.uid) (hf : ∀ b, (f b).fe = b.fe ∧ (f b).groups = b.groups) :
    (s.modBlk u.blk f).grp? u = s.grp? u := by
  unfold State.grp?
  rw [blk_modBlk s u.blk u.blk f hu, if_pos rfl]
  cases s.blk? u.blk with
  | none => rfl
  | some b =>
    obtain ⟨h1, h2⟩ := hf b
    show (f b).grp? u = b.grp? u
    cases u with
    | front n => exact congrArg some h1
    | group n g => exact congrArg (·[g]?) h2

section
variable {s : State} {u : UnitRef} {cause ctx fr : Nat} {late : Prop} [Decidable late]
theorem quiet_onBench : Quiet s (onBench u cause ctx fr late s) := by
  unfold onBench
  refine Quiet.trans ?_ (quiet_modBlk _ _ _ fun b => (tokenCheck_keeps b).2.2.2)
  refine Quiet.trans ?_ (quiet_modGrp _ _ _ fun _ => rfl)
  have h := (quiet_endRun s u).trans (quiet_bump _ ctx 7 1)
  split
  · exact h.trans (quiet_noteStop _ _ _)
  · exact h
theorem kept_onBench : Kept s (onBench u cause ctx fr late s) := by
  unfold onBench
  refine Kept.trans ?_ (kept_of_quiet (quiet_modBlk _ _ _ fun b => (tokenCheck_keeps b).2.2.2) rfl)
  refine Kept.trans ?_ (kept_modGrp fun _ => rfl)
  have h := (kept_endRun s u).trans (kept_bump _ ctx 7 1)
  split
  · exact h.trans (kept_noteStop _ _ _)
  · exact h
theorem onBench_cores : (onBench u cause ctx fr late s).cores = (s.endRun u).cores := by
  unfold onBench
  show (if late then ((s.endRun u).bump ctx 7 1).noteStop ctx u else (s.endRun u).bump ctx 7 1).cores = _
  have h : ((s.endRun u).bump ctx 7 1).cores = (s.endRun u).cores := modCtx_cores _ _ _
  split
  · obtain ⟨f, hf⟩ := noteStop_eq ((s.endRun u).bump ctx 7 1) ctx u
    rw [hf]
    exact h
  · exact h
theorem onBench_stat (hg : (s.grp? u).isSome = true) : ((onBench u cause ctx fr late s).grp? u).map (·.stat) = some (.benched cause (BitVec.ofNat 56 fr)) := by
  unfold onBench
  rw [grp?_modBlk _ u (fun b => (tokenCheck_keeps b).1) fun b => ⟨(tokenCheck_keeps b).2.1, (tokenCheck_keeps b).2.2.1⟩, grp?_modGrp]
  have hbump : ((s.endRun u).bump ctx 7 1).grp? u = (s.endRun u).grp? u := by
    unfold State.grp? State.blk? State.bump
    rw [modCtx_blocks]
  have hsome : ((if late then ((s.endRun u).bump ctx 7 1).noteStop ctx u else (s.endRun u).bump ctx 7 1).grp? u).isSome = true := by
    have h1 : ((s.endRun u).grp? u).isSome = true := by
      obtain ⟨b, hb, -⟩ := Option.bind_eq_some_iff.mp (Option.isSome_iff_exists.mp hg).choose_spec
      rw [endRun_grp? hb, hg]
    split
    · obtain ⟨f, hf⟩ := noteStop_eq ((s.endRun u).bump ctx 7 1) ctx u
      rw [hf]
      exact (congrArg Option.isSome hbump).trans h1
    · rw [hbump, h1]
  obtain ⟨g, hg'⟩ := Option.isSome_iff_exists.mp hsome
  rw [hg', Option.map_some, Option.map_some]
end

theorem uid_of_blk {s : State} {n : Nat} {b : Block} (h : s.blk? n = some b) : b.uid = n := by
  have := List.find?_some h
  exact beq_iff_eq.mp this
/-- Benching a group for a cause that leaves its spill window on the core. -/
theorem benchGrp_eq {s : State} {u : UnitRef} {b : Block} {g : Grp} {cause : Nat} (hb : s.blk? u.blk = some b) (hg : b.grp? u = some g) (h0 : cause ≠ 0) (h3 : cause ≠ 3) :
    s.benchGrp u cause = (s.benchAlloc b.ctx (grpFrameSize b.nregs)).map fun r =>
      (r.1, onBench u cause b.ctx r.1 (g.runs = 0 ∧ s.halting b.ctx) (r.2.devWrite b.ctx r.1 (g.frame b u.grpNo cause (b.grpFlags g u.grpNo) 0 []))) := by
  have huid := uid_of_blk hb
  unfold State.benchGrp
  rw [hb, Option.bind_some, hg, Option.bind_some, if_neg (by rintro (h | h); exacts [h0 h, h3 h])]
  dsimp only
  rw [List.length_nil, Nat.add_zero, huid]
  rfl
/-- A place in the bench area, whatever else the state holds. -/
theorem benchAlloc_eq (s : State) (ctx n : Nat) : s.benchAlloc ctx n =
    (benchPlace (s.ctxD ctx).frames (s.ctxD ctx).rcd.benchsz.toNat n).map fun o =>
      ((s.ctxD ctx).rcd.bencha.toNat % 2 ^ 56 + o, s.modCtx ctx fun c => { c with frames := c.frames ++ [(o, n)] }) := rfl

/-! ### A unit on its way to the bench -/

/-- What an update of a unit leaves of its block. -/
theorem modGrp_rest (b : Block) (u : UnitRef) (f : Grp → Grp) : (b.modGrp u f).core = b.core ∧ (b.modGrp u f).idx = b.idx ∧ (b.modGrp u f).ctx = b.ctx ∧
    (b.modGrp u f).nregs = b.nregs ∧ (b.modGrp u f).token = b.token := by
  cases u <;> exact ⟨rfl, rfl, rfl, rfl, rfl⟩
/-- The frame of a page fault looks at nothing of the block that leaving changes. -/
theorem pageFrame_eq (v : View) (va : VAddr) (lane : Nat) {b : Block} (hn : b.nregs = v.b.nregs) (hi : b.idx = v.b.idx) (ht : b.token = v.b.token) :
    (atPage v.g va lane).frame b v.u.grpNo 1 (b.grpFlags (atPage v.g va lane) v.u.grpNo) 0 [] = pageFrame v va lane := by
  unfold pageFrame Grp.frame Block.grpFlags
  rw [hn, hi, ht]
theorem padTo_length (n : Nat) (l : List Byte) : (padTo n l).length = n := by
  unfold padTo zerosB
  rw [List.length_take, List.length_append, List.length_replicate]
  omega
/-- Lists of one length each. -/
theorem length_flatMap_const {α β : Type} (f : α → List β) (n : Nat) (h : ∀ a, (f a).length = n) (l : List α) : (l.flatMap f).length = n * l.length := by
  induction l with
  | nil => rfl
  | cons a l ih => rw [List.flatMap_cons, List.length_append, h, ih, List.length_cons, Nat.mul_succ, Nat.add_comm]
theorem pageFrame_length (v : View) (va : VAddr) (lane : Nat) : (pageFrame v va lane).length = 0x1080 + 132 * v.b.nregs := by
  unfold pageFrame Grp.frame
  simp only [List.length_append, leBytes_length, padTo_length, zerosB, List.length_replicate, if_true, List.length_nil,
    length_flatMap_const _ 128 (fun _ => padTo_length _ _), length_flatMap_const _ 4 (fun _ => leBytes_length _ _), List.length_range]
  omega
/-- The unit leaves its scheduler for a page fault. -/
def toPage (va : VAddr) (lane : Nat) (g : Grp) : Grp := { g with stat := .leaving g.stat.waitCode (.page va lane), hold := 0 }
/-- The unit notes the address of its fault. -/
def noteAddr (va : VAddr) (g : Grp) : Grp := { g with faddr := va.setWidth 64 }

/-- The unit has left its scheduler for a page fault and goes nowhere yet. -/
def leftAt (v : View) (va : VAddr) (lane : Nat) (s : State) : State :=
  (s.modCore v.b.core fun c => { c with cur := c.cur.map fun o => if o = some v.u then none else o }).modGrp v.u (toPage va lane)
/-- With the address of its fault noted. -/
def faultAt (v : View) (va : VAddr) (lane : Nat) (s : State) : State := (leftAt v va lane s).modGrp v.u (noteAddr va)

section
variable {s : State} {v : View} {va : VAddr} {lane : Nat}

theorem view_block {s : State} {v : View} (h : s.view? = some v) : s.blk? v.u.blk = some v.b ∧ v.b.grp? v.u = some v.g ∧ v.b.uid = v.u.blk := by
  unfold State.view? at h
  simp only [Option.bind_eq_some_iff, Option.map_eq_some_iff] at h
  obtain ⟨u, hu, b, hb, g, hg, rfl⟩ := h
  exact ⟨hb, hg, uid_of_blk hb⟩
theorem cur_cleared (s : State) (n : Nat) (u : UnitRef) (k : Nat) :
    ((s.modCore n fun c => { c with cur := c.cur.map fun o => if o = some u then none else o }).coreD n).cur[k]? ≠ some (some u) := by
  unfold State.coreD State.modCore
  rw [List.getElem?_modify]
  cases hc : s.cores[n]? with
  | none =>
    intro h
    rcases k with _ | _ | _ | _ | _ | k <;> simp [Core.init] at h
  | some c =>
    intro h
    simp only [if_true, Option.map_eq_map, Option.map_some, Option.getD_some, List.getElem?_map] at h
    obtain ⟨o, -, ho⟩ := Option.map_eq_some_iff.mp h
    split at ho
    · cases ho
    · exact absurd ho ‹_›
theorem quiet_leftAt : Quiet s (leftAt v va lane s) := (quiet_modCore s _ _).trans (quiet_modGrp _ _ _ fun _ => rfl)
theorem quiet_faultAt : Quiet s (faultAt v va lane s) := quiet_leftAt.trans (quiet_modGrp _ _ _ fun _ => rfl)
theorem leftAt_cores (s : State) : (leftAt v va lane s).cores = (s.modCore v.b.core fun c => { c with cur := c.cur.map fun o => if o = some v.u then none else o }).cores := rfl
theorem sees_faultAt : SeesAlike s (faultAt v va lane s) := by
  refine seesAlike_of_quiet quiet_faultAt fun k => ?_
  show ((s.modCore v.b.core _).coreD k).ahead = _
  unfold State.coreD State.modCore
  rw [List.getElem?_modify]
  cases s.cores[k]? with
  | none => rfl
  | some c =>
    simp only [Option.map_eq_map, Option.map_some, Option.getD_some]
    split <;> rfl

variable (hv : s.view? = some v)
include hv
theorem leftAt_blk : (leftAt v va lane s).blk? v.u.blk = some (v.b.modGrp v.u (toPage va lane)) := by
  obtain ⟨hb, -, -⟩ := view_block hv
  unfold leftAt State.modGrp
  rw [blk_modBlk _ v.u.blk v.u.blk _ fun b => modGrp_uid b v.u _, if_pos rfl]
  exact congrArg (Option.map _) hb
/-- The group as `leftAt` leaves it. -/
theorem leftAt_grp : (v.b.modGrp v.u (toPage va lane)).grp? v.u =
    some (toPage va lane v.g) := by
  obtain ⟨-, hg, -⟩ := view_block hv
  rw [block_grp?_modGrp, hg]
  rfl
theorem leftAt_stat : ((leftAt v va lane s).grp? v.u).map (·.stat) = some (.leaving v.g.stat.waitCode (.page va lane)) := by
  rw [grp_of_blk (leftAt_blk hv) (leftAt_grp hv)]
  rfl
theorem faultAt_blk : (faultAt v va lane s).blk? v.u.blk = some ((v.b.modGrp v.u (toPage va lane)).modGrp v.u
    (noteAddr va)) := by
  unfold faultAt State.modGrp
  rw [blk_modBlk _ v.u.blk v.u.blk _ fun b => modGrp_uid b v.u _, if_pos rfl, leftAt_blk hv]
  rfl
theorem faultAt_grp : ((v.b.modGrp v.u (toPage va lane)).modGrp v.u
    (noteAddr va)).grp? v.u = some (atPage v.g va lane) := by
  rw [block_grp?_modGrp, leftAt_grp hv]
  rfl

/-- With room in the fault queue the unit waits, or leaves at once. -/
theorem pageFault_leaves (hroom : (s.ctxD v.b.ctx).fqRoom = true) : s.pageFault v.u va lane =
    if !(v.front || s.drained v.u v.g) then leftAt v va lane s
    else (leftAt v va lane s).leavePage v.u (v.b.modGrp v.u (toPage va lane))
      (toPage va lane v.g) va lane := by
  obtain ⟨hb, -, -⟩ := view_block hv
  unfold State.pageFault
  rw [hb]
  dsimp only
  rw [if_pos hroom]
  unfold State.leave
  rw [hb]
  show (leftAt v va lane s).leaveNow v.u = _
  unfold State.leaveNow
  rw [leftAt_blk hv]
  dsimp only
  rw [leftAt_grp hv]
  rfl
/-- The record that a page fault posts. -/
def pageRec (v : View) (va : VAddr) (lane frame : Nat) : FRec :=
  { mkRec v.b v.u v.g 0x0D 7 (v.pc.setWidth 64) (va.setWidth 64) v.g.runs (lane % 32) with frame := BitVec.ofNat 64 frame }
/-- A page fault with room in the fault queue: the unit waits until its accesses are done, or stands with its record, or is benched with it. -/
theorem pageFault_waits (hroom : (s.ctxD v.b.ctx).fqRoom = true) (hf : v.front = false) (hd : s.drained v.u v.g = false) : s.pageFault v.u va lane = leftAt v va lane s := by
  rw [pageFault_leaves hv hroom, hf, hd]
  rfl
theorem pageFault_goes (hroom : (s.ctxD v.b.ctx).fqRoom = true) (h : (v.front || s.drained v.u v.g) = true) :
    s.pageFault v.u va lane = match if v.front then none else (faultAt v va lane s).benchGrp v.u 1 with
      | some (fr, t) => t.post v.b.ctx (pageRec v va lane fr) (.grp v.u.blk v.u.grpNo)
      | none => ((faultAt v va lane s).stand v.u 1).post v.b.ctx (pageRec v va lane 0) (if v.front then .front v.u.blk else .grp v.u.blk v.u.grpNo) := by
  rw [pageFault_leaves hv hroom, h]
  show State.leavePage _ _ _ _ _ _ = _
  obtain ⟨h1, h2, h3, -, -⟩ := modGrp_rest v.b v.u (toPage va lane)
  have huid : (v.b.modGrp v.u (toPage va lane)).uid = v.u.blk := (modGrp_uid _ _ _).trans (view_block hv).2.2
  have hrec : ∀ fr : Nat, ({ mkRec (v.b.modGrp v.u (toPage va lane)) v.u
      (toPage va lane v.g) fcPage 7 (v.g.pcOf.setWidth 64) (va.setWidth 64) v.g.runs (lane % 32) with
        frame := BitVec.ofNat 64 fr } : FRec) = pageRec v va lane fr := by
    intro fr
    unfold pageRec mkRec
    rw [h1, h2, h3]
    rfl
  unfold State.leavePage
  rw [h3, huid]
  simp only [← hrec]
  rfl
theorem pageFault_stands (hroom : (s.ctxD v.b.ctx).fqRoom = true) (h : v.front = true ∨ v.front = false ∧ s.drained v.u v.g = true ∧ s.benchAlloc v.b.ctx (grpFrameSize v.b.nregs) = none) :
    s.pageFault v.u va lane = ((faultAt v va lane s).stand v.u 1).post v.b.ctx (pageRec v va lane 0) (if v.front then .front v.u.blk else .grp v.u.blk v.u.grpNo) := by
  rcases h with hf | ⟨hf, hd, ha⟩
  · rw [pageFault_goes hv hroom (by rw [hf]; rfl), hf]
    rfl
  · obtain ⟨-, -, h3, h4, -⟩ := modGrp_rest v.b v.u (toPage va lane)
    obtain ⟨-, -, h3', h4', -⟩ := modGrp_rest (v.b.modGrp v.u (toPage va lane)) v.u
      (noteAddr va)
    have hb : (faultAt v va lane s).benchGrp v.u 1 = none := by
      rw [benchGrp_eq (faultAt_blk hv) (faultAt_grp hv) (by decide) (by decide), h3', h3, h4', h4]
      have hn : (faultAt v va lane s).benchAlloc v.b.ctx (grpFrameSize v.b.nregs) = none := by
        rw [benchAlloc_eq, Option.map_eq_none_iff] at ha ⊢
        exact ha
      rw [hn]
      rfl
    rw [pageFault_goes hv hroom (by rw [hd, Bool.or_true]), hf, hb]
    rfl
theorem pageFault_benches {fr : Nat} {s2 : State} (hroom : (s.ctxD v.b.ctx).fqRoom = true) (hf : v.front = false) (hd : s.drained v.u v.g = true)
    (ha : s.benchAlloc v.b.ctx (grpFrameSize v.b.nregs) = some (fr, s2)) : ∃ t, SeesAlike s t ∧ Kept s t ∧ t.blocks = (faultAt v va lane s).blocks ∧
      ∃ (late : Prop) (_ : Decidable late), s.pageFault v.u va lane = (onBench v.u 1 v.b.ctx fr late (t.devWrite v.b.ctx fr (pageFrame v va lane))).post v.b.ctx (pageRec v va lane fr) (.grp v.u.blk v.u.grpNo) := by
  obtain ⟨-, h2, h3, h4, h5⟩ := modGrp_rest v.b v.u (toPage va lane)
  obtain ⟨-, h2', h3', h4', h5'⟩ := modGrp_rest (v.b.modGrp v.u (toPage va lane)) v.u
    (noteAddr va)
  rw [benchAlloc_eq, Option.map_eq_some_iff] at ha
  obtain ⟨o, ho, he⟩ := ha
  cases he
  have hmod : ∀ x : State, Quiet x (x.modCtx v.b.ctx fun c => { c with frames := c.frames ++ [(o, grpFrameSize v.b.nregs)] }) := fun x =>
    quiet_modCtx x _ _ (fun _ => rfl) fun _ => rfl
  have hsee : ∀ x : State, SeesAlike x (x.modCtx v.b.ctx fun c => { c with frames := c.frames ++ [(o, grpFrameSize v.b.nregs)] }) := fun x =>
    seesAlike_of_quiet (hmod x) fun k => by unfold State.coreD; rw [modCtx_cores]
  refine ⟨(faultAt v va lane s).modCtx v.b.ctx fun c => { c with frames := c.frames ++ [(o, grpFrameSize v.b.nregs)] }, sees_faultAt.trans (hsee _),
    (kept_of_quiet quiet_faultAt rfl).trans (kept_modCtx (fun _ => rfl) (fun _ => rfl) fun _ => rfl), modCtx_blocks _ _ _,
    v.g.runs = 0 ∧ s.halting v.b.ctx = true, inferInstance, ?_⟩
  · rw [pageFault_goes hv hroom (by rw [hd, Bool.or_true]), hf, if_neg Bool.false_ne_true,
      benchGrp_eq (faultAt_blk hv) (faultAt_grp hv) (by decide) (by decide), h3', h3, h4', h4]
    have ha : (faultAt v va lane s).benchAlloc v.b.ctx (grpFrameSize v.b.nregs) = some ((s.ctxD v.b.ctx).rcd.bencha.toNat % 2 ^ 56 + o,
        (faultAt v va lane s).modCtx v.b.ctx fun c => { c with frames := c.frames ++ [(o, grpFrameSize v.b.nregs)] }) := by
      rw [benchAlloc_eq]
      exact (congrArg (Option.map _) ho).trans rfl
    have hframe := pageFrame_eq v va lane (b := (v.b.modGrp v.u (toPage va lane)).modGrp v.u (noteAddr va)) (h4'.trans h4) (h2'.trans h2) (h5'.trans h5)
    rw [ha, hframe]
    rfl
end

end Sys2Proof.Machine
end
section
/-! ## The address checks of the scratchpad (R236, R242) -/

namespace Sys2Proof.Machine
open Sys2Proof.Spec

section
variable {v : View} {as : List LaneAt} {n : Nat} {write : Bool} {s : State} {a : LaneAt}

/-- A lane's translation. -/
def laneLeaf (v : View) (s : State) (l : LaneAt) : Option Leaf := s.xlate v.b.core v.b.ctx (BitVec.ofNat 56 l.a)
/-- The first lane that a check of the translations finds is the one whose own translation it finds. -/
theorem find?_laneLeaf (p : Option Leaf → Bool) : (as.map fun a => (a, laneLeaf v s a)).find? (fun t => p t.2) = (as.find? fun l => p (laneLeaf v s l)).map fun a => (a, laneLeaf v s a) :=
  List.find?_map ..
theorem find?_none_of {p : LaneAt → Bool} (h : ∀ l ∈ as, p l = false) : as.find? p = none :=
  List.find?_eq_none.mpr fun l hl => by rw [h l hl]; exact Bool.false_ne_true
theorem translate_misaligned (h : as.find? (fun l => !(l.a % n == 0)) = some a) : translate v as n write s = .error (.fault fcMisalign (BitVec.ofNat 64 a.a) a.x.lane 0) :=
  act_bind_error (checkLanes_fault h)

variable (ha : ∀ l ∈ as, l.a % n = 0)
include ha
theorem translate_aligned : translate v as n write s =
    match (as.map fun a => (a, laneLeaf v s a)).find? fun t => t.2.elim false s.tierBad with
    | some t => (faultA fcTier t.1.a t.1.x.lane : Act _) s
    | none =>
    match (as.map fun a => (a, laneLeaf v s a)).find? fun t => t.2.elim false fun l => write && !l.w with
    | some t => (faultA fcProt t.1.a t.1.x.lane : Act _) s
    | none =>
    match (as.map fun a => (a, laneLeaf v s a)).find? fun t => t.2.isNone with
    | some t => .error (.page (BitVec.ofNat 56 t.1.a) t.1.x.lane)
    | none => .ok ((as.map fun a => (a, laneLeaf v s a)).filterMap fun t => t.2.map fun l => (t.1, l), s) := by
  unfold translate
  refine (act_bind_ok (checkLanes_ok fun x hx => by rw [ha x hx]; rfl)).trans ?_
  refine (act_bind_ok (act_get s)).trans ?_
  rw [show (as.map fun a => (a, s.xlate v.b.core v.b.ctx (BitVec.ofNat 56 a.a))) = as.map fun a => (a, laneLeaf v s a) from rfl]
  generalize as.map (fun a => (a, laneLeaf v s a)) = ts
  cases ts.find? fun t => t.2.elim false s.tierBad with
  | some t => rfl
  | none =>
    cases ts.find? fun t => t.2.elim false fun l => write && !l.w with
    | some t => rfl
    | none => cases ts.find? fun t => t.2.isNone <;> rfl
theorem translate_tier (h : as.find? (fun l => (laneLeaf v s l).elim false s.tierBad) = some a) :
    translate v as n write s = .error (.fault fcTier (BitVec.ofNat 64 a.a) a.x.lane 0) := by
  rw [translate_aligned ha, find?_laneLeaf fun x => x.elim false s.tierBad, h]
  rfl
variable (ht : ∀ l ∈ as, (laneLeaf v s l).elim false s.tierBad = false)
include ht
theorem translate_prot (h : as.find? (fun l => (laneLeaf v s l).elim false fun f => write && !f.w) = some a) :
    translate v as n write s = .error (.fault fcProt (BitVec.ofNat 64 a.a) a.x.lane 0) := by
  rw [translate_aligned ha, find?_laneLeaf fun x => x.elim false s.tierBad, find?_none_of ht, find?_laneLeaf fun x => x.elim false fun l => write && !l.w, h]
  rfl
theorem translate_page (hw : ∀ l ∈ as, ((laneLeaf v s l).elim false fun f => write && !f.w) = false) (h : as.find? (fun l => (laneLeaf v s l).isNone) = some a) :
    translate v as n write s = .error (.page (BitVec.ofNat 56 a.a) a.x.lane) := by
  rw [translate_aligned ha, find?_laneLeaf fun x => x.elim false s.tierBad, find?_none_of ht, find?_laneLeaf fun x => x.elim false fun l => write && !l.w, find?_none_of hw,
    find?_laneLeaf Option.isNone, h]
  rfl
end

theorem atomicFar_stop {w : WM} {nd nr : Nat} {op : Nat → LaneIn → OcOp} {s s1 : State} {v : View} {ins : List LaneIn} {e : Stop} (hk : v.b.rwOk v.front w.data nd = true)
    (h : MemReady w { src := [mSrc w.data nd, mSrc w.base 2] } false s v ins s1) (hc : translate v (farLanes w ins) (Width.n w) true s1 = .error e) :
    atomic w .scratch nd nr op v s = .error e := by
  unfold atomic
  exact memIssue_stop h hk (act_bind_error hc)
/-- An instruction of the scratchpad translates its lanes first: whatever stops the translation stops it. -/
theorem exec_far_stop {i : Instr} {s s1 : State} {v : View} {m : MemUse} {wr : Bool} {ins : List LaneIn} {e : Stop} (hm : farUse v i = some (m, wr)) (h : m.Ready s v ins s1)
    (hc : translate v (farLanes m.w ins) m.n wr s1 = .error e) : exec i s = .next (s.stopUnit v e) := by
  obtain ⟨h, hk⟩ := h
  cases i
  case atom w sp a =>
    cases sp <;> cases hm
    exact runUnit_stop h.1 (atomicFar_stop hk h hc)
  case acas w sp =>
    cases sp <;> cases hm
    exact runUnit_stop h.1 (atomicFar_stop hk h hc)
  case ldp =>
    cases hm
    exact runUnit_stop h.1 (memIssue_stop h rfl (act_bind_error hc))
  case stp =>
    cases hm
    exact runUnit_stop h.1 (memIssue_stop h rfl (act_bind_error hc))
  all_goals cases hm

/-! ## A unit that stands -/

section
variable {s : State} {u : UnitRef} {g : Grp} {k : Nat}
/-- A unit stands where it is: what it has ended and noted is quiet. -/
theorem stand_eq (hg : s.grp? u = some g) : s.stand u k = ((s.noteWait u (if g.runs = 0 then maskOf g.live else g.runs) none).endRun u).modGrp u fun g => { g with stat := .held k } := by
  unfold State.stand
  rw [hg]
theorem quiet_stand : Quiet s (s.stand u k) := by
  unfold State.stand
  split
  · exact Quiet.rfl' s
  · exact ((quiet_noteWait s u _ none).trans (quiet_endRun _ u)).trans (quiet_modGrp _ _ _ fun _ => rfl)
theorem kept_stand : Kept s (s.stand u k) := by
  unfold State.stand
  split
  · exact kept_refl s
  · exact ((kept_of_quiet (quiet_noteWait s u _ none) rfl).trans (kept_endRun _ u)).trans (kept_modGrp fun _ => rfl)
theorem stand_parts {b : Block} (hb : s.blk? u.blk = some b) (hg : b.grp? u = some g) :
    ((s.stand u k).grp? u).map (·.stat) = some (.held k) ∧ ∀ i : Nat, ((s.stand u k).coreD b.core).cur[i]? ≠ some (some u) := by
  have hgs := grp_of_blk hb hg
  rw [stand_eq hgs]
  generalize hw : (if g.runs = 0 then maskOf g.live else g.runs) = m
  have hb' : ∃ b', (s.noteWait u m none).blk? u.blk = some b' ∧ b'.core = b.core := by
    refine ⟨_, (blk_modBlk s u.blk u.blk _ fun b => modGrp_uid b u _).trans ((if_pos rfl).trans (congrArg _ hb)), ?_⟩
    exact (modGrp_rest b u _).1
  obtain ⟨b', hb', hc⟩ := hb'
  refine ⟨?_, fun i => ?_⟩
  · rw [grp?_modGrp]
    have hs : (((s.noteWait u m none).endRun u).grp? u).isSome = true := by
      rw [endRun_grp? hb']
      show ((s.modGrp u _).grp? u).isSome = true
      rw [grp?_modGrp, hgs]
      rfl
    obtain ⟨g', hg'⟩ := Option.isSome_iff_exists.mp hs
    rw [hg']
    rfl
  · rw [← hc]
    exact endRun_cur hb' i
end

/-! ## What a page fault leaves (R237, R418) -/

theorem grpFrameSize_eq (v : View) (va : VAddr) (lane : Nat) : grpFrameSize v.b.nregs = alignUp (pageFrame v va lane).length 128 := by
  unfold grpFrameSize
  rw [pageFrame_length]


/-- What every page fault leaves: a free scheduler, registers, engines and records. -/
def LeavesUnit (v : View) (s t : State) : Prop :=
  (∀ k : Nat, (t.coreD v.b.core).cur[k]? ≠ some (some v.u)) ∧ Wrote s t (.front 0) none [] ∧ SameEngines s t ∧ SameRecords s t

section
variable {s : State} {v : View} {va : VAddr} {lane : Nat}
theorem leftAt_leaves : LeavesUnit v s (leftAt v va lane s) :=
  ⟨cur_cleared s v.b.core v.u, wrote_nothing quiet_leftAt.keep, engines_keep quiet_leftAt.keep, quiet_leftAt.rcd⟩
theorem stands_pend (r : FRec) (a : Answer) : ((((faultAt v va lane s).stand v.u 1).post v.b.ctx r a).ctxD v.b.ctx).pendF = (s.ctxD v.b.ctx).pendF ++ [(r, a)] := by
  rw [post_pend, kept_stand.pend]
  rfl
theorem stands_mem (r : FRec) (a : Answer) : (((faultAt v va lane s).stand v.u 1).post v.b.ctx r a).mem = s.mem := by
  rw [post_mem]
  exact quiet_stand.mem
variable (hv : s.view? = some v)
include hv
theorem stands_leaves (r : FRec) (a : Answer) : LeavesUnit v s (((faultAt v va lane s).stand v.u 1).post v.b.ctx r a) := by
  have hq : Quiet s (((faultAt v va lane s).stand v.u 1).post v.b.ctx r a) := quiet_faultAt.trans (quiet_stand.trans (quiet_post _ v.b.ctx r a))
  refine ⟨fun k => ?_, wrote_nothing hq.keep, engines_keep hq.keep, hq.rcd⟩
  have h := (stand_parts (k := 1) (faultAt_blk (va := va) (lane := lane) hv) (faultAt_grp hv)).2 k
  rw [(modGrp_rest _ _ _).1, (modGrp_rest _ _ _).1] at h
  unfold State.coreD
  rw [post_cores]
  exact h
theorem stands_stat (r : FRec) (a : Answer) : ((((faultAt v va lane s).stand v.u 1).post v.b.ctx r a).grp? v.u).map (·.stat) = some (.held 1) := by
  rw [post_grp?]
  exact (stand_parts (faultAt_blk hv) (faultAt_grp hv)).1

/-- A group on the bench, from a state in which its block stands as the fault left it. -/
theorem benched_leaves {t : State} (hk : Kept s t) (hb : t.blocks = (faultAt v va lane s).blocks) (fr : Nat) (bs : List Byte) (late : Prop) [Decidable late] (r : FRec) (a : Answer) :
    let x := (onBench v.u 1 v.b.ctx fr late (t.devWrite v.b.ctx fr bs)).post v.b.ctx r a
    LeavesUnit v s x ∧ (x.grp? v.u).map (·.stat) = some (.benched 1 (BitVec.ofNat 56 fr)) ∧ (x.ctxD v.b.ctx).pendF = (s.ctxD v.b.ctx).pendF ++ [(r, a)] ∧
      x.mem = (t.devWrite v.b.ctx fr bs).mem := by
  have hkept : Kept s (onBench v.u 1 v.b.ctx fr late (t.devWrite v.b.ctx fr bs)) := (hk.trans (kept_devWrite t v.b.ctx fr bs)).trans kept_onBench
  have hq := quiet_post (onBench v.u 1 v.b.ctx fr late (t.devWrite v.b.ctx fr bs)) v.b.ctx r a
  have hblk : (t.devWrite v.b.ctx fr bs).blk? v.u.blk = some ((v.b.modGrp v.u (toPage va lane)).modGrp v.u (noteAddr va)) := by
    rw [← faultAt_blk hv]
    unfold State.blk?
    rw [devWrite_blocks, hb]
  have hgrp : ((t.devWrite v.b.ctx fr bs).grp? v.u).isSome = true := congrArg Option.isSome (grp_of_blk hblk (faultAt_grp hv))
  have hkeep : keepS ((onBench v.u 1 v.b.ctx fr late (t.devWrite v.b.ctx fr bs)).post v.b.ctx r a) = keepS s := hq.keep.trans hkept.keep
  refine ⟨⟨fun k => ?_, wrote_nothing hkeep, engines_keep hkeep, fun c => (hq.rcd c).trans (hkept.rcd c)⟩, ?_, ?_, ?_⟩
  · have h := endRun_cur hblk k
    rw [(modGrp_rest _ _ _).1, (modGrp_rest _ _ _).1] at h
    unfold State.coreD at h ⊢
    rw [post_cores, onBench_cores]
    exact h
  · rw [post_grp?]
    exact onBench_stat hgrp
  · rw [post_pend, hkept.pend]
  · rw [post_mem]
    exact quiet_onBench.mem
end

end Sys2Proof.Machine
end

section
open Sys2Proof Sys2Proof.Machine Sys2Proof.Spec

/-- Settles O30: the checks in the order in which translation makes them; the page fault by where its unit goes. -/
theorem untranslatedAccessIsAPageFault : Obligations.UntranslatedAccessIsAPageFault := by
  unfold Obligations.UntranslatedAccessIsAPageFault
  refine ⟨fun i s s1 v m wr ins a hm h => ⟨fun hf => ?_, fun ha => ⟨fun hf => ?_, fun ht => ⟨fun hf => ?_, fun hw hf => ?_⟩⟩⟩, fun s v va lane hv => ⟨fun hroom => ?_, fun hroom hst => ?_⟩⟩
  · exact exec_far_stop hm h (translate_misaligned hf)
  · exact exec_far_stop hm h (translate_tier ha hf)
  · exact exec_far_stop hm h (translate_prot ha ht hf)
  · exact exec_far_stop hm h (translate_page ha ht hw hf)
  · obtain ⟨hb, hg, -⟩ := view_block hv
    unfold State.pageFault
    rw [hb]
    dsimp only
    rw [hroom]
    exact stopUnit_hold hv
  · rcases hfr : v.front with _ | _
    · rcases hd : s.drained v.u v.g with _ | _
      · rw [pageFault_waits hv hroom hfr hd]
        obtain ⟨h1, h2, h3, h4⟩ := leftAt_leaves (s := s) (v := v) (va := va) (lane := lane)
        have hstat := leftAt_stat (va := va) (lane := lane) hv
        rw [hst] at hstat
        exact ⟨h1, h2, h3, h4, fun _ _ => ⟨hstat, rfl⟩, fun _ h => Bool.noConfusion h, fun _ _ _ h => Bool.noConfusion h, fun h => Bool.noConfusion h⟩
      · rcases halloc : s.benchAlloc v.b.ctx (grpFrameSize v.b.nregs) with _ | ⟨fr, s2⟩
        · rw [pageFault_stands hv hroom (.inr ⟨hfr, hd, halloc⟩), hfr]
          obtain ⟨h1, h2, h3, h4⟩ := stands_leaves (va := va) (lane := lane) hv (pageRec v va lane 0) (.grp v.u.blk v.u.grpNo)
          refine ⟨h1, h2, h3, h4, fun _ h => Bool.noConfusion h, fun _ _ _ => ⟨stands_stat hv _ _, stands_pend _ _, stands_mem _ _⟩, fun fr s2 _ _ h => ?_,
            fun h => Bool.noConfusion h⟩
          exact absurd (halloc.symm.trans h) (by simp)
        · obtain ⟨t, hsee, hk, hb, late, _, ht⟩ := pageFault_benches hv hroom hfr hd halloc
          rw [ht]
          obtain ⟨⟨h1, h2, h3, h4⟩, hstat, hpend, hmem⟩ := benched_leaves hv hk hb fr (pageFrame v va lane) late (pageRec v va lane fr) (.grp v.u.blk v.u.grpNo)
          refine ⟨h1, h2, h3, h4, fun _ h => Bool.noConfusion h, fun _ _ h => absurd (halloc.symm.trans h) (by simp), fun fr' s2' _ _ he => ?_, fun h => Bool.noConfusion h⟩
          cases halloc.symm.trans he
          exact ⟨hstat, hpend, hmem.trans (hsee.devWrite _ _ _), pageFrame_length v va lane, grpFrameSize_eq v va lane⟩
    · rw [pageFault_stands hv hroom (.inl hfr), hfr]
      obtain ⟨h1, h2, h3, h4⟩ := stands_leaves (va := va) (lane := lane) hv (pageRec v va lane 0) (.front v.u.blk)
      exact ⟨h1, h2, h3, h4, fun h => Bool.noConfusion h, fun h => Bool.noConfusion h, fun _ _ h => Bool.noConfusion h,
        fun _ => ⟨stands_stat hv _ _, stands_pend _ _, stands_mem _ _⟩⟩

end

section
/-! # Events of the schedulers and of memory (spec/06 R152 to R169; spec/10 R271, R272; spec/17 R436, R437) -/

namespace Sys2Proof.Machine
open Sys2Proof.Spec

theorem next_congr {s t : State} (h : s = t) : (Host.Outcome.next s : Host.Outcome State Fault Refusal) = .next t := congrArg _ h

/-! ## A debug halt (R436) -/

/-- The state in which a group is asked to halt. -/
def askedHalt (blk gi : Nat) (s : State) : State :=
  ({ s with dbgHaltW := (UnitRef.group blk gi).word } : State).modGrp (.group blk gi) fun x => { x with dbgHalt := true }
section
variable {s : State} {blk gi : Nat} {b : Block} {g : Grp}
theorem askedHalt_grp (hg : s.grp? (.group blk gi) = some g) : (askedHalt blk gi s).grp? (.group blk gi) = some { g with dbgHalt := true } := by
  unfold askedHalt
  rw [grp?_modGrp]
  exact congrArg (Option.map _) hg
theorem askedHalt_blk (hb : s.blk? blk = some b) : (askedHalt blk gi s).blk? blk = some (b.modGrp (.group blk gi) fun x => { x with dbgHalt := true }) := by
  unfold askedHalt State.modGrp
  refine (blk_modBlk _ blk blk _ fun b => modGrp_uid b _ _).trans ((if_pos rfl).trans ?_)
  exact congrArg (Option.map _) hb
/-- A group that is not stopped already and not on its way to the bench. -/
def MayHalt (g : Grp) : Prop :=
  g.stat = .ready ∨ (∃ i, g.stat = .bar i) ∨ (∃ i, g.stat = .cbar i) ∨ (∃ c, g.stat = .held c ∧ c ≠ 4) ∨ ∃ c f, g.stat = .benched c f ∧ c ≠ 4
/-- The host's request for a group that is not stopped already, with DBG set. -/
theorem exec_debugGroupHalt (hb : s.blk? blk = some b) (hg : s.grp? (.group blk gi) = some g) (hd : s.dbgOn b.ctx = true) (hh : s.hostOk = true)
    (hgone : g.gone = false) (howed : g.owed ≠ 4) (hs : MayHalt g) :
    exec (.debugGroupHalt blk gi) s = .next ((askedHalt blk gi s).debugPend (.group blk gi)) := by
  refine next_congr ?_
  rw [hb, hg]
  dsimp only
  rw [if_pos hh]
  have h1 : State.hostOk { s with dbgHaltW := (UnitRef.group blk gi).word } = true := hh
  have h2 : State.dbgOn { s with dbgHaltW := (UnitRef.group blk gi).word } b.ctx = true := hd
  refine (if_neg fun hx => ?_).trans rfl
  rw [h1, h2, Bool.not_true, Bool.false_or, Bool.false_or] at hx
  rcases hs with h | ⟨i, h⟩ | ⟨i, h⟩ | ⟨c, h, hne⟩ | ⟨c, f, h, hne⟩ <;> rw [h] at hx
  case inl | inr.inl | inr.inr.inl => simp [hgone, howed] at hx
  all_goals
    split at hx
    · cases ‹_ = UStat.stopped›
    · simp_all
    · simp_all
    · cases ‹_ = UStat.leaving _ _›
    · simp [hgone, howed] at hx
/-- A group inside a clause, held or benched goes on to its next clause boundary. -/
theorem debugPend_waits (hg : s.grp? (.group blk gi) = some g) (h : g.runs ≠ 0 ∨ (∃ c, g.stat = .held c) ∨ ∃ c f, g.stat = .benched c f) :
    (askedHalt blk gi s).debugPend (.group blk gi) = askedHalt blk gi s := by
  unfold State.debugPend
  rw [askedHalt_grp hg]
  dsimp only
  refine if_neg ?_
  rcases h with h | ⟨c, h⟩ | ⟨c, f, h⟩
  · have hr : (g.runs == 0) = false := beq_eq_false_iff_ne.mpr h
    rw [hr]
    exact Bool.false_ne_true
  · rw [h, Bool.and_false]
    exact Bool.false_ne_true
  · rw [h, Bool.and_false]
    exact Bool.false_ne_true
/-- One at a clause boundary or at a barrier stops there. -/
theorem debugPend_stops (hb : s.blk? blk = some b) (hg : s.grp? (.group blk gi) = some g) (hr : g.runs = 0) (hh : s.halting b.ctx = false)
    (h : g.stat = .ready ∨ (∃ i, g.stat = .bar i) ∨ ∃ i, g.stat = .cbar i) :
    (askedHalt blk gi s).debugPend (.group blk gi) = (askedHalt blk gi s).leave (.group blk gi) (.stop 0x23 (maskOf ((g.choose.map g.splitOf).getD [])) 0 g.pcOf false) := by
  unfold State.debugPend
  rw [askedHalt_grp hg]
  dsimp only
  have hhalt : (((askedHalt blk gi s).blk? (UnitRef.group blk gi).blk).elim true fun b => (askedHalt blk gi s).halting b.ctx) = false := by
    rw [show (UnitRef.group blk gi).blk = blk from rfl, askedHalt_blk hb]
    exact hh
  refine (if_pos ?_).trans rfl
  rcases h with h | ⟨i, h⟩ | ⟨i, h⟩ <;> rw [hr, hhalt, h] <;> rfl
end

end Sys2Proof.Machine
end

section
open Sys2Proof Sys2Proof.Machine Sys2Proof.Spec

/-- Settles O31: each event by its own conditions; a debug halt by where the group stands. -/
theorem schedulerEventsComplete : Obligations.SchedulerEventsComplete := by
  unfold Obligations.SchedulerEventsComplete
  refine ⟨?_, ?_, ?_, ?_, ?_, ?_, ?_⟩
  · intro s core sched u t x hcur s0 hsel hbad s1
    refine next_congr ?_
    rw [hcur]
    dsimp only
    rw [show (s.cycleHead core sched).select core sched = some (u, t, x) from hsel]
    dsimp only
    cases x with
    | cont r => rfl
    | clause c => rfl
    | bad code => exact absurd rfl (hbad code)
  · intro s blk g x hg hf
    refine ⟨_, rfl, ?_, sameData_of_quiet (quiet_modGrp _ _ _ fun y => by split <;> rfl)⟩
    rw [grp?_modGrp, hg, Option.map_some, if_pos hf]
  · intro s blk g b x hb hg hp ha
    refine runEvent_ok ?_
    have hc : (x.promoted.isNone && decide (s.ageLimit b.ctx ≤ x.age)) = true := by
      rw [hp, Bool.and_eq_true, decide_eq_true_eq]
      exact ⟨rfl, ha⟩
    simp only [act_bind, act_get, hb, act_someA, hg, act_needA, hc, if_true, act_set]
  · intro s u g hg hh hr
    refine next_congr ?_
    rw [hg]
    dsimp only
    rw [decide_eq_true hh, bne_iff_ne.mpr hr]
    rfl
  · intro s blk g a x hg hm
    refine next_congr ?_
    rw [hg]
    dsimp only
    rw [if_pos hm]
  · intro s u b g hb hg hr ha
    refine next_congr ?_
    rw [hb, hg]
    dsimp only
    rw [hr, ha]
    rfl
  · intro s blk gi b g hb hg hd hh hgone howed asked
    refine ⟨fun h => ?_, fun hr hhalt h => ?_⟩
    · refine (exec_debugGroupHalt hb hg hd hh hgone howed ?_).trans (next_congr (debugPend_waits hg ?_))
      · rcases h with ⟨-, h⟩ | h | h
        exacts [.inl h, .inr (.inr (.inr (.inl h))), .inr (.inr (.inr (.inr h)))]
      · rcases h with ⟨h, -⟩ | ⟨c, h, -⟩ | ⟨c, f, h, -⟩
        exacts [.inl h, .inr (.inl ⟨c, h⟩), .inr (.inr ⟨c, f, h⟩)]
    · refine (exec_debugGroupHalt hb hg hd hh hgone howed ?_).trans (next_congr (debugPend_stops hb hg hr hhalt h))
      rcases h with h | h | h
      exacts [.inl h, .inr (.inl h), .inr (.inr (.inl h))]

end
section
/-! ## A departing entry, and accesses that leave a thread's outstanding ones -/

namespace Sys2Proof.Machine
open Sys2Proof.Spec

section
variable (s : State) (u : UnitRef) (l id : Nat)
theorem keepS_bindsLeave : keepS s.bindsLeave = keepS s := by
  obtain ⟨h, p, e⟩ := bindsLeave_frame s
  rw [e]
  rfl
theorem dropUnp_mem : (s.dropUnp u l id).mem = s.mem := by
  obtain ⟨h, p, e⟩ := bindsLeave_frame (s.modThread u l fun t => { t with unp := t.unp.filter (· != id) })
  unfold State.dropUnp
  rw [e]
  rfl
theorem dropUnp_routes : (s.dropUnp u l id).pkg = s.pkg ∧ (s.dropUnp u l id).lost = s.lost ∧ (s.dropUnp u l id).timedOut = s.timedOut := by
  obtain ⟨h, p, e⟩ := bindsLeave_frame (s.modThread u l fun t => { t with unp := t.unp.filter (· != id) })
  unfold State.dropUnp
  rw [e]
  exact ⟨rfl, rfl, rfl⟩
theorem dropUnp_ctxD (c : Nat) : (s.dropUnp u l id).ctxD c = s.ctxD c := by
  obtain ⟨h, p, e⟩ := bindsLeave_frame (s.modThread u l fun t => { t with unp := t.unp.filter (· != id) })
  unfold State.dropUnp
  rw [e]
  rfl
theorem reg_modThread {f : Thread → Thread} (hf : ∀ t, (f t).regs = t.regs) (u' : UnitRef) (l' r : Nat) : reg? (s.modThread u l f) u' l' r = reg? s u' l' r := by
  unfold reg?
  rw [thr_modThread]
  split
  · rename_i h
    obtain ⟨rfl, rfl⟩ := h
    cases thr? s u' l' with
    | none => rfl
    | some t => exact congrArg (·[r]?) (hf t)
  · rfl
theorem reg_dropUnp (u' : UnitRef) (l' r : Nat) : reg? (s.dropUnp u l id) u' l' r = reg? s u' l' r :=
  (reg_of_keep (keepS_bindsLeave _) u' l' r).trans (reg_modThread s u l (f := fun t => { t with unp := t.unp.filter (· != id) }) (fun _ => rfl) u' l' r)
theorem still_dropUnp : Still s (s.dropUnp u l id) := by
  have h := still_modThread s u l fun t => { t with unp := t.unp.filter (· != id) }
  refine ⟨dropUnp_mem s u l id, fun n => ?_, fun c => congrArg (·.rcd) (dropUnp_ctxD s u l id c)⟩
  exact (engines_keep (keepS_bindsLeave _) n).trans (h.eng n)
theorem thr_dropUnp : thr? (s.dropUnp u l id) u l = (thr? s u l).map fun t => { t with unp := t.unp.filter (· != id) } := by
  obtain ⟨h, p, e⟩ := bindsLeave_frame (s.modThread u l fun t => { t with unp := t.unp.filter (· != id) })
  unfold State.dropUnp
  rw [e]
  show thr? (s.modThread u l _) u l = _
  rw [thr_modThread]
  exact if_pos ⟨rfl, rfl⟩
end

/-- The head of a store queue that waits for nothing departs. -/
theorem exec_sqDeparture {s : State} {u : UnitRef} {g : Grp} {e : SqEnt} {r : List SqEnt} (hg : s.grp? u = some g) (hq : g.sq = e :: r) (h : HeadReady s u g e) :
    exec (.sqDeparture u) s = .next ((s.modGrp u fun g => { g with sq := r }).depart u e) := by
  obtain ⟨h1, h2, h3⟩ := h
  refine next_congr ?_
  rw [hg]
  dsimp only
  rw [hq]
  dsimp only
  rw [h2]
  refine if_neg ?_
  cases he : e.op with
  | msg m =>
    have h1' : pathHolds s.hpath u [e.lane] m.home e.id = false := by
      rw [he] at h1
      exact h1
    show ¬(pathHolds s.hpath u [e.lane] m.home e.id || false || false) = true
    rw [h1']
    exact Bool.false_ne_true
  | xsig k add x =>
    have h3' : ((keyPkg k).elim false fun p => s.pkgLost p && !s.pkgGone p) = false := by
      rw [he] at h3
      exact h3
    show ¬(false || false || (keyPkg k).elim false fun p => s.pkgLost p && !s.pkgGone p) = true
    rw [h3']
    exact Bool.false_ne_true
  | _ => exact Bool.false_ne_true

end Sys2Proof.Machine
end

section
open Sys2Proof Sys2Proof.Machine Sys2Proof.Spec

/-- Settles O32: each event by its own conditions. -/
theorem memoryEventsComplete : Obligations.MemoryEventsComplete := by
  unfold Obligations.MemoryEventsComplete
  refine ⟨fun s id f hf => ?_, fun s u g e r hg hq h => exec_sqDeparture hg hq h, fun s core slice e he hl ha => ?_, fun s core ctx va l hw => ⟨?_, ?_⟩⟩
  · refine next_congr ?_
    rw [hf]
  · refine next_congr ?_
    rw [he]
    dsimp only
    have hafter : (e.after.elim false fun i => s.oc.any (·.id == i)) = false := by
      cases hx : e.after with
      | none => rfl
      | some i =>
        rw [Option.elim_some, List.any_eq_false]
        intro x hm
        simpa using ha i hx x hm
    have hgone : ∀ x : State, x.pkg = s.pkg → x.lost = s.lost → x.pkgGone (slice / nCores) = false := by
      intro x h1 h2
      have h3 : x.pkgLost (slice / nCores) = false := by
        unfold State.pkgLost
        rw [h1, h2]
        exact hl
      unfold State.pkgGone
      rw [h3]
      rfl
    obtain ⟨h1, h2, -⟩ := dropUnp_routes { s with oc := s.oc.erase e } e.u e.lane e.id
    have hlost : (s.pkgLost (slice / nCores) && !s.pkgGone (slice / nCores)) = false := by
      rw [show s.pkgLost (slice / nCores) = false from hl]
      rfl
    rw [hafter, hlost, Bool.or_false, if_neg Bool.false_ne_true, hgone _ h1 h2, if_neg Bool.false_ne_true]
  · refine next_congr ?_
    rw [hw]
  · refine next_congr ?_
    rw [hw]

/-- Settles O33: a store writes where its entry says; leaving the queue and the outstanding accesses touches nothing observed. -/
theorem departedStoreIsPerformed : Obligations.DepartedStoreIsPerformed := by
  unfold Obligations.DepartedStoreIsPerformed
  intro s t u g e r k bs hm hg hq h he hexec
  rw [exec_sqDeparture hg hq h] at hexec
  cases hexec
  have hdep : (s.modGrp u fun g => { g with sq := r }).depart u e = ((s.modGrp u fun g => { g with sq := r }).wr k bs).dropUnp u e.lane e.id := by
    unfold State.depart
    rw [he]
  rw [hdep]
  have hmem : (((s.modGrp u fun g => { g with sq := r }).wr k bs).dropUnp u e.lane e.id).mem = memWrite s.mem k bs := (dropUnp_mem _ _ _ _).trans rfl
  have hq : Quiet s (s.modGrp u fun g => { g with sq := r }) := quiet_modGrp _ _ _ fun _ => rfl
  have hstill := still_dropUnp ((s.modGrp u fun g => { g with sq := r }).wr k bs) u e.lane e.id
  refine ⟨fun i b hi => ?_, fun a ha => ?_, fun u' l r' => ?_, fun n => (hstill.eng n).trans (engines_keep hq.keep n), fun c => (hstill.rcd c).trans (hq.rcd c), fun x hx => ?_⟩
  · obtain ⟨hlt, hb⟩ := List.getElem?_eq_some_iff.mp hi
    rw [hmem, memGet_memWrite bs s.mem k (k + i) hm, if_pos ⟨Nat.le_add_right _ _, by omega⟩, Nat.add_sub_cancel_left, List.getD_eq_getElem?_getD, hi]
    rfl
  · rw [hmem, memGet_memWrite bs s.mem k a hm, if_neg (by omega)]
  · rw [reg_dropUnp]
    exact reg_of_keep hq.keep u' l r'
  · rw [thr_dropUnp]
    have hx' : thr? ((s.modGrp u fun g => { g with sq := r }).wr k bs) u e.lane = some x :=
      (show thr? (s.modGrp u fun g => { g with sq := r }) u e.lane = thr? s u e.lane from calm_modGrp s u (fun g => { g with sq := r }) (fun _ => rfl) u e.lane).trans hx
    rw [hx']
    rfl

end

section
/-! SUPPORT. Blocks start, are split off and end (O34). -/

namespace Sys2Proof.Machine

open Sys2Proof.Spec

/-! ## What a dropped region reads as -/

/-- No cell of memory lies in a region. -/
def NoCell (code : Nat) (m : List Host.Cell) : Prop := ∀ c ∈ m, c.1 / 2 ^ 64 ≠ code

theorem NoCell.memGet {code k : Nat} : ∀ {m : List Host.Cell}, NoCell code m → k / 2 ^ 64 = code → memGet m k = unlisted
  | [], _, _ => rfl
  | (a, b) :: m, h, hk => by
    have hne : k ≠ a := fun e => h (a, b) List.mem_cons_self (e ▸ hk)
    have ih : Machine.memGet m k = unlisted := NoCell.memGet (fun c hc => h c (List.mem_cons_of_mem _ hc)) hk
    rw [Machine.memGet, if_neg hne, ih, ite_self]
theorem NoCell.filter {code : Nat} {m : List Host.Cell} (h : NoCell code m) (p : Host.Cell → Bool) : NoCell code (m.filter p) :=
  fun c hc => h c (List.mem_filter.mp hc).1
theorem noCell_dropRegion (s : State) (code : Nat) : NoCell code (s.dropRegion code).mem := fun c hc => by
  simpa using (List.mem_filter.mp hc).2
/-- A block's shared bytes are gone with its regions. -/
theorem noCell_dropBlockMem (s : State) (b : Block) : NoCell (8 * b.uid + 4) (s.dropBlockMem b).mem :=
  foldl_inv (G := fun _ t => NoCell (8 * b.uid + 4) t.mem) (fun _ _ _ h => NoCell.filter h _) _ (noCell_dropRegion s _)

/-! ## Results -/

theorem assocGet_assocSet {α : Type} (l : List (Nat × α)) (k : Nat) (v d : α) : assocGet (assocSet l k v) k d = v := by
  simp [assocGet, assocSet]
/-- The result of an ended block is settled. -/
theorem blockGone_resOf (g : Grid) (i : Nat) : (g.blockGone i).resOf i ≠ .pending := by
  unfold Grid.blockGone
  by_cases h : g.resOf i = .pending
  · simp only [if_pos h]
    exact (assocGet_assocSet g.results i .ended .pending).trans_ne (by simp)
  · simp only [if_neg h]
    exact h
theorem mem_of_grid? {s : State} {n : Nat} {g : Grid} (h : s.grid? n = some g) : g ∈ s.grids ∧ g.id = n :=
  ⟨List.mem_of_find?_eq_some h, by simpa using List.find?_some h⟩
theorem cbarsCheck_grids (s : State) (g c : Nat) : (s.cbarsCheck g c).grids = s.grids :=
  (congrArg State.grids (quiet_cbarsCheck s g c).rest :)

/-! ## The end of a block -/

/-- A finished grid leaves with its last block. -/
def State.gridLeaves (s : State) (grid : Nat) : State :=
  match s.grid? grid with
  | some g => if g.fin && s.gridDone g then { s with grids := s.grids.filter (·.id != g.id) } else s
  | none => s
/-- The state in which a block that is over is gone. -/
def State.blockLeft (s : State) (b : Block) (g : Grid) : State :=
  let t := if g.resOf b.idx = .pending then s.grtState g b.idx 3 else s
  let t := { t.dropBlockMem b with blocks := t.blocks.filter (·.uid != b.uid) }
  (t.modGrid b.grid (·.blockGone b.idx)).cbarsCheck b.grid b.cluster

theorem gridLeaves_blocks (s : State) (n : Nat) : (s.gridLeaves n).blocks = s.blocks := by
  unfold State.gridLeaves
  split
  · split <;> rfl
  · rfl
theorem gridLeaves_mem (s : State) (n : Nat) : (s.gridLeaves n).mem = s.mem := by
  unfold State.gridLeaves
  split
  · split <;> rfl
  · rfl
theorem gridLeaves_mem_grids {s : State} {n : Nat} {g : Grid} (h : g ∈ (s.gridLeaves n).grids) : g ∈ s.grids := by
  unfold State.gridLeaves at h
  split at h
  · split at h
    · exact (List.mem_filter.mp h).1
    · exact h
  · exact h
theorem blockLeft_blk? (s : State) (b : Block) (g : Grid) : (s.blockLeft b g).blk? b.uid = none := by
  refine Option.map_eq_none_iff.mp ((blk_keep (quiet_cbarsCheck _ _ _).keep b.uid).trans (Option.map_eq_none_iff.mpr ?_))
  refine List.find?_eq_none.mpr fun x hx => ?_
  have hne : (x.uid != b.uid) = true := (List.mem_filter.mp hx).2
  simpa using hne
theorem blockLeft_mem (s : State) (b : Block) (g : Grid) : NoCell (8 * b.uid + 4) (s.blockLeft b g).mem := by
  unfold State.blockLeft
  rw [(quiet_cbarsCheck _ _ _).mem]
  exact noCell_dropBlockMem _ b
/-- The grid of a block that is gone has the block's result. -/
theorem blockLeft_resOf {s : State} {b : Block} {g x : Grid} (h : x ∈ (s.blockLeft b g).grids) (hx : x.id = b.grid) : x.resOf b.idx ≠ .pending := by
  unfold State.blockLeft at h
  rw [cbarsCheck_grids] at h
  obtain ⟨y, -, rfl⟩ := List.mem_map.mp h
  by_cases hy : y.id = b.grid
  · rw [if_pos hy]
    exact blockGone_resOf y b.idx
  · rw [if_neg hy] at hx
    exact absurd hx hy
theorem exec_blockEnd {s : State} {blk : Nat} {b : Block} {g : Grid} (hb : s.blk? blk = some b) (hg : s.grid? b.grid = some g)
    (hm : s.mayEnd b.ctx = true) (hc : b.onCore = true) (ho : b.over = true) :
    exec (.blockEnd blk) s = .next ((s.blockLeft b g).gridLeaves b.grid) := by
  obtain rfl : b.uid = blk := uid_of_blk hb
  refine runEvent_ok ?_
  simp only [act_bind, act_get, act_someA, act_needA, hb, hg, hm, hc, ho, Bool.and_self, if_true, act_set]
  unfold State.gridLeaves State.blockLeft
  rfl

end Sys2Proof.Machine
end

section
/-! SETTLED. Blocks start, are split off and end. -/
open Sys2Proof Sys2Proof.Machine Sys2Proof.Spec

/-- An idle core's request splits off the upper half, or takes an unowned record. -/
theorem admitRange_given {grid core lo hi grain : Nat} {g : Grid} {s t : State} (h : givenTo grid core lo hi grain g s t) :
    admitRange grid core g.created (s.newRange grid lo hi grain) = .ok ((), t) := by
  obtain ⟨g', u, hg, hu, rfl⟩ := h
  unfold admitRange
  simp only [act_bind, act_get, act_someA, hg, hu, act_set]
  rfl

/-- Settles O34: each start is the model's own admission under its conditions; an ended block is filtered out with its regions, its grid keeping its result. -/
theorem blockEventsComplete : Obligations.BlockEventsComplete := by
  unfold Obligations.BlockEventsComplete
  refine ⟨fun s t grid g hg hm => ⟨fun p n hk hp hn => ?_, fun hw => ⟨fun hk hl ht => ?_, fun r hk hr ht => ?_, fun core hk hwt hl hc => ⟨fun r hr ht => ?_, fun r hr ho hn => ?_⟩⟩⟩,
    fun s blk b g hb hg hm hc ho => ?_⟩
  · refine runEvent_ok ?_
    simp only [act_bind, act_get, act_someA, act_needA, hg, hm, hk, hp, hn, act_set, beq_self_eq_true, Bool.true_or, Bool.and_self, if_true, Option.getD_some]
  · refine runEvent_ok ?_
    simp only [act_bind, act_get, act_someA, act_needA, hg, hm, hk, hw, Bool.not_false, Bool.or_true, Bool.and_self, if_true, hl, decide_true]
    unfold stageIds at ht
    simp only [ht]
    rfl
  · refine runEvent_ok ?_
    simp only [act_bind, act_get, act_someA, act_needA, hg, hm, hk, hw, Bool.not_false, Bool.or_true, Bool.and_self, if_true, hr, ht]
    rfl
  · refine runEvent_ok ?_
    simp only [act_bind, act_get, act_someA, act_needA, hg, hm, hk, hw, hwt, hl, List.contains_iff_mem.mpr hc, Bool.not_false, beq_self_eq_true,
      decide_true, Bool.and_self, if_true, hr, act_set, admitRange_given ht]
  · intro m ht
    refine runEvent_ok ?_
    simp only [act_bind, act_get, act_someA, act_needA, hg, hm, hk, hw, hwt, hl, List.contains_iff_mem.mpr hc, Bool.not_false, beq_self_eq_true,
      decide_true, Bool.and_self, if_true, hr, ho, hn, act_set]
    exact admitRange_given ht
  · obtain rfl : b.uid = blk := uid_of_blk hb
    refine ⟨_, exec_blockEnd hb hg hm hc ho, ?_, fun x hx => ?_, fun k hk => ?_⟩
    · exact (congrArg (List.find? fun x : Block => x.uid == b.uid) (gridLeaves_blocks _ _)).trans (blockLeft_blk? s b g)
    · obtain ⟨hx, hid⟩ := mem_of_grid? hx
      exact blockLeft_resOf (gridLeaves_mem_grids hx) hid
    · rw [gridLeaves_mem]
      exact (blockLeft_mem s b g).memGet hk

end

section
/-! SUPPORT. Whole-block benches (O35): a frame looks at nothing that taking a place of the bench area changes, and what the bench leaves. -/

namespace Sys2Proof.Machine

open Sys2Proof.Spec

theorem SeesAlike.devRead {s t : State} (h : SeesAlike s t) (c va n : Nat) (tiers : List Nat) : t.devRead c va n tiers = s.devRead c va n tiers := by
  unfold State.devRead State.rdRuns State.rd
  simp only [h.engRange, h.mem]
/-- A block's frame looks at memory, translations, cluster barriers and where evicted groups' images are reached. -/
theorem SeesAlike.blockFrame {s t : State} (h : SeesAlike s t) (hv : ∀ c, (t.ctxD c).via = (s.ctxD c).via) (hc : t.cbars = s.cbars) (b : Block) (va : Nat) :
    t.blockFrame b va = s.blockFrame b va := by
  have hg : ∀ gi, t.grpFrameBytes b gi va = s.grpFrameBytes b gi va := fun gi => by
    unfold State.grpFrameBytes State.rd
    simp only [h.devRead, h.mem, hv]
  unfold State.blockFrame State.rd
  simp only [hg, h.mem, hc]

/-- A place of the bench area taken. -/
def takePlace (s : State) (ctx : Nat) (f : Nat × Nat) : State := s.modCtx ctx fun c => { c with frames := c.frames ++ [f] }
theorem benchAlloc_some {s s1 : State} {ctx n va : Nat} (h : s.benchAlloc ctx n = some (va, s1)) : ∃ f, s1 = takePlace s ctx f := by
  rw [benchAlloc_eq] at h
  obtain ⟨o, -, ho⟩ := Option.map_eq_some_iff.mp h
  exact ⟨(o, n), (congrArg Prod.snd ho).symm⟩
theorem quiet_takePlace (s : State) (ctx : Nat) (f : Nat × Nat) : Quiet s (takePlace s ctx f) := quiet_modCtx s ctx _ (fun _ => rfl) fun _ => rfl
theorem sees_takePlace (s : State) (ctx : Nat) (f : Nat × Nat) : SeesAlike s (takePlace s ctx f) :=
  seesAlike_of_quiet (quiet_takePlace s ctx f) fun k => by
    unfold State.coreD takePlace
    rw [modCtx_cores]
theorem via_takePlace (s : State) (ctx : Nat) (f : Nat × Nat) (c : Nat) : ((takePlace s ctx f).ctxD c).via = (s.ctxD c).via := by
  unfold takePlace
  rw [ctxD_modCtx s ctx c (fun c => { c with frames := c.frames ++ [f] }) fun _ => rfl]
  split
  · rename_i h
    rw [h]
  · rfl

/-- The block's units are off its core's schedulers. -/
def clearBlk (blk : Nat) (c : Core) : Core := { c with cur := c.cur.map fun o => if o.elim false (·.blk == blk) then none else o }
theorem cur_clearedBlk (s : State) (n blk k : Nat) (x : UnitRef) (h : ((s.modCore n (clearBlk blk)).coreD n).cur[k]? = some (some x)) : x.blk ≠ blk := by
  unfold State.coreD State.modCore at h
  rw [List.getElem?_modify] at h
  cases hc : s.cores[n]? with
  | none =>
    rw [hc] at h
    rcases k with _ | _ | _ | _ | _ | k <;> simp [Core.init] at h
  | some c =>
    rw [hc] at h
    simp only [if_true, Option.map_eq_map, Option.map_some, Option.getD_some, clearBlk, List.getElem?_map] at h
    obtain ⟨o, -, ho⟩ := Option.map_eq_some_iff.mp h
    split at ho
    · cases ho
    · rename_i hne
      subst ho
      simpa using hne

theorem takeRegions_eq (s : State) (f : Nat → Nat) : ∀ (l : List Nat) (m : List Host.Cell),
    ∃ m', l.foldl (fun s g => s.takeRegion (f g)) { s with mem := m } = { s with mem := m' }
  | [], m => ⟨m, rfl⟩
  | _ :: l, _ => takeRegions_eq s f l _
theorem takeBlockMem_eq (s : State) (b : Block) : ∃ m, s.takeBlockMem b = { s with mem := m } := takeRegions_eq s _ _ _
theorem takeBlockMem_blocks (s : State) (b : Block) : (s.takeBlockMem b).blocks = s.blocks := by
  obtain ⟨m, h⟩ := takeBlockMem_eq s b
  rw [h]
theorem takeBlockMem_grids (s : State) (b : Block) : (s.takeBlockMem b).grids = s.grids := by
  obtain ⟨m, h⟩ := takeBlockMem_eq s b
  rw [h]
theorem takeBlockMem_cores (s : State) (b : Block) : (s.takeBlockMem b).cores = s.cores := by
  obtain ⟨m, h⟩ := takeBlockMem_eq s b
  rw [h]
theorem devWrite_grids (s : State) (c va : Nat) (bs : List Byte) : (s.devWrite c va bs).grids = s.grids := by
  obtain ⟨m, g, p, e, h⟩ := devWrite_eq s c va bs
  rw [h]
theorem devWrite_cores (s : State) (c va : Nat) (bs : List Byte) : (s.devWrite c va bs).cores = s.cores := by
  obtain ⟨m, g, p, e, h⟩ := devWrite_eq s c va bs
  rw [h]
/-- Regions are taken from memory alone. -/
theorem takeBlockMem_mem {s t : State} (b : Block) (h : t.mem = s.mem) : (t.takeBlockMem b).mem = (s.takeBlockMem b).mem := by
  have go : ∀ (l : List Nat) (x y : State), y.mem = x.mem →
      (l.foldl (fun s g => s.takeRegion (8 * (32 * b.uid + g) + 5)) y).mem = (l.foldl (fun s g => s.takeRegion (8 * (32 * b.uid + g) + 5)) x).mem := by
    intro l
    induction l with
    | nil => exact fun _ _ h => h
    | cons g l ih => exact fun x y h => ih _ _ (congrArg (List.filter _) h)
  exact go _ _ _ (congrArg (List.filter _) h)

/-- The block is on the bench: its frame written, its bytes and its units off the core. -/
def benchBlk (s : State) (blk : Nat) (b : Block) (va : Nat) : State :=
  ((((s.devWrite b.ctx va (s.blockFrame b va)).bump b.ctx 7 (b.groups.filter (·.onCore)).length).modCore b.core (clearBlk blk)).takeBlockMem b)
theorem benchBlk_blocks (s : State) (blk : Nat) (b : Block) (va : Nat) : (benchBlk s blk b va).blocks = s.blocks := by
  unfold benchBlk State.bump
  rw [takeBlockMem_blocks, modCore_blocks, modCtx_blocks, devWrite_blocks]
theorem benchBlk_grids (s : State) (blk : Nat) (b : Block) (va : Nat) : (benchBlk s blk b va).grids = s.grids := by
  unfold benchBlk State.bump
  rw [takeBlockMem_grids, modCore_grids, modCtx_grids, devWrite_grids]
theorem benchBlk_cores (s : State) (blk : Nat) (b : Block) (va : Nat) : (benchBlk s blk b va).cores = (s.modCore b.core (clearBlk blk)).cores := by
  unfold benchBlk State.bump
  rw [takeBlockMem_cores]
  unfold State.modCore
  dsimp only
  rw [modCtx_cores, devWrite_cores]
theorem benchBlk_mem (s : State) (blk : Nat) (b : Block) (va : Nat) : (benchBlk s blk b va).mem = ((s.devWrite b.ctx va (s.blockFrame b va)).takeBlockMem b).mem := by
  unfold benchBlk State.bump
  refine takeBlockMem_mem b ?_
  rw [modCore_mem, modCtx_mem]
/-- The grid that an update of one grid leaves. -/
theorem grid_modGrid {s : State} {n : Nat} {g : Grid} (f : Grid → Grid) (hf : ∀ g, (f g).id = g.id) (h : s.grid? n = some g) : (s.modGrid n f).grid? n = some (f g) := by
  have hid : g.id = n := (mem_of_grid? h).2
  unfold State.grid? State.modGrid
  have hc : ((fun g : Grid => g.id == n) ∘ fun g : Grid => if g.id = n then f g else g) = fun g => g.id == n := by
    funext x
    simp only [Function.comp]
    split
    · rw [hf]
    · rfl
  rw [List.find?_map, hc, show s.grids.find? (fun g => g.id == n) = some g from h, Option.map_some, if_pos hid]
/-- The block that an update of it leaves. -/
theorem blk_modBlk_self {s : State} {n : Nat} {b : Block} (f : Block → Block) (hf : ∀ b, (f b).uid = b.uid) (h : s.blk? n = some b) : (s.modBlk n f).blk? n = some (f b) := by
  rw [blk_modBlk s n n f hf, if_pos rfl, h, Option.map_some]
theorem someA_ok {α : Type} {x : Option α} {a : α} {e : Stop} {s : State} (h : x = some a) : someA x e s = .ok (a, s) := by
  rw [act_someA, h]
theorem promote_id (g : Grid) (i : Nat) : (g.promote i).id = g.id := by
  unfold Grid.promote
  split <;> rfl

end Sys2Proof.Machine
end

section
/-! SETTLED. Blocks and groups are benched and return; the wait and hold limits. -/
open Sys2Proof Sys2Proof.Machine Sys2Proof.Spec

section
variable {s : State} {blk : Nat} {b : Block} {g : Grid}

/-- A block that stops is quiet: its engines are done, no split runs, nothing is on its way. -/
def Quieted (s : State) (b : Block) : Prop :=
  ∀ x ∈ b.units, ∀ y, b.grp? x = some y → (x.isFront = true ∨ y.runs = 0) ∧ y.isLeaving = false ∧ s.drained x y = true
theorem units_quiet (h : Quieted s b) : (b.units.all fun u => (b.grp? u).elim true fun x => (u.isFront || x.runs == 0) && !x.isLeaving && s.drained u x) = true := by
  refine List.all_eq_true.mpr fun x hx => ?_
  cases hy : b.grp? x with
  | none => rfl
  | some y =>
    obtain ⟨h1, h2, h3⟩ := h x hx y hy
    simpa [h2, h3] using h1

variable (hr : Runs s blk b g)
include hr
theorem exec_benchDelay_starts {u : UnitRef} {t : Nat} (hb : b.bench = .none) (hw : b.waiter (s.cycleOf b.core).toNat (s.ctxD b.ctx).bdly (s.notAdmitted g) = some (u, t)) :
    exec (.gwaitBenchDelayExpiry blk) s = .next (s.modBlk blk fun b => { b with bench := .stopping t u }) := by
  obtain ⟨hk, hg, hm⟩ := hr
  refine runEvent_ok ?_
  simp only [act_bind, act_get, act_someA, act_needA, hk, hg, hm, if_true, hb, hw]
  rfl
theorem exec_benchDelay_admitted {u : UnitRef} {t : Nat} (hb : b.bench = .stopping t u) (hn : s.notAdmitted g t = false) :
    exec (.gwaitBenchDelayExpiry blk) s = .next (s.modBlk blk fun b => { b with bench := .none }) := by
  obtain ⟨hk, hg, hm⟩ := hr
  refine runEvent_ok ?_
  simp only [act_bind, act_get, act_someA, act_needA, hk, hg, hm, if_true, hb, hn]
  rfl
variable {u : UnitRef} {t : Nat} (hb : b.bench = .stopping t u) (hn : s.notAdmitted g t = true) (he : b.enginesDone = true) (hq : Quieted s b)
include hb hn he hq
theorem exec_benchDelay_full (ha : s.benchAlloc b.ctx b.frameSize = none) :
    exec (.gwaitBenchDelayExpiry blk) s = .next (s.modBlk blk fun b => { b with bench := .none }) := by
  obtain ⟨hk, hg, hm⟩ := hr
  refine runEvent_ok ?_
  simp only [act_bind, act_get, act_someA, act_needA, hk, hg, hm, if_true, hb, hn, he, units_quiet hq, ha]
  rfl
theorem exec_benchDelay_benched {va : Nat} {s1 : State} (ha : s.benchAlloc b.ctx b.frameSize = some (va, s1)) :
    exec (.gwaitBenchDelayExpiry blk) s =
      .next (((benchBlk s1 blk b va).modBlk blk fun b => { b with bench := .out (BitVec.ofNat 56 va) t u }).modGrid b.grid (·.promote t)) := by
  obtain ⟨hk, hg, hm⟩ := hr
  refine runEvent_ok ?_
  simp only [act_bind, act_get, act_someA, act_needA, hk, hg, hm, if_true, hb, hn, he, units_quiet hq, ha]
  rfl
end

/-- Settles O35: each clause is the event under its conditions; a bench's frame is that of the state before its place is taken. -/
theorem benchEventsComplete : Obligations.BenchEventsComplete := by
  unfold Obligations.BenchEventsComplete
  refine ⟨fun s blk b g hr => ⟨fun u t hb hw => exec_benchDelay_starts hr hb hw, fun u t va s1 hb hu hn he hq => ⟨fun ha => exec_benchDelay_full hr hb hn he hq ha, fun ha => ?_⟩,
    fun u t hb hn => exec_benchDelay_admitted hr hb hn, fun va t u s' c p bs hb hres hsh hp hrd => ?_⟩, fun s u b g hb hg hm => ?_, fun s blk gi cause b g va p bs hb hg hm hc hf hst hp hby hrd => ?_⟩
  · have hs := benchAlloc_some ha
    obtain ⟨f, rfl⟩ := hs
    have ⟨hk, hg, _⟩ := hr
    have hsee := sees_takePlace s b.ctx f
    have hfr := hsee.blockFrame (via_takePlace s b.ctx f) (modCtx_cbars _ _ _) b va
    refine ⟨_, exec_benchDelay_benched hr hb hn he hq ha, ?_, ?_, fun k x hx => ?_, ?_⟩
    · have hb1 : (benchBlk (takePlace s b.ctx f) blk b va).blk? blk = some b := by
        unfold State.blk?
        rw [benchBlk_blocks, takePlace, modCtx_blocks]
        exact hk
      exact congrArg (Option.map (·.bench)) (blk_modBlk_self (fun b => { b with bench := .out (BitVec.ofNat 56 va) t u }) (fun _ => rfl) hb1)
    · have hg1 : ((benchBlk (takePlace s b.ctx f) blk b va).modBlk blk fun b => { b with bench := .out (BitVec.ofNat 56 va) t u }).grid? b.grid = some g := by
        unfold State.grid? State.modBlk
        dsimp only
        rw [benchBlk_grids, takePlace, modCtx_grids]
        exact hg
      rw [grid_modGrid _ (fun g => promote_id g t) hg1]
      rfl
    · refine cur_clearedBlk (takePlace s b.ctx f) b.core blk k x ?_
      unfold State.coreD at hx ⊢
      rw [← benchBlk_cores _ _ b va]
      exact hx
    · refine (benchBlk_mem _ _ _ _).trans (takeBlockMem_mem b ?_)
      rw [hfr]
      exact hsee.devWrite b.ctx va _
  · obtain ⟨hk, hg, hm⟩ := hr
    have hsh' : (!b.shelf || decide (s.shelvesUsed g < g.shelves)) = true := by
      cases h : b.shelf
      · rfl
      · exact decide_eq_true (hsh h)
    refine runEvent_ok ?_
    simp only [act_bind, act_get, act_someA, act_needA, hk, hg, hm, if_true, hb, bne_iff_ne.mpr hres, hsh', Bool.and_self, hp, hrd, act_set]
  · intro now
    refine ⟨fun w hw => ?_, ?_⟩
    · refine runEvent_ok ((act_bind_ok (act_get s)).trans ((act_bind_ok (someA_ok hb)).trans ((act_bind_ok (someA_ok hg)).trans ((act_bind_ok (someA_ok hw)).trans ?_))))
      simp only [act_bind, act_needA, hm, if_true, act_set]
      rfl
    · intro due w hw hc hroom
      refine runEvent_ok ((act_bind_ok (act_get s)).trans ((act_bind_ok (someA_ok hb)).trans ((act_bind_ok (someA_ok hg)).trans ((act_bind_ok (someA_ok hw)).trans ?_))))
      simp only [act_bind, act_needA, hc, hm, hroom, Bool.and_self, if_true, act_set]
      rfl
  · intro s1
    have hby' : (cause != 0 || decide (s.bytesUsed b.core + alignUp b.spill 128 ≤ 2 ^ 19)) = true := by
      by_cases h : cause = 0
      · exact Bool.or_eq_true_iff.mpr (.inr (decide_eq_true (hby h)))
      · exact Bool.or_eq_true_iff.mpr (.inl (bne_iff_ne.mpr h))
    refine runEvent_ok ?_
    simp only [act_bind, act_get, act_someA, act_needA, hb, hg, hm, hc, hf, hst, hp, hby', hrd, Bool.and_self, if_true, beq_self_eq_true, act_set]
    rfl
end

section
/-! SUPPORT. A landed copy line (O37), and two blocks of one number whose copies differ (O36). -/

namespace Sys2Proof.Machine

open Sys2Proof.Spec

theorem engBlock_ok {blk : Nat} {s : State} {b : Block} (h : Works s blk b) : engBlock blk s = .ok (b, s) := by
  obtain ⟨hb, hr⟩ := h
  unfold engBlock
  simp only [act_bind, act_get, act_someA, hb, act_needA, hr, if_true, act_pure]

/-! ## A landed line -/

section
variable (s : State) (blk ctx no : Nat) (f : CopyOp → CopyOp)

/-- What an update of a copy does to its block. -/
def copyUpd (b : Block) : Block := { b with copies := b.copies.modify ctx fun c => { c with ops := updFirst (·.no == no) f c.ops } }
/-- A change of a copy touches no thread and no line. -/
theorem calm_modOp : Calm s (modOp blk ctx no f s) := calm_modBlk s blk (copyUpd ctx no f) fun _ => rfl
theorem modOp_absent {b : Block} (h : s.blk? blk = some b) : ((modOp blk ctx no f s).blk? blk).map (·.absent) = some b.absent :=
  congrArg (Option.map (·.absent)) (blk_modBlk_self (copyUpd ctx no f) (fun _ => rfl) h)
end

/-- A line of a CPY written and present. -/
def landLine (s : State) (blk ctx no line : Nat) (o : CopyOp) (h : Landing) : State :=
  modOp blk ctx no (fun o => { o with hand := o.hand.filter (·.line != line), landed := o.landed + 1 })
    ((s.wrPsn (kShared blk (o.ofs + 128 * line)) h.bytes h.psn).modBlk blk (·.setLine (o.ofs / 128 + line)))
section
variable {s : State} {blk ctx no line : Nat} {b : Block} {c : CopyCtx} {o : CopyOp} {h : Landing} (hc : CopyAt s blk ctx no b c o) (hk : o.kind = .cpy) (hb : o.bad = false) (hh : o.hand.find? (·.line == line) = some h)
include hc hk hb hh
theorem exec_copyLineLanding_plain (hbb : o.bb = none) : exec (.copyLineLanding blk ctx no line) s = .next (landLine s blk ctx no line o h) := by
  obtain ⟨hw, hcx, hop⟩ := hc
  refine runEvent_ok ((act_bind_ok (engBlock_ok hw)).trans ?_)
  simp only [act_bind, act_someA, hcx, hop, act_needA, hk, hb, Bool.not_false, beq_self_eq_true, Bool.and_self, if_true, hh, act_modA, hbb, act_pure]
  rfl
end

/-! ## Two blocks of one number -/

section
open Sys2Proof.Tests.Slice0

/-- A copy of 128 bytes from a record, or from none. -/
def twinOp (r : Option TRec) : CopyOp := { copyOp 0 none [] with src := r }
/-- Two blocks of one number, whose copies of one number move elements of 1 byte and of 4. -/
def twinLab : State :=
  let s := copyEvLab (twinOp none)
  { s with blocks := s.blocks ++ (copyEvLab (twinOp (some (trecOf trecBytes)))).blocks }
/-- Pieces to move of the second block's copies. -/
def twinTodo (s : State) : Nat := (s.blocks[1]?).elim 0 fun b => (b.copies.flatMap fun c => c.ops.flatMap (·.todo)).length
/-- The translated tile as the statement has it: each copy that is changed takes its pieces by its own element size. -/
def twinNext (o : CopyOp) : State :=
  modOp 0 0 1 (fun x => { x with walked := x.walked + 1, todo := x.todo ++ CopyOp.pieces x.walked x.esize (o.span o.walked o.esize).2 [] [] })
    (twinLab.askPages (.copy 0 0 1) [])
/-- The tile of the first block's copy is due, and it is alone in its context. -/
def twinDue (c : CopyCtx) (o : CopyOp) : Bool :=
  twinLab.preDone o.pre && !o.bad && o.fault == .none && decide (o.walked < o.tiles) && decide (o.walked ≤ o.floor + 8) && c.ops.all (fun e => decide (o.no ≤ e.no)) &&
    c.ops.all (fun e => e.src == none && e.dst == none) && o.todo == [] && o.hand == []
theorem twin_due : ∃ b c o, CopyAt twinLab 0 0 1 b c o ∧ (twinDue c o && twinTodo (after (exec (.copyTile 0 0 (.next 1)) twinLab)) != twinTodo (twinNext o)) = true :=
  copyAtB_ok (by decide +kernel)
/-- A copy without records touches no page. -/
theorem copyOrd_none {s : State} {b : Block} {o : CopyOp} (h : o.src = none ∧ o.dst = none) : s.copyOrd b o = false := by
  unfold State.copyOrd
  rw [h.1, h.2]
  rfl
end

end Sys2Proof.Machine
end

section
/-! SETTLED. Copy tiles; a landed line. -/
open Sys2Proof Sys2Proof.Machine Sys2Proof.Spec

/-- Refutes O36: the statement lets every changed copy take its pieces by its own element size, the model by that of the copy translated; in a state
with two blocks of one number, which the statement does not exclude, the second block's copy takes 4 pieces there and 1 in the model. -/
theorem not_copyEventsComplete : ¬ Obligations.CopyEventsComplete := by
  unfold Obligations.CopyEventsComplete
  intro h
  obtain ⟨b, c, o, hc, hp⟩ := twin_due
  simp only [twinDue, Bool.and_eq_true, beq_iff_eq, decide_eq_true_eq, List.all_eq_true, bne_iff_ne, ne_eq, Bool.not_eq_true'] at hp
  obtain ⟨⟨⟨⟨⟨⟨⟨⟨⟨hpre, hbad⟩, hfault⟩, hmore⟩, hnear⟩, hno⟩, hrec⟩, htodo⟩, hhand⟩, hne⟩ := hp
  have ho := hrec o (List.mem_of_find?_eq_some hc.2.2)
  have hstep := (((h _ 0 0 1 b c o hc hpre).2 hbad).1 hfault hmore hnear (fun e he _ => copyOrd_none (hrec e he)) fun _ => ⟨hno, htodo, hhand⟩).1 [] [] (by rw [ho.1]) (by rw [ho.2])
  exact hne (congrArg (fun x => twinTodo (Tests.Slice0.after x)) hstep)

/-- Settles O37: the line's state is that of its write with its presence bit set, which no thread is touched by. -/
theorem landedLineIsPresent : Obligations.LandedLineIsPresent := by
  unfold Obligations.LandedLineIsPresent
  intro s t blk ctx no line b c o h hm hc hk hb hh hbb ht
  obtain rfl : landLine s blk ctx no line o h = t := by
    have := (exec_copyLineLanding_plain hc hk hb hh hbb).symm.trans ht
    injection this
  have hmem : (landLine s blk ctx no line o h).mem = memWrite s.mem (kShared blk (o.ofs + 128 * line)) h.bytes := rfl
  refine ⟨fun i x hi => ?_, fun a ha => ?_, ?_, fun u l r => ?_⟩
  · have hlt := (List.getElem?_eq_some_iff.mp hi).1
    rw [hmem, memGet_memWrite _ _ _ _ hm, if_pos ⟨Nat.le_add_right _ _, by omega⟩, Nat.add_sub_cancel_left, List.getD_eq_getElem?_getD, hi]
    rfl
  · rw [hmem, memGet_memWrite _ _ _ _ hm, if_neg (by omega)]
  · unfold landLine
    have h1 : (s.wrPsn (kShared blk (o.ofs + 128 * line)) h.bytes h.psn).blk? blk = some b := hc.1.1
    exact modOp_absent _ blk ctx no _ (blk_modBlk_self (·.setLine (o.ofs / 128 + line)) (fun _ => rfl) h1)
  · have hcalm : Calm s (landLine s blk ctx no line o h) :=
      (calm_modBlk (s.wrPsn (kShared blk (o.ofs + 128 * line)) h.bytes h.psn) blk (·.setLine (o.ofs / 128 + line)) fun _ => rfl).trans (calm_modOp _ blk ctx no _)
    rw [reg_eq, reg_eq, hcalm u l]

end

section
/-! SUPPORT. The accumulator store: what a row reads after a row is written (O38). -/

namespace Sys2Proof.Machine

open Sys2Proof.Spec

/-! ## Words and their poison -/

theorem leNat_leBytes : ∀ n x : Nat, leNat (leBytes n x) = x % 2 ^ (8 * n)
  | 0, x => by simp [leNat, leBytes, Nat.mod_one]
  | n + 1, x => by
    rw [leBytes, leNat, leNat_leBytes n (x / 256), BitVec.toNat_ofNat, Nat.mul_succ, Nat.add_comm (8 * n) 8, Nat.pow_add]
    exact (Nat.mod_mul (x := x) (a := 2 ^ 8) (b := 2 ^ (8 * n))).symm
theorem insRise_any (k : Nat) (p : Nat → Bool) : ∀ l : List Nat, (insRise k l).any p = (p k || l.any p)
  | [] => rfl
  | a :: l => by
    unfold insRise
    split
    · rfl
    · split
      · rename_i h
        rw [h, List.any_cons, ← Bool.or_assoc, Bool.or_self]
      · rw [List.any_cons, insRise_any k p l, List.any_cons, ← Bool.or_assoc, ← Bool.or_assoc, Bool.or_comm (p a)]
/-- Marking a word poisons the reads that touch it. -/
theorem psnAt_markWord (s : State) (a k n : Nat) :
    (s.markWord a).psnAt k n = (decide (4 * (a / 4) < k + n ∧ k < 4 * (a / 4) + 4) || s.psnAt k n) := by
  unfold State.psnAt State.markWord
  dsimp only
  rw [insRise_any]
  cases decide (4 * (a / 4) < k + n ∧ k < 4 * (a / 4) + 4) <;> simp
/-- Marking words that lie on word boundaries, seen by one such word. -/
theorem psnAt_markWords {α : Type} (f : α → Nat) (hf : ∀ x, f x % 4 = 0) {k : Nat} (hk : k % 4 = 0) : ∀ (l : List α) (s : State),
    (l.foldl (fun s x => s.markWord (f x)) s).psnAt k 4 = (l.any (fun x => k == f x) || s.psnAt k 4)
  | [], _ => rfl
  | x :: l, s => by
    have hx := hf x
    have h1 : decide (4 * (f x / 4) < k + 4 ∧ k < 4 * (f x / 4) + 4) = (k == f x) := by
      rw [Bool.eq_iff_iff, decide_eq_true_eq, beq_iff_eq]
      omega
    rw [List.foldl_cons, psnAt_markWords f hf hk l, psnAt_markWord, h1, List.any_cons, ← Bool.or_assoc, Bool.or_comm (l.any _)]
/-- A write takes no error from what it does not touch. -/
theorem psnAt_wr_apart (s : State) (k : Nat) (bs : List Byte) {j n : Nat} (h : j + n ≤ k ∨ k + bs.length ≤ j) : (s.wr k bs).psnAt j n = s.psnAt j n := by
  unfold State.psnAt State.wr
  dsimp only
  rw [List.any_filter, List.any_filter, List.any_filter]
  congr 1
  congr 1
  · congr 1
    funext g
    rw [Bool.eq_iff_iff, Bool.and_eq_true, Bool.not_eq_true', decide_eq_false_iff_not, decide_eq_true_eq]
    omega
  all_goals
    congr 1
    funext g
    rw [Bool.eq_iff_iff, Bool.and_eq_true, Bool.not_eq_true', decide_eq_false_iff_not, decide_eq_true_eq]
    omega
/-- A write of whole granules takes every error under it. -/
theorem psnAt_wr_inside (s : State) {k : Nat} {bs : List Byte} {j n : Nat} (hk : k % 8 = 0) (hl : bs.length % 8 = 0) (h : k ≤ j ∧ j + n ≤ k + bs.length) :
    (s.wr k bs).psnAt j n = false := by
  unfold State.psnAt State.wr
  dsimp only
  rw [List.any_filter, List.any_filter, List.any_filter, Bool.or_eq_false_iff, Bool.or_eq_false_iff]
  refine ⟨⟨?_, ?_⟩, ?_⟩
  all_goals
    refine all_false_any fun g _ => ?_
    rw [Bool.and_eq_false_iff, Bool.not_eq_false', decide_eq_true_eq, decide_eq_false_iff_not]
    omega

/-! ## Rows -/

/-- The bytes of a row's words. -/
def rowBytes (ws : List PWord) : List Byte := ws.flatMap fun w => leBytes 4 w.v.toNat
theorem rowBytes_length (ws : List PWord) : (rowBytes ws).length = 4 * ws.length := length_flatMap_const (fun w : PWord => leBytes 4 w.v.toNat) 4 (fun w => leBytes_length 4 w.v.toNat) ws
theorem rowBytes_word : ∀ (ws : List PWord) (n : Nat) (w : PWord), ws[n]? = some w → ((rowBytes ws).drop (4 * n)).take 4 = leBytes 4 w.v.toNat
  | [], _, _, h => by simp at h
  | x :: ws, 0, w, h => by
    obtain rfl : x = w := by simpa using h
    rw [Nat.mul_zero, List.drop_zero, rowBytes, List.flatMap_cons, List.take_append_of_le_length (by rw [leBytes_length]), List.take_of_length_le (by rw [leBytes_length])]
  | x :: ws, n + 1, w, h => by
    have e : 4 * (n + 1) = (leBytes 4 x.v.toNat).length + 4 * n := by rw [leBytes_length]; omega
    rw [rowBytes, List.flatMap_cons, e, List.drop_append, List.drop_eq_nil_of_le (by omega), List.nil_append, Nat.add_sub_cancel_left]
    exact rowBytes_word ws n w (by simpa using h)
theorem setAccRow_eq (s : State) (c r : Nat) (ws : List PWord) : ∃ p, s.setAccRow c r ws = { s.wr (kAcc c r 0) (rowBytes ws) with wordPsn := p } := by
  have go : ∀ (l : List (PWord × Nat)) (t : State), ∃ p, l.foldl (fun s x => s.markWord (kAcc c r x.2)) t = { t with wordPsn := p } := by
    intro l
    induction l with
    | nil => exact fun t => ⟨_, rfl⟩
    | cons x l ih =>
      intro t
      obtain ⟨p, hp⟩ := ih (t.markWord (kAcc c r x.2))
      exact ⟨p, hp⟩
  exact go _ _
theorem setAccRow_mem (s : State) (c r : Nat) (ws : List PWord) : (s.setAccRow c r ws).mem = memWrite s.mem (kAcc c r 0) (rowBytes ws) := by
  obtain ⟨p, h⟩ := setAccRow_eq s c r ws
  rw [h]
  rfl
theorem setAccRow_psnAt (s : State) (c r : Nat) (ws : List PWord) {k : Nat} (hk : k % 4 = 0) :
    (s.setAccRow c r ws).psnAt k 4 = ((ws.zipIdx.filter (·.1.p)).any (fun x => k == kAcc c r x.2) || (s.wr (kAcc c r 0) (rowBytes ws)).psnAt k 4) :=
  psnAt_markWords (fun x : PWord × Nat => kAcc c r x.2) (fun x => by unfold kAcc region; omega) hk _ _
theorem kAcc_word (c r n : Nat) : kAcc c r n = kAcc c r 0 + 4 * n := by
  unfold kAcc region
  omega
theorem rdWord_ext {s t : State} {k : Nat} (hr : t.rd k 4 = s.rd k 4) (hp : t.psnAt k 4 = s.psnAt k 4) : t.rdWord k = s.rdWord k := by
  unfold State.rdWord
  rw [hr, hp]

theorem memRead_getElem? (m : List Host.Cell) : ∀ (n k j : Nat), (memRead m k n)[j]? = if j < n then some (memGet m (k + j)) else none
  | 0, _, _ => rfl
  | n + 1, k, 0 => by simp [memRead]
  | n + 1, k, j + 1 => by
    rw [memRead, List.getElem?_cons_succ, memRead_getElem? m n (k + 1) j, Nat.add_right_comm, Nat.add_assoc k j 1]
    simp only [Nat.succ_lt_succ_iff]
/-- What part of a write reads as. -/
theorem memRead_within {m : List Host.Cell} (hm : memWf m = true) (k : Nat) (bs : List Byte) {i n : Nat} (h : i + n ≤ bs.length) :
    memRead (memWrite m k bs) (k + i) n = (bs.drop i).take n := by
  refine List.ext_getElem? fun j => ?_
  rw [memRead_getElem?, List.getElem?_take]
  by_cases hj : j < n
  · rw [if_pos hj, if_pos hj, memGet_memWrite bs m k _ hm, if_pos ⟨by omega, by omega⟩, List.getElem?_drop, List.getD_eq_getElem?_getD,
      show k + i + j - k = i + j by omega, List.getElem?_eq_getElem (show i + j < bs.length by omega)]
    rfl
  · rw [if_neg hj, if_neg hj]

/-- A written row reads as its words. -/
theorem accRow_setAccRow_same {s : State} {c r : Nat} {ws : List PWord} (hm : memWf s.mem = true) (hl : ws.length = 128) : (s.setAccRow c r ws).accRow c r = ws := by
  refine List.ext_getElem? fun n => ?_
  unfold State.accRow
  rw [List.getElem?_map]
  by_cases hn : n < 128
  · obtain ⟨w, hw⟩ : ∃ w, ws[n]? = some w := ⟨_, List.getElem?_eq_getElem (by omega)⟩
    rw [List.getElem?_range hn, hw, Option.map_some]
    refine congrArg some ?_
    have hv : (s.setAccRow c r ws).rd (kAcc c r n) 4 = leBytes 4 w.v.toNat := by
      unfold State.rd
      rw [setAccRow_mem, kAcc_word c r n, memRead_within hm _ _ (by rw [rowBytes_length]; omega)]
      exact rowBytes_word ws n w hw
    have hp : (s.setAccRow c r ws).psnAt (kAcc c r n) 4 = w.p := by
      rw [setAccRow_psnAt s c r ws (by unfold kAcc region; omega), psnAt_wr_inside s (by unfold kAcc region; omega) (by rw [rowBytes_length]; omega)
        (by rw [kAcc_word c r n, rowBytes_length]; omega), Bool.or_false, Bool.eq_iff_iff, List.any_eq_true]
      constructor
      · rintro ⟨⟨x, i⟩, hx, hk⟩
        obtain ⟨hx, hxp⟩ := List.mem_filter.mp hx
        have hi : i = n := by
          rw [beq_iff_eq, kAcc_word c r n, kAcc_word c r i] at hk
          omega
        rw [List.mem_zipIdx_iff_getElem?] at hx
        obtain rfl : x = w := Option.some.inj (hx.symm.trans (hi ▸ hw))
        exact hxp
      · intro hwp
        exact ⟨(w, n), List.mem_filter.mpr ⟨List.mem_zipIdx_iff_getElem?.mpr hw, hwp⟩, beq_self_eq_true _⟩
    unfold State.rdWord
    rw [hv, hp, leNat_leBytes, Nat.mod_eq_of_lt w.v.isLt, BitVec.ofNat_toNat, BitVec.setWidth_eq]
  · rw [List.getElem?_eq_none (by simpa using hn), List.getElem?_eq_none (by omega)]
    rfl
/-- Rows lie apart. -/
theorem kAcc_apart {c c' r r' n : Nat} (hr : r < 16384) (hr' : r' < 16384) (hn : n < 128) (h : ¬(c' = c ∧ r' = r)) :
    kAcc c' r' n + 4 ≤ kAcc c r 0 ∨ kAcc c r 0 + 512 ≤ kAcc c' r' n := by
  unfold kAcc region
  omega
/-- A written row leaves every other row. -/
theorem accRow_setAccRow_other {s : State} {c r c' r' : Nat} {ws : List PWord} (hm : memWf s.mem = true) (hl : ws.length = 128)
    (hr : r < 16384) (hr' : r' < 16384) (h : ¬(c' = c ∧ r' = r)) : (s.setAccRow c r ws).accRow c' r' = s.accRow c' r' := by
  unfold State.accRow
  refine List.map_congr_left fun n hn => rdWord_ext ?_ ?_
  all_goals
    have hap := kAcc_apart hr hr' (List.mem_range.mp hn) h
    have hlen : (rowBytes ws).length = 512 := by rw [rowBytes_length, hl]
  · unfold State.rd
    rw [setAccRow_mem]
    refine memRead_congr 4 _ _ _ fun j hj hj' => ?_
    rw [memGet_memWrite _ _ _ _ hm, if_neg (by omega)]
  · rw [setAccRow_psnAt s c r ws (by unfold kAcc region; omega), psnAt_wr_apart s _ _ (by omega), all_false_any fun x hx => ?_, Bool.false_or]
    have hx := List.snd_lt_of_mem_zipIdx (List.mem_filter.mp hx).1
    rw [kAcc_word c r x.2, beq_eq_false_iff_ne]
    omega
theorem accRow_length (s : State) (c r : Nat) : (s.accRow c r).length = 128 := by
  rw [State.accRow, List.length_map, List.length_range]
/-- A row's bytes lie in its core's store. -/
theorem setAccRow_frame {s : State} {c r a : Nat} {ws : List PWord} (hm : memWf s.mem = true) (hl : ws.length = 128) (hr : r < 16384) (ha : a / 2 ^ 64 ≠ 8 * c + 7) :
    memGet (s.setAccRow c r ws).mem a = memGet s.mem a := by
  rw [setAccRow_mem, memGet_memWrite _ _ _ _ hm, if_neg]
  rw [rowBytes_length, hl]
  unfold kAcc region
  omega
theorem setAccRow_wf {s : State} {c r : Nat} {ws : List PWord} (hm : memWf s.mem = true) : memWf (s.setAccRow c r ws).mem = true := by
  rw [setAccRow_mem]
  exact memWrite_wf _ _ _ hm
theorem setAccRow_blocks (s : State) (c r : Nat) (ws : List PWord) : (s.setAccRow c r ws).blocks = s.blocks := by
  obtain ⟨p, h⟩ := setAccRow_eq s c r ws
  rw [h]
  rfl
theorem setAccRow_ctxs (s : State) (c r : Nat) (ws : List PWord) : (s.setAccRow c r ws).ctxs = s.ctxs := by
  obtain ⟨p, h⟩ := setAccRow_eq s c r ws
  rw [h]
  rfl

/-! ## A K-step row by row -/

/-- One row of a K-step: its new entries and their flags, of a row's old ones. -/
def kWrite (core uid row : Nat) (g : Nat → List PWord → List PWord × Flg) (s : State) (i : Nat) : State :=
  (s.setAccRow core (row + i) (g i (s.accRow core (row + i))).1).mStatus uid (g i (s.accRow core (row + i))).2
/-- What the first `j` rows of a K-step leave. -/
structure RowsDone (core row j : Nat) (g : Nat → List PWord → List PWord × Flg) (s t : State) : Prop where
  wf : memWf t.mem = true
  new : ∀ i < j, t.accRow core (row + i) = (g i (s.accRow core (row + i))).1
  old : ∀ c r, r < 16384 → ¬(c = core ∧ row ≤ r ∧ r < row + j) → t.accRow c r = s.accRow c r
  mem : ∀ a, a / 2 ^ 64 ≠ 8 * core + 7 → memGet t.mem a = memGet s.mem a
  ctxs : t.ctxs = s.ctxs
  calm : Calm s t
/-- A change of the array status touches no thread. -/
theorem calm_mStatus (s : State) (uid : Nat) (f : Flg) : Calm s (s.mStatus uid f) :=
  calm_modBlk s uid (fun b => { b with matrix := { b.matrix with status := b.matrix.status ||| f.setWidth 32 } }) fun _ => rfl
/-- A change of a matrix operation touches no thread. -/
theorem calm_modM (s : State) (blk no : Nat) (f : MOp → MOp) : Calm s (modM blk no f s) :=
  calm_modBlk s blk (fun b => { b with matrix := { b.matrix with ops := updFirst (·.no == no) f b.matrix.ops } }) fun _ => rfl
theorem rowsDone_fold {core uid row : Nat} {g : Nat → List PWord → List PWord × Flg} (hg : ∀ i ws, ws.length = 128 → (g i ws).1.length = 128) {s : State} (hm : memWf s.mem = true) :
    ∀ j, row + j ≤ 16384 → RowsDone core row j g s ((List.range j).foldl (kWrite core uid row g) s)
  | 0, _ => ⟨hm, fun _ h => absurd h (Nat.not_lt_zero _), fun _ _ _ _ => rfl, fun _ _ => rfl, rfl, calm_rfl s⟩
  | j + 1, hj => by
    obtain ⟨hwf, hnew, hold, hmem, hctx, hcalm⟩ := rowsDone_fold (core := core) (uid := uid) (row := row) hg hm j (by omega)
    rw [List.range_succ, List.foldl_append, List.foldl_cons, List.foldl_nil]
    generalize (List.range j).foldl (kWrite core uid row g) s = t at *
    have hrow : t.accRow core (row + j) = s.accRow core (row + j) := hold core (row + j) (by omega) (by omega)
    have hlt : row + j < 16384 := by omega
    have hlen : (g j (t.accRow core (row + j))).1.length = 128 := hg j _ (accRow_length t core (row + j))
    refine ⟨setAccRow_wf hwf, fun i hi => ?_, fun c r hr hne => ?_, fun a ha => ?_, ?_, ?_⟩
    · show (t.setAccRow core (row + j) _).accRow core (row + i) = _
      by_cases hij : i = j
      · subst hij
        rw [accRow_setAccRow_same hwf hlen, hrow]
      · rw [accRow_setAccRow_other hwf hlen hlt (show row + i < 16384 by omega) (by omega), hnew i (by omega)]
    · show (t.setAccRow core (row + j) _).accRow c r = _
      rw [accRow_setAccRow_other hwf hlen hlt hr (by omega), hold c r hr (by omega)]
    · exact (setAccRow_frame hwf hlen hlt ha).trans (hmem a ha)
    · exact (setAccRow_ctxs _ _ _ _).trans hctx
    · exact (hcalm.trans (calm_blocks (setAccRow_blocks t core (row + j) _))).trans (calm_mStatus _ _ _)
theorem kRow_length (fmt cmp : Nat) (t : Array Byte) (cp : Array Bool) (afmt : Nat) (sa : List Nat) (a : Array Byte) (rp : Bool) (old : List PWord) :
    (kRow fmt cmp t cp afmt sa a rp old).1.length = old.length := by
  unfold kRow
  rw [List.length_map, List.length_map, List.length_zipIdx]
theorem zipIdx_map_range {α : Type} (f : Nat → α) (m : Nat) : ((List.range m).map f).zipIdx = (List.range m).map fun i => (f i, i) := by
  refine List.ext_getElem? fun n => ?_
  rw [List.getElem?_zipIdx, List.getElem?_map, List.getElem?_map]
  by_cases h : n < m
  · rw [List.getElem?_range h]
    simp
  · rw [List.getElem?_eq_none (by simpa using h)]
    rfl

section
variable (s : State) (core : Nat) (b : Block) (o : MOp) (row m k : Nat) (z : Bool) (aofs astride scb afmt kofs : Nat) (d : WDesc)

/-- A row of a K-step: what it becomes. -/
def kNew (i : Nat) (old : List PWord) : List PWord × Flg :=
  kRow d.wfmt d.wcmp (s.kTile core b o.step d).bytes.toArray
    ((List.range 128).map fun n => (colBytes d.wfmt d.wcmp n).any fun i => (s.kTile core b o.step d).psn.toArray.getD i false).toArray afmt
    (kRowIn o.got afmt scb (kofs + 96 * o.step) (rowBase aofs astride i)).2.1 (kRowIn o.got afmt scb (kofs + 96 * o.step) (rowBase aofs astride i)).1
    (kRowIn o.got afmt scb (kofs + 96 * o.step) (rowBase aofs astride i)).2.2 (if z && o.step == 0 then zeroRow else old)
/-- The rows of a K-step written, the next tile loaded. -/
def kRows : State := (List.range m).foldl (kWrite core b.uid row (kNew s core b o z aofs astride scb afmt kofs d)) (s.loadNext core b o.step k d (s.kTile core b o.step d))
theorem kStep_eq : s.kStep core b o row m k z aofs astride scb afmt kofs d =
    modM b.uid o.no (fun o => { o with step := o.step + 1, got := [], done := decide (k ≤ o.step + 1) })
      (if metaBad d.wfmt d.wcmp (s.kTile core b o.step d).bytes.toArray then (kRows s core b o row m k z aofs astride scb afmt kofs d).mStatus b.uid fMETA
        else kRows s core b o row m k z aofs astride scb afmt kofs d) := by
  unfold State.kStep kRows
  dsimp only
  rw [zipIdx_map_range, List.foldl_map]
  rfl
theorem kNew_length (i : Nat) (ws : List PWord) (h : ws.length = 128) : (kNew s core b o z aofs astride scb afmt kofs d i ws).1.length = 128 := by
  unfold kNew
  rw [kRow_length]
  split
  · exact List.length_replicate
  · exact h
/-- A K-step leaves what its rows leave. -/
theorem kStep_rows (hm : memWf s.mem = true) (hr : row + m ≤ 16384) :
    RowsDone core row m (kNew s core b o z aofs astride scb afmt kofs d) s (s.kStep core b o row m k z aofs astride scb afmt kofs d) := by
  obtain ⟨hwf, hnew, hold, hmem, hctx, hcalm⟩ := rowsDone_fold (core := core) (uid := b.uid) (row := row)
    (kNew_length s core b o z aofs astride scb afmt kofs d) (s := s.loadNext core b o.step k d (s.kTile core b o.step d)) hm m hr
  have hc : Calm s (kRows s core b o row m k z aofs astride scb afmt kofs d) := (calm_blocks rfl : Calm s (s.loadNext core b o.step k d (s.kTile core b o.step d))).trans hcalm
  rw [kStep_eq]
  split
  · exact ⟨hwf, hnew, hold, hmem, hctx, (hc.trans (calm_mStatus _ _ _)).trans (calm_modM _ _ _ _)⟩
  · exact ⟨hwf, hnew, hold, hmem, hctx, hc.trans (calm_modM _ _ _ _)⟩
end

/-! ## The pipes' events -/

section
variable {s : State} {core : Nat} {drain : Bool} {b : Block} {o : MOp} (h : PipeAt s core drain b o)
include h

/-- An operation that has lines to read reads the first that is present. -/
theorem begin_reads {l : Nat} (hd : o.kind.drains = false) (hk : ∀ row m k z aofs astride scb afmt kofs d, o.kind ≠ .mloop row m k z aofs astride scb afmt kofs d)
    (hn : (o.need.find? fun l => b.present (128 * l) 128) = some l) : exec (.matrixOperationBegin core drain) s = .next (lineRead s b o l) := by
  obtain ⟨hp, hb, hpre, hrows, hbad⟩ := h
  have hne : (o.need == []) = false := beq_eq_false_iff_ne.mpr fun e => by simp [e] at hn
  refine runEvent_ok ?_
  simp only [act_bind, act_get, act_someA, act_needA, hp, hb, hpre, hrows, hbad, hne, Bool.not_false, Bool.and_self, if_true]
  cases hkd : o.kind with
  | mdrain row m z dofs dstride scb t dfmt k0 => rw [hkd] at hd; cases hd
  | mloop row m k z aofs astride scb afmt kofs d => exact absurd hkd (hk row m k z aofs astride scb afmt kofs d)
  | _ => simp only [readLine, act_bind, act_someA, hn, act_modA, lineRead, if_false, Bool.false_eq_true]
end

/-- A K-step's MLOOP reads the first line that is present. -/
theorem kstep_reads {s : State} {core : Nat} {b : Block} {o : MOp} {row m k : Nat} {z : Bool} {aofs astride scb afmt kofs : Nat} {d : WDesc} {l : Nat}
    (hp : s.pipeHead core false = some (b, o)) (hb : o.begun = true) (hbad : o.bad = false) (hk : o.kind = .mloop row m k z aofs astride scb afmt kofs d)
    (hn : (o.need.find? fun l => b.present (128 * l) 128) = some l) : exec (.matrixKstep core) s = .next (lineRead s b o l) := by
  have hne : (o.need != []) = true := bne_iff_ne.mpr fun e => by simp [e] at hn
  refine runEvent_ok ?_
  simp only [act_bind, act_get, act_someA, act_needA, hp, hb, hbad, hk, hne, if_true, readLine, hn, act_modA, lineRead, if_false, Bool.false_eq_true]
/-- A line in hand has pieces to write. -/
theorem partition_ne_nil {fs : List Frag} {line : Nat} (h : ∃ f ∈ fs, f.ofs / 128 = line) : (fs.partition fun f => f.ofs / 128 == line).1 ≠ [] := by
  obtain ⟨f, hf, hl⟩ := h
  rw [List.partition_eq_filter_filter]
  exact List.ne_nil_of_mem (List.mem_filter.mpr ⟨hf, beq_iff_eq.mpr hl⟩)
theorem abandonM_mem (s : State) (b : Block) (o : MOp) : (s.abandonM b o).mem = s.mem := modCtx_mem _ _ _

end Sys2Proof.Machine
end

section
/-! SETTLED. The matrix array's operations. -/
open Sys2Proof Sys2Proof.Machine Sys2Proof.Spec

/-- Settles O38: each clause is the event under its conditions; a K-step's rows lie apart in the store, so each is written from what stood there before the step. -/
theorem matrixEventsComplete : Obligations.MatrixEventsComplete := by
  unfold Obligations.MatrixEventsComplete
  refine ⟨fun s core drain b o h => ?_, fun s core b o row m k z aofs astride scb afmt kofs d hp hb hbad hk => ⟨fun l hl => kstep_reads hp hb hbad hk hl, fun hn => ⟨?_, fun hm hr => ?_⟩⟩,
    fun s blk no line b o hw ho hbad hf => ?_, fun s core drain b o hp hbad => ⟨fun hb hpre hrows => ?_, fun hb hd => ?_, abandonM_mem s b o⟩, fun s blk no line b o hw ho hbad hf => ?_⟩
  · have hread := fun l hd hk hl => begin_reads h (l := l) hd hk hl
    obtain ⟨hp, hb, hpre, hrows, hbad⟩ := h
    intro go
    refine ⟨fun d hk => ?_, fun row m hk => ?_, hread, fun row m fofs hk hn => ?_, fun row m mofs hk hn => ?_, fun row m z dofs dstride scb sh dfmt k0 hk => ?_,
      fun row m k z aofs astride scb afmt kofs d hk => ?_⟩
    · have hn : o.need = [] := by simp [MOp.need, hk, MKind.reads]
      rw [hk] at hrows
      refine runEvent_ok ?_
      simp only [act_bind, act_get, act_someA, act_needA, hp, hb, hpre, hrows, hbad, hk, hn, Bool.not_false, Bool.and_self, if_true]
      rfl
    · have hn : o.need = [] := by simp [MOp.need, hk, MKind.reads]
      rw [hk] at hrows
      refine runEvent_ok ?_
      simp only [act_bind, act_get, act_someA, act_needA, hp, hb, hpre, hrows, hbad, hk, hn, Bool.not_false, Bool.and_self, if_true]
      rfl
    · rw [hk] at hrows
      refine runEvent_ok ?_
      simp only [act_bind, act_get, act_someA, act_needA, hp, hb, hpre, hrows, hbad, hk, hn, Bool.not_false, Bool.and_self, if_true]
      rfl
    · intro bits
      rw [hk] at hrows
      refine runEvent_ok ?_
      simp only [act_bind, act_get, act_someA, act_needA, hp, hb, hpre, hrows, hbad, hk, hn, Bool.not_false, Bool.and_self, if_true]
      rfl
    · intro out t t'
      have hn : o.need = [] := by simp [MOp.need, hk, MKind.reads]
      rw [hk] at hrows
      refine runEvent_ok ?_
      simp only [act_bind, act_get, act_someA, act_needA, hp, hb, hpre, hrows, hbad, hk, hn, Bool.not_false, Bool.and_self, if_true]
      rfl
    · rw [hk] at hrows
      refine runEvent_ok ?_
      simp only [act_bind, act_get, act_someA, act_needA, hp, hb, hpre, hrows, hbad, hk, Bool.not_false, Bool.and_self, if_true]
      rfl
  · refine runEvent_ok ?_
    simp only [act_bind, act_get, act_someA, act_needA, hp, hb, hbad, hk, hn, if_true]
    rfl
  · intro t tile badCols
    obtain ⟨-, hnew, hold, hmem, hctx, hcalm⟩ := kStep_rows s core b o row m k z aofs astride scb afmt kofs d hm hr
    refine ⟨fun i hi => ?_, hold, hmem, fun c => ?_, fun u l r => ?_⟩
    · intro x
      refine (hnew i hi).trans ?_
      unfold kNew
      simp only [Bool.and_eq_true, beq_iff_eq]
      rfl
    · unfold State.ctxD State.ctx?
      rw [hctx]
    · rw [reg_eq, reg_eq, hcalm u l]
  · intro p
    refine runEvent_ok ((act_bind_ok (engBlock_ok hw)).trans ((act_bind_ok (someA_ok ho)).trans ?_))
    simp only [act_bind, act_needA, bne_iff_ne.mpr (partition_ne_nil hf), if_true, hbad]
    rfl
  · refine runEvent_ok ?_
    simp only [act_bind, act_get, act_someA, act_needA, hp, hb, hpre, hrows, hbad, Bool.not_false, Bool.and_self, if_true, act_set]
  · subst hd
    refine runEvent_ok ?_
    simp only [act_bind, act_get, act_someA, act_needA, hp, hb, hbad, if_true, act_set]
  · refine runEvent_ok ((act_bind_ok (engBlock_ok hw)).trans ((act_bind_ok (someA_ok ho)).trans ?_))
    simp only [act_bind, act_needA, bne_iff_ne.mpr (partition_ne_nil hf), if_true, hbad, act_modA]
end

section
/-! SUPPORT. Engine operations complete; the accesses of a gather (O39, O40). -/

namespace Sys2Proof.Machine

open Sys2Proof.Spec

theorem works_uid {s : State} {blk : Nat} {b : Block} (h : Works s blk b) : b.uid = blk := uid_of_blk h.1
theorem postEng_ok {b : Block} {r : FRec} {a : Answer} {s : State} (h : (s.ctxD b.ctx).fqRoom = true) : postEng b r a s = .ok ((), s.post b.ctx r a) := by
  unfold postEng
  simp only [act_bind, act_get, act_needA, h, if_true, act_modA]
/-- A collective that is over completes. -/
theorem collComplete_ok {b : Block} {o : CollOp} {s : State} (hp : s.preDone o.pre = true) (hb : o.bad = false) (hf : o.fault = .none) (ho : o.out = some ([], [])) (hw : o.work = []) :
    collComplete b o s = .ok ((), collDone b.uid o.no s) := by
  have hab : (o.joined && o.fault == .abandon) = false := by rw [hf]; exact Bool.and_false _
  have hdone : (o.out == some ([], []) && o.work == [] && o.fault == .none) = true := by rw [ho, hw, hf]; decide
  unfold collComplete
  simp only [act_bind, act_get, act_needA, hp, if_true, hb, hab, Bool.or_self, hdone, act_set, if_false, Bool.false_eq_true]

/-! ## One access of a tile block -/

section
variable {s : State} {b : Block} {p : Pass} {pl : TilePlan} {t : Nat}

/-- A readable table entry whose handle resolves is copied with half its weight. -/
theorem gatherHandle_ok {er : List Run} {a : Nat} {g : Handle} {s1 : State} (hr : s.engRange b.core b.ctx (p.kvt + 16 * (pl.seq * p.maxb + (pl.blk0 + t))) 16 true = .ok er)
    (hh : s.runsHeld er = false) (hp : (s.engRead er).2.any id = false) (ha : s.resolve b.ctx 0 (handleOf (s.engRead er).1) = .addr a)
    (hs : s.splitHandle b.ctx (b.core / 48) 0 (handleOf (s.engRead er).1) = .ok g s1) :
    s.gatherHandle b p pl t = .busy (s1.engWrite er g.bytes (List.replicate 16 false)) (.handle (g.w0, g.w1) a) := by
  unfold State.gatherHandle
  simp only [hr, hh, hp, ha, hs, if_false, Bool.false_eq_true]
/-- A readable survivor word gives the slots to read. -/
theorem gatherSurv_ok {w : DWord × DWord} {a : Nat} {sr kr vr : List Run} (hr : s.engRange b.core b.ctx a 8 false = .ok sr) (hh : s.runsHeld sr = false)
    (hk : s.engRange b.core b.ctx (a + 0x80) (2 * p.hd * (slotsOf (survIn (leNat (s.engRead sr).1) pl.len (pl.blk0 + t))).length) false = .ok kr)
    (hv : s.engRange b.core b.ctx (a + 0x80 + 2 * p.hd * 64) (2 * p.hd * (slotsOf (survIn (leNat (s.engRead sr).1) pl.len (pl.blk0 + t))).length) false = .ok vr) :
    s.gatherSurv b p pl t w a = KvHand.settled s ⟨BitVec.ofNat 64 (leNat (s.engRead sr).1),
      zerosB (2 * p.hd * (slotsOf (survIn (leNat (s.engRead sr).1) pl.len (pl.blk0 + t))).length),
      List.replicate (2 * p.hd * (slotsOf (survIn (leNat (s.engRead sr).1) pl.len (pl.blk0 + t))).length) false,
      zerosB (2 * p.hd * (slotsOf (survIn (leNat (s.engRead sr).1) pl.len (pl.blk0 + t))).length),
      List.replicate (2 * p.hd * (slotsOf (survIn (leNat (s.engRead sr).1) pl.len (pl.blk0 + t))).length) false, some w⟩ (kvReads false 0 kr ++ kvReads true 0 vr) := by
  unfold State.gatherSurv
  simp only [hr, hh, hk, hv, if_false, Bool.false_eq_true]
end

/-! ## The head of an attention context -/

section
variable {s : State} {blk : Nat} {b : Block} {o : AOp} (h : AttnAt s blk b o)
include h

/-- The head operation's next access that is none of its shared lines. -/
theorem exec_gather_work {st : EngStep} {t : State} (hst : st.of = blk) (he : o.ended = false) (ht : attnWork b o (st.piece?.getD 0) s = .ok ((), t)) :
    exec (.attentionGatherBlock st) s = .next t := by
  obtain ⟨hw, ho, hturn, hf, hb, hp⟩ := h
  subst hst
  refine runEvent_ok ((act_bind_ok (engBlock_ok hw)).trans ((act_bind_ok (someA_ok ho)).trans ?_))
  simp only [act_bind, act_get, act_needA, hturn, hp, hb, hf, he, Bool.not_false, beq_self_eq_true, Bool.true_or, Bool.and_self, if_true]
  exact ht
/-- A line to land is written in one write. -/
theorem exec_gather_line {line : Nat} (he : o.ended = true) (hne : o.hand ≠ []) (hl : ∃ f ∈ o.hand, f.ofs / 128 = line) :
    exec (.attentionGatherBlock (.piece blk line)) s = .next (modA' blk o.no (fun x => { x with hand := (o.hand.partition fun f => f.ofs / 128 == line).2 })
      (s.landFrags blk line (o.hand.partition fun f => f.ofs / 128 == line).1)) := by
  obtain ⟨hw, ho, hturn, hf, hb, hp⟩ := h
  have hany : (o.hand.partition fun f => f.ofs / 128 == line).1.any (fun f => f.ofs / 128 == line) = true := by
    obtain ⟨f, hm, hx⟩ := hl
    rw [List.partition_eq_filter_filter]
    exact List.any_eq_true.mpr ⟨f, List.mem_filter.mpr ⟨hm, beq_iff_eq.mpr hx⟩, beq_iff_eq.mpr hx⟩
  refine runEvent_ok ((act_bind_ok (engBlock_ok hw)).trans ((act_bind_ok (someA_ok ho)).trans ?_))
  simp only [act_bind, act_get, act_needA, hturn, hp, hb, hf, he, Bool.not_false, Bool.not_true, beq_self_eq_true, Bool.true_or, Bool.and_self, if_true, EngStep.piece?, EngStep.of,
    hne, if_false, Bool.false_eq_true, hany, act_modA]
end

section
variable {s : State} {blk : Nat} {b : Block} {o : AOp} {i : Nat} {pl : TilePlan} {hand : List KvHand} {busy : Option KvBusy} (h : GatherAt s blk b o i pl hand busy)
include h

/-- An access of a tile block leaves the block on its way. -/
theorem exec_gather_busy {st : EngStep} {s' : State} {y : KvBusy} (hst : st.of = blk) (hg : s.gather b o.pass pl hand.length busy (st.piece?.getD 0) = .busy s' y) :
    exec (.attentionGatherBlock st) s = .next (modA' blk o.no (fun o => { o with kind := .atile i pl hand (some y) }) s') := by
  obtain ⟨ha, he, hk, hl⟩ := h
  have ⟨hw, _, _, hf, _, _⟩ := ha
  obtain rfl := works_uid hw
  refine exec_gather_work ha hst he ?_
  unfold attnWork
  simp only [act_bind, act_get, hk, hf, beq_eq_false_iff_ne.mpr (Nat.ne_of_lt hl), hg]
  rfl
/-- An access of a tile block that may be its last. -/
theorem exec_gather_settled {st : EngStep} {k : KvHand} {left : List KvRead} (hst : st.of = blk) (hg : s.gather b o.pass pl hand.length busy (st.piece?.getD 0) = KvHand.settled s k left) :
    exec (.attentionGatherBlock st) s = .next (gathered blk o.no i pl hand k left s) := by
  unfold KvHand.settled at hg
  unfold gathered
  split at hg
  · rename_i hleft
    obtain ⟨ha, he, hk, hl⟩ := h
    have ⟨hw, _, _, hf, _, _⟩ := ha
    obtain rfl := works_uid hw
    refine exec_gather_work ha hst he ?_
    unfold attnWork
    simp only [act_bind, act_get, hk, hf, beq_eq_false_iff_ne.mpr (Nat.ne_of_lt hl), hg, hleft, if_true]
    rfl
  · rename_i hleft
    simp only [hleft, if_false]
    exact exec_gather_busy h hst hg
/-- A tile block's entry or address that does not translate posts its fault. -/
theorem exec_gather_post {st : EngStep} {x : XErr} (hst : st.of = blk) (hg : s.gather b o.pass pl hand.length busy (st.piece?.getD 0) = .post x) (hr : (s.ctxD b.ctx).fqRoom = true) :
    exec (.attentionGatherBlock st) s = .next (modA' blk o.no (fun o => { o with fault := .posted x.code x.va })
      (s.post b.ctx (mkEngRec b 5 x.code 0 o.no hand.length x.va (256 * hand.length)) (.eop blk .attention o.no))) := by
  obtain ⟨ha, he, hk, hl⟩ := h
  have ⟨hw, _, _, hf, _, _⟩ := ha
  obtain rfl := works_uid hw
  refine exec_gather_work ha hst he ?_
  unfold attnWork
  simp only [act_bind, act_get, hk, hf, beq_eq_false_iff_ne.mpr (Nat.ne_of_lt hl), hg]
  exact act_bind_ok (postEng_ok hr)
end

end Sys2Proof.Machine
end

section
/-! SETTLED. Engine operations complete; an attention operation goes on access by access. -/
open Sys2Proof Sys2Proof.Machine Sys2Proof.Spec

/-- Settles O39: each engine's case of the event, with its operation found complete. -/
theorem engineOperationsComplete : Obligations.EngineOperationsComplete := by
  unfold Obligations.EngineOperationsComplete
  intro s blk no b hw
  refine ⟨fun k c o hc hd => ?_, fun o ho hd => ?_, fun o r t ho hno ht => ?_, fun l hl hd hb => ?_, fun o ho hp hb hf hout hwk => ?_, fun hm => ?_⟩
  · obtain ⟨-, hcx, hop⟩ := hc
    refine runEvent_ok ((act_bind_ok (engBlock_ok hw)).trans ?_)
    simp only [act_bind, act_someA, act_needA, hcx, hop, hd, if_true, act_modA]
  · refine runEvent_ok ((act_bind_ok (engBlock_ok hw)).trans ?_)
    simp only [act_bind, act_someA, act_needA, ho, hd, if_true, act_modA]
  · refine runEvent_ok ((act_bind_ok (engBlock_ok hw)).trans ?_)
    simp only [act_bind, act_get, act_someA, act_needA, ho, List.head?_cons, hno, beq_self_eq_true, if_true, ht, act_set]
  · refine runEvent_ok ((act_bind_ok (engBlock_ok hw)).trans ?_)
    simp only [act_bind, act_someA, act_needA, hl, hd, hb, Bool.true_or, if_true, act_modA, if_false, Bool.false_eq_true]
  · obtain rfl : o.no = no := beq_iff_eq.mp (List.find?_some (p := fun x : CollOp => x.no == no) ho)
    refine runEvent_ok ((act_bind_ok (engBlock_ok hw)).trans ((act_bind_ok (someA_ok ho)).trans ?_))
    exact collComplete_ok hp hb hf hout hwk
  · refine runEvent_ok ((act_bind_ok (engBlock_ok hw)).trans ?_)
    simp only [act_bind, act_needA, List.contains_iff_mem.mpr hm, if_true, act_modA]

/-- Settles O40: the accesses of a tile's block by what is on its way; the ends by the operation's kind. -/
theorem gatherCompletes : Obligations.GatherCompletes := by
  unfold Obligations.GatherCompletes
  refine ⟨fun s blk b o i pl hand busy h => ?_, fun s blk b o h => ?_⟩
  · intro p t j ea
    refine ⟨fun er a g s1 hb hr hh hp ha hs => ?_, fun w a sr kr vr hb hr hh => ?_, fun hd left k r hb hl hh => ?_, fun x hb hr hroom => ?_⟩
    · subst hb
      exact exec_gather_busy h rfl (gatherHandle_ok hr hh hp ha hs)
    · subst hb
      intro surv n hk hv
      exact exec_gather_settled h rfl (gatherSurv_ok hr hh hk hv)
    · subst hb
      intro d
      refine exec_gather_settled h rfl ?_
      show s.gatherSlot hd left k = _
      unfold State.gatherSlot
      simp only [hl, hh, if_false, Bool.false_eq_true]
      rfl
    · subst hb
      refine exec_gather_post h rfl ?_ hroom
      show s.gatherHandle b o.pass pl hand.length = _
      unfold State.gatherHandle
      simp only [show s.engRange b.core b.ctx (o.pass.kvt + 16 * (pl.seq * o.pass.maxb + (pl.blk0 + hand.length))) 16 true = .error x from hr]
  · obtain rfl := works_uid h.1
    refine ⟨fun k pl hand busy he hk hl => ?_, fun he hk hr => ?_, fun line he hne hl => exec_gather_line h he hne hl⟩
    · intro e
      refine exec_gather_work h rfl he ?_
      unfold attnWork
      simp only [act_bind, act_get, hk, hl, beq_self_eq_true, Bool.or_true, if_true, act_set]
      rfl
    · refine exec_gather_work h rfl he ?_
      unfold attnWork
      simp only [act_bind, act_get, hk, act_needA, hr, Bool.not_false, if_true, act_set]
end

section
/-! SUPPORT. Two page grids of one number whose variants differ (O41). -/

namespace Sys2Proof.Machine

open Sys2Proof.Spec Sys2Proof.Tests.Slice0

/-- Two page grids of number 0, the second with another kernel variant. -/
def twinGrids : State :=
  let s := pageLab [] []
  { s with grids := s.grids ++ s.grids.map fun g => { g with var := g.var + 1 } }
/-- The variants of the second grid's reservations. -/
def twinVars (s : State) : List Nat := (s.grids[1]?).elim [] fun g => g.pages.map (·.var)
/-- The reservation of page `i` as the statement has it: each grid of the number takes the resources of the first one's variant. -/
def twinReserved (s1 : State) (g : Grid) (i c fe : Nat) (ps : List (Nat × Nat)) : State :=
  ({ s1 with nextUid := s1.nextUid + 1 } : State).modGrid 0 fun x => { x with
    pages := x.pages ++ [⟨i, s1.nextUid, c, g.var, g.needOf true, ps, fe, none⟩]
    promo := x.promo.filter (· != i)
    nextPage := if i = x.nextPage then i + 1 else x.nextPage }
/-- The conditions of a reservation of page 0. -/
def twinShelf (g : Grid) : Bool :=
  g.kind == .page && twinGrids.pgUp && twinGrids.mayStart g.ctx && !g.pgStop && !twinGrids.anyWaits g.ctx && decide (twinGrids.shelvesUsed g < g.shelves) && g.nextPg == some 0
theorem twin_shelf : ∃ g r, twinGrids.grid? 0 = some g ∧ twinGrids.placeFor g.ctx (twinGrids.newCores g 0) (g.needOf true) = some r ∧
    (twinShelf g && ((twinReserved r.1 g 0 r.2.1 r.2.2.2 r.2.2.1).pageRec g 0).isSome &&
      twinVars (Tests.Slice0.after (exec (.shelfReservation 0) twinGrids)) != twinVars (twinReserved r.1 g 0 r.2.1 r.2.2.2 r.2.2.1)) = true :=
  ex_some2 (by decide +kernel)

end Sys2Proof.Machine
end

section
/-! SETTLED. The page engine's events. -/
open Sys2Proof Sys2Proof.Machine Sys2Proof.Spec

/-- Refutes O41: the statement gives every grid of the number the resources of the first one's variant, the model each its own; in a state with two
grids of one number, which the statement does not exclude, the second one's reservation is of variant 0 there and of variant 1 in the model. -/
theorem not_pageEventsComplete : ¬ Obligations.PageEventsComplete := by
  unfold Obligations.PageEventsComplete
  intro h
  obtain ⟨g, ⟨s1, c, ps, fe⟩, hg, hp, ht⟩ := twin_shelf
  simp only [twinShelf, Bool.and_eq_true, Bool.not_eq_true', beq_iff_eq, decide_eq_true_eq, bne_iff_ne, ne_eq] at ht
  obtain ⟨⟨⟨⟨⟨⟨⟨⟨hk, hup⟩, hm⟩, hst⟩, hw⟩, hsh⟩, hn⟩, hr⟩, hne⟩ := ht
  obtain ⟨p, hr⟩ := Option.isSome_iff_exists.mp hr
  have hstep := h.1 twinGrids s1 0 g 0 c fe ps p hg hk hup hm hst hw hsh hn hp hr
  exact hne (congrArg (fun x => twinVars (Tests.Slice0.after x)) hstep)

end

section
/-! SUPPORT. What a collective's destination holds: sources in rank order, and sums modulo 2^32 whatever the order of combination (O42). -/

namespace Sys2Proof.Machine

open Sys2Proof.Spec

theorem leNat_lt : ∀ bs : List Byte, leNat bs < 2 ^ (8 * bs.length)
  | [] => by simp [leNat]
  | b :: bs => by
    have hb := b.isLt
    have ih := leNat_lt bs
    rw [leNat, List.length_cons, Nat.mul_succ, Nat.pow_add]
    generalize 2 ^ (8 * bs.length) = q at *
    omega
theorem fieldAt_lt (bs : List Byte) (o n : Nat) : fieldAt bs o n < 2 ^ (8 * n) := by
  refine Nat.lt_of_lt_of_le (leNat_lt _) (Nat.pow_le_pow_right (by decide) ?_)
  rw [List.length_take]
  omega
theorem sum_eraseIdx : ∀ (vs : List Nat) (i : Nat), i < vs.length → vs.getD i 0 + (vs.eraseIdx i).sum = vs.sum
  | [], _, h => absurd h (Nat.not_lt_zero _)
  | v :: vs, 0, _ => by simp
  | v :: vs, i + 1, h => by
    have ih := sum_eraseIdx vs i (Nat.lt_of_succ_lt_succ h)
    simp only [List.getD_cons_succ, List.eraseIdx_cons_succ, List.sum_cons]
    omega
/-- Combining by addition modulo 2^32 gives the sum, in whatever order. -/
theorem treeFold_sum {f : Nat → Nat → Nat} (hf : ∀ x y, f x y = (x + y) % 2 ^ 32) : ∀ (k : Nat) (cs vs : List Nat), vs.length ≤ k → (∀ v ∈ vs, v < 2 ^ 32) →
    treeFold f k cs vs = vs.sum % 2 ^ 32
  | 0, _, vs, h, _ => by
    obtain rfl : vs = [] := List.length_eq_zero_iff.mp (Nat.le_zero.mp h)
    rfl
  | k + 1, cs, [], _, _ => rfl
  | k + 1, cs, [x], _, hx => by
    have := hx x List.mem_cons_self
    simp only [treeFold, List.sum_cons, List.sum_nil, Nat.add_zero]
    exact (Nat.mod_eq_of_lt this).symm
  | k + 1, cs, x :: y :: vs, h, hx => by
    rw [treeFold]
    · generalize hl : x :: y :: vs = l at *
      have hlen : 2 ≤ l.length := by rw [← hl]; simp
      have hi : cs.headD 0 % l.length < l.length := Nat.mod_lt _ (by omega)
      generalize cs.headD 0 % l.length = i at *
      have hr : (l.eraseIdx i).length = l.length - 1 := by rw [List.length_eraseIdx, if_pos hi]
      have hj : cs.headD 0 / l.length % (l.eraseIdx i).length < (l.eraseIdx i).length := Nat.mod_lt _ (by omega)
      generalize cs.headD 0 / l.length % (l.eraseIdx i).length = j at *
      have e1 := sum_eraseIdx l i hi
      have e2 := sum_eraseIdx (l.eraseIdx i) j hj
      rw [treeFold_sum hf k cs.tail _ ?_ ?_, List.sum_cons, hf, Nat.mod_add_mod]
      · congr 1
        omega
      · rw [List.length_cons, List.length_eraseIdx, if_pos hj]
        omega
      · intro v hv
        rcases List.mem_cons.mp hv with rfl | hv
        · rw [hf]
          exact Nat.mod_lt _ (by decide)
        · exact hx v (List.mem_of_mem_eraseIdx (List.mem_of_mem_eraseIdx hv))
    · simp
    · simp
/-- A field of a row of 4-byte values. -/
theorem fieldAt_words {α : Type} (f : α → Nat) : ∀ (l : List α) (k : Nat) (x : α), l[k]? = some x → fieldAt (l.flatMap fun x => leBytes 4 (f x)) (4 * k) 4 = f x % 2 ^ 32
  | [], _, _, h => by simp at h
  | a :: l, 0, x, h => by
    obtain rfl : a = x := by simpa using h
    rw [fieldAt, Nat.mul_zero, List.drop_zero, List.flatMap_cons, List.take_append_of_le_length (by rw [leBytes_length]), List.take_of_length_le (by rw [leBytes_length]), leNat_leBytes]
  | a :: l, k + 1, x, h => by
    have e : 4 * (k + 1) = (leBytes 4 (f a)).length + 4 * k := by rw [leBytes_length]; omega
    rw [fieldAt, List.flatMap_cons, e, List.drop_append, List.drop_eq_nil_of_le (by omega), List.nil_append, Nat.add_sub_cancel_left]
    exact fieldAt_words f l k x (by simpa using h)
theorem getElem?_poison {α : Type} (f : α → Bool) : ∀ (l : List α) (k j : Nat) (x : α), j < 4 → l[k]? = some x → (l.flatMap fun x => List.replicate 4 (f x))[4 * k + j]? = some (f x)
  | [], _, _, _, _, h => by simp at h
  | a :: l, 0, j, x, hj, h => by
    obtain rfl : a = x := by simpa using h
    rw [List.flatMap_cons, Nat.mul_zero, Nat.zero_add, List.getElem?_append_left (by simpa using hj), List.getElem?_replicate, if_pos hj]
  | a :: l, k + 1, j, x, hj, h => by
    rw [List.flatMap_cons, List.getElem?_append_right (by rw [List.length_replicate]; omega), List.length_replicate, show 4 * (k + 1) + j - 4 = 4 * k + j by omega]
    exact getElem?_poison f l k j x hj (by simpa using h)

/-- The part of a die in a collective. -/
def partOf (ps : List CollPart) (d : Nat) : CollPart := (ps.find? (·.die == d)).getD ⟨d, 0, [], [], []⟩
/-- The element of an operation's destination that is the participants' elements at a place combined. -/
def sumAt (ctx : Nat) (ps : List CollPart) (o : CollOp) (k : Nat) : Nat × Bool :=
  (treeFold (collOp2 o.fmt o.op) (o.ranks.map (partOf ps)).length (Config.collOrder (2 ^ 32 * ctx + o.cid) o.use ((if o.kind = 2 then o.rank * o.count else 0) + k))
      (((o.ranks.map (partOf ps)).map (·.elem (collSize o.fmt) ((if o.kind = 2 then o.rank * o.count else 0) + k))).map (·.1)),
    ((o.ranks.map (partOf ps)).map (·.elem (collSize o.fmt) ((if o.kind = 2 then o.rank * o.count else 0) + k))).any (·.2))
theorem collResult_gather {ctx : Nat} {ps : List CollPart} {o : CollOp} (hk : o.kind = 1) :
    collResult ctx ps o = (o.ranks.flatMap fun d => (partOf ps d).src, o.ranks.flatMap fun d => (partOf ps d).psn) := by
  unfold collResult
  simp only [hk, if_true, List.flatMap_map]
  rfl
theorem collResult_combined {ctx : Nat} {ps : List CollPart} {o : CollOp} (hk : o.kind ≠ 1) :
    collResult ctx ps o = (((List.range o.count).map (sumAt ctx ps o)).flatMap fun x => leBytes (collSize o.fmt) x.1,
      ((List.range o.count).map (sumAt ctx ps o)).flatMap fun x => List.replicate (collSize o.fmt) x.2) := by
  unfold collResult
  simp only [hk, if_false]
  rfl
/-- An integer sum's element and its poison. -/
theorem sumAt_eq {ctx : Nat} {ps : List CollPart} {o : CollOp} {k : Nat} (hf : o.fmt = 2 ∨ o.fmt = 3) (ho : o.op = 0) :
    sumAt ctx ps o k = ((o.ranks.map fun d => fieldAt (partOf ps d).src (4 * ((if o.kind = 2 then o.rank * o.count else 0) + k)) 4).sum % 2 ^ 32,
      o.ranks.any fun d => (((partOf ps d).psn.drop (4 * ((if o.kind = 2 then o.rank * o.count else 0) + k))).take 4).any id) := by
  have hsize : collSize o.fmt = 4 := by
    unfold collSize
    rcases hf with h | h <;> rw [h] <;> rfl
  have hop : ∀ x y, collOp2 o.fmt o.op x y = (x + y) % 2 ^ 32 := fun x y => by
    rcases hf with h | h <;> rw [h, ho] <;> rfl
  unfold sumAt CollPart.elem
  rw [hsize, treeFold_sum hop, List.map_map, List.map_map, List.any_map, List.any_map]
  · rfl
  · simp
  · intro v hv
    simp only [List.mem_map] at hv
    obtain ⟨x, ⟨p, -, rfl⟩, rfl⟩ := hv
    exact fieldAt_lt p.src _ 4

/-! ## Frames -/

section
variable {s : State} {ctx : Nat} {fr : List Byte} {c : SCtx} {b : Block}

/-- A stream context that cannot be read drops its frame. -/
theorem frameStep_unread (h : s.devRead ctx (fieldAt fr 0 7) 256 [0] = none ∨ s.devPsn ctx (fieldAt fr 0 7) 256 = true) : s.frameStep ctx fr = some s.hostError := by
  unfold State.frameStep
  dsimp only
  cases hr : s.devRead ctx (fieldAt fr 0 7) 256 [0] with
  | none => rfl
  | some bs =>
    have hp : s.devPsn ctx (fieldAt fr 0 7) 256 = true := h.resolve_left (by rw [hr]; simp)
    simp only [hp, if_true]
theorem frameAt_at (h : FrameAt s ctx fr c b) : c.at_ = fieldAt fr 0 7 := by
  obtain ⟨bs, -, -, rfl, -⟩ := h
  rfl
variable (h : FrameAt s ctx fr c b)
include h
/-- A context that is not legal, or a part that does not translate, is reported. -/
theorem frameStep_reported (hbad : c.legal = false ∨ c.at_ % 256 ≠ 0 ∨ ∀ er pr sr, ¬ FrameParts s ctx fr c er pr sr) :
    s.frameStep ctx fr = some (reported ctx c 0x10 (fieldAt fr 8 4) s) := by
  have hat := frameAt_at h
  obtain ⟨bs, hr, hp, hc, hb⟩ := h
  unfold State.frameStep
  simp only [hr, hp, if_false, Bool.false_eq_true, ← hc, hb, Option.bind_some]
  split
  · rfl
  · rename_i hok
    simp only [Bool.or_eq_true, Bool.not_eq_true', bne_iff_ne, ne_eq, not_or, Bool.not_eq_false, not_not] at hok
    rw [hat] at hbad
    have hno := (hbad.resolve_left (by simp [hok.1])).resolve_left (not_not.mpr hok.2)
    split
    · rename_i her hpr hsr
      exact absurd ⟨her, hpr, hsr⟩ (hno _ _ _)
    · rfl
variable {er pr sr : List Run} (hl : c.legal = true) (ha : c.at_ % 256 = 0) (hparts : FrameParts s ctx fr c er pr sr)
include hl ha hparts
theorem frameStep_late (hlate : fieldAt fr 8 4 < c.f) : s.frameStep ctx fr = some (reported ctx c 0x0E (fieldAt fr 8 4) (putF ctx c 0x80 4 (c.late + 1) s)) := by
  have hat := frameAt_at h
  obtain ⟨bs, hr, hp, hc, hb⟩ := h
  rw [← hat] at hr hp hc hb
  obtain ⟨her, hpr, hsr⟩ := hparts
  unfold State.frameStep State.streamReport SCtx.ringAt
  simp only [hr, hp, if_false, Bool.false_eq_true, ← hc, hb, Option.bind_some, hl, ← hat, ha, her, hpr, hsr, hlate, if_true, Bool.not_true, bne_self_eq_false, Bool.or_self]
  rfl
theorem frameStep_full (hin : c.f ≤ fieldAt fr 8 4) (hfull : (c.fhead + 2 ^ 32 - c.ftail) % 2 ^ 32 = c.frn) : s.frameStep ctx fr = none := by
  have hat := frameAt_at h
  obtain ⟨bs, hr, hp, hc, hb⟩ := h
  rw [← hat] at hr hp hc hb
  obtain ⟨her, hpr, hsr⟩ := hparts
  unfold State.frameStep SCtx.ringAt
  simp only [hr, hp, if_false, Bool.false_eq_true, ← hc, hb, Option.bind_some, hl, ← hat, ha, her, hpr, hsr, Nat.not_lt.mpr hin, hfull, if_true, Bool.not_true, bne_self_eq_false, Bool.or_self]
theorem frameStep_in (hin : c.f ≤ fieldAt fr 8 4) (hroom : ¬ (c.fhead + 2 ^ 32 - c.ftail) % 2 ^ 32 = c.frn) : s.frameStep ctx fr = some (frameIn ctx fr c b er pr sr s) := by
  have hat := frameAt_at h
  obtain ⟨bs, hr, hp, hc, hb⟩ := h
  rw [← hat] at hr hp hc hb
  obtain ⟨her, hpr, hsr⟩ := hparts
  unfold State.frameStep SCtx.ringAt
  simp only [hr, hp, if_false, Bool.false_eq_true, ← hc, hb, Option.bind_some, hl, ← hat, ha, her, hpr, hsr, Nat.not_lt.mpr hin, hroom, Bool.not_true, bne_self_eq_false, Bool.or_self, decide_eq_true_eq]
  rfl
end

/-! ## A collective at a participant -/

section
variable {s : State} {blk no : Nat} {b : Block} {o : CollOp} (hw : Works s blk b) (ho : b.coll.ops.find? (·.no == no) = some o) (hb : o.bad = false) (hp : s.preDone o.pre = true) (hf : o.fault = .none)
include hw ho hb hp hf

theorem exec_coll_piece {t : State} {k : Nat} (ht : (if o.joined then collWrite b o k else collRead b o k) s = .ok ((), t)) : exec (.collectiveJoin blk (.piece no k) []) s = .next t := by
  refine runEvent_ok ((act_bind_ok (engBlock_ok hw)).trans ((act_bind_ok (someA_ok ho)).trans ?_))
  simp only [act_bind, act_get, act_needA, hb, hp, hf, Bool.not_false, beq_self_eq_true, Bool.true_or, Bool.and_self, if_true, EngStep.piece?]
  exact ht
theorem exec_coll_source {t : State} (hj : o.joined = false) (ht : collSource b o [] s = .ok ((), t)) : exec (.collectiveJoin blk (.next no) []) s = .next t := by
  refine runEvent_ok ((act_bind_ok (engBlock_ok hw)).trans ((act_bind_ok (someA_ok ho)).trans ?_))
  simp only [act_bind, act_get, act_needA, hb, hp, hf, Bool.not_false, beq_self_eq_true, Bool.true_or, Bool.and_self, if_true, EngStep.piece?, hj]
  exact ht
theorem exec_coll_settle {t : State} (hj : o.joined = true) (hout : o.out = none) (ht : collSettle b o s = .ok ((), t)) : exec (.collectiveJoin blk (.next no) []) s = .next t := by
  refine runEvent_ok ((act_bind_ok (engBlock_ok hw)).trans ((act_bind_ok (someA_ok ho)).trans ?_))
  simp only [act_bind, act_get, act_needA, hb, hp, hf, Bool.not_false, beq_self_eq_true, Bool.true_or, Bool.and_self, if_true, EngStep.piece?, hj, hout, CollOp.remoteParts, List.foldl_nil]
  exact ht
theorem exec_coll_tile {t : State} {d : List Byte × List Bool} (hj : o.joined = true) (hout : o.out = some d) (ht : collTile b o d s = .ok ((), t)) :
    exec (.collectiveJoin blk (.next no) []) s = .next t := by
  refine runEvent_ok ((act_bind_ok (engBlock_ok hw)).trans ((act_bind_ok (someA_ok ho)).trans ?_))
  simp only [act_bind, act_get, act_needA, hb, hp, hf, Bool.not_false, beq_self_eq_true, Bool.true_or, Bool.and_self, if_true, EngStep.piece?, hj, hout, CollOp.remoteParts, List.foldl_nil]
  exact ht
end

section
variable {s : State} {b : Block} {o : CollOp}
/-- The source as far as it has been read. -/
def readSoFar (o : CollOp) : List Byte × List Bool := (o.data.1 ++ (o.work.filterMap (·.got)).flatMap (·.1), o.data.2 ++ (o.work.filterMap (·.got)).flatMap (·.2))
theorem collSource_tile {rs : List (List Run)} (hf : o.fault = .none) (hg : ∀ a ∈ o.work, a.got.isSome = true) (hl : (readSoFar o).1.length < o.srcLen)
    (hr : s.collRuns b false (o.src + (readSoFar o).1.length) (min 512 (o.srcLen - (readSoFar o).1.length)) = .ok rs) :
    collSource b o [] s = .ok ((), modColl b.uid o.no (fun x => { x with data := readSoFar o, work := rs.map fun r => ⟨r, none⟩, tile := x.tile + 1 }) s) := by
  unfold readSoFar at hl hr ⊢
  have hn := Nat.not_le.mpr hl
  unfold CollOp.srcLen at hn hr
  have hall : o.work.all (·.got.isSome) = true := List.all_eq_true.mpr hg
  unfold collSource
  simp only [act_bind, act_get, hf, hall, CollOp.srcLen, hn, if_false, hr]
  rfl
theorem collSource_join (hf : o.fault = .none) (hg : ∀ a ∈ o.work, a.got.isSome = true) (hl : o.srcLen ≤ (readSoFar o).1.length) :
    collSource b o [] s = .ok ((), modColl b.uid o.no (fun o => { o with tile := 0, work := [], data := ([], []), joined := true })
      (s.join b.ctx o.cid o.use [⟨4 * s.pkg + b.core / 48, o.rank, o.params, (readSoFar o).1, (readSoFar o).2⟩])) := by
  unfold readSoFar at hl ⊢
  unfold CollOp.srcLen at hl
  have hall : o.work.all (·.got.isSome) = true := List.all_eq_true.mpr hg
  unfold collSource
  simp only [act_bind, act_get, hf, hall, if_true, CollOp.srcLen, hl]
  rfl
theorem collRead_ok {k : Nat} {rs : List Run} (hk : o.work[k]? = some ⟨rs, none⟩) (hh : s.runsHeld rs = false) :
    collRead b o k s = .ok ((), modColl b.uid o.no (fun x => { x with work := x.work.set k ⟨rs, some (s.engRead rs)⟩, seen := x.seen ++ (psnGranules s rs).filter fun g => !o.seen.contains g })
      (if (psnGranules s rs).filter (fun g => !o.seen.contains g) = [] then s else s.bump b.ctx 3 ((psnGranules s rs).filter fun g => !o.seen.contains g).length)) := by
  unfold collRead
  simp only [act_bind, act_get, act_someA, act_needA, hk, hh, Option.isNone_none, Bool.not_false, Bool.and_self, if_true, act_set]
/-- No rank is held or gone. -/
theorem ranks_there (h : ∀ d ∈ o.ranks, s.pkgLost (d / 4) = false) : o.ranks.any s.rankHeld = false ∧ o.ranks.any (fun d => s.pkgGone (d / 4)) = false := by
  refine ⟨all_false_any fun d hd => ?_, all_false_any fun d hd => ?_⟩
  · unfold State.rankHeld
    rw [h d hd, Bool.false_and]
  · unfold State.pkgGone
    rw [h d hd, Bool.false_and]
theorem collSettle_ok (h : ∀ d ∈ o.ranks, s.pkgLost (d / 4) = false) (hj : ∀ d ∈ o.ranks, ∃ p ∈ s.collParts b.ctx o, p.die = d) (hagree : collAgree (s.collParts b.ctx o) o = true) :
    collSettle b o s = .ok ((), modColl b.uid o.no (fun x => { x with out := some (collResult b.ctx (s.collParts b.ctx o) o) }) s) := by
  obtain ⟨hheld, hgone⟩ := ranks_there h
  have hall : (o.ranks.all fun d => (s.collParts b.ctx o).any (·.die == d) || s.pkgGone (d / 4)) = true := List.all_eq_true.mpr fun d hd => by
    obtain ⟨p, hp, hd⟩ := hj d hd
    exact Bool.or_eq_true_iff.mpr (.inl (List.any_eq_true.mpr ⟨p, hp, beq_iff_eq.mpr hd⟩))
  unfold collSettle
  simp only [act_bind, act_get, act_needA, hheld, hall, hagree, hgone, Bool.not_false, Bool.and_self, if_true, act_set]
theorem collWrite_ok {k : Nat} {rs : List Run} {d : List Byte × List Bool} (h : ∀ d ∈ o.ranks, s.pkgLost (d / 4) = false) (hk : o.work[k]? = some ⟨rs, some d⟩) (hh : s.runsHeld rs = false) :
    collWrite b o k s = .ok ((), modColl b.uid o.no (fun o => { o with work := o.work.eraseIdx k }) (s.engWrite rs d.1 d.2)) := by
  obtain ⟨hheld, hgone⟩ := ranks_there h
  unfold collWrite
  simp only [act_bind, act_get, act_someA, act_needA, hk, hheld, hgone, hh, Bool.not_false, Bool.and_self, if_true, if_false, Bool.false_eq_true, act_set]
theorem collTile_ok {d : List Byte × List Bool} {rs : List (List Run)} (hwk : o.work = []) (hd : d.1 ≠ []) (hr : s.collRuns b true (o.dst + 512 * o.tile) (min 512 d.1.length) = .ok rs) :
    collTile b o d s = .ok ((), modColl b.uid o.no (fun x => { x with
      work := (rs.zip (lineCuts (o.dst + 512 * o.tile) (min 512 d.1.length))).map fun x =>
        (⟨x.1, some ((d.1.drop (x.2.1 - (o.dst + 512 * o.tile))).take x.2.2, (d.2.drop (x.2.1 - (o.dst + 512 * o.tile))).take x.2.2)⟩ : CollAcc)
      tile := x.tile + 1, out := some (d.1.drop (min 512 d.1.length), d.2.drop (min 512 d.1.length)) }) s) := by
  unfold collTile
  simp only [act_bind, act_get, act_needA, hwk, beq_self_eq_true, bne_iff_ne.mpr hd, Bool.and_self, if_true, hr, act_set]
end

end Sys2Proof.Machine
end

section
/-! SETTLED. Stream, handle and collective events. -/
open Sys2Proof Sys2Proof.Machine Sys2Proof.Spec

/-- The first frame of the first context is taken where its arrival goes on. -/
theorem exec_frameArrival {s t : State} {c : Ctx} {r : List Ctx} {f : List Byte} {fs : List (List Byte)} (hc : s.ctxs = c :: r) (hm : s.mayStart c.no = true) (hf : c.framesIn = f :: fs)
    (hq : ∀ e ∈ s.cqPend, e.ctx = c.no → e.writer ≠ .stream) (ht : s.frameStep c.no f = some t) :
    exec .frameArrival s = .next (t.modCtx c.no fun c => { c with framesIn := c.framesIn.erase f }) := by
  have hmay : s.ctxStopped c.no = false ∧ s.halting c.no = false := by
    unfold State.mayStart at hm
    simpa using hm
  have hcq : s.cqPend.any (fun e => e.writer == .stream && e.ctx == c.no) = false := all_false_any fun e he => by
    by_cases hctx : e.ctx = c.no
    · rw [beq_eq_false_iff_ne.mpr (hq e he hctx), Bool.false_and]
    · rw [beq_eq_false_iff_ne.mpr hctx, Bool.and_false]
  refine runEvent_ok ?_
  simp only [act_bind, act_get, act_someA, hc, List.findSome?_cons, hmay.1, hmay.2, hcq, hf, State.frameOf, List.contains_nil, ht, Bool.or_self, if_false, Bool.false_eq_true,
    Option.map_some, act_set]

/-- Settles O42: each event under its conditions; a frame's arrival by what of its context and parts can be read, a collective's step by how far the operation is. -/
theorem streamHandleCollectiveEventsComplete : Obligations.StreamHandleCollectiveEventsComplete := by
  unfold Obligations.StreamHandleCollectiveEventsComplete
  refine ⟨fun ctx ps o => ?_, fun s ctx ofs bytes hb hlo hhi => ?_, fun s t c r f fs hc hm hf hq ht => exec_frameArrival hc hm hf hq ht, fun s ctx fr => ⟨frameStep_unread, fun c b h => ?_⟩,
    fun s blk b e r hb hp hl hc => ?_, fun s core home m h => ⟨fun g e hk => ?_, fun g f hk => ?_⟩, fun s c f r g hup hc hf hb => ?_, fun s blk no b o hw ho hb hp hf => ?_⟩
  · intro part
    refine ⟨fun hk => collResult_gather hk, fun k hk hf hop hlt => ?_⟩
    intro at_
    have hel : ((List.range o.count).map (sumAt ctx ps o))[k]? = some (sumAt ctx ps o k) := by
      rw [List.getElem?_map, List.getElem?_range hlt, Option.map_some]
    have hsize : collSize o.fmt = 4 := by
      unfold collSize
      rcases hf with h | h <;> rw [h] <;> rfl
    rw [collResult_combined hk, hsize]
    refine ⟨?_, fun j hj => ?_⟩
    · rw [fieldAt_words (fun x : Nat × Bool => x.1) _ k _ hel, sumAt_eq hf hop, Nat.mod_mod]
      rfl
    · rw [getElem?_poison (fun x : Nat × Bool => x.2) _ k j _ hj hel, sumAt_eq hf hop]
      rfl
  · refine next_congr (if_neg ?_)
    rintro (h | h | h)
    · exact hb h
    · exact absurd hlo (Nat.not_le.mpr h)
    · exact absurd hhi (Nat.not_le.mpr h)
  · intro stamp
    refine ⟨frameStep_reported h, fun er pr sr hl ha hparts => ?_⟩
    exact ⟨fun hlate => frameStep_late h hl ha hparts hlate, fun hin hfull => frameStep_full h hl ha hparts hin hfull, fun hin hroom => frameStep_in h hl ha hparts hin hroom⟩
  · refine runEvent_ok ?_
    simp only [act_bind, act_get, act_someA, act_needA, hb, hp, hl, hc, decide_true, Bool.and_self, if_true, act_set]
  · obtain ⟨hm, hg⟩ := h
    refine runEvent_ok ?_
    unfold arrive
    simp only [act_bind, act_get, act_someA, hm, hg, hk, if_false, Bool.false_eq_true, act_set]
  · obtain ⟨hm, hg⟩ := h
    refine runEvent_ok ?_
    unfold arrive
    simp only [act_bind, act_get, act_someA, hm, hg, hk, if_false, Bool.false_eq_true, act_set]
  · intro t ht
    refine runEvent_ok ?_
    simp only [act_bind, act_get, act_someA, act_needA, hup, if_true, hc, hf, hb, if_false]
    rw [show (s.modCtx c.no fun c => { c with fins := r }).launchOf c.no (s.modCtx c.no fun c => { c with fins := r }).nextUid (finReq f) none = .ok g from ht]
    rfl
  · obtain rfl := works_uid hw
    obtain rfl : o.no = no := beq_iff_eq.mp (List.find?_some (p := fun x : CollOp => x.no == no) ho)
    refine ⟨?_, fun k rs hj hk hh => exec_coll_piece hw ho hb hp hf (by rw [hj]; exact collRead_ok hk hh), fun hl hj => ⟨fun hout hall hag => ?_, fun k rs d hk hh => ?_⟩, fun d rs hj hout hwk hd hr => ?_⟩
    · intro gots d hj hg
      exact ⟨fun rs hlt hr => exec_coll_source hw ho hb hp hf hj (collSource_tile hf hg hlt hr), fun hle => exec_coll_source hw ho hb hp hf hj (collSource_join hf hg hle)⟩
    · exact exec_coll_settle hw ho hb hp hf hj hout (collSettle_ok hl hall hag)
    · exact exec_coll_piece hw ho hb hp hf (by rw [hj]; exact collWrite_ok hl hk hh)
    · exact exec_coll_tile hw ho hb hp hf hj hout (collTile_ok hwk hd hr)
end

section
/-! SUPPORT. A drop at its home (O43). -/

namespace Sys2Proof.Machine

open Sys2Proof.Spec

/-- A peer that is the message's home has its counter raised, in both forms. -/
theorem peer_counted (s : State) (ctx dev ix : Nat) (p : Peer) :
    (if !s.isPeer ctx dev p then p else if ix = ctrStale then { p with stales := p.stales + 1 } else { p with overs := p.overs + 1 }) =
      if p.dom = (s.ctxD ctx).rcd.dom.toNat ∧ p.pkg = dev then (if ix = 0x100 then { p with stales := p.stales + 1 } else { p with overs := p.overs + 1 }) else p := by
  by_cases h : p.dom = (s.ctxD ctx).rcd.dom.toNat ∧ p.pkg = dev
  · have hp : s.isPeer ctx dev p = true := by unfold State.isPeer; rw [h.1, h.2, beq_self_eq_true, beq_self_eq_true]; rfl
    rw [hp, if_pos h]
    rfl
  · have hp : s.isPeer ctx dev p = false := by
      unfold State.isPeer
      rw [Bool.and_eq_false_iff, beq_eq_false_iff_ne, beq_eq_false_iff_ne]
      exact not_and_or.mp h
    rw [hp, if_neg h]
    rfl
/-- What a message counts at its home. -/
theorem countHome_eq (s : State) (m : HMsg) (ix : Nat) : s.countHome m ix = countedAt m ix s := by
  unfold State.countHome countedAt
  dsimp only
  rw [List.map_congr_left fun p _ => peer_counted s m.ctx (m.home / 4) ix p]

section
variable {s : State} {m : HMsg} {gen : BitVec 8} {e n b : Nat} (ht : s.tableOf m.ctx (m.home / 4) = some (b, n))
include ht

theorem dropAt_outside (h : m.idx = 0 ∨ n ≤ m.idx) : s.dropAt m gen e = countedAt m 0x100 s := by
  unfold State.dropAt
  simp only [ht, Option.map_some, Option.getD_some, h, if_true]
  exact countHome_eq s m 0x100

variable {k : HomeAt} (h0 : m.idx ≠ 0) (hn : m.idx < n) (hk : s.homeAt m.ctx (m.home / 4) (m.home % 4) m.idx = some k)
include h0 hn hk

theorem dropAt_inside : s.dropAt m gen e =
    if !(s.home k).live || (s.home k).gen != gen.toNat then countedAt m 0x100 s
    else if 2 ^ (s.home k).tote < (s.home k).sum + 2 ^ e then countedAt m 0x101 s
    else if (s.home k).sum + 2 ^ e = 2 ^ (s.home k).tote then s.death m.ctx m.home m.idx k { s.home k with sum := (s.home k).sum + 2 ^ e }
    else s.setHome k { s.home k with sum := (s.home k).sum + 2 ^ e } := by
  unfold State.dropAt
  simp only [ht, Option.map_some, Option.getD_some, show ¬(m.idx = 0 ∨ n ≤ m.idx) by omega, if_false, hk, countHome_eq]
  rfl
end
end Sys2Proof.Machine
end

section
/-! SETTLED. A drop at its home. -/
open Sys2Proof Sys2Proof.Machine Sys2Proof.Spec

/-- Settles O43: by whether the drop names an entry, and then by the entry's life, generation and weight. -/
theorem dropAtHome : Obligations.DropAtHome := by
  unfold Obligations.DropAtHome
  refine ⟨fun s m gen e n b ht h => dropAt_outside ht h, fun s m gen e n b k ht h0 hn hk => ?_⟩
  have h := dropAt_inside (gen := gen) (e := e) ht h0 hn hk
  intro x
  change s.dropAt m gen e = if !x.live || x.gen != gen.toNat then _ else if 2 ^ x.tote < x.sum + 2 ^ e then _ else if x.sum + 2 ^ e = 2 ^ x.tote then _ else _ at h
  refine ⟨fun hst => ?_, fun hl hg hov => ?_, fun hl hg hlt => ?_, fun hl hg heq => ?_⟩
  · rw [h, if_pos]
    rcases hst with hd | hd
    · rw [hd]; rfl
    · rw [bne_iff_ne.mpr hd, Bool.or_true]
  all_goals
    have hlive : (!x.live || x.gen != gen.toNat) = false := by rw [hl, hg, bne_self_eq_false]; rfl
    simp only [hlive, if_false, Bool.false_eq_true] at h
  · rw [h, if_pos hov]
  · rw [h, if_neg (by omega), if_neg (by omega)]
  · rw [if_neg (by omega), if_pos heq] at h
    intro free
    unfold State.death State.sendDrop at h
    refine ⟨fun hi hf => ?_, fun hi => ?_, fun hi hf hp bs hbs => ?_⟩
    · rw [h]
      simp only [show (s.home k).ind = false from hi, show (s.home k).fin = false from hf, Bool.false_and, if_false, Bool.false_eq_true]
      rfl
    · rw [h]
      simp only [show (s.home k).ind = true from hi, if_true]
      rfl
    · rw [h]
      simp only [show (s.home k).ind = false from hi, show (s.home k).fin = true from hf, hp, beq_self_eq_true, Bool.and_self, if_true, if_false, Bool.false_eq_true]
      rw [show s.devRead m.ctx ((s.home k).frec.toNat % 2 ^ 56) 64 [0, 1] = some bs from hbs]
      rfl
end

section
/-! SUPPORT. Two queues of one number whose read indices differ (O44). -/

namespace Sys2Proof.Machine

open Sys2Proof.Spec Sys2Proof.Tests.Slice0

/-- A packet of one entry that has retired. -/
def twinLive : Live := ⟨1, 0, 1, .done⟩
/-- Queue 2 of context 0 with that packet in flight, and a second queue of the same number whose read index is 5 more. -/
def twinQueues : State :=
  let s := qLab { queueOf [buf true 1 [] none] none with live := [twinLive] }
  { s with queues := s.queues ++ s.queues.map fun q => { q with ridx := q.ridx + 5 } }
/-- The read index of the second queue. -/
def twinRidx (s : State) : Option Nat := (s.queues[1]?).map (·.ridx)
/-- The retirement as the statement has it: each queue of the number goes on from its own read index. -/
def twinRetired (x : SwQ) : State :=
  (twinQueues.modQ 0 2 fun x => { x with live := [], ridx := x.ridx + twinLive.ents }).devWrite 0 (twinQueues.qtabAt 0 2 + 0x10) (leBytes 8 (x.ridx + twinLive.ents))
theorem after_next (t : State) : Tests.Slice0.after (.next t) = t := rfl
theorem twin_retires : ∃ x, twinQueues.queue? 0 2 = some x ∧ (twinQueues.cpUp && x.live == [twinLive] && x.ridx == twinLive.idx &&
    twinRidx (Tests.Slice0.after (exec (.packetRetire 0 2) twinQueues)) != twinRidx (twinRetired x)) = true := ex_some (by decide +kernel)

end Sys2Proof.Machine
end

section
/-! SETTLED. The queues' events. -/
open Sys2Proof Sys2Proof.Machine Sys2Proof.Spec

/-- Refutes O44: as a packet retires, the statement has every queue of the number go on from its own read index, the model from the first one's; in a
state with two queues of one number, which the statement does not exclude, the second one's read index is 6 there and 1 in the model. -/
theorem not_queueEventsComplete : ¬ Obligations.QueueEventsComplete := by
  unfold Obligations.QueueEventsComplete
  intro h
  obtain ⟨-, -, -, retires, -⟩ := h
  obtain ⟨x, hx, ht⟩ := twin_retires
  simp only [Bool.and_eq_true, beq_iff_eq, bne_iff_ne, ne_eq] at ht
  obtain ⟨⟨⟨hup, hl⟩, hi⟩, hne⟩ := ht
  have hd : twinLive.w = .done := rfl
  have hn : twinLive.ents ≠ 0 := Nat.one_ne_zero
  have hstep : exec (.packetRetire 0 2) twinQueues = .next (twinRetired x) := retires twinQueues 0 2 x twinLive [] hup hx hl hd (fun y hy => absurd hy (List.not_mem_nil)) hn hi.symm
  rw [hstep, after_next] at hne
  exact hne rfl

end

section
/-! SUPPORT. A packet at the head of a slot's queue is served, and a PRED passes over what it names (O45). -/

namespace Sys2Proof.Machine

open Sys2Proof.Spec

/-! ## Serving a packet (R376, R380, R381) -/

variable {s t : State} {slot ty : Nat} {q : SwQ} {b : Buf} {bs : List Byte}
theorem fieldAt_append {xs ys : List Byte} {o n : Nat} (h : o + n ≤ xs.length) : fieldAt (xs ++ ys) o n = fieldAt xs o n := by
  unfold fieldAt
  rw [List.drop_append_of_le_length (by omega), List.take_append_of_le_length (by rw [List.length_drop]; omega)]
theorem length_of_hdrType {bs : List Byte} (h : hdrType bs ≠ 0) : 3 ≤ bs.length := by
  by_contra hlt
  refine h ?_
  unfold hdrType fieldAt
  rw [List.drop_eq_nil_of_le (by omega)]
  rfl
/-- The packet's type is its first entry's. -/
theorem hdrType_packet (hp : b.packet? = some (some bs)) {e : Fet} (he : (b.fet.find? (·.idx == b.next)) = some e) : hdrType bs = hdrType e.bytes := by
  unfold Buf.packet? at hp
  rw [he] at hp
  simp only [Option.bind_some] at hp
  split at hp
  · cases hp
  · split at hp
    · rw [Option.some.inj (Option.some.inj hp)]
    · next h1 =>
      split at hp
      · cases Option.some.inj hp
      · obtain ⟨f, -, hf⟩ := Option.map_eq_some_iff.mp hp
        rw [← Option.some.inj hf]
        refine fieldAt_append ?_
        have : hdrType e.bytes ≠ 0 := fun h0 => h1 (by rw [h0]; rfl)
        have := length_of_hdrType this
        omega
theorem hdrType_at (h : PacketAt s slot ty q b bs) : hdrType bs = ty := by
  obtain ⟨-, -, -, -, hp, ⟨e, he, rfl⟩, -⟩ := h
  exact hdrType_packet hp he
theorem serial_alone (h : PacketAt s slot ty q b bs) : (!(isSerial (hdrType bs) || hdrF bs 31 1 == 1) || q.alone) = true := by
  obtain ⟨-, -, -, -, -, -, hs, -⟩ := h
  by_cases hc : isSerial (hdrType bs) = true ∨ hdrF bs 31 1 = 1
  · rw [hs hc, Bool.or_true]
  · simp only [not_or, Bool.not_eq_true] at hc
    simp [hc.1, hc.2]
theorem servable_at (h : PacketAt s slot ty q b bs) : s.servable slot = s.judged q bs := by
  have hs := serial_alone h
  obtain ⟨hq, hr, hw, hb, hp, -⟩ := h
  simp only [State.servable, hq, hr, hw, hb, hp, Option.elim_some, Option.isNone_none, hs, Bool.and_self, Bool.true_and]
/-- A packet's body goes on: the turn passes where the packet was not one that waits. -/
theorem packet_runs {body : SwQ → Buf → List Byte → Act Unit} {p : Nat → Bool} (h : PacketAt s slot ty q b bs) (hty : p ty = true)
    (hb : body q b bs s = .ok ((), t)) : packet slot p body s = if s.judged q bs = true then served slot t else .next t := by
  have hv := servable_at h
  have hs := serial_alone h
  obtain ⟨hq, hr, hw, hh, hp, ⟨e, he, hety⟩, -, ht⟩ := h
  have hn : (s.qRuns q && q.wait.isNone && (!s.judged q bs || s.myTurn slot)) = true := by
    rw [hr, hw, Option.isNone_none, Bool.and_self, Bool.true_and, ← hv]
    cases hsv : s.servable slot with
    | false => rfl
    | true => rw [ht hsv]; rfl
  refine (runEvent_ok (t := if s.judged q bs = true then { t with turn := slot } else t) ?_).trans (by split <;> rfl)
  refine (act_bind_ok (act_get s)).trans ((act_bind_ok (someA_ok hq)).trans ?_)
  simp only [act_bind, act_needA, hv, hn, if_true, someA_ok hh, someA_ok hp, he, Option.map_some, Option.getD_some, hety, hty, hs, hb, act_modA]
/-- A packet that does not wait is served. -/
theorem packet_turn {body : SwQ → Buf → List Byte → Act Unit} {p : Nat → Bool} (h : PacketAt s slot ty q b bs) (hj : s.judged q bs = true) (hty : p ty = true)
    (hb : body q b bs s = .ok ((), t)) : packet slot p body s = served slot t := (packet_runs h hty hb).trans (if_pos hj)
/-- A packet that waits goes on out of turn. -/
theorem packet_waits {body : SwQ → Buf → List Byte → Act Unit} {p : Nat → Bool} (h : PacketAt s slot ty q b bs) (hj : s.judged q bs = false) (hty : p ty = true)
    (hb : body q b bs s = .ok ((), t)) : packet slot p body s = .next t := (packet_runs h hty hb).trans (if_neg (Bool.eq_false_iff.mp hj))
/-- A control packet, which waits for nothing but its turn. -/
def isControl (ty : Nat) : Bool := !([1, 2, 3, 5] : List Nat).contains ty
theorem judged_control (h : isControl (hdrType bs) = true) : s.judged q bs = true := by
  unfold State.judged
  split
  case h_5 => rfl
  all_goals simp_all [isControl]
/-- A control packet whose body goes on is served. -/
theorem packet_served {body : SwQ → Buf → List Byte → Act Unit} {p : Nat → Bool} (h : PacketAt s slot ty q b bs) (hc : isControl ty = true) (hty : p ty = true)
    (hb : body q b bs s = .ok ((), t)) : packet slot p body s = served slot t :=
  packet_turn h (judged_control (hdrType_at h ▸ hc)) hty hb

/-! ## A queue after a change -/

theorem queue?_modQ {ctx n : Nat} {x : SwQ} {f : SwQ → SwQ} (h : s.queue? ctx n = some x) (hf : ∀ y : SwQ, y.ctx = ctx ∧ y.q = n → (f y).ctx = ctx ∧ (f y).q = n) :
    (s.modQ ctx n f).queue? ctx n = some (f x) := by
  unfold State.queue? State.modQ at *
  have hx := List.find?_some h
  simp only [Bool.and_eq_true, beq_iff_eq] at hx
  rw [List.find?_map, List.find?_congr (p₂ := fun y => y.ctx == ctx && y.q == n), h, Option.map_some, if_pos hx]
  intro y _
  simp only [Function.comp]
  split
  case isTrue hy => rw [(hf y hy).1, (hf y hy).2, hy.1, hy.2]
  case isFalse => rfl
theorem queue?_name {ctx n : Nat} {x : SwQ} (h : s.queue? ctx n = some x) : x.ctx = ctx ∧ x.q = n := by
  have hx := List.find?_some (p := fun x : SwQ => x.ctx == ctx && x.q == n) h
  simpa only [Bool.and_eq_true, beq_iff_eq] using hx
/-- It is the same queue, as much halted. -/
def SameQ (x y : SwQ) : Prop := y.ctx = x.ctx ∧ y.q = x.q ∧ y.halted = x.halted
theorem SameQ.trans {x y z : SwQ} (h : SameQ x y) (k : SameQ y z) : SameQ x z := by
  obtain ⟨h1, h2, h3⟩ := h
  obtain ⟨k1, k2, k3⟩ := k
  exact ⟨k1.trans h1, k2.trans h2, k3.trans h3⟩
theorem past_same (q : SwQ) (n : Nat) : SameQ q (q.past n) := by
  unfold SwQ.past
  split
  · exact ⟨rfl, rfl, rfl⟩
  · dsimp only
    split <;> exact ⟨rfl, rfl, rfl⟩
theorem dispatch_same (q : SwQ) (n : Nat) (w : PkWait) : SameQ q (q.dispatch n w) := by
  unfold SwQ.dispatch
  split
  · exact ⟨rfl, rfl, rfl⟩
  · exact past_same _ n
theorem recount_same (x y : SwQ) : SameQ y (x.recount y) := by
  unfold SwQ.recount
  split <;> exact ⟨rfl, rfl, rfl⟩
@[simp] theorem recount_bufs (x y : SwQ) : (x.recount y).bufs = y.bufs := by unfold SwQ.recount; split <;> rfl
/-- The ring is the only buffer: entries of it are passed. -/
theorem dispatch_ring {n : Nat} {w : PkWait} (hb : q.bufs = [b]) (hr : b.ring = true) :
    (q.dispatch n w).bufs = [{ b with next := b.next + n, fet := b.fet.filter fun f => decide (b.next + n ≤ f.idx + 64) }] := by
  unfold SwQ.dispatch
  rw [hb]
  unfold SwQ.past
  simp only [settleBufs, hr, Bool.not_true, Bool.false_and, Bool.false_eq_true, if_false, if_true, apply_ite SwQ.bufs, ite_self]

/-! ## Passing over what a failed PRED names (R389) -/

/-- A queue in its ring, with `n` entries to pass over since the PRED at `p`; what is fetched from its next entry on is what `b` holds. -/
structure Skipping (b : Buf) (p n : Nat) (x : SwQ) (c : Buf) : Prop where
  bufs : x.bufs = [c]
  ring : c.ring = true
  skip : c.skip = if n = 0 then none else some (p, n)
  fet : ∀ i, c.next ≤ i → c.fet.find? (·.idx == i) = b.fet.find? (·.idx == i)
theorem find?_kept (l : List Fet) {m i : Nat} (h : m ≤ i) : (l.filter fun f => decide (m ≤ f.idx + 64)).find? (·.idx == i) = l.find? (·.idx == i) := by
  rw [List.find?_filter]
  refine List.find?_congr fun f _ => ?_
  by_cases hf : f.idx = i
  · have : m ≤ i + 64 := by omega
    simp only [hf, this, decide_true, Bool.decide_and, Bool.decide_eq_true, Bool.true_and]
  · simp [hf]
/-- Where a packet of `k` entries is passed over, `n - k` are left. -/
theorem Skipping.passOver {p n k : Nat} {x : SwQ} {c : Buf} (h : Skipping b p n x c) (hn : n ≠ 0) (hk : k ≤ n) :
    SameQ x (x.passOver k) ∧ ∃ c', Skipping b p (n - k) (x.passOver k) c' ∧ c'.next = c.next + k := by
  obtain ⟨hb, hr, hs, hf⟩ := h
  rw [if_neg hn] at hs
  unfold SwQ.passOver
  rw [hb]
  refine ⟨dispatch_same _ _ _, _, ⟨dispatch_ring rfl hr, hr, ?_, fun i hi => ?_⟩, rfl⟩
  · simp only [hs, Option.bind_some]
    by_cases hkn : n ≤ k
    · rw [if_pos hkn, if_pos (by omega)]
    · rw [if_neg hkn, if_neg (by omega)]
  · have hi : c.next + k ≤ i := hi
    exact (find?_kept c.fet hi).trans (hf i (by omega))
theorem entsOf_pos (ty : Nat) : 1 ≤ entsOf ty := by
  unfold entsOf
  split <;> omega
/-- The entries named end on a packet boundary: all are passed over. -/
theorem skipOn_passes {p : Nat} : ∀ {f n : Nat} {x : SwQ} {c : Buf}, Skipping b p n x c → n < f → passes b f c.next n = true →
    ∃ y c', SwQ.skipOn f x = (y, true) ∧ SameQ x y ∧ y.bufs = [c'] ∧ c'.next = c.next + n ∧ c'.skip = none
  | f + 1, n, x, c, h, hn, hp => by
    by_cases h0 : n = 0
    · have hs : c.skip = none := h.skip.trans (if_pos h0)
      refine ⟨x, c, ?_, ⟨rfl, rfl, rfl⟩, h.bufs, by omega, hs⟩
      rw [SwQ.skipOn, h.bufs, List.head?_cons, Option.bind_some, hs, Option.bind_none]
    · have hs := h.skip.trans (if_neg h0)
      simp only [passes, beq_iff_eq, h0, Bool.or_eq_true, false_or] at hp
      obtain ⟨e, he, hp⟩ := Tests.Slice0.ex_some hp
      simp only [Bool.and_eq_true, decide_eq_true_eq] at hp
      obtain ⟨hk, hp⟩ := hp
      obtain ⟨hsame, c', h', hc'⟩ := h.passOver h0 hk
      have hpos := entsOf_pos (hdrType e.bytes)
      obtain ⟨y, d, hy, hd, hb, hnext, hskip⟩ := skipOn_passes h' (by omega) (hc' ▸ hp)
      refine ⟨y, d, ?_, hsame.trans hd, hb, by omega, hskip⟩
      rw [SwQ.skipOn, h.bufs, List.head?_cons, Option.bind_some, hs, Option.bind_some, h.fet _ (Nat.le_refl _), he, Option.map_some]
      exact (if_neg (by omega)).trans hy
/-- All that is named is there and ends on no boundary: the passing over fails. -/
theorem skipOn_cuts {p : Nat} : ∀ {f n : Nat} {x : SwQ} {c : Buf}, Skipping b p n x c → n < f → (∀ i < n, ∃ e ∈ b.fet, e.idx = c.next + i) →
    passes b f c.next n = false → ∃ y, SwQ.skipOn f x = (y, false)
  | f + 1, n, x, c, h, hn, ha, hp => by
    have h0 : n ≠ 0 := fun h0 => by simp [passes, h0] at hp
    have hs := h.skip.trans (if_neg h0)
    obtain ⟨d, hd, hi⟩ := ha 0 (Nat.pos_of_ne_zero h0)
    obtain ⟨e, he⟩ := Option.isSome_iff_exists.mp ((List.find?_isSome (p := fun f : Fet => f.idx == c.next)).mpr ⟨d, hd, beq_iff_eq.mpr hi⟩)
    have hpos := entsOf_pos (hdrType e.bytes)
    rw [SwQ.skipOn, h.bufs, List.head?_cons, Option.bind_some, hs, Option.bind_some, h.fet _ (Nat.le_refl _), he, Option.map_some]
    by_cases hk : n < entsOf (hdrType e.bytes)
    · exact ⟨x, if_pos hk⟩
    · obtain ⟨-, c', h', hc'⟩ := h.passOver h0 (Nat.not_lt.mp hk)
      obtain ⟨y, hy⟩ := skipOn_cuts (f := f) h' (by omega) (fun i hin => by
        obtain ⟨a, ha, hai⟩ := ha (entsOf (hdrType e.bytes) + i) (by omega)
        exact ⟨a, ha, by omega⟩) (by
        rw [hc']
        simpa [passes, h0, he, Nat.not_lt.mp hk] using hp)
      exact ⟨y, (if_neg hk).trans hy⟩
/-- A PRED whose compare failed: what it leaves of the queue, before the entries are passed over. -/
def failedPred (p n : Nat) (x : SwQ) : SwQ :=
  x.recount ((x.setBuf fun y => { y with skip := if n = 0 then none else some (p, n) }).dispatch 1 .done)
theorem failedPred_same (p n : Nat) (x : SwQ) : SameQ x (failedPred p n x) :=
  (SameQ.trans (y := x.setBuf fun y => { y with skip := if n = 0 then none else some (p, n) }) ⟨rfl, rfl, rfl⟩ (dispatch_same _ 1 .done)).trans (recount_same _ _)
theorem failedPred_skipping {n : Nat} {x : SwQ} (hb : x.bufs = [b]) (hr : b.ring = true) :
    ∃ c, Skipping b b.next n (failedPred b.next n x) c ∧ c.next = b.next + 1 := by
  have hs : (x.setBuf fun y => { y with skip := if n = 0 then none else some (b.next, n) }).bufs = [{ b with skip := if n = 0 then none else some (b.next, n) }] := by
    unfold SwQ.setBuf
    rw [hb]
  refine ⟨_, ⟨(recount_bufs _ _).trans (dispatch_ring hs hr), hr, rfl, fun i hi => ?_⟩, rfl⟩
  exact find?_kept b.fet hi
/-- Where a queue's entries are passed over, and it runs on. -/
theorem queue?_skipOn {ctx n : Nat} {x y : SwQ} (h : s.queue? ctx n = some x) (hy : SwQ.skipOn 256 x = (y, true)) (hs : SameQ x y) :
    (s.skipOn ctx n).queue? ctx n = some (x.recount y) := by
  obtain ⟨rfl, rfl⟩ := queue?_name h
  unfold State.skipOn
  rw [h]
  simp only [hy, if_true]
  obtain ⟨h1, h2, -⟩ := hs.trans (recount_same x y)
  exact queue?_modQ h fun _ _ => ⟨h1, h2⟩
theorem atPred_same (x : SwQ) : SameQ x x.atPred := by
  unfold SwQ.atPred
  repeat' split
  all_goals exact ⟨rfl, rfl, rfl⟩
theorem devWrite_queues (s : State) (c va : Nat) (bs : List Byte) : (s.devWrite c va bs).queues = s.queues := by
  obtain ⟨m, w, e, p, hm⟩ := devWrite_eq s c va bs
  rw [hm]
/-- A queue halted where a PRED's entries end stands at the PRED. -/
theorem queue?_haltQ {x : SwQ} {k : Nat} (h : s.queue? x.ctx x.q = some x) :
    (s.haltQ x k).queue? x.ctx x.q = some { x.atPred with halted := true } := by
  obtain ⟨h1, h2, -⟩ := atPred_same x
  have ha := queue?_modQ h (f := SwQ.atPred) fun y hy => by
    obtain ⟨h1, h2, -⟩ := atPred_same y
    exact ⟨h1.trans hy.1, h2.trans hy.2⟩
  have hh := queue?_modQ ha (f := fun x => { x with halted := true }) fun y hy => hy
  unfold State.haltQ
  simp only [h1, h2] at hh ⊢
  refine Eq.trans ?_ hh
  unfold State.queue? State.postStatus
  simp only [devWrite_queues]
theorem atPred_skipping {p n : Nat} {x : SwQ} {c : Buf} (h : Skipping b p n x c) (hn : n ≠ 0) : x.atPred.bufs = [{ c with next := p, skip := none }] := by
  unfold SwQ.atPred
  rw [h.bufs]
  simp only [h.skip, if_neg hn]
/-! ## PRED (R389) -/

/-- The state a PRED's failed compare leaves. -/
def predFails (s : State) (q : SwQ) (b : Buf) (n : Nat) : State := (s.modQ q.ctx q.q (failedPred b.next n)).skipOn q.ctx q.q
/-- Where the queue stands and whether it is halted. -/
def standsAt (s : State) (q : SwQ) : Option (List (Nat × Option (Nat × Nat)) × Bool) := (s.queue? q.ctx q.q).map fun y => (y.bufs.map fun x => (x.next, x.skip), y.halted)
theorem queue?_of_slot (h : s.slotQ slot = some q) (hu : ∀ y ∈ s.queues, y.ctx = q.ctx → y.q = q.q → y = q) : s.queue? q.ctx q.q = some q := by
  have hm := List.mem_of_find?_eq_some h
  obtain ⟨x, hx⟩ := Option.isSome_iff_exists.mp ((List.find?_isSome (p := fun y : SwQ => y.ctx == q.ctx && y.q == q.q)).mpr ⟨q, hm, by simp⟩)
  obtain ⟨h1, h2⟩ := queue?_name hx
  rw [← hu x (List.mem_of_find?_eq_some hx) h1 h2]
  exact h1 ▸ h2 ▸ hu x (List.mem_of_find?_eq_some hx) h1 h2 ▸ hx
theorem predFails_passes {n : Nat} (hq : s.queue? q.ctx q.q = some q) (hb : q.bufs = [b]) (hr : b.ring = true) (hn : n < 256) (hp : passes b 256 (b.next + 1) n = true) :
    standsAt (predFails s q b n) q = some ([(b.next + 1 + n, none)], q.halted) := by
  obtain ⟨c, hk, hc⟩ := failedPred_skipping (n := n) hb hr
  obtain ⟨y, d, hy, hs, hd, hdn, hds⟩ := skipOn_passes hk hn (hc ▸ hp)
  have hq' := queue?_modQ hq (f := failedPred b.next n) fun y hy => by
    obtain ⟨h1, h2, -⟩ := failedPred_same b.next n y
    exact ⟨h1.trans hy.1, h2.trans hy.2⟩
  obtain ⟨-, -, hh⟩ := ((failedPred_same b.next n q).trans hs).trans (recount_same (failedPred b.next n q) y)
  unfold standsAt predFails
  rw [queue?_skipOn hq' hy hs, Option.map_some, recount_bufs, hd, hh, List.map_singleton, hdn, hds, hc]
theorem predFails_cuts {n : Nat} (hq : s.queue? q.ctx q.q = some q) (hb : q.bufs = [b]) (hr : b.ring = true) (hn : n < 256) (ha : ∀ i < n, ∃ e ∈ b.fet, e.idx = b.next + 1 + i)
    (hp : passes b 256 (b.next + 1) n = false) : standsAt (predFails s q b n) q = some ([(b.next, none)], true) := by
  have h0 : n ≠ 0 := by
    rintro rfl
    exact Bool.noConfusion hp
  obtain ⟨c, hk, hc⟩ := failedPred_skipping (n := n) hb hr
  obtain ⟨y, hy⟩ := skipOn_cuts hk hn (hc ▸ ha) (hc ▸ hp)
  obtain ⟨h1, h2, -⟩ := failedPred_same b.next n q
  have hq' := queue?_modQ hq (f := failedPred b.next n) fun y hy => by
    obtain ⟨h1, h2, -⟩ := failedPred_same b.next n y
    exact ⟨h1.trans hy.1, h2.trans hy.2⟩
  unfold standsAt predFails State.skipOn
  rw [hq']
  simp only [hy, Bool.false_eq_true, if_false]
  rw [← h1, ← h2] at hq' ⊢
  rw [queue?_haltQ hq', Option.map_some, atPred_skipping hk h0]
  rfl
theorem hdrF_lt (bs : List Byte) (lo n : Nat) : hdrF bs lo n < 2 ^ n := Nat.mod_lt _ (Nat.two_pow_pos n)

/-! ## The packets one by one -/

theorem exec_nop_served (h : PacketAt s slot 0 q b bs) : exec (.nopPacket slot) s = served slot (s.dispatch q 1 .done) := by
  show execNopPacket slot s = _
  unfold execNopPacket
  refine packet_served h rfl rfl ?_
  rw [hdrType_at h]
  rfl
theorem exec_pred_holds (h : PacketAt s slot 7 q b bs) (hc : s.compare q.ctx bs = some true) : exec (.pred slot) s = served slot (s.dispatch q 1 .done) := by
  show execPred slot s = _
  unfold execPred
  refine packet_served h rfl rfl ?_
  simp only [act_bind, act_get, hc]
  rfl
theorem exec_pred_fails (h : PacketAt s slot 7 q b bs) (hc : s.compare q.ctx bs = some false) (hn : b.ring = true ∨ b.next + 1 + hdrF bs 40 8 ≤ b.nent) :
    exec (.pred slot) s = served slot (predFails s q b (hdrF bs 40 8)) := by
  have hb : (!b.ring && decide (b.nent < b.next + 1 + hdrF bs 40 8)) = false := by
    rcases hn with hr | hn
    · rw [hr]; rfl
    · rw [decide_eq_false (Nat.not_lt.mpr hn), Bool.and_false]
  show execPred slot s = _
  unfold execPred
  refine packet_served h rfl rfl ?_
  simp only [act_bind, act_get, hc, hb, Bool.false_eq_true, if_false]
  rfl
theorem exec_loop_starts (h : PacketAt s slot 8 q b bs) (hl : b.loop = none) (hr : b.ring = false) (hc : hdrF bs 48 16 ≠ 0) (h1 : 1 ≤ hdrF bs 32 8) (h32 : hdrF bs 32 8 ≤ 32)
    (hn : hdrF bs 32 8 ≤ b.next) (hb : b.bodyOk 33 (b.next - hdrF bs 32 8) (hdrF bs 32 8) = true) :
    exec (.loop slot) s = served slot (s.modQ q.ctx q.q fun x =>
      ({ x with given := x.given + 1, live := x.live ++ [(⟨x.given + 1, b.next, 0, .loop q.bufs.length⟩ : Live)] } : SwQ).setBuf fun b =>
        { b with loop := some (hdrF bs 48 16 - 1, b.next + 1), next := b.next - hdrF bs 32 8 }) := by
  have hbad : (b.ring || hdrF bs 48 16 == 0 || hdrF bs 32 8 == 0 || decide (32 < hdrF bs 32 8 ∨ b.next < hdrF bs 32 8)) = false := by
    rw [hr, beq_eq_false_iff_ne.mpr hc, beq_eq_false_iff_ne.mpr (by omega), decide_eq_false (by omega)]
    rfl
  show execLoop slot s = _
  unfold execLoop
  refine packet_served h rfl rfl ?_
  simp only [hl, hbad, hb, Bool.not_true, Bool.false_eq_true, if_false]
  rfl
theorem exec_loop_again {k a : Nat} (h : PacketAt s slot 8 q b bs) (hl : b.loop = some (k + 1, a)) :
    exec (.loop slot) s = served slot (s.modQ q.ctx q.q (·.setBuf fun b => { b with loop := some (k, a), next := b.next - hdrF bs 32 8 })) := by
  show execLoop slot s = _
  unfold execLoop
  refine packet_served h rfl rfl ?_
  simp only [hl]
  rfl
theorem exec_loop_ends {a : Nat} (h : PacketAt s slot 8 q b bs) (hl : b.loop = some (0, a)) :
    exec (.loop slot) s = served slot (s.modQ q.ctx q.q fun x =>
      (({ x with live := x.live.map fun l => if l.w = .loop q.bufs.length then { l with w := .done } else l } : SwQ).setBuf fun b => { b with loop := none }).past 1) := by
  show execLoop slot s = _
  unfold execLoop
  refine packet_served h rfl rfl ?_
  simp only [hl]
  rfl
/-- The fields of an IB are legal (R388). -/
theorem ib_legal {n a : Nat} (h1 : 1 ≤ n) (hn : n ≤ 65536) (ha : a % 64 = 0) (hr : (s.read01 q.ctx a 64).isSome = true) :
    ¬(n = 0 ∨ 65536 < n ∨ a % 64 ≠ 0 ∨ (s.read01 q.ctx a 64).isNone = true) := by
  rintro (h | h | h | h)
  · omega
  · omega
  · exact h ha
  · rw [Option.isNone_iff_eq_none] at h
    rw [h] at hr
    cases hr
theorem exec_ib_enters (h : PacketAt s slot 6 q b bs) (h1 : 1 ≤ hdrF bs 32 17) (hn : hdrF bs 32 17 ≤ 65536) (ha : fieldAt bs 8 7 % 64 = 0)
    (hr : (s.read01 q.ctx (fieldAt bs 8 7) 64).isSome = true) (h5 : q.bufs.length ≠ 5) :
    exec (.ib slot) s = served slot (s.modQ q.ctx q.q (entersBuf (fieldAt bs 8 7) (hdrF bs 32 17))) := by
  show execIb slot s = _
  unfold execIb
  refine packet_served h rfl rfl ?_
  simp only [act_bind, act_get, if_neg (ib_legal h1 hn ha hr), if_neg h5, act_modA]
  rfl
theorem exec_ib_deep (h : PacketAt s slot 6 q b bs) (h5 : q.bufs.length = 5) (h1 : 1 ≤ hdrF bs 32 17) (hn : hdrF bs 32 17 ≤ 65536) (ha : fieldAt bs 8 7 % 64 = 0)
    (hr : (s.read01 q.ctx (fieldAt bs 8 7) 64).isSome = true) : exec (.ib slot) s = served slot (s.haltQ q 0x0B) := by
  show execIb slot s = _
  unfold execIb
  refine packet_served h rfl rfl ?_
  simp only [act_bind, act_get, if_neg (ib_legal h1 hn ha hr), if_pos h5, act_modA]
theorem exec_wait_holds (h : PacketAt s slot 9 q b bs) (hc : s.compare q.ctx bs = some true) : exec (.wait slot) s = served slot (s.dispatch q 1 .done) := by
  show execWait slot s = _
  unfold execWait
  refine packet_served h rfl rfl ?_
  simp only [act_bind, act_get, hc]
  rfl
theorem exec_wait_begins (h : PacketAt s slot 9 q b bs) (hc : s.compare q.ctx bs = some false) :
    exec (.wait slot) s = served slot (s.modQ q.ctx q.q fun x =>
      { x with wait := some ⟨0, false, decide ((s.ctxD q.ctx).rcd.srd = 0), false⟩, slot := if decide ((s.ctxD q.ctx).rcd.srd = 0) = true then none else x.slot }) := by
  show execWait slot s = _
  unfold execWait
  refine packet_served h rfl rfl ?_
  simp only [act_bind, act_get, hc]
  rfl
/-- The word that a SIGNAL leaves (R393). -/
def signalled (op w v : Nat) : Nat := if op = 0 then v else if op = 1 then (w + v) % 2 ^ 64 else (w + 2 ^ 64 - v) % 2 ^ 64
theorem exec_signal_writes {w : Nat} (h : PacketAt s slot 0xA q b bs) (hw : s.ctlWord q.ctx (fieldAt bs 8 7) = some w) (hop : hdrF bs 32 2 ≠ 3) :
    exec (.signal slot) s = served slot ((s.devWrite q.ctx (fieldAt bs 8 7) (leBytes 8 (signalled (hdrF bs 32 2) w (fieldAt bs 0x10 8)))).dispatch q 1 .done) := by
  show execSignal slot s = _
  unfold execSignal
  refine packet_served h rfl rfl ?_
  simp only [act_bind, act_get, hw, if_neg hop, act_set]
  rfl
theorem exec_complete_posts (h : PacketAt s slot 0xC q b bs) (hq : fieldAt bs 0x18 2 < (s.ctxD q.ctx).rcd.ncq.toNat) (hm : hdrF bs 32 2 = 0) :
    exec (.complete slot) s = served slot { s.dispatch q 1 .cq with
      cqPend := s.cqPend ++ [(⟨.queue, q.ctx, fieldAt bs 0x18 2, BitVec.ofNat 64 (fieldAt bs 0x10 8), q.q, 0, 0, 0, some (q.q, q.given + 1), 0⟩ : CqEnt)] } := by
  have hok : ¬(hdrF bs 32 2 = 3 ∨ (s.ctxD q.ctx).rcd.ncq.toNat ≤ fieldAt bs 0x18 2 ∨ (hdrF bs 32 2 ≠ 0 ∧ s.ctlWord q.ctx (fieldAt bs 8 7) = none)) := by
    rintro (h3 | hn | ⟨h0, -⟩) <;> omega
  show execComplete slot s = _
  unfold execComplete
  refine packet_served h rfl rfl ?_
  simp only [act_bind, act_get, if_neg hok]
  simp only [hm, ne_eq, not_true_eq_false, false_and, if_true, if_false, Nat.zero_ne_one, act_set]
theorem exec_complete_counts {w : Nat} (h : PacketAt s slot 0xC q b bs) (hq : fieldAt bs 0x18 2 < (s.ctxD q.ctx).rcd.ncq.toNat) (hm : hdrF bs 32 2 = 1) (hi : hdrF bs 34 1 = 0)
    (hw : s.ctlWord q.ctx (fieldAt bs 8 7) = some w) :
    exec (.complete slot) s = served slot ((s.devWrite q.ctx (fieldAt bs 8 7) (leBytes 8 ((w + 2 ^ 64 - 1) % 2 ^ 64))).dispatch q 1 .done) := by
  have hok : ¬(hdrF bs 32 2 = 3 ∨ (s.ctxD q.ctx).rcd.ncq.toNat ≤ fieldAt bs 0x18 2 ∨ (hdrF bs 32 2 ≠ 0 ∧ s.ctlWord q.ctx (fieldAt bs 8 7) = none)) := by
    rintro (h3 | hn | ⟨-, hn⟩)
    · omega
    · omega
    · rw [hw] at hn; cases hn
  show execComplete slot s = _
  unfold execComplete
  refine packet_served h rfl rfl ?_
  simp only [act_bind, act_get, if_neg hok]
  simp only [hm, hi, hw, ne_eq, Nat.zero_ne_one, Nat.one_ne_zero, not_false_eq_true, false_and, and_false, if_true, if_false, Option.getD_some, act_set]

/-! ## A WAIT in progress (R391, R392) -/

variable {w : WaitSt}
theorem waiting_ok (h : WaitsAt s q w bs) : waiting q s = .ok ((w, bs), s) := by
  obtain ⟨-, hw, b, e, hb, he, rfl⟩ := h
  unfold waiting
  exact (act_bind_ok (someA_ok hw)).trans ((act_bind_ok (someA_ok hb)).trans ((act_bind_ok (someA_ok he)).trans (act_pure _ s)))
theorem exec_poll_holds (h : WaitsAt s q w bs) (hq : s.slotQ slot = some q) (hd : w.cycles + 256 ≤ (s.ctxD q.ctx).rcd.srd.toNat) (hc : s.compare q.ctx bs = some true) :
    exec (.waitPoll slot) s = .next (s.modQ q.ctx q.q fun x => ({ x with wait := none } : SwQ).dispatch 1 .done) := by
  refine runEvent_ok ((act_bind_ok (act_get s)).trans ((act_bind_ok (someA_ok hq)).trans ?_))
  simp only [act_bind, act_needA, h.1, if_true, waiting_ok h, decide_eq_true hd, hc, Option.getD_some, act_set]
  rfl
theorem exec_poll_fails (h : WaitsAt s q w bs) (hq : s.slotQ slot = some q) (hd : w.cycles + 256 ≤ (s.ctxD q.ctx).rcd.srd.toNat) (hc : s.compare q.ctx bs = some false) :
    exec (.waitPoll slot) s = .next (s.modQ q.ctx q.q fun x => { x with wait := some { w with cycles := w.cycles + 256 } }) := by
  refine runEvent_ok ((act_bind_ok (act_get s)).trans ((act_bind_ok (someA_ok hq)).trans ?_))
  simp only [act_bind, act_needA, h.1, if_true, waiting_ok h, decide_eq_true hd, hc, Option.getD_some, Bool.false_eq_true, if_false, act_set]
theorem exec_wait_parks (h : WaitsAt s q w bs) (hq : s.slotQ slot = some q) (hd : (s.ctxD q.ctx).rcd.srd.toNat < w.cycles + 256) :
    exec (.waitPark slot) s = .next (s.modQ q.ctx q.q fun x => { x with slot := none, wait := some { w with parked := true } }) := by
  refine runEvent_ok ((act_bind_ok (act_get s)).trans ((act_bind_ok (someA_ok hq)).trans ?_))
  simp only [act_bind, act_needA, h.1, if_true, waiting_ok h, decide_eq_true hd, act_set]
theorem exec_parked_holds {ctx n : Nat} (h : WaitsAt s q w bs) (hq : s.queue? ctx n = some q) (hp : w.parked = true) (hh : w.held = false) (hc : s.compare ctx bs = some true) :
    exec (.parkedWaitPoll ctx n) s = .next ((s.modQ ctx n fun x => { x with wait := some { w with held := true } }).wantSlot ctx n) := by
  refine runEvent_ok ((act_bind_ok (act_get s)).trans ((act_bind_ok (someA_ok hq)).trans ?_))
  simp only [act_bind, act_needA, h.1, if_true, waiting_ok h, hp, hh, Bool.not_false, Bool.and_self, hc, Option.getD_some, act_set]
theorem exec_parked_fails {ctx n : Nat} (h : WaitsAt s q w bs) (hq : s.queue? ctx n = some q) (hp : w.parked = true) (hh : w.held = false) (hc : s.compare ctx bs = some false) :
    exec (.parkedWaitPoll ctx n) s = .next (s.modQ ctx n fun x => { x with wait := some { w with cycles := w.cycles + 4096 } }) := by
  refine runEvent_ok ((act_bind_ok (act_get s)).trans ((act_bind_ok (someA_ok hq)).trans ?_))
  simp only [act_bind, act_needA, h.1, if_true, waiting_ok h, hp, hh, Bool.not_false, Bool.and_self, hc, Option.getD_some, Bool.false_eq_true, if_false, act_set]
theorem exec_wait_stalls {ctx n : Nat} (h : WaitsAt s q w bs) (hq : s.queue? ctx n = some q) (hs : w.stall = false) (hh : w.held = false) (h1 : 1 ≤ (s.ctxD ctx).rcd.wlim.toNat)
    (hl : (s.ctxD ctx).rcd.wlim.toNat < w.cycles + (if w.parked then 4096 else 256)) :
    exec (.waitStall ctx n) s = .next ((s.modQ ctx n fun x => { x with wait := some { w with stall := true } }).postStatus q 0x0C ((q.bufs.head?.map (·.next)).getD 0)) := by
  refine runEvent_ok ((act_bind_ok (act_get s)).trans ((act_bind_ok (someA_ok hq)).trans ?_))
  simp only [act_bind, act_needA, h.1, if_true, waiting_ok h, hs, hh, Bool.not_false, Bool.and_self, decide_eq_true (And.intro h1 hl), act_set]
end Sys2Proof.Machine
end

section
/-! SETTLED. Control packets. -/
open Sys2Proof Sys2Proof.Machine Sys2Proof.Spec

/-- Settles O45: each packet's body is run at the head of its queue, whose turn then is over; a failed PRED passes over the packets it names one by one. -/
theorem controlPacketsComplete : Obligations.ControlPacketsComplete := by
  unfold Obligations.ControlPacketsComplete
  refine ⟨fun s slot q b bs => ⟨fun h _ => exec_nop_served h, fun h => ⟨exec_pred_holds h, fun hc => ?_⟩, fun h => ⟨exec_loop_starts h, fun _ _ => exec_loop_again h, fun _ => exec_loop_ends h⟩,
    fun h => exec_ib_enters h, fun h => exec_ib_deep h, fun h => ⟨exec_wait_holds h, exec_wait_begins h⟩, fun w h => exec_signal_writes h, fun h => ?_,
    fun h hq => ⟨exec_complete_posts h hq, fun w => exec_complete_counts h hq⟩⟩,
    fun s slot q w bs h => ⟨fun hq => ⟨exec_poll_holds h hq, exec_poll_fails h hq, exec_wait_parks h hq⟩,
      fun ctx n hq => ⟨fun hp hh => ⟨exec_parked_holds h hq hp hh, exec_parked_fails h hq hp hh⟩, exec_wait_stalls h hq⟩⟩⟩
  · intro n
    refine ⟨exec_pred_fails h hc, fun hr hb hu => ?_⟩
    have hq := queue?_of_slot h.1 hu
    have hn : n < 256 := hdrF_lt bs 40 8
    exact ⟨fun hp => ⟨_, exec_pred_fails h hc (.inl hr), predFails_passes hq hb hr hn hp⟩,
      fun ha hp => ⟨_, exec_pred_fails h hc (.inl hr), predFails_cuts hq hb hr hn ha hp⟩⟩
  · show execFetchFence slot s = _
    unfold execFetchFence
    exact packet_served h rfl rfl rfl
end

section
/-! SUPPORT. Freezing and restoring a context (O46). -/

namespace Sys2Proof.Machine

open Sys2Proof.Spec

/-! ## What neither touches -/

/-- From `s` to `t` no thread, grid or queue changes, nor any block but those numbered in `ns`. -/
structure LeavesOthers (ns : Nat → Prop) (s t : State) : Prop where
  calm : Calm s t
  grids : t.grids = s.grids
  queues : t.queues = s.queues
  blk : ∀ n, ¬ns n → t.blk? n = s.blk? n
  named : ∀ b ∈ t.blocks, ∃ b' ∈ s.blocks, b'.uid = b.uid ∧ b'.ctx = b.ctx
variable {ns : Nat → Prop} {s t : State}
theorem LeavesOthers.refl (s : State) : LeavesOthers ns s s := ⟨calm_rfl s, rfl, rfl, fun _ _ => rfl, fun b hb => ⟨b, hb, rfl, rfl⟩⟩
theorem LeavesOthers.trans {x : State} (h : LeavesOthers ns s t) (k : LeavesOthers ns t x) : LeavesOthers ns s x :=
  ⟨h.calm.trans k.calm, k.grids.trans h.grids, k.queues.trans h.queues, fun n hn => (k.blk n hn).trans (h.blk n hn), fun b hb => by
    obtain ⟨c, hc, hu, hx⟩ := k.named b hb
    obtain ⟨d, hd, hv, hy⟩ := h.named c hc
    exact ⟨d, hd, hv.trans hu, hy.trans hx⟩⟩
theorem leavesOthers_foldl {α : Type} {f : State → α → State} : ∀ {l : List α} {s : State}, (∀ s, ∀ a ∈ l, LeavesOthers ns s (f s a)) → LeavesOthers ns s (l.foldl f s)
  | [], s, _ => .refl s
  | a :: _, s, h => (h s a List.mem_cons_self).trans (leavesOthers_foldl fun s x hx => h s x (List.mem_cons_of_mem a hx))
theorem leavesOthers_blocks (hb : t.blocks = s.blocks) (hg : t.grids = s.grids) (hq : t.queues = s.queues) : LeavesOthers ns s t :=
  ⟨calm_blocks hb, hg, hq, fun n _ => by unfold State.blk?; rw [hb], fun b h => ⟨b, hb ▸ h, rfl, rfl⟩⟩
theorem leavesOthers_devWrite (s : State) (c va : Nat) (bs : List Byte) : LeavesOthers ns s (s.devWrite c va bs) :=
  leavesOthers_blocks (devWrite_blocks s c va bs) (devWrite_grids s c va bs) (devWrite_queues s c va bs)
theorem leavesOthers_modCtx (s : State) (c : Nat) (f : Ctx → Ctx) : LeavesOthers ns s (s.modCtx c f) :=
  leavesOthers_blocks (modCtx_blocks ..) (modCtx_grids ..) (modCtx_queues ..)
theorem leavesOthers_modCore (s : State) (c : Nat) (f : Core → Core) : LeavesOthers ns s (s.modCore c f) := leavesOthers_blocks rfl rfl rfl
theorem leavesOthers_modBlk (s : State) {n : Nat} (f : Block → Block) (hn : ns n) (hf : ∀ b, blkThreads (f b) = blkThreads b) (hc : ∀ b, (f b).ctx = b.ctx) :
    LeavesOthers ns s (s.modBlk n f) := by
  have hu : ∀ b, (f b).uid = b.uid := fun b => congrArg Prod.fst (hf b)
  refine ⟨calm_modBlk s n f hf, rfl, rfl, fun m hm => ?_, fun b hb => ?_⟩
  · rw [blk_modBlk s n m f hu, if_neg]
    rintro rfl
    exact hm hn
  · obtain ⟨x, hx, rfl⟩ := List.mem_map.mp hb
    refine ⟨x, hx, ?_⟩
    split
    · exact ⟨(hu x).symm, (hc x).symm⟩
    · exact ⟨rfl, rfl⟩
theorem blkThreads_modGrp (b : Block) (u : UnitRef) {f : Grp → Grp} (hf : ∀ g, (f g).threads = g.threads) : blkThreads (b.modGrp u f) = blkThreads b := by
  cases u with
  | front n => simp [Block.modGrp, blkThreads, hf]
  | group n g =>
    simp only [Block.modGrp, blkThreads, Prod.mk.injEq, true_and]
    apply List.ext_getElem?
    intro i
    simp only [List.getElem?_map, List.getElem?_modify]
    cases b.groups[i]? <;> simp; split <;> simp [hf]
theorem leavesOthers_modGrp (s : State) {u : UnitRef} (f : Grp → Grp) (hn : ns u.blk) (hf : ∀ g, (f g).threads = g.threads) : LeavesOthers ns s (s.modGrp u f) :=
  leavesOthers_modBlk s _ hn (fun b => blkThreads_modGrp b u hf) fun b => by cases u <;> rfl
theorem leavesOthers_noteStop (s : State) (c : Nat) (u : UnitRef) : LeavesOthers ns s (s.noteStop c u) := by
  unfold State.noteStop
  split
  · exact .refl s
  · exact leavesOthers_blocks rfl rfl rfl
theorem leavesOthers_endRun (s : State) {u : UnitRef} (hn : ns u.blk) : LeavesOthers ns s (s.endRun u) := by
  unfold State.endRun
  split
  · exact .refl s
  · refine LeavesOthers.trans (LeavesOthers.trans ?_ (leavesOthers_modGrp _ _ hn ?_)) (leavesOthers_modCore ..)
    · split
      · exact .refl s
      · exact leavesOthers_noteStop ..
    · exact fun _ => rfl
theorem mem_insertBy {α : Type} {le : α → α → Bool} {x y : α} : ∀ {l : List α}, x ∈ insertBy le y l ↔ x = y ∨ x ∈ l
  | [] => by simp [insertBy]
  | z :: l => by
    unfold insertBy
    split
    · rw [List.mem_cons]
    · rw [List.mem_cons, mem_insertBy, List.mem_cons, or_left_comm]
theorem mem_sortBy {α : Type} {le : α → α → Bool} {x : α} : ∀ {l : List α}, x ∈ sortBy le l ↔ x ∈ l
  | [] => Iff.rfl
  | y :: l => by
    show x ∈ insertBy le y (sortBy le l) ↔ _
    rw [mem_insertBy, mem_sortBy, List.mem_cons]
theorem mem_ctxBlocks {ctx : Nat} {b : Block} : b ∈ s.ctxBlocks ctx ↔ b ∈ s.blocks ∧ b.ctx = ctx := by
  rw [State.ctxBlocks, mem_sortBy, List.mem_filter, beq_iff_eq]

/-! ## Freezing (R404, R405, R428) -/

/-- The numbers of a context's blocks. -/
def OfCtx (s : State) (ctx n : Nat) : Prop := ∃ b ∈ s.ctxBlocks ctx, b.uid = n
theorem leavesOthers_writeImage (s : State) (ctx via image : Nat) (g : Grid) : LeavesOthers ns s (s.writeImage ctx via image g) := by
  unfold State.writeImage
  refine LeavesOthers.trans ?_ (leavesOthers_devWrite ..)
  refine LeavesOthers.trans ?_ (leavesOthers_foldl fun _ _ _ => leavesOthers_devWrite ..)
  refine LeavesOthers.trans ?_ (leavesOthers_devWrite ..)
  refine LeavesOthers.trans ?_ (leavesOthers_devWrite ..)
  exact (leavesOthers_devWrite ..).trans (leavesOthers_foldl fun _ _ _ => leavesOthers_devWrite ..)
theorem LeavesOthers.ofCtx {ctx n : Nat} (h : LeavesOthers ns s t) (hn : OfCtx t ctx n) : OfCtx s ctx n := by
  obtain ⟨b, hb, rfl⟩ := hn
  obtain ⟨hb, hc⟩ := mem_ctxBlocks.mp hb
  obtain ⟨b', hb', hu, hx⟩ := h.named b hb
  exact ⟨b', mem_ctxBlocks.mpr ⟨hb', hx.trans hc⟩, hu⟩
theorem leavesOthers_freeze (s : State) (ctx via image : Nat) (g : Grid) : LeavesOthers (OfCtx s ctx) s (s.freeze ctx via image g) := by
  unfold State.freeze
  refine LeavesOthers.trans ?_ (leavesOthers_modCtx ..)
  have hend : LeavesOthers (OfCtx s ctx) s ((s.ctxBlocks ctx).foldl (fun s b => s.endRun (.front b.uid)) s) :=
    leavesOthers_foldl fun _ b hb => leavesOthers_endRun _ ⟨b, hb, rfl⟩
  have himg := hend.trans (leavesOthers_writeImage _ ctx via image g)
  refine himg.trans (leavesOthers_foldl fun _ b hb => leavesOthers_foldl fun _ i _ => leavesOthers_modGrp _ _ (himg.ofCtx ⟨b, hb, rfl⟩) fun g => ?_)
  split <;> rfl
theorem freeze_saved (s : State) (ctx via image : Nat) (g : Grid) : ((s.freeze ctx via image g).ctxD ctx).saved = .saved image := by
  show (((_ : State).modCtx ctx fun c => { c with saved := .saved image, via := via }).ctxD ctx).saved = _
  rw [ctxD_modCtx _ _ _ (fun c => { c with saved := .saved image, via := via }) fun _ => rfl, if_pos rfl]
theorem reg_of_calm (h : Calm s t) (u : UnitRef) (l r : Nat) : reg? t u l r = reg? s u l r := by
  unfold reg?
  rw [h u l]

/-! ## Restoring (R430) -/

/-- A block goes on from its frame in the image at `a`. -/
def fromImage (m : Image) (a i : Nat) (b : Block) : Block :=
  { b.wake with groups := b.wake.groups.zipIdx.map fun g =>
      match g.1.stat with
      | .benched 0 _ => { g.1 with stat := .benched 0 (BitVec.ofNat 56 (a + fieldAt m.bytes (m.blkt + 8 * i) 8 + b.grpOfs g.2)) }
      | _ => g.1 }
/-- The stores of one core of the image. -/
def loadCore (m : Image) (s : State) (c : Nat × Nat × Nat) : State :=
  (s.wr (kAcc (48 * c.1 + c.2.1) 0 0) ((m.bytes.drop c.2.2).take (2 ^ 23))).wr (kCab (48 * c.1 + c.2.1) 0) ((m.bytes.drop (c.2.2 + 2 ^ 23)).take (2 ^ 21))
/-- The stores of the image's cores. -/
def loadCores (m : Image) (s : State) : State := m.coreList.foldl (loadCore m) s
theorem loadCores_blocks (m : Image) (s : State) : (loadCores m s).blocks = s.blocks :=
  foldl_keep State.blocks (loadCore m) (fun s _ => (wr_blocks ..).trans (wr_blocks s _ _)) _ s
theorem loadCores_grids (m : Image) (s : State) : (loadCores m s).grids = s.grids :=
  foldl_keep State.grids (loadCore m) (fun s _ => (wr_grids ..).trans (wr_grids s _ _)) _ s
theorem loadCores_queues (m : Image) (s : State) : (loadCores m s).queues = s.queues :=
  foldl_keep State.queues (loadCore m) (fun s _ => (wr_queues ..).trans (wr_queues s _ _)) _ s
/-- One block goes on. -/
def wakeBlk (m : Image) (a : Nat) (s : State) (x : Block × Nat) : State := s.modBlk x.1.uid (fromImage m a x.2)
/-- The blocks of the context go on. -/
def wakeBlocks (m : Image) (a : Nat) (bs : List Block) (s : State) : State := bs.zipIdx.foldl (wakeBlk m a) s
theorem restore_eq (s : State) (via a : Nat) (m : Image) : ∃ back, s.restore via a m =
    { (wakeBlocks m a (s.ctxBlocks m.ctx) (loadCores m s)).modCtx m.ctx (fun c => { c with saved := .no, halted := none, via := via, answers := [] }) with returns := back } := by
  have hb : (loadCores m s).ctxBlocks m.ctx = s.ctxBlocks m.ctx := by
    unfold State.ctxBlocks
    rw [loadCores_blocks]
  rw [← hb]
  exact ⟨_, rfl⟩
theorem wake_threads (g : Grp) : g.wake.threads = g.threads := by
  unfold Grp.wake
  split <;> rfl
theorem fromImage_grp (m : Image) (a i : Nat) (b : Block) (k : Nat) : ∃ f : Grp → Grp, (fromImage m a i b).groups[k]? = b.groups[k]?.map f ∧ (∀ g, (f g).threads = g.threads) ∧
    ∀ g, g.stat = .stopped ∨ g.stat = .ready → (f g).stat = .ready := by
  let f (g : Grp) : Grp := match g.wake.stat with
    | .benched 0 _ => { g.wake with stat := .benched 0 (BitVec.ofNat 56 (a + fieldAt m.bytes (m.blkt + 8 * i) 8 + b.grpOfs k)) }
    | _ => g.wake
  refine ⟨f, ?_, fun g => ?_, fun g h => ?_⟩
  · simp only [fromImage, Block.wake, List.getElem?_map, List.getElem?_zipIdx, Option.map_map, Nat.zero_add]
    rfl
  · simp only [f]
    split <;> exact wake_threads g
  · have hw : g.wake.stat = .ready := by
      rcases h with h | h <;> simp [Grp.wake, h]
    simp only [f, hw]
theorem blkThreads_fromImage (m : Image) (a i : Nat) (b : Block) : blkThreads (fromImage m a i b) = blkThreads b := by
  have hg : (fromImage m a i b).groups.map (·.threads) = b.groups.map (·.threads) := by
    refine List.ext_getElem? fun k => ?_
    obtain ⟨f, hf, ht, -⟩ := fromImage_grp m a i b k
    rw [List.getElem?_map, List.getElem?_map, hf, Option.map_map]
    exact congrFun (congrArg Option.map (funext ht)) _
  unfold blkThreads
  rw [hg, show (fromImage m a i b).fe.threads = b.fe.threads from wake_threads b.fe]
  rfl
theorem leavesOthers_loadCores (m : Image) (s : State) : LeavesOthers ns s (loadCores m s) :=
  leavesOthers_blocks (loadCores_blocks m s) (loadCores_grids m s) (loadCores_queues m s)
theorem leavesOthers_wakeBlocks {bs : List Block} (m : Image) (a : Nat) (hn : ∀ b ∈ bs, ns b.uid) (s : State) : LeavesOthers ns s (wakeBlocks m a bs s) :=
  leavesOthers_foldl fun s x hx => leavesOthers_modBlk s _ (hn x.1 (List.fst_mem_of_mem_zipIdx hx)) (blkThreads_fromImage m a x.2) fun _ => rfl
theorem leavesOthers_restore (s : State) (via a : Nat) (m : Image) : LeavesOthers (OfCtx s m.ctx) s (s.restore via a m) := by
  obtain ⟨back, h⟩ := restore_eq s via a m
  rw [h]
  have hw := (leavesOthers_loadCores m s).trans (leavesOthers_wakeBlocks (ns := OfCtx s m.ctx) m a (fun b hb => ⟨b, hb, rfl⟩) _)
  exact (hw.trans (leavesOthers_modCtx _ m.ctx _)).trans (leavesOthers_blocks rfl rfl rfl)
theorem restore_ctx (s : State) (via a : Nat) (m : Image) : ((s.restore via a m).ctxD m.ctx).saved = .no ∧ ((s.restore via a m).ctxD m.ctx).halted = none := by
  obtain ⟨back, h⟩ := restore_eq s via a m
  have hc : (s.restore via a m).ctxD m.ctx = _ :=
    (congrArg (fun x : State => x.ctxD m.ctx) h).trans (ctxD_modCtx _ m.ctx m.ctx (fun c => { c with saved := .no, halted := none, via := via, answers := [] }) fun _ => rfl)
  rw [hc, if_pos rfl]
  exact ⟨rfl, rfl⟩
/-- The group's state is one of these. -/
def GrpIn (ss : List UStat) (n gi : Nat) (s : State) : Prop := ∃ b g, s.blk? n = some b ∧ b.groups[gi]? = some g ∧ g.stat ∈ ss
theorem grpIn_fromImage {m : Image} {a i n gi : Nat} {ss : List UStat} (hs : ∀ x ∈ ss, x = .stopped ∨ x = .ready) (h : GrpIn ss n gi s) :
    GrpIn [.ready] n gi (s.modBlk n (fromImage m a i)) := by
  obtain ⟨b, g, hb, hg, hst⟩ := h
  obtain ⟨f, hf, -, hr⟩ := fromImage_grp m a i b gi
  exact ⟨_, f g, blk_modBlk_self _ (fun b => congrArg Prod.fst (blkThreads_fromImage m a i b)) hb, by rw [hf, hg]; rfl, List.mem_singleton.mpr (hr g (hs _ hst))⟩
theorem grpIn_other {n n' gi : Nat} {f : Block → Block} (hf : ∀ b, (f b).uid = b.uid) {ss : List UStat} (hn : n' ≠ n) (h : GrpIn ss n gi s) : GrpIn ss n gi (s.modBlk n' f) := by
  obtain ⟨b, g, hb, hg⟩ := h
  exact ⟨b, g, (blk_modBlk s n' n f hf).trans ((if_neg hn.symm).trans hb), hg⟩
/-- A group that stopped is ready once its block was taken from the image. -/
theorem grpIn_wake {m : Image} {a n gi : Nat} : ∀ {l : List (Block × Nat)} {s : State}, (GrpIn [.ready] n gi s ∨ GrpIn [.stopped, .ready] n gi s ∧ ∃ x ∈ l, x.1.uid = n) →
    GrpIn [.ready] n gi (l.foldl (wakeBlk m a) s)
  | [], s, h => by
    rcases h with h | ⟨-, x, hx, -⟩
    · exact h
    · cases hx
  | x :: l, s, h => by
    have hu : ∀ b, (fromImage m a x.2 b).uid = b.uid := fun b => congrArg Prod.fst (blkThreads_fromImage m a x.2 b)
    refine grpIn_wake (l := l) (s := s.modBlk x.1.uid (fromImage m a x.2)) ?_
    by_cases hx : x.1.uid = n
    · refine .inl ?_
      rw [hx]
      rcases h with h | ⟨h, -⟩
      · exact grpIn_fromImage (by simp) h
      · exact grpIn_fromImage (by simp) h
    · rcases h with h | ⟨h, y, hy, hn⟩
      · exact .inl (grpIn_other hu hx h)
      · refine .inr ⟨grpIn_other hu hx h, y, (List.mem_cons.mp hy).resolve_left ?_, hn⟩
        rintro rfl
        exact hx hn
theorem restore_ready {s : State} {n gi : Nat} {b : Block} {g : Grp} (via a : Nat) (m : Image) (hb : s.blk? n = some b) (hc : b.ctx = m.ctx) (hg : b.groups[gi]? = some g) (hs : g.stat = .stopped) :
    ((s.restore via a m).grp? (.group n gi)).map (·.stat) = some .ready := by
  have hbs : b ∈ s.ctxBlocks m.ctx := mem_ctxBlocks.mpr ⟨List.mem_of_find?_eq_some hb, hc⟩
  obtain ⟨i, hi⟩ := List.mem_iff_getElem?.mp hbs
  have hi : (b, i) ∈ (s.ctxBlocks m.ctx).zipIdx := List.mem_zipIdx_iff_getElem?.mpr hi
  have h0 : GrpIn [.stopped, .ready] n gi (loadCores m s) := ⟨b, g, by rw [State.blk?, loadCores_blocks]; exact hb, hg, by rw [hs]; exact List.mem_cons_self⟩
  obtain ⟨c, x, hc, hx, hst⟩ := grpIn_wake (m := m) (a := a) (l := (s.ctxBlocks m.ctx).zipIdx) (.inr ⟨h0, _, hi, uid_of_blk hb⟩)
  obtain ⟨back, h⟩ := restore_eq s via a m
  have hblk : (s.restore via a m).blk? n = some c := by
    rw [h]
    exact (congrArg (List.find? _) (modCtx_blocks ..)).trans hc
  unfold State.grp?
  rw [show (UnitRef.group n gi).blk = n from rfl, hblk]
  exact (congrArg (Option.map _) hx).trans (congrArg some (List.mem_singleton.mp hst))
end Sys2Proof.Machine
end

section
/-! SUPPORT. A restored core's accumulators (O46). -/

namespace Sys2Proof.Machine

variable {m : Image} {c : Nat × Nat × Nat} {s : State}
/-- The core that an image's entry is for. -/
def coreOf (c : Nat × Nat × Nat) : Nat := 48 * c.1 + c.2.1
theorem loadCore_wf (h : memWf s.mem = true) : memWf (loadCore m s c).mem = true := wr_wf _ _ _ (wr_wf s _ _ h)
theorem memGet_loadCore (h : memWf s.mem = true) (j : Nat) : memGet (loadCore m s c).mem j =
    if kCab (coreOf c) 0 ≤ j ∧ j < kCab (coreOf c) 0 + ((m.bytes.drop (c.2.2 + 2 ^ 23)).take (2 ^ 21)).length then ((m.bytes.drop (c.2.2 + 2 ^ 23)).take (2 ^ 21)).getD (j - kCab (coreOf c) 0) 0
    else if kAcc (coreOf c) 0 0 ≤ j ∧ j < kAcc (coreOf c) 0 0 + ((m.bytes.drop c.2.2).take (2 ^ 23)).length then ((m.bytes.drop c.2.2).take (2 ^ 23)).getD (j - kAcc (coreOf c) 0 0) 0
    else memGet s.mem j := by
  unfold loadCore
  rw [wr_mem, memGet_memWrite _ _ _ _ (wr_wf s _ _ h), wr_mem, memGet_memWrite _ _ _ _ h]
  rfl
theorem kCab_apart {x k i n : Nat} (hn : n ≤ 2 ^ 21) : ¬(kCab x 0 ≤ kAcc k 0 0 + i ∧ kAcc k 0 0 + i < kCab x 0 + n) ∨ 2 ^ 23 ≤ i := by
  unfold kCab kAcc region
  omega
theorem kAcc_other {x k i n : Nat} (hx : x ≠ k) (hi : i < 2 ^ 23) (hn : n ≤ 2 ^ 23) : ¬(kAcc x 0 0 ≤ kAcc k 0 0 + i ∧ kAcc k 0 0 + i < kAcc x 0 0 + n) := by
  unfold kAcc region
  omega
/-- The core's own accumulators hold the image's bytes. -/
theorem memGet_loadCore_same {i : Nat} {y : Byte} (h : memWf s.mem = true) (hi : i < 2 ^ 23) (hy : m.bytes[c.2.2 + i]? = some y) :
    memGet (loadCore m s c).mem (kAcc (coreOf c) 0 0 + i) = y := by
  have hlen : c.2.2 + i < m.bytes.length := (List.getElem?_eq_some_iff.mp hy).1
  rw [memGet_loadCore h, if_neg ((kCab_apart (List.length_take_le _ _)).resolve_right (by omega)), if_pos, List.getD_eq_getElem?_getD, Nat.add_sub_cancel_left,
    List.getElem?_take_of_lt hi, List.getElem?_drop, hy]
  · rfl
  · rw [List.length_take, List.length_drop]
    omega
/-- Another core's stay. -/
theorem memGet_loadCore_other {k i : Nat} (h : memWf s.mem = true) (hi : i < 2 ^ 23) (hk : coreOf c ≠ k) : memGet (loadCore m s c).mem (kAcc k 0 0 + i) = memGet s.mem (kAcc k 0 0 + i) := by
  rw [memGet_loadCore h, if_neg ((kCab_apart (List.length_take_le _ _)).resolve_right (by omega)), if_neg (kAcc_other hk hi (List.length_take_le _ _))]
theorem memGet_loadCores_other {k i : Nat} (hi : i < 2 ^ 23) : ∀ {l : List (Nat × Nat × Nat)} {s : State}, memWf s.mem = true → l.filter (fun x => coreOf x == k) = [] →
    memGet (l.foldl (loadCore m) s).mem (kAcc k 0 0 + i) = memGet s.mem (kAcc k 0 0 + i)
  | [], _, _, _ => rfl
  | x :: l, s, h, hl => by
    have hx : coreOf x ≠ k := fun hx => by simp [hx] at hl
    rw [List.filter_cons_of_neg (by simpa using hx)] at hl
    exact (memGet_loadCores_other hi (loadCore_wf h) hl).trans (memGet_loadCore_other h hi hx)
/-- Where one entry of the image is for a core, its accumulators hold that entry's bytes. -/
theorem memGet_loadCores {i : Nat} {y : Byte} (hi : i < 2 ^ 23) (hy : m.bytes[c.2.2 + i]? = some y) : ∀ {l : List (Nat × Nat × Nat)} {s : State}, memWf s.mem = true →
    l.filter (fun x => coreOf x == coreOf c) = [c] → memGet (l.foldl (loadCore m) s).mem (kAcc (coreOf c) 0 0 + i) = y
  | [], _, _, hl => by cases hl
  | x :: l, s, h, hl => by
    by_cases hx : coreOf x = coreOf c
    · rw [List.filter_cons_of_pos (by simpa using hx)] at hl
      obtain ⟨hxc, hl⟩ := List.cons.inj hl
      subst hxc
      exact (memGet_loadCores_other hi (loadCore_wf h) hl).trans (memGet_loadCore_same h hi hy)
    · rw [List.filter_cons_of_neg (by simpa using hx)] at hl
      exact memGet_loadCores hi hy (s := loadCore m s x) (loadCore_wf h) hl
theorem restore_mem (s : State) (via a : Nat) (m : Image) : (s.restore via a m).mem = (loadCores m s).mem := by
  obtain ⟨back, h⟩ := restore_eq s via a m
  rw [h]
  exact (modCtx_mem ..).trans (foldl_keep State.mem (wakeBlk m a) (fun _ _ => rfl) _ _)
end Sys2Proof.Machine
end

section
/-! SUPPORT. Launches, SAVE and RESUME at the head of their queue (O46). -/

namespace Sys2Proof.Machine

open Sys2Proof.Spec

variable {s t : State} {slot : Nat} {q : SwQ} {b : Buf} {bs : List Byte} {kind : GKind} {g : Grid}

/-! ## Launches (R382, R385, R405) -/

theorem exec_launchInstr : exec (launchInstr kind slot) s = launchPacket slot (launchType kind) kind s := by cases kind <;> rfl
/-- The state after a launch's grid has started. -/
def launched (s : State) (q : SwQ) (bs : List Byte) (kind : GKind) (g : Grid) : State := ((s.startGrid g).setAge q.ctx (reqOf kind bs)).dispatch q 2 (.grid g.id)
/-- What a launch asks for starts as this grid, or fails with a status. -/
def launchAt (s : State) (q : SwQ) (bs : List Byte) (kind : GKind) : Except Nat Grid := s.launchOf q.ctx s.nextUid (reqOf kind bs) (some (q.q, q.given + 1))
theorem judged_launch (h : PacketAt s slot (launchType kind) q b bs) (hr : kind = .range → s.tableRoom q.ctx = true) :
    s.judged q bs = !((s.ctxD q.ctx).preempt.isSome && (s.ctxD q.ctx).saved == .stopping) := by
  unfold State.judged
  rw [hdrType_at h]
  cases kind with
  | range => simp only [launchType, hr rfl, Bool.and_true]
  | index => rfl
  | page => rfl
theorem tableRoom_ok (hr : kind = .range → s.tableRoom q.ctx = true) : (kind != .range || s.tableRoom q.ctx) = true := by
  cases kind with
  | range => rw [hr rfl, Bool.or_true]
  | index => rfl
  | page => rfl
theorem exec_launch_starts (h : PacketAt s slot (launchType kind) q b bs) (hl : launchAt s q bs kind = .ok g) (hr : kind = .range → s.tableRoom q.ctx = true)
    (hp : (s.ctxD q.ctx).preempt = none) : exec (launchInstr kind slot) s = served slot (launched s q bs kind g) := by
  have hj := judged_launch h hr
  rw [hp] at hj
  rw [exec_launchInstr]
  unfold launchPacket
  refine packet_turn h hj (beq_self_eq_true _) ?_
  unfold launchAt at hl
  simp only [act_bind, act_get, hl, act_needA, tableRoom_ok hr, if_true, hp]
  rfl
theorem exec_launch_stops {p : Preempt} (h : PacketAt s slot (launchType kind) q b bs) (hl : launchAt s q bs kind = .ok g) (hr : kind = .range → s.tableRoom q.ctx = true)
    (hp : (s.ctxD q.ctx).preempt = some p) (hs : (s.ctxD q.ctx).saved = .no) :
    exec (launchInstr kind slot) s = served slot (s.modCtx q.ctx fun c => { c with saved := .stopping }) := by
  have hj := judged_launch h hr
  rw [hp, hs] at hj
  rw [exec_launchInstr]
  unfold launchPacket
  refine packet_turn h hj (beq_self_eq_true _) ?_
  unfold launchAt at hl
  simp only [act_bind, act_get, hl, act_needA, tableRoom_ok hr, if_true, hp, hs]
  rfl
theorem exec_launch_frozen {p : Preempt} (h : PacketAt s slot (launchType kind) q b bs) (hl : launchAt s q bs kind = .ok g) (hr : kind = .range → s.tableRoom q.ctx = true)
    (hp : (s.ctxD q.ctx).preempt = some p) (hs : (s.ctxD q.ctx).saved = .stopping) (hq : s.ctxQuiet q.ctx = true) :
    exec (launchInstr kind slot) s = .next ((launched s q bs kind g).preemptNow q.ctx g) := by
  have hj : s.judged q bs = false := (judged_launch h hr).trans (by rw [hp, hs]; rfl)
  rw [exec_launchInstr]
  unfold launchPacket
  refine packet_waits h hj (beq_self_eq_true _) ?_
  unfold launchAt at hl
  simp only [act_bind, act_get, hl, act_needA, tableRoom_ok hr, if_true, hp, hs, hq]
  rfl
theorem exec_launch_refused {st : Nat} (h : PacketAt s slot (launchType kind) q b bs) (hj : s.judged q bs = true) (hl : launchAt s q bs kind = .error st) (h1 : st ≠ 1) :
    exec (launchInstr kind slot) s = served slot ((s.postStatus q st b.next).dispatch q 2 .done) := by
  rw [exec_launchInstr]
  unfold launchPacket
  refine packet_turn h hj (beq_self_eq_true _) ?_
  unfold launchAt at hl
  simp only [act_bind, act_get, hl]
  exact congrFun (if_neg h1) s
theorem exec_launch_halts (h : PacketAt s slot (launchType kind) q b bs) (hj : s.judged q bs = true) (hl : launchAt s q bs kind = .error 1) :
    exec (launchInstr kind slot) s = served slot (s.haltQ q 1) := by
  rw [exec_launchInstr]
  unfold launchPacket
  refine packet_turn h hj (beq_self_eq_true _) ?_
  unfold launchAt at hl
  simp only [act_bind, act_get, hl]
  rfl

/-! ## SAVE (R404, R405) -/

/-- The context of a SAVE. -/
def saveCtx (bs : List Byte) : Nat := fieldAt bs 0x18 2
/-- The context's grid that has not ended. -/
def runningGrid (s : State) (ctx : Nat) : Option Grid := s.grids.find? fun g => g.ctx == ctx && !s.gridDone g
/-- A SAVE has nothing to save. -/
def saveEnds (s : State) (q : SwQ) (b : Buf) : State := (s.postStatus q 0x0F b.next).dispatch q 1 .done
/-- A SAVE's pre-emption is owed. -/
def saveOwes (s : State) (q : SwQ) (b : Buf) (bs : List Byte) : State :=
  saveEnds ((s.modCtx (saveCtx bs) fun c => { c with saved := .no }).modCtx (saveCtx bs) fun c => { c with preempt := some ⟨q.ctx, q.q, b.next, fieldAt bs 8 7, fieldAt bs 0x10 8⟩ }) q b
theorem judged_save (h : PacketAt s slot 5 q b bs) : s.judged q bs = ((s.ctxD (saveCtx bs)).saved != .stopping) := by
  unfold State.judged
  rw [hdrType_at h]
  rfl
theorem save_legal (ha : fieldAt bs 8 7 % 4096 = 0) (hc : fieldAt bs 0x18 2 < 4096) : ¬(fieldAt bs 8 7 % 4096 ≠ 0 ∨ 4096 ≤ fieldAt bs 0x18 2) := by
  rintro (h | h)
  · exact h ha
  · exact Nat.not_lt.mpr h hc
section
variable (h : PacketAt s slot 5 q b bs) (ha : fieldAt bs 8 7 % 4096 = 0) (hc : fieldAt bs 0x18 2 < 4096)
include h ha hc
theorem exec_save_nothing (hg : runningGrid s (saveCtx bs) = none) (hs : (s.ctxD (saveCtx bs)).saved = .no) : exec (.save slot) s = served slot (saveEnds s q b) := by
  have hj : s.judged q bs = true := (judged_save h).trans (by rw [hs]; rfl)
  show execSave slot s = _
  unfold execSave
  refine packet_turn h hj rfl ?_
  unfold saveCtx at hs
  unfold runningGrid saveCtx at hg
  refine (act_bind_ok (act_get s)).trans ((congrFun (if_neg (save_legal ha hc)) s).trans ?_)
  simp only [hg, hs]
  rfl
theorem exec_save_none_owed (hg : runningGrid s (saveCtx bs) = none) (hs : (s.ctxD (saveCtx bs)).saved = .stopping) : exec (.save slot) s = .next (saveOwes s q b bs) := by
  have hj : s.judged q bs = false := (judged_save h).trans (by rw [hs]; rfl)
  show execSave slot s = _
  unfold execSave
  refine packet_waits h hj rfl ?_
  unfold saveCtx at hs
  unfold runningGrid saveCtx at hg
  refine (act_bind_ok (act_get s)).trans ((congrFun (if_neg (save_legal ha hc)) s).trans ?_)
  simp only [hg, hs]
  rfl
theorem exec_save_stops (hg : runningGrid s (saveCtx bs) = some g) (hs : (s.ctxD (saveCtx bs)).saved = .no) (hr : (s.grids.any fun g => g.ctx == saveCtx bs && s.retires g) = false) :
    exec (.save slot) s = served slot (s.modCtx (saveCtx bs) fun c => { c with saved := .stopping }) := by
  have hj : s.judged q bs = true := (judged_save h).trans (by rw [hs]; rfl)
  show execSave slot s = _
  unfold execSave
  refine packet_turn h hj rfl ?_
  unfold saveCtx at hs hr
  unfold runningGrid saveCtx at hg
  refine (act_bind_ok (act_get s)).trans ((congrFun (if_neg (save_legal ha hc)) s).trans ?_)
  simp only [hg, hs, hr, Bool.false_eq_true, if_false]
  rfl
theorem exec_save_owed (hg : runningGrid s (saveCtx bs) = some g) (hs : (s.ctxD (saveCtx bs)).saved = .no) (hr : (s.grids.any fun g => g.ctx == saveCtx bs && s.retires g) = true) :
    exec (.save slot) s = served slot (saveOwes s q b bs) := by
  have hj : s.judged q bs = true := (judged_save h).trans (by rw [hs]; rfl)
  show execSave slot s = _
  unfold execSave
  refine packet_turn h hj rfl ?_
  unfold saveCtx at hs hr
  unfold runningGrid saveCtx at hg
  refine (act_bind_ok (act_get s)).trans ((congrFun (if_neg (save_legal ha hc)) s).trans ?_)
  simp only [hg, hs, hr, if_true]
  rfl
theorem exec_save_again {im : Nat} (hg : runningGrid s (saveCtx bs) = some g) (hs : (s.ctxD (saveCtx bs)).saved = .saved im) : exec (.save slot) s = served slot (saveEnds s q b) := by
  have hj : s.judged q bs = true := (judged_save h).trans (by rw [hs]; rfl)
  show execSave slot s = _
  unfold execSave
  refine packet_turn h hj rfl ?_
  unfold saveCtx at hs
  unfold runningGrid saveCtx at hg
  refine (act_bind_ok (act_get s)).trans ((congrFun (if_neg (save_legal ha hc)) s).trans ?_)
  simp only [hg, hs]
  rfl
theorem exec_save_freezes (hg : runningGrid s (saveCtx bs) = some g) (hs : (s.ctxD (saveCtx bs)).saved = .stopping) (hq : s.ctxQuiet (saveCtx bs) = true)
    (hl : (imageMap g (s.ctxBlocks (saveCtx bs)) s.hmsgs).len ≤ fieldAt bs 0x10 8)
    (hr : (s.read01 q.ctx (fieldAt bs 8 7) (imageMap g (s.ctxBlocks (saveCtx bs)) s.hmsgs).len).isSome = true) :
    exec (.save slot) s = .next ((s.freeze (saveCtx bs) q.ctx (fieldAt bs 8 7) g).dispatch q 1 .done) := by
  have hj : s.judged q bs = false := (judged_save h).trans (by rw [hs]; rfl)
  have hn : ¬(s.read01 q.ctx (fieldAt bs 8 7) (imageMap g (s.ctxBlocks (saveCtx bs)) s.hmsgs).len).isNone = true := by
    rw [← Option.not_isSome, hr]
    exact Bool.false_ne_true
  have hsave : s.saveNow (saveCtx bs) q.ctx (fieldAt bs 8 7) (fieldAt bs 0x10 8) g = (s.freeze (saveCtx bs) q.ctx (fieldAt bs 8 7) g, none) :=
    (if_neg (Nat.not_lt.mpr hl)).trans (if_neg hn)
  show execSave slot s = _
  unfold execSave
  refine packet_waits h hj rfl ?_
  unfold saveCtx at hs hq hsave
  unfold runningGrid saveCtx at hg
  refine (act_bind_ok (act_get s)).trans ((congrFun (if_neg (save_legal ha hc)) s).trans ?_)
  simp only [hg, hs, act_bind, act_needA, hq, if_true, hsave, act_set]
  rfl
end

/-! ## RESUME (R404, R430) -/

theorem exec_resume_restores {m : Image} (h : PacketAt s slot 4 q b bs) (ha : fieldAt bs 8 7 % 8 = 0) (hm : s.readImage q.ctx (fieldAt bs 8 7) = some m) (hok : m.ok s = true) :
    exec (.resume slot) s = served slot ((s.restore q.ctx (fieldAt bs 8 7) m).dispatch q 1 (.grid ((runningGrid s m.ctx).elim 0 (·.id)))) := by
  show execResume slot s = _
  unfold execResume
  refine packet_served h rfl rfl ?_
  simp only [act_bind, act_get, ha, ne_eq, not_true_eq_false, if_false, hm, Option.filter_some, hok, if_true, act_set]
  rfl
theorem exec_resume_fails (h : PacketAt s slot 4 q b bs) (ha : fieldAt bs 8 7 % 8 = 0) (hm : s.readImage q.ctx (fieldAt bs 8 7) = none) :
    exec (.resume slot) s = served slot ((s.postStatus q 0x12 b.next).dispatch q 1 .done) := by
  show execResume slot s = _
  unfold execResume
  refine packet_served h rfl rfl ?_
  simp only [act_bind, act_get, ha, ne_eq, not_true_eq_false, if_false, hm, Option.filter_none, act_set]
end Sys2Proof.Machine
end

section
/-! SETTLED. Launches, SAVE and RESUME. -/
open Sys2Proof Sys2Proof.Machine Sys2Proof.Spec

/-- Settles O46: a context's freezing and restoring touch its own blocks alone, and no thread; each packet's body is run at the head of its queue, in turn unless
its context is stopping. -/
theorem launchSaveResumeComplete : Obligations.LaunchSaveResumeComplete := by
  unfold Obligations.LaunchSaveResumeComplete
  refine ⟨fun s ctx via image g => ?_, fun s via a m hwf => ?_, fun s slot q b bs kind h => ?_, fun s slot q b bs g h => ?_, fun s slot q b bs h ha => ⟨fun m => exec_resume_restores h ha, exec_resume_fails h ha⟩⟩
  · intro t
    have hl := leavesOthers_freeze s ctx via image g
    refine ⟨freeze_saved s ctx via image g, hl.grids, hl.queues, reg_of_calm hl.calm, fun n b hb hn => (hl.blk n ?_).trans hb⟩
    rintro ⟨x, hx, hu⟩
    exact hn x (mem_ctxBlocks.mp hx).1 (mem_ctxBlocks.mp hx).2 hu
  · intro t
    have hl := leavesOthers_restore s via a m
    obtain ⟨hs, hh⟩ := restore_ctx s via a m
    refine ⟨hs, hh, hl.grids, hl.queues, reg_of_calm hl.calm, fun n b hb hn => (hl.blk n ?_).trans hb, fun n gi b g hb hc hg hst => restore_ready via a m hb hc hg hst,
      fun c hc huniq i y hi hy => ?_⟩
    · rintro ⟨x, hx, hu⟩
      exact hn x (mem_ctxBlocks.mp hx).1 (mem_ctxBlocks.mp hx).2 hu
    · show memGet (s.restore via a m).mem _ = y
      rw [restore_mem]
      exact memGet_loadCores hi hy hwf huniq
  · intro r start
    refine ⟨fun g hr ht => ⟨exec_launch_starts h hr ht, fun p hp => ⟨exec_launch_stops h hr ht hp, exec_launch_frozen h hr ht hp⟩⟩,
      fun hj => ⟨fun st hr => exec_launch_refused h hj hr, exec_launch_halts h hj⟩⟩
  · intro a ctx nothing ha hc
    refine ⟨exec_save_nothing h ha hc, exec_save_none_owed h ha hc, fun hg => ⟨exec_save_stops h ha hc hg, exec_save_owed h ha hc hg, fun im => exec_save_again h ha hc hg,
      exec_save_freezes h ha hc hg⟩⟩
end

section
/-! SUPPORT. Two records of one context whose fault queues stand apart (O47). -/

namespace Sys2Proof.Machine

open Sys2Proof.Spec Sys2Proof.Tests.Slice0

/-- Context 0 with a fault record to post, and a second record of the same context whose fault queue has 5 entries more written. -/
def twinCtxs : State := { fqLab with ctxs := fqLab.ctxs.take 1 ++ fqLab.ctxs.map fun c => { c with fqw := c.fqw + 5 } }
/-- The write index of the second record's fault queue. -/
def twinFqw (s : State) : Option Nat := (s.ctxs[1]?).map (·.fqw)
/-- The record that waits. -/
def twinRec : FRec := FRec.mk 0 0 0 0 0 0 0 0 0 0 0 0 0
/-- The post as the statement has it: each record of the context goes on from the first one's write index. -/
def twinPosted : State :=
  let c := twinCtxs.ctxD 0
  let n := c.rcd.fqn.toNat
  let bs := twinRec.bytes (c.fqw / n % 2 == 0)
  let at_ := c.rcd.fq.toNat % 2 ^ 56 + 64 * (c.fqw % n)
  (((twinCtxs.devWrite 0 at_ (bs.take 56)).devWrite 0 (at_ + 56) (bs.drop 56)).bump 0 6 1).interrupt (c.rcd.fqvec.toNat % 2048)
    |>.modCtx 0 fun x => { x with fqw := c.fqw + 1, pendF := [], answers := if Answer.none = .none then x.answers else x.answers ++ [(c.fqw, Answer.none)] }
theorem twin_pends : (twinCtxs.ctxD 0).pendF = [(twinRec, .none)] := by decide +kernel
theorem twin_room : 1 ≤ (twinCtxs.ctxD 0).rcd.fqn.toNat ∧ (twinCtxs.ctxD 0).fqw - (twinCtxs.ctxD 0).fqr < (twinCtxs.ctxD 0).rcd.fqn.toNat := by decide +kernel
theorem twin_posts : twinFqw (Tests.Slice0.after (exec (.faultRecordPost 0) twinCtxs)) ≠ twinFqw twinPosted := by decide +kernel

end Sys2Proof.Machine
end

section
/-! SETTLED. The fault queue and answers. -/
open Sys2Proof Sys2Proof.Machine Sys2Proof.Spec

/-- Refutes O47: as a fault record is posted, the statement has every record of the context go on from the first one's write index, the model from its own;
in a state with two records of one context, which the statement does not exclude, the second one's write index is 1 there and 6 in the model. -/
theorem not_faultQueueAndAnswersComplete : ¬ Obligations.FaultQueueAndAnswersComplete := by
  unfold Obligations.FaultQueueAndAnswersComplete
  intro h
  obtain ⟨-, -, posts, -⟩ := h.1 twinCtxs 0 0
  have hstep : exec (.faultRecordPost 0) twinCtxs = .next twinPosted := posts twinRec .none [] twin_pends twin_room.1 twin_room.2
  have hne := twin_posts
  rw [hstep, after_next] at hne
  exact hne rfl

end

section
/-! SUPPORT. The halt sequence (O48). -/

namespace Sys2Proof.Machine

open Sys2Proof.Spec

variable {s t : State} {part : Nat} {h : Halt}
theorem modPart_ctxD (s : State) (p : Nat) (f : Part → Part) (c : Nat) : (s.modPart p f).ctxD c = s.ctxD c := rfl
theorem endRun_ctxs_eq (s : State) (u : UnitRef) : (s.endRun u).ctxs = s.ctxs := by
  cases hb : s.blk? u.blk with
  | some b => exact endRun_ctxs hb
  | none =>
    unfold State.endRun
    rw [hb]
theorem ctxD_endRuns (bs : List Block) (s : State) (c : Nat) : (bs.foldl (fun s b => s.endRun (.front b.uid)) s).ctxD c = s.ctxD c := by
  unfold State.ctxD State.ctx?
  rw [foldl_keep State.ctxs (fun (s : State) (b : Block) => s.endRun (.front b.uid)) (fun s _ => endRun_ctxs_eq s _)]
/-- The records that a halt sets out to be written. -/
def stopTodo (s : State) (part : Nat) (h : Halt) (bs : List Block) : List (Nat × Nat × FRec) :=
  (s.partCtxs part).flatMap fun c => (placeStops (s.ctxD c).rcd.stopn.toNat (stopsOf h bs c)).map fun x => (c, x.1, x.2)
theorem exec_halt_stops (hh : HaltAt s part h) (hm : s.mgmtUp = true) (ha : h.stopped = false ∨ h.again = true)
    (hq : ∀ b ∈ s.blocks.filter (fun b => (s.partCtxs part).contains b.ctx && b.onCore), ∀ g ∈ b.groups, g.runs = 0 ∧ g.isLeaving = false) :
    exec (.haltSequence part) s = .next (((s.blocks.filter fun b => (s.partCtxs part).contains b.ctx && b.onCore).foldl (fun s b => s.endRun (.front b.uid)) s).modPart part fun p =>
      { p with halt := some { h with stopped := true, again := false, told := false, todo := stopTodo s part h (s.blocks.filter fun b => (s.partCtxs part).contains b.ctx && b.onCore) } }) := by
  generalize hbs : (s.blocks.filter fun b => (s.partCtxs part).contains b.ctx && b.onCore) = bs at *
  have hn : (s.mgmtUp && (!h.stopped || h.again) && bs.all fun b => b.groups.all fun g => g.runs == 0 && !g.isLeaving) = true := by
    have hs : (!h.stopped || h.again) = true := by rcases ha with ha | ha <;> simp [ha]
    have hg : (bs.all fun b => b.groups.all fun g => g.runs == 0 && !g.isLeaving) = true := by
      simp only [List.all_eq_true, Bool.and_eq_true, beq_iff_eq, Bool.not_eq_true']
      exact hq
    rw [hm, hs, hg]
    rfl
  refine runEvent_ok ((act_bind_ok (act_get s)).trans ((act_bind_ok (someA_ok hh)).trans ?_))
  simp only [hbs, act_bind, act_needA, hn, if_true, act_set, ctxD_endRuns]
  rfl
theorem exec_stop_written {c i : Nat} {r : FRec} {rest : List (Nat × Nat × FRec)} (hh : HaltAt s part h) (hs : h.stopped = true) (ha : h.again = false) (ht : h.todo = (c, i, r) :: rest) :
    exec (.stopRecordWrite part) s = .next ((s.devWrite c ((s.ctxD c).rcd.stopa.toNat % 2 ^ 56 + 64 * i) (r.bytes false)).modPart part fun p => { p with halt := some { h with todo := rest } }) := by
  refine runEvent_ok ((act_bind_ok (act_get s)).trans ((act_bind_ok (someA_ok hh)).trans ?_))
  simp only [act_bind, act_needA, hs, ha, Bool.not_false, Bool.and_self, if_true, ht, act_set]

/-! ## The places of the records (R402) -/

theorem length_placeStops (n : Nat) (rs : List FRec) : (placeStops n rs).length = min n (rs.length + if 1 ≤ n ∧ n ≤ rs.length then 1 else 0) := by
  unfold placeStops
  split
  case isTrue h0 => simp [h0]
  case isFalse h0 =>
    split
    case isTrue hl =>
      rw [if_neg (by omega), List.length_map, List.length_zipIdx]
      omega
    case isFalse hl =>
      rw [if_pos (by omega)]
      simp only [List.length_append, List.length_map, List.length_zipIdx, List.length_take, List.length_cons, List.length_nil]
      omega
theorem placeStops_getElem? {n i : Nat} {rs : List FRec} {r : FRec} (hi : i + 1 < n) (hr : rs[i]? = some r) : (placeStops n rs)[i]? = some (i, r) := by
  unfold placeStops
  rw [if_neg (by omega)]
  have hlt := (List.getElem?_eq_some_iff.mp hr).1
  split
  · simp [hr]
  · rw [List.getElem?_append_left (by simp; omega), List.getElem?_map, List.getElem?_zipIdx, List.getElem?_take_of_lt (by omega), hr]
    simp

/-! ## A context is halted (R416) -/

theorem postStatus_ctxD (s : State) (q : SwQ) (st i d : Nat) (w : CqWriter) (c : Nat) : (s.postStatus q st i d w).ctxD c = s.ctxD c := rfl
theorem haltCtx_ctxD (s : State) (c k n : Nat) : ((s.haltCtx c k).ctxD n).halted = if n = c then some k else (s.ctxD n).halted := by
  unfold State.haltCtx
  rw [ctxD_modCtx _ _ _ (fun c => { c with halted := some k }) fun _ => rfl]
  have hq : ∀ (l : List SwQ) (s : State) (n : Nat), (l.foldl (fun s q => s.postStatus q 0x11 q.ridx k .mgmt) s).ctxD n = s.ctxD n := fun l s n => by
    unfold State.ctxD State.ctx?
    rw [foldl_keep State.ctxs (fun s q => s.postStatus q 0x11 q.ridx k .mgmt) (fun _ _ => rfl)]
  rw [hq, hq]
  split <;> rfl
theorem haltCtx_mem (s : State) (c k : Nat) : (s.haltCtx c k).mem = s.mem := (modCtx_mem ..).trans (foldl_keep State.mem (fun s q => s.postStatus q 0x11 q.ridx k .mgmt) (fun _ _ => rfl) _ s)
theorem haltCtxs_halted (code : Nat → Nat) : ∀ (cs : List Nat) (s : State) (n : Nat),
    ((cs.foldl (fun s c => s.haltCtx c (code c)) s).ctxD n).halted = if n ∈ cs then some (code n) else (s.ctxD n).halted
  | [], _, _ => rfl
  | c :: cs, s, n => by
    rw [List.foldl_cons, haltCtxs_halted code cs, haltCtx_ctxD]
    by_cases hn : n ∈ cs
    · rw [if_pos hn, if_pos (List.mem_cons_of_mem c hn)]
    · by_cases hc : n = c
      · subst hc
        rw [if_neg hn, if_pos rfl, if_pos List.mem_cons_self]
      · rw [if_neg hn, if_neg hc, if_neg (by simp [hc, hn])]
/-- The contexts that the faults of a halt name. -/
def faulted (h : Halt) : List Nat := (h.faults.map (·.1)).eraseDups
/-- An entry of the management core for one of them waits. -/
def mgmtOpen (h : Halt) (t : State) : Bool := t.cqPend.any fun e => e.writer == .mgmt && (faulted h).contains e.ctx
/-- The state once the faulting contexts are halted. -/
def toldAll (s : State) (h : Halt) : State := ((faulted h).filter fun c => (s.ctxD c).halted.isNone).foldl (fun s c => s.haltCtx c (lowestCode h c)) s
theorem exec_contexts_halted (hh : HaltAt s part h) (hm : s.mgmtUp = true) (hs : h.stopped = true) (ha : h.again = false) (ht : h.todo = []) (hto : h.told = false) :
    exec (.contextHalted part) s = .next ((toldAll s h).modPart part fun p => { p with halt := if mgmtOpen h (toldAll s h) then some { h with told := true } else none }) := by
  refine runEvent_ok ((act_bind_ok (act_get s)).trans ((act_bind_ok (someA_ok hh)).trans ?_))
  simp only [act_bind, act_needA, hm, hs, ha, ht, hto, Bool.not_false, Bool.and_self, beq_self_eq_true, Bool.false_and, Bool.false_eq_true, if_true, if_false, act_set]
  rfl
theorem exec_halt_falls (hh : HaltAt s part h) (hm : s.mgmtUp = true) (hs : h.stopped = true) (ha : h.again = false) (ht : h.todo = []) (hto : h.told = true) (ho : mgmtOpen h s = false) :
    exec (.contextHalted part) s = .next (s.modPart part fun p => { p with halt := none }) := by
  unfold mgmtOpen faulted at ho
  refine runEvent_ok ((act_bind_ok (act_get s)).trans ((act_bind_ok (someA_ok hh)).trans ?_))
  simp only [act_bind, act_needA, hm, hs, ha, ht, hto, ho, Bool.not_false, Bool.and_self, beq_self_eq_true, Bool.and_false, Bool.false_eq_true, if_true, if_false, act_set]
theorem toldAll_halted (s : State) (h : Halt) {c : Nat} (hc : c ∈ faulted h) : ((toldAll s h).ctxD c).halted = if (s.ctxD c).halted.isNone then some (lowestCode h c) else (s.ctxD c).halted := by
  unfold toldAll
  rw [haltCtxs_halted]
  simp only [List.mem_filter, hc, true_and]
theorem toldAll_mem (s : State) (h : Halt) : (toldAll s h).mem = s.mem := foldl_keep State.mem (fun s c => s.haltCtx c (lowestCode h c)) (fun s c => haltCtx_mem s c _) _ s
end Sys2Proof.Machine
end

section
/-! SETTLED. The halt sequence. -/
open Sys2Proof Sys2Proof.Machine Sys2Proof.Spec

/-- Settles O48, step by step: the units stop, the records are set out and written, the contexts are halted one by one, the line falls. -/
theorem haltSequenceCompletes : Obligations.HaltSequenceCompletes := by
  unfold Obligations.HaltSequenceCompletes
  intro s part h hh hp
  refine ⟨exec_halt_stops hh, fun n rs => ⟨length_placeStops n rs, fun i r => placeStops_getElem?⟩, fun c i r rest => exec_stop_written hh, fun hm hs ha ht => ?_⟩
  intro cs open_
  exact ⟨fun hto => ⟨exec_contexts_halted hh hm hs ha ht hto, toldAll_mem s h, fun c => toldAll_halted s h⟩, exec_halt_falls hh hm hs ha ht⟩
end

section
/-! SUPPORT. The host's commands (O49). -/

namespace Sys2Proof.Machine

open Sys2Proof.Spec

variable {s : State}

/-! ## What a wipe leaves of memory (R496) -/

/-- Memory without the key reads 0 there. -/
theorem memGet_noKey {k : Nat} : ∀ {m : List Host.Cell}, (∀ c ∈ m, c.1 ≠ k) → memGet m k = 0#8
  | [], _ => rfl
  | (a, b) :: m, h => by
    rw [memGet, if_neg (fun e : k = a => h (a, b) List.mem_cons_self e.symm), memGet_noKey fun c hc => h c (List.mem_cons_of_mem _ hc)]
    exact ite_self _
theorem wiped_mem (s : State) (f : Bool) : (s.wiped f).mem = s.mem.filter fun c => survives s.pkg f c.1 := rfl
theorem memGet_wiped {f : Bool} {k : Nat} (h : survives s.pkg f k = false) : memGet (s.wiped f).mem k = 0#8 := by
  rw [wiped_mem]
  refine memGet_noKey fun c hc hk => ?_
  have hs := (List.mem_filter.mp hc).2
  rw [hk, h] at hs
  cases hs
theorem measures_eq (ns : List Nat) (s : State) : ∃ ms, ns.foldl State.measure s = { s with measures := ms } := by
  induction ns generalizing s with
  | nil => exact ⟨s.measures, rfl⟩
  | cons n ns ih =>
    obtain ⟨ms, h⟩ := ih (s.measure n)
    exact ⟨ms, h⟩

/-! ## Translation invalidates (R238) -/

theorem exec_invalidate_idle (h : s.hostOk = true) (hb : s.invBusy = none) (ctx pages : Nat) (base : VAddr) : exec (.translationInvalidate ctx base pages) s = .next
    { s with invReg := [BitVec.ofNat 64 ctx, base.setWidth 64, BitVec.ofNat 64 pages, 0], invBusy := some (ctx, base, pages) } := by
  refine next_congr ?_
  rw [h, hb]
  rfl
theorem exec_invalidate_busy (h : s.hostOk = true) (hb : s.invBusy.isSome = true) (ctx pages : Nat) (base : VAddr) :
    exec (.translationInvalidate ctx base pages) s = .next { s with invOvr := true } := by
  refine next_congr ?_
  rw [h, hb]
  rfl
/-- The invalidate names this translation. -/
def named (ctx pages : Nat) (base : VAddr) (e : TlbEnt) : Bool :=
  e.ctx == ctx && (pages == 0 || decide (base.toNat / 2 ^ 16 ≤ e.vpage ∧ e.vpage < base.toNat / 2 ^ 16 + pages))
/-- The state in which the invalidate is over. -/
def invalidated (ctx pages : Nat) (base : VAddr) (s : State) : State :=
  { s with invBusy := none, cores := s.cores.map fun (c : Core) => { c with tlb := c.tlb.filter (fun e => !named ctx pages base e), ahead := c.ahead.filter fun e => !named ctx pages base e } }
theorem exec_invalidate_over {ctx pages : Nat} {base : VAddr} (hb : s.invBusy = some (ctx, base, pages)) (ha : s.accessesOpen ctx = false) :
    exec .invalidateComplete s = .next (invalidated ctx pages base s) := by
  refine runEvent_ok ((act_bind_ok (act_get s)).trans ((act_bind_ok (someA_ok hb)).trans ?_))
  simp only [act_bind, act_needA, ha, Bool.not_false, if_true, act_set]
  rfl
theorem invalidated_tlbs {ctx pages : Nat} {base : VAddr} {c : Core} (hc : c ∈ (invalidated ctx pages base s).cores) {e : TlbEnt} (he : e ∈ c.tlb ++ c.ahead) (hx : e.ctx = ctx) :
    pages ≠ 0 ∧ ¬(base.toNat / 2 ^ 16 ≤ e.vpage ∧ e.vpage < base.toNat / 2 ^ 16 + pages) := by
  obtain ⟨c, -, rfl⟩ := List.mem_map.mp hc
  have hn : named ctx pages base e = false := by
    rcases List.mem_append.mp he with he | he
    all_goals exact Bool.not_eq_true' _ ▸ (List.mem_filter.mp he).2
  rw [named, hx, beq_self_eq_true, Bool.true_and, Bool.or_eq_false_iff] at hn
  exact ⟨beq_eq_false_iff_ne.mp hn.1, of_decide_eq_false hn.2⟩

/-! ## Flash (R497) -/

theorem exec_flash_requested (h : s.hostOk = true) (hf : s.flashW = none) (host : Bool) (src page n : Nat) :
    exec (.flashWriteRequest host src page n) s = .next { s with
      flashW := some ⟨host, src, page, n⟩, flashDone := false, flashBox := [BitVec.ofNat 64 src, BitVec.ofNat 64 page, BitVec.ofNat 64 n, if host then 1 else 0] } := by
  refine next_congr ?_
  rw [h, hf]
  rfl
/-- The pieces of a flash write's source. -/
def flashPieces (s : State) (host : Bool) (src : Nat) : List (Nat × Nat) := if host then [(kHost src, 16384)] else hbmPieces s.pkg src 16384
/-- A page of flash is written whole, and its stripe's parity. -/
def flashed (s : State) (host : Bool) (src page : Nat) : State :=
  (s.wrPsn (kFlash (16384 * (page % 2 ^ 29))) ((flashPieces s host src).flatMap fun p => s.rd p.1 p.2) ((flashPieces s host src).flatMap fun p => s.rdPsn p.1 p.2)).rebuildParity (page % 2 ^ 29)
theorem exec_flash_page {host : Bool} {src page n : Nat} (hm : s.mgmtUp = true) (hp : s.pgUp = true) (hf : s.flashW = some ⟨host, src, page, n + 1⟩) (hn : 1 ≤ n) :
    exec .flashWriteDone s = .next { flashed s host src page with flashW := some ⟨host, src + 16384, page + 1, n⟩ } := by
  refine runEvent_ok ((act_bind_ok (act_get s)).trans ((act_bind_ok (someA_ok hf)).trans ?_))
  simp only [act_bind, act_needA, hm, hp, Bool.and_self, if_true, if_neg (Nat.ne_of_gt hn)]
  rfl
theorem exec_flash_last {host : Bool} {src page : Nat} (hm : s.mgmtUp = true) (hp : s.pgUp = true) (hf : s.flashW = some ⟨host, src, page, 1⟩) :
    exec .flashWriteDone s = .next ({ flashed s host src page with flashW := none, flashDone := true } : State).serveLife := by
  refine runEvent_ok ((act_bind_ok (act_get s)).trans ((act_bind_ok (someA_ok hf)).trans ?_))
  simp only [act_bind, act_needA, hm, hp, Bool.and_self, if_true]
  rfl
theorem exec_flash_none {host : Bool} {src page : Nat} (hm : s.mgmtUp = true) (hp : s.pgUp = true) (hf : s.flashW = some ⟨host, src, page, 0⟩) :
    exec .flashWriteDone s = .next ({ s with flashW := none, flashDone := true } : State).serveLife := by
  refine runEvent_ok ((act_bind_ok (act_get s)).trans ((act_bind_ok (someA_ok hf)).trans ?_))
  simp only [act_bind, act_needA, hm, hp, Bool.and_self, if_true, act_set]
/-- A run that does not pass the end of HBM is one piece. -/
theorem hbmPieces_inside {src n : Nat} (s : State) (hn : 0 < n) (h : src + n ≤ hbmBytes) : (hbmPieces s.pkg src n).flatMap (fun p => s.rd p.1 p.2) = s.rd (kHbm s.pkg src) n := by
  have hmod : src % hbmBytes = src := Nat.mod_eq_of_lt (by omega)
  unfold hbmPieces
  rw [hmod, Nat.min_eq_left (by omega)]
  simp only [Nat.sub_self, List.flatMap_cons, List.flatMap_nil, List.append_nil]
  exact List.append_nil _

/-! ## Reports, the life cycle, contexts, resets (R459, R493 to R496) -/

/-- What a report says, over the nonce. -/
def reportBody (s : State) (nonce : List Byte) : List Byte := nonce ++ s.measures.flatten ++ leBytes 4 s.lifeCycle ++ (List.range 32).map Config.identityByte
/-- The state with the report. -/
def reported (s : State) (nonce : List Byte) : State := { s with attReport := reportBody s nonce ++ (List.range 4627).map (Config.signByte (reportBody s nonce)) }
theorem exec_attestation {nonce : List Byte} (h : nonce.length = 64) : exec (.attestationRequest nonce) s = .next (reported s nonce) := next_congr (if_neg (not_not_intro h))
theorem report_parts {nonce : List Byte} (h : nonce.length = 64) (hm : s.measures.flatten.length = 256) : (reported s nonce).attReport.take 64 = nonce ∧
    ((reported s nonce).attReport.drop 64).take 256 = s.measures.flatten ∧ (reported s nonce).attReport.length = 64 + 256 + 4 + 32 + 4627 := by
  generalize hsig : (List.range 4627).map (Config.signByte (reportBody s nonce)) = sig
  have hl : sig.length = 4627 := by rw [← hsig, List.length_map, List.length_range]
  have hr : (reported s nonce).attReport = nonce ++ (s.measures.flatten ++ (leBytes 4 s.lifeCycle ++ ((List.range 32).map Config.identityByte ++ sig))) := by
    rw [← hsig]
    unfold reported reportBody
    simp only [List.append_assoc]
  rw [hr, List.take_left' h, List.drop_left' h, List.take_left' hm]
  refine ⟨rfl, rfl, ?_⟩
  simp only [List.length_append, h, hm, hl, leBytes_length, List.length_map, List.length_range]
theorem exec_lifecycle {tgt : Nat} (h : lifeOk s.lifeCycle tgt = true) (hc : s.ctxsRun = false) (hf : s.flashW = none) :
    exec (.lifecycleRequest tgt) s = .next { ({ s with lifeReq := some tgt } : State).wiped false with lifeCycle := tgt } := by
  refine next_congr ((if_pos h).trans (if_neg ?_))
  show ¬(s.ctxsRun || s.flashW.isSome) = true
  rw [hc, hf]
  exact Bool.false_ne_true
theorem exec_context_destroyed {ctx : Nat} (h : s.hostOk = true) (hh : (s.ctxD ctx).halted.isSome = true) : exec (.contextDestroy ctx) s = .next (s.dropCtx ctx).serveLife := by
  refine next_congr ?_
  rw [h, hh]
  rfl
/-- The state of a package whose first `n` images verify, before the measurements. -/
def bootedWith (n : Nat) (s : State) : State := { s.wiped true with booted := true, released := n, bootFail := if n < 3 then some n else none, measures := State.reset.measures }
theorem exec_reset (s : State) (good : List Bool) : ∃ ms, exec (.resetBoot good) s = .next { bootedWith (leading (good.take 3)) s with measures := ms } := by
  obtain ⟨ms, h⟩ := measures_eq (List.range (min 4 (leading (good.take 3) + 2))) (bootedWith (leading (good.take 3)) s)
  exact ⟨ms, next_congr h⟩

/-! ## Registers (R398, R421, R459, R491) -/

section
variable (h : s.hostOk = true) (v : DWord)
include h
theorem host_open : ¬(!s.hostOk) = true := by
  rw [h]
  exact Bool.false_ne_true
theorem exec_write_context {c : Nat} (o : Nat) (hc : c < 4096) : exec (.registerWrite (.ctxWord c o) v) s = .next (s.modCtx c fun x => { x with rcd := x.rcd.write o v }) :=
  next_congr ((if_neg (host_open h)).trans (if_pos hc))
theorem exec_write_mask {p : Nat} (hm : s.maskOk p (v.setWidth 8) = true) : exec (.registerWrite (.partMask p) v) s = .next (s.modPart p fun x => { x with mask := v.setWidth 8 }) :=
  next_congr ((if_neg (host_open h)).trans (if_pos hm))
theorem exec_write_faultCtl (p : Nat) : exec (.registerWrite (.faultCtl p) v) s = .next (s.modPart p fun x => { x with fcw := v.setWidth 32 &&& 0x00FFFF07 }) :=
  next_congr (if_neg (host_open h))
theorem exec_write_bar4Base (hv : v.toNat + 2 ^ 36 ≤ hbmBytes) : exec (.registerWrite .bar4Base v) s = .next { s with bar4Base := v } :=
  next_congr ((if_neg (host_open h)).trans (if_pos hv))
theorem exec_write_invalidate {i : Nat} (hb : s.invBusy = none) (hi : i < 3) : exec (.registerWrite (.invalidateWord i) v) s = .next { s with invReg := s.invReg.set i v } := by
  refine next_congr ((if_neg (host_open h)).trans ?_)
  show s.writeInv i v = _
  unfold State.writeInv
  rw [hb, if_neg (by decide)]
  simp only [if_neg (show ¬i = 3 by omega), ← hb]
theorem exec_clear_counter {i : Nat} (hi : i < 32) : exec (.registerWrite (.pkgCounter i) 0) s = .next (s.modPart (i / 4) fun p => { p with pgc := p.pgc.set (i % 4) 0 }) :=
  next_congr ((if_neg (host_open h)).trans ((if_pos rfl).trans (if_pos hi)))
end
theorem exec_bar4Write {ofs : Nat} {bytes : List Byte} (h : ofs + bytes.length ≤ 2 ^ 36) :
    exec (.bar4Write ofs bytes) s = .next (s.wr (kHbm s.pkg (s.bar4Base.toNat + ofs)) bytes).noteEn := next_congr (if_pos h)
end Sys2Proof.Machine
end

section
/-! SETTLED. The host's commands. -/
open Sys2Proof Sys2Proof.Machine Sys2Proof.Spec

/-- Settles O49, command by command; what a wipe takes reads 0 since no cell of memory holds it. -/
theorem hostCommandsComplete : Obligations.HostCommandsComplete := by
  unfold Obligations.HostCommandsComplete
  refine ⟨fun s ctx pages base h => ⟨fun hb => exec_invalidate_idle h hb ctx pages base, fun hb => exec_invalidate_busy h hb ctx pages base⟩,
    fun s ctx pages base hb ha => ⟨_, exec_invalidate_over hb ha, rfl, rfl, fun c hc e he hx => invalidated_tlbs hc he hx⟩,
    fun s host src page n => ⟨fun h hf => exec_flash_requested h hf host src page n, fun hm hp hf => ?_, fun hm hp hf => exec_flash_none hm hp hf, hbmPieces_inside s (by decide)⟩,
    fun s nonce h hm => ?_, fun s tgt h hc hf => ⟨_, exec_lifecycle h hc hf, rfl, fun k hk => memGet_wiped hk⟩, fun s ctx h hh => exec_context_destroyed h hh,
    fun s v h => ⟨fun c o => exec_write_context h v o, fun p => exec_write_mask h v, exec_write_faultCtl h v, exec_write_bar4Base h v, fun hb i => exec_write_invalidate h v hb, fun i hi hv => ?_⟩,
    fun s ofs bytes => exec_bar4Write, fun s good => ?_⟩
  · intro ps t
    refine ⟨exec_flash_page hm hp hf, fun hn => ?_⟩
    subst hn
    exact exec_flash_last hm hp hf
  · obtain ⟨h1, h2, h3⟩ := report_parts h hm
    exact ⟨_, exec_attestation h, h1, h2, h3, rfl⟩
  · subst hv
    exact exec_clear_counter h hi
  · obtain ⟨ms, hr⟩ := exec_reset s good
    exact ⟨_, hr, rfl, rfl, rfl, rfl, rfl, rfl, fun k hk => memGet_wiped hk⟩
end

section
/-! SUPPORT. Heartbeats, the watchdog, throttling, scrubbing, links and soft errors (O50). -/

namespace Sys2Proof.Machine

open Sys2Proof.Spec

variable {s : State}

/-! ## Heartbeats and the watchdog (R441, R494) -/

section
variable {core : Nat} (hm : s.mgmtUp = true)
include hm
theorem mgmt_open : ¬(!s.mgmtUp) = true := by
  rw [hm]
  exact Bool.false_ne_true
theorem exec_beat_seen (hb : (s.coreD core).beat = true ∨ (s.coreD core).excuse = true) :
    exec (.heartbeatWindowExpiry core) s = .next ((newWindow core 0 s).modCore core fun c => { c with excuse := false }) := by
  refine next_congr ((if_neg (mgmt_open hm)).trans (if_pos ?_))
  rcases hb with hb | hb <;> simp [hb]
omit hm in
theorem beat_missed (hn : s.beatsOn core = true) (hb : (s.coreD core).beat = false) (he : (s.coreD core).excuse = false) :
    ¬((s.coreD core).beat || !s.beatsOn core || (s.coreD core).excuse) = true := by
  rw [hn, hb, he]
  exact Bool.false_ne_true
theorem exec_beat_missed (hn : s.beatsOn core = true) (hb : (s.coreD core).beat = false) (he : (s.coreD core).excuse = false) (h0 : (s.coreD core).missed = 0) :
    exec (.heartbeatWindowExpiry core) s = .next (newWindow core 1 s) :=
  next_congr ((if_neg (mgmt_open hm)).trans ((if_neg (beat_missed hn hb he)).trans (if_pos h0)))
theorem exec_beats_missed (hn : s.beatsOn core = true) (hb : (s.coreD core).beat = false) (he : (s.coreD core).excuse = false) (h0 : (s.coreD core).missed ≠ 0) :
    exec (.heartbeatWindowExpiry core) s = .next ((((s.resident core).map (·.ctx)).eraseDups).foldl (fun s x => s.raiseHalt x fcBeat none (.core core) (beatRec x core)) (newWindow core 0 s)) :=
  next_congr ((if_neg (mgmt_open hm)).trans ((if_neg (beat_missed hn hb he)).trans (if_neg h0)))
theorem exec_throttle (hc : 1 < (s.coreD core).clock) : exec (.clockThrottleStep core) s = .next { s.modCore core (fun c => { c with clock := (s.coreD core).clock - 1, beat := false }) with
    throttleLog := (core, (s.coreD core).clock - 1) :: s.throttleLog } := by
  refine next_congr (if_neg ?_)
  rintro (h | h)
  · exact mgmt_open hm h
  · omega
end
section
variable (hb : s.booted = true)
include hb
theorem booted_open : ¬(!s.booted) = true := by
  rw [hb]
  exact Bool.false_ne_true
theorem exec_watchdog_reported (hr : s.wdReported = true) : exec .watchdogExpiry s = .next { s with wdReported := false, wdMissed := 0 } :=
  next_congr ((if_neg (booted_open hb)).trans (if_pos hr))
theorem exec_watchdog_missed (hr : s.wdReported = false) (h0 : s.wdMissed = 0) : exec .watchdogExpiry s = .next { s with wdMissed := 1 } :=
  next_congr ((if_neg (booted_open hb)).trans ((if_neg (Bool.eq_false_iff.mp hr)).trans (if_pos h0)))
end
/-- The contexts that run are halted, and every core's next window is excused. -/
def watchdogHalts (s : State) : State :=
  { s.ctxsRunning.foldl (fun s c => s.haltCtx c 0) s with wdMissed := 0, cores := (s.ctxsRunning.foldl (fun s c => s.haltCtx c 0) s).cores.map fun (c : Core) => { c with excuse := true } }
theorem exec_watchdog_boots (hb : s.booted = true) (hr : s.wdReported = false) (h0 : s.wdMissed ≠ 0) : exec .watchdogExpiry s = .next (watchdogHalts s).bootAgain :=
  next_congr ((if_neg (booted_open hb)).trans ((if_neg (Bool.eq_false_iff.mp hr)).trans (if_neg h0)))
theorem haltCtx_released (s : State) (c k : Nat) : (s.haltCtx c k).released = s.released :=
  (modCtx_released ..).trans (foldl_keep State.released (fun s q => s.postStatus q 0x11 q.ridx k .mgmt) (fun _ _ => rfl) _ s)
theorem haltCtx_tick (s : State) (c k : Nat) : (s.haltCtx c k).tick = s.tick :=
  (modCtx_tick ..).trans (foldl_keep State.tick (fun s q => s.postStatus q 0x11 q.ridx k .mgmt) (fun _ _ => rfl) _ s)
theorem watchdogHalts_released (s : State) : (watchdogHalts s).released = s.released := foldl_keep State.released (fun s c => s.haltCtx c 0) (fun s c => haltCtx_released s c 0) _ s
theorem watchdogHalts_tick (s : State) : (watchdogHalts s).tick = s.tick := foldl_keep State.tick (fun s c => s.haltCtx c 0) (fun s c => haltCtx_tick s c 0) _ s
/-- A boot changes the measurements, the processors released and the free values' count alone. -/
theorem bootAgain_eq (s : State) : ∃ ms n, s.bootAgain = { s with
    measures := ms, tick := n
    released := if s.released = 0 then leading [Config.imageGood s.tick, Config.imageGood (s.tick + 1), Config.imageGood (s.tick + 2)] else if Config.imageGood s.tick then s.released else 0
    bootFail := if s.released = 0 then (if leading [Config.imageGood s.tick, Config.imageGood (s.tick + 1), Config.imageGood (s.tick + 2)] < 3 then
      some (leading [Config.imageGood s.tick, Config.imageGood (s.tick + 1), Config.imageGood (s.tick + 2)]) else none) else if Config.imageGood s.tick then s.bootFail else some 0 } := by
  have hfold : ∀ (ns : List Nat) (s : State), ∃ ms, ns.foldl (fun s i => s.measure (i + 1)) s = { s with measures := ms } := fun ns => by
    induction ns with
    | nil => exact fun s => ⟨s.measures, rfl⟩
    | cons n ns ih => exact fun s => let ⟨ms, h⟩ := ih (s.measure (n + 1)); ⟨ms, h⟩
  unfold State.bootAgain
  by_cases h0 : s.released = 0
  · obtain ⟨ms, hms⟩ := hfold (List.range (min 3 (leading [Config.imageGood s.tick, Config.imageGood (s.tick + 1), Config.imageGood (s.tick + 2)] + 1))) s
    simp only [h0, if_true, Nat.add_zero, hms]
    exact ⟨_, _, rfl⟩
  · cases hg : Config.imageGood s.tick
    · simp only [h0, if_false, Nat.add_zero, hg, Bool.false_eq_true]
      exact ⟨_, _, rfl⟩
    · simp only [h0, if_false, Nat.add_zero, hg, if_true]
      exact ⟨_, _, rfl⟩
theorem haltCtxs_isSome (cs : List Nat) (s : State) (n : Nat) (h : n ∈ cs ∨ (s.ctxD n).halted.isSome = true) :
    ((cs.foldl (fun s c => s.haltCtx c 0) s).ctxD n).halted.isSome = true := by
  rw [haltCtxs_halted fun _ => 0]
  split
  · rfl
  · next hn => exact h.resolve_left hn
/-- A context that the host has made, or that has a grid, and that is not saved runs or is halted. -/
theorem runs_or_halted {n : Nat} (h : (∃ g ∈ s.grids, g.ctx = n) ∨ ∃ c ∈ s.ctxs, c.no = n ∧ c.rcd ≠ .init) (hs : ∀ im, (s.ctxD n).saved ≠ .saved im) :
    n ∈ s.ctxsRunning ∨ (s.ctxD n).halted.isSome = true := by
  by_cases hh : (s.ctxD n).halted.isSome = true
  · exact .inr hh
  · refine .inl ?_
    have hmem : n ∈ s.grids.map (·.ctx) ++ (s.ctxs.filter (·.rcd != .init)).map (·.no) := by
      rcases h with ⟨g, hg, rfl⟩ | ⟨c, hc, rfl, hr⟩
      · exact List.mem_append_left _ (List.mem_map_of_mem hg)
      · exact List.mem_append_right _ (List.mem_map.mpr ⟨c, List.mem_filter.mpr ⟨hc, bne_iff_ne.mpr hr⟩, rfl⟩)
    refine List.mem_filter.mpr ⟨List.mem_eraseDups.mpr hmem, ?_⟩
    simp only [Bool.not_eq_true, Option.isSome_eq_false_iff] at hh
    simp only [hh, Bool.true_and]
theorem watchdogHalts_halted {n : Nat} (h : (∃ g ∈ s.grids, g.ctx = n) ∨ ∃ c ∈ s.ctxs, c.no = n ∧ c.rcd ≠ .init) (hs : ∀ im, (s.ctxD n).saved ≠ .saved im) :
    ((watchdogHalts s).ctxD n).halted.isSome = true := haltCtxs_isSome _ s n (runs_or_halted h hs)

/-! ## Scrubbing and soft errors (R442 to R445) -/

theorem modScrub_keeps (s : State) (l : Level) (i : Nat) (f : Scrub → Scrub) :
    (s.modScrub l i f).mem = s.mem ∧ (s.modScrub l i f).granErr = s.granErr ∧ (s.modScrub l i f).wordErr = s.wordErr ∧ (s.modScrub l i f).blocks = s.blocks := by
  cases l <;> exact ⟨rfl, rfl, rfl, rfl⟩
/-- Scrubbers of a level that there are. -/
def scrubbers (s : State) : Level → Nat
  | .slice => s.dieS.length
  | .hbm => s.hbmS.length
  | _ => s.cores.length
theorem coreD_modCore {i : Nat} (f : Core → Core) (h : i < s.cores.length) : (s.modCore i f).coreD i = f (s.coreD i) := by
  unfold State.coreD State.modCore
  simp [List.getElem?_eq_getElem h]
theorem scrub_modScrub {l : Level} {i : Nat} (f : Scrub → Scrub) (h : i < scrubbers s l) : (s.modScrub l i f).scrub l i = f (s.scrub l i) := by
  cases l with
  | slice => simp [State.modScrub, State.scrub, List.getD_eq_getElem?_getD, List.getElem?_eq_getElem (show i < s.dieS.length from h)]
  | hbm => simp [State.modScrub, State.scrub, List.getD_eq_getElem?_getD, List.getElem?_eq_getElem (show i < s.hbmS.length from h)]
  | vrf => exact congrArg Core.vrf (coreD_modCore (fun c => { c with vrf := f c.vrf }) h)
  | shared => exact congrArg Core.shm (coreD_modCore (fun c => { c with shm := f c.shm }) h)
  | acc => exact congrArg Core.accS (coreD_modCore (fun c => { c with accS := f c.accS }) h)
  | cabinet => exact congrArg Core.cabS (coreD_modCore (fun c => { c with cabS := f c.cabS }) h)
/-- An error's place is logged. -/
def logAt (s : State) (p : ErrPlace) (kind : Nat) : State :=
  match s.errAt p with
  | some (l, i, g) => { s.modScrub l i (·.record (s.errStamp l i) (BitVec.ofNat 32 g) kind (Config.freeByte s.tick).toNat) with tick := s.tick + 9 }
  | none => s
theorem logErr_eq (s : State) (p : ErrPlace) (kind : Nat) : ∃ cs, s.logErr p kind = logAt { s with cores := cs } p kind := by
  unfold State.logErr
  cases ErrPlace.core? s p with
  | none => exact ⟨s.cores, rfl⟩
  | some c => exact ⟨_, rfl⟩
theorem logErr_keeps (s : State) (p : ErrPlace) (k : Nat) :
    (s.logErr p k).mem = s.mem ∧ (s.logErr p k).granErr = s.granErr ∧ (s.logErr p k).wordErr = s.wordErr ∧ (s.logErr p k).blocks = s.blocks := by
  obtain ⟨cs, h⟩ := logErr_eq s p k
  rw [h]
  unfold logAt
  split
  · exact modScrub_keeps _ _ _ _
  · exact ⟨rfl, rfl, rfl, rfl⟩
end Sys2Proof.Machine
end

section
/-! SETTLED. Housekeeping. -/
open Sys2Proof Sys2Proof.Machine Sys2Proof.Spec

/-- Settles O50, event by event; a missed watchdog halts each context that runs before the management core boots again. -/
theorem housekeepingCompletes : Obligations.HousekeepingCompletes := by
  unfold Obligations.HousekeepingCompletes
  refine ⟨fun s core => rfl, fun s core hm hn => ?_, fun s hm => next_congr (if_pos hm), fun s => ⟨fun hb => next_congr (if_pos (by rw [hb]; rfl)), fun hb => ?_⟩, fun s core hm hc => exec_throttle hm hc,
    fun s l i hi => ?_, fun s n => ⟨fun hn => next_congr (if_pos hn), fun hn hc => next_congr (if_pos ⟨hn, hc⟩), fun hl => next_congr (if_pos hl)⟩, fun s p => ⟨⟨_, rfl, logErr_keeps s p _⟩, rfl⟩⟩
  · intro c
    exact ⟨exec_beat_seen hm, exec_beat_missed hm hn, exec_beats_missed hm hn⟩
  · refine ⟨exec_watchdog_reported hb, exec_watchdog_missed hb, fun hr h0 => ?_⟩
    obtain ⟨ms, n, h⟩ := bootAgain_eq (watchdogHalts s)
    simp only [watchdogHalts_released, watchdogHalts_tick] at h
    refine ⟨_, exec_watchdog_boots hb hr h0, ?_, fun n hn hs => ?_, fun hz => ⟨fun hg => ?_, fun hg => ?_⟩, fun hz => ?_⟩
    all_goals rw [h]
    · rintro c hc
      obtain ⟨c, -, rfl⟩ := List.mem_map.mp hc
      rfl
    · exact watchdogHalts_halted hn hs
    · simp only [hz, if_false, hg, if_true]
    · simp only [hz, if_false, hg, Bool.false_eq_true, and_self]
    · simp only [hz, if_true]
  · obtain ⟨h1, h2, -, h4⟩ := modScrub_keeps s l i (·.tick (levelSize l))
    exact ⟨_, rfl, scrub_modScrub _ (by cases l <;> exact hi), h1, h2, h4⟩
end

section
/-! SUPPORT. Memory's canonical form: the rules for attempts and for the operations that every other function is built from. -/

namespace Sys2Proof.Machine

open Sys2Proof.Spec

/-- An attempt that leaves memory canonical wherever it was. -/
def Safe {α : Type} (a : Act α) : Prop := Keeps memCanonical (fun _ => True) a
/-- An outcome from which the machine goes on, memory canonical where it was in `s`. -/
def Goes (s : State) (o : Host.Outcome State Fault Refusal) : Prop := ∃ t, o = .next t ∧ (memCanonical s → memCanonical t)

/-! ## Attempts -/

theorem safe_get {β : Type} {f : State → Act β} (h : ∀ s, memCanonical s → Safe (f s)) : Safe (get >>= f) := keeps_get h
theorem safe_bind {α β : Type} {a : Act α} {f : α → Act β} (ha : Safe a) (hf : ∀ x, Safe (f x)) : Safe (a >>= f) := keeps_bind ha hf
theorem safe_modA {f : State → State} (h : ∀ s, memCanonical s → memCanonical (f s)) : Safe (modA f) := keeps_modA h
theorem safe_needA (b : Bool) (e : Stop) : Safe (needA b e) := keeps_needA trivial
theorem safe_throw {α : Type} (e : Stop) : Safe (throw e : Act α) := keeps_throw trivial
/-- A lookup that finds something lets the attempt go on with what it found. -/
theorem safe_someA {α β : Type} {x : Option α} {e : Stop} {f : α → Act β} (h : ∀ a, x = some a → Safe (f a)) : Safe (someA x e >>= f) := by
  cases x with
  | none => exact fun _ _ => trivial
  | some a => exact h a rfl
/-- What the steps of an attempt need, in one place: `grind` takes an attempt apart by it. -/
theorem attempt_rules :
    (∀ {α : Type} (x : α), Safe (pure x)) ∧ (∀ {α : Type} e, Safe (throw e : Act α)) ∧ (∀ {α : Type}, Safe (holdA : Act α)) ∧ (∀ {α : Type}, Safe (idleA : Act α)) ∧
    (∀ {α : Type} c a l i, Safe (faultA c a l i : Act α)) ∧ (∀ b e, Safe (needA b e)) ∧ (∀ {α : Type} (x : Option α) e, Safe (someA x e)) ∧
    (∀ t, memCanonical t → Safe (set t : Act Unit)) ∧ (∀ f : State → State, (∀ s, memCanonical s → memCanonical (f s)) → Safe (modA f)) ∧
    (∀ {α β : Type} (a : Act α) (f : α → Act β), Safe a → (∀ x, Safe (f x)) → Safe (a >>= f)) ∧
    (∀ {β : Type} (f : State → Act β), (∀ s, memCanonical s → Safe (f s)) → Safe (get >>= f)) ∧
    (∀ {β γ : Type} (f : γ → β → Act (ForInStep β)) (xs : List γ) b, (∀ x b, Safe (f x b)) → Safe (forIn xs b f)) :=
  ⟨keeps_pure, safe_throw, safe_throw _, safe_throw _, fun _ _ _ _ => safe_throw _, safe_needA, fun _ _ => keeps_someA trivial, fun _ => keeps_set, fun _ => safe_modA,
    fun _ _ => safe_bind, fun _ => safe_get, fun _ _ b h => keeps_forIn h b⟩

/-! ## Outcomes -/

theorem goes_next {s t : State} (h : memCanonical s → memCanonical t) : Goes s (.next t) := ⟨t, rfl, h⟩
theorem goes_event {a : Act Unit} (h : Safe a) (s : State) : Goes s (runEvent a s) := by
  cases ha : a s with
  | error e => exact ⟨s, runEvent_idle ha, id⟩
  | ok p => exact ⟨p.2, runEvent_ok ha, fun hs => h.ok hs ha⟩
theorem Goes.after {s t : State} {o : Host.Outcome State Fault Refusal} (h : Goes t o) (ht : memCanonical s → memCanonical t) : Goes s o := by
  obtain ⟨u, ho, hu⟩ := h
  exact ⟨u, ho, fun hs => hu (ht hs)⟩

/-! ## Operations -/

theorem ite_canonical {c : Prop} [Decidable c] {a b : State} (ha : memCanonical a) (hb : memCanonical b) : memCanonical (if c then a else b) := by
  split <;> assumption
theorem fst_ite_canonical {α : Type} {c : Prop} [Decidable c] {a b : State × α} (ha : memCanonical a.1) (hb : memCanonical b.1) :
    memCanonical (if c then a else b).1 := by
  split <;> assumption

theorem foldl_canonical {α : Type} {f : State → α → State} (hf : ∀ s x, memCanonical s → memCanonical (f s x)) (xs : List α) {s : State} (h : memCanonical s) :
    memCanonical (xs.foldl f s) := foldl_keeps hf xs h
theorem Quiet.canonical {s t : State} (h : Quiet s t) (hs : memCanonical s) : memCanonical t := by
  unfold memCanonical
  rw [h.mem]
  exact hs
theorem Still.canonical {s t : State} (h : Still s t) (hs : memCanonical s) : memCanonical t := by
  unfold memCanonical
  rw [h.mem]
  exact hs

end Sys2Proof.Machine
end

section
/-! SUPPORT. Memory stays canonical: the state's operations, and the end of an instruction of a unit. -/

namespace Sys2Proof.Machine

open Sys2Proof.Spec

/-! ## The state's operations -/

section
variable {s : State} (hs : memCanonical s)
include hs
theorem wr_canonical (k : Nat) (bs : List Byte) : memCanonical (s.wr k bs) := wr_wf s k bs hs
theorem wrMany_canonical (ps : List (Nat × List Byte)) : memCanonical (s.wrMany ps) := wrMany_wf s ps hs
theorem markGran_canonical (k n : Nat) : memCanonical (s.markGran k n) := by
  unfold State.markGran
  grind -funext only [foldl_canonical, memCanonical]
theorem markWord_canonical (k : Nat) : memCanonical (s.markWord k) := hs
theorem markErr_canonical (k : Nat) (ps : List Bool) : memCanonical (s.markErr k ps) := hs
theorem wrPsn_canonical (k : Nat) (bs : List Byte) (ps : List Bool) : memCanonical (s.wrPsn k bs ps) := wrPsn_wf s k bs ps hs
theorem wrPsnMany_canonical (ps : List (Nat × List Byte × List Bool)) : memCanonical (s.wrPsnMany ps) := wrPsnMany_wf s ps hs
theorem dropRegion_canonical (c : Nat) : memCanonical (s.dropRegion c) := dropRegion_wf s c hs
theorem takeRegion_canonical (c : Nat) : memCanonical (s.takeRegion c) := takeRegion_wf s c hs
theorem putBytes_canonical (k : Nat) (bs : List Byte) : memCanonical (s.putBytes k bs) := putBytes_wf s k bs hs
theorem modBlk_canonical (uid : Nat) (f : Block → Block) : memCanonical (s.modBlk uid f) := hs
theorem modGrp_canonical (u : UnitRef) (f : Grp → Grp) : memCanonical (s.modGrp u f) := hs
theorem modThread_canonical (u : UnitRef) (l : Nat) (f : Thread → Thread) : memCanonical (s.modThread u l f) := hs
theorem modCtx_canonical (n : Nat) (f : Ctx → Ctx) : memCanonical (s.modCtx n f) := by
  unfold State.modCtx
  grind -funext only [memCanonical]
theorem modGrid_canonical (id : Nat) (f : Grid → Grid) : memCanonical (s.modGrid id f) := hs
theorem modCore_canonical (c : Nat) (f : Core → Core) : memCanonical (s.modCore c f) := hs
theorem modPart_canonical (p : Nat) (f : Part → Part) : memCanonical (s.modPart p f) := hs
theorem bump_canonical (ctx ix n : Nat) : memCanonical (s.bump ctx ix n) := by
  unfold State.bump
  grind -funext only [modCtx_canonical]
theorem hostError_canonical : memCanonical s.hostError := hs
theorem dropLink_canonical (pkg n : Nat) : memCanonical (s.dropLink pkg n) := hs
theorem uncorrAt_canonical (core : Nat) : memCanonical (s.uncorrAt core) := hs
theorem fresh_canonical : memCanonical (s.fresh).2 := by
  unfold State.fresh
  grind -funext only [memCanonical]
theorem wrRuns_canonical (rs : List Run) (bs : List Byte) : memCanonical (s.wrRuns rs bs) :=
  List.foldlRecOn rs _ (motive := fun x : State × List Byte => memCanonical x.1) hs fun x hx r _ => wr_canonical hx r.key (x.2.take r.len)
theorem devWrite_canonical (ctx va : Nat) (bs : List Byte) : memCanonical (s.devWrite ctx va bs) := by
  unfold State.devWrite
  grind -funext only [wrRuns_canonical]
theorem post_canonical (ctx : Nat) (r : FRec) (a : Answer) : memCanonical (s.post ctx r a) := by
  unfold State.post
  grind -funext only [modCtx_canonical]
theorem noteStop_canonical (ctx : Nat) (u : UnitRef) : memCanonical (s.noteStop ctx u) := by
  unfold State.noteStop
  grind -funext only [modPart_canonical]
theorem endRun_canonical (u : UnitRef) : memCanonical (s.endRun u) := by
  unfold State.endRun
  grind -funext only [noteStop_canonical, modGrp_canonical, modCore_canonical]
theorem noteWait_canonical (u : UnitRef) (lanes : Mask) (gw : Option Nat) : memCanonical (s.noteWait u lanes gw) := hs
theorem raiseHalt_canonical (ctx code : Nat) (u : Option UnitRef) (who : Who) (r : FRec) : memCanonical (s.raiseHalt ctx code u who r) := by
  unfold State.raiseHalt
  grind -funext only [modGrp_canonical, endRun_canonical, modPart_canonical]
end

/-! ## Ports and destinations -/

section
variable {s : State} (hs : memCanonical s)
include hs
theorem portDrop_canonical (u : UnitRef) (l q n : Nat) : memCanonical (portDrop s u l q n) := by
  unfold portDrop
  grind -funext only [modBlk_canonical, modThread_canonical]
theorem pushRing_canonical (blk q : Nat) (ws : List PWord) : memCanonical (pushRing s blk q ws) := by
  unfold pushRing
  grind -funext only [foldl_canonical, wr_canonical, markWord_canonical, modBlk_canonical]
theorem writeDst_canonical (u : UnitRef) (l : Nat) (d : Dest) (ws : List PWord) : memCanonical (writeDst s u l d ws) := by
  unfold writeDst
  grind -funext only [modThread_canonical, pushRing_canonical]
end

/-! ## Faults, holds and the bench area -/

section
variable {s : State} (hs : memCanonical s)
include hs
theorem takeFault_canonical (u : UnitRef) (code : Nat) (faddr : DWord) (lane info : Nat) (pc : VAddr) (mask : Mask) : memCanonical (s.takeFault u code faddr lane info pc mask) := by
  unfold State.takeFault
  grind -funext only [raiseHalt_canonical]
theorem benchAlloc_canonical (ctx n : Nat) {y : Nat} {t : State} (ht : s.benchAlloc ctx n = some (y, t)) : memCanonical t := by
  unfold State.benchAlloc at ht
  grind -funext only [modCtx_canonical, Option.map_eq_some_iff]
theorem benchFree_canonical (ctx va : Nat) : memCanonical (s.benchFree ctx va) := by
  unfold State.benchFree
  grind -funext only [modCtx_canonical]
theorem benchGrp_canonical (u : UnitRef) (cause : Nat) {y : Nat} {t : State} (ht : s.benchGrp u cause = some (y, t)) : memCanonical t := by
  unfold State.benchGrp at ht
  grind -funext only [devWrite_canonical, bump_canonical, endRun_canonical, noteStop_canonical, modGrp_canonical, modBlk_canonical, benchAlloc_canonical, Option.map_eq_some_iff, Option.bind_eq_some_iff]
theorem holdStep_canonical (u : UnitRef) (gw : Option Nat) : memCanonical (s.holdStep u gw) := by
  unfold State.holdStep
  grind -funext only [noteWait_canonical, modGrp_canonical]
theorem stand_canonical (u : UnitRef) (cause : Nat) : memCanonical (s.stand u cause) := by
  unfold State.stand
  grind -funext only [modGrp_canonical, endRun_canonical, noteWait_canonical]
theorem stopRecord0_canonical (ctx : Nat) (r : FRec) : memCanonical (s.stopRecord0 ctx r) := by
  unfold State.stopRecord0
  grind -funext only [devWrite_canonical]
theorem leavePage_canonical (u : UnitRef) (b : Block) (g : Grp) (va : VAddr) (lane : Nat) : memCanonical (s.leavePage u b g va lane) := by
  unfold State.leavePage
  dsimp only
  split
  · rename_i hb
    grind -funext only [modGrp_canonical, benchGrp_canonical, post_canonical]
  · exact post_canonical (stand_canonical (modGrp_canonical hs _ _) _ _) _ _ _
theorem leaveStop_canonical (u : UnitRef) (b : Block) (g : Grp) (code : Nat) (mask : Mask) (info : Nat) (pc : VAddr) (skip : Bool) :
    memCanonical (s.leaveStop u b g code mask info pc skip) := by
  unfold State.leaveStop
  dsimp only
  split
  · grind -funext only [modGrp_canonical, benchGrp_canonical, stopRecord0_canonical]
  · exact stopRecord0_canonical (stand_canonical (modGrp_canonical hs _ _) _ _) _ _
theorem leaveNow_canonical (u : UnitRef) : memCanonical (s.leaveNow u) := by
  unfold State.leaveNow
  split
  · exact hs
  · split
    · exact hs
    · split
      · grind -funext only [leavePage_canonical, leaveStop_canonical]
      · exact hs
theorem leave_canonical (u : UnitRef) (w : Leave) : memCanonical (s.leave u w) := by
  unfold State.leave
  grind -funext only [leaveNow_canonical, modGrp_canonical, modCore_canonical]
theorem pageFault_canonical (u : UnitRef) (va : VAddr) (lane : Nat) : memCanonical (s.pageFault u va lane) := by
  unfold State.pageFault
  grind -funext only [leave_canonical, holdStep_canonical]
end

/-! ## Lanes, clauses and the results of a split -/

section
variable {s : State} (hs : memCanonical s)
include hs
theorem cbarCheck_canonical (grid cluster id : Nat) : memCanonical (s.cbarCheck grid cluster id) := by
  unfold State.cbarCheck
  grind -funext only [memCanonical]
theorem cbarsCheck_canonical (grid cluster : Nat) : memCanonical (s.cbarsCheck grid cluster) := by
  unfold State.cbarsCheck
  grind -funext only [foldl_canonical, cbarCheck_canonical]
theorem afterExit_canonical (blk : Nat) : memCanonical (s.afterExit blk) := by
  unfold State.afterExit
  grind -funext only [modBlk_canonical, cbarsCheck_canonical]
theorem retire_canonical (u : UnitRef) (l : Nat) : memCanonical (s.retire u l) := by
  unfold State.retire
  grind -funext only [bump_canonical, modThread_canonical]
theorem divergeCheck_canonical (u : UnitRef) : memCanonical (s.divergeCheck u) := by
  unfold State.divergeCheck
  grind -funext only [foldl_canonical, takeFault_canonical]
theorem leaveClause_canonical (u : UnitRef) (role : Role) (yielded : Bool) : memCanonical (s.leaveClause u role yielded) := by
  unfold State.leaveClause
  grind -funext only [endRun_canonical, modGrp_canonical, divergeCheck_canonical]
theorem advance_canonical (v : View) (yl : Bool) : memCanonical (s.advance v yl) := (quiet_advance s v yl).canonical hs
theorem breakClause_canonical (u : UnitRef) : memCanonical (s.breakClause u) := by
  unfold State.breakClause
  grind -funext only [modCore_canonical, noteStop_canonical, modGrp_canonical]
theorem stopUnit_canonical (v : View) (st : Stop) : memCanonical (s.stopUnit v st) := by
  unfold State.stopUnit
  grind -funext only [holdStep_canonical, modBlk_canonical, takeFault_canonical, pageFault_canonical]
theorem commitLane_canonical (u : UnitRef) (dst : Option Dest) (l : Nat) (o : LaneOut) : memCanonical (commitLane u dst s l o) := by
  unfold commitLane
  grind -funext only [retire_canonical, writeDst_canonical, modThread_canonical]
theorem commitAll_canonical (v : View) (dst : Option Dest) (outs : List (Nat × LaneOut)) : memCanonical (commitAll v dst outs s) := by
  unfold commitAll
  grind -funext only [foldl_canonical, commitLane_canonical, afterExit_canonical, advance_canonical]
theorem readAll_canonical {v : View} {ls : List Nat} {x : Uses} {ins : List LaneIn} {t : State} (h : readAll v ls x s = .ok (ins, t)) : memCanonical t :=
  (quiet_readAll h).canonical hs
end
/-- An instruction of a unit goes on: what its attempt leaves, or what its stop does. -/
theorem goes_unit {a : View → Act Unit} (h : ∀ v, Safe (a v)) (s : State) : Goes s (runUnit a s) := by
  cases hv : s.view? with
  | none => exact ⟨s, runUnit_none hv, id⟩
  | some v =>
    cases ha : a v s with
    | error e => exact ⟨_, runUnit_stop hv ha, fun hs => stopUnit_canonical hs v e⟩
    | ok p => exact ⟨p.2, runUnit_ok hv ha, fun hs => (h v).ok hs ha⟩
theorem safe_runSplit (g : Guard) (x : Uses) (f : List LaneIn → List (Nat × LaneOut)) (v : View) : Safe (runSplit g x f v) := by
  have rules := @attempt_rules
  unfold runSplit
  grind -funext only [advance_canonical, readAll_canonical, commitAll_canonical]

end Sys2Proof.Machine
end

section
/-! SUPPORT. Memory stays canonical: transfers, barriers, queues and tasks. -/

namespace Sys2Proof.Machine

open Sys2Proof.Spec

/-! ## Transfers, meetings and exits -/

section
variable {s : State} (hs : memCanonical s)
include hs
theorem goAll_canonical (v : View) (ts : List (Nat × VAddr)) : memCanonical (goAll v ts s) := by
  unfold goAll
  grind -funext only [foldl_canonical, modThread_canonical]
end
theorem safe_clause (v : View) : Safe (View.clause v) := by
  have rules := @attempt_rules
  unfold View.clause
  grind -funext only
theorem safe_checkTargets (v : View) (ts : List (Nat × VAddr)) : Safe (checkTargets v ts) := by
  have rules := @attempt_rules
  unfold checkTargets
  grind -funext only
theorem goes_execBra (g : Guard) (ofs : Word) (s : State) : Goes s (execBra g ofs s) := by
  have rules := @attempt_rules
  refine goes_unit (fun v => ?_) s
  grind -funext only [safe_clause, safe_checkTargets, advance_canonical, goAll_canonical]
theorem safe_indirect (w : WA) (link : Option Opnd) (v : View) : Safe (indirect w link v) := by
  have rules := @attempt_rules
  refine safe_bind (safe_needA _ _) fun _ => ?_
  dsimp only
  split
  · exact safe_modA fun s hs => advance_canonical hs _ _
  · refine safe_bind (safe_clause v) fun c => safe_get fun s hs => ?_
    split
    · exact safe_throw _
    · rename_i hr
      have hs' := readAll_canonical hs hr
      refine safe_bind (safe_checkTargets _ _) fun _ => keeps_set ?_
      grind -funext only [foldl_canonical, advance_canonical, retire_canonical, writeDst_canonical, afterExit_canonical, goAll_canonical]
theorem goes_execBrx (w : WA) (s : State) : Goes s (execBrx w s) := goes_unit (safe_indirect _ _) s
theorem goes_execRet (w : WA) (s : State) : Goes s (execRet w s) := goes_unit (safe_indirect _ _) s
theorem goes_execCallx (w : WA) (s : State) : Goes s (execCallx w s) := goes_unit (safe_indirect _ _) s
theorem goes_execCall (g : Guard) (link : Opnd) (ofs : Word) (s : State) : Goes s (execCall g link ofs s) := by
  have rules := @attempt_rules
  refine goes_unit (fun v => ?_) s
  grind -funext only [foldl_canonical, safe_clause, safe_checkTargets, advance_canonical, goAll_canonical, writeDst_canonical]
theorem goes_execMeet (g : Guard) (ofs : Word) (s : State) : Goes s (execMeet g ofs s) := by
  have rules := @attempt_rules
  refine goes_unit (fun v => ?_) s
  grind -funext only [foldl_canonical, safe_clause, safe_checkTargets, advance_canonical, modThread_canonical]
theorem safe_arithReport (v : View) (ls : List Nat) : Safe (arithReport v ls) := by
  have rules := @attempt_rules
  unfold arithReport
  grind -funext only [foldl_canonical, takeFault_canonical, post_canonical, modThread_canonical]
theorem goes_execExit (g : Guard) (s : State) : Goes s (execExit g s) := by
  have rules := @attempt_rules
  refine goes_unit (fun v => ?_) s
  grind -funext only [foldl_canonical, safe_arithReport, modThread_canonical, advance_canonical, afterExit_canonical]
theorem goes_execYield (g : Guard) (s : State) : Goes s (execYield g s) := by
  have rules := @attempt_rules
  refine goes_unit (fun v => ?_) s
  grind -funext only [safe_clause, safe_checkTargets, advance_canonical, goAll_canonical]
theorem goes_execNop (_g : Guard) (s : State) : Goes s (execNop _g s) := by
  have rules := @attempt_rules
  refine goes_unit (fun v => ?_) s
  grind -funext only [advance_canonical]
theorem goes_execHint (_n : BitVec 4) (_payload : BitVec 56) (s : State) : Goes s (execHint _n _payload s) := by
  have rules := @attempt_rules
  refine goes_unit (fun v => ?_) s
  grind -funext only [advance_canonical]

/-! ## Barriers and instructions of a group -/

section
variable {s : State} (hs : memCanonical s)
include hs
theorem uniformEnd_canonical (v : View) : memCanonical (s.uniformEnd v) := by
  unfold State.uniformEnd
  grind -funext only [advance_canonical, endRun_canonical]
theorem park_canonical (v : View) : memCanonical (s.park v) := by
  unfold State.park
  grind -funext only [foldl_canonical, leaveClause_canonical, modThread_canonical]
theorem waitAt_canonical (u : UnitRef) (st : UStat) : memCanonical (s.waitAt u st) := by
  unfold State.waitAt
  grind -funext only [modGrp_canonical, noteWait_canonical]
theorem cbarArrive_canonical (b : Block) (id cnt gi : Nat) : memCanonical (s.cbarArrive b id cnt gi) := by
  unfold State.cbarArrive
  grind -funext only [memCanonical]
end
theorem safe_done (v : View) : Safe (done v) := safe_modA fun _ hs => advance_canonical hs _ _
theorem safe_elected {g : Guard} {x : Uses} {ctl : List Nat} {body : List Nat → LaneIn → Act Unit} (hb : ∀ ls i, Safe (body ls i)) (v : View) : Safe (elected g x ctl body v) := by
  have rules := @attempt_rules
  refine safe_bind (safe_needA _ _) fun _ => ?_
  dsimp only
  split
  · exact safe_modA fun s hs => advance_canonical hs _ _
  · refine safe_get fun s hs => ?_
    split
    · exact safe_throw _
    · rename_i hr
      have hs' := readAll_canonical hs hr
      refine safe_bind (safe_needA _ _) fun _ => ?_
      grind -funext only [advance_canonical, retire_canonical, afterExit_canonical]
theorem safe_writeAll (v : View) (d : Dest) (ls : List Nat) (ws : List PWord) : Safe (writeAll v d ls ws) := by
  have rules := @attempt_rules
  unfold writeAll
  grind -funext only [foldl_canonical, writeDst_canonical, modThread_canonical]
theorem safe_predAll (v : View) (pd : PNum) (ls : List Nat) (b : Bool) : Safe (predAll v pd ls b) := by
  have rules := @attempt_rules
  unfold predAll
  grind -funext only [foldl_canonical, modThread_canonical]
theorem safe_released (v : View) (ls : List Nat) : Safe (released v ls) := by
  have rules := @attempt_rules
  unfold released
  grind -funext only
theorem safe_uniform {g : Guard} {legal : View → Bool} {body : Nat → Act Unit} (hb : ∀ l, Safe (body l)) (v : View) : Safe (uniform g legal body v) := by
  have rules := @attempt_rules
  unfold uniform
  grind -funext only [park_canonical, uniformEnd_canonical]
theorem goes_execBar (w : WI) (s : State) : Goes s (execBar w s) := by
  have rules := @attempt_rules
  refine goes_unit (fun v => ?_) s
  grind -funext only [safe_uniform, safe_released, safe_arithReport, modBlk_canonical, waitAt_canonical, uniformEnd_canonical]
theorem goes_execCbar (w : WI) (s : State) : Goes s (execCbar w s) := by
  have rules := @attempt_rules
  refine goes_unit (fun v => ?_) s
  grind -funext only [safe_uniform, safe_released, safe_arithReport, cbarArrive_canonical, cbarCheck_canonical, waitAt_canonical, uniformEnd_canonical]

/-! ## Queue ports, trays, tokens and variants -/

theorem tryPops_canonical {v : View} {q : Nat} {ret : Bool} : ∀ (ls : List Nat) {s t : State} {xs : List (Nat × PWord)}, memCanonical s →
    tryPops v q ret ls s = some (xs, t) → memCanonical t
  | [], _, _, _, hs, ht => by
    cases ht
    exact hs
  | l :: ls, s, t, xs, hs, ht => by
    unfold tryPops at ht
    have ih := @tryPops_canonical v q ret ls
    grind -funext only [Option.map_eq_some_iff, portDrop_canonical]
theorem safe_qtryPop (w : WA) (pd : PNum) (q : Nat) (v : View) : Safe (qtryPop w pd q v) := by
  have rules := @attempt_rules
  refine safe_bind (safe_needA _ _) fun _ => safe_get fun s hs => safe_bind (safe_needA _ _) fun _ => ?_
  split
  · rename_i ht
    have hs' := tryPops_canonical _ hs ht
    grind -funext only [foldl_canonical, writeDst_canonical, modThread_canonical, safe_predAll, safe_done]
  · grind -funext only [safe_predAll, safe_done]
theorem safe_qtryPush (w : WA) (pd : PNum) (q : Nat) (v : View) : Safe (qtryPush w pd q v) := by
  have rules := @attempt_rules
  refine safe_bind (safe_needA _ _) fun _ => safe_get fun s hs => ?_
  dsimp only
  split
  · exact safe_throw _
  · rename_i hr
    have hs' := readAll_canonical hs hr
    refine safe_bind (safe_needA _ _) fun _ => ?_
    grind -funext only [foldl_canonical, pushRing_canonical, modThread_canonical, safe_predAll, safe_done]
theorem goes_execQtry (w : WA) (pd : PNum) (s : State) : Goes s (execQtry w pd s) := by
  have rules := @attempt_rules
  refine goes_unit (fun v => ?_) s
  grind -funext only [safe_qtryPop, safe_qtryPush]
theorem goes_execQcfg (w : WI) (s : State) : Goes s (execQcfg w s) := by
  have rules := @attempt_rules
  refine goes_unit (fun v => ?_) s
  grind -funext only [safe_elected, modBlk_canonical, safe_done]
theorem goes_execQlen (w : WA) (s : State) : Goes s (execQlen w s) := by
  have rules := @attempt_rules
  refine goes_unit (fun v => ?_) s
  grind -funext only [safe_elected, safe_writeAll, safe_done]
theorem goes_execTrayw (w : WA) (s : State) : Goes s (execTrayw w s) := by
  have rules := @attempt_rules
  refine goes_unit (fun v => safe_elected (fun ls x => ?_) v) s
  grind -funext only [safe_released, modBlk_canonical, modThread_canonical, safe_done]
theorem goes_execPtok (w : WI) (s : State) : Goes s (execPtok w s) := by
  have rules := @attempt_rules
  refine goes_unit (fun v => ?_) s
  grind -funext only [safe_elected, modBlk_canonical, safe_done]
theorem goes_execSsel (w : WI) (s : State) : Goes s (execSsel w s) := by
  have rules := @attempt_rules
  refine goes_unit (fun v => safe_elected (fun ls x => ?_) v) s
  grind -funext only [safe_done, modGrid_canonical, safe_writeAll]

/-! ## Stage channels, range tasks and grid results -/

section
variable {s : State} (hs : memCanonical s)
include hs
theorem setChan_canonical (grid spatial stage : Nat) (up : Bool) (q : List PWord) : memCanonical (s.setChan grid spatial stage up q) := hs
theorem grtWrite_canonical (g : Grid) (idx w st : Nat) : memCanonical (s.grtWrite g idx w st) := by
  unfold State.grtWrite
  grind -funext only [devWrite_canonical]
theorem grtState_canonical (g : Grid) (idx st : Nat) : memCanonical (s.grtState g idx st) := by
  unfold State.grtState
  grind -funext only [devWrite_canonical]
theorem newRange_canonical (grid lo hi grain : Nat) : memCanonical (s.newRange grid lo hi grain) := by
  unfold State.newRange
  grind -funext only [grtWrite_canonical, modGrid_canonical]
end
theorem goes_execChsend (w : WA) (up : Bool) (s : State) : Goes s (execChsend w up s) := by
  have rules := @attempt_rules
  refine goes_unit (fun v => safe_get fun s hs => ?_) s
  dsimp only
  split
  · exact safe_throw _
  · refine safe_bind (safe_needA _ _) fun _ => safe_bind (safe_released _ _) fun _ => safe_get fun s hs => ?_
    split
    · exact safe_throw _
    · rename_i hr
      have hs' := readAll_canonical hs hr
      refine safe_bind (safe_needA _ _) fun _ => safe_bind (keeps_set ?_) fun _ => safe_done v
      grind -funext only [foldl_canonical, setChan_canonical, modThread_canonical]
theorem goes_execChrecv (w : WA) (up : Bool) (s : State) : Goes s (execChrecv w up s) := by
  have rules := @attempt_rules
  refine goes_unit (fun v => ?_) s
  grind -funext only [foldl_canonical, setChan_canonical, writeDst_canonical, modThread_canonical, safe_done]
theorem goes_execRtlaunch (w : WA) (s : State) : Goes s (execRtlaunch w s) := by
  have rules := @attempt_rules
  refine goes_unit (fun v => safe_elected (fun ls x => ?_) v) s
  grind -funext only [safe_done, newRange_canonical]
theorem goes_execRtclaim (w : WA) (pd : PNum) (s : State) : Goes s (execRtclaim w pd s) := by
  have rules := @attempt_rules
  refine goes_unit (fun v => safe_elected (fun ls x => safe_get fun s hs => ?_) v) s
  split
  · exact safe_throw _
  · refine safe_bind (safe_needA _ _) fun _ => ?_
    grind -funext only [safe_writeAll, modGrid_canonical, safe_predAll, safe_done]
theorem goes_execGsig (w : WA) (s : State) : Goes s (execGsig w s) := by
  have rules := @attempt_rules
  refine goes_unit (fun v => safe_elected (fun ls x => ?_) v) s
  grind -funext only [safe_released, grtWrite_canonical, modGrid_canonical, modThread_canonical, safe_done]
theorem goes_execGwait (w : WA) (s : State) : Goes s (execGwait w s) := by
  have rules := @attempt_rules
  refine goes_unit (fun v => safe_elected (fun ls x => ?_) v) s
  grind -funext only [safe_writeAll, safe_done]

end Sys2Proof.Machine
end

section
/-! SUPPORT. Memory stays canonical: accesses and the events that perform them. -/

namespace Sys2Proof.Machine

open Sys2Proof.Spec

/-! ## Accesses: queues, requests and what they leave -/

section
variable {s : State} (hs : memCanonical s)
include hs
theorem addUnp_canonical (u : UnitRef) (l id : Nat) : memCanonical (s.addUnp u l id) := hs
theorem bindsLeave_canonical : memCanonical s.bindsLeave := by
  unfold State.bindsLeave
  grind -funext only [foldl_canonical, memCanonical]
theorem dropUnp_canonical (u : UnitRef) (l id : Nat) : memCanonical (s.dropUnp u l id) := by
  unfold State.dropUnp
  grind -funext only [bindsLeave_canonical, modThread_canonical]
theorem enqueue_canonical (u : UnitRef) (l : Nat) (rel so : Bool) (op : Nat → SqOp) : memCanonical (s.enqueue u l rel so op) := by
  unfold State.enqueue
  grind -funext only [fresh_canonical, modThread_canonical, modGrp_canonical, addUnp_canonical]
theorem atomHolds_canonical (u : UnitRef) (l id : Nat) : memCanonical (s.atomHolds u l id) := hs
theorem acquire_canonical (u : UnitRef) (l id : Nat) : memCanonical (s.acquire u l id) := hs
theorem destFor_canonical (u : UnitRef) (l : Nat) (f : Opnd) (n sx : Nat) (av : Avail) : memCanonical (s.destFor u l f n sx av).2 := by
  unfold State.destFor
  grind -funext only [modThread_canonical, modBlk_canonical]
theorem writePlaces_canonical (blk q : Nat) (ps : List Nat) (ws : List PWord) : memCanonical (s.writePlaces blk q ps ws) := by
  unfold State.writePlaces
  grind -funext only [foldl_canonical, wr_canonical, markWord_canonical, modBlk_canonical]
theorem fillNow_canonical (u : UnitRef) (l : Nat) (d : Dst) (ws : List PWord) : memCanonical (s.fillNow u l d ws) := by
  unfold State.fillNow
  grind -funext only [modThread_canonical, writePlaces_canonical]
theorem deliverAt_canonical (u : UnitRef) (l : Nat) (f : Opnd) (ws : List PWord) (acq : Bool) : memCanonical (s.deliverAt u l f ws acq) := by
  unfold State.deliverAt
  grind -funext only [memCanonical, fresh_canonical, destFor_canonical, acquire_canonical, writeDst_canonical]
theorem atomAt_canonical (k w : Nat) (f : Nat → Nat) : memCanonical (s.atomAt k w f).2 := by
  unfold State.atomAt
  grind -funext only [wr_canonical]
theorem perform_canonical (o : OcOp) (sx : Nat) : memCanonical (OcOp.perform o sx s).2 := by
  unfold OcOp.perform
  grind -funext only [wr_canonical, atomAt_canonical]
end
theorem safe_memIssue {w : WM} {x : Uses} {legal all : Bool} {body : List LaneIn → Act Unit} (hb : ∀ ins, Safe (body ins)) (v : View) : Safe (memIssue w x legal all body v) :=
  keeps_memIssue (fun _ _ hs h => h.canonical hs) (fun _ _ => trivial) hb
theorem safe_checkLanes (as : List LaneAt) (ok : Nat → Bool) (code : Nat) : Safe (checkLanes as ok code) := by
  have rules := @attempt_rules
  unfold checkLanes
  grind -funext only
theorem safe_checkShared (v : View) (as : List LaneAt) (n : Nat) : Safe (checkShared v as n) := by
  have rules := @attempt_rules
  unfold checkShared
  grind -funext only [safe_checkLanes]
theorem safe_checkSpill (v : View) (as : List LaneAt) (n : Nat) : Safe (checkSpill v as n) := by
  have rules := @attempt_rules
  unfold checkSpill
  grind -funext only [safe_checkLanes]
theorem safe_translate (v : View) (as : List LaneAt) (n : Nat) (write : Bool) : Safe (translate v as n write) := by
  have rules := @attempt_rules
  unfold translate
  grind -funext only [safe_checkLanes]
theorem safe_presentAll (v : View) (as : List LaneAt) (n : Nat) : Safe (presentAll v as n) := by
  have rules := @attempt_rules
  unfold presentAll
  grind -funext only
theorem safe_portRoom (v : View) (f : Opnd) (ls : List Nat) (n : Nat) : Safe (portRoom v f ls n) := keeps_portRoom (fun _ _ => trivial) v f ls n

/-! ## Loads, stores, atomics, presence, fences and byte barriers -/

section
variable {s : State} (hs : memCanonical s)
include hs
theorem laneChain_canonical {ts : List (LaneAt × Leaf)} {f : State → LaneAt × Leaf → Option Nat → State} (hf : ∀ s t p, memCanonical s → memCanonical (f s t p)) :
    memCanonical (laneChain ts f s) :=
  List.foldlRecOn ts _ (motive := fun x : State × Option Nat => memCanonical x.1) hs fun x hx t _ => hf x.1 t _ hx
theorem dropStore_canonical (v : View) (l : Nat) : memCanonical (s.dropStore v l) := by
  unfold State.dropStore
  grind -funext only [bump_canonical, modThread_canonical]
theorem dropAtom_canonical (v : View) (l : Nat) (f : Opnd) (n : Nat) : memCanonical (s.dropAtom v l f n) := by
  unfold State.dropAtom
  grind -funext only [writeDst_canonical, dropStore_canonical]
theorem bbWrite_canonical (k : Nat) (b : ByteBar) : memCanonical (s.bbWrite k b) := by
  unfold State.bbWrite
  grind -funext only [wr_canonical]
end
theorem safe_loadNow {w : WM} {sx : Bool} {check : List LaneAt → Act Unit} {key : LaneAt → List (Nat × Nat)} (hc : ∀ as, Safe (check as)) (v : View) :
    Safe (loadNow w sx check key v) :=
  keeps_loadNow (fun _ _ hs h => h.canonical hs) (fun _ _ => trivial) hc fun _ u l f ws acq hs => deliverAt_canonical hs u l f ws acq
theorem goes_execLds (w : WM) (sx : Bool) (s : State) : Goes s (execLds w sx s) := by
  have rules := @attempt_rules
  refine goes_unit (fun v => ?_) s
  grind -funext only [safe_loadNow, safe_checkShared, safe_presentAll]
theorem goes_execLdk (w : WM) (sx : Bool) (s : State) : Goes s (execLdk w sx s) := by
  have rules := @attempt_rules
  refine goes_unit (fun v => ?_) s
  grind -funext only [safe_loadNow, safe_checkSpill]
theorem goes_execLdp (w : WM) (sx : Bool) (s : State) : Goes s (execLdp w sx s) := by
  refine goes_unit (fun v => safe_memIssue (fun ins => ?_) v) s
  refine safe_bind (safe_translate _ _ _ _) fun ts => safe_get fun s hs => safe_bind (safe_needA _ _) fun _ => safe_bind (safe_portRoom _ _ _ _) fun _ => ?_
  refine safe_bind (safe_modA fun s hs => laneChain_canonical hs fun s t p hs => ?_) fun _ => safe_done v
  have hd := destFor_canonical (fresh_canonical hs) v.u t.1.x.lane w.data (Width.words w.wid) (sxCode w sx) (if v.local t.2 then .inFlight else .empty)
  dsimp only
  grind -funext only [memCanonical, acquire_canonical, modThread_canonical, addUnp_canonical]
theorem safe_storeNow {w : WM} {check : List LaneAt → Act Unit} {op : LaneAt → List Byte → SqOp} (hc : ∀ as, Safe (check as)) (v : View) : Safe (storeNow w check op v) :=
  keeps_storeNow (fun _ _ hs h => h.canonical hs) (fun _ _ => trivial) hc (fun _ l hs => dropStore_canonical hs v l) fun _ u l rel so op hs => enqueue_canonical hs u l rel so op
theorem goes_execSts (w : WM) (s : State) : Goes s (execSts w s) := by
  have rules := @attempt_rules
  refine goes_unit (fun v => ?_) s
  grind -funext only [safe_storeNow, safe_checkShared, safe_presentAll]
theorem goes_execStk (w : WM) (s : State) : Goes s (execStk w s) := by
  have rules := @attempt_rules
  refine goes_unit (fun v => ?_) s
  grind -funext only [safe_storeNow, safe_checkSpill]
theorem goes_execStp (w : WM) (s : State) : Goes s (execStp w s) := by
  have rules := @attempt_rules
  refine goes_unit (fun v => ?_) s
  grind -funext only [safe_memIssue, safe_translate, laneChain_canonical, dropStore_canonical, enqueue_canonical, safe_done]
theorem safe_atomic (w : WM) (sp : ASpace) (nd nr : Nat) (op : Nat → LaneIn → OcOp) (v : View) : Safe (atomic w sp nd nr op v) := by
  unfold atomic
  refine safe_memIssue (fun ins => ?_) v
  cases sp with
  | shared =>
    refine safe_bind (safe_checkShared _ _ _) fun _ => safe_get fun s hs => safe_bind (safe_needA _ _) fun _ => safe_bind (safe_presentAll _ _ _) fun _ => ?_
    refine safe_bind (safe_modA fun s hs => foldl_canonical (fun s a hs => ?_) _ hs) fun _ => safe_done v
    grind -funext only [dropAtom_canonical, perform_canonical, writeDst_canonical]
  | scratch =>
    refine safe_bind (safe_translate _ _ _ _) fun ts => safe_bind (safe_needA _ _) fun _ => ?_
    refine safe_bind (safe_modA fun s hs => laneChain_canonical hs fun s t p hs => ?_) fun _ => safe_done v
    dsimp only
    grind -funext only [dropAtom_canonical, destFor_canonical, enqueue_canonical, acquire_canonical, atomHolds_canonical]
theorem goes_execAtom (w : WM) (sp : ASpace) (op : AtomOp) (s : State) : Goes s (execAtom w sp op s) := goes_unit (safe_atomic _ _ _ _ _) s
theorem goes_execAcas (w : WM) (sp : ASpace) (s : State) : Goes s (execAcas w sp s) := goes_unit (safe_atomic _ _ _ _ _) s
theorem goes_execFence (w : WM) (s : State) : Goes s (execFence w s) := by
  have rules := @attempt_rules
  refine goes_unit (fun v => ?_) s
  grind -funext only [foldl_canonical, safe_done, modThread_canonical]
theorem goes_execPresw (w : WM) (set : Bool) (s : State) : Goes s (execPresw w set s) := by
  have rules := @attempt_rules
  refine goes_unit (fun v => safe_memIssue (fun ins => ?_) v) s
  grind -funext only [foldl_canonical, safe_checkShared, enqueue_canonical, safe_done]
theorem goes_execPresq (w : WM) (s : State) : Goes s (execPresq w s) := by
  have rules := @attempt_rules
  refine goes_unit (fun v => safe_memIssue (fun ins => ?_) v) s
  grind -funext only [foldl_canonical, safe_checkShared, safe_portRoom, deliverAt_canonical, safe_done]
theorem safe_bbOp {w : WM} {x : Uses} {pre : LaneAt → Bool} {upd : Nat → LaneAt → State → Option State} (hu : ∀ k a s t, memCanonical s → upd k a s = some t → memCanonical t)
    (v : View) : Safe (bbOp w x pre upd v) := keeps_bbOp (fun _ _ hs h => h.canonical hs) (fun _ _ => trivial) hu
theorem goes_execBbinit (w : WM) (s : State) : Goes s (execBbinit w s) := by
  have rules := @attempt_rules
  refine goes_unit (fun v => ?_) s
  grind -funext only [safe_bbOp, bbWrite_canonical]
theorem goes_execBbexp (w : WM) (s : State) : Goes s (execBbexp w s) := by
  have rules := @attempt_rules
  refine goes_unit (fun v => ?_) s
  grind -funext only [safe_bbOp, uncorrAt_canonical, bbWrite_canonical]
theorem goes_execBbarv (w : WM) (s : State) : Goes s (execBbarv w s) := by
  have rules := @attempt_rules
  refine goes_unit (fun v => ?_) s
  grind -funext only [safe_bbOp, writeDst_canonical, uncorrAt_canonical, bbWrite_canonical]
theorem goes_execBbwait (w : WM) (s : State) : Goes s (execBbwait w s) := by
  have rules := @attempt_rules
  refine goes_unit (fun v => ?_) s
  grind -funext only [safe_bbOp, uncorrAt_canonical]
theorem safe_perSplit {w : WC} {x : Uses} {legal : Bool} {ctl : List Nat} {body : List Nat → LaneIn → Act Unit} (hb : ∀ ls i, Safe (body ls i)) (v : View) :
    Safe (perSplit w x legal ctl body v) := keeps_perSplit (fun _ _ hs h => h.canonical hs) (fun _ _ => trivial) hb
theorem goes_execTlread (w : WC) (s : State) : Goes s (execTlread w s) := by
  have rules := @attempt_rules
  refine goes_unit (fun v => safe_perSplit (fun ls x => ?_) v) s
  grind -funext only [safe_writeAll, safe_done]
theorem goes_execTlwait (w : WC) (s : State) : Goes s (execTlwait w s) := by
  have rules := @attempt_rules
  refine goes_unit (fun v => safe_perSplit (fun ls x => ?_) v) s
  grind -funext only [safe_done]

/-! ## Events of the memory machine -/

section
variable {s : State} (hs : memCanonical s)
include hs
theorem xsigAt_canonical (k : Nat) (add : Bool) (x : DWord) : memCanonical (s.xsigAt k add x) := by
  unfold State.xsigAt
  grind -funext only [wr_canonical]
theorem depart_canonical (u : UnitRef) (e : SqEnt) : memCanonical (s.depart u e) := by
  unfold State.depart
  grind -funext only [foldl_canonical, memCanonical, dropUnp_canonical, wr_canonical, modBlk_canonical, dropLink_canonical, xsigAt_canonical]
theorem ocLost_canonical (e : OcEnt) : memCanonical (s.ocLost e) := by
  unfold State.ocLost
  grind -funext only [memCanonical, dropLink_canonical]
end
theorem goes_execRegisterFill (id : Nat) (s : State) : Goes s (execRegisterFill id s) := by
  unfold execRegisterFill
  grind -funext only [memCanonical, goes_next, fillNow_canonical]
theorem goes_execSqDeparture (u : UnitRef) (s : State) : Goes s (execSqDeparture u s) := by
  unfold execSqDeparture
  grind -funext only [goes_next, depart_canonical, modGrp_canonical]
theorem goes_execOcDelivery (core slice : Nat) (s : State) : Goes s (execOcDelivery core slice s) := by
  unfold execOcDelivery
  grind -funext only [memCanonical, goes_next, dropUnp_canonical, ocLost_canonical, perform_canonical]
theorem goes_execTlbWalkComplete (tlb : TlbRef) (ctx : Nat) (va : VAddr) (s : State) : Goes s (execTlbWalkComplete tlb ctx va s) := by
  unfold execTlbWalkComplete
  grind -funext only [goes_next, modCore_canonical]

end Sys2Proof.Machine
end

section
/-! SUPPORT. Memory stays canonical: copies, the scheduler's events and blocks. -/

namespace Sys2Proof.Machine

open Sys2Proof.Spec

/-! ## What the engines share -/

section
variable {s : State} (hs : memCanonical s)
include hs
theorem engWrite_canonical (rs : List Run) (bs : List Byte) (ps : List Bool) : memCanonical (s.engWrite rs bs ps) := engWrite_wf rs bs ps hs
theorem engWriteMany_canonical (ps : List (Run × List Byte × List Bool)) : memCanonical (s.engWriteMany ps) := by
  unfold State.engWriteMany
  grind -funext only [foldl_canonical, wrPsnMany_canonical, dropLink_canonical]
theorem bbCredit_canonical (b : Block) (o n : Nat) : memCanonical (s.bbCredit b o n).2 := by
  unfold State.bbCredit
  grind -funext only [uncorrAt_canonical, bbWrite_canonical]
end
theorem safe_fenced (v : View) (ls : List Nat) : Safe (fenced v ls) := by
  have rules := @attempt_rules
  unfold fenced
  grind -funext only
theorem safe_engBlock (blk : Nat) : Safe (engBlock blk) := by
  have rules := @attempt_rules
  unfold engBlock
  grind -funext only
theorem safe_postEng (b : Block) (r : FRec) (a : Answer) : Safe (postEng b r a) := by
  have rules := @attempt_rules
  unfold postEng
  grind -funext only [post_canonical]

/-! ## Copies -/

section
variable {s : State} (hs : memCanonical s)
include hs
theorem askPages_canonical (tgt : JobTgt) (ps : List Nat) : memCanonical (s.askPages tgt ps) := by
  unfold State.askPages
  grind -funext only [foldl_canonical, memCanonical]
theorem modOp_canonical (blk ctx no : Nat) (f : CopyOp → CopyOp) : memCanonical (modOp blk ctx no f s) := hs
theorem landEmpty_canonical (b : Block) (ctx no : Nat) (o : CopyOp) (line : Nat) : memCanonical (landEmpty b ctx no o line s) := by
  unfold landEmpty
  grind -funext only [modBlk_canonical, bbCredit_canonical, post_canonical]
theorem abandonCopy_canonical (b : Block) (ctx : Nat) (o : CopyOp) : memCanonical (s.abandonCopy b ctx o) := by
  unfold State.abandonCopy
  grind -funext only [foldl_canonical, landEmpty_canonical, modOp_canonical, bump_canonical]
theorem placePiece_canonical (b : Block) (o : CopyOp) (p : CopyPiece) (d : List Byte × List Bool) : memCanonical (s.placePiece b o p d) := by
  unfold State.placePiece
  grind -funext only [wrPsn_canonical, engWriteMany_canonical]
end
theorem goes_execTrec (w : WC) (s : State) : Goes s (execTrec w s) := by
  have rules := @attempt_rules
  refine goes_unit (fun v => safe_perSplit (fun ls x => safe_bind (safe_fenced _ _) fun _ => safe_bind (safe_needA _ _) fun _ => safe_get fun s hs => ?_) v) s
  split
  · exact safe_throw _
  · refine safe_bind (safe_needA _ _) fun _ => ?_
    grind -funext only [modBlk_canonical, uncorrAt_canonical, safe_done]
theorem safe_copyIssue (kind : CpyKind) (w : WC) (src : CSrc) (v : View) : Safe (copyIssue kind w src v) := by
  have rules := @attempt_rules
  unfold copyIssue
  refine safe_perSplit (fun ls x => safe_get fun s hs => safe_bind (safe_needA _ _) fun _ => ?_) v
  -- the rest of the attempt from its end on: the copy is accepted, its coordinates are read, its place is checked
  extract_lets r d bad0 nb nw bb accept o coords place
  have haccept (cw : List PWord) : Safe (accept cw) := by
    refine safe_bind (safe_needA _ _) fun _ => safe_someA fun c _ => safe_bind (safe_needA _ _) fun _ => ?_
    grind -funext only [modBlk_canonical, safe_writeAll, safe_done]
  have hcoords (y : Unit) : Safe (coords y) := by
    clear_value accept
    grind -funext only
  have hplace (y : Unit) : Safe (place y) := by
    clear_value coords
    grind -funext only
  clear_value place
  grind -funext only
theorem goes_execCpy (w : WC) (src : CSrc) (s : State) : Goes s (execCpy w src s) := goes_unit (safe_copyIssue _ _ _) s
theorem goes_execCpys (w : WC) (src : CSrc) (s : State) : Goes s (execCpys w src s) := goes_unit (safe_copyIssue _ _ _) s
theorem goes_execCpyg (w : WC) (src : CSrc) (s : State) : Goes s (execCpyg w src s) := goes_unit (safe_copyIssue _ _ _) s
theorem goes_execCpyc (w : WC) (src : CSrc) (s : State) : Goes s (execCpyc w src s) := goes_unit (safe_copyIssue _ _ _) s
theorem safe_walkTile (b : Block) (ctx : Nat) (c : CopyCtx) (o : CopyOp) : Safe (walkTile b ctx c o) := by
  have hstop (slot : Nat) (x : XErr) : Safe (postEng b (mkEngRec b 3 x.code ctx o.no o.walked x.va (slot + 256 * o.walked)) (.eop b.uid (.copy ctx) o.no) >>= fun _ =>
      modA (modOp b.uid ctx o.no fun o => { o with fault := .posted x.code x.va })) :=
    safe_bind (safe_postEng _ _ _) fun _ => safe_modA fun s hs => modOp_canonical hs _ _ _ _
  refine safe_get fun s hs => safe_bind (safe_needA _ _) fun _ => safe_bind (safe_needA _ _) fun _ => safe_bind (safe_needA _ _) fun _ => ?_
  dsimp only
  split
  · exact hstop _ _
  · exact hstop _ _
  · exact safe_modA fun s hs => modOp_canonical (askPages_canonical hs _ _) _ _ _ _
theorem safe_readPiece (b : Block) (ctx : Nat) (o : CopyOp) (p : CopyPiece) : Safe (readPiece b ctx o p) := by
  have rules := @attempt_rules
  unfold readPiece
  grind -funext only [bump_canonical, modOp_canonical]
theorem safe_writePiece (b : Block) (ctx : Nat) (o : CopyOp) (p : CopyPiece) : Safe (writePiece b ctx o p) := by
  have rules := @attempt_rules
  unfold writePiece
  grind -funext only [placePiece_canonical, modOp_canonical]
theorem safe_movePiece (b : Block) (ctx : Nat) (o : CopyOp) (line : Nat) : Safe (movePiece b ctx o line) := by
  have rules := @attempt_rules
  unfold movePiece
  grind -funext only [safe_writePiece, safe_readPiece]
theorem goes_execCopyTile (blk ctx : Nat) (st : EngStep) (s : State) : Goes s (execCopyTile blk ctx st s) := by
  have rules := @attempt_rules
  refine goes_event ?_ s
  grind -funext only [safe_engBlock, abandonCopy_canonical, safe_walkTile, safe_movePiece]
theorem goes_execCopyLineLanding (blk ctx no line : Nat) (s : State) : Goes s (execCopyLineLanding blk ctx no line s) := by
  have rules := @attempt_rules
  refine goes_event (safe_bind (safe_engBlock _) fun b => safe_someA fun c _ => safe_someA fun o _ => safe_bind (safe_needA _ _) fun _ => safe_someA fun h _ => ?_) s
  refine safe_bind (safe_modA fun s hs => modOp_canonical (modBlk_canonical (wrPsn_canonical hs _ _ _) _ _) _ _ _ _) fun _ => ?_
  grind -funext only [bbCredit_canonical, safe_postEng]

/-! ## The scheduler's events -/

section
variable {s : State} (hs : memCanonical s)
include hs
theorem meetAll_canonical (core sched : Nat) : memCanonical (s.meetAll core sched) := by
  unfold State.meetAll
  grind -funext only [foldl_canonical, leaveNow_canonical, modGrp_canonical]
theorem debugPend_canonical (u : UnitRef) : memCanonical (s.debugPend u) := by
  unfold State.debugPend
  grind -funext only [leave_canonical]
end
theorem goes_execFairnessTimerExpiry (blk g : Nat) (s : State) : Goes s (execFairnessTimerExpiry blk g s) := by
  unfold execFairnessTimerExpiry
  grind -funext only [goes_next, modGrp_canonical]
theorem goes_execAgeingPromotion (blk g : Nat) (s : State) : Goes s (execAgeingPromotion blk g s) := by
  have rules := @attempt_rules
  refine goes_event ?_ s
  grind -funext only [memCanonical, modGrp_canonical]
theorem goes_execClauseBreak (u : UnitRef) (s : State) : Goes s (execClauseBreak u s) := by
  unfold execClauseBreak
  grind -funext only [goes_next, breakClause_canonical]
theorem goes_execMeetingRelease (blk g : Nat) (addr : VAddr) (s : State) : Goes s (execMeetingRelease blk g addr s) := by
  unfold execMeetingRelease
  grind -funext only [goes_next, modGrp_canonical]
theorem goes_execBreakpointTrigger (u : UnitRef) (s : State) : Goes s (execBreakpointTrigger u s) := by
  unfold execBreakpointTrigger
  grind -funext only [goes_next, leave_canonical]
theorem goes_execDebugGroupHalt (blk g : Nat) (s : State) : Goes s (execDebugGroupHalt blk g s) := by
  unfold execDebugGroupHalt
  grind -funext only [memCanonical, goes_next, debugPend_canonical, modGrp_canonical]

/-! ## The image of a context -/

section
variable {s : State} (hs : memCanonical s)
include hs
theorem writeImage_canonical (ctx via image : Nat) (g : Grid) : memCanonical (s.writeImage ctx via image g) := by
  unfold State.writeImage
  grind -funext only [foldl_canonical, devWrite_canonical]
end

/-! ## Blocks: admission, end, bench and return -/

section
variable {s : State} (hs : memCanonical s)
include hs
theorem evict_canonical (u : UnitRef) : memCanonical (s.evict u) := by
  unfold State.evict
  grind -funext only [bump_canonical, modBlk_canonical, modGrp_canonical, devWrite_canonical]
theorem makeRoom_canonical (core ctx : Nat) (n : Need) {t : State} (ht : s.makeRoom core ctx n = some t) : memCanonical t := by
  obtain ⟨k, -, rfl⟩ := Option.map_eq_some_iff.mp ht
  exact foldl_canonical (fun s u hs => evict_canonical hs u) _ hs
theorem admitBlk_canonical (g : Grid) (core : Nat) (i : BlkId) (places : List (Nat × Nat)) (fe : Nat) : memCanonical (s.admitBlk g core i places fe) := hs
theorem placeFor_canonical (ctx : Nat) (cores : List Nat) (n : Need) {t : State} {y : Nat × List (Nat × Nat) × Nat} (ht : s.placeFor ctx cores n = some (t, y)) :
    memCanonical t := by
  rw [State.placeFor, Option.orElse_eq_or] at ht
  rcases Option.or_eq_some_iff.mp ht with h | ⟨-, h⟩
  · obtain ⟨c, -, hc⟩ := List.exists_of_findSome?_eq_some h
    obtain ⟨p, -, hp⟩ := Option.map_eq_some_iff.mp hc
    cases hp
    exact hs
  · obtain ⟨c, -, hc⟩ := List.exists_of_findSome?_eq_some h
    obtain ⟨r, hr, hc⟩ := Option.bind_eq_some_iff.mp hc
    obtain ⟨p, -, hp⟩ := Option.map_eq_some_iff.mp hc
    cases hp
    exact makeRoom_canonical hs _ _ _ hr
theorem admitOn_canonical (g : Grid) (cores : List Nat) (i : BlkId) {t : State} (ht : s.admitOn g cores i = some t) : memCanonical t := by
  obtain ⟨x, hx, rfl⟩ := Option.map_eq_some_iff.mp ht
  exact admitBlk_canonical (placeFor_canonical hs _ _ _ hx) _ _ _ _ _
theorem createPage_canonical (g : Grid) (p : PgShelf) (st : Nat) : memCanonical (s.createPage g p st) := hs
theorem dropBlockMem_canonical (b : Block) : memCanonical (s.dropBlockMem b) := by
  unfold State.dropBlockMem
  grind -funext only [foldl_canonical, dropRegion_canonical]
theorem takeBlockMem_canonical (b : Block) : memCanonical (s.takeBlockMem b) := by
  unfold State.takeBlockMem
  grind -funext only [foldl_canonical, takeRegion_canonical]
theorem returnBlock_canonical (b : Block) (core fe : Nat) (ps : List (Nat × Nat)) (bs : List Byte) : memCanonical (s.returnBlock b core fe ps bs) := by
  unfold State.returnBlock
  dsimp only
  refine List.foldlRecOn b.groups.zipIdx _ (motive := fun x : List Grp × State × List (Nat × Nat) => memCanonical x.2.1) ?_ fun x hx y _ => ?_
  · grind -funext only [putBytes_canonical]
  · grind -funext only [putBytes_canonical]
end
theorem admitAll_canonical {g : Grid} {cores : List Nat} : ∀ (ids : List BlkId) {s t : State}, memCanonical s → s.admitAll g cores ids = some t → memCanonical t
  | [], _, _, hs, ht => by
    cases ht
    exact hs
  | _ :: ids, _, _, hs, ht => by
    obtain ⟨r, hr, ht⟩ := Option.bind_eq_some_iff.mp ht
    exact admitAll_canonical ids (admitOn_canonical hs _ _ _ hr) ht
theorem goes_execBlockAdmission (grid : Nat) (s : State) : Goes s (execBlockAdmission grid s) := by
  refine goes_event (safe_get fun s hs => safe_someA fun g _ => safe_bind (safe_needA _ _) fun _ => ?_) s
  split
  · exact safe_someA fun p _ => keeps_set (createPage_canonical hs _ _ _)
  · refine safe_bind (safe_needA _ _) fun _ => safe_someA fun t ht => keeps_set ?_
    exact modGrid_canonical (admitAll_canonical _ hs ht) _ _
  · refine safe_someA fun r _ => safe_someA fun t ht => keeps_set ?_
    exact modGrid_canonical (admitAll_canonical _ hs ht) _ _
theorem goes_execBlockEnd (blk : Nat) (s : State) : Goes s (execBlockEnd blk s) := by
  refine goes_event (safe_get fun s hs => safe_someA fun b _ => safe_someA fun g _ => safe_bind (safe_needA _ _) fun _ => keeps_set ?_) s
  grind -funext only [memCanonical, grtState_canonical, dropBlockMem_canonical, modGrid_canonical, cbarsCheck_canonical]
theorem safe_admitRange (grid core idx : Nat) : Safe (admitRange grid core idx) :=
  safe_get fun _ hs => safe_someA fun _ _ => safe_someA fun _ ht => keeps_set (modGrid_canonical (admitAll_canonical _ hs ht) _ _)
theorem goes_execIdleRequest (grid core : Nat) (s : State) : Goes s (execIdleRequest grid core s) := by
  have rules := @attempt_rules
  refine goes_event ?_ s
  grind -funext only [modGrid_canonical, newRange_canonical, safe_admitRange]
theorem goes_execGwaitBenchDelayExpiry (blk : Nat) (s : State) : Goes s (execGwaitBenchDelayExpiry blk s) := by
  refine goes_event (safe_get fun s hs => safe_someA fun b _ => safe_someA fun g _ => safe_bind (safe_needA _ _) fun _ => ?_) s
  split
  · exact safe_throw _
  · exact safe_someA fun p _ => keeps_set hs
  · split
    · exact keeps_set hs
    · refine safe_bind (safe_needA _ _) fun _ => ?_
      split
      · exact keeps_set hs
      · rename_i hb
        have hs' := benchAlloc_canonical hs _ _ hb
        refine keeps_set (modGrid_canonical (modBlk_canonical (takeBlockMem_canonical (modCore_canonical (bump_canonical (devWrite_canonical hs' _ _ _) _ _ _) _ _) _) _ _) _ _)
theorem goes_execBlockReturn (blk : Nat) (s : State) : Goes s (execBlockReturn blk s) := by
  refine goes_event (safe_get fun s hs => safe_someA fun b _ => safe_someA fun g _ => safe_bind (safe_needA _ _) fun _ => ?_) s
  split
  · refine safe_bind (safe_needA _ _) fun _ => safe_someA fun p hp => safe_someA fun bs _ => keeps_set ?_
    exact benchFree_canonical (returnBlock_canonical (placeFor_canonical hs _ _ _ hp) _ _ _ _ _) _ _
  · exact safe_throw _
theorem goes_execGwaitLimitExpiry (u : UnitRef) (s : State) : Goes s (execGwaitLimitExpiry u s) := by
  have rules := @attempt_rules
  refine goes_event ?_ s
  grind -funext only [takeFault_canonical]
theorem goes_execHoldLimitExpiry (u : UnitRef) (s : State) : Goes s (execHoldLimitExpiry u s) := by
  have rules := @attempt_rules
  refine goes_event ?_ s
  grind -funext only [bump_canonical, post_canonical, modGrp_canonical]
theorem goes_execGroupReturn (blk gi : Nat) (s : State) : Goes s (execGroupReturn blk gi s) := by
  refine goes_event (safe_get fun s hs => safe_someA fun b _ => safe_someA fun g _ => safe_bind (safe_needA _ _) fun _ => safe_bind (safe_needA _ _) fun _ => ?_) s
  split
  · refine safe_someA fun p _ => safe_bind (safe_needA _ _) fun _ => safe_someA fun bs _ => keeps_set ?_
    grind -funext only [memCanonical, wr_canonical, modGrp_canonical, benchFree_canonical]
  · exact keeps_set hs

end Sys2Proof.Machine
end

section
/-! SUPPORT. Memory stays canonical: the page engine, the matrix engine and handles. -/

namespace Sys2Proof.Machine

open Sys2Proof.Spec

/-! ## The page engine -/

section
variable {s : State} (hs : memCanonical s)
include hs
theorem pgBump_canonical (ctx i : Nat) : memCanonical (s.pgBump ctx i) := hs
theorem pageStatus_canonical (g : Grid) (i st : Nat) : memCanonical (s.pageStatus g i st) := by
  unfold State.pageStatus
  grind -funext only [devWrite_canonical]
theorem pageLost_canonical (g : Grid) (i core chan retry badrec : Nat) : memCanonical (s.pageLost g i core chan retry badrec) := by
  unfold State.pageLost
  grind -funext only [pageStatus_canonical, pgBump_canonical, raiseHalt_canonical, modGrid_canonical, grtState_canonical]
theorem dropJob_canonical (no : Nat) : memCanonical (s.dropJob no) := hs
theorem setJob_canonical (j : PageJob) : memCanonical (s.setJob j) := hs
theorem landLine_canonical (j : PageJob) (g : Grid) (i line : Nat) {t : State} (ht : s.landLine j g i line = some t) : memCanonical t := by
  obtain ⟨p, -, ht⟩ := Option.bind_eq_some_iff.mp ht
  obtain ⟨l, -, rfl⟩ := Option.map_eq_some_iff.mp ht
  grind -funext only [wrPsn_canonical, setJob_canonical, modGrid_canonical, dropJob_canonical, pageStatus_canonical]
theorem modPage_canonical (blk : Nat) (f : PCtx → PCtx) : memCanonical (modPage blk f s) := hs
theorem modLayer_canonical (blk no : Nat) (f : Layer → Layer) : memCanonical (modLayer blk no f s) := hs
theorem layerNext_canonical (blk no : Nat) : memCanonical (layerNext blk no s) := hs
end
theorem goes_execShelfReservation (grid : Nat) (s : State) : Goes s (execShelfReservation grid s) := by
  have rules := @attempt_rules
  refine goes_event (safe_get fun s hs => safe_someA fun g _ => safe_bind (safe_needA _ _) fun _ => safe_someA fun i _ => safe_someA fun p hp => ?_) s
  have hs' := placeFor_canonical hs _ _ _ hp
  grind -funext only [memCanonical, modGrid_canonical, pageLost_canonical]
theorem goes_execWstreamStart (w : WC) (s : State) : Goes s (execWstreamStart w s) := by
  have rules := @attempt_rules
  refine goes_unit (fun v => safe_perSplit (fun ls x => safe_bind (safe_fenced _ _) fun _ => safe_bind (safe_needA _ _) fun _ => safe_get fun s hs => ?_) v) s
  split
  · exact safe_needA _ _
  · refine safe_bind (safe_needA _ _) fun _ => ?_
    grind -funext only [modPage_canonical, safe_writeAll, safe_done]
theorem goes_execWstreamRel (w : WC) (s : State) : Goes s (execWstreamRel w s) := by
  have rules := @attempt_rules
  refine goes_unit (fun v => safe_perSplit (fun ls x => ?_) v) s
  grind -funext only [safe_fenced, modPage_canonical, safe_done]
theorem goes_execWstreamStop (w : WC) (s : State) : Goes s (execWstreamStop w s) := by
  have rules := @attempt_rules
  refine goes_unit (fun v => safe_perSplit (fun ls x => ?_) v) s
  grind -funext only [safe_fenced, modPage_canonical, safe_done]
theorem safe_layerFault (b : Block) (l : Layer) (x : XErr) : Safe (layerFault b l x) := by
  have rules := @attempt_rules
  unfold layerFault
  grind -funext only [safe_postEng, modLayer_canonical]
theorem safe_askLayer (b : Block) (l : Layer) : Safe (askLayer b l) := by
  have rules := @attempt_rules
  unfold askLayer
  grind -funext only [safe_layerFault, modLayer_canonical, askPages_canonical]
theorem goes_execWstreamLayerStart (blk : Nat) (s : State) : Goes s (execWstreamLayerStart blk s) := by
  have rules := @attempt_rules
  refine goes_event ?_ s
  grind -funext only [safe_engBlock, safe_askLayer, modPage_canonical]
theorem safe_layerLine (j : PageJob) (blk no line : Nat) : Safe (layerLine j blk no line) := by
  have rules := @attempt_rules
  refine safe_get fun s hs => safe_someA fun b _ => safe_someA fun l _ => safe_someA fun h _ => ?_
  split
  · exact keeps_set (dropJob_canonical hs _)
  · split
    · exact safe_bind (safe_layerFault _ _ _) fun _ => safe_modA fun s hs => dropJob_canonical hs _
    · refine safe_bind (safe_needA _ _) fun _ => keeps_set ?_
      grind -funext only [engWrite_canonical, setJob_canonical, dropJob_canonical, layerNext_canonical]
theorem safe_jobGood (j : PageJob) (d : List Byte × List Bool) (cbits back recon : Nat) : Safe (jobGood j d cbits back recon) := by
  have rules := @attempt_rules
  unfold jobGood
  grind -funext only [setJob_canonical, modOp_canonical, dropJob_canonical]
theorem safe_jobLost (j : PageJob) : Safe (jobLost j) := by
  have rules := @attempt_rules
  unfold jobLost
  grind -funext only [dropJob_canonical, pageLost_canonical, modOp_canonical, setJob_canonical, pgBump_canonical]
theorem safe_afterRecon (j : PageJob) : Safe (afterRecon j) := by
  have rules := @attempt_rules
  unfold afterRecon
  grind -funext only [safe_jobLost, setJob_canonical]
theorem goes_execPageSenseDone (sense : Nat) (res : Decoded) (s : State) : Goes s (execPageSenseDone sense res s) := by
  have rules := @attempt_rules
  refine goes_event (safe_get fun s hs => safe_someA fun j _ => safe_bind (safe_needA _ _) fun _ => ?_) s
  split
  · exact safe_throw _
  · split
    · exact safe_someA fun g _ => safe_someA fun t ht => keeps_set (landLine_canonical hs _ _ _ _ ht)
    · exact safe_layerLine _ _ _ _
    · exact safe_throw _
  · grind -funext only [pgBump_canonical, setJob_canonical, safe_jobGood]
  · split
    · exact safe_throw _
    · grind -funext only [pgBump_canonical, setJob_canonical, safe_jobGood, safe_afterRecon]
theorem goes_execPageBackingFetchDone (sense : Nat) (s : State) : Goes s (execPageBackingFetchDone sense s) := by
  have rules := @attempt_rules
  refine goes_event (safe_get fun s hs => safe_someA fun j _ => safe_bind (safe_needA _ _) fun _ => ?_) s
  dsimp only
  split
  · split
    · refine safe_someA fun b _ => safe_someA fun l _ => safe_bind (safe_layerFault _ _ _) fun _ => ?_
      exact safe_modA fun s hs => dropJob_canonical (pgBump_canonical hs _ _) _
    · exact safe_bind (keeps_set (pgBump_canonical hs _ _)) fun _ => safe_jobLost _
  · refine safe_bind (safe_needA _ _) fun _ => safe_bind (keeps_set (pgBump_canonical hs _ _)) fun _ => ?_
    grind -funext only [safe_jobLost, safe_jobGood]

/-! ## The matrix engine -/

section
variable {s : State} (hs : memCanonical s)
include hs
theorem setAccRow_canonical (core r : Nat) (ws : List PWord) : memCanonical (s.setAccRow core r ws) := by
  unfold State.setAccRow
  grind -funext only [foldl_canonical, markWord_canonical, wr_canonical]
theorem mStatus_canonical (blk : Nat) (f : Flg) : memCanonical (s.mStatus blk f) := hs
theorem modM_canonical (blk no : Nat) (f : MOp → MOp) : memCanonical (modM blk no f s) := hs
theorem abandonM_canonical (b : Block) (o : MOp) : memCanonical (s.abandonM b o) := by
  unfold State.abandonM
  grind -funext only [foldl_canonical, bump_canonical, modM_canonical, modBlk_canonical]
theorem loadNext_canonical (core : Nat) (b : Block) (step k : Nat) (d : WDesc) (cur : Latch) : memCanonical (s.loadNext core b step k d cur) := hs
theorem kStep_canonical (core : Nat) (b : Block) (o : MOp) (row m k : Nat) (z : Bool) (aofs astride scb afmt kofs : Nat) (d : WDesc) : memCanonical (s.kStep core b o row m k z aofs astride scb afmt kofs d) := by
  unfold State.kStep
  grind -funext only [foldl_canonical, loadNext_canonical, mStatus_canonical, setAccRow_canonical, modM_canonical]
theorem landFrags_canonical (blk line : Nat) (fs : List Frag) : memCanonical (s.landFrags blk line fs) := by
  unfold State.landFrags
  grind -funext only [modBlk_canonical, wrPsnMany_canonical]
theorem markDrained_canonical (blk : Nat) (fs : List Frag) : memCanonical (s.markDrained blk fs) := by
  unfold State.markDrained
  grind -funext only [foldl_canonical, markGran_canonical]
end
theorem safe_engIssue {w : WE} {x : Uses} {slot : Bool} {body : List Nat → LaneIn → Act Unit} (hb : ∀ ls i, Safe (body ls i)) (v : View) : Safe (engIssue w x slot body v) := by
  have rules := @attempt_rules
  refine safe_uniform (fun l => safe_bind (safe_needA _ _) fun _ => safe_get fun s hs => ?_) v
  split
  · exact safe_throw _
  · rename_i hr
    have hs' := readAll_canonical hs hr
    refine safe_bind (safe_needA _ _) fun _ => safe_bind (keeps_set hs') fun _ => ?_
    grind -funext only [modBlk_canonical, retire_canonical, afterExit_canonical, uniformEnd_canonical]
theorem safe_uDone (v : View) : Safe (uDone v) := by
  have rules := @attempt_rules
  unfold uDone
  grind -funext only [uniformEnd_canonical, modBlk_canonical]
theorem safe_inOrder {α : Type} {attn : Bool} {slot : Option Nat} {a : Act α} (h : Safe a) : Safe (inOrder attn slot a) := by
  intro s hs
  have := h s hs
  unfold inOrder
  split
  · trivial
  · exact this
theorem safe_acceptM (v : View) (w : WE) (ls : List Nat) (kind : MKind) (f : Block → Block) : Safe (acceptM v w ls kind f) := by
  have rules := @attempt_rules
  unfold acceptM
  grind -funext only [modBlk_canonical, modCore_canonical, safe_uDone]
theorem safe_badDesc (b : Bool) (l : Nat) : Safe (badDesc b l) := by
  have rules := @attempt_rules
  unfold badDesc
  grind -funext only
theorem safe_badAlign (xs : List Nat) (k l : Nat) : Safe (badAlign xs k l) := by
  have rules := @attempt_rules
  unfold badAlign
  grind -funext only
theorem safe_badRange (b : Bool) (a l : Nat) : Safe (badRange b a l) := by
  have rules := @attempt_rules
  unfold badRange
  grind -funext only
theorem goes_execMwld (w : WE) (s : State) : Goes s (execMwld w s) := by
  have rules := @attempt_rules
  refine goes_unit (fun v => safe_engIssue (fun ls x => ?_) v) s
  grind -funext only [safe_badDesc, safe_badAlign, safe_badRange, safe_acceptM]
theorem goes_execMloop (w : WE) (s : State) : Goes s (execMloop w s) := by
  have rules := @attempt_rules
  refine goes_unit (fun v => safe_engIssue (fun ls x => safe_bind (safe_badDesc _ _) fun _ => ?_) v) s
  split
  · exact safe_throw _
  · refine safe_bind (safe_needA _ _) fun _ => safe_bind (safe_badAlign _ _ _) fun _ => safe_bind (safe_badRange _ _ _) fun _ => ?_
    grind -funext only [safe_badRange, safe_acceptM]
theorem goes_execMrowsc (w : WE) (s : State) : Goes s (execMrowsc w s) := by
  have rules := @attempt_rules
  refine goes_unit (fun v => safe_engIssue (fun ls x => ?_) v) s
  grind -funext only [safe_badAlign, safe_badRange, safe_acceptM]
theorem goes_execMdrain (w : WE) (s : State) : Goes s (execMdrain w s) := by
  have rules := @attempt_rules
  refine goes_unit (fun v => safe_engIssue (fun ls x => ?_) v) s
  grind -funext only [foldl_canonical, safe_badDesc, safe_badAlign, safe_badRange, safe_acceptM]
theorem goes_execMzero (w : WE) (s : State) : Goes s (execMzero w s) := by
  have rules := @attempt_rules
  refine goes_unit (fun v => safe_engIssue (fun ls x => ?_) v) s
  grind -funext only [safe_badRange, safe_acceptM]
theorem goes_execMstat (w : WE) (clr : Bool) (s : State) : Goes s (execMstat w clr s) := by
  have rules := @attempt_rules
  refine goes_unit (fun v => safe_engIssue (fun ls x => ?_) v) s
  grind -funext only [safe_inOrder, safe_writeAll, safe_uDone, modBlk_canonical]
theorem safe_readLine (b : Block) (o : MOp) : Safe (readLine b o) := by
  have rules := @attempt_rules
  unfold readLine
  grind -funext only [modM_canonical]
theorem goes_execMatrixOperationBegin (core : Nat) (drain : Bool) (s : State) : Goes s (execMatrixOperationBegin core drain s) := by
  have rules := @attempt_rules
  refine goes_event ?_ s
  grind -funext only [foldl_canonical, modM_canonical, abandonM_canonical, safe_readLine, modCore_canonical, mStatus_canonical, setAccRow_canonical]
theorem goes_execMatrixKstep (core : Nat) (s : State) : Goes s (execMatrixKstep core s) := by
  have rules := @attempt_rules
  refine goes_event ?_ s
  grind -funext only [abandonM_canonical, safe_readLine, kStep_canonical]
theorem goes_execMdrainLineLanding (blk no line : Nat) (s : State) : Goes s (execMdrainLineLanding blk no line s) := by
  have rules := @attempt_rules
  refine goes_event ?_ s
  grind -funext only [safe_engBlock, abandonM_canonical, markDrained_canonical, landFrags_canonical, modM_canonical]

/-! ## Handles and their messages -/

section
variable {s : State} (hs : memCanonical s)
include hs
theorem setHome_canonical (k : HomeAt) (h : Home) : memCanonical (s.setHome k h) := by
  unfold State.setHome
  grind -funext only [wrMany_canonical]
theorem enqueueDrop_canonical (u : UnitRef) (l : Nat) (m : HMsg) : memCanonical (s.enqueueDrop u l m) := hs
theorem sendBind_canonical (v : View) (ls : List Nat) (m : HMsg) : memCanonical (s.sendBind v ls m) := by
  unfold State.sendBind
  grind -funext only [memCanonical, fresh_canonical, bindsLeave_canonical]
theorem handled_canonical (op : Option (Nat × Nat)) : memCanonical (s.handled op) := by
  unfold State.handled
  grind -funext only [modBlk_canonical]
theorem sendDrop_canonical (core ctx : Nat) (h : Handle) : memCanonical (s.sendDrop core ctx h) := hs
theorem death_canonical (ctx home idx : Nat) (k : HomeAt) (x : Home) : memCanonical (s.death ctx home idx k x) := by
  unfold State.death
  grind -funext only [sendDrop_canonical, modCtx_canonical, setHome_canonical]
theorem countHome_canonical (m : HMsg) (ix : Nat) : memCanonical (s.countHome m ix) := by
  unfold State.countHome
  grind -funext only [memCanonical, bump_canonical]
theorem dropAt_canonical (m : HMsg) (gen : BitVec 8) (e : Nat) : memCanonical (s.dropAt m gen e) := by
  unfold State.dropAt
  grind -funext only [countHome_canonical, death_canonical, setHome_canonical]
theorem bindAt_canonical (m : HMsg) (gen : BitVec 8) (frec : DWord) : memCanonical (s.bindAt m gen frec) := by
  unfold State.bindAt
  grind -funext only [countHome_canonical, setHome_canonical]
end
theorem safe_handleFault (b : Bool) (l : Nat) : Safe (handleFault b l) := by
  have rules := @attempt_rules
  unfold handleFault
  grind -funext only
theorem goes_execHnew (w : WC) (s : State) : Goes s (execHnew w s) := by
  have rules := @attempt_rules
  refine goes_unit (fun v => safe_perSplit (fun ls x => ?_) v) s
  grind -funext only [safe_handleFault, setHome_canonical, writeDst_canonical, safe_done]
theorem splitHandle_canonical {s t : State} (hs : memCanonical s) (ctx die lane : Nat) (h : Handle) {g : Handle} (ht : s.splitHandle ctx die lane h = .ok g t) : memCanonical t := by
  unfold State.splitHandle at ht
  split at ht
  · cases ht
  · split at ht
    · cases ht
      exact hs
    · split at ht
      · cases ht
      · dsimp only at ht
        split at ht
        · cases ht
        · grind -funext only [setHome_canonical]
theorem goes_execHcopy (w : WC) (s : State) : Goes s (execHcopy w s) := by
  have rules := @attempt_rules
  refine goes_unit (fun v => safe_perSplit (fun ls x => safe_get fun s hs => safe_bind (safe_handleFault _ _) fun _ => ?_) v) s
  split
  · exact safe_throw _
  · grind -funext only [writeDst_canonical, safe_done]
  · rename_i hg
    have hs' := splitHandle_canonical hs _ _ _ _ hg
    grind -funext only [writeDst_canonical, safe_done]
theorem goes_execHderef (w : WC) (s : State) : Goes s (execHderef w s) := by
  have rules := @attempt_rules
  refine goes_unit (fun v => safe_perSplit (fun ls x => ?_) v) s
  grind -funext only [safe_done, safe_writeAll]
theorem goes_execHwt (w : WC) (s : State) : Goes s (execHwt w s) := by
  have rules := @attempt_rules
  refine goes_unit (fun v => safe_perSplit (fun ls x => ?_) v) s
  grind -funext only [safe_writeAll, safe_done]
theorem safe_giveHandle (v : View) (now : Bool) : Safe (giveHandle v now) := by
  have rules := @attempt_rules
  unfold giveHandle
  grind -funext only [modBlk_canonical]
theorem goes_execHdrop (w : WC) (s : State) : Goes s (execHdrop w s) := by
  have rules := @attempt_rules
  refine goes_unit (fun v => safe_perSplit (fun ls x => ?_) v) s
  grind -funext only [safe_handleFault, safe_giveHandle, safe_done, writeDst_canonical, enqueueDrop_canonical]
theorem goes_execHbind (w : WC) (s : State) : Goes s (execHbind w s) := by
  have rules := @attempt_rules
  refine goes_unit (fun v => safe_perSplit (fun ls x => ?_) v) s
  grind -funext only [safe_handleFault, safe_giveHandle, sendBind_canonical, safe_done]
theorem safe_arrive {core home : Nat} {act : HMsg → State → Option State} (ha : ∀ m s t, memCanonical s → act m s = some t → memCanonical t) : Safe (arrive core home act) := by
  refine safe_get fun s hs => safe_someA fun m _ => ?_
  have ht : memCanonical { s with hc := s.hc.erase m } := hs
  dsimp only
  split
  · exact keeps_set (handled_canonical (dropLink_canonical ht _ _) _)
  · exact safe_someA fun u hu => keeps_set (handled_canonical (ha m _ _ ht hu) _)
theorem goes_execDropMessageArrival (core home : Nat) (s : State) : Goes s (execDropMessageArrival core home s) := by
  have rules := @attempt_rules
  refine goes_event ?_ s
  grind -funext only [safe_arrive, dropAt_canonical]
theorem goes_execBindMessageArrival (core home : Nat) (s : State) : Goes s (execBindMessageArrival core home s) := by
  have rules := @attempt_rules
  refine goes_event ?_ s
  grind -funext only [safe_arrive, bindAt_canonical]

end Sys2Proof.Machine
end

section
/-! SUPPORT. Memory stays canonical: the attention unit and the stream unit. -/

namespace Sys2Proof.Machine

open Sys2Proof.Spec

/-! ## The attention unit -/

section
variable {s : State} (hs : memCanonical s)
include hs
theorem modAP_canonical (blk no : Nat) (f : AOp → AOp) : memCanonical (modA' blk no f s) := hs
theorem engHalt_canonical (b : Block) (unit code no place : Nat) : memCanonical (engHalt b unit code no place s) := hs
theorem writeKv_canonical (b : Block) (p : Pass) (buf : Nat) (cols : List (Nat × Nat × Nat × Nat)) (hand : List KvHand) : memCanonical (s.writeKv b p buf cols hand) := by
  unfold State.writeKv
  grind -funext only [foldl_canonical, wr_canonical, wrPsn_canonical]
theorem dropCopies_canonical (b : Block) (ws : List (DWord × DWord)) : memCanonical (s.dropCopies b ws) := by
  unfold State.dropCopies
  grind -funext only [foldl_canonical, sendDrop_canonical]
theorem endTile_canonical (b : Block) (p : Pass) (k : Nat) (pl : TilePlan) (hand : List KvHand) : memCanonical (s.endTile b p k pl hand).1 := by
  unfold State.endTile
  grind -funext only [writeKv_canonical]
theorem endSeq_canonical (b : Block) (p : Pass) : memCanonical (s.endSeq b p).1 := by
  unfold State.endSeq
  grind -funext only [foldl_canonical, setAccRow_canonical]
theorem attnEnd_canonical (b : Block) (o : AOp) {t : State} (ht : s.attnEnd b o = some t) : memCanonical t := by
  unfold State.attnEnd at ht
  grind -funext only [dropCopies_canonical, bump_canonical]
theorem slotStep_canonical {x y : SlotBusy} {t : State} (ht : s.slotStep x = some (t, y)) : memCanonical t := by
  unfold State.slotStep at ht
  grind -funext only [engWrite_canonical]
theorem setMove_canonical (blk : Nat) (m : Option SlotMove) : memCanonical (setMove blk m s) := hs
end
theorem safe_badAttn (b : Bool) (a l : Nat) : Safe (badAttn b a l) := by
  have rules := @attempt_rules
  unfold badAttn
  grind -funext only
theorem safe_heldRead (v : View) (code lane a n : Nat) (tiers : List Nat) : Safe (heldRead v code lane a n tiers) := by
  have rules := @attempt_rules
  unfold heldRead
  grind -funext only
theorem safe_acceptA (v : View) (w : WE) (ls : List Nat) (kind : AKind) (pass : Pass) (bad : Bool) (next : Option Pass) : Safe (acceptA v w ls kind pass bad next) := by
  have rules := @attempt_rules
  unfold acceptA
  grind -funext only [modBlk_canonical, modCore_canonical]
theorem goes_execAseq (w : WE) (s : State) : Goes s (execAseq w s) := by
  have rules := @attempt_rules
  refine goes_unit (fun v => safe_engIssue (fun ls x => ?_) v) s
  grind -funext only [safe_fenced, safe_badAttn, safe_heldRead, safe_acceptA, safe_uDone]
theorem goes_execAtile (w : WE) (s : State) : Goes s (execAtile w s) := by
  have rules := @attempt_rules
  refine goes_unit (fun v => safe_engIssue (fun ls x => ?_) v) s
  grind -funext only [safe_writeAll, safe_uDone, safe_acceptA]
theorem goes_execAmask (w : WE) (s : State) : Goes s (execAmask w s) := by
  have rules := @attempt_rules
  refine goes_unit (fun v => safe_engIssue (fun ls x => ?_) v) s
  grind -funext only [safe_badAttn, safe_badAlign, safe_badRange, safe_acceptM]
/-- The state that an access of a gather leaves, where it leaves one. -/
def Gather.state? : Gather → Option State
  | .busy s _ => some s
  | .took s _ => some s
  | _ => none
theorem settled_canonical {s t : State} (hs : memCanonical s) {h : KvHand} {left : List KvRead} (ht : (KvHand.settled s h left).state? = some t) : memCanonical t := by
  unfold KvHand.settled at ht
  split at ht
  · cases ht
    exact hs
  · cases ht
    exact hs
theorem gatherHandle_canonical {s t : State} (hs : memCanonical s) {b : Block} {p : Pass} {pl : TilePlan} {k : Nat} (ht : (s.gatherHandle b p pl k).state? = some t) :
    memCanonical t := by
  unfold State.gatherHandle at ht
  dsimp only at ht
  split at ht
  · cases ht
  · split at ht
    · cases ht
    · split at ht
      · cases ht
      · split at ht
        · cases ht
        · cases ht
        · cases ht
        · cases ht
        · split at ht
          · cases ht
          · cases ht
          · cases ht
          · rename_i hg
            cases ht
            exact engWrite_canonical (splitHandle_canonical hs _ _ _ _ hg) _ _ _
theorem gatherSurv_canonical {s t : State} (hs : memCanonical s) {b : Block} {p : Pass} {pl : TilePlan} {k : Nat} {w : DWord × DWord} {a : Nat}
    (ht : (s.gatherSurv b p pl k w a).state? = some t) : memCanonical t := by
  unfold State.gatherSurv at ht
  split at ht
  · cases ht
  · split at ht
    · cases ht
    · dsimp only at ht
      split at ht
      · cases ht
      · cases ht
      · exact settled_canonical hs ht
theorem gatherSlot_canonical {s t : State} (hs : memCanonical s) {h : KvHand} {left : List KvRead} {k : Nat} (ht : (s.gatherSlot h left k).state? = some t) :
    memCanonical t := by
  unfold State.gatherSlot at ht
  split at ht
  · cases ht
  · split at ht
    · cases ht
    · exact settled_canonical hs ht
theorem gather_canonical {s t : State} (hs : memCanonical s) {b : Block} {p : Pass} {pl : TilePlan} {k n : Nat} {busy : Option KvBusy}
    (ht : (s.gather b p pl k busy n).state? = some t) : memCanonical t := by
  unfold State.gather at ht
  split at ht
  · exact gatherHandle_canonical hs ht
  · exact gatherSurv_canonical hs ht
  · exact gatherSlot_canonical hs ht
theorem safe_attnWork (b : Block) (o : AOp) (k : Nat) : Safe (attnWork b o k) := by
  refine safe_get fun s hs => ?_
  split
  · exact safe_bind (safe_needA _ _) fun _ => keeps_set (modAP_canonical (endSeq_canonical hs _ _) _ _ _)
  · split
    · exact keeps_set (modAP_canonical (dropCopies_canonical (endTile_canonical hs _ _ _ _ _) _ _) _ _ _)
    · dsimp only
      split
      · exact safe_bind (safe_postEng _ _ _) fun _ => safe_modA fun s hs => modAP_canonical hs _ _ _
      · exact keeps_set (engHalt_canonical hs _ _ _ _ _)
      · exact safe_throw _
      · exact keeps_set (modAP_canonical (uncorrAt_canonical hs _) _ _ _)
      · rename_i hg
        exact keeps_set (modAP_canonical (gather_canonical hs (congrArg Gather.state? hg)) _ _ _)
      · rename_i hg
        exact keeps_set (modAP_canonical (gather_canonical hs (congrArg Gather.state? hg)) _ _ _)
theorem goes_execAttentionGatherBlock (st : EngStep) (s : State) : Goes s (execAttentionGatherBlock st s) := by
  refine goes_event (safe_bind (safe_engBlock _) fun b => safe_someA fun o _ => safe_get fun s _ => safe_bind (safe_needA _ _) fun _ => ?_) s
  split
  · exact safe_attnWork _ _ _
  · split
    · exact safe_throw _
    · exact safe_bind (safe_needA _ _) fun _ => safe_modA fun s hs => modAP_canonical (landFrags_canonical hs _ _ _) _ _ _
theorem safe_attnFree (v : View) : Safe (attnFree v) := by
  have rules := @attempt_rules
  unfold attnFree
  grind -funext only
theorem safe_survivor (v : View) (ls : List Nat) (x : LaneIn) (write : Bool) : Safe (survivor v ls x write) := by
  have rules := @attempt_rules
  refine safe_bind (safe_attnFree _) fun _ => safe_bind (safe_fenced _ _) fun _ => safe_get fun s hs => ?_
  split
  · exact safe_throw _
  · exact safe_throw _
  · exact keeps_pure _
  · grind -funext only
theorem safe_survPos (x : LaneIn) : Safe (survPos x) := by
  have rules := @attempt_rules
  unfold survPos
  grind -funext only [safe_badAttn]
theorem goes_execSvmap (w : WE) (s : State) : Goes s (execSvmap w s) := by
  have rules := @attempt_rules
  refine goes_unit (fun v => safe_engIssue (fun ls x => ?_) v) s
  grind -funext only [safe_survPos, safe_inOrder, safe_survivor, safe_writeAll, safe_uDone]
theorem safe_survMove (set_ : Bool) (w : WE) (v : View) (m : SlotMove) : Safe (survMove set_ w v m) := by
  have rules := @attempt_rules
  unfold survMove
  grind -funext only [safe_inOrder, setMove_canonical, bump_canonical, safe_uDone, holdStep_canonical, modBlk_canonical, post_canonical, slotStep_canonical, engWrite_canonical]
theorem safe_survEdit (set_ : Bool) (w : WE) (v : View) : Safe (survEdit set_ w v) := by
  have rules := @attempt_rules
  unfold survEdit
  grind -funext only [safe_survMove, safe_engIssue, safe_survPos, safe_inOrder, safe_survivor, safe_uDone]
theorem goes_execSvset (w : WE) (s : State) : Goes s (execSvset w s) := goes_unit (safe_survEdit _ _) s
theorem goes_execSvclr (w : WE) (s : State) : Goes s (execSvclr w s) := goes_unit (safe_survEdit _ _) s

/-! ## The stream unit -/

section
variable {s : State} (hs : memCanonical s)
include hs
theorem streamReport_canonical (ctx : Nat) (c : SCtx) (status stamp : Nat) : memCanonical (s.streamReport ctx c status stamp) := hs
theorem frameStep_canonical (ctx : Nat) (fr : List Byte) {t : State} (ht : s.frameStep ctx fr = some t) : memCanonical t := by
  unfold State.frameStep at ht
  dsimp only at ht
  split at ht
  · cases ht
    exact hs
  · split at ht
    · cases ht
      exact hs
    · obtain ⟨b, -, ht⟩ := Option.bind_eq_some_iff.mp ht
      split at ht
      · cases ht
        exact streamReport_canonical hs _ _ _ _
      · split at ht
        · split at ht
          · cases ht
            exact streamReport_canonical (devWrite_canonical hs _ _ _) _ _ _ _
          · split at ht
            · cases ht
            · cases ht
              have hw (r r' : List Run) (y y' : List Byte) (z z' : List Bool) := engWrite_canonical (engWrite_canonical hs r y z) r' y' z'
              refine modBlk_canonical (devWrite_canonical (devWrite_canonical (devWrite_canonical ?_ _ _ _) _ _ _) _ _ _) _ _
              split
              · exact devWrite_canonical (hw _ _ _ _ _ _) _ _ _
              · exact hw _ _ _ _ _ _
        · cases ht
          exact streamReport_canonical hs _ _ _ _
end
theorem frameOf_canonical {ctx : Nat} : ∀ (fs : List (List Byte)) {held : List Nat} {s t : State} {f : List Byte}, memCanonical s → s.frameOf ctx held fs = some (f, t) → memCanonical t
  | [], _, _, _, _, _, ht => by cases ht
  | f :: fs, held, s, t, _, hs, ht => by
    have ih := @frameOf_canonical ctx fs
    unfold State.frameOf at ht
    grind -funext only [frameStep_canonical]
theorem goes_execFrameWindowWrite (ctx ofs : Nat) (bytes : List Byte) (s : State) : Goes s (execFrameWindowWrite ctx ofs bytes s) := by
  unfold execFrameWindowWrite
  grind -funext only [goes_next, hostError_canonical, modCtx_canonical]
theorem goes_execFrameArrival (s : State) : Goes s (execFrameArrival s) := by
  refine goes_event (safe_get fun s hs => safe_someA fun p hp => keeps_set ?_) s
  obtain ⟨c, -, hc⟩ := List.exists_of_findSome?_eq_some hp
  obtain ⟨-, hc⟩ := Option.ite_none_left_eq_some.mp hc
  obtain ⟨x, hx, rfl⟩ := Option.map_eq_some_iff.mp hc
  exact modCtx_canonical (frameOf_canonical _ hs hx) _ _
theorem goes_execQ17Push (blk : Nat) (s : State) : Goes s (execQ17Push blk s) := by
  have rules := @attempt_rules
  refine goes_event ?_ s
  grind -funext only [modBlk_canonical]
theorem safe_sRead (v : View) (l a n : Nat) : Safe (sRead v l a n) := by
  have rules := @attempt_rules
  unfold sRead
  grind -funext only [safe_heldRead]
theorem safe_sWrite (v : View) (l a : Nat) (bs : List Byte) : Safe (sWrite v l a bs) := by
  have rules := @attempt_rules
  unfold sWrite
  grind -funext only [engWrite_canonical]
theorem safe_badStream (b : Bool) (l : Nat) : Safe (badStream b l) := by
  have rules := @attempt_rules
  unfold badStream
  grind -funext only
theorem safe_streamCtx (v : View) (ls : List Nat) (l : Nat) (b : DWord) : Safe (streamCtx v ls l b) := by
  have rules := @attempt_rules
  unfold streamCtx
  grind -funext only [safe_badStream, safe_attnFree, safe_fenced, safe_heldRead]
theorem goes_execDsread (w : WE) (sel : DsSel) (s : State) : Goes s (execDsread w sel s) := by
  have rules := @attempt_rules
  refine goes_unit (fun v => safe_engIssue (fun ls x => safe_inOrder ?_) v) s
  grind -funext only [safe_streamCtx, safe_writeAll, safe_uDone, safe_heldRead]
theorem safe_cltAdd (v : View) (l : Nat) (c : SCtx) (d : ℤ) : Safe (cltAdd v l c d) := by
  have rules := @attempt_rules
  unfold cltAdd
  grind -funext only [safe_sRead, safe_sWrite]
theorem goes_execDscommit (w : WE) (s : State) : Goes s (execDscommit w s) := by
  have rules := @attempt_rules
  refine goes_unit (fun v => safe_engIssue (fun ls x => safe_inOrder ?_) v) s
  grind -funext only [safe_streamCtx, safe_uDone, safe_sWrite, safe_predAll, safe_cltAdd]
theorem safe_snapArea (v : View) (l a n : Nat) : Safe (snapArea v l a n) := by
  have rules := @attempt_rules
  unfold snapArea
  grind -funext only
theorem safe_dropEntry (v : View) (l ea : Nat) (h : Handle) : Safe (cutBlock.dropEntry v l ea h) :=
  safe_bind (safe_modA fun _ hs => sendDrop_canonical hs _ _ _) fun _ => safe_sWrite _ _ _ _
theorem safe_cutBlock (v : View) (l : Nat) (c : SCtx) (s j : Nat) : Safe (cutBlock v l c s j) := by
  have rules := @attempt_rules
  refine safe_bind (safe_sRead _ _ _ _) fun bs => ?_
  dsimp only
  split
  · exact keeps_pure _
  · refine safe_get fun t ht => ?_
    grind -funext only [safe_sRead, safe_sWrite, safe_dropEntry]
theorem safe_truncAt (v : View) (l a : Nat) (c : SCtx) (s : Nat) (pend : List Nat) : Safe (truncAt v l a c s pend) := by
  have rules := @attempt_rules
  refine safe_bind (safe_sWrite _ _ _ _) fun _ => safe_bind (safe_sRead _ _ _ _) fun t => safe_bind (safe_cltAdd _ _ _ _) fun _ => ?_
  refine safe_bind (keeps_forIn (fun j _ => ?_) _) fun _ => safe_bind (keeps_forIn (fun x low => ?_) _) fun low => safe_bind (safe_sWrite _ _ _ _) fun _ => ?_
  · exact safe_bind (safe_cutBlock _ _ _ _ _) fun _ => keeps_pure _
  · refine safe_bind (safe_sRead _ _ _ _) fun e => ?_
    grind -funext only [safe_sWrite]
  · split
    · refine safe_bind (safe_heldRead _ _ _ _ _ _) fun d => safe_modA fun t ht => ?_
      exact foldl_canonical (fun t f ht => landFrags_canonical ht _ _ _) _ ht
    · exact keeps_pure _
theorem goes_execDstruncFrame (w : WE) (s : State) : Goes s (execDstruncFrame w s) := by
  have rules := @attempt_rules
  refine goes_unit (fun v => safe_engIssue (fun ls x => safe_inOrder ?_) v) s
  grind -funext only [safe_streamCtx, safe_badStream, safe_snapArea, safe_sRead, safe_sWrite, safe_truncAt, safe_uDone]
theorem goes_execDstruncPos (w : WE) (s : State) : Goes s (execDstruncPos w s) := by
  have rules := @attempt_rules
  refine goes_unit (fun v => safe_engIssue (fun ls x => safe_inOrder ?_) v) s
  grind -funext only [safe_streamCtx, safe_badStream, safe_snapArea, safe_truncAt, safe_uDone]
theorem goes_execDsckptSave (w : WE) (s : State) : Goes s (execDsckptSave w s) := by
  have rules := @attempt_rules
  refine goes_unit (fun v => safe_engIssue (fun ls x => safe_inOrder ?_) v) s
  refine safe_bind (safe_streamCtx _ _ _ _) fun c => safe_bind (safe_snapArea _ _ _ _) fun _ => ?_
  split
  · refine safe_bind (safe_needA _ _) fun _ => safe_get fun s hs => ?_
    grind -funext only [engWrite_canonical, safe_uDone]
  · exact safe_uDone _
theorem goes_execDsckptRel (w : WE) (s : State) : Goes s (execDsckptRel w s) := by
  have rules := @attempt_rules
  refine goes_unit (fun v => safe_engIssue (fun ls x => safe_inOrder ?_) v) s
  grind -funext only [safe_streamCtx, safe_sWrite, safe_uDone]

end Sys2Proof.Machine
end

section
/-! SUPPORT. Memory stays canonical: packets, collectives and launches. -/

namespace Sys2Proof.Machine

open Sys2Proof.Spec

/-! ## Queues, packets and completion queues -/

section
variable {s : State} (hs : memCanonical s)
include hs
theorem modQ_canonical (ctx q : Nat) (f : SwQ → SwQ) : memCanonical (s.modQ ctx q f) := hs
theorem notePage_canonical (ctx ofs v : Nat) : memCanonical (s.notePage ctx ofs v) := hs
theorem wantSlot_canonical (ctx q : Nat) : memCanonical (s.wantSlot ctx q) := by
  unfold State.wantSlot
  grind -funext only [memCanonical]
theorem noteEn_canonical : memCanonical s.noteEn := hs
theorem notify_canonical (ctx q idx : Nat) : memCanonical (s.notify ctx q idx) := by
  unfold State.notify
  grind -funext only [memCanonical, hostError_canonical, wantSlot_canonical, modQ_canonical]
theorem postStatus_canonical (q : SwQ) (status info detail : Nat) (by_ : CqWriter) : memCanonical (s.postStatus q status info detail by_) := hs
theorem setCq_canonical (c : CqSt) : memCanonical (s.setCq c) := hs
theorem interrupt_canonical (vec : Nat) : memCanonical (s.interrupt vec) := hs
theorem dispatch_canonical (q : SwQ) (n : Nat) (w : PkWait) : memCanonical (s.dispatch q n w) := hs
theorem haltQ_canonical (q : SwQ) (status : Nat) : memCanonical (s.haltQ q status) := by
  unfold State.haltQ
  grind -funext only [modQ_canonical, postStatus_canonical, devWrite_canonical]
theorem skipOn_canonical (ctx q : Nat) : memCanonical (s.skipOn ctx q) := by
  unfold State.skipOn
  grind -funext only [modQ_canonical, haltQ_canonical]
theorem endWait_canonical (q : SwQ) : memCanonical (s.endWait q) := hs
theorem dropGrid_canonical (g : Nat) : memCanonical (s.dropGrid g) := hs
end
theorem goes_execQueueNotify (ctx q idx : Nat) (s : State) : Goes s (execQueueNotify ctx q idx s) := by
  unfold execQueueNotify
  grind -funext only [goes_next, hostError_canonical, notePage_canonical, notify_canonical]
theorem goes_execQueueRestart (ctx q idx : Nat) (s : State) : Goes s (execQueueRestart ctx q idx s) := by
  unfold execQueueRestart
  grind -funext only [goes_next, hostError_canonical, notePage_canonical, notify_canonical, devWrite_canonical]
theorem goes_execCompletionQueueWrite (ctx cq : Nat) (s : State) : Goes s (execCompletionQueueWrite ctx cq s) := by
  refine goes_event (safe_get fun s hs => safe_bind (safe_needA _ _) fun _ => safe_someA fun e _ => ?_) s
  split
  · refine keeps_set ?_
    grind -funext only [memCanonical, hostError_canonical]
  · refine safe_bind (safe_needA _ _) fun _ => keeps_set ?_
    grind -funext only [memCanonical, devWrite_canonical, setCq_canonical, interrupt_canonical, modQ_canonical]
theorem goes_execCqTimerExpiry (ctx cq : Nat) (s : State) : Goes s (execCqTimerExpiry ctx cq s) := by
  have rules := @attempt_rules
  refine goes_event ?_ s
  grind -funext only [interrupt_canonical, setCq_canonical]
theorem goes_execQueueSlotAssign (s : State) : Goes s (execQueueSlotAssign s) := by
  have rules := @attempt_rules
  refine goes_event ?_ s
  grind -funext only [memCanonical, modQ_canonical]
theorem goes_execPacketFetch (slot : Nat) (s : State) : Goes s (execPacketFetch slot s) := by
  have rules := @attempt_rules
  refine goes_event ?_ s
  grind -funext only [haltQ_canonical, modQ_canonical, skipOn_canonical]
theorem goes_execTagRefetch (slot : Nat) (s : State) : Goes s (execTagRefetch slot s) := by
  have rules := @attempt_rules
  refine goes_event ?_ s
  grind -funext only [haltQ_canonical, modQ_canonical, postStatus_canonical, skipOn_canonical]
theorem goes_packet {slot : Nat} {ty : Nat → Bool} {body : SwQ → Buf → List Byte → Act Unit} (hb : ∀ q b bs, Safe (body q b bs)) (s : State) : Goes s (packet slot ty body s) := by
  refine goes_event (safe_get fun s hs => safe_someA fun q _ => safe_bind (safe_needA _ _) fun _ => safe_someA fun b _ => safe_someA fun p _ => safe_bind (safe_needA _ _) fun _ => ?_) s
  have hturn : Safe (modA fun t => if s.servable slot then { t with turn := slot } else t) := safe_modA fun t ht => by
    split
    · exact ht
    · exact ht
  dsimp only
  split
  · exact safe_bind (safe_modA fun s hs => haltQ_canonical hs _ _) fun _ => hturn
  · exact safe_bind (safe_needA _ _) fun _ => safe_bind (hb _ _ _) fun _ => hturn
theorem safe_badPacket (q : SwQ) : Safe (badPacket q) := by
  have rules := @attempt_rules
  unfold badPacket
  grind -funext only [haltQ_canonical]
theorem safe_passOn (q : SwQ) (n : Nat) (w : PkWait) : Safe (passOn q n w) := by
  have rules := @attempt_rules
  unfold passOn
  grind -funext only [dispatch_canonical]
theorem goes_execNopPacket (slot : Nat) (s : State) : Goes s (execNopPacket slot s) := by
  have rules := @attempt_rules
  refine goes_packet (fun q _ bs => ?_) s
  grind -funext only [safe_passOn, safe_badPacket]
theorem goes_execPred (slot : Nat) (s : State) : Goes s (execPred slot s) := by
  have rules := @attempt_rules
  refine goes_packet (fun q b bs => ?_) s
  grind -funext only [safe_badPacket, safe_passOn, skipOn_canonical, modQ_canonical]
theorem goes_execLoop (slot : Nat) (s : State) : Goes s (execLoop slot s) := by
  have rules := @attempt_rules
  refine goes_packet (fun q b bs => ?_) s
  grind -funext only [safe_badPacket, modQ_canonical]
theorem goes_execIb (slot : Nat) (s : State) : Goes s (execIb slot s) := by
  have rules := @attempt_rules
  refine goes_packet (fun q _ bs => ?_) s
  grind -funext only [safe_badPacket, haltQ_canonical, modQ_canonical]
theorem safe_waiting (q : SwQ) : Safe (waiting q) := by
  have rules := @attempt_rules
  unfold waiting
  grind -funext only
theorem goes_execWait (slot : Nat) (s : State) : Goes s (execWait slot s) := by
  have rules := @attempt_rules
  refine goes_packet (fun q _ bs => ?_) s
  grind -funext only [safe_badPacket, safe_passOn, modQ_canonical]
theorem goes_execWaitPoll (slot : Nat) (s : State) : Goes s (execWaitPoll slot s) := by
  have rules := @attempt_rules
  refine goes_event ?_ s
  grind -funext only [safe_waiting, endWait_canonical, modQ_canonical]
theorem goes_execWaitPark (slot : Nat) (s : State) : Goes s (execWaitPark slot s) := by
  have rules := @attempt_rules
  refine goes_event ?_ s
  grind -funext only [safe_waiting, modQ_canonical]
theorem goes_execParkedWaitPoll (ctx q : Nat) (s : State) : Goes s (execParkedWaitPoll ctx q s) := by
  have rules := @attempt_rules
  refine goes_event ?_ s
  grind -funext only [safe_waiting, wantSlot_canonical, modQ_canonical]
theorem goes_execWaitStall (ctx q : Nat) (s : State) : Goes s (execWaitStall ctx q s) := by
  have rules := @attempt_rules
  refine goes_event ?_ s
  grind -funext only [safe_waiting, postStatus_canonical, modQ_canonical]
theorem goes_execSignal (slot : Nat) (s : State) : Goes s (execSignal slot s) := by
  have rules := @attempt_rules
  refine goes_packet (fun q _ bs => ?_) s
  grind -funext only [safe_badPacket, devWrite_canonical, safe_passOn]
theorem goes_execFetchFence (slot : Nat) (s : State) : Goes s (execFetchFence slot s) := by
  have rules := @attempt_rules
  refine goes_packet (fun q _ _ => ?_) s
  grind -funext only [modQ_canonical]
theorem goes_execComplete (slot : Nat) (s : State) : Goes s (execComplete slot s) := by
  have rules := @attempt_rules
  refine goes_packet (fun q _ bs => ?_) s
  grind -funext only [memCanonical, safe_badPacket, devWrite_canonical, interrupt_canonical, setCq_canonical, dispatch_canonical]
theorem goes_execPacketRetire (ctx q : Nat) (s : State) : Goes s (execPacketRetire ctx q s) := by
  have rules := @attempt_rules
  refine goes_event ?_ s
  grind -funext only [foldl_canonical, dropGrid_canonical, modQ_canonical, devWrite_canonical]

/-! ## Collectives and signals -/

section
variable {s : State} (hs : memCanonical s)
include hs
theorem modColl_canonical (blk no : Nat) (f : CollOp → CollOp) : memCanonical (modColl blk no f s) := hs
theorem join_canonical (ctx cid use : Nat) (ps : List CollPart) : memCanonical (s.join ctx cid use ps) := by
  unfold State.join
  grind -funext only [memCanonical]
theorem freeBytes_canonical (n : Nat) : memCanonical (s.freeBytes n).2 := by
  unfold State.freeBytes
  grind -funext only [memCanonical]
theorem collEnter_canonical (b : Block) (o : CollOp) (params : List Nat) (others : List CollPart) : memCanonical (s.collEnter b o params others) := by
  unfold State.collEnter
  grind -funext only [modColl_canonical, join_canonical]
theorem collDone_canonical (blk no : Nat) : memCanonical (collDone blk no s) := hs
end
theorem safe_acceptColl (v : View) (f : Opnd) (ls : List Nat) (op : Nat → CollOp) : Safe (acceptColl v f ls op) := by
  have rules := @attempt_rules
  unfold acceptColl
  grind -funext only [modBlk_canonical, safe_writeAll, safe_done]
theorem safe_collIssue (kind : Nat) (w : WC) (v : View) : Safe (collIssue kind w v) := by
  refine safe_perSplit (fun ls x => safe_bind (safe_fenced _ _) fun _ => safe_bind (safe_needA _ _) fun _ => safe_bind (safe_heldRead _ _ _ _ _ _) fun d => ?_) v
  dsimp only
  split
  · exact safe_bind (safe_needA _ _) fun _ => safe_acceptColl _ _ _ _
  · refine safe_bind (safe_needA _ _) fun _ => safe_bind (safe_heldRead _ _ _ _ _ _) fun r => safe_get fun s hs => ?_
    split
    · exact safe_bind (safe_needA _ _) fun _ => safe_acceptColl _ _ _ _
    · refine safe_bind (safe_needA _ _) fun _ => safe_bind (safe_needA _ _) fun _ => ?_
      exact safe_bind (safe_modA fun s hs => modCtx_canonical hs _ _) fun _ => safe_acceptColl _ _ _ _
theorem goes_execCollAr (w : WC) (s : State) : Goes s (execCollAr w s) := goes_unit (safe_collIssue _ _) s
theorem goes_execCollAg (w : WC) (s : State) : Goes s (execCollAg w s) := goes_unit (safe_collIssue _ _) s
theorem goes_execCollRs (w : WC) (s : State) : Goes s (execCollRs w s) := goes_unit (safe_collIssue _ _) s
theorem safe_collFault (b : Block) (o : CollOp) (x : XErr) : Safe (collFault b o x) := by
  have rules := @attempt_rules
  unfold collFault
  grind -funext only [safe_postEng, modColl_canonical]
theorem safe_collSource (b : Block) (o : CollOp) (others : List CollPart) : Safe (collSource b o others) := by
  have rules := @attempt_rules
  unfold collSource
  grind -funext only [collEnter_canonical, modColl_canonical, safe_collFault]
theorem safe_collRead (b : Block) (o : CollOp) (k : Nat) : Safe (collRead b o k) := by
  have rules := @attempt_rules
  unfold collRead
  grind -funext only [bump_canonical, modColl_canonical]
theorem safe_collSettle (b : Block) (o : CollOp) : Safe (collSettle b o) := by
  have rules := @attempt_rules
  unfold collSettle
  grind -funext only [freeBytes_canonical, modColl_canonical]
theorem safe_collTile (b : Block) (o : CollOp) (out : List Byte × List Bool) : Safe (collTile b o out) := by
  have rules := @attempt_rules
  unfold collTile
  grind -funext only [safe_collFault, modColl_canonical]
theorem safe_collWrite (b : Block) (o : CollOp) (k : Nat) : Safe (collWrite b o k) := by
  have rules := @attempt_rules
  unfold collWrite
  grind -funext only [freeBytes_canonical, modColl_canonical, engWrite_canonical]
theorem goes_execCollectiveJoin (blk : Nat) (st : EngStep) (remote : List (Nat × List Byte × List Bool)) (s : State) : Goes s (execCollectiveJoin blk st remote s) := by
  have rules := @attempt_rules
  refine goes_event ?_ s
  grind -funext only [safe_engBlock, safe_collWrite, safe_collRead, safe_collSource, join_canonical, safe_collSettle, safe_collTile]
theorem safe_xsig (add : Bool) (w : WC) (v : View) : Safe (xsig add w v) := by
  have rules := @attempt_rules
  refine safe_perSplit (fun ls x => safe_get fun s hs => safe_bind (safe_needA _ _) fun _ => safe_bind (safe_needA _ _) fun _ => ?_) v
  split
  · exact safe_throw _
  · refine safe_bind (safe_needA _ _) fun _ => safe_bind (safe_needA _ _) fun _ => ?_
    grind -funext only [dropStore_canonical, enqueue_canonical, safe_done]
theorem goes_execXsigSet (w : WC) (s : State) : Goes s (execXsigSet w s) := goes_unit (safe_xsig _ _) s
theorem goes_execXsigAdd (w : WC) (s : State) : Goes s (execXsigAdd w s) := goes_unit (safe_xsig _ _) s
theorem safe_collComplete (b : Block) (o : CollOp) : Safe (collComplete b o) := by
  have rules := @attempt_rules
  unfold collComplete
  grind -funext only [collDone_canonical, bump_canonical]
theorem goes_execEngineOperationComplete (blk : Nat) (e : Eng) (no : Nat) (s : State) : Goes s (execEngineOperationComplete blk e no s) := by
  refine goes_event (safe_bind (safe_engBlock _) fun b => ?_) s
  cases e with
  | copy k => exact safe_someA fun c _ => safe_someA fun o _ => safe_bind (safe_needA _ _) fun _ => safe_modA fun s hs => modBlk_canonical hs _ _
  | matrix => exact safe_someA fun o _ => safe_bind (safe_needA _ _) fun _ => safe_modA fun s hs => modBlk_canonical hs _ _
  | attention =>
    exact safe_someA fun o _ => safe_bind (safe_needA _ _) fun _ => safe_get fun s hs => safe_someA fun t ht => keeps_set (modBlk_canonical (attnEnd_canonical hs _ _ ht) _ _)
  | page =>
    refine safe_someA fun l _ => safe_bind (safe_needA _ _) fun _ => safe_modA fun s hs => modPage_canonical ?_ _ _
    split
    · exact bump_canonical hs _ _ _
    · exact hs
  | coll => exact safe_someA fun o _ => safe_collComplete _ _
  | handle => exact safe_bind (safe_needA _ _) fun _ => safe_modA fun s hs => modBlk_canonical hs _ _

/-! ## Launches, SAVE and RESUME -/

section
variable {s : State} (hs : memCanonical s)
include hs
theorem startGrid_canonical (g : Grid) : memCanonical (s.startGrid g) := by
  unfold State.startGrid
  grind -funext only [memCanonical, devWrite_canonical]
theorem freeze_canonical (ctx via image : Nat) (g : Grid) : memCanonical (s.freeze ctx via image g) := by
  unfold State.freeze
  grind -funext only [foldl_canonical, endRun_canonical, writeImage_canonical, modGrp_canonical, modCtx_canonical]
theorem saveNow_canonical (ctx via image limit : Nat) (g : Grid) : memCanonical (s.saveNow ctx via image limit g).1 :=
  fst_ite_canonical hs (fst_ite_canonical hs (freeze_canonical hs _ _ _ _))
theorem saveStatus_canonical (p : Preempt) (st : Nat) : memCanonical (s.saveStatus p st) := by
  unfold State.saveStatus
  cases s.queue? p.via p.q with
  | none => exact hs
  | some q => exact postStatus_canonical hs _ _ _ _ _
omit hs in
theorem owedFreeze_eq {ctx : Nat} (save : State → Nat → Nat → Nat → Nat → Grid → State × Option Nat) (g : Grid) (p : Preempt) :
    (match some p with
      | none => s
      | some p =>
        let s := s.modCtx ctx fun c => { c with preempt := none, saved := .no }
        match save s ctx p.via p.image p.limit g with
        | (s, some st) => s.saveStatus p st
        | (s, none) => s) =
      match save (s.modCtx ctx fun c => { c with preempt := none, saved := .no }) ctx p.via p.image p.limit g with
      | (s, some st) => s.saveStatus p st
      | (s, none) => s := rfl
omit hs in
theorem preemptNow_some {ctx : Nat} {p : Preempt} (g : Grid) (h : (s.ctxD ctx).preempt = some p) : s.preemptNow ctx g =
    match (s.modCtx ctx fun c => { c with preempt := none, saved := .no }).saveNow ctx p.via p.image p.limit g with
    | (s, some st) => s.saveStatus p st
    | (s, none) => s := by
  unfold State.preemptNow
  rewrite [h]
  exact owedFreeze_eq _ g p
theorem preemptNow_canonical (ctx : Nat) (g : Grid) : memCanonical (s.preemptNow ctx g) := by
  cases h : (s.ctxD ctx).preempt with
  | none =>
    unfold State.preemptNow
    rw [h]
    exact hs
  | some p =>
    have hsave := saveNow_canonical (modCtx_canonical hs ctx fun c => { c with preempt := none, saved := .no }) ctx p.via p.image p.limit g
    rw [preemptNow_some g h]
    generalize State.saveNow _ _ _ _ _ _ = r at *
    obtain ⟨t, _ | st⟩ := r
    · exact hsave
    · exact saveStatus_canonical hsave _ _
theorem setAge_canonical (ctx : Nat) (r : Req) : memCanonical (s.setAge ctx r) := by
  unfold State.setAge
  grind -funext only [modCtx_canonical]
theorem restore_canonical (via a : Nat) (m : Image) : memCanonical (s.restore via a m) := by
  unfold memCanonical
  rw [restore_mem]
  exact foldl_canonical (fun s c hs => loadCore_wf hs) _ hs
end
theorem goes_launchPacket (slot ty : Nat) (kind : GKind) (s : State) : Goes s (launchPacket slot ty kind s) := by
  have rules := @attempt_rules
  refine goes_packet (fun q b bs => ?_) s
  grind -funext only [dispatch_canonical, setAge_canonical, startGrid_canonical, modCtx_canonical, preemptNow_canonical, safe_badPacket, postStatus_canonical]
theorem goes_execLaunch (slot : Nat) (s : State) : Goes s (execLaunch slot s) := by
  have rules := @attempt_rules
  unfold execLaunch
  grind -funext only [goes_launchPacket]
theorem goes_execLaunchPages (slot : Nat) (s : State) : Goes s (execLaunchPages slot s) := by
  have rules := @attempt_rules
  unfold execLaunchPages
  grind -funext only [goes_launchPacket]
theorem goes_execRange (slot : Nat) (s : State) : Goes s (execRange slot s) := by
  have rules := @attempt_rules
  unfold execRange
  grind -funext only [goes_launchPacket]
theorem goes_execFinaliserStart (s : State) : Goes s (execFinaliserStart s) := by
  refine goes_event (safe_get fun s hs => safe_bind (safe_needA _ _) fun _ => safe_someA fun c _ => ?_) s
  split
  · exact safe_throw _
  · dsimp only
    split
    · exact keeps_set (setAge_canonical (startGrid_canonical (modCtx_canonical hs _ _) _) _ _)
    · exact keeps_set (modCtx_canonical hs _ _ : memCanonical (s.modCtx c.no _))
theorem goes_execSave (slot : Nat) (s : State) : Goes s (execSave slot s) := by
  have hsave := @saveNow_canonical
  unfold execSave
  generalize State.saveNow = save at hsave ⊢
  refine goes_packet (fun q b bs => safe_get fun s hs => ?_) s
  extract_lets a ctx limit ends goOn owe
  have hends {t : State} (ht : memCanonical t) (st : Nat) : Safe (ends t st) := keeps_set (dispatch_canonical (postStatus_canonical ht _ _ _ _ _) _ _ _)
  have hgo : memCanonical goOn := modCtx_canonical hs _ _
  have howe : Safe owe := hends (modCtx_canonical hgo _ _) _
  clear_value ends goOn owe
  refine keeps_ite (safe_badPacket q) ?_
  split
  · exact howe
  · exact hends hs _
  · exact hends hs _
  · exact keeps_ite howe (keeps_set (modCtx_canonical hs _ _))
  · rename_i g _ _
    refine safe_bind (safe_needA _ _) fun _ => ?_
    have h := hsave hs ctx q.ctx a limit g
    generalize save s ctx q.ctx a limit g = r at h ⊢
    obtain ⟨t, _ | st⟩ := r
    · exact keeps_set (dispatch_canonical h _ _ _)
    · exact hends hgo st
theorem goes_execResume (slot : Nat) (s : State) : Goes s (execResume slot s) := by
  have rules := @attempt_rules
  refine goes_packet (fun q b bs => safe_get fun s hs => ?_) s
  grind -funext only [safe_badPacket, postStatus_canonical, dispatch_canonical, restore_canonical]

end Sys2Proof.Machine
end

section
/-! SUPPORT. Memory stays canonical: faults, the host's side and selection. -/

namespace Sys2Proof.Machine

open Sys2Proof.Spec

/-! ## Fault records, answers and service replies -/

section
variable {s : State} (hs : memCanonical s)
include hs
theorem setFault_canonical (blk : Nat) (e : Eng) (no : Nat) (f : OpFault) : memCanonical (setFault blk e no f s) := by
  unfold setFault
  grind -funext only [modOp_canonical, modBlk_canonical, modLayer_canonical]
theorem modMove_canonical (blk : Nat) (f : OpFault) : memCanonical (s.modMove blk f) := hs
theorem noteAnswer_canonical (ctx idx : Nat) (abandon : Bool) : memCanonical (s.noteAnswer ctx idx abandon) := by
  unfold State.noteAnswer
  grind -funext only [modPart_canonical]
theorem haltUnit_canonical (u : UnitRef) : memCanonical (s.haltUnit u) := by
  unfold State.haltUnit
  grind -funext only [raiseHalt_canonical]
theorem haltCtx_canonical (ctx code : Nat) : memCanonical (s.haltCtx ctx code) := by
  unfold State.haltCtx
  grind -funext only [foldl_canonical, postStatus_canonical, modCtx_canonical]
theorem replyFrame_canonical (ctx frame l : Nat) (bs : List Byte) : memCanonical (s.replyFrame ctx frame l bs) := by
  unfold State.replyFrame
  grind -funext only [devWrite_canonical]
theorem settle_canonical (ctx : Nat) (u : UnitRef) : memCanonical (s.settle ctx u) := by
  unfold State.settle
  grind -funext only [memCanonical, modGrp_canonical]
end
theorem goes_execCqread (ctx cq idx : Nat) (s : State) : Goes s (execCqread ctx cq idx s) := by
  unfold execCqread
  grind -funext only [memCanonical, goes_next, hostError_canonical, setCq_canonical, notePage_canonical]
theorem goes_execFqread (ctx idx : Nat) (s : State) : Goes s (execFqread ctx idx s) := by
  unfold execFqread
  grind -funext only [goes_next, modCtx_canonical, notePage_canonical]
theorem goes_execFaultRecordPost (ctx : Nat) (s : State) : Goes s (execFaultRecordPost ctx s) := by
  have rules := @attempt_rules
  refine goes_event ?_ s
  grind -funext only [devWrite_canonical, interrupt_canonical, bump_canonical, modCtx_canonical]
theorem safe_takeAnswer (ctx idx : Nat) : Safe (takeAnswer ctx idx) := by
  have rules := @attempt_rules
  unfold takeAnswer
  grind -funext only [modCtx_canonical]
theorem goes_execFaultAnswerResume (ctx idx : Nat) (s : State) : Goes s (execFaultAnswerResume ctx idx s) := by
  refine (goes_event (safe_bind (safe_takeAnswer ctx idx) fun a => ?_) _).after fun hs => noteAnswer_canonical hs ctx idx false
  cases a with
  | none => exact keeps_pure _
  | grp blk g =>
    refine safe_modA fun s hs => ?_
    cases s.ustat? (.group blk g) with
    | none => exact hs
    | some x =>
      cases x
      case benched c y => rcases c with _ | _ | c <;> exact hs
      case held c =>
        rcases c with _ | _ | c
        · exact hs
        · exact modGrp_canonical hs _ _
        · exact hs
      all_goals exact hs
  | front blk => exact safe_modA fun s hs => modGrp_canonical hs _ _
  | eop blk e no => exact safe_modA fun s hs => setFault_canonical hs _ _ _ _
  | move blk => exact safe_modA fun s hs => modMove_canonical hs _ _
theorem goes_execFaultAnswerAbandon (ctx idx : Nat) (s : State) : Goes s (execFaultAnswerAbandon ctx idx s) := by
  refine (goes_event (safe_bind (safe_takeAnswer ctx idx) fun a => ?_) _).after fun hs => noteAnswer_canonical hs ctx idx true
  cases a with
  | none => exact keeps_pure _
  | grp blk g => exact safe_modA fun s hs => haltUnit_canonical hs _
  | front blk => exact safe_modA fun s hs => haltUnit_canonical hs _
  | move blk => exact safe_modA fun s hs => modMove_canonical hs _ _
  | eop blk e no =>
    refine safe_get fun s hs => ?_
    split
    · exact keeps_pure _
    · split
      · split
        · exact keeps_set (abandonCopy_canonical hs _ _ _)
        · exact keeps_pure _
      · exact keeps_set (layerNext_canonical (modLayer_canonical (bump_canonical hs _ _ _) _ _ _) _ _)
      · exact keeps_set (setFault_canonical hs _ _ _ _)
theorem goes_execHaltSequence (part : Nat) (s : State) : Goes s (execHaltSequence part s) := by
  have rules := @attempt_rules
  refine goes_event ?_ s
  grind -funext only [foldl_canonical, endRun_canonical, modPart_canonical]
theorem goes_execStopRecordWrite (part : Nat) (s : State) : Goes s (execStopRecordWrite part s) := by
  have rules := @attempt_rules
  refine goes_event ?_ s
  grind -funext only [devWrite_canonical, modPart_canonical]
theorem goes_execContextHalted (part : Nat) (s : State) : Goes s (execContextHalted part s) := by
  have rules := @attempt_rules
  refine goes_event ?_ s
  grind -funext only [foldl_canonical, haltCtx_canonical, modPart_canonical]
theorem goes_execSvcreply (ctx idx : Nat) (s : State) : Goes s (execSvcreply ctx idx s) := by
  refine goes_event (safe_get fun s hs => ?_) s
  have h := notePage_canonical hs ctx 0x8808 idx
  generalize s.notePage ctx 0x8808 idx = s at h ⊢
  refine safe_bind (keeps_set h) fun _ => ?_
  extract_lets c
  split
  · exact keeps_pure _
  · rename_i r _
    extract_lets base reply t u s2 load
    have ht : memCanonical t := modCtx_canonical h _ _
    have hrep (f frame : State → Nat) : memCanonical ((lanesOf r.mask).foldl (fun s l => s.replyFrame (f s) (frame s) l (reply l)) t) :=
      foldl_canonical (fun _ _ h => replyFrame_canonical h _ _ _ _) _ ht
    have hs2 : memCanonical s2 := by
      unfold s2
      split
      · rename_i im _
        exact hrep (fun s => (s.ctxD ctx).via) fun s => s.imageGrp ctx im r.blk r.g
      · exact ht
    clear_value t u base s2
    cases t.ustat? u with
    | none => exact keeps_set ht
    | some x =>
      cases x
      case benched c y =>
        rcases c with _ | c
        · exact keeps_set (settle_canonical (hrep (fun s => (s.ctxD ctx).via) fun _ => y.toNat) _ _)
        · exact keeps_set (hrep (fun _ => ctx) fun _ => y.toNat)
      case held c =>
        rcases c with _ | _ | _ | c
        case succ.succ.zero =>
          exact keeps_set (modGrp_canonical (foldl_canonical (fun _ _ h => modThread_canonical h _ _ _) _ hs2) _ _)
        all_goals exact keeps_set ht
      all_goals exact keeps_set ht
theorem goes_execBreakpointSet (ctx : Nat) (addrs : List VAddr) (s : State) : Goes s (execBreakpointSet ctx addrs s) := by
  unfold execBreakpointSet
  grind -funext only [goes_next, modCtx_canonical]
theorem goes_execDebugResume (u : UnitRef) (s : State) : Goes s (execDebugResume u s) := by
  refine goes_next fun hs => ite_canonical hs ?_
  extract_lets t
  have ht : memCanonical t := hs
  clear_value t
  cases t.ustat? u with
  | none => exact ht
  | some x =>
    cases x
    case benched c y =>
      rcases c with _ | _ | _ | _ | _ | c
      · exact ite_canonical (settle_canonical ht _ _) ht
      case succ.succ.succ.succ.zero => exact ite_canonical ht ht
      all_goals exact ht
    case held c =>
      rcases c with _ | _ | _ | _ | _ | c
      case succ.succ.succ.succ.zero => exact modGrp_canonical ht _ _
      all_goals exact ht
    all_goals exact ht

/-! ## The host's commands and housekeeping -/

section
variable {s : State} (hs : memCanonical s)
include hs
theorem writeInv_canonical (i : Nat) (v : DWord) : memCanonical (s.writeInv i v) := by
  unfold State.writeInv
  grind -funext only [memCanonical]
theorem wiped_canonical (keepFlash : Bool) : memCanonical (s.wiped keepFlash) := filter_wf _ s.mem hs
theorem measure_canonical (n : Nat) : memCanonical (s.measure n) := hs
theorem serveLife_canonical : memCanonical s.serveLife := by
  unfold State.serveLife
  grind -funext only [memCanonical, wiped_canonical]
theorem rebuildParity_canonical (page : Nat) : memCanonical (s.rebuildParity page) := by
  unfold State.rebuildParity
  grind -funext only [foldl_canonical, wr_canonical]
theorem modScrub_canonical (l : Level) (i : Nat) (f : Scrub → Scrub) : memCanonical (s.modScrub l i f) := by
  unfold State.modScrub
  grind -funext only [memCanonical, modCore_canonical]
theorem setRate_canonical (core level rate : Nat) : memCanonical (s.setRate core level rate) := by
  unfold State.setRate
  grind -funext only [modScrub_canonical]
theorem clearPkg_canonical (i : Nat) : memCanonical (s.clearPkg i) := by
  unfold State.clearPkg
  grind -funext only [foldl_canonical, memCanonical, modScrub_canonical, modPart_canonical]
theorem dropCtx_canonical (ctx : Nat) : memCanonical (s.dropCtx ctx) := by
  unfold State.dropCtx
  grind -funext only [foldl_canonical, memCanonical, dropRegion_canonical, dropBlockMem_canonical]
theorem bootAgain_canonical : memCanonical s.bootAgain := by
  unfold State.bootAgain
  grind -funext only [foldl_canonical, memCanonical, measure_canonical]
theorem logErr_canonical (p : ErrPlace) (kind : Nat) : memCanonical (s.logErr p kind) := by
  unfold State.logErr
  grind -funext only [memCanonical, modCore_canonical, modScrub_canonical]
theorem poisonReg_canonical (u : UnitRef) (l r : Nat) (fill : Bool) : memCanonical (s.poisonReg u l r fill) := hs
theorem loseThread_canonical (u : UnitRef) (l : Nat) : memCanonical (s.loseThread u l) := by
  unfold State.loseThread
  grind -funext only [afterExit_canonical, retire_canonical, divergeCheck_canonical]
theorem loseResult_canonical (u : UnitRef) (l : Nat) (r : ErrRes) : memCanonical (s.loseResult u l r) := by
  unfold State.loseResult
  grind -funext only [memCanonical, modThread_canonical, loseThread_canonical, markWord_canonical, modBlk_canonical, markGran_canonical]
theorem badCmd_canonical (blk : Nat) (e : Eng) (no : Nat) : memCanonical (s.badCmd blk e no) := by
  unfold State.badCmd
  grind -funext only [memCanonical, modOp_canonical, modM_canonical, modBlk_canonical, modLayer_canonical, modColl_canonical, bump_canonical, handled_canonical]
theorem uncorrectable_canonical (p : ErrPlace) : memCanonical (s.uncorrectable p) := by
  unfold State.uncorrectable
  grind -funext only [poisonReg_canonical, markGran_canonical, modBlk_canonical, markWord_canonical, loseThread_canonical, badCmd_canonical, modCore_canonical, modQ_canonical, loseResult_canonical]
end
theorem goes_execTranslationInvalidate (ctx : Nat) (base : VAddr) (pages : Nat) (s : State) : Goes s (execTranslationInvalidate ctx base pages s) := by
  unfold execTranslationInvalidate
  grind -funext only [memCanonical, goes_next]
theorem goes_execInvalidateComplete (s : State) : Goes s (execInvalidateComplete s) := by
  have rules := @attempt_rules
  refine goes_event ?_ s
  grind -funext only [memCanonical]
theorem goes_execResetBoot (good : List Bool) (s : State) : Goes s (execResetBoot good s) := by
  unfold execResetBoot
  grind -funext only [foldl_canonical, memCanonical, goes_next, measure_canonical, wiped_canonical]
theorem goes_execLifecycleRequest (tgt : Nat) (s : State) : Goes s (execLifecycleRequest tgt s) := by
  unfold execLifecycleRequest
  grind -funext only [memCanonical, goes_next, serveLife_canonical]
theorem goes_execAttestationRequest (nonce : List Byte) (s : State) : Goes s (execAttestationRequest nonce s) := by
  unfold execAttestationRequest
  grind -funext only [memCanonical, goes_next]
theorem goes_execFlashWriteRequest (host : Bool) (src page count : Nat) (s : State) : Goes s (execFlashWriteRequest host src page count s) := by
  unfold execFlashWriteRequest
  grind -funext only [memCanonical, goes_next]
theorem goes_execFlashWriteDone (s : State) : Goes s (execFlashWriteDone s) := by
  have rules := @attempt_rules
  refine goes_event ?_ s
  grind -funext only [memCanonical, serveLife_canonical, rebuildParity_canonical, wrPsn_canonical]
theorem goes_execRegisterWrite (r : HostReg) (v : DWord) (s : State) : Goes s (execRegisterWrite r v s) := by
  refine goes_next fun hs => ite_canonical hs ?_
  cases r with
  | ctxWord c o => exact ite_canonical (modCtx_canonical hs _ _) (hostError_canonical hs)
  | partMask p => exact ite_canonical (modPart_canonical hs _ _) hs
  | faultCtl p => exact modPart_canonical hs _ _
  | linkTimeout p => exact modPart_canonical hs _ _
  | bar4Base => exact ite_canonical hs hs
  | scrubRate c l => exact setRate_canonical hs _ _ _
  | ctxCounter c i => exact ite_canonical (modCtx_canonical hs _ _) hs
  | pkgCounter i => exact ite_canonical (clearPkg_canonical hs _) hs
  | invalidateWord i => exact writeInv_canonical hs _ _
  | ovrClear => exact ite_canonical hs hs
  | queueEntry c q o => exact ite_canonical (noteEn_canonical (devWrite_canonical hs _ _ _)) hs
theorem goes_execBar4Write (ofs : Nat) (bytes : List Byte) (s : State) : Goes s (execBar4Write ofs bytes s) := by
  unfold execBar4Write
  grind -funext only [goes_next, noteEn_canonical, wr_canonical]
theorem goes_execContextDestroy (ctx : Nat) (s : State) : Goes s (execContextDestroy ctx s) := by
  unfold execContextDestroy
  grind -funext only [goes_next, serveLife_canonical, dropCtx_canonical]
theorem goes_execHeartbeatSend (core : Nat) (s : State) : Goes s (execHeartbeatSend core s) := by
  unfold execHeartbeatSend
  grind -funext only [goes_next, modCore_canonical]
theorem goes_execHeartbeatWindowExpiry (core : Nat) (s : State) : Goes s (execHeartbeatWindowExpiry core s) := by
  unfold execHeartbeatWindowExpiry
  grind -funext only [foldl_canonical, goes_next, modCore_canonical, raiseHalt_canonical]
theorem goes_execWatchdogReport (s : State) : Goes s (execWatchdogReport s) := by
  unfold execWatchdogReport
  grind -funext only [memCanonical, goes_next]
theorem goes_execWatchdogExpiry (s : State) : Goes s (execWatchdogExpiry s) := by
  unfold execWatchdogExpiry
  grind -funext only [foldl_canonical, memCanonical, goes_next, haltCtx_canonical, bootAgain_canonical]
theorem goes_execClockThrottleStep (core : Nat) (s : State) : Goes s (execClockThrottleStep core s) := by
  unfold execClockThrottleStep
  grind -funext only [memCanonical, goes_next, modCore_canonical]
theorem goes_execLinkFlitReplay (link : Nat) (s : State) : Goes s (execLinkFlitReplay link s) := by
  unfold execLinkFlitReplay
  grind -funext only [memCanonical, goes_next]
theorem goes_execLinkRouteLost (pkg : Nat) (s : State) : Goes s (execLinkRouteLost pkg s) := by
  unfold execLinkRouteLost
  grind -funext only [memCanonical, goes_next]
theorem goes_execLinkTimeout (pkg : Nat) (s : State) : Goes s (execLinkTimeout pkg s) := by
  unfold execLinkTimeout
  grind -funext only [memCanonical, goes_next]
theorem goes_execScrubTick (level : Level) (inst : Nat) (s : State) : Goes s (execScrubTick level inst s) := by
  unfold execScrubTick
  grind -funext only [goes_next, modScrub_canonical]
theorem goes_execSoftError (p : ErrPlace) (correctable : Bool) (s : State) : Goes s (execSoftError p correctable s) := by
  unfold execSoftError
  grind -funext only [goes_next, logErr_canonical, uncorrectable_canonical]

/-! ## Instructions of class X -/

section
variable {s : State} (hs : memCanonical s)
include hs
theorem pastWord_canonical (v : View) : memCanonical (s.pastWord v) := by
  unfold State.pastWord
  grind -funext only [foldl_canonical, modGrp_canonical, takeFault_canonical]
end
theorem goes_execTrap (w : WI) (s : State) : Goes s (execTrap w s) := by
  have rules := @attempt_rules
  refine goes_unit (fun v => ?_) s
  grind -funext only [foldl_canonical, memCanonical, safe_done, readAll_canonical, retire_canonical, afterExit_canonical, advance_canonical, modThread_canonical, takeFault_canonical]
theorem goes_execSvc (w : WI) (s : State) : Goes s (execSvc w s) := by
  refine goes_unit (fun v => safe_bind (safe_needA _ _) fun _ => ?_) s
  refine keeps_ite (safe_done v) (safe_get fun s hs => ?_)
  refine safe_bind (safe_needA _ _) fun _ => safe_bind (safe_needA _ _) fun _ => ?_
  split
  · exact safe_throw _
  · rename_i ins t hr
    have ht := readAll_canonical hs hr
    refine safe_bind (safe_needA _ _) fun _ => ?_
    extract_lets at_ args t1 t2 t3 t4 t5
    have h5 : memCanonical t5 := pastWord_canonical (modGrp_canonical (modCtx_canonical (devWrite_canonical (devWrite_canonical ht _ _ _) _ _ _) _ _) _ _) _
    clear_value t5
    split
    · exact keeps_set h5
    · split
      · rename_i hb
        exact keeps_set (benchGrp_canonical h5 _ _ hb)
      · exact keeps_set (stand_canonical h5 _ _)
theorem goes_execBkpt (w : WI) (s : State) : Goes s (execBkpt w s) := by
  have rules := @attempt_rules
  refine goes_unit (fun v => ?_) s
  grind -funext only [safe_done, bump_canonical, pastWord_canonical, leave_canonical]
theorem goes_execStatrd (w : WA) (ix : BitVec 8) (s : State) : Goes s (execStatrd w ix s) := by
  have rules := @attempt_rules
  refine goes_unit (fun v => ?_) s
  grind -funext only [safe_runSplit]
theorem goes_execStatclr (w : WA) (ix : BitVec 8) (s : State) : Goes s (execStatclr w ix s) := by
  have rules := @attempt_rules
  refine goes_unit (fun v => ?_) s
  grind -funext only [foldl_canonical, modThread_canonical, modCtx_canonical, advance_canonical]

/-! ## Before an issue, and selection -/

section
variable {s : State} (hs : memCanonical s)
include hs
theorem tickCore_canonical (core sched : Nat) (served : Option UnitRef) : memCanonical (s.tickCore core sched served) := by
  unfold State.tickCore
  grind -funext only [foldl_canonical, memCanonical, modCore_canonical, noteWait_canonical, modGrp_canonical]
theorem preIssue_canonical (u : UnitRef) : memCanonical (s.preIssue u).1 := by
  unfold State.preIssue
  split
  · exact hs
  · rename_i b _
    split
    · exact hs
    · rename_i g0 _
      refine fst_ite_canonical hs ?_
      extract_lets t t' g
      have ht : memCanonical t := tickCore_canonical (meetAll_canonical hs _ _) _ _ _
      have ht' : memCanonical t' := modGrp_canonical ht _ _
      clear_value t' t
      refine fst_ite_canonical (breakClause_canonical ht _) ?_
      split
      · exact ht'
      · refine fst_ite_canonical (holdStep_canonical ht' _ _) (fst_ite_canonical (leave_canonical ht' _ _) ?_)
        split
        · exact takeFault_canonical ht' _ _ _ _ _ _ _
        · split
          · exact takeFault_canonical ht' _ _ _ _ _ _ _
          · exact advance_canonical ht' _ _
          · exact ht'
theorem clearYields_canonical (core sched : Nat) : memCanonical (s.clearYields core sched) := by
  unfold State.clearYields
  grind -funext only [foldl_canonical, modGrp_canonical]
theorem cycleHead_canonical (core sched : Nat) : memCanonical (s.cycleHead core sched) := by
  unfold State.cycleHead
  grind -funext only [foldl_canonical, debugPend_canonical, meetAll_canonical]
end
theorem goes_execSchedulerSelect (core sched : Nat) (s : State) : Goes s (execSchedulerSelect core sched s) := by
  refine goes_next fun hs => ?_
  split
  · extract_lets t
    have hc : memCanonical t := cycleHead_canonical hs core sched
    clear_value t
    split
    · exact tickCore_canonical hc _ _ _
    · extract_lets t1 t2
      have h2 : memCanonical t2 := modCore_canonical (clearYields_canonical (tickCore_canonical hc _ _ _) _ _) _ _
      clear_value t2
      split
      · exact takeFault_canonical (modGrp_canonical h2 _ _) _ _ _ _ _ _ _
      · exact modGrp_canonical h2 _ _
      · exact modGrp_canonical h2 _ _
  · exact hs

end Sys2Proof.Machine
end

section
/-! SUPPORT. Memory stays canonical: every instruction and event, an issue, a turn and a step. -/

namespace Sys2Proof.Machine

open Sys2Proof.Spec

/-- Every instruction and every event goes on and keeps memory canonical: a register instruction because it runs its row over the split's lanes (R161), any other by its own lemma. -/
theorem goes_exec (i : Instr) (s : State) : Goes s (exec i s) := by
  cases i with
  | iadd _ | isub _ | iaddc _ _ | isubb _ _ | imul _ | imulh _ _ | imad _ | imadw _ _ | idiv _ _ | irem _ _ | iabs _ | ineg _ | imin _ _ | imax _ _
  | iclamp _ _ | lea _ _ | iadd64 _ | imad64 _ _ | isetp _ _ _ _ | psetp _ _ | sel _ _ _ | mov _ | movi _ | and _ | or _ | xor _ | andn _ | not _ | bmix _ _
  | shl _ | shr _ | sar _ | rotl _ | shf _ _ | popc _ | clz _ | ctz _ | brev _ | bfx _ _ | bfi _ | bswz _ | iaddImm _ | imulImm _ | andImm _ | orImm _
  | xorImm _ | shlImm _ | shrImm _ | sarImm _ | fadd _ _ | fmul _ _ | ffma _ _ | fmin _ | fmax _ | frnd _ _ | fclass _ | fsetp _ _ _ _ | hadd2 _ _ _
  | hmul2 _ _ _ | hfma2 _ _ _ | frcp _ _ | frsq _ | fsqrt _ _ | fexp2 _ | flog2 _ | ftanh _ | ncvt _ _ _ _ | ndec _ _ _ _ | sread _ _ | swrite _ _ | shfl _ _
  | vote _ _ _ _ _ | ballot _ _ _ | elect _ _ | actmask _ | matchLanes _ _ | redux _ _ _ | scan _ _ _ _ | nscale _ _ =>
    exact goes_unit (fun v => safe_runSplit _ _ _ v) s
  | movp w toPred => cases toPred <;> exact goes_unit (fun v => safe_runSplit _ _ _ v) s
  | cvt w d k r => exact goes_unit (fun v => safe_bind (safe_needA _ _) fun _ => safe_runSplit _ _ _ v) s
  | bra g ofs => exact goes_execBra g ofs s
  | brx w => exact goes_execBrx w s
  | ret w => exact goes_execRet w s
  | call g link ofs => exact goes_execCall g link ofs s
  | callx w => exact goes_execCallx w s
  | meet g ofs => exact goes_execMeet g ofs s
  | exit g => exact goes_execExit g s
  | yield g => exact goes_execYield g s
  | nop g => exact goes_execNop g s
  | hint n payload => exact goes_execHint n payload s
  | bar w => exact goes_execBar w s
  | cbar w => exact goes_execCbar w s
  | qtry w pd => exact goes_execQtry w pd s
  | qcfg w => exact goes_execQcfg w s
  | qlen w => exact goes_execQlen w s
  | ptok w => exact goes_execPtok w s
  | trayw w => exact goes_execTrayw w s
  | ssel w => exact goes_execSsel w s
  | chsend w up => exact goes_execChsend w up s
  | chrecv w up => exact goes_execChrecv w up s
  | rtlaunch w => exact goes_execRtlaunch w s
  | rtclaim w pd => exact goes_execRtclaim w pd s
  | gsig w => exact goes_execGsig w s
  | gwait w => exact goes_execGwait w s
  | lds w sx => exact goes_execLds w sx s
  | ldp w sx => exact goes_execLdp w sx s
  | ldk w sx => exact goes_execLdk w sx s
  | sts w => exact goes_execSts w s
  | stp w => exact goes_execStp w s
  | stk w => exact goes_execStk w s
  | atom w sp op => exact goes_execAtom w sp op s
  | acas w sp => exact goes_execAcas w sp s
  | presw w set => exact goes_execPresw w set s
  | presq w => exact goes_execPresq w s
  | fence w => exact goes_execFence w s
  | bbinit w => exact goes_execBbinit w s
  | bbexp w => exact goes_execBbexp w s
  | bbarv w => exact goes_execBbarv w s
  | bbwait w => exact goes_execBbwait w s
  | tlread w => exact goes_execTlread w s
  | tlwait w => exact goes_execTlwait w s
  | trec w => exact goes_execTrec w s
  | cpy w src => exact goes_execCpy w src s
  | cpys w src => exact goes_execCpys w src s
  | cpyg w src => exact goes_execCpyg w src s
  | cpyc w src => exact goes_execCpyc w src s
  | wstreamStart w => exact goes_execWstreamStart w s
  | wstreamRel w => exact goes_execWstreamRel w s
  | wstreamStop w => exact goes_execWstreamStop w s
  | mwld w => exact goes_execMwld w s
  | mloop w => exact goes_execMloop w s
  | mrowsc w => exact goes_execMrowsc w s
  | mdrain w => exact goes_execMdrain w s
  | mzero w => exact goes_execMzero w s
  | mstat w clr => exact goes_execMstat w clr s
  | aseq w => exact goes_execAseq w s
  | atile w => exact goes_execAtile w s
  | amask w => exact goes_execAmask w s
  | svmap w => exact goes_execSvmap w s
  | svset w => exact goes_execSvset w s
  | svclr w => exact goes_execSvclr w s
  | dsread w sel => exact goes_execDsread w sel s
  | dscommit w => exact goes_execDscommit w s
  | dstruncFrame w => exact goes_execDstruncFrame w s
  | dstruncPos w => exact goes_execDstruncPos w s
  | dsckptSave w => exact goes_execDsckptSave w s
  | dsckptRel w => exact goes_execDsckptRel w s
  | hnew w => exact goes_execHnew w s
  | hcopy w => exact goes_execHcopy w s
  | hdrop w => exact goes_execHdrop w s
  | hbind w => exact goes_execHbind w s
  | hderef w => exact goes_execHderef w s
  | hwt w => exact goes_execHwt w s
  | collAr w => exact goes_execCollAr w s
  | collAg w => exact goes_execCollAg w s
  | collRs w => exact goes_execCollRs w s
  | xsigSet w => exact goes_execXsigSet w s
  | xsigAdd w => exact goes_execXsigAdd w s
  | trap w => exact goes_execTrap w s
  | svc w => exact goes_execSvc w s
  | bkpt w => exact goes_execBkpt w s
  | statrd w ix => exact goes_execStatrd w ix s
  | statclr w ix => exact goes_execStatclr w ix s
  | schedulerSelect core sched => exact goes_execSchedulerSelect core sched s
  | fairnessTimerExpiry blk g => exact goes_execFairnessTimerExpiry blk g s
  | ageingPromotion blk g => exact goes_execAgeingPromotion blk g s
  | clauseBreak u => exact goes_execClauseBreak u s
  | meetingRelease blk g addr => exact goes_execMeetingRelease blk g addr s
  | registerFill id => exact goes_execRegisterFill id s
  | sqDeparture u => exact goes_execSqDeparture u s
  | ocDelivery core slice => exact goes_execOcDelivery core slice s
  | tlbWalkComplete tlb ctx va => exact goes_execTlbWalkComplete tlb ctx va s
  | blockAdmission grid => exact goes_execBlockAdmission grid s
  | blockEnd blk => exact goes_execBlockEnd blk s
  | idleRequest grid core => exact goes_execIdleRequest grid core s
  | gwaitBenchDelayExpiry blk => exact goes_execGwaitBenchDelayExpiry blk s
  | blockReturn blk => exact goes_execBlockReturn blk s
  | gwaitLimitExpiry u => exact goes_execGwaitLimitExpiry u s
  | holdLimitExpiry u => exact goes_execHoldLimitExpiry u s
  | groupReturn blk g => exact goes_execGroupReturn blk g s
  | copyTile blk ctx st => exact goes_execCopyTile blk ctx st s
  | copyLineLanding blk ctx no line => exact goes_execCopyLineLanding blk ctx no line s
  | engineOperationComplete blk e no => exact goes_execEngineOperationComplete blk e no s
  | matrixOperationBegin core drain => exact goes_execMatrixOperationBegin core drain s
  | matrixKstep core => exact goes_execMatrixKstep core s
  | mdrainLineLanding blk no line => exact goes_execMdrainLineLanding blk no line s
  | attentionGatherBlock st => exact goes_execAttentionGatherBlock st s
  | shelfReservation grid => exact goes_execShelfReservation grid s
  | pageSenseDone sense res => exact goes_execPageSenseDone sense res s
  | pageBackingFetchDone sense => exact goes_execPageBackingFetchDone sense s
  | wstreamLayerStart blk => exact goes_execWstreamLayerStart blk s
  | dropMessageArrival core home => exact goes_execDropMessageArrival core home s
  | bindMessageArrival core home => exact goes_execBindMessageArrival core home s
  | finaliserStart => exact goes_execFinaliserStart s
  | collectiveJoin blk st remote => exact goes_execCollectiveJoin blk st remote s
  | frameWindowWrite ctx ofs bytes => exact goes_execFrameWindowWrite ctx ofs bytes s
  | frameArrival => exact goes_execFrameArrival s
  | q17Push blk => exact goes_execQ17Push blk s
  | queueNotify ctx q idx => exact goes_execQueueNotify ctx q idx s
  | queueSlotAssign => exact goes_execQueueSlotAssign s
  | packetFetch slot => exact goes_execPacketFetch slot s
  | tagRefetch slot => exact goes_execTagRefetch slot s
  | nopPacket slot => exact goes_execNopPacket slot s
  | launch slot => exact goes_execLaunch slot s
  | launchPages slot => exact goes_execLaunchPages slot s
  | range slot => exact goes_execRange slot s
  | resume slot => exact goes_execResume slot s
  | save slot => exact goes_execSave slot s
  | ib slot => exact goes_execIb slot s
  | pred slot => exact goes_execPred slot s
  | loop slot => exact goes_execLoop slot s
  | wait slot => exact goes_execWait slot s
  | waitPoll slot => exact goes_execWaitPoll slot s
  | waitPark slot => exact goes_execWaitPark slot s
  | parkedWaitPoll ctx q => exact goes_execParkedWaitPoll ctx q s
  | waitStall ctx q => exact goes_execWaitStall ctx q s
  | signal slot => exact goes_execSignal slot s
  | fetchFence slot => exact goes_execFetchFence slot s
  | complete slot => exact goes_execComplete slot s
  | packetRetire ctx q => exact goes_execPacketRetire ctx q s
  | completionQueueWrite ctx cq => exact goes_execCompletionQueueWrite ctx cq s
  | cqTimerExpiry ctx cq => exact goes_execCqTimerExpiry ctx cq s
  | cqread ctx cq idx => exact goes_execCqread ctx cq idx s
  | fqread ctx idx => exact goes_execFqread ctx idx s
  | faultRecordPost ctx => exact goes_execFaultRecordPost ctx s
  | svcreply ctx idx => exact goes_execSvcreply ctx idx s
  | faultAnswerResume ctx idx => exact goes_execFaultAnswerResume ctx idx s
  | faultAnswerAbandon ctx idx => exact goes_execFaultAnswerAbandon ctx idx s
  | haltSequence part => exact goes_execHaltSequence part s
  | stopRecordWrite part => exact goes_execStopRecordWrite part s
  | contextHalted part => exact goes_execContextHalted part s
  | breakpointTrigger u => exact goes_execBreakpointTrigger u s
  | debugGroupHalt blk g => exact goes_execDebugGroupHalt blk g s
  | debugResume u => exact goes_execDebugResume u s
  | breakpointSet ctx addrs => exact goes_execBreakpointSet ctx addrs s
  | translationInvalidate ctx base pages => exact goes_execTranslationInvalidate ctx base pages s
  | invalidateComplete => exact goes_execInvalidateComplete s
  | flashWriteRequest host src page count => exact goes_execFlashWriteRequest host src page count s
  | flashWriteDone => exact goes_execFlashWriteDone s
  | attestationRequest nonce => exact goes_execAttestationRequest nonce s
  | lifecycleRequest tgt => exact goes_execLifecycleRequest tgt s
  | queueRestart ctx q idx => exact goes_execQueueRestart ctx q idx s
  | contextDestroy ctx => exact goes_execContextDestroy ctx s
  | registerWrite r v => exact goes_execRegisterWrite r v s
  | heartbeatSend core => exact goes_execHeartbeatSend core s
  | heartbeatWindowExpiry core => exact goes_execHeartbeatWindowExpiry core s
  | watchdogReport => exact goes_execWatchdogReport s
  | watchdogExpiry => exact goes_execWatchdogExpiry s
  | resetBoot good => exact goes_execResetBoot good s
  | clockThrottleStep core => exact goes_execClockThrottleStep core s
  | scrubTick level inst => exact goes_execScrubTick level inst s
  | linkFlitReplay link => exact goes_execLinkFlitReplay link s
  | linkRouteLost pkg => exact goes_execLinkRouteLost pkg s
  | linkTimeout pkg => exact goes_execLinkTimeout pkg s
  | softError p correctable => exact goes_execSoftError p correctable s
  | bar4Write ofs bytes => exact goes_execBar4Write ofs bytes s

theorem goes_issue (u : UnitRef) (s : State) : Goes s (issue u s) := by
  have h (hs : memCanonical s) := preIssue_canonical hs u
  unfold issue
  generalize s.preIssue u = r at h ⊢
  obtain ⟨t, _ | i⟩ := r
  · exact goes_next h
  · exact (goes_exec i t).after h
theorem goes_turn (x : Turn) (s : State) : Goes s (turn x s) := by
  cases x with
  | event i => exact goes_exec i s
  | issue u => exact goes_issue u s
theorem goes_step (s : State) : Goes s (step s) := by
  unfold step
  split
  · exact (goes_turn _ _).after fun hs => hs
  · exact (goes_turn _ _).after fun hs => hs

end Sys2Proof.Machine
end

section
open Sys2Proof Sys2Proof.Machine Sys2Proof.Spec

/-- Settles O56: a step is a turn of the agenda, an issue ends in `exec` or at a check before it, and each of `exec`'s meanings writes memory through operations that keep it canonical. -/
theorem everyStepGoesOnAndKeepsMemory : Obligations.EveryStepGoesOnAndKeepsMemory := goes_step
end
